-- ==== Sys2Proof/Word.lean ====
section
/-! DEFINITION. The plain types shared by every file: bytes, the ids of channels, ports and conditions. -/
namespace Sys2Proof

/-- One byte of a frame on any line. -/
abbrev Byte := BitVec 8

/-- A logical channel, L0 to L5 (Introduction, Strobes and channels). -/
abbrev Chan := Fin 6

/-- A digitizer port, D0 or D1; also a calibration sensor, CAL_0 or CAL_1. -/
abbrev PortId := Fin 2

/-- A condition id, 0 to 17 (9.1). -/
abbrev CondId := Fin 18

/-- A byte of value n modulo 256. -/
abbrev byte (n : Nat) : Byte := BitVec.ofNat 8 n

end Sys2Proof
end

