-- ==== Sys2Proof/Syntax.lean ====
section
/-! DEFINITION. The commands of the VT-240: one constructor per row of spec/opcode_table.json. A command of a line
carries `dt`, the oscillator cycles that passed since the command before it (log 2). A request of the station bus
carries nothing: its fields stand in the request in hand, which the characters of the bus have built (R198). -/
namespace Sys2Proof

/-- One reading of the five monitor inputs as sampled (R136, R137): battery voltage and solar voltage in mV, battery
current in mA, and the two temperature inputs in mV. -/
structure Reading where
  vb : Nat
  ib : Int
  vs : Nat
  tpMv : Nat
  tvMv : Nat
  deriving DecidableEq, Repr

/-- The three mark inputs (2.1). -/
inductive Input where
  | pps
  | markA
  | markB
  deriving DecidableEq, Repr

/-- What befell a character of the station bus on its way to the frame logic (R197). -/
inductive CharFault where
  /-- Taken whole. -/
  | clean
  /-- Its stop bit was sampled low. -/
  | framing
  /-- Lost: the next character completed before this one was taken; can happen at divisors 1 to 3 only (log 17). -/
  | overrun
  deriving DecidableEq, Repr

/-- The commands. Each docstring names the rule of the row. -/
inductive Instr where
  /-- POWER_ON (R210), with the power-on reading. -/
  | powerOn (r : Reading)
  /-- SECOND_BOUNDARY (R1), with the reading taken at it. -/
  | secondBoundary (r : Reading)
  /-- FULL_SYNC (R150). -/
  | fullSync
  /-- ABSORB_TIME_LIMIT (R150). -/
  | absorbTimeLimit
  /-- FLOAT_LOW_RECHARGE (R151). -/
  | floatLowRecharge
  /-- CHARGER_AUTO_RESTART (R152). -/
  | chargerAutoRestart
  /-- EMPTY_SYNC (R139). -/
  | emptySync
  /-- SHED_ENTRY (R143). -/
  | shedEntry
  /-- SHED_EXIT (R144). -/
  | shedExit
  /-- CHG_PWM_PERIOD (R146). -/
  | chgPwmPeriod
  /-- CHARGE_HOLD_EXPIRY (R154). -/
  | chargeHoldExpiry
  /-- HEATER_AUTO_RESTART (R173). -/
  | heaterAutoRestart
  /-- HEATER_HOLD_EXPIRY (R170). -/
  | heaterHoldExpiry
  /-- HEAT_FAULT_ASSERTED (R172). -/
  | heatFaultAsserted (dt : Nat)
  /-- HEAT_FAULT_CLEARED (R172). -/
  | heatFaultCleared (dt : Nat)
  /-- STROBE (R34). -/
  | strobe
  /-- PENDING_RATE_APPLY (R36). -/
  | pendingRateApply
  /-- PENDING_MAP_APPLY (R57). -/
  | pendingMapApply
  /-- INPUT_EDGE (R27): the input changes in its selected direction. -/
  | inputEdge (dt : Nat) (i : Input)
  /-- INPUT_LEVEL_RETURN (R27): the input changes in the other direction. -/
  | inputLevelReturn (dt : Nat) (i : Input)
  /-- EDGE_QUALIFIED (R27). -/
  | edgeQualified (i : Input)
  /-- SECONDS_CORRECTION (R11). -/
  | secondsCorrection
  /-- TRACK_ENTRY (R14). -/
  | trackEntry
  /-- TRACK_UNLOCK (R15). -/
  | trackUnlock
  /-- PPS_WATCH_EXPIRY (R16). -/
  | ppsWatchExpiry
  /-- GNSS_SESSION_START (R24). -/
  | gnssSessionStart
  /-- GNSS_SESSION_END (R24). -/
  | gnssSessionEnd
  /-- GNSS_LABEL (R4, R216): bytes received on the GNSS line; a whole label is eight of them. -/
  | gnssLabel (dt : Nat) (bytes : List Byte)
  /-- GNSS_LABEL_TIMEOUT (R216). -/
  | gnssLabelTimeout
  /-- GNSS_FRAMING_ERROR (R216). -/
  | gnssFramingError (dt : Nat)
  /-- CAL_PULSE_END (R40), on the line of one sensor. -/
  | calPulseEnd (p : PortId)
  /-- CAL_RUN_END (R40). -/
  | calRunEnd
  /-- CAL_SETTLE_EXPIRY (R39). -/
  | calSettleExpiry
  /-- SUPPRESSION_WINDOW_CLOSE (R41), of one port. -/
  | suppressionWindowClose (p : PortId)
  /-- DRDY_EDGE (R45), of one port. -/
  | drdyEdge (dt : Nat) (p : PortId)
  /-- DIGITIZER_FRAME (R46): the 14 bytes of the frame whose last bit has been taken. -/
  | digitizerFrame (dt : Nat) (p : PortId) (bytes : List Byte)
  /-- STARTING_TIMEOUT (R50), of one port. -/
  | startingTimeout (p : PortId)
  /-- LINK_UP (R52, R50), with the alarm flag of the frame that completes the good run. -/
  | linkUp (p : PortId) (alarm : Bool)
  /-- LINK_DOWN (R51). -/
  | linkDown (p : PortId)
  /-- WARMUP_COMPLETE (R75), of one channel. -/
  | warmupComplete (c : Chan)
  /-- LTA_RELEASE (R77), of one channel. -/
  | ltaRelease (c : Chan)
  /-- POST_TIMER_EXPIRY (R92). -/
  | postTimerExpiry
  /-- EVENT_TRUNCATE (R93). -/
  | eventTruncate
  /-- NOT_BEFORE_PASSED (R123). -/
  | notBeforePassed
  /-- MODEM_START (R125). -/
  | modemStart
  /-- MODEM_START_TIMEOUT (R125). -/
  | modemStartTimeout
  /-- MODEM_READY (R130): a good READY frame has arrived. -/
  | modemReady (dt : Nat)
  /-- OFFER (R126). -/
  | offer
  /-- MODEM_HOLD_EXPIRY (R126). -/
  | modemHoldExpiry
  /-- TAKE (R127), with its offer tag. -/
  | take (dt : Nat) (tag : Byte)
  /-- MODEM_BUSY (R127), with its offer tag. -/
  | modemBusy (dt : Nat) (tag : Byte)
  /-- OFFER_TIMEOUT (R127). -/
  | offerTimeout
  /-- SENT (R128), with its offer tag. -/
  | sent (dt : Nat) (tag : Byte)
  /-- FAILED (R128), with its offer tag. -/
  | failed (dt : Nat) (tag : Byte)
  /-- SEND_TIMEOUT (R128). -/
  | sendTimeout
  /-- BACKOFF_EXPIRY (R131). -/
  | backoffExpiry
  /-- MODEM_BAD_FRAME (R124, R215): bytes received on the modem line, judged frame by frame. -/
  | modemBadFrame (dt : Nat) (bytes : List Byte)
  /-- MODEM_FRAME_TIMEOUT (R215). -/
  | modemFrameTimeout
  /-- MODEM_FRAMING_ERROR (R215). -/
  | modemFramingError (dt : Nat)
  /-- INTERVAL_BOUNDARY (R192). -/
  | intervalBoundary
  /-- BUS_ADDRESS_CHARACTER (R198): a character with its ninth bit high. -/
  | busAddressCharacter (dt : Nat) (b : Byte) (f : CharFault)
  /-- BUS_DATA_CHARACTER (R198): a character with its ninth bit low. -/
  | busDataCharacter (dt : Nat) (b : Byte) (f : CharFault)
  /-- BUS_GAP_TIMEOUT (R199). -/
  | busGapTimeout
  /-- UNKNOWN_TYPE (R201). -/
  | unknownType
  /-- REPLY_END (R202). -/
  | replyEnd
  /-- STATUS (R212). -/
  | status
  /-- TIME_GET (R21). -/
  | timeGet
  /-- TIME_SET (R20). -/
  | timeSet
  /-- CLOCK_DETAIL (R21). -/
  | clockDetail
  /-- PARAM_GET (R205). -/
  | paramGet
  /-- PARAM_SET (R206). -/
  | paramSet
  /-- SETTINGS_SAVE (R209). -/
  | settingsSave
  /-- SETTINGS_SAVE_DONE (R209), with whether the slot read back equal and its check matched. -/
  | settingsSaveDone (dt : Nat) (ok : Bool)
  /-- DETECTOR_SET (R82). -/
  | detectorSet
  /-- DETECTOR_GET (R85). -/
  | detectorGet
  /-- MAP_SET (R56). -/
  | mapSet
  /-- MAP_GET (R58). -/
  | mapGet
  /-- EVENT_INDEX (R102). -/
  | eventIndex
  /-- EVENT_GET (R103). -/
  | eventGet
  /-- EVENT_RELEASE (R104). -/
  | eventRelease
  /-- SAMPLES_FETCH (R106). -/
  | samplesFetch
  /-- MARKS_TAKE (R32). -/
  | marksTake
  /-- CAL_ADD (R38). -/
  | calAdd
  /-- CAL_CANCEL (R42). -/
  | calCancel
  /-- CAL_LIST (R43). -/
  | calList
  /-- CONDITIONS_GET (R188). -/
  | conditionsGet
  /-- PENDING_CLEAR (R189). -/
  | pendingClear
  /-- INTERVAL_GET (R194). -/
  | intervalGet
  /-- POWER_GET (R156). -/
  | powerGet
  /-- OUTPUT_RESTART_CHARGER (R155): the charger's part of OUTPUT_RESTART. -/
  | outputRestartCharger
  /-- OUTPUT_RESTART_HEATER (R174): the heater's part of OUTPUT_RESTART. -/
  | outputRestartHeater
  /-- OUTBOX_GET (R120). -/
  | outboxGet
  /-- NOTE_SEND (R119). -/
  | noteSend
  /-- RESTART (R211): answered and scheduled; a broadcast is carried out at once. -/
  | restart
  /-- RESTART_EXECUTE (R211). -/
  | restartExecute (dt : Nat)
  /-- HEAT_HIGH_TIME_END (R164). -/
  | heatHighTimeEnd
  /-- CHG_LIMIT_HIGH_END (R146). -/
  | chgLimitHighEnd
  /-- SAMPLE_PULSE_END (R34). -/
  | samplePulseEnd
  /-- REPLY_START (R202), with the cycles the part takes beyond what has already passed. -/
  | replyStart (dt : Nat)
  /-- POWER_LOSS (R208). -/
  | powerLoss
  deriving DecidableEq, Repr

end Sys2Proof
end

