-- ==== Sys2Proof/Config.lean ====
section
/-! DEFINITION. What is fixed for every VT-240 (the oscillator) and the free values: values the manual
gives no statement of, constants without a body, so that no proof can see what they are. -/
namespace Sys2Proof

/-- Ticks of 100 ns in one station second (Introduction, Station time). -/
abbrev Config.ticks : Nat := 10000000

/-- Oscillator cycles in one second at rate correction zero: 10.000 MHz. -/
abbrev Config.hertz : Nat := 10000000

/-- Size of the 32-bit fields that wrap (R1, R112). -/
abbrev Config.wrap32 : Nat := 4294967296

/-- Size of the strobe numbers, 48 bits (R34). -/
abbrev Config.wrap48 : Nat := 281474976710656

/-- FREE VALUE (log 13). The six bytes STATUS gives for the most recent strobe number before any strobe has
been issued: R37 and R212 state no value. The argument is the State's counter of free values. -/
opaque Config.noStrobeYet : Nat → BitVec 48

/-- FREE VALUE (log 13). The byte DETECTOR_GET gives for the link state of the source port of a channel whose
source is none: R85 states no value. The argument is the State's counter of free values. -/
opaque Config.noSourceLink : Nat → BitVec 8

end Sys2Proof
end

