-- ==== Sys2Proof/Machine/State.lean ====
section
/-! DEFINITION. The state of the VT-240 as plain data: one structure for each block of the manual, under the field names
INVENTORY.md lists with their rules, and the state right after power-on. -/
namespace Sys2Proof.Machine

/-- The manual stops the part nowhere, so no command of this model faults: nobody raises a fault (safe). -/
inductive Fault where
  deriving DecidableEq, Repr

/-- Why a command has no meaning. -/
inductive Refusal where
  /-- Raised by `exec` for a command of the table this model gives no meaning (safe: nothing is computed). -/
  | notModelled (mnemonic : String)
  deriving DecidableEq, Repr

/-- The time quality grade (Introduction), in the order of 11.1. -/
inductive Grade where
  | U | A | B | C | D
  deriving DecidableEq, Repr

/-- A station time s:t (Introduction). -/
structure Time where
  s : Nat
  t : Nat
  deriving DecidableEq, Repr

/-- A station time with the grade derived when it was taken (R17). -/
structure Stamp where
  time : Time
  grade : Grade
  deriving DecidableEq, Repr

/-! Station Clock (chapter 1). -/

/-- Discipline state (1.3). -/
inductive Disc where
  | unset | acquire | track | holdover
  deriving DecidableEq, Repr

/-- Holdover reason (R18). -/
inductive HoldReason where
  | ppsLoss | gnssOff | shed | hostSet
  deriving DecidableEq, Repr

/-- GNSS supply state (1.8). -/
inductive Supply where
  | continuous | session | resting | shedOff
  deriving DecidableEq, Repr

/-- A latched GNSS label (R4). -/
structure Label where
  secs : Nat
  fix : Nat
  deriving DecidableEq, Repr

/-- The Station Clock; `ticks` are the ticks that counting has added since power-on, from which R8 and R20 measure elapsed
time. -/
structure Clock where
  s : Nat := 0
  t : Nat := 0
  ticks : Nat := 0
  acc : Int := 0
  c : Int := 0
  r : Int := 0
  corr : List Nat := []
  corrUp : Bool := false
  disc : Disc := .unset
  reason : Option HoldReason := none
  rLoss : Int := 0
  tLoss : Int := 0
  u : Nat := 4294967295
  label : Option Label := none
  lock : Nat := 0
  unlock : Nat := 0
  mismatch : Nat := 0
  offset : Option Int := none
  stepDeferred : Bool := false
  watch : Nat := 0
  supply : Supply := .continuous
  rest : Nat := 0
  session : Nat := 0
  hold : Nat := 0
  labelErrors : Nat := 0
  unfixed : Nat := 0
  steps : Nat := 0
  rx : List Byte := []
  lastByte : Nat := 0
  div : Nat := 33
  deriving DecidableEq, Repr

/-! Mark Capture Unit (2.1, 2.2). -/

/-- An edge whose width count is running: its stamp, the oscillator cycle at which it was seen (R27), and the clock's count
of ticks there (R8). -/
structure EdgeTest where
  stamp : Stamp
  cycle : Nat
  ticks : Nat
  deriving DecidableEq, Repr

/-- One mark input: its level, the edge under test and the prescale count (R27, R29). -/
structure MarkInput where
  high : Bool := false
  edge : Option EdgeTest := none
  count : Nat := 0
  deriving DecidableEq, Repr

/-- A Mark record (2.2). -/
structure Mark where
  input : Input
  stamp : Stamp
  seq : Nat
  deriving DecidableEq, Repr

/-- The Mark Capture Unit. -/
structure Capture where
  pps : MarkInput := {}
  markA : MarkInput := {}
  markB : MarkInput := {}
  lastPass : Option Nat := none
  widthRej : Nat := 0
  holdoffRej : Nat := 0
  windowRej : Nat := 0
  seqA : Nat := 0
  seqB : Nat := 0
  marks : List Mark := []
  overrun : Nat := 0
  deriving DecidableEq, Repr

/-! Output Scheduler (2.3, 2.4). -/

/-- Outcome of a calibration entry (2.4). -/
inductive CalOutcome where
  | waiting | deferred | running | done | skipped | cancelled
  deriving DecidableEq, Repr

/-- An entry of the Calibration Schedule (2.4); `waiting` is the manual's PENDING. -/
structure Cal where
  id : Nat
  sensor : PortId
  start : Nat
  width : Nat
  count : Nat
  spacing : Nat
  outcome : CalOutcome
  runStart : Option Nat
  issued : Nat
  withheld : Nat
  deriving DecidableEq, Repr

/-- A suppression window (R41); `closing` names the cycle at which it closes. -/
inductive Window where
  | closed
  | running
  | closing (cycle : Nat)
  deriving DecidableEq, Repr

/-- The Output Scheduler. -/
structure Scheduler where
  next : Nat := 0
  last : Option Nat := none
  started : Bool := false
  point : Nat := 0
  rate : Nat := 100
  pending : Option Nat := none
  sampleEnd : Option Nat := none
  breakDue : Bool := false
  lastBreak : Option Nat := none
  breaks : Nat := 0
  cals : List Cal := []
  calId : Nat := 1
  settleEnd : Option Nat := none
  windows : Vector Window 2 := #v[.closed, .closed]
  lines : Vector (Option Time) 2 := #v[none, none]
  deriving DecidableEq, Repr

/-! Digitizer Ports and Channel Map (3.1 to 3.3). -/

/-- Link state (3.2). -/
inductive Link where
  | off | starting | up | down
  deriving DecidableEq, Repr

/-- Outcome of a strobe on a port (R45, R46); a good one keeps its sequence (R47). -/
inductive PortOutcome where
  | good (seq : Byte)
  | syncError
  | crcError
  | missing
  deriving DecidableEq, Repr

/-- A digitizer port. -/
structure Port where
  link : Link := .off
  window : Option Nat := none
  transfer : Option Nat := none
  startAt : Nat := 0
  badRun : Nat := 0
  goodRun : Nat := 0
  last : Option PortOutcome := none
  alarm : Bool := false
  downs : Nat := 0
  deriving DecidableEq, Repr

/-- One entry of the Channel Map; source 0 to 5 is D0.0 to D1.2 (3.3, 11.2). -/
structure MapEntry where
  source : Option (Fin 6)
  inverted : Bool
  component : Fin 3
  sensor : Byte
  deriving DecidableEq, Repr

/-- A Channel Map (3.3). -/
structure ChanMap where
  entries : Vector MapEntry 6
  reversed : Vector Bool 2
  deriving DecidableEq, Repr

/-- The identity map of 3.3. -/
def ChanMap.identity : ChanMap where
  entries := #v[⟨some 0, false, 0, 0⟩, ⟨some 1, false, 1, 0⟩, ⟨some 2, false, 2, 0⟩,
    ⟨some 3, false, 0, 1⟩, ⟨some 4, false, 1, 1⟩, ⟨some 5, false, 2, 1⟩]
  reversed := #v[false, false]

/-! Sample Rings (3.4). -/

/-- A ring slot (3.4). -/
structure Slot where
  value : Int
  gap : Bool
  clip : Bool
  deriving DecidableEq, Repr

/-- A Sample Ring: its slots by index (only those that differ from a slot nothing has written), and its two numbers. -/
structure Ring where
  slots : List (Nat × Slot) := []
  oldest : Nat := 0
  newest : Option Nat := none
  deriving DecidableEq, Repr

/-! Trigger Engine (chapter 4). -/

/-- Trigger state (4.5). -/
inductive TrigState where
  | off | warmup | quiet | triggered | suppressed
  deriving DecidableEq, Repr

/-- The eight detector settings (4.6). -/
structure Detector where
  enable : Bool := true
  staShift : Nat := 3
  ltaShift : Nat := 8
  onRatio : Nat := 64
  offRatio : Nat := 24
  floor : Nat := 10
  trigMax : Nat := 60
  weight : Nat := 1
  deriving DecidableEq, Repr

/-- A logical channel (chapter 4). -/
structure Channel where
  state : TrigState := .off
  sta : Nat := 0
  lta : Nat := 0
  prev : Int := 0
  warmup : Nat := 0
  warmed : Bool := false
  frozen : Bool := false
  released : Bool := false
  age : Nat := 0
  ratio : Nat := 0
  supp : Bool := false
  last : Option Nat := none
  count : Nat := 0
  det : Detector := {}
  deriving DecidableEq, Repr

/-! Event Engine (chapter 5). -/

/-- Event state (5.2). -/
inductive EvState where
  | idle | opened | closing | rearm
  deriving DecidableEq, Repr

/-- State of an event record (5.3). -/
inductive RecState where
  | opened | closing | closed
  deriving DecidableEq, Repr

/-- A counting mark: the ON strobe and the length of the window in strobes, so that the window end is
ON + span − 1 (R88). -/
structure Counting where
  on : Nat
  span : Nat
  deriving DecidableEq, Repr

/-- A strobe note (R87). -/
structure Note where
  strobe : Nat
  stamp : Stamp
  deriving DecidableEq, Repr

/-- A channel report (R67); `overridden` by a signal taken before the vote (R89). -/
structure Report where
  chan : Chan
  strobe : Nat
  state : TrigState
  on : Bool
  off : Bool
  ratio : Nat
  value : Int
  gap : Bool
  clip : Bool
  overridden : Bool
  deriving DecidableEq, Repr

/-- Running peaks of a channel (R96). -/
structure Peak where
  ratio : Nat := 0
  absx : Nat := 0
  clipped : Bool := false
  deriving DecidableEq, Repr

/-- A trigger-list entry (5.3). -/
structure TrigEntry where
  chan : Chan
  firstOn : Nat
  offset : Int
  onCount : Nat
  peak : Peak
  deriving DecidableEq, Repr

/-- The eight flags of an event record (R97). -/
structure EvFlags where
  truncated : Bool := false
  aborted : Bool := false
  shed : Bool := false
  degraded : Bool := false
  timePoor : Bool := false
  stepDeferred : Bool := false
  calDeferred : Bool := false
  heatHeld : Bool := false
  deriving DecidableEq, Repr

/-- The close fields of an event record (R94). -/
structure CloseInfo where
  stamp : Stamp
  strobe : Nat
  duration : Nat
  deriving DecidableEq, Repr

/-- An event record (5.3). -/
structure EvRecord where
  number : Nat
  state : RecState
  openStamp : Stamp
  openStrobe : Nat
  preStart : Nat
  close : Option CloseInfo
  peakS : Nat
  list : List TrigEntry
  flags : EvFlags
  deriving DecidableEq, Repr

/-- The Event Engine; `number` absent is the exhausted mark (R101). -/
structure Events where
  state : EvState := .idle
  counting : Vector (Option Counting) 6 := #v[none, none, none, none, none, none]
  notes : List Note := []
  reports : List Report := []
  lastVoted : Option Note := none
  post : Nat := 0
  peaks : Vector Peak 6 := #v[{}, {}, {}, {}, {}, {}]
  record : Option EvRecord := none
  list : List EvRecord := []
  number : Option Nat := some 1
  released : Nat := 0
  lost : Nat := 0
  wakeTerm : Bool := false
  deriving DecidableEq, Repr

/-! Alert Outbox and Modem Line Controller (chapter 6). -/

/-- Kind of an alert (6.1). -/
inductive AlertKind where
  | eventOpen | eventClose | condition | note
  deriving DecidableEq, Repr

/-- An entry of an EVENT_OPEN content (6.1). -/
structure OpenEntry where
  chan : Chan
  offset : Int
  ratio : Nat
  deriving DecidableEq, Repr

/-- The content of an alert (6.1). -/
inductive Content where
  | eventOpen (openStamp : Stamp) (sum : Nat) (entries : List OpenEntry)
  | eventClose (openStamp : Stamp) (duration peakS : Nat) (flags : EvFlags) (entries : List TrigEntry)
  | condition (id : CondId) (status : Bool) (changes : Nat) (latest : Stamp)
  | note (text : List Byte)
  deriving DecidableEq, Repr

/-- An alert record (6.1). -/
structure Alert where
  kind : AlertKind
  rank : Nat
  origin : Nat
  created : Stamp
  position : Nat
  inFlight : Bool
  attempts : Nat
  notBefore : Option Time
  content : Content
  deriving DecidableEq, Repr

/-- The Alert Outbox. -/
structure Outbox where
  entries : List Alert := []
  credits : Int := 10
  creation : Nat := 0
  note : Nat := 1
  sent : Nat := 0
  drops : Nat := 0
  deriving DecidableEq, Repr

/-- Modem link state (6.5). -/
inductive ModemLink where
  | off | starting | ready | offered | sending | backoff
  deriving DecidableEq, Repr

/-- The Modem Line Controller; `since` and `limit` are the link timer's start cycle and limit in cycles. `div` is the divisor
taken at the receiver's last frame boundary, at which a frame being received goes on, `tx` the frame sent last and `txDiv` the
divisor taken at its start, at which it goes out to its end (R133). -/
structure Modem where
  link : ModemLink := .off
  since : Nat := 0
  limit : Nat := 0
  tag : Byte := 0
  fails : Nat := 0
  fault : Bool := false
  bad : Nat := 0
  unexpected : Nat := 0
  startTimeouts : Nat := 0
  rx : List Byte := []
  lastByte : Nat := 0
  div : Nat := 33
  tx : List Byte := []
  txDiv : Nat := 33
  deriving DecidableEq, Repr

/-! Power Monitor and Battery Care (chapter 7). -/

/-- The Power Monitor. -/
structure Power where
  vb : Nat := 12600
  ib : Int := 0
  vs : Nat := 0
  tp : Int := 0
  tv : Int := 0
  tpValid : Bool := true
  tvValid : Bool := true
  solar : Bool := false
  deriving DecidableEq, Repr

/-- Battery class (7.3). -/
inductive BatClass where
  | normal | low | critical
  deriving DecidableEq, Repr

/-- Power state (7.4). -/
inductive PowerState where
  | run | shed
  deriving DecidableEq, Repr

/-- Charge state (7.5). -/
inductive Charge where
  | idle | coldHold | hotHold | bulk | absorb | float | fault
  deriving DecidableEq, Repr

/-- Battery Care. -/
structure Battery where
  q : Nat := 57600000
  soc : Nat := 40
  cls : BatClass := .normal
  power : PowerState := .run
  cutoff : Nat := 0
  reconnect : Nat := 0
  empty : Nat := 0
  emptyCounted : Bool := false
  charge : Charge := .idle
  limit : Nat := 0
  duty : Nat := 0
  chgStart : Nat := 0
  chgHigh : Bool := false
  chgEnd : Option Nat := none
  absorb : Nat := 0
  term : Nat := 0
  floatLow : Nat := 0
  overRun : Nat := 0
  clear : Nat := 0
  restarts : Nat := 0
  cause : Bool := false
  hold : Option Nat := none
  holdFlagged : Bool := false
  fullSyncs : Nat := 0
  emptySyncs : Nat := 0
  faults : Nat := 0
  sheds : Nat := 0
  deriving DecidableEq, Repr

/-! Heater Controller (chapter 8). -/

/-- Heater state (chapter 8). -/
inductive HeatState where
  | regulate | held | shutdown | off
  deriving DecidableEq, Repr

/-- The Heater Controller; `faultAt` is the cycle from which the filter of HEAT_FAULT counts: that of the input's last
change, or power-on (R172, R178). -/
structure Heater where
  state : HeatState := .regulate
  target : Int := -200
  error : Int := -200
  request : Nat := 0
  limit : Nat := 1000
  latched : Nat := 0
  period : Option Nat := none
  periodAt : Nat := 0
  periodLen : Nat := 0
  heat : Bool := false
  heatEnd : Option Nat := none
  hold : Option Nat := none
  holdFlagged : Bool := false
  today : Nat := 0
  day : Nat := 0
  spent : Bool := false
  solarPrev : Bool := false
  fault : Bool := false
  faultAt : Nat := 0
  clear : Nat := 0
  count : Nat := 0
  deriving DecidableEq, Repr

/-! Condition Monitor (chapter 9). -/

/-- One row of the condition table (chapter 9). -/
structure Cond where
  status : Bool := false
  pending : Bool := false
  changes : Nat := 0
  last : Option Stamp := none
  deriving DecidableEq, Repr

/-- The four figures of one port (R190). -/
structure PortFigures where
  sync : Nat := 0
  crc : Nat := 0
  skips : Nat := 0
  gaps : Nat := 0
  deriving DecidableEq, Repr

/-- The figures of an accounting interval (R190). -/
structure Figures where
  ports : Vector PortFigures 2 := #v[{}, {}]
  chargeIn : Nat := 0
  chargeOut : Nat := 0
  minVb : Option Nat := none
  minTp : Option Int := none
  onSeconds : Nat := 0
  energy : Nat := 0
  sent : Nat := 0
  dropped : Nat := 0
  readings : Nat := 0
  deriving DecidableEq, Repr

/-- A report of a completed interval (R192). -/
structure IntervalReport where
  figures : Figures
  number : Nat
  start : Nat
  credits : Int
  deriving DecidableEq, Repr

/-- The Condition Monitor. -/
structure Monitor where
  conds : Vector Cond 18 := #v[{}, { status := true }, { status := true }, {}, {}, {}, {}, {}, {}, {}, {}, {}, {},
    {}, {}, {}, {}, {}]
  wake : Bool := false
  degraded : Bool := true
  figs : Figures := {}
  report : Option IntervalReport := none
  number : Nat := 0
  start : Nat := 0
  deriving DecidableEq, Repr

/-! Station Bus Interface and Settings Store (chapter 10). -/

/-- Receiver state (10.2). -/
inductive Recv where
  | ignoring | receiving | handling | replying
  deriving DecidableEq, Repr

/-- A frame in progress (R198); `busy` marks one begun while the part was busy, which is discarded (R200). -/
structure BusFrame where
  bcast : Bool
  busy : Bool := false
  len : Option Nat := none
  kind : Option Byte := none
  body : List Byte := []
  crc : List Byte := []
  deriving DecidableEq, Repr

/-- The request in hand (R198, R201): what was received, what was read at receipt (for OUTPUT_RESTART whether the charger
and the heater were restartable, R155, R174), the outcomes of the outputs already served, for CAL_LIST the ids of the finished entries its reply carries (R43). -/
structure Request where
  bcast : Bool
  kind : Byte
  body : List Byte
  cycle : Nat
  ticks : Nat
  stamp : Stamp
  eventActive : Bool
  forbidden : Bool
  snapshot : Option (List Byte)
  chargerFound : Byte := 0
  heaterFound : Byte := 0
  charger : Option Byte := none
  heater : Option Byte := none
  reported : List Nat := []
  deriving DecidableEq, Repr

/-- The nine bus counters (R199, R200). -/
structure BusCounters where
  framing : Nat := 0
  overruns : Nat := 0
  oversize : Nat := 0
  broken : Nat := 0
  crc : Nat := 0
  goodOwn : Nat := 0
  goodBcast : Nat := 0
  replies : Nat := 0
  busyOverrun : Nat := 0
  deriving DecidableEq, Repr

/-- The Station Bus Interface; `reply` is the result code and body of the reply ready to be sent, `listenFrom` the
cycle from which the receiver has been enabled: that of the load at power-on, or the end of the last reply (R213, R200). -/
structure Bus where
  recv : Recv := .ignoring
  frame : Option BusFrame := none
  lastChar : Nat := 0
  req : Option Request := none
  reply : Option (List Byte) := none
  tx : List Byte := []
  txAt : Nat := 0
  de : Bool := false
  listenFrom : Nat := 0
  counts : BusCounters := {}
  restarts : Nat := 0
  addr : Nat := 254
  div : Nat := 33
  restartDue : Bool := false
  deriving DecidableEq, Repr

/-- The settings an image holds (10.6). -/
structure Image where
  params : List (Nat × Int)
  dets : Vector Detector 6
  map : ChanMap
  deriving DecidableEq, Repr

/-- A valid slot: its generation number and image (R208). -/
structure StoredImage where
  generation : Nat
  image : Image
  deriving DecidableEq, Repr

/-- Settings source (chapter 10). -/
inductive Source where
  | stored | defaults
  deriving DecidableEq, Repr

/-- A write in progress (R209): the slot and what is being written. -/
structure Saving where
  slot : Fin 2
  content : StoredImage
  deriving DecidableEq, Repr

/-- The Settings Store. -/
structure Store where
  slots : Vector (Option StoredImage) 2 := #v[none, none]
  saving : Option Saving := none
  source : Source := .defaults
  clamped : Bool := false
  saves : Nat := 0
  saveFails : Nat := 0
  deriving DecidableEq, Repr

/-- MODEL (log 4). The moments that the last command left the part in, with no cycle passed since: a second boundary, a
vote, a capture that checked a label's seconds, a change of station time; the channels whose own strobe has been processed in it
(R75, R77); and what the tests of that second boundary let
through: a GNSS session by its rest time (R24), the pending rate (R36), the pending map (R57). -/
structure Moment where
  boundary : Bool := false
  strobe : Bool := false
  capture : Bool := false
  timeChange : Bool := false
  updated : Vector Bool 6 := #v[false, false, false, false, false, false]
  restDue : Bool := false
  rate : Option Nat := none
  map : Option ChanMap := none
  deriving DecidableEq, Repr

/-- The whole block. `params` holds the numbered parameters that differ from their defaults (10.5), `pending` the
commands that wait, `osc` the oscillator cycles since power-on, `free` the counter the free values are applied to. -/
structure State where
  clk : Clock := {}
  mrk : Capture := {}
  sch : Scheduler := {}
  prt : Vector Port 2 := #v[{}, {}]
  map : ChanMap := ChanMap.identity
  pendingMap : Option ChanMap := none
  rings : Vector Ring 6 := #v[{}, {}, {}, {}, {}, {}]
  chn : Vector Channel 6 := #v[{}, {}, {}, {}, {}, {}]
  evt : Events := {}
  box : Outbox := {}
  mdm : Modem := {}
  pwr : Power := {}
  bat : Battery := {}
  htr : Heater := {}
  mon : Monitor := {}
  bus : Bus := {}
  params : List (Nat × Int) := []
  store : Store := {}
  pending : List Instr := []
  powered : Bool := true
  osc : Nat := 0
  moment : Moment := {}
  free : Nat := 0
  deriving DecidableEq, Repr

/-- The part right after power-on with a blank store and the power-on reading of log 5: both digitizer supplies come on
at once and both links are STARTING (R64); every other field is the default its structure gives. -/
def State.reset : State where
  prt := #v[{ link := .starting }, { link := .starting }]

end Sys2Proof.Machine
end

