-- ==== Sys2Proof/Machine/Ops.lean ====
section
/-! DEFINITION. The named operations every block shares: counters, numbers as bytes, the two checks, sparse maps, station
time and the passing of oscillator cycles. -/
namespace Sys2Proof.Machine

/-- What `exec` answers for a command that changes the state by f: without its supply the part does nothing (log 25). -/
def act (f : State → State) (s : State) : Host.Outcome State Fault Refusal :=
  .next (if s.powered then f s else s)

/-! ### Numbers -/

/-- A 16-bit saturating counter, one up. -/
def inc16 (n : Nat) : Nat := min (n + 1) 65535

/-- A 16-bit saturating sum. -/
def add16 (n k : Nat) : Nat := min (n + k) 65535

/-- A 32-bit saturating sum. -/
def add32 (n k : Nat) : Nat := min (n + k) 4294967295

/-- A value clamped to a range (Introduction, Numbers and byte order). -/
def clampI (lo hi x : Int) : Int := max lo (min hi x)

/-- A natural number clamped to a range. -/
def clampN (lo hi x : Nat) : Nat := max lo (min hi x)

/-- n / d rounded half away from zero (Introduction, Numbers and byte order). -/
def roundDiv (n : Int) (d : Nat) : Int :=
  if 0 ≤ n then (2 * n + d) / (2 * d) else -((-(2 * n) + d) / (2 * d))

/-- The sign of a number. -/
def signOf (x : Int) : Int := if 0 < x then 1 else if x < 0 then -1 else 0

/-- A number modulo 2^32 read as signed. -/
def signed32 (x : Int) : Int :=
  let m := x % 4294967296
  if m < 2147483648 then m else m - 4294967296

/-- Strobes from number a on to number b, on the 48-bit wrap (R34). -/
def dist (a b : Nat) : Nat := (b + Config.wrap48 - a) % Config.wrap48

/-- A strobe number k further on (R34). -/
def strobeAdd (a k : Nat) : Nat := (a + k) % Config.wrap48

/-! ### Bytes -/

/-- The k low bytes of n, most significant first (Introduction, Numbers and byte order). -/
def beBytes : Nat → Nat → List Byte
  | 0, _ => []
  | k + 1, n => byte (n / 256 ^ k) :: beBytes k n

/-- A signed number in k bytes, two's complement, most significant first. -/
def beInt (k : Nat) (x : Int) : List Byte := beBytes k (x % (256 ^ k : Nat)).toNat

/-- The number a list of bytes spells, most significant first. -/
def ofBytes (l : List Byte) : Nat := l.foldl (fun n b => n * 256 + b.toNat) 0

/-- A number of n bits read as two's complement. -/
def signedOf (n : Nat) (x : Nat) : Int := if x < 2 ^ (n - 1) then (x : Int) else (x : Int) - (2 ^ n : Nat)

/-- A flag as one byte (R214). -/
def flagByte (b : Bool) : Byte := if b then 1 else 0

/-- An optional field of n bytes: presence byte, then the field, zero when absent (11.1). -/
def optField (n : Nat) : Option (List Byte) → List Byte
  | none => 0 :: List.replicate n 0
  | some l => 1 :: l

/-- Flags as one bitmap, the first standing in the most significant bit of the first byte (11.2, SAMPLES_FETCH). -/
def bitmapByte (l : List Bool) : Byte :=
  byte (((l ++ List.replicate (8 - l.length) false).foldl (fun n b => 2 * n + if b then 1 else 0)) 0)

/-- Flags as whole bytes of bitmap, `fuel` bytes of them. -/
def bitmap : Nat → List Bool → List Byte
  | 0, _ => []
  | fuel + 1, l => bitmapByte (l.take 8) :: bitmap fuel (l.drop 8)

/-- A set of ids as the number whose bit i is id i (10.5, R214). -/
def setBits (l : List Bool) : Nat := l.foldr (fun b n => 2 * n + if b then 1 else 0) 0

/-- One bit of CRC-16: x^16 + x^12 + x^5 + 1 (Introduction, Frame checks). -/
def crc16Bit (c : BitVec 16) : BitVec 16 := if c.msb then (c <<< 1) ^^^ 0x1021#16 else c <<< 1

/-- One byte of CRC-16. -/
def crc16Byte (c : BitVec 16) (b : Byte) : BitVec 16 :=
  crc16Bit (crc16Bit (crc16Bit (crc16Bit (crc16Bit (crc16Bit (crc16Bit (crc16Bit
    (c ^^^ (b.zeroExtend 16 <<< 8)))))))))

/-- CRC-16 of the bus and the modem line: initial value all ones, no reflection, no inversion. -/
def crc16 (l : List Byte) : BitVec 16 := l.foldl crc16Byte 0xFFFF#16

/-- One bit of CRC-8: x^8 + x^2 + x + 1. -/
def crc8Bit (c : Byte) : Byte := if c.msb then (c <<< 1) ^^^ 0x07#8 else c <<< 1

/-- One byte of CRC-8. -/
def crc8Byte (c b : Byte) : Byte :=
  crc8Bit (crc8Bit (crc8Bit (crc8Bit (crc8Bit (crc8Bit (crc8Bit (crc8Bit (c ^^^ b))))))))

/-- CRC-8 of digitizer frames and GNSS labels: initial value zero. -/
def crc8 (l : List Byte) : Byte := l.foldl crc8Byte 0

/-- The two check bytes of a frame, most significant first (R198, R215). -/
def crcBytes (l : List Byte) : List Byte := beBytes 2 (crc16 l).toNat

/-! ### Sparse maps -/

/-- What a sparse map holds at k: d when nothing is listed. -/
def Sparse.find {α : Type} (d : α) (k : Nat) : List (Nat × α) → α
  | [] => d
  | (k', v) :: r => if k' = k then v else Sparse.find d k r

/-- A sparse map with v at k, in the canonical form: keys strictly rising, no entry equal to what an unlisted key
reads as. -/
def Sparse.put {α : Type} [DecidableEq α] (d : α) (k : Nat) (v : α) : List (Nat × α) → List (Nat × α)
  | [] => if v = d then [] else [(k, v)]
  | (k', v') :: r =>
    if k < k' then (if v = d then (k', v') :: r else (k, v) :: (k', v') :: r)
    else if k = k' then (if v = d then r else (k, v) :: r)
    else (k', v') :: Sparse.put d k v r

/-- The canonical form: every key above `lo`, strictly rising, and no entry equal to its key's default. -/
def Sparse.wfFrom {α : Type} [DecidableEq α] (d : Nat → α) : Option Nat → List (Nat × α) → Bool
  | _, [] => true
  | lo, (k, v) :: r => (match lo with | none => true | some l => decide (l < k)) && decide (v ≠ d k)
      && Sparse.wfFrom d (some k) r

/-- A sparse map stands in its canonical form. -/
def Sparse.wf {α : Type} [DecidableEq α] (d : Nat → α) (m : List (Nat × α)) : Bool := Sparse.wfFrom d none m

/-- What a ring index nothing has written reads as (log 14). -/
def Slot.blank : Slot := ⟨0, true, false⟩

/-- The slot of strobe n (R59: index n modulo 4,096). -/
def Ring.slot (r : Ring) (n : Nat) : Slot := Sparse.find Slot.blank (n % 4096) r.slots

/-! ### Lists -/

/-- Insert x before the first element that does not stand before it. -/
def insertBy {α : Type} (before : α → α → Bool) (x : α) : List α → List α
  | [] => [x]
  | y :: r => if before y x then y :: insertBy before x r else x :: y :: r

/-- The six channels in order. -/
def allChans : List Chan := [0, 1, 2, 3, 4, 5]

/-- The two ports in order. -/
def allPorts : List PortId := [0, 1]

/-- The eighteen condition ids in order. -/
def allConds : List CondId := [0, 1, 2, 3, 4, 5, 6, 7, 8, 9, 10, 11, 12, 13, 14, 15, 16, 17]

/-! ### Station time -/

/-- The grade by the table of the Introduction. -/
def gradeOf (disc : Disc) (u : Nat) : Grade :=
  match disc with
  | .unset => .U
  | _ => if u ≤ 10000 then .A else if u ≤ 1000000 then .B else if u ≤ 100000000 then .C else .D

/-- Station time now. -/
def State.now (s : State) : Time := ⟨s.clk.s, s.clk.t⟩

/-- The grade now (R17). -/
def State.grade (s : State) : Grade := gradeOf s.clk.disc s.clk.u

/-- A stamp taken now. -/
def State.stamp (s : State) : Stamp := ⟨s.now, s.grade⟩

/-- a at or past b, compared as seconds and then ticks (R123). -/
def Time.reached (a b : Time) : Bool := decide (b.s < a.s) || (decide (b.s = a.s) && decide (b.t ≤ a.t))

/-- Station time k ticks further on, the seconds modulo 2^32 (R1, R10). -/
def Time.addTicks (a : Time) (k : Int) : Time :=
  let x : Int := a.t + k
  ⟨((a.s + x / 10000000) % 4294967296).toNat, (x % 10000000).toNat⟩

/-- Seconds from b to a as a signed number, on the 32-bit wrap. -/
def secsAhead (a b : Nat) : Int := signed32 ((a : Int) - b)

/-! ### Oscillator cycles -/

/-- R2: where n cycles of counting take the tick and the corrections still to come. A point already behind is dropped (log 7). -/
def Clock.advance (up : Bool) : Nat → List Nat → Nat → Nat × List Nat
  | t, [], n => (t + n, [])
  | t, p :: r, n =>
    if p < t then Clock.advance up t r n
    else if n ≤ p - t then (t + n, p :: r)
    else Clock.advance up (if up then p + 2 else p) r (n - (p - t) - 1)

/-- Cycles until counting first reaches tick x of the present second, for x at or after the present tick (R2). -/
def Clock.cyclesTo (c : Clock) (x : Nat) : Nat :=
  let k := (c.corr.filter fun p => decide (c.t ≤ p) && decide (p < x)).length
  if c.corrUp then x - c.t - k else x - c.t + k

/-- Cycles left of the present second. -/
def Clock.cyclesLeft (c : Clock) : Nat := c.cyclesTo Config.ticks

/-- n oscillator cycles pass, at most to the last cycle of the present second: the boundary is SECOND_BOUNDARY's (log 2). -/
def elapse (n : Nat) (s : State) : State :=
  let k := min n (s.clk.cyclesLeft - 1)
  if k = 0 then s
  else
    let p := Clock.advance s.clk.corrUp s.clk.t s.clk.corr k
    { s with clk := { s.clk with t := p.1, ticks := s.clk.ticks + (p.1 - s.clk.t), corr := p.2 }, osc := s.osc + k, moment := {} }

/-- The state at oscillator cycle d: now if d has passed, absent if d lies beyond the present second (log 2). -/
def reach (d : Nat) (s : State) : Option State :=
  if d ≤ s.osc then some s
  else if d - s.osc < s.clk.cyclesLeft then some (elapse (d - s.osc) s)
  else none

/-- The state at station time x: now if x has passed, absent if x lies beyond the present second (log 2). -/
def reachTime (x : Time) (s : State) : Option State :=
  let d := secsAhead x.s s.clk.s
  if d < 0 then some s
  else if 0 < d then none
  else some (elapse (s.clk.cyclesTo x.t) s)

/-- f at cycle d, or nothing. -/
def atCycle (d : Nat) (f : State → State) (s : State) : State :=
  match reach d s with
  | none => s
  | some s' => f s'

/-! ### Facts that other blocks expose -/

/-- The event state is OPEN or CLOSING (R99). -/
def State.eventActive (s : State) : Bool :=
  match s.evt.state with
  | .opened => true
  | .closing => true
  | _ => false

/-- A calibration entry is RUNNING (R9). -/
def State.calRunning (s : State) : Bool := s.sch.cals.any fun c => c.outcome == .running

/-- Stepping is forbidden (R9). -/
def State.stepForbidden (s : State) : Bool := s.eventActive || s.calRunning

/-- The GNSS supply is on (1.8). -/
def Supply.on : Supply → Bool
  | .continuous => true
  | .session => true
  | _ => false

/-- Modem power is on (6.5). -/
def ModemLink.power : ModemLink → Bool
  | .off => false
  | .backoff => false
  | _ => true

/-- The LOAD output is on (R145): in RUN and at power-on, off in SHED. -/
def PowerState.load : PowerState → Bool
  | .run => true
  | .shed => false

/-- The digitizer supply of a port is on (R49): in every link state but OFF. -/
def Link.supply : Link → Bool
  | .off => false
  | _ => true

/-- CHG_EN is on (R146). -/
def Charge.enabled : Charge → Bool
  | .bulk => true
  | .absorb => true
  | .float => true
  | _ => false

/-- Set flags of the record in progress, if there is one (R97). -/
def flagRecord (f : EvFlags → EvFlags) (s : State) : State :=
  match s.evt.record with
  | none => s
  | some r => { s with evt := { s.evt with record := some { r with flags := f r.flags } } }

end Sys2Proof.Machine
end

