-- ==== Sys2Proof/Machine/Operands.lean ====
section
/-! DEFINITION. The operands of the commands: the numbered parameters (their table, how a value is fitted, what is
stored), the detector settings, and the fields of a request body. -/
namespace Sys2Proof.Machine

/-- How a value is fitted to its range (R206); on/off, rising/falling and auto/manual are the range 0 to 1. -/
inductive Fit where
  | range (lo hi : Int)
  | oneOf (values : List Int)
  | condSet (mask : Nat)
  deriving DecidableEq, Repr

/-- A row of the parameter table (10.5). -/
structure ParamRow where
  num : Nat
  fit : Fit
  dflt : Int
  deriving DecidableEq, Repr

/-- Parameters of Station Time (10.5). -/
def paramsClock : List ParamRow := [
  ⟨1, .range 10 1000000, 1000⟩,
  ⟨2, .range 1 1000, 10⟩,
  ⟨3, .range 1 16, 2⟩,
  ⟨4, .range 1 64, 8⟩,
  ⟨5, .range 10 50000, 500⟩,
  ⟨6, .range (-50) 50, 0⟩,
  ⟨7, .range 1 1000, 20⟩,
  ⟨8, .range 1 1000000, 1000⟩,
  ⟨9, .range 1 168, 6⟩,
  ⟨10, .range 1 168, 24⟩,
  ⟨11, .range 5 240, 30⟩,
  ⟨12, .range 10 3600, 120⟩]

/-- Parameters of marks, strobes and calibration (10.5). -/
def paramsMarks : List ParamRow := [
  ⟨20, .range 0 1, 0⟩,
  ⟨21, .range 0 100000, 100⟩,
  ⟨22, .oneOf [1, 4, 16], 1⟩,
  ⟨23, .range 0 1, 0⟩,
  ⟨24, .range 0 100000, 100⟩,
  ⟨25, .oneOf [0, 1, 4, 16], 0⟩,
  ⟨26, .range 0 1, 0⟩,
  ⟨27, .range 0 100000, 100⟩,
  ⟨28, .oneOf [0, 1, 4, 16], 0⟩,
  ⟨30, .oneOf [20, 40, 50, 100, 200], 100⟩,
  ⟨31, .range 0 600, 30⟩]

/-- Parameters of digitizer ports and error thresholds (10.5). -/
def paramsPorts : List ParamRow := [
  ⟨40, .range 0 1, 1⟩,
  ⟨41, .range 0 1, 1⟩,
  ⟨42, .range 0 1, 1⟩,
  ⟨43, .range 1 65535, 100⟩,
  ⟨44, .range 1 65535, 100⟩]

/-- Parameters of events (10.5). -/
def paramsEvents : List ParamRow := [
  ⟨50, .range 1 90, 2⟩,
  ⟨51, .range 0 30, 3⟩,
  ⟨52, .range 0 20, 5⟩,
  ⟨53, .range 1 120, 10⟩,
  ⟨54, .range 30 3600, 300⟩,
  ⟨55, .range 0 1, 1⟩]

/-- Parameters of alert outbox and modem line (10.5). -/
def paramsAlerts : List ParamRow := [
  ⟨60, .range 0 1, 1⟩,
  ⟨61, .range 0 1, 1⟩,
  ⟨62, .range 1 50, 10⟩,
  ⟨63, .range 0 50, 4⟩,
  ⟨64, .range 0 50, 2⟩,
  ⟨65, .range 0 50, 1⟩,
  ⟨66, .range 10 600, 120⟩,
  ⟨67, .range 30 600, 180⟩,
  ⟨68, .range 10 300, 60⟩,
  ⟨69, .range 60 3600, 600⟩]

/-- Parameters of Battery Care (10.5). -/
def paramsBattery : List ParamRow := [
  ⟨70, .range 1000 200000, 40000⟩,
  ⟨71, .range 80 100, 97⟩,
  ⟨72, .range 12000 16000, 14200⟩,
  ⟨73, .range 12000 15000, 13500⟩,
  ⟨74, .range 13000 18000, 15000⟩,
  ⟨75, .range 9000 14000, 12000⟩,
  ⟨76, .range 9000 14000, 11600⟩,
  ⟨77, .range 10000 15000, 12800⟩,
  ⟨78, .range 10 60, 40⟩,
  ⟨79, .range 5 40, 20⟩,
  ⟨80, .range 100 20000, 5000⟩,
  ⟨81, .range 10 5000, 500⟩,
  ⟨82, .range 10 600, 120⟩,
  ⟨83, .range (-100) 100, 20⟩,
  ⟨84, .range 300 600, 450⟩,
  ⟨85, .range 0 1, 0⟩]

/-- Parameters of Heater Control (10.5). -/
def paramsHeater : List ParamRow := [
  ⟨90, .range 0 1, 1⟩,
  ⟨91, .range 1 60, 10⟩,
  ⟨92, .range 1 100, 20⟩,
  ⟨93, .range (-400) 200, -200⟩,
  ⟨94, .range 0 100, 30⟩,
  ⟨95, .range 0 1000, 1000⟩,
  ⟨96, .range 0 1000, 600⟩,
  ⟨97, .range 1 200, 40⟩,
  ⟨98, .range 0 2000, 200⟩,
  ⟨99, .range 200 600, 400⟩,
  ⟨100, .range 0 1, 0⟩,
  ⟨101, .range 0 900, 180⟩]

/-- Parameters of conditions, intervals and lines (10.5). -/
def paramsMonitor : List ParamRow := [
  ⟨110, .condSet 262143, 262141⟩,
  ⟨111, .condSet 163839, 13850⟩,
  ⟨112, .condSet 262143, 20506⟩,
  ⟨113, .oneOf [60, 120, 300, 600, 900, 1200, 1800, 3600], 600⟩,
  ⟨120, .range 1 254, 254⟩,
  ⟨121, .range 1 255, 33⟩,
  ⟨122, .range 1 255, 33⟩,
  ⟨123, .range 1 255, 33⟩]

/-- The parameter table (10.5). -/
def paramTable : List ParamRow :=
  paramsClock ++ paramsMarks ++ paramsPorts ++ paramsEvents ++ paramsAlerts ++ paramsBattery ++ paramsHeater ++ paramsMonitor

/-- The row of a parameter number, absent for a number that is not in the table (R205). -/
def paramRow (n : Nat) : Option ParamRow := paramTable.find? fun r => r.num == n

/-- The default of a parameter. -/
def paramDefault (n : Nat) : Int :=
  match paramRow n with
  | some r => r.dflt
  | none => 0

/-- The nearer of two permitted values to x, of two equally near the larger (R206). -/
def nearer (x a b : Int) : Int :=
  if (x - a).natAbs < (x - b).natAbs then a
  else if (x - b).natAbs < (x - a).natAbs then b
  else max a b

/-- A value fitted by its kind of range (R206, R184). A condition set travels as 32 bits. -/
def Fit.fit (f : Fit) (x : Int) : Int :=
  match f with
  | .range lo hi => clampI lo hi x
  | .oneOf [] => x
  | .oneOf (v :: r) => r.foldl (nearer x) v
  | .condSet m => (((x % 4294967296).toNat &&& m : Nat) : Int)

/-- A parameter as stored. -/
def State.param (s : State) (n : Nat) : Int := Sparse.find (paramDefault n) n s.params

/-- Store a parameter. -/
def setParam (n : Nat) (x : Int) (s : State) : State :=
  { s with params := Sparse.put (paramDefault n) n x s.params }

/-- Parameter 1. -/
def State.stepThreshold (s : State) : Nat := (s.param 1).toNat
/-- Parameter 2. -/
def State.lockWindow (s : State) : Nat := (s.param 2).toNat
/-- Parameter 3. -/
def State.gainP (s : State) : Nat := (s.param 3).toNat
/-- Parameter 4. -/
def State.gainI (s : State) : Nat := (s.param 4).toNat
/-- Parameter 5. -/
def State.ppsWindow (s : State) : Nat := (s.param 5).toNat
/-- Parameter 6. -/
def State.tempco (s : State) : Int := s.param 6
/-- Parameter 7. -/
def State.driftBound (s : State) : Nat := (s.param 7).toNat
/-- Parameter 8. -/
def State.holdoverLimit (s : State) : Nat := (s.param 8).toNat
/-- Parameter 9. -/
def State.gnssSessionLow (s : State) : Nat := (s.param 9).toNat
/-- Parameter 10. -/
def State.gnssSessionCritical (s : State) : Nat := (s.param 10).toNat
/-- Parameter 11. -/
def State.gnssSessionMax (s : State) : Nat := (s.param 11).toNat
/-- Parameter 12. -/
def State.gnssHoldAfterLock (s : State) : Nat := (s.param 12).toNat
/-- Parameter 20 as a mark: set when its value is 1. -/
def State.ppsEdge (s : State) : Bool := s.param 20 == 1
/-- Parameter 21. -/
def State.ppsMinWidth (s : State) : Nat := (s.param 21).toNat
/-- Parameter 22. -/
def State.ppsPrescale (s : State) : Nat := (s.param 22).toNat
/-- Parameter 23 as a mark: set when its value is 1. -/
def State.markAEdge (s : State) : Bool := s.param 23 == 1
/-- Parameter 24. -/
def State.markAMinWidth (s : State) : Nat := (s.param 24).toNat
/-- Parameter 25. -/
def State.markAPrescale (s : State) : Nat := (s.param 25).toNat
/-- Parameter 26 as a mark: set when its value is 1. -/
def State.markBEdge (s : State) : Bool := s.param 26 == 1
/-- Parameter 27. -/
def State.markBMinWidth (s : State) : Nat := (s.param 27).toNat
/-- Parameter 28. -/
def State.markBPrescale (s : State) : Nat := (s.param 28).toNat
/-- Parameter 30. -/
def State.sampleRate (s : State) : Nat := (s.param 30).toNat
/-- Parameter 31. -/
def State.calSettle (s : State) : Nat := (s.param 31).toNat
/-- Parameter 40 as a mark: set when its value is 1. -/
def State.digEnable0 (s : State) : Bool := s.param 40 == 1
/-- Parameter 41 as a mark: set when its value is 1. -/
def State.digEnable1 (s : State) : Bool := s.param 41 == 1
/-- Parameter 42 as a mark: set when its value is 1. -/
def State.shedD1Critical (s : State) : Bool := s.param 42 == 1
/-- Parameter 43. -/
def State.errThreshold0 (s : State) : Nat := (s.param 43).toNat
/-- Parameter 44. -/
def State.errThreshold1 (s : State) : Nat := (s.param 44).toNat
/-- Parameter 50. -/
def State.voteThreshold (s : State) : Nat := (s.param 50).toNat
/-- Parameter 51. -/
def State.coincWindow (s : State) : Nat := (s.param 51).toNat
/-- Parameter 52. -/
def State.preEvent (s : State) : Nat := (s.param 52).toNat
/-- Parameter 53. -/
def State.postEvent (s : State) : Nat := (s.param 53).toNat
/-- Parameter 54. -/
def State.eventMax (s : State) : Nat := (s.param 54).toNat
/-- Parameter 55 as a mark: set when its value is 1. -/
def State.eventWake (s : State) : Bool := s.param 55 == 1
/-- Parameter 60 as a mark: set when its value is 1. -/
def State.alertOpen (s : State) : Bool := s.param 60 == 1
/-- Parameter 61 as a mark: set when its value is 1. -/
def State.alertClose (s : State) : Bool := s.param 61 == 1
/-- Parameter 62. -/
def State.creditCap (s : State) : Nat := (s.param 62).toNat
/-- Parameter 63. -/
def State.refillNormal (s : State) : Nat := (s.param 63).toNat
/-- Parameter 64. -/
def State.refillLow (s : State) : Nat := (s.param 64).toNat
/-- Parameter 65. -/
def State.refillCritical (s : State) : Nat := (s.param 65).toNat
/-- Parameter 66. -/
def State.modemHold (s : State) : Nat := (s.param 66).toNat
/-- Parameter 67. -/
def State.sendTimeout (s : State) : Nat := (s.param 67).toNat
/-- Parameter 68. -/
def State.modemStartTimeout (s : State) : Nat := (s.param 68).toNat
/-- Parameter 69. -/
def State.modemRetryBackoff (s : State) : Nat := (s.param 69).toNat
/-- Parameter 70. -/
def State.capacity (s : State) : Nat := (s.param 70).toNat
/-- Parameter 71. -/
def State.chargeEff (s : State) : Nat := (s.param 71).toNat
/-- Parameter 72. -/
def State.vAbsorb (s : State) : Nat := (s.param 72).toNat
/-- Parameter 73. -/
def State.vFloat (s : State) : Nat := (s.param 73).toNat
/-- Parameter 74. -/
def State.vOver (s : State) : Nat := (s.param 74).toNat
/-- Parameter 75. -/
def State.vEmpty (s : State) : Nat := (s.param 75).toNat
/-- Parameter 76. -/
def State.vCutoff (s : State) : Nat := (s.param 76).toNat
/-- Parameter 77. -/
def State.vReconnect (s : State) : Nat := (s.param 77).toNat
/-- Parameter 78. -/
def State.socLow (s : State) : Nat := (s.param 78).toNat
/-- Parameter 79. -/
def State.socCritical (s : State) : Nat := (s.param 79).toNat
/-- Parameter 80. -/
def State.iBulk (s : State) : Nat := (s.param 80).toNat
/-- Parameter 81. -/
def State.iTerm (s : State) : Nat := (s.param 81).toNat
/-- Parameter 82. -/
def State.absorbMax (s : State) : Nat := (s.param 82).toNat
/-- Parameter 83. -/
def State.tChargeMin (s : State) : Int := s.param 83
/-- Parameter 84. -/
def State.tChargeMax (s : State) : Int := s.param 84
/-- Parameter 85 as a mark: set when its value is 1. -/
def State.chargeRestart (s : State) : Bool := s.param 85 == 1
/-- Parameter 90 as a mark: set when its value is 1. -/
def State.heatEnable (s : State) : Bool := s.param 90 == 1
/-- Parameter 91. -/
def State.heatPeriod (s : State) : Nat := (s.param 91).toNat
/-- Parameter 92. -/
def State.heatGain (s : State) : Nat := (s.param 92).toNat
/-- Parameter 93. -/
def State.tKeepWarm (s : State) : Int := s.param 93
/-- Parameter 94. -/
def State.tChargeMargin (s : State) : Int := s.param 94
/-- Parameter 95. -/
def State.dutyMaxNormal (s : State) : Nat := (s.param 95).toNat
/-- Parameter 96. -/
def State.dutyMaxLow (s : State) : Nat := (s.param 96).toNat
/-- Parameter 97. -/
def State.heaterPower (s : State) : Nat := (s.param 97).toNat
/-- Parameter 98. -/
def State.dailyHeatBudgetLow (s : State) : Nat := (s.param 98).toNat
/-- Parameter 99. -/
def State.tHeaterCutoff (s : State) : Int := s.param 99
/-- Parameter 100 as a mark: set when its value is 1. -/
def State.heatRestart (s : State) : Bool := s.param 100 == 1
/-- Parameter 101. -/
def State.quietMax (s : State) : Nat := (s.param 101).toNat
/-- Parameter 110. -/
def State.wakeSet (s : State) : Nat := (s.param 110).toNat
/-- Parameter 111. -/
def State.alertSet (s : State) : Nat := (s.param 111).toNat
/-- Parameter 112. -/
def State.degradedSet (s : State) : Nat := (s.param 112).toNat
/-- Parameter 113. -/
def State.intervalLen (s : State) : Nat := (s.param 113).toNat
/-- Parameter 120. -/
def State.stationAddress (s : State) : Nat := (s.param 120).toNat
/-- Parameter 121. -/
def State.busDivisor (s : State) : Nat := (s.param 121).toNat
/-- Parameter 122. -/
def State.gnssDivisor (s : State) : Nat := (s.param 122).toNat
/-- Parameter 123. -/
def State.modemDivisor (s : State) : Nat := (s.param 123).toNat

/-- The error threshold of a port (R183). -/
def State.errThreshold (s : State) (p : PortId) : Nat := if p = 0 then s.errThreshold0 else s.errThreshold1

/-- Whether condition c is in a set given as bits. -/
def inSet (set : Nat) (c : CondId) : Bool := set.testBit c.val

/-- The sample period in ticks of a rate (2.3). -/
def periodOf (rate : Nat) : Nat := 10000000 / rate

/-- Battery full in mA·s (R138). -/
def State.full (s : State) : Nat := s.capacity * 3600

/-! ### Detector settings -/

/-- The eight settings fitted in the order of R83. -/
def Detector.fit (d : Detector) : Detector :=
  let sta := clampN 1 8 d.staShift
  let on := clampN 20 640 d.onRatio
  { enable := d.enable, staShift := sta, ltaShift := clampN (sta + 2) 14 d.ltaShift, onRatio := on,
    offRatio := clampN 16 on d.offRatio, floor := clampN 1 65535 d.floor, trigMax := clampN 1 600 d.trigMax,
    weight := clampN 0 15 d.weight }

/-! ### Loading an image (R210) -/

/-- Every stored value fitted to its range, and whether any was changed. -/
def fitParams (l : List (Nat × Int)) : List (Nat × Int) × Bool :=
  l.foldl (fun (m, ch) (n, x) =>
    match paramRow n with
    | none => (m, ch)
    | some r => (Sparse.put r.dflt n (r.fit.fit x) m, ch || decide (r.fit.fit x ≠ x))) ([], false)

/-- The image of the store: the content of the valid slot with the larger generation number (R208). -/
def Store.image (st : Store) : Option (Fin 2 × StoredImage) :=
  match st.slots[0], st.slots[1] with
  | none, none => none
  | some a, none => some (0, a)
  | none, some b => some (1, b)
  | some a, some b => if b.generation ≤ a.generation then some (0, a) else some (1, b)

/-- What a load puts in force: the numbered parameters, the detector settings of the six channels, the map, the settings
source and the clamped-on-load mark (R210). -/
structure Loaded where
  params : List (Nat × Int)
  dets : Vector Detector 6
  map : ChanMap
  source : Source
  clamped : Bool
  deriving DecidableEq, Repr

/-- The load of R210. -/
def Store.load (st : Store) : Loaded :=
  match st.image with
  | none => ⟨[], #v[{}, {}, {}, {}, {}, {}], ChanMap.identity, .defaults, false⟩
  | some (_, x) =>
    let p := fitParams x.image.params
    let d : Vector Detector 6 := #v[x.image.dets[0].fit, x.image.dets[1].fit, x.image.dets[2].fit, x.image.dets[3].fit,
      x.image.dets[4].fit, x.image.dets[5].fit]
    ⟨p.1, d, x.image.map, .stored, p.2 || decide (d ≠ x.image.dets)⟩

/-- The image a save takes: every setting as stored, the pending map in place of the map in force (10.6). -/
def State.imageNow (s : State) : Image where
  params := s.params
  dets := #v[s.chn[0].det, s.chn[1].det, s.chn[2].det, s.chn[3].det, s.chn[4].det, s.chn[5].det]
  map := s.pendingMap.getD s.map

/-! ### Request bodies -/

/-- k bytes of a body from byte i on, as an unsigned number. -/
def field (body : List Byte) (i k : Nat) : Nat := ofBytes ((body.drop i).take k)

/-- How many bits of a byte are set. -/
def popcount (b : Byte) : Nat := ((List.range 8).filter fun i => b.toNat.testBit i).length

end Sys2Proof.Machine
end

