-- ==== Sys2Proof/Machine/Flags.lean ====
section
/-! DEFINITION. The flags of the part: the eighteen conditions with their pending marks, the degraded flag and the WAKE
level (chapter 9), and the placing of alerts in the outbox (R112, R115, R116), which a status change can bring about and
which can itself bring about an OUTBOX_DROP. -/
namespace Sys2Proof.Machine

/-! ### WAKE and the degraded flag -/

/-- R185: the WAKE level as it follows from the pending marks, the wake set and the event-wake term. -/
def State.wakeLevel (s : State) : Bool :=
  (allConds.any fun c => s.mon.conds[c].pending && inSet s.wakeSet c) || s.evt.wakeTerm

/-- R186: the degraded flag as it follows from the statuses and the degraded set. -/
def State.degradedLevel (s : State) : Bool :=
  allConds.any fun c => s.mon.conds[c].status && inSet s.degradedSet c

/-- R185, R204: WAKE evaluated again; the line follows the level. -/
def wakeEval (s : State) : State := { s with mon := { s.mon with wake := s.wakeLevel } }

/-- R186: the degraded flag evaluated again. -/
def degradedEval (s : State) : State := { s with mon := { s.mon with degraded := s.degradedLevel } }

/-- Put row x at condition c. -/
def setCond (c : CondId) (x : Cond) (s : State) : State :=
  { s with mon := { s.mon with conds := s.mon.conds.set c x } }

/-- R181: the condition whose status blocks the pending mark of c. -/
def blockerOf (c : CondId) : Option CondId :=
  if c = 7 then some 3 else if c = 8 then some 4 else if c = 11 then some 14 else none

/-- R181: the pending mark of c is blocked now. -/
def State.pendingBlocked (s : State) (c : CondId) : Bool :=
  match blockerOf c with
  | none => false
  | some b => s.mon.conds[b].status

/-- OUTBOX_DROP and EVENT_LOST, the occurrence conditions (9.1). -/
def isOccurrence (c : CondId) : Bool := decide (16 ≤ c.val)

/-- R179: the status, the change count and the last change of a row after a change to v at stamp x. -/
def Cond.change (k : Cond) (v : Bool) (x : Stamp) : Cond :=
  { k with status := v, changes := inc16 k.changes, last := some x }

/-- R182: an occurrence of OUTBOX_DROP. That condition is never in the alert set (R184), so nothing is handed on. -/
def dropOccurrence (s : State) : State :=
  let k := { s.mon.conds[16] with pending := true }
  if k.status then wakeEval (setCond 16 k s)
  else
    let s1 := setCond 16 (k.change true s.stamp) s
    wakeEval (if inSet s1.degradedSet 16 then degradedEval s1 else s1)

/-! ### Placing an alert -/

/-- How far a creation position lies behind the creation counter (R112). -/
def behind (counter pos : Nat) : Nat := (counter + Config.wrap32 - pos) % Config.wrap32

/-- R112: alert a comes before alert b in outbox order. -/
def Alert.before (counter : Nat) (a b : Alert) : Bool :=
  decide (a.rank < b.rank) || (decide (a.rank = b.rank) && decide (behind counter b.position < behind counter a.position))

/-- The entries put in outbox order again (R112). -/
def sortAlerts (counter : Nat) (l : List Alert) : List Alert :=
  l.foldr (insertBy (Alert.before counter)) []

/-- The last WAITING entry in outbox order (R116). -/
def lastWaiting (l : List Alert) : Option Alert := l.reverse.find? fun a => !a.inFlight

/-- R116, R118: one alert lost: the drop count, the dropped figure, the OUTBOX_DROP occurrence. -/
def alertLost (s : State) : State :=
  dropOccurrence { s with
    box := { s.box with drops := inc16 s.box.drops }
    mon := { s.mon with figs := { s.mon.figs with dropped := inc16 s.mon.figs.dropped } } }

/-- The outbox with alert a entered: it takes the creation position and the counter advances (R112). -/
def Outbox.enter (b : Outbox) (a : Alert) (kept : List Alert) : Outbox :=
  let n := (b.creation + 1) % Config.wrap32
  { b with entries := sortAlerts n ({ a with position := b.creation } :: kept), creation := n }

/-- R116: place a new record. The new record comes before the last WAITING entry exactly when its rank is lower. -/
def place (a : Alert) (s : State) : State :=
  if s.box.entries.length < 12 then { s with box := s.box.enter a s.box.entries }
  else
    match lastWaiting s.box.entries with
    | none => alertLost s
    | some w =>
      if a.rank < w.rank then alertLost { s with box := s.box.enter a (s.box.entries.erase w) }
      else alertLost s

/-- A new WAITING record with no attempts and no not-before (R113 to R115, R119). -/
def newAlert (kind : AlertKind) (rank origin : Nat) (created : Stamp) (content : Content) : Alert :=
  ⟨kind, rank, origin, created, 0, false, 0, none, content⟩

/-- R115: the waiting CONDITION entry of condition c. -/
def Alert.waitsFor (c : CondId) (a : Alert) : Bool :=
  a.kind == .condition && a.origin == c.val && !a.inFlight

/-- R115: a CONDITION entry with one more change merged into it. -/
def Alert.coalesce (v : Bool) (x : Stamp) (a : Alert) : Alert :=
  match a.content with
  | .condition id _ n _ => { a with content := .condition id v (min (n + 1) 255) x }
  | _ => a

/-- R115: the outbox takes a status change of condition c. -/
def conditionAlert (c : CondId) (v : Bool) (x : Stamp) (s : State) : State :=
  if s.box.entries.any (Alert.waitsFor c) then
    { s with box := { s.box with
        entries := s.box.entries.map fun a => if a.waitsFor c then a.coalesce v x else a } }
  else place (newAlert .condition 2 c.val s.stamp (.condition c v 1 x)) s

/-! ### Status changes -/

/-- R180: a change of condition c completed: pending mark, alert, degraded flag, WAKE, in that order. -/
def completeChange (c : CondId) (v : Bool) (x : Stamp) (s : State) : State :=
  let s1 := if isOccurrence c || s.pendingBlocked c then s
    else setCond c { s.mon.conds[c] with pending := true } s
  let s2 := if inSet s1.alertSet c then conditionAlert c v x s1 else s1
  let s3 := if inSet s2.degradedSet c then degradedEval s2 else s2
  wakeEval s3

/-- R179: an owner reports status v of condition c. -/
def statusChange (c : CondId) (v : Bool) (s : State) : State :=
  if s.mon.conds[c].status = v then s
  else completeChange c v s.stamp (setCond c (s.mon.conds[c].change v s.stamp) s)

/-- R182: an occurrence of EVENT_LOST. -/
def lostOccurrence (s : State) : State :=
  statusChange 17 true (wakeEval (setCond 17 { s.mon.conds[17] with pending := true } s))

/-- R105: the event-wake term evaluated again and passed to the monitor. -/
def eventWakeEval (s : State) : State :=
  wakeEval { s with evt := { s.evt with wakeTerm := s.eventWake && !s.evt.list.isEmpty } }

/-! ### Error sums -/

/-- R183: a port's error sum. -/
def PortFigures.errorSum (p : PortFigures) : Nat := p.sync + p.crc + p.gaps

/-- R183: DIGn_ERRORS judged. -/
def judgeErrors (p : PortId) (s : State) : State :=
  statusChange (if p = 0 then 7 else 8) (decide (s.errThreshold p < s.mon.figs.ports[p].errorSum)) s

/-! ### Accounting intervals -/

/-- The figures with a reading taken (R190, R136). -/
def Figures.read (f : Figures) (vb : Nat) (ib : Int) (tp : Int) (tpValid : Bool) : Figures :=
  { f with
    chargeIn := add32 f.chargeIn ib.toNat
    chargeOut := add32 f.chargeOut (-ib).toNat
    minVb := some (match f.minVb with | none => vb | some m => min m vb)
    minTp := if tpValid then some (match f.minTp with | none => tp | some m => min m tp) else f.minTp
    readings := inc16 f.readings }

/-- The refill of the class (R121). -/
def State.refill (s : State) : Nat :=
  match s.bat.cls with
  | .normal => s.refillNormal
  | .low => s.refillLow
  | .critical => s.refillCritical

/-- R121: the refill at an interval boundary. -/
def refillCredits (s : State) : State :=
  { s with box := { s.box with credits := min (s.box.credits + s.refill) s.creditCap } }

/-- R121: credits above `credit_cap` become `credit_cap` at once. -/
def clampCredits (s : State) : State :=
  { s with box := { s.box with credits := min s.box.credits s.creditCap } }

/-- R191: the interval number of the present second. -/
def State.intervalNumber (s : State) : Nat := s.clk.s / s.intervalLen

/-- R192: the seven steps of an interval boundary; steps 4 and 5 report in the order of log 34. -/
def intervalBoundary (s : State) : State :=
  let figs := s.mon.figs
  let number := s.mon.number
  let start := s.mon.start
  let s3 := { s with mon := { s.mon with figs := {}, number := s.intervalNumber, start := s.clk.s } }
  let s5 := statusChange 17 false (statusChange 16 false (judgeErrors 1 (judgeErrors 0 s3)))
  let s6 := refillCredits s5
  { s6 with mon := { s6.mon with report := some ⟨figs, number, start, s6.box.credits⟩ } }

/-- R191: the test for an interval boundary. -/
def intervalTest (s : State) : State :=
  if s.intervalNumber ≠ s.mon.number then intervalBoundary s else s

end Sys2Proof.Machine
end

