-- ==== Sys2Proof/Machine/Outbox.lean ====
section
/-! DEFINITION. The Alert Outbox beyond placing (chapter 6): event alerts, supersession, the return and the loss of the
alert in flight, eligibility and not-befores. -/
namespace Sys2Proof.Machine

/-- R113: the outbox takes an event open with its record. -/
def openAlert (r : EvRecord) (s : State) : State :=
  if s.alertOpen then
    place (newAlert .eventOpen 0 r.number s.stamp
      (.eventOpen r.openStamp r.peakS ((r.list.take 3).map fun e => ⟨e.chan, e.offset, e.peak.ratio⟩))) s
  else s

/-- The content of an EVENT_CLOSE (6.1). -/
def closeContent (r : EvRecord) : Content :=
  .eventClose r.openStamp ((r.close.map CloseInfo.duration).getD 0) r.peakS r.flags r.list

/-- The waiting EVENT_OPEN of event k. -/
def Alert.waitsOpen (k : Nat) (a : Alert) : Bool := a.kind == .eventOpen && a.origin == k && !a.inFlight

/-- R114: the outbox takes an event close with its record. -/
def closeAlert (r : EvRecord) (s : State) : State :=
  if s.alertClose then
    if s.box.entries.any (Alert.waitsOpen r.number) then
      { s with box := { s.box with
          entries := s.box.entries.map fun a =>
            if a.waitsOpen r.number then { a with kind := .eventClose, content := closeContent r } else a } }
    else place (newAlert .eventClose 1 r.number s.stamp (closeContent r)) s
  else s

/-- The later of two not-befores, where either is present (R117). -/
def laterOf : Option Time → Option Time → Option Time
  | none, y => y
  | x, none => x
  | some x, some y => if x.reached y then some x else some y

/-- The EVENT_CLOSE of event k takes rank 0, with the not-before of a returning open (R117, R118). -/
def raiseClose (k : Nat) (nb : Option Time) (s : State) : State :=
  { s with box := { s.box with
      entries := sortAlerts s.box.creation (s.box.entries.map fun a =>
        if a.kind == .eventClose && a.origin == k then { a with rank := 0, notBefore := laterOf a.notBefore nb } else a) } }

/-- The alert in flight, if there is one (R126). -/
def State.inFlight (s : State) : Option Alert := s.box.entries.find? Alert.inFlight

/-- The outbox without the alert in flight. -/
def removeInFlight (s : State) : State :=
  { s with box := { s.box with entries := s.box.entries.filter fun a => !a.inFlight } }

/-- R117: the alert in flight returns to WAITING with the given attempts and not-before. -/
def returnInFlight (attempts : Nat) (nb : Option Time) (s : State) : State :=
  match s.inFlight with
  | none => s
  | some a =>
    if a.kind == .eventOpen && (s.box.entries.any fun b => b.kind == .eventClose && b.origin == a.origin) then
      raiseClose a.origin nb (removeInFlight s)
    else if a.kind == .condition && (s.box.entries.any fun b => b.kind == .condition && b.origin == a.origin && !b.inFlight) then
      removeInFlight s
    else
      { s with box := { s.box with
          entries := s.box.entries.map fun b =>
            if b.inFlight then { b with inFlight := false, attempts := attempts, notBefore := nb } else b } }

/-- R118: the alert in flight has been sent. -/
def alertSent (s : State) : State :=
  let s1 := removeInFlight s
  { s1 with
    box := { s1.box with sent := inc16 s1.box.sent }
    mon := { s1.mon with figs := { s1.mon.figs with sent := inc16 s1.mon.figs.sent } } }

/-- R118: the alert in flight is dropped; a held close of the same event takes rank 0. -/
def alertDropped (s : State) : State :=
  match s.inFlight with
  | none => s
  | some a =>
    let s1 := alertLost (removeInFlight s)
    if a.kind == .eventOpen then raiseClose a.origin none s1 else s1

/-- R122: a WAITING entry is eligible. -/
def State.eligible (s : State) (a : Alert) : Bool :=
  !a.inFlight
    && (match a.notBefore with | none => true | some x => s.now.reached x)
    && s.bat.power == .run
    && (s.bat.cls != .critical || a.kind == .eventOpen || a.kind == .eventClose)
    && (if a.rank = 0 then decide (-3 < s.box.credits) else decide (1 ≤ s.box.credits))

/-- The first eligible entry in outbox order (R126). -/
def State.firstEligible (s : State) : Option Alert := s.box.entries.find? s.eligible

/-- R123: every not-before at or before station time is removed. -/
def passNotBefores (s : State) : State :=
  { s with box := { s.box with
      entries := s.box.entries.map fun a =>
        match a.notBefore with
        | none => a
        | some x => if s.now.reached x then { a with notBefore := none } else a } }

/-- NOT_BEFORE_PASSED (R123): judged at second boundaries and at changes of station time. -/
def execNotBeforePassed (s : State) : Host.Outcome State Fault Refusal :=
  act (fun s => if s.moment.boundary || s.moment.timeChange then passNotBefores s else s) s

/-- INTERVAL_BOUNDARY (R192): the interval number of the present second differs at a second boundary. -/
def execIntervalBoundary (s : State) : Host.Outcome State Fault Refusal :=
  act (fun s => if s.moment.boundary then intervalTest s else s) s

end Sys2Proof.Machine
end

