-- ==== Sys2Proof/Machine/Trigger.lean ====
section
/-! DEFINITION. The Trigger Engine (chapter 4): one strobe on one channel, the changes of trigger state between strobes,
and suppression (R41, R78, R79). -/
namespace Sys2Proof.Machine

/-! ### One strobe on one channel -/

/-- R68: the characteristic function of slot value x. -/
def Channel.cf (ch : Channel) (x : Int) : Nat :=
  if ch.state = .warmup ∧ ch.warmup = 0 then 0 else min (x - ch.prev).natAbs 8388607

/-- R69: an average with shift n after a CF. -/
def average (a cf n : Nat) : Nat := ((a : Int) + ((cf : Int) * 256 - a) / (2 ^ n : Nat)).toNat

/-- R71: the effective LTA. -/
def Channel.effLta (ch : Channel) : Nat := max ch.lta (ch.det.floor * 256)

/-- R73: the trigger ratio. -/
def Channel.ratioNow (ch : Channel) : Nat := min 4095 (ch.sta * 16 / ch.effLta)

/-- R72: the ON test. -/
def Channel.onTest (ch : Channel) : Bool := decide (ch.det.onRatio * ch.effLta ≤ ch.sta * 16)

/-- R72: the OFF test. -/
def Channel.offTest (ch : Channel) : Bool := decide (ch.sta * 16 < ch.det.offRatio * ch.effLta)

/-- R75: the warmup count has reached 2^l, so the channel has its warmed flag and is QUIET. -/
def Channel.warmupDone (ch : Channel) : Bool := decide (2 ^ ch.det.ltaShift ≤ ch.warmup)

/-- R75: the end of WARMUP. -/
def Channel.endWarmup (ch : Channel) : Channel := { ch with warmed := true, state := .quiet }

/-- R77: the trigger age is at or above `trig_max` × rate and LTA has not been released. -/
def Channel.releaseDue (rate : Nat) (ch : Channel) : Bool :=
  decide (ch.det.trigMax * rate ≤ ch.age) && !ch.released

/-- R76: a QUIET channel whose ON test passes. -/
def Channel.turnOn (ch : Channel) : Channel :=
  { ch with state := .triggered, frozen := true, age := 0, count := inc16 ch.count }

/-- R77: a TRIGGERED channel whose OFF test passes. -/
def Channel.turnOff (ch : Channel) : Channel :=
  { ch with state := .quiet, frozen := false, released := false, age := 0 }

/-- R75: one strobe in WARMUP. -/
def Channel.stepWarmup (ch : Channel) (x : Int) : Channel :=
  let cf := ch.cf x
  let ch1 := { ch with
    prev := x
    sta := average ch.sta cf ch.det.staShift
    lta := average ch.lta cf ch.det.ltaShift
    warmup := min (ch.warmup + 1) 16384
    ratio := 0 }
  if ch1.warmupDone then ch1.endWarmup else ch1

/-- R76: one strobe in QUIET, up to the ON test. -/
def Channel.updateQuiet (ch : Channel) (x : Int) : Channel :=
  let cf := ch.cf x
  let ch1 := { ch with prev := x, sta := average ch.sta cf ch.det.staShift, lta := average ch.lta cf ch.det.ltaShift }
  { ch1 with ratio := ch1.ratioNow }

/-- R77: one strobe in TRIGGERED, up to the OFF test. -/
def Channel.updateTriggered (ch : Channel) (rate : Nat) (x : Int) : Channel :=
  let ch0 := { ch with age := min (ch.age + 1) 120000 }
  let ch1 := if ch0.releaseDue rate then { ch0 with released := true } else ch0
  let cf := ch1.cf x
  let ch2 := { ch1 with
    prev := x
    sta := average ch1.sta cf ch1.det.staShift
    lta := if ch1.released then average ch1.lta cf ch1.det.ltaShift else ch1.lta }
  { ch2 with ratio := ch2.ratioNow }

/-- What one strobe does to a channel: the channel after it, and whether it carries ON or OFF (R67). -/
structure StrobeResult where
  chan : Channel
  on : Bool
  off : Bool
  ratio : Nat

/-- R67, R75 to R77: slot value x taken by the channel in its state at that moment. -/
def Channel.strobe (ch : Channel) (rate : Nat) (x : Int) : StrobeResult :=
  match ch.state with
  | .off => ⟨ch, false, false, 0⟩
  | .suppressed => ⟨{ ch with prev := x }, false, false, 0⟩
  | .warmup => ⟨ch.stepWarmup x, false, false, 0⟩
  | .quiet =>
    let ch1 := ch.updateQuiet x
    if ch1.onTest then ⟨ch1.turnOn, true, false, ch1.ratio⟩ else ⟨ch1, false, false, ch1.ratio⟩
  | .triggered =>
    let ch1 := ch.updateTriggered rate x
    if ch1.offTest then ⟨ch1.turnOff, false, true, ch1.ratio⟩ else ⟨ch1, false, false, ch1.ratio⟩

/-! ### Changes of trigger state between strobes -/

/-- Put channel x at c. -/
def setChan (c : Chan) (x : Channel) (s : State) : State := { s with chn := s.chn.set c x }

/-- A trigger state in which a channel never counts (R88, R89). -/
def TrigState.silent : TrigState → Bool
  | .off => true
  | .warmup => true
  | .suppressed => true
  | _ => false

/-- R81, R89: the Event Engine takes the signal that channel c has changed state between strobes. -/
def signalState (c : Chan) (s : State) : State :=
  if s.chn[c].state.silent then
    { s with evt := { s.evt with
        counting := s.evt.counting.set c none
        reports := s.evt.reports.map fun r => if r.chan = c then { r with overridden := true } else r } }
  else s

/-- The port a map source is an input of (11.2). -/
def portOf (x : Fin 6) : PortId := if x.val < 3 then 0 else 1

/-- The source port of channel c under the map in force. -/
def State.sourcePort (s : State) (c : Chan) : Option PortId := s.map.entries[c].source.map portOf

/-- R74: channel c is eligible. -/
def State.chanEligible (s : State) (c : Chan) : Bool :=
  s.chn[c].det.enable && (match s.sourcePort c with | none => false | some p => s.prt[p].link == .up)

/-- R74: entry to OFF, with the trigger ratio 0 (R73). The warmup count, of which no rule speaks there, stays until the next
restart: DESIGN CHOICE, unsafe (log 42). -/
def Channel.enterOff (ch : Channel) : Channel :=
  { ch with state := .off, ratio := 0, frozen := false, released := false, age := 0 }

/-- R80: a restart, with the channel eligible or not. -/
def Channel.restart (ch : Channel) (eligible : Bool) : Channel :=
  { ch with
    sta := 0
    lta := 0
    warmup := 0
    ratio := 0
    warmed := false
    frozen := false
    released := false
    age := 0
    last := none
    state := if eligible then (if ch.supp then .suppressed else .warmup) else .off }

/-- R80: restart channel c. -/
def restartChan (c : Chan) (s : State) : State :=
  signalState c (setChan c (s.chn[c].restart (s.chanEligible c)) s)

/-- R80: restart all six channels. -/
def restartAll (s : State) : State := allChans.foldl (fun s c => restartChan c s) s

/-- R74: channel c follows its eligibility: an OFF channel that has become eligible restarts, one that has stopped being
eligible enters OFF. -/
def refreshChan (c : Chan) (s : State) : State :=
  if s.chanEligible c then (if s.chn[c].state = .off then restartChan c s else s)
  else if s.chn[c].state = .off then s
  else signalState c (setChan c s.chn[c].enterOff s)

/-- R54, R74: the channels sourced from port p follow a change of its link. -/
def refreshPort (p : PortId) (s : State) : State :=
  allChans.foldl (fun s c => if s.sourcePort c = some p then refreshChan c s else s) s

/-! ### Suppression -/

/-- R78: suppression on. -/
def Channel.suppress (ch : Channel) : Channel :=
  match ch.state with
  | .off => { ch with supp := true }
  | .suppressed => { ch with supp := true }
  | _ => { ch with supp := true, state := .suppressed, ratio := 0, frozen := false, released := false, age := 0 }

/-- R78: the engine takes suppression on for channel c. -/
def suppressOn (c : Chan) (s : State) : State := signalState c (setChan c s.chn[c].suppress s)

/-- R79: the engine takes suppression off for channel c. -/
def suppressOff (c : Chan) (s : State) : State :=
  let ch := { s.chn[c] with supp := false }
  if ch.state = .suppressed then
    if ch.warmed then
      signalState c (setChan c { ch with sta := ch.lta, state := .quiet, frozen := false, released := false } s)
    else restartChan c (setChan c ch s)
  else setChan c ch s

/-- A suppression window is open (R41). -/
def Window.isOpen : Window → Bool
  | .closed => false
  | _ => true

/-- R41: channel c is suppressed: its source is an input of a port whose window is open. -/
def State.suppressed (s : State) (c : Chan) : Bool :=
  match s.sourcePort c with
  | none => false
  | some p => s.sch.windows[p].isOpen

/-- R41: the scheduler signals suppression on or off for channel c where the mark does not follow the windows. -/
def resuppressChan (c : Chan) (s : State) : State :=
  if s.suppressed c then (if s.chn[c].supp then s else suppressOn c s)
  else if s.chn[c].supp then suppressOff c s
  else s

/-- R41: suppression recomputed for the six channels. -/
def resuppress (s : State) : State := allChans.foldl (fun s c => resuppressChan c s) s

/-! ### Commands -/

/-- WARMUP_COMPLETE (R75): the warmup count stands at or above 2^l after the channel's own update of this moment (log 4). -/
def execWarmupComplete (c : Chan) (s : State) : Host.Outcome State Fault Refusal :=
  act (fun s =>
    if s.moment.updated[c] && s.chn[c].state == .warmup && s.chn[c].warmupDone then setChan c s.chn[c].endWarmup s else s) s

/-- LTA_RELEASE (R77): the trigger age stands at or above `trig_max` × rate after the channel's own update of this moment
(log 4). -/
def execLtaRelease (c : Chan) (s : State) : Host.Outcome State Fault Refusal :=
  act (fun s =>
    if s.moment.updated[c] && s.chn[c].state == .triggered && s.chn[c].releaseDue s.sch.rate then
      setChan c { s.chn[c] with released := true } s
    else s) s

end Sys2Proof.Machine
end

