-- ==== Sys2Proof/Machine/Heater.lean ====
section
/-! DEFINITION. The Heater Controller (chapter 8): the six stages of a reading, the HEAT output, the hold, shutdown and
OFF. -/
namespace Sys2Proof.Machine

/-- R172: a shutdown cause holds, on the held T_p, its valid mark and the HEAT_FAULT input; between readings `t_heater_cutoff`
is the stored value (log 36). -/
def State.heatCause (s : State) : Bool :=
  decide (s.tHeaterCutoff < s.pwr.tp) || !s.pwr.tpValid || s.htr.fault

/-- R175: the heater is to be OFF. -/
def State.heatOffDue (s : State) : Bool := s.bat.power == .shed || !s.heatEnable

/-- R163: the duty limit for the class, the budget and solar. -/
def State.dutyLimit (s : State) : Nat :=
  match s.bat.cls with
  | .normal => s.dutyMaxNormal
  | .low => if s.htr.spent && !s.pwr.solar then 0 else s.dutyMaxLow
  | .critical => if s.pwr.solar then s.dutyMaxNormal else 0

/-- R162: the target for the solar mark and charge state of the reading. -/
def State.heatTarget (s : State) : Int :=
  if s.pwr.solar && (s.bat.charge == .coldHold || s.bat.charge.enabled) then s.tChargeMin + s.tChargeMargin
  else s.tKeepWarm

/-- R168: today's figure at or above the budget. -/
def State.budgetSpent (s : State) : Bool := decide (s.dailyHeatBudgetLow * 3600000 ≤ s.htr.today)

/-- R168: the budget spent mark judged. -/
def judgeBudget (s : State) : State := { s with htr := { s.htr with spent := s.budgetSpent } }

/-- HEATER_SHUTDOWN reported from the heater state (R172, R173). -/
def reportHeater (s : State) : State := statusChange 13 (s.htr.state == .shutdown) s

/-- HEAT driven at a period start (R164): high for duty × period × 10,000 cycles from cycle `start`, and with duty 1000 until
the next start, also in a period that a step has lengthened (log 35). -/
def Heater.drive (h : Heater) (start len : Nat) : Heater :=
  { h with
    heat := decide (0 < h.latched)
    heatEnd := if 0 < h.latched ∧ h.latched < 1000 then some (start + h.latched * len * 10000) else none }

/-- HEAT low and the latched duty 0 (R164). -/
def Heater.quench (h : Heater) : Heater := { h with heat := false, heatEnd := none, latched := 0 }

/-- R166: the latched duty follows a duty limit that has fallen below it, at cycle `now`. -/
def Heater.relatch (h : Heater) (limit now : Nat) : Heater :=
  if limit < h.latched then
    let stop := h.periodAt + limit * h.periodLen * 10000
    if h.heat && decide (now < stop) && decide (0 < limit) then
      { h with latched := limit, heatEnd := some stop }
    else { h with latched := limit, heat := false, heatEnd := none }
  else h

/-- R166: the duty limit evaluated again for the latch; the limit reported stays that of the latest reading (R177, log 26). -/
def relimit (s : State) : State := { s with htr := s.htr.relatch s.dutyLimit s.osc }

/-- R172: entry to SHUTDOWN. -/
def heaterShutdown (s : State) : State :=
  reportHeater { s with htr := { s.htr.quench with state := .shutdown, clear := 0, count := inc16 s.htr.count } }

/-- R173: the state a heater takes on leaving SHUTDOWN. -/
def State.heatResume (s : State) : HeatState :=
  if s.heatOffDue then .off else if s.htr.hold.isSome then .held else .regulate

/-- R173: the heater leaves SHUTDOWN. -/
def heaterRestart (s : State) : State :=
  reportHeater { s with htr := { s.htr with state := s.heatResume, clear := 0 } }

/-- R175: the heater follows the power state and `heat_enable`. -/
def heaterFollow (s : State) : State :=
  match s.htr.state with
  | .shutdown => s
  | .off => if s.heatOffDue then s else { s with htr := { s.htr with state := s.heatResume } }
  | _ => if s.heatOffDue then { s with htr := { s.htr.quench with state := .off } } else s

/-- R170: a hold comes into force at an event open. -/
def heaterHoldStart (s : State) : State :=
  if 0 < s.quietMax then
    { s with htr := { s.htr with
        hold := some 0
        holdFlagged := false
        state := if s.htr.state = .regulate then .held else s.htr.state } }
  else s

/-- R170: the hold ends; its flagged mark stays as it is until the next open (log 39). -/
def heaterHoldEnd (s : State) : State :=
  { s with htr := { s.htr with
      hold := none
      state := if s.htr.state = .held then .regulate else s.htr.state } }

/-! ### The six stages (R161) -/

/-- Stage 1: the energy of the second that has ended (R167, R168). -/
def heaterEnergy (s : State) : State :=
  let e := s.heaterPower * s.htr.latched
  let f := s.mon.figs
  { s with
    mon := { s.mon with figs := { f with
      energy := add32 f.energy e
      onSeconds := if 0 < s.htr.latched then inc16 f.onSeconds else f.onSeconds } }
    htr := { s.htr with
      today := if s.htr.solarPrev then s.htr.today else min (s.htr.today + e) 1099511627775 } }

/-- Stage 2: the day test (R169), and the budget spent mark (R168). -/
def heaterDay (s : State) : State :=
  let d := s.clk.s / 86400
  judgeBudget (if d = s.htr.day then s else { s with htr := { s.htr with today := 0, day := d } })

/-- Stage 3: the shutdown causes and the clear run (R172, R173). -/
def heaterCauses (s : State) : State :=
  if s.htr.state = .shutdown then
    let s1 := { s with htr := { s.htr with clear := if s.heatCause then 0 else min (s.htr.clear + 1) 60 } }
    if s1.htr.clear = 60 ∧ s1.heatRestart = false then heaterRestart s1 else s1
  else if s.heatCause then heaterShutdown s
  else s

/-- Stage 4: the hold time (R170). -/
def heaterHold (s : State) : State :=
  match s.htr.hold with
  | none => s
  | some h =>
    let s1 := { s with htr := { s.htr with hold := some (min (h + 1) 900) } }
    if s.quietMax ≤ h + 1 then heaterHoldEnd s1 else s1

/-- Stage 5: target, error, duty limit and request, and the downward re-latch (R162, R163, R166). -/
def heaterLaw (s : State) : State :=
  let error := s.heatTarget - s.pwr.tp
  let limit := s.dutyLimit
  relimit { s with htr := { s.htr with
    target := s.heatTarget
    error := error
    limit := limit
    request := (clampI 0 limit (error * s.heatGain)).toNat } }

/-- R171: a latch withheld: the Event Engine is told once in a hold. -/
def heaterWithheld (s : State) : State :=
  if s.htr.holdFlagged then s
  else flagRecord (fun f => { f with heatHeld := true }) { s with htr := { s.htr with holdFlagged := true } }

/-- R165: the latch at a period start, by heater state. -/
def heaterLatch (s : State) : State :=
  match s.htr.state with
  | .regulate => { s with htr := { s.htr with latched := s.htr.request } }
  | .held => if s.htr.request = s.htr.latched then s else heaterWithheld s
  | _ => { s with htr := { s.htr with latched := 0 } }

/-- Stage 6: a period start (R164). -/
def heaterPeriod (s : State) : State :=
  if s.clk.s % s.heatPeriod = 0 then
    let s1 := heaterLatch s
    { s1 with htr := { s1.htr with period := some s.clk.s, periodAt := s.osc, periodLen := s.heatPeriod }.drive s.osc s.heatPeriod }
  else s

/-- R161: the work of one reading. -/
def heaterReading (s : State) : State :=
  let s1 := heaterPeriod (heaterLaw (heaterHold (heaterCauses (heaterDay (heaterEnergy s)))))
  { s1 with htr := { s1.htr with solarPrev := s1.pwr.solar } }

/-! ### Commands -/

/-- HEATER_AUTO_RESTART (R173). -/
def execHeaterAutoRestart (s : State) : Host.Outcome State Fault Refusal :=
  act (fun s =>
    if s.moment.boundary && s.htr.state == .shutdown && decide (60 ≤ s.htr.clear) && !s.heatRestart then heaterRestart s
    else s) s

/-- HEATER_HOLD_EXPIRY (R170). -/
def execHeaterHoldExpiry (s : State) : Host.Outcome State Fault Refusal :=
  act (fun s =>
    match s.htr.hold with
    | none => s
    | some h => if s.moment.boundary && decide (s.quietMax ≤ h) then heaterHoldEnd s else s) s

/-- Cycles for which the HEAT_FAULT line must have held a level before the input takes it (R172). -/
def faultCycles : Nat := 10000

/-- R172, R178: the HEAT_FAULT input becomes v after dt cycles, and no sooner than 10,000 cycles after its last change or
power-on, the time for which its filter must have seen the line at v; then `f` follows. An input that is v stays so. -/
def faultChange (v : Bool) (dt : Nat) (f : State → State) (s : State) : State :=
  if s.htr.fault = v then elapse dt s
  else
    let s1 := elapse (max dt (s.htr.faultAt + faultCycles - s.osc)) s
    if s.htr.faultAt + faultCycles ≤ s1.osc then f { s1 with htr := { s1.htr with fault := v, faultAt := s1.osc } } else s1

/-- R172: the asserted input is a cause: SHUTDOWN is entered, or its clear run becomes 0. -/
def faultShutdown (s : State) : State :=
  if s.htr.state = .shutdown then { s with htr := { s.htr with clear := 0 } } else heaterShutdown s

/-- HEAT_FAULT_ASSERTED (R172): the filtered input becomes asserted. -/
def execHeatFaultAsserted (dt : Nat) (s : State) : Host.Outcome State Fault Refusal :=
  act (faultChange true dt faultShutdown) s

/-- HEAT_FAULT_CLEARED (R172): the filtered input becomes clear. -/
def execHeatFaultCleared (dt : Nat) (s : State) : Host.Outcome State Fault Refusal :=
  act (faultChange false dt id) s

/-- HEAT_HIGH_TIME_END (R164): HEAT goes low at the end of its high time. -/
def execHeatHighTimeEnd (s : State) : Host.Outcome State Fault Refusal :=
  act (fun s =>
    match s.htr.heatEnd with
    | none => s
    | some d => atCycle d (fun s => { s with htr := { s.htr with heat := false, heatEnd := none } }) s) s

end Sys2Proof.Machine
end

