-- ==== Sys2Proof/Machine/Battery.lean ====
section
/-! DEFINITION. The Power Monitor's reading and Battery Care (chapter 7): the charge count, the class and the power state,
the charge controller, the charge hold and the CHG_LIMIT output. -/
namespace Sys2Proof.Machine

/-! ### The reading (R136, R137) -/

/-- R137: a temperature input in mV is valid. -/
def tempValid (mv : Nat) : Bool := decide (50 ≤ mv) && decide (mv ≤ 1850)

/-- R137: a temperature input in mV as 0.1 °C. -/
def tempOf (mv : Nat) : Int := (mv : Int) - 600

/-- R137: the monitor after a reading, given the held temperatures before it. -/
def Power.take (p : Power) (r : Reading) : Power where
  vb := r.vb
  ib := r.ib
  vs := r.vs
  tp := if tempValid r.tpMv then tempOf r.tpMv else p.tp
  tv := if tempValid r.tvMv then tempOf r.tvMv else p.tv
  tpValid := tempValid r.tpMv
  tvValid := tempValid r.tvMv
  solar := decide (r.vb + 300 ≤ r.vs)

/-- R136, R137: a reading is taken, handed to the accumulators, and PACK_SENSOR reported: before the PACK_COLD of the same
reading, which R179 leaves open (log 34). -/
def takeReading (r : Reading) (s : State) : State :=
  let p := s.pwr.take r
  statusChange 14 (!p.tpValid)
    { s with pwr := p, mon := { s.mon with figs := s.mon.figs.read p.vb p.ib p.tp p.tpValid } }

/-! ### Charge count (R138, R139) -/

/-- R138: Q after the current of one second. -/
def chargeCount (q full : Nat) (ib : Int) (eff : Nat) : Nat :=
  (clampI 0 full ((q : Int) + if ib < 0 then ib else ib * eff / 100)).toNat

/-- R139: the lowering of an empty sync. -/
def emptyLower (s : State) : State := { s with bat := { s.bat with q := min s.bat.q (s.capacity * 36 * 5) } }

/-- R139: an empty sync where the run has just reached 60, counted once for a run. -/
def emptySyncDue (s : State) : State :=
  if 60 ≤ s.bat.empty then
    let s1 := emptyLower s
    if s1.bat.emptyCounted then s1
    else { s1 with bat := { s1.bat with emptySyncs := inc16 s1.bat.emptySyncs, emptyCounted := true } }
  else s

/-- R138, R139: steps 1 and 2 of a reading. -/
def coulombStep (s : State) : State :=
  let low := decide (s.pwr.vb < s.vEmpty) && decide (s.pwr.ib < 0)
  emptySyncDue { s with bat := { s.bat with
    q := chargeCount s.bat.q s.full s.pwr.ib s.chargeEff
    empty := if low then min (s.bat.empty + 1) 60 else 0
    emptyCounted := low && s.bat.emptyCounted } }

/-! ### Charge control (7.5) -/

/-- PACK_COLD and CHARGE_FAULT reported from the charge state (R153), in the order of their ids (log 34). -/
def reportCharge (s : State) : State :=
  statusChange 12 (s.bat.charge == .fault) (statusChange 11 (s.bat.charge == .coldHold) s)

/-- Absorb time, term run and float-low run discarded (R147, R148). -/
def Battery.discard (b : Battery) : Battery := { b with absorb := 0, term := 0, floatLow := 0 }

/-- Entry to BULK with the limit at `i_bulk` (R148, R151); on a return to BULK the float-low
run, the absorb time and the term run stay (log 33). -/
def enterBulk (s : State) : State := { s with bat := { s.bat with charge := .bulk, limit := s.iBulk } }

/-- Entry to FLOAT (R150), without a sync. -/
def enterFloat (s : State) : State :=
  { s with bat := { s.bat with charge := .float, floatLow := 0, restarts := 0 } }

/-- R139, R150: entry to FLOAT with a full sync. -/
def fullSync (s : State) : State :=
  let s1 := enterFloat s
  { s1 with bat := { s1.bat with q := s.full, fullSyncs := inc16 s1.bat.fullSyncs } }

/-- R150: the limit stepped toward voltage v. -/
def steppedLimit (limit vb v bulk : Nat) : Nat :=
  (clampI 0 bulk ((limit : Int) + if v < vb then -100 else if vb < v then 100 else 0)).toNat

/-- R150, R154: the step toward v, or its withholding under a charge hold, with the signal of its first withheld step. -/
def chargeStep (v : Nat) (s : State) : State :=
  let stepped := steppedLimit s.bat.limit s.pwr.vb v s.iBulk
  let kept := min s.bat.limit s.iBulk
  if s.bat.hold.isSome then
    let s1 := { s with bat := { s.bat with limit := kept } }
    if stepped ≠ kept ∧ s.bat.holdFlagged = false then
      flagRecord (fun f => { f with heatHeld := true }) { s1 with bat := { s1.bat with holdFlagged := true } }
    else s1
  else { s with bat := { s.bat with limit := stepped } }

/-- R150: the term run has reached 60. -/
def State.termDone (s : State) : Bool := decide (60 ≤ s.bat.term)

/-- R150: the absorb time has reached `absorb_max` × 60. -/
def State.absorbDone (s : State) : Bool := decide (s.absorbMax * 60 ≤ s.bat.absorb)

/-- R150: one reading in ABSORB. -/
def absorbReading (s : State) : State :=
  let s1 := chargeStep s.vAbsorb { s with bat := { s.bat with absorb := min (s.bat.absorb + 1) 36000 } }
  let s2 := { s1 with bat := { s1.bat with term := if s1.pwr.ib < s1.iTerm then min (s1.bat.term + 1) 60 else 0 } }
  if s2.termDone then fullSync s2 else if s2.absorbDone then enterFloat s2 else s2

/-- R151: one reading in FLOAT. -/
def floatReading (s : State) : State :=
  let s1 := chargeStep s.vFloat s
  let s2 := { s1 with bat := { s1.bat with
    floatLow := if s1.pwr.vb + 300 < s1.vFloat then min (s1.bat.floatLow + 1) 60 else 0 } }
  if 60 ≤ s2.bat.floatLow then enterBulk s2 else s2

/-- R149: one reading in BULK. -/
def bulkReading (s : State) : State :=
  let s1 := { s with bat := { s.bat with limit := s.iBulk } }
  if s.vAbsorb ≤ s.pwr.vb then { s1 with bat := { s1.bat with charge := .absorb, absorb := 0, term := 0 } } else s1

/-- A charge state with CHG_EN off and limit 0; leaving ABSORB or FLOAT discards their timers (R148). -/
def chargeOff (c : Charge) (s : State) : State :=
  let b := if s.bat.charge = .absorb ∨ s.bat.charge = .float then s.bat.discard else s.bat
  { s with bat := { b with charge := c, limit := 0 } }

/-- R148: the evaluation of a reading, from the charge state as the previous state. -/
def chargeEvaluate (s : State) : State :=
  if !s.pwr.solar then chargeOff .idle s
  else if s.pwr.tp < s.tChargeMin then chargeOff .coldHold s
  else if s.tChargeMax < s.pwr.tp then chargeOff .hotHold s
  else
    match s.bat.charge with
    | .bulk => bulkReading s
    | .absorb => absorbReading s
    | .float => floatReading s
    | _ => enterBulk s

/-- R147: the over-current run and whether a fault cause holds at the reading. -/
def faultCheck (s : State) : State :=
  let run := if s.pwr.ib > (s.iBulk * 3 / 2 : Nat) then min (s.bat.overRun + 1) 5 else 0
  { s with bat := { s.bat with overRun := run, cause := decide (s.vOver < s.pwr.vb) || decide (run = 5) } }

/-- R147: entry to FAULT. -/
def chargeFault (s : State) : State :=
  let s1 := chargeOff .fault s
  { s1 with bat := { s1.bat.discard with clear := 0, faults := inc16 s1.bat.faults } }

/-- R152: the charger leaves FAULT by itself now. -/
def State.autoRestartDue (s : State) : Bool :=
  !s.chargeRestart && decide (s.bat.restarts < 3) && decide (600 ≤ s.bat.clear)

/-- R152: an automatic restart: CHARGE_FAULT is reported cleared, then the reading is evaluated as from IDLE. The
clear run stays (log 33). -/
def chargerAutoRestart (s : State) : State :=
  chargeEvaluate (statusChange 12 false { s with bat := { s.bat with charge := .idle, restarts := s.bat.restarts + 1 } })

/-- R152: one reading in FAULT. -/
def faultReading (s : State) : State :=
  let s1 := { s with bat := { s.bat with clear := if s.bat.cause then 0 else min (s.bat.clear + 1) 600 } }
  if s1.autoRestartDue then chargerAutoRestart s1 else s1

/-- R154: the charge hold at a reading. -/
def chargeHoldReading (s : State) : State :=
  match s.bat.hold with
  | none => s
  | some h =>
    { s with bat := { s.bat with hold := if s.quietMax ≤ h + 1 then none else some (min (h + 1) 900) } }

/-- R147 to R154: steps 3 and 4 of a reading. -/
def chargeReading (s : State) : State :=
  let s1 := faultCheck (chargeHoldReading s)
  reportCharge (if s1.bat.charge = .fault then faultReading s1
    else if s1.bat.cause then chargeFault s1
    else chargeEvaluate s1)

/-- R154: a charge hold comes into force at an event open. -/
def chargeHoldStart (s : State) : State :=
  if 0 < s.quietMax then { s with bat := { s.bat with hold := some 0, holdFlagged := false } } else s

/-- R154: the charge hold ends. -/
def chargeHoldEnd (s : State) : State := { s with bat := { s.bat with hold := none } }

/-- R146: the temperature test at once, on a written or reloaded limit of the charge temperatures. -/
def chargeTempTest (s : State) : State :=
  if s.bat.charge.enabled && s.pwr.solar then
    if s.pwr.tp < s.tChargeMin then reportCharge (chargeOff .coldHold s)
    else if s.tChargeMax < s.pwr.tp then reportCharge (chargeOff .hotHold s)
    else s
  else s

/-- R138: Q clamped to a new full at once. -/
def clampCharge (s : State) : State := { s with bat := { s.bat with q := min s.bat.q s.full } }

/-! ### Class and power state (7.3, 7.4) -/

/-- R138: SOC from Q. -/
def State.socNow (s : State) : Nat := s.bat.q * 100 / s.full

/-- R141: the class at the power-on reading. -/
def classAtStart (soc low critical : Nat) : BatClass :=
  if soc < critical then .critical else if soc < low then .low else .normal

/-- R141: the class after a later reading, with hysteresis. -/
def nextClass (c : BatClass) (soc low critical : Nat) : BatClass :=
  match c with
  | .normal => if soc < critical then .critical else if soc < low then .low else .normal
  | .low => if soc < critical then .critical else if low + 5 ≤ soc then .normal else .low
  | .critical =>
    if critical + 5 ≤ soc ∧ low + 5 ≤ soc then .normal else if critical + 5 ≤ soc then .low else .critical

/-- R144: the reconnect level. -/
def State.reconnectLevel (s : State) : Nat := max s.vReconnect (s.vCutoff + 100)

/-- R143: the power state becomes SHED. -/
def Battery.shed (b : Battery) : Battery :=
  { b with power := .shed, cutoff := 0, reconnect := 0, sheds := inc16 b.sheds }

/-- R144: the power state becomes RUN. -/
def Battery.resume (b : Battery) : Battery := { b with power := .run, cutoff := 0, reconnect := 0 }

/-- R143, R144: the cutoff and reconnect runs of a reading, and the power state they give. -/
def powerRuns (s : State) : Battery :=
  match s.bat.power with
  | .run =>
    let b := { s.bat with cutoff := if s.pwr.vb < s.vCutoff then min (s.bat.cutoff + 1) 10 else 0 }
    if 10 ≤ b.cutoff then b.shed else b
  | .shed =>
    let b := { s.bat with reconnect := if s.reconnectLevel ≤ s.pwr.vb then min (s.bat.reconnect + 1) 60 else 0 }
    if 60 ≤ b.reconnect then b.resume else b

/-- R138: SOC, then the class and the power state together (steps 5 and 6), nothing handed over yet. -/
def classStep (s : State) : State :=
  let soc := s.socNow
  { s with bat := { powerRuns s with soc := soc, cls := nextClass s.bat.cls soc s.socLow s.socCritical } }

/-- BATT_LOW and BATT_CRITICAL reported from the class (R142), in the order of their ids and before the class and the power
state are handed over (log 34). -/
def reportClass (s : State) : State :=
  statusChange 10 (s.bat.cls == .critical) (statusChange 9 (s.bat.cls != .normal) s)

/-! ### Commands -/

/-- FULL_SYNC (R150): the term run stands at 60 in ABSORB; SOC follows Q. -/
def execFullSync (s : State) : Host.Outcome State Fault Refusal :=
  act (fun s =>
    if s.bat.charge == .absorb && s.termDone then
      let s1 := fullSync s
      { s1 with bat := { s1.bat with soc := s1.socNow } }
    else s) s

/-- ABSORB_TIME_LIMIT (R150): the absorb time stands at its limit in ABSORB at a reading. -/
def execAbsorbTimeLimit (s : State) : Host.Outcome State Fault Refusal :=
  act (fun s =>
    if s.moment.boundary && s.bat.charge == .absorb && s.absorbDone && !s.termDone then enterFloat s else s) s

/-- FLOAT_LOW_RECHARGE (R151): the float-low run stands at 60 in FLOAT. -/
def execFloatLowRecharge (s : State) : Host.Outcome State Fault Refusal :=
  act (fun s => if s.bat.charge == .float && decide (60 ≤ s.bat.floatLow) then enterBulk s else s) s

/-- CHARGER_AUTO_RESTART (R152): the clear run stands at 600 in FAULT at a reading. -/
def execChargerAutoRestart (s : State) : Host.Outcome State Fault Refusal :=
  act (fun s =>
    if s.moment.boundary && s.bat.charge == .fault && s.autoRestartDue then reportCharge (chargerAutoRestart s) else s) s

/-- EMPTY_SYNC (R139): the empty run stands at 60 and has not been counted. -/
def execEmptySync (s : State) : Host.Outcome State Fault Refusal :=
  act (fun s => if s.bat.emptyCounted then s else emptySyncDue s) s

/-- CHARGE_HOLD_EXPIRY (R154): the hold time stands at `quiet_max` at a reading. -/
def execChargeHoldExpiry (s : State) : Host.Outcome State Fault Refusal :=
  act (fun s =>
    match s.bat.hold with
    | none => s
    | some h => if s.moment.boundary && decide (s.quietMax ≤ h) then chargeHoldEnd s else s) s

/-- The start of the next CHG_LIMIT period: the first multiple of 10,000 cycles after the last start that has not
passed (log 21). -/
def State.nextChgPeriod (s : State) : Nat := (max (s.bat.chgStart + 1) s.osc + 9999) / 10000 * 10000

/-- R146: a CHG_LIMIT period starts now. -/
def chgPeriodStart (s : State) : State :=
  let d := s.bat.limit * 1000 / 20000
  { s with bat := { s.bat with
      duty := d
      chgStart := s.osc
      chgHigh := decide (0 < d)
      chgEnd := if 0 < d ∧ d < 1000 then some (s.osc + d * 10) else none } }

/-- CHG_PWM_PERIOD (R146). -/
def execChgPwmPeriod (s : State) : Host.Outcome State Fault Refusal :=
  act (fun s => atCycle s.nextChgPeriod chgPeriodStart s) s

/-- CHG_LIMIT_HIGH_END (R146). -/
def execChgLimitHighEnd (s : State) : Host.Outcome State Fault Refusal :=
  act (fun s =>
    match s.bat.chgEnd with
    | none => s
    | some d => atCycle d (fun s => { s with bat := { s.bat with chgHigh := false, chgEnd := none } }) s) s

end Sys2Proof.Machine
end

