-- ==== Sys2Proof/Machine/Clock.lean ====
section
/-! DEFINITION. The Station Clock (chapter 1): the second boundary, captures, steps, holdover, the GNSS supply schedule
and the label receiver. -/
namespace Sys2Proof.Machine

/-! ### Conditions and time changes -/

/-- R22: the three condition statuses of the clock, reported from its state; an operation that makes several changes of the
clock reports after each one that can move a status (log 34). -/
def reportClock (s : State) : State :=
  statusChange 2 (s.clk.disc == .unset)
    (statusChange 1 (decide (s.holdoverLimit * 1000 < s.clk.u))
      (statusChange 0 (s.clk.disc == .holdover && s.clk.reason == some .ppsLoss) s))

/-- R35: where the strobe points stand after station time has become tick t by a change: the first multiple of the
period after it. -/
def pointAfter (rate t : Nat) : Nat := (t / periodOf rate + 1) * periodOf rate

/-- R1, R35, R123: station time becomes x by a step, a setting or TIME_SET. A changed tick moves the next strobe point
and, once strobes run, makes a timing break due; the not-befores are judged. The tests of a second boundary belong to the
boundary before the change (R191). -/
def changeTime (x : Time) (s : State) : State :=
  let moved := decide (x.t ≠ s.clk.t)
  let s1 := { s with
    clk := { s.clk with s := x.s, t := x.t }
    sch := if moved then
      { s.sch with point := pointAfter s.sch.rate x.t, breakDue := s.sch.breakDue || s.sch.last.isSome } else s.sch
    moment := { strobe := s.moment.strobe, updated := s.moment.updated, capture := s.moment.capture, timeChange := true } }
  passNotBefores s1

/-- A deferral is signalled: the clock's flag, and STEP_DEFERRED in the record in progress (R8, R10, R11, R97). -/
def deferStep (s : State) : State :=
  flagRecord (fun f => { f with stepDeferred := true }) { s with clk := { s.clk with stepDeferred := true } }

/-- One more step taken (1.3, R8, R10, R11, R20). -/
def countStep (s : State) : State := { s with clk := { s.clk with steps := inc16 s.clk.steps } }

/-! ### Holdover -/

/-- R3: a rate clamped to its range. -/
def clampRate (x : Int) : Int := clampI (-2000) 2000 x

/-- R19: the compensated rate. -/
def State.holdoverRate (s : State) : Int :=
  clampRate (s.clk.rLoss + roundDiv (s.tempco * (s.pwr.tv - s.clk.tLoss)) 10)

/-- R18: entry to HOLDOVER with a reason. -/
def enterHoldover (reason : HoldReason) (s : State) : State :=
  { s with clk := { s.clk with
      disc := .holdover
      reason := some reason
      rLoss := s.clk.r
      tLoss := s.pwr.tv
      lock := 0
      unlock := 0
      mismatch := 0
      offset := none
      stepDeferred := false
      hold := 0
      c := clampRate s.clk.r } }

/-- R18: a cause of holdover arrives: an ACQUIRE or TRACK clock enters HOLDOVER, a HOLDOVER clock may take the reason. -/
def holdoverCause (reason : HoldReason) (s : State) : State :=
  match s.clk.disc with
  | .unset => s
  | .holdover =>
    if reason = .shed ∨ (reason = .gnssOff ∧ s.clk.reason = some .ppsLoss) then
      { s with clk := { s.clk with reason := some reason } }
    else s
  | _ => enterHoldover reason s

/-- Entry to ACQUIRE with lock count 0 and the PPS watch restarted (R8, R15, R16, R19). -/
def enterAcquire (s : State) : State :=
  { s with clk := { s.clk with disc := .acquire, lock := 0, watch := 0, hold := 0 } }

/-- R19: HOLDOVER is left: reason and model removed. -/
def leaveHoldover (s : State) : State :=
  let s1 := enterAcquire s
  { s1 with clk := { s1.clk with reason := none, rLoss := 0, tLoss := 0 } }

/-! ### GNSS supply (1.8) -/

/-- The supply goes off: the latched label and a partial label are dropped (R4, R216). -/
def supplyOff (x : Supply) (s : State) : State :=
  { s with clk := { s.clk with supply := x, label := none, rx := [] } }

/-- The supply goes on, or stays on, in a new supply state; the receiver hunts afresh where it comes on (R216). -/
def supplyOn (x : Supply) (s : State) : State :=
  { s with clk := { s.clk with supply := x, rx := if s.clk.supply.on then s.clk.rx else [] } }

/-- R24: a session starts. -/
def sessionStart (s : State) : State :=
  let s1 := supplyOn .session s
  { s1 with clk := { s1.clk with session := 0, hold := 0 } }

/-- R23, R24: the supply goes off by schedule, to RESTING with rest time 0. -/
def supplyRest (s : State) : State :=
  let s1 := holdoverCause .gnssOff (supplyOff .resting s)
  { s1 with clk := { s1.clk with rest := 0 } }

/-- R24: the rest interval of the present class, in seconds. -/
def State.restInterval (s : State) : Nat :=
  match s.bat.cls with
  | .critical => s.gnssSessionCritical * 3600
  | _ => s.gnssSessionLow * 3600

/-- R24: a session is to start. -/
def State.sessionDue (s : State) : Bool := s.clk.supply == .resting && decide (s.restInterval ≤ s.clk.rest)

/-- R24: the session is to end. -/
def State.sessionOver (s : State) : Bool :=
  s.clk.supply == .session
    && (decide (s.gnssHoldAfterLock ≤ s.clk.hold) || decide (s.gnssSessionMax * 60 ≤ s.clk.session))

/-- R16: the PPS watch has expired. -/
def State.watchExpired (s : State) : Bool :=
  (s.clk.disc == .acquire || s.clk.disc == .track) && s.clk.supply.on && decide (s.ppsPrescale + 2 ≤ s.clk.watch)

/-- R23: the supply follows the class and the power state. -/
def clockFollow (s : State) : State :=
  reportClock (match s.bat.power with
    | .shed =>
      if s.clk.supply = .shedOff then s else holdoverCause .shed (supplyOff .shedOff s)
    | .run =>
      match s.clk.supply, s.bat.cls with
      | .continuous, .normal => s
      | .continuous, _ => supplyRest s
      | .shedOff, .normal => supplyOn .continuous s
      | .shedOff, _ => sessionStart s
      | _, .normal => supplyOn .continuous s
      | _, _ => s)

/-! ### The second boundary (R1, R2, R16, R19, R24) -/

/-- R2: the tick of correction i, counting from 0. -/
def corrections (n : Nat) : List Nat := (List.range n).map fun i => 250000 + 500000 * i

/-- R19: in HOLDOVER the rate is recomputed before it is applied. -/
def compensate (s : State) : State :=
  if s.clk.disc = .holdover then { s with clk := { s.clk with c := s.holdoverRate } } else s

/-- R1, R2: counting reaches the boundary: the cycles left have passed, the rate is applied. -/
def rollSecond (s : State) : State :=
  let a := s.clk.acc + s.clk.c
  let whole := Int.tdiv a 100
  { s with
    osc := s.osc + s.clk.cyclesLeft
    moment := {}
    clk := { s.clk with
      s := (s.clk.s + 1) % Config.wrap32
      t := 0
      ticks := s.clk.ticks + (Config.ticks - s.clk.t)
      acc := a - whole * 100
      corr := corrections whole.natAbs
      corrUp := decide (0 < whole) } }

/-- R17: in HOLDOVER the uncertainty grows. -/
def growUncertainty (s : State) : State :=
  if s.clk.disc = .holdover then { s with clk := { s.clk with u := add32 s.clk.u s.driftBound } } else s

/-- R16: the PPS watch. -/
def tickWatch (s : State) : State :=
  let s1 := if (s.clk.disc == .acquire || s.clk.disc == .track) && s.clk.supply.on then
    { s with clk := { s.clk with watch := s.clk.watch + 1 } } else s
  if s1.watchExpired then enterHoldover .ppsLoss s1 else s1

/-- R24: the timers of the supply schedule. -/
def tickSupply (s : State) : State :=
  match s.clk.supply with
  | .resting =>
    let s1 := { s with clk := { s.clk with rest := s.clk.rest + 1 } }
    if s1.sessionDue then sessionStart { s1 with moment := { s1.moment with restDue := true } } else s1
  | .session =>
    let s1 := { s with clk := { s.clk with
      session := s.clk.session + 1
      hold := if s.clk.disc = .track then s.clk.hold + 1 else 0 } }
    if s1.sessionOver then supplyRest s1 else s1
  | _ => s

/-- The clock's own work at a second boundary, each change reported as it is made (R22): the PPS watch before the session
timers, which no rule orders (R16, R24; log 6). -/
def clockBoundary (s : State) : State :=
  reportClock (tickSupply (reportClock (tickWatch (reportClock (growUncertainty (rollSecond (compensate s)))))))

/-! ### Captures (1.2 to 1.5) -/

/-- R7: the phase error. -/
def phaseError (t : Nat) : Int := if t ≤ 4999999 then t else (t : Int) - 10000000

/-- R7: the edge second. -/
def edgeSecond (x : Time) : Nat := if 0 ≤ phaseError x.t then x.s else (x.s + 1) % Config.wrap32

/-- R13: the loop law. -/
def loopLaw (e : Int) (s : State) : State :=
  let r := clampRate (s.clk.r - roundDiv (e * 100) (s.ppsPrescale * s.gainI))
  { s with clk := { s.clk with r := r, c := clampRate (r - roundDiv (e * 100) (s.ppsPrescale * s.gainP)) } }

/-- R9, R11: a seconds correction is taken where stepping is permitted, and waits for a later capture otherwise: this
capture's permission has been judged, so its moment is over (log 4). -/
def secondsCorrection (offset : Int) (u : State) : State :=
  let s := { u with moment := { u.moment with capture := false } }
  if s.stepForbidden then deferStep s
  else
    let s1 := countStep (changeTime ⟨((s.clk.s + offset) % 4294967296).toNat, s.clk.t⟩ s)
    { s1 with clk := { s1.clk with mismatch := 0, offset := none } }

/-- R11: the seconds check of a capture with label second `secs`; the capture that made it is noted (log 4). -/
def secondsCheck (secs edge : Nat) (u : State) : State :=
  let s := { u with moment := { u.moment with capture := true } }
  let off := signed32 ((secs : Int) - edge)
  if off = 0 then { s with clk := { s.clk with mismatch := 0, offset := none } }
  else
    let s1 := if s.clk.offset = some off then
        { s with clk := { s.clk with mismatch := min (s.clk.mismatch + 1) 3 } }
      else { s with clk := { s.clk with mismatch := 1, offset := some off } }
    if s1.clk.mismatch = 3 then secondsCorrection off s1 else s1

/-- R11: the check is skipped for a capture with no label. -/
def secondsCheckIf (label : Option Nat) (edge : Nat) (s : State) : State :=
  match label with
  | none => s
  | some secs => secondsCheck secs edge s

/-- R10: a phase step is needed. -/
def State.stepNeeded (s : State) (e : Int) : Bool := decide (s.stepThreshold < e.natAbs)

/-- R10: a phase step is taken, or deferred with the slew. -/
def phaseStep (e : Int) (s : State) : State :=
  let s1 := if s.stepForbidden then
      deferStep { s with clk := { s.clk with c := -2000 * signOf e } }
    else
      let s2 := countStep (changeTime (s.now.addTicks (-e)) s)
      { s2 with clk := { s2.clk with c := s2.clk.r } }
  { s1 with clk := { s1.clk with lock := 0 } }

/-- R17: u after an accepted capture. -/
def setUncertainty (e : Int) (s : State) : State := { s with clk := { s.clk with u := e.natAbs * 100 + 100 } }

/-- R14: the lock count has reached 8. -/
def enterTrack (s : State) : State :=
  { s with clk := { s.clk with disc := .track, lock := 0, unlock := 0, hold := 0 } }

/-- R15: the unlock count has reached 4. -/
def unlockTrack (s : State) : State :=
  let s1 := enterAcquire s
  { s1 with clk := { s1.clk with unlock := 0 } }

/-- R12: the flag at the end of an accepted capture: kept only while a phase step or a seconds correction waits. -/
def settleFlag (stepWaits : Bool) (s : State) : State :=
  if stepWaits || decide (s.clk.mismatch = 3) then s else { s with clk := { s.clk with stepDeferred := false } }

/-- R14: an accepted capture in ACQUIRE, after the seconds check. -/
def acquireWork (e : Int) (s : State) : State :=
  let needed := s.stepNeeded e
  let waits := needed && s.stepForbidden
  let s1 := if needed then phaseStep e s
    else
      let s2 := loopLaw e s
      { s2 with clk := { s2.clk with lock := if e.natAbs ≤ s.lockWindow then min (s2.clk.lock + 1) 8 else 0 } }
  let s3 := setUncertainty e s1
  settleFlag waits (if 8 ≤ s3.clk.lock then enterTrack s3 else s3)

/-- R14: an accepted capture in ACQUIRE. -/
def acquireCapture (e : Int) (edge : Nat) (label : Option Nat) (s : State) : State :=
  acquireWork e (secondsCheckIf label edge s)

/-- R15: an accepted capture in TRACK. One that needs a step moves the clock to ACQUIRE with its unlock count as it stands, of which
the rule says nothing there: DESIGN CHOICE, unsafe (log 43). -/
def trackCapture (e : Int) (edge : Nat) (label : Option Nat) (s : State) : State :=
  let s1 := secondsCheckIf label edge s
  if s1.stepNeeded e then
    let waits := s1.stepForbidden
    settleFlag waits (setUncertainty e (phaseStep e (enterAcquire s1)))
  else
    let s2 := loopLaw e s1
    let s3 := { s2 with clk := { s2.clk with
      unlock := if s2.lockWindow < e.natAbs then min (s2.clk.unlock + 1) 4 else 0 } }
    settleFlag false (setUncertainty e (if 4 ≤ s3.clk.unlock then unlockTrack s3 else s3))

/-- R8: a setting capture with label second `secs`, whose edge came at the count `since` of ticks; the state's change is
reported before the uncertainty is set (R22, log 34). -/
def settingCapture (secs since : Nat) (s : State) : State :=
  if s.stepForbidden then deferStep s
  else
    let s1 := countStep (changeTime (Time.addTicks ⟨secs, 0⟩ (s.clk.ticks - since : Nat)) s)
    let s2 := reportClock (enterAcquire { s1 with clk := { s1.clk with unlock := 0, mismatch := 0, stepDeferred := false } })
    setUncertainty 0 (loopLaw 0 { s2 with clk := { s2.clk with lock := 1 } })

/-- R6: an accepted capture, by discipline state; HOLDOVER is left, and that reported, before the capture is processed (R19,
R22). -/
def acceptedCapture (x : Time) (since : Nat) (label : Option Nat) (s : State) : State :=
  let e := phaseError x.t
  let edge := edgeSecond x
  match s.clk.disc with
  | .unset =>
    match label with
    | none => settleFlag false s
    | some secs => settingCapture secs since s
  | .acquire => acquireCapture e edge label { s with clk := { s.clk with watch := 0 } }
  | .track => trackCapture e edge label { s with clk := { s.clk with watch := 0 } }
  | .holdover => acquireCapture e edge label (reportClock (leaveHoldover s))

/-- R5, R6: a capture with the supply on and inside the window: the label is consumed. -/
def labelledCapture (x : Time) (since : Nat) (s : State) : State :=
  let s1 := { s with clk := { s.clk with label := none } }
  match s.clk.label with
  | none => acceptedCapture x since none s1
  | some l =>
    if l.fix = 2 then acceptedCapture x since (some l.secs) s1
    else { s1 with clk := { s1.clk with unfixed := inc16 s1.clk.unfixed } }

/-- R5: a qualified PPS capture with stamp x, whose edge came at the count `since` of ticks. -/
def ppsCapture (x : Time) (since : Nat) (s : State) : State :=
  if s.clk.supply.on then
    if s.clk.disc = .track ∧ s.ppsWindow < (phaseError x.t).natAbs then
      { s with mrk := { s.mrk with windowRej := inc16 s.mrk.windowRej } }
    else
      reportClock (labelledCapture x since { s with moment := { s.moment with capture := false } })
  else s

/-! ### TIME_SET (R20) -/

/-- R20: an accepted TIME_SET to x, received at the count `since` of ticks, with an uncertainty in µs; the uncertainty is set
and reported before the state and the reason change (R22, log 34). -/
def setTime (x : Time) (micros since : Nat) (s : State) : State :=
  let s1 := countStep (changeTime (x.addTicks (s.clk.ticks - since : Nat)) s)
  let s2 := reportClock { s1 with clk := { s1.clk with u := min (micros * 1000) 4294967295 } }
  reportClock (if s2.clk.disc = .unset then enterHoldover .hostSet s2
    else { s2 with clk := { s2.clk with reason := some .hostSet } })

/-! ### The label receiver (R4, R216) -/

/-- R4: a complete label of eight bytes. -/
def takeLabel (l : List Byte) (s : State) : State :=
  let fix := field l 6 1
  if crc8 ((l.drop 2).take 5) = l.getD 7 0 ∧ fix ≤ 2 then
    { s with clk := { s.clk with label := some ⟨field l 2 4, fix⟩ } }
  else { s with clk := { s.clk with labelErrors := inc16 s.clk.labelErrors } }

/-- R216: a label in progress is abandoned and counted; lone sync bytes are dropped. -/
def abandonLabel (s : State) : State :=
  let n := if 2 ≤ s.clk.rx.length then inc16 s.clk.labelErrors else s.clk.labelErrors
  { s with clk := { s.clk with rx := [], labelErrors := n } }

/-- The cycle at which 32 character times have passed since the last byte of the GNSS line (R216, R197). -/
def State.gnssGap (s : State) : Nat := s.clk.lastByte + 32 * 160 * s.clk.div

/-- R216: one byte on the GNSS line. The divisor in force is taken afresh while hunting, and by a sync byte that may be the
first of the next label (R197). -/
def gnssByte (b : Byte) (s : State) : State :=
  let s1 := { s with clk := { s.clk with lastByte := s.osc } }
  match s.clk.rx with
  | [] => { s1 with clk := { s1.clk with div := s.gnssDivisor, rx := if b = 0x9A then [b] else [] } }
  | [_] =>
    if b = 0x1E then { s1 with clk := { s1.clk with rx := s.clk.rx ++ [b] } }
    else { s1 with clk := { s1.clk with div := s.gnssDivisor, rx := if b = 0x9A then [b] else [] } }
  | l =>
    if l.length < 7 then { s1 with clk := { s1.clk with rx := l ++ [b] } }
    else takeLabel (l ++ [b]) { s1 with clk := { s1.clk with rx := [] } }

/-! ### Commands -/

/-- SECONDS_CORRECTION (R11): the same offset stands at three captures, this moment's with it. -/
def execSecondsCorrection (s : State) : Host.Outcome State Fault Refusal :=
  act (fun s =>
    match s.clk.offset with
    | none => s
    | some off =>
      if s.moment.capture && decide (s.clk.mismatch = 3) && (s.clk.disc == .acquire || s.clk.disc == .track) then
        secondsCorrection off s
      else s) s

/-- TRACK_ENTRY (R14): the lock count stands at 8 in ACQUIRE. -/
def execTrackEntry (s : State) : Host.Outcome State Fault Refusal :=
  act (fun s => if s.clk.disc == .acquire && decide (8 ≤ s.clk.lock) then enterTrack s else s) s

/-- TRACK_UNLOCK (R15): the unlock count stands at 4 in TRACK. -/
def execTrackUnlock (s : State) : Host.Outcome State Fault Refusal :=
  act (fun s => if s.clk.disc == .track && decide (4 ≤ s.clk.unlock) then unlockTrack s else s) s

/-- PPS_WATCH_EXPIRY (R16). -/
def execPpsWatchExpiry (s : State) : Host.Outcome State Fault Refusal :=
  act (fun s => if s.moment.boundary && s.watchExpired then reportClock (enterHoldover .ppsLoss s) else s) s

/-- GNSS_SESSION_START (R24): the rest time had reached its interval at this boundary's count. -/
def execGnssSessionStart (s : State) : Host.Outcome State Fault Refusal :=
  act (fun s => if s.moment.restDue && s.clk.supply == .resting then sessionStart s else s) s

/-- GNSS_SESSION_END (R24). -/
def execGnssSessionEnd (s : State) : Host.Outcome State Fault Refusal :=
  act (fun s => if s.moment.boundary && s.sessionOver then reportClock (supplyRest s) else s) s

/-- GNSS_LABEL (R4, R216): bytes on the GNSS line, taken while the supply is on. A label silent for 32 character times is abandoned
first, also where the last of those times ends on the very cycle of the bytes: DESIGN CHOICE, unsafe (log 41). -/
def execGnssLabel (dt : Nat) (bytes : List Byte) (s : State) : Host.Outcome State Fault Refusal :=
  act (fun s =>
    let s1 := elapse dt s
    if s1.clk.supply.on then
      let s2 := if s1.gnssGap ≤ s1.osc then abandonLabel s1 else s1
      bytes.foldl (fun s b => gnssByte b s) s2
    else s1) s

/-- GNSS_LABEL_TIMEOUT (R216): 32 character times without a byte. -/
def execGnssLabelTimeout (s : State) : Host.Outcome State Fault Refusal :=
  act (fun s => if s.clk.rx.isEmpty then s else atCycle s.gnssGap abandonLabel s) s

/-- GNSS_FRAMING_ERROR (R216). -/
def execGnssFramingError (dt : Nat) (s : State) : Host.Outcome State Fault Refusal :=
  act (fun s => abandonLabel (elapse dt s)) s

end Sys2Proof.Machine
end

