-- ==== Sys2Proof/Machine/Marks.lean ====
section
/-! DEFINITION. The Mark Capture Unit (2.1, 2.2): edges, width filter, holdoff, prescaler and the Mark List. -/
namespace Sys2Proof.Machine

/-- The state of one mark input. -/
def Capture.input (m : Capture) : Input → MarkInput
  | .pps => m.pps
  | .markA => m.markA
  | .markB => m.markB

/-- Put x at one mark input. -/
def setInput (i : Input) (x : MarkInput) (s : State) : State :=
  match i with
  | .pps => { s with mrk := { s.mrk with pps := x } }
  | .markA => { s with mrk := { s.mrk with markA := x } }
  | .markB => { s with mrk := { s.mrk with markB := x } }

/-- The level an input takes in its selected direction: high for rising. -/
def State.selectedLevel (s : State) : Input → Bool
  | .pps => !s.ppsEdge
  | .markA => !s.markAEdge
  | .markB => !s.markBEdge

/-- The minimum width of an input. -/
def State.minWidth (s : State) : Input → Nat
  | .pps => s.ppsMinWidth
  | .markA => s.markAMinWidth
  | .markB => s.markBMinWidth

/-- The prescale of an input; 0 disables a mark input (2.1). -/
def State.prescale (s : State) : Input → Nat
  | .pps => s.ppsPrescale
  | .markA => s.markAPrescale
  | .markB => s.markBPrescale

/-- R31: a Mark record enters the list, the oldest leaving a full one. -/
def Capture.enter (m : Capture) (x : Mark) : Capture :=
  if m.marks.length < 16 then { m with marks := m.marks ++ [x] }
  else { m with marks := m.marks.drop 1 ++ [x], overrun := inc16 m.overrun }

/-- R30: a MARK_A capture. -/
def markACapture (x : Stamp) (s : State) : State :=
  { s with mrk := { s.mrk.enter ⟨.markA, x, s.mrk.seqA⟩ with seqA := (s.mrk.seqA + 1) % 65536 } }

/-- R30: a MARK_B capture. -/
def markBCapture (x : Stamp) (s : State) : State :=
  { s with mrk := { s.mrk.enter ⟨.markB, x, s.mrk.seqB⟩ with seqB := (s.mrk.seqB + 1) % 65536 } }

/-- R30: a capture is handed on: a PPS capture to the clock, a mark to its list. -/
def handCapture (i : Input) (x : EdgeTest) (s : State) : State :=
  match i with
  | .pps => ppsCapture x.stamp.time x.ticks s
  | .markA => markACapture x.stamp s
  | .markB => markBCapture x.stamp s

/-- R29: an edge that has passed its filters goes through the prescaler. -/
def prescaleEdge (i : Input) (x : EdgeTest) (s : State) : State :=
  let m := s.mrk.input i
  if s.prescale i ≤ m.count + 1 then handCapture i x (setInput i { m with count := 0 } s)
  else setInput i { m with count := m.count + 1 } s

/-- R28: fewer than 5,000,000 cycles since the last PPS edge that passed, measured from edge to edge. -/
def Capture.heldOff (m : Capture) (cycle : Nat) : Bool :=
  match m.lastPass with
  | none => false
  | some p => decide (cycle < p + 5000000)

/-- R27, R28: the edge under test qualifies. -/
def qualify (i : Input) (x : EdgeTest) (s : State) : State :=
  let s1 := setInput i { s.mrk.input i with edge := none } s
  match i with
  | .pps =>
    if s1.mrk.heldOff x.cycle then { s1 with mrk := { s1.mrk with holdoffRej := inc16 s1.mrk.holdoffRej } }
    else prescaleEdge .pps x { s1 with mrk := { s1.mrk with lastPass := some x.cycle } }
  | _ => prescaleEdge i x s1

/-- R29: the prescale count is cleared and the edge under test abandoned. -/
def clearInput (i : Input) (s : State) : State :=
  setInput i { s.mrk.input i with count := 0, edge := none } s

/-- R27: an edge in the selected direction is seen now. -/
def seeEdge (i : Input) (s : State) : State :=
  let x : EdgeTest := ⟨s.stamp, s.osc, s.clk.ticks⟩
  let s1 := setInput i { s.mrk.input i with high := s.selectedLevel i } s
  if s.prescale i = 0 then s1
  else if s.minWidth i = 0 then qualify i x s1
  else setInput i { s1.mrk.input i with edge := some x } s1

/-- R27: the level returns: an edge whose width count is complete has qualified, any other is discarded. -/
def endLevel (i : Input) (s : State) : State :=
  let s1 := setInput i { s.mrk.input i with high := !s.selectedLevel i } s
  match s.mrk.input i with
  | ⟨_, none, _⟩ => s1
  | ⟨_, some x, _⟩ =>
    if x.cycle + s.minWidth i ≤ s.osc then qualify i x s1
    else
      let s2 := setInput i { s1.mrk.input i with edge := none } s1
      match i with
      | .pps => { s2 with mrk := { s2.mrk with widthRej := inc16 s2.mrk.widthRej } }
      | _ => s2

/-! ### Commands -/

/-- INPUT_EDGE (R27): the input changes in its selected direction. -/
def execInputEdge (dt : Nat) (i : Input) (s : State) : Host.Outcome State Fault Refusal :=
  act (fun s =>
    let s1 := elapse dt s
    if (s1.mrk.input i).high = s1.selectedLevel i then s1 else seeEdge i s1) s

/-- INPUT_LEVEL_RETURN (R27): the input changes in the other direction. -/
def execInputLevelReturn (dt : Nat) (i : Input) (s : State) : Host.Outcome State Fault Refusal :=
  act (fun s =>
    let s1 := elapse dt s
    if (s1.mrk.input i).high = s1.selectedLevel i then endLevel i s1 else s1) s

/-- EDGE_QUALIFIED (R27): the width count of the edge under test completes. -/
def execEdgeQualified (i : Input) (s : State) : Host.Outcome State Fault Refusal :=
  act (fun s =>
    match (s.mrk.input i).edge with
    | none => s
    | some x => atCycle (x.cycle + s.minWidth i) (qualify i x) s) s

end Sys2Proof.Machine
end

