-- ==== Sys2Proof/Machine/Events.lean ====
section
/-! DEFINITION. The Event Engine (chapter 5): gathering reports, the vote, the event states, the record in progress, the
Event List. -/
namespace Sys2Proof.Machine

/-! ### Closing (R94, R99, R100) -/

/-- R39: the event settle timer starts; with `cal_settle` 0 it has expired. A `cal_settle` written later leaves its end as
it is (log 32). -/
def startSettle (s : State) : State :=
  { s with sch := { s.sch with
      settleEnd := if s.calSettle = 0 then none else some (s.osc + s.calSettle * 10000000) } }

/-- R100: a closed record is filed, the oldest of 32 being lost. -/
def fileRecord (r : EvRecord) (s : State) : State :=
  let s1 := if s.evt.list.length < 32 then s
    else lostOccurrence { s with evt := { s.evt with list := s.evt.list.drop 1, lost := inc16 s.evt.lost } }
  eventWakeEval { s1 with evt := { s1.evt with list := s1.evt.list ++ [r] } }

/-- R99: the close is signalled, after the record is filed. -/
def signalClose (r : EvRecord) (s : State) : State :=
  chargeHoldEnd (heaterHoldEnd (startSettle (closeAlert r s)))

/-- R94: the record in progress closes at strobe `strobe` with the given flags, and the engine enters `after`. -/
def closeRecord (f : EvFlags → EvFlags) (strobe : Nat) (stamp : Stamp) (after : EvState) (s : State) : State :=
  match s.evt.record with
  | none => { s with evt := { s.evt with state := after, post := 0 } }
  | some r =>
    let closed : EvRecord := { r with
      state := .closed
      close := some ⟨stamp, strobe, dist r.openStrobe strobe / s.sch.rate⟩
      flags := f r.flags }
    signalClose closed (fileRecord closed
      { s with evt := { s.evt with state := after, record := none, post := 0 } })

/-- The strobe of the last vote, or the record's own open strobe where none has been taken. -/
def State.lastStrobe (s : State) : Nat :=
  match s.evt.lastVoted with
  | some k => k.strobe
  | none => (s.evt.record.map EvRecord.openStrobe).getD 0

/-- R94, R109, R111: a close between votes, by SHED or RESTART; an engine in REARM enters IDLE. -/
def closeBetweenVotes (f : EvFlags → EvFlags) (s : State) : State :=
  if s.eventActive then closeRecord f s.lastStrobe s.stamp .idle s
  else { s with evt := { s.evt with state := .idle } }

/-! ### The vote (R88 to R93, R95, R96) -/

/-- R88, R89: the counting mark of a channel after its report for strobe k; `span` is `coinc_window` × rate. -/
def countAfter (m : Option Counting) (r : Report) (span : Nat) : Option Counting :=
  if r.overridden || r.state.silent then none
  else if r.on then some ⟨r.strobe, span⟩
  else if r.state = .triggered then m
  else
    match m with
    | none => none
    | some c => if dist c.on r.strobe < c.span then some c else none

/-- The report of channel c among those of a strobe. -/
def reportOf (l : List Report) (c : Chan) : Option Report := l.find? fun r => r.chan == c

/-- R88: the marks after the reports of a strobe. -/
def countAll (span : Nat) (l : List Report) (m : Vector (Option Counting) 6) : Vector (Option Counting) 6 :=
  l.foldl (fun m r => m.set r.chan (countAfter m[r.chan] r span)) m

/-- R90: the vote sum. -/
def State.voteSum (s : State) : Nat :=
  (allChans.map fun c => if s.evt.counting[c].isSome then s.chn[c].det.weight else 0).sum

/-- R96: a channel's peaks after a report. -/
def Peak.take (p : Peak) (r : Report) : Peak where
  ratio := max p.ratio r.ratio
  absx := if r.gap then p.absx else max p.absx r.value.natAbs
  clipped := p.clipped || r.clip

/-- R96: the running peaks after the reports of a strobe. -/
def takePeaks (l : List Report) (p : Vector Peak 6) : Vector Peak 6 :=
  l.foldl (fun p r => p.set r.chan (p[r.chan].take r)) p

/-- R95: an on offset, from the open strobe to a first ON at or before it, or after it. -/
def onOffset (openStrobe first : Nat) : Int :=
  let d := dist openStrobe first
  clampI (-32768) 32767 (if d < Config.wrap48 / 2 then (d : Int) else (d : Int) - Config.wrap48)

/-- R95: entry a stands before entry b at strobe k: by first ON, then by channel. -/
def TrigEntry.before (k : Nat) (a b : TrigEntry) : Bool :=
  let x := dist a.firstOn k
  let y := dist b.firstOn k
  decide (y < x) || (decide (x = y) && decide (a.chan < b.chan))

/-- R95: the trigger list at the open vote. -/
def openList (k : Nat) (m : Vector (Option Counting) 6) (p : Vector Peak 6) : List TrigEntry :=
  (allChans.filterMap fun c => m[c].map fun x =>
    (⟨c, x.on, onOffset k x.on, 1, p[c]⟩ : TrigEntry)).foldr (insertBy (TrigEntry.before k)) []

/-- R95: one ON report touches the list. -/
def touchList (openStrobe : Nat) (l : List TrigEntry) (r : Report) : List TrigEntry :=
  if l.any fun e => e.chan == r.chan then
    l.map fun e => if e.chan = r.chan then { e with onCount := min (e.onCount + 1) 255 } else e
  else l ++ [⟨r.chan, r.strobe, onOffset openStrobe r.strobe, 1, {}⟩]

/-- R95: every ON report of a strobe, channel by channel. -/
def touchAll (openStrobe : Nat) (l : List TrigEntry) (rs : List Report) : List TrigEntry :=
  allChans.foldl (fun l c =>
    match reportOf rs c with
    | none => l
    | some r => if r.on && !r.overridden then touchList openStrobe l r else l) l

/-- R96: the entries show the running peaks. -/
def showPeaks (p : Vector Peak 6) (l : List TrigEntry) : List TrigEntry :=
  l.map fun e => { e with peak := p[e.chan] }

/-- R91: the next number after n, exhausted after the last. -/
def nextEvent (n : Nat) : Option Nat := if n < 4294967295 then some (n + 1) else none

/-- R91: an event opens at the vote of strobe k with number n. -/
def openEvent (n : Nat) (k : Note) (rs : List Report) (sum : Nat) (s : State) : State :=
  let peaks := takePeaks rs #v[{}, {}, {}, {}, {}, {}]
  let poor := k.stamp.grade = .C ∨ k.stamp.grade = .D ∨ k.stamp.grade = .U
  let r : EvRecord :=
    { number := n
      state := .opened
      openStamp := k.stamp
      openStrobe := k.strobe
      preStart := k.strobe - s.preEvent * s.sch.rate
      close := none
      peakS := sum
      list := openList k.strobe s.evt.counting peaks
      flags := { timePoor := decide poor, degraded := s.mon.degraded } }
  let s1 := { s with evt := { s.evt with state := .opened, number := nextEvent n, peaks := peaks, record := some r } }
  chargeHoldStart (heaterHoldStart (openAlert r s1))

/-- R95 to R97: the record in progress after the vote of a strobe. -/
def updateRecord (rs : List Report) (sum : Nat) (s : State) : State :=
  let peaks := takePeaks rs s.evt.peaks
  { s with evt := { s.evt with
      peaks := peaks
      record := s.evt.record.map fun r => { r with
        peakS := max r.peakS sum
        list := showPeaks peaks (touchAll r.openStrobe r.list rs)
        flags := { r.flags with degraded := r.flags.degraded || s.mon.degraded } } } }

/-- R93: the record in progress has reached `event_max` at strobe k. -/
def State.truncateDue (s : State) (k : Nat) : Bool :=
  match s.evt.record with
  | none => false
  | some r => decide (s.eventMax * s.sch.rate ≤ dist r.openStrobe k)

/-- The state of the engine and of the record in progress (R92). -/
def setEvState (x : EvState) (y : RecState) (post : Nat) (s : State) : State :=
  { s with evt := { s.evt with
      state := x, post := post, record := s.evt.record.map fun r => { r with state := y } } }

/-- R93: the record closes TRUNCATED. -/
def truncateEvent (k : Note) (s : State) : State :=
  closeRecord (fun f => { f with truncated := true }) k.strobe k.stamp .rearm s

/-- R92: the record closes by its post timer. -/
def expireEvent (k : Note) (s : State) : State := closeRecord id k.strobe k.stamp .idle s

/-- R92: the comparison of a vote in OPEN or CLOSING. -/
def compareVote (k : Note) (sum : Nat) (s : State) : State :=
  match s.evt.state with
  | .opened =>
    if sum < s.voteThreshold then setEvState .closing .closing (s.postEvent * s.sch.rate) s else s
  | .closing =>
    if sum < s.voteThreshold then
      let s1 := { s with evt := { s.evt with post := s.evt.post - 1 } }
      if s1.evt.post = 0 then expireEvent k s1 else s1
    else setEvState .opened .opened 0 s
  | _ => s

/-- R90 to R93: the event state moves at the vote of strobe k. -/
def moveEvent (k : Note) (rs : List Report) (sum : Nat) (s : State) : State :=
  match s.evt.state with
  | .idle =>
    match s.evt.number with
    | none => s
    | some n => if s.voteThreshold ≤ sum then openEvent n k rs sum s else s
  | .rearm => if sum < s.voteThreshold then { s with evt := { s.evt with state := .idle } } else s
  | _ =>
    let s1 := updateRecord rs sum s
    if s1.truncateDue k.strobe then truncateEvent k s1 else compareVote k sum s1

/-- R87: the vote of the strobe noted in k. -/
def vote (k : Note) (s : State) : State :=
  let rs := s.evt.reports.filter fun r => r.strobe == k.strobe
  let s1 := { s with
    evt := { s.evt with counting := countAll (s.coincWindow * s.sch.rate) rs s.evt.counting }
    moment := { s.moment with strobe := true } }
  let s2 := moveEvent k rs s1.voteSum s1
  { s2 with evt := { s2.evt with
      lastVoted := some k
      notes := s2.evt.notes.filter fun n => n.strobe != k.strobe
      reports := s2.evt.reports.filter fun r => r.strobe != k.strobe } }

/-- R87: the vote of the oldest noted strobe, once its six reports are held. -/
def tryVote (s : State) : State :=
  match s.evt.notes with
  | [] => s
  | k :: _ => if 6 ≤ (s.evt.reports.filter fun r => r.strobe == k.strobe).length then vote k s else s

/-- R87, R111: a channel report arrives; one for a strobe that is no longer noted is discarded. -/
def gatherReport (r : Report) (s : State) : State :=
  if s.evt.notes.any fun k => k.strobe == r.strobe then
    tryVote (tryVote { s with evt := { s.evt with reports := s.evt.reports ++ [r] } })
  else s

/-- R87: a strobe is noted as it is issued. -/
def noteStrobe (n : Nat) (s : State) : State :=
  { s with evt := { s.evt with notes := s.evt.notes ++ [⟨n, s.stamp⟩] } }

/-! ### Commands -/

/-- POST_TIMER_EXPIRY (R92): the post timer stands at 0 in CLOSING. -/
def execPostTimerExpiry (s : State) : Host.Outcome State Fault Refusal :=
  act (fun s =>
    match s.evt.lastVoted with
    | none => s
    | some k => if s.evt.state == .closing && decide (s.evt.post = 0) then expireEvent k s else s) s

/-- EVENT_TRUNCATE (R93): the duration stands at or above `event_max` at a vote. -/
def execEventTruncate (s : State) : Host.Outcome State Fault Refusal :=
  act (fun s =>
    match s.evt.lastVoted with
    | none => s
    | some k => if s.moment.strobe && s.eventActive && s.truncateDue k.strobe then truncateEvent k s else s) s

end Sys2Proof.Machine
end

