-- ==== Sys2Proof/Machine/Ports.lean ====
section
/-! DEFINITION. The Digitizer Ports, the Channel Map and the Sample Rings (chapter 3), and the Trigger Engine's work for a
slot that has been written (R61, R67). -/
namespace Sys2Proof.Machine

/-! ### Sample Rings (3.4) -/

/-- The value of the slot before strobe n: 0 in an empty ring (R59). -/
def Ring.previous (r : Ring) (n : Nat) : Int :=
  match r.newest with
  | none => 0
  | some _ => (r.slot (n + Config.wrap48 - 1)).value

/-- R59, R62: the ring with slot x written for strobe n. -/
def Ring.write (r : Ring) (n : Nat) (x : Slot) : Ring where
  slots := Sparse.put Slot.blank (n % 4096) x r.slots
  oldest := if 4095 < dist r.oldest n then (n + Config.wrap48 - 4095) % Config.wrap48 else r.oldest
  newest := some n

/-- R63: a ring cleared, the next strobe to be issued being n. -/
def Ring.clear (r : Ring) (n : Nat) : Ring := { r with oldest := n, newest := none }

/-- R63: clear the ring of channel c. -/
def clearRing (c : Chan) (s : State) : State :=
  { s with rings := s.rings.set c (s.rings[c].clear s.sch.next) }

/-- R67: the Trigger Engine takes slot k of channel c and reports; the channel's own comparison of this strobe is made (R75,
R77), which the moment notes (log 4). -/
def triggerStrobe (c : Chan) (k : Nat) (s : State) : State :=
  let x := s.rings[c].slot k
  let res := s.chn[c].strobe s.sch.rate x.value
  let s1 := setChan c { res.chan with last := some k }
    { s with moment := { s.moment with updated := s.moment.updated.set c true } }
  gatherReport ⟨c, k, res.chan.state, res.on, res.off, res.ratio, x.value, x.gap, x.clip, false⟩ s1

/-- R59 to R61: slot x is written for strobe k in the ring of channel c and signalled. -/
def writeSlot (c : Chan) (k : Nat) (x : Slot) (s : State) : State :=
  triggerStrobe c k { s with rings := s.rings.set c (s.rings[c].write k x) }

/-- R59: a gap for strobe k. -/
def writeGap (c : Chan) (k : Nat) (s : State) : State :=
  writeSlot c k ⟨s.rings[c].previous k, true, false⟩ s

/-! ### Frames (3.1, 11.4) -/

/-- What a good frame carries (R46). -/
structure Frame where
  seq : Byte
  alarm : Bool
  clips : Vector Bool 3
  samples : Vector Int 3
  deriving DecidableEq, Repr

/-- One sample of a frame, sign-extended from 24 bits. -/
def frameSample (l : List Byte) (i : Nat) : Int := signedOf 24 (field l (4 + 3 * i) 3)

/-- R46: a complete frame of 14 bytes is judged: good with what it carries, or the error. -/
def judgeFrame (l : List Byte) : PortOutcome × Option Frame :=
  if l.getD 0 0 ≠ 0xB3 ∨ l.getD 1 0 ≠ 0x4C then (.syncError, none)
  else if crc8 ((l.drop 2).take 11) ≠ l.getD 13 0 then (.crcError, none)
  else
    let st := l.getD 3 0
    let seq := l.getD 2 0
    (.good seq, some ⟨seq, st.getLsbD 7, #v[st.getLsbD 0, st.getLsbD 1, st.getLsbD 2],
      #v[frameSample l 0, frameSample l 1, frameSample l 2]⟩)

/-- R55: the frame position a source reads, with the order reversal of its port. -/
def positionOf (reversed : Bool) (src : Fin 6) : Fin 3 :=
  let i : Fin 3 := ⟨src.val % 3, Nat.mod_lt _ (by decide)⟩
  if reversed then ⟨2 - i.val, by omega⟩ else i

/-- R55: a channel's value from a sample, under its polarity. -/
def mapValue (inverted : Bool) (x : Int) : Int :=
  if inverted then (if x = -8388608 then 8388607 else -x) else x

/-- R55, R59: the slot a good frame gives a channel with map entry e. -/
def filledSlot (e : MapEntry) (src : Fin 6) (reversed : Bool) (f : Frame) : Slot :=
  let i := positionOf reversed src
  ⟨mapValue e.inverted f.samples[i], false, f.clips[i]⟩

/-! ### Supply and link (3.2) -/

/-- Put x at port p. -/
def setPort (p : PortId) (x : Port) (s : State) : State := { s with prt := s.prt.set p x }

/-- R54: the two condition statuses of port p, DOWN reported before ALARM (log 34). -/
def reportPort (p : PortId) (s : State) : State :=
  let x := s.prt[p]
  statusChange (if p = 0 then 5 else 6) (x.link == .up && x.alarm)
    (statusChange (if p = 0 then 3 else 4) (x.link == .down) s)

/-- R54: a changed link is reported to the monitor and signalled to the channels sourced from the port. -/
def linkChanged (p : PortId) (s : State) : State := refreshPort p (reportPort p s)

/-- R49: the supply of port p is to be on. -/
def State.supplyDue (s : State) (p : PortId) : Bool :=
  (if p = 0 then s.digEnable0 else s.digEnable1) && s.bat.power == .run
    && (p == 0 || s.bat.cls != .critical || !s.shedD1Critical)

/-- R50: entry to STARTING. -/
def startPort (p : PortId) (s : State) : State :=
  setPort p { s.prt[p] with
    link := .starting, window := none, transfer := none, startAt := s.osc, badRun := 0, goodRun := 0, last := none,
    alarm := false } s

/-- The channels sourced from port p take a gap for strobe k (R59, R60). -/
def writePortGaps (p : PortId) (k : Nat) (s : State) : State :=
  allChans.foldl (fun s c => if s.sourcePort c = some p then writeGap c k s else s) s

/-- R53: the link of port p enters OFF, and its window closes with no outcome. The two runs read 0 in OFF (log 33). -/
def stopLink (p : PortId) (s : State) : State :=
  linkChanged p (setPort p { s.prt[p] with
    link := .off, window := none, transfer := none, startAt := 0, badRun := 0, goodRun := 0, alarm := false } s)

/-- R53, R60: a port that has just left state `old` for OFF: the slots of the window it closed are gaps. -/
def closeStopped (p : PortId) (old : Port) (s : State) : State :=
  if old.link ≠ .off ∧ s.prt[p].link = .off then
    match old.window with
    | none => s
    | some k => writePortGaps p k s
  else s

/-- R49: the supply of port p is switched to what it is to be. -/
def switchSupply (p : PortId) (s : State) : State :=
  if s.supplyDue p then (if s.prt[p].link = .off then startPort p s else s)
  else if s.prt[p].link = .off then s
  else stopLink p s

/-- R49: port p evaluates its supply. Where it goes OFF with a window open, the link and its reports come before the gap of that
window's strobe is written and processed, which R53 and R60 leave open (log 9). -/
def evalSupply (p : PortId) (s : State) : State := closeStopped p s.prt[p] (switchSupply p s)

/-- R49: both ports evaluate their supplies at one moment: both links stand before any slot is written (R109); where both go OFF,
D0 and its reports come first, which R66 and R179 leave open (log 40). -/
def evalSupplies (s : State) : State :=
  closeStopped 1 s.prt[1] (closeStopped 0 s.prt[0] (switchSupply 1 (switchSupply 0 s)))

/-! ### Outcomes (R45 to R52) -/

/-- R47: a good frame's sequence does not follow the good frame of the strobe before. -/
def Port.skips (x : Port) (o : PortOutcome) : Bool :=
  match x.last, o with
  | some (.good a), .good b => b != a + 1
  | _, _ => false

/-- R48: the figures of a port after an outcome. -/
def PortFigures.take (f : PortFigures) (o : PortOutcome) (skip : Bool) : PortFigures :=
  match o with
  | .syncError => { f with sync := inc16 f.sync }
  | .crcError => { f with crc := inc16 f.crc }
  | .missing => { f with gaps := inc16 f.gaps }
  | .good _ => if skip then { f with skips := inc16 f.skips } else f

/-- R48: an outcome is reported to the accumulators by a port in UP or DOWN, and the error sum judged. -/
def reportOutcome (p : PortId) (o : PortOutcome) (s : State) : State :=
  let x := s.prt[p]
  if x.link = .up ∨ x.link = .down then
    let f := s.mon.figs.ports[p].take o (x.skips o)
    judgeErrors p { s with mon := { s.mon with figs := { s.mon.figs with ports := s.mon.figs.ports.set p f } } }
  else s

/-- R50, R52: the link enters UP with the alarm flag of a frame; the good run keeps its value in UP (log 33). -/
def Port.goUp (x : Port) (alarm : Bool) : Port := { x with link := .up, alarm := alarm, badRun := 0 }

/-- R51: the link enters DOWN from UP; the bad run keeps its value in DOWN (log 33). -/
def Port.goDown (x : Port) : Port :=
  { x with link := .down, alarm := false, goodRun := 0, downs := inc16 x.downs }

/-- R50 to R52: the port after an outcome, with the alarm flag of a good frame. -/
def Port.take (x : Port) (good alarm : Bool) : Port :=
  match x.link, good with
  | .off, _ => x
  | .starting, true => x.goUp alarm
  | .starting, false => x
  | .up, true => { x with badRun := 0, alarm := alarm }
  | .up, false =>
    let y := { x with badRun := min (x.badRun + 1) 8 }
    if 8 ≤ y.badRun then y.goDown else y
  | .down, true =>
    let y := { x with goodRun := min (x.goodRun + 1) 16 }
    if 16 ≤ y.goodRun then y.goUp alarm else y
  | .down, false => { x with goodRun := 0 }

/-- R59, R60: the slots of strobe k for the channels sourced from port p, from a good frame or as gaps. -/
def writePortSlots (p : PortId) (k : Nat) (f : Option Frame) (s : State) : State :=
  match f with
  | none => writePortGaps p k s
  | some f => allChans.foldl (fun s c =>
      match s.map.entries[c].source with
      | none => s
      | some src =>
        if portOf src = p then writeSlot c k (filledSlot s.map.entries[c] src s.map.reversed[p] f) s else s) s

/-- R45: the outcome of strobe k on port p is decided. -/
def decideOutcome (p : PortId) (k : Nat) (o : PortOutcome) (f : Option Frame) (s : State) : State :=
  let s1 := reportOutcome p o s
  let x := s1.prt[p].take f.isSome ((f.map Frame.alarm).getD false)
  writePortSlots p k f (linkChanged p (setPort p { x with last := some o, window := none, transfer := none } s1))

/-- R45: an open window of port p closes as missing. -/
def closeWindow (p : PortId) (s : State) : State :=
  match s.prt[p].window with
  | none => s
  | some k => decideOutcome p k .missing none s

/-- Both ports' open windows close as missing (R45, R60), that of D0 first (log 40). -/
def closeWindows (s : State) : State := closeWindow 1 (closeWindow 0 s)

/-- R45: port p opens its window for strobe k, unless it is OFF. -/
def openWindow (p : PortId) (k : Nat) (s : State) : State :=
  if s.prt[p].link = .off then s else setPort p { s.prt[p] with window := some k, transfer := none } s

/-- R60: channel c has no port that will decide strobe k: its source is none, or its port is OFF. -/
def State.unsourced (s : State) (c : Chan) : Bool :=
  match s.sourcePort c with
  | none => true
  | some p => s.prt[p].link == .off

/-- R60: the gaps written as strobe k is issued. -/
def writeUnsourced (k : Nat) (s : State) : State :=
  allChans.foldl (fun s c => if s.unsourced c then writeGap c k s else s) s

/-! ### The Channel Map (3.3) -/

/-- R55: the effective input of a channel: port and frame position. -/
def ChanMap.effective (m : ChanMap) (c : Chan) : Option (PortId × Fin 3) :=
  m.entries[c].source.map fun src => (portOf src, positionOf m.reversed[portOf src] src)

/-- R57: a channel is changed between two maps. -/
def ChanMap.changed (m n : ChanMap) (c : Chan) : Bool :=
  decide (m.effective c ≠ n.effective c) || decide (m.entries[c].inverted ≠ n.entries[c].inverted)

/-- R57, R80: what a newly applied map does to channel c, changed from map `m`. -/
def applyChange (m : ChanMap) (c : Chan) (s : State) : State :=
  if m.changed s.map c then restartChan c (clearRing c s) else s

/-- R57: the pending map is put in force. -/
def applyMap (s : State) : State :=
  match s.pendingMap with
  | none => s
  | some n =>
    let s1 := resuppress { s with map := n, pendingMap := none }
    allChans.foldl (fun t c => applyChange s.map c t) s1

/-! ### Commands -/

/-- DRDY_EDGE (R45): the first edge in an open window starts the clocking of a frame. -/
def execDrdyEdge (dt : Nat) (p : PortId) (s : State) : Host.Outcome State Fault Refusal :=
  act (fun s =>
    let s1 := elapse dt s
    let x := s1.prt[p]
    if x.window.isSome && x.transfer.isNone then setPort p { x with transfer := some s1.osc } s1 else s1) s

/-- Cycles the 112 bits of a frame take at 2.5 MHz (3.1). -/
def frameCycles : Nat := 448

/-- DIGITIZER_FRAME (R46): the last bit of a frame is taken, no sooner than 448 cycles after its DRDY edge. -/
def execDigitizerFrame (dt : Nat) (p : PortId) (bytes : List Byte) (s : State) : Host.Outcome State Fault Refusal :=
  act (fun s =>
    match s.prt[p].window, s.prt[p].transfer with
    | some k, some d =>
      let s1 := elapse (max dt (d + frameCycles - s.osc)) s
      if bytes.length = 14 ∧ d + frameCycles ≤ s1.osc then
        let j := judgeFrame bytes
        decideOutcome p k j.1 j.2 s1
      else s1
    | _, _ => elapse dt s) s

/-- R50: the start timer expires. -/
def startingExpired (p : PortId) (s : State) : State :=
  linkChanged p (setPort p { s.prt[p] with link := .down, goodRun := 0 } s)

/-- STARTING_TIMEOUT (R50): 50,000,000 cycles in STARTING with no good frame. -/
def execStartingTimeout (p : PortId) (s : State) : Host.Outcome State Fault Refusal :=
  act (fun s =>
    if s.prt[p].link = .starting then atCycle (s.prt[p].startAt + 50000000) (startingExpired p) s else s) s

/-- R50, R52: the link of port p is to enter UP. -/
def Port.upDue (x : Port) : Bool :=
  match x.link, x.last with
  | .down, _ => decide (16 ≤ x.goodRun)
  | .starting, some (.good _) => true
  | _, _ => false

/-- LINK_UP (R52, R50): sixteen good frames stand in DOWN, or a good frame in STARTING. -/
def execLinkUp (p : PortId) (alarm : Bool) (s : State) : Host.Outcome State Fault Refusal :=
  act (fun s => if s.prt[p].upDue then linkChanged p (setPort p (s.prt[p].goUp alarm) s) else s) s

/-- LINK_DOWN (R51): the bad run stands at 8 in UP. -/
def execLinkDown (p : PortId) (s : State) : Host.Outcome State Fault Refusal :=
  act (fun s =>
    if s.prt[p].link == .up && decide (8 ≤ s.prt[p].badRun) then linkChanged p (setPort p s.prt[p].goDown s) else s) s

end Sys2Proof.Machine
end

