-- ==== Sys2Proof/Machine/Scheduler.lean ====
section
/-! DEFINITION. The Output Scheduler (2.3, 2.4): the SAMPLE strobe, rate changes, the Calibration Schedule and the
suppression windows. -/
namespace Sys2Proof.Machine

/-! ### Strobes -/

/-- R34: the tick of the next strobe point: the point held, or where counting has passed it the first multiple of the
period from the present tick on (log 18). -/
def State.strobeTick (s : State) : Nat :=
  let p := periodOf s.sch.rate
  (max s.clk.t s.sch.point + p - 1) / p * p

/-- R34, R35: the strobe is numbered, SAMPLE goes high, a due break is recorded, the next point is a period on. -/
def numberStrobe (tick : Nat) (s : State) : State :=
  { s with sch := { s.sch with
      next := strobeAdd s.sch.next 1
      last := some s.sch.next
      point := tick + periodOf s.sch.rate
      sampleEnd := some (s.osc + 100)
      breakDue := false
      lastBreak := if s.sch.breakDue then some s.sch.next else s.sch.lastBreak
      breaks := if s.sch.breakDue then inc16 s.sch.breaks else s.sch.breaks } }

/-- R34, R45, R60, R87: a strobe is issued now: the old windows are decided, the strobe is numbered and noted, the new
windows open, and the slots that no port will decide are written. -/
def issueStrobe (tick : Nat) (s : State) : State :=
  let s1 := closeWindows s
  let n := s1.sch.next
  let s2 := noteStrobe n (numberStrobe tick s1)
  writeUnsourced n (openWindow 1 n (openWindow 0 n s2))

/-- STROBE (R34): counting reaches a multiple of the period. Without strobes yet, or with no point left in the present
second, nothing is issued. -/
def execStrobe (s : State) : Host.Outcome State Fault Refusal :=
  act (fun s =>
    let tick := s.strobeTick
    if s.sch.started && decide (tick < Config.ticks) then
      issueStrobe tick { elapse (s.clk.cyclesTo tick) s with moment := {} }
    else s) s

/-- SAMPLE_PULSE_END (R34): SAMPLE goes low 100 cycles after the strobe. -/
def execSamplePulseEnd (s : State) : Host.Outcome State Fault Refusal :=
  act (fun s =>
    match s.sch.sampleEnd with
    | none => s
    | some d => atCycle d (fun s => { s with sch := { s.sch with sampleEnd := none } }) s) s

/-! ### Rate changes (R36) -/

/-- R36: `sample_rate` written with no event open: the value becomes the pending rate, or none is pending where it
equals the rate in force. -/
def storeRate (rate : Nat) (s : State) : State :=
  { s with sch := { s.sch with pending := if rate = s.sch.rate then none else some rate } }

/-- R36, R63, R80: the pending rate is applied. -/
def applyRate (s : State) : State :=
  match s.sch.pending with
  | none => s
  | some r =>
    let s1 := { s with sch := { s.sch with rate := r, pending := none } }
    restartAll (allChans.foldl (fun s c => clearRing c s) s1)

/-- R36: a pending rate may be applied at this boundary. -/
def State.rateAllowed (s : State) : Bool := s.sch.pending.isSome && !s.eventActive && !s.calRunning

/-- R57: a pending map may be applied at this boundary. -/
def State.mapAllowed (s : State) : Bool := s.pendingMap.isSome && !s.eventActive

/-- R36, R45: a pending rate at a second boundary. Where it is applied the open windows close first; the event state and
the calibrations are read as they stand then (log 6), and where they forbid the change nothing happens. -/
def pendingRate (s : State) : State :=
  let s1 := closeWindows s
  if s1.rateAllowed then applyRate { s1 with moment := { s1.moment with rate := s1.sch.pending } } else s

/-- R57: a pending map at a second boundary, in the same way (log 6). -/
def pendingMapTest (s : State) : State :=
  let s1 := closeWindows s
  if s1.mapAllowed then applyMap { s1 with moment := { s1.moment with map := s1.pendingMap } } else s

/-- PENDING_RATE_APPLY (R36): the pending rate is the one that this boundary's test has let through. -/
def execPendingRateApply (s : State) : Host.Outcome State Fault Refusal :=
  act (fun s => if s.moment.rate = s.sch.pending then pendingRate s else s) s

/-- PENDING_MAP_APPLY (R57): the pending map is the one that this boundary's test has let through. -/
def execPendingMapApply (s : State) : Host.Outcome State Fault Refusal :=
  act (fun s => if s.moment.map = s.pendingMap then pendingMapTest s else s) s

/-! ### Calibration (2.4) -/

/-- An entry stands before another in the schedule: by start second, then by id. -/
def Cal.before (a b : Cal) : Bool := decide (a.start < b.start) || (decide (a.start = b.start) && decide (a.id < b.id))

/-- A finished outcome (2.4). -/
def CalOutcome.finished : CalOutcome → Bool
  | .done => true
  | .skipped => true
  | .cancelled => true
  | _ => false

/-- Change the entry with an id. -/
def editCal (id : Nat) (f : Cal → Cal) (s : State) : State :=
  { s with sch := { s.sch with cals := s.sch.cals.map fun c => if c.id = id then f c else c } }

/-- The running entry. -/
def State.runningCal (s : State) : Option Cal := s.sch.cals.find? fun c => c.outcome == .running

/-- R41: the window of port p closes `cal_settle` after now, and a `cal_settle` written later leaves that close as it is
(log 32); suppression follows a window that closes at once. -/
def endWindow (p : PortId) (s : State) : State :=
  let w : Window := if s.calSettle = 0 then .closed else .closing (s.osc + s.calSettle * 10000000)
  resuppress { s with sch := { s.sch with windows := s.sch.windows.set p w } }

/-- A CAL line driven low. -/
def lineLow (p : PortId) (s : State) : State :=
  { s with sch := { s.sch with lines := s.sch.lines.set p none } }

/-- A RUNNING entry leaves RUNNING: its line goes low, its window begins to close (R40 to R42, R44). -/
def leaveRunning (c : Cal) (o : CalOutcome) (s : State) : State :=
  endWindow c.sensor (lineLow c.sensor (editCal c.id (fun c => { c with outcome := o }) s))

/-- R40: CRITICAL class or SHED cuts a running calibration short. -/
def cutCal (s : State) : State :=
  match s.runningCal with
  | none => s
  | some c => leaveRunning c .skipped s

/-- R40: the pulse on the line of port p has run its width: the line goes low and the pulse is counted. -/
def endPulse (p : PortId) (s : State) : State :=
  match s.runningCal with
  | none => lineLow p s
  | some c =>
    if c.sensor = p then editCal c.id (fun c => { c with issued := min (c.issued + 1) 16 }) (lineLow p s) else lineLow p s

/-- R40: the moment a running entry ends: run start + (count − 1) × spacing + width. -/
def Cal.endTime (c : Cal) : Time :=
  Time.addTicks ⟨((c.runStart.getD 0) + (c.count - 1) * c.spacing) % Config.wrap32, 0⟩ (c.width * 10000 : Nat)

/-- R40: the run of entry c ends: a pulse that ends with it is counted, and the entry becomes DONE. -/
def endRun (c : Cal) (s : State) : State :=
  let s1 := if s.sch.lines[c.sensor].isSome then endPulse c.sensor s else s
  leaveRunning c .done s1

/-- R40: a pulse time of entry c: the pulse is withheld while an event is open, and begins otherwise. -/
def pulseTime (c : Cal) (s : State) : State :=
  if s.eventActive then editCal c.id (fun c => { c with withheld := min (c.withheld + 1) 16 }) s
  else
    { s with sch := { s.sch with
        lines := s.sch.lines.set c.sensor (some (s.now.addTicks (c.width * 10000 : Nat))) } }

/-- R40: a pulse of entry c falls at the present second: k × spacing after the run start, for k below the count. -/
def Cal.pulseDue (c : Cal) (now : Nat) : Bool :=
  let d := secsAhead now (c.runStart.getD now)
  decide (0 < d) && decide (d % c.spacing = 0) && decide (d / c.spacing < c.count)

/-- R39: entry c is examined at this boundary. -/
def Cal.examined (c : Cal) (now : Nat) : Bool :=
  (c.outcome == .waiting && decide (c.start ≤ now)) || c.outcome == .deferred

/-- R39: the event settle timer runs. -/
def State.settling (s : State) : Bool :=
  match s.sch.settleEnd with
  | none => false
  | some d => decide (s.osc < d)

/-- R39, R40, R41: entry c becomes RUNNING at this boundary: its window opens and pulse 0 begins. A close of the port's window
that falls on the very cycle of this boundary comes after the start, so the window stays open (log 23). -/
def startRun (c : Cal) (s : State) : State :=
  let s1 := editCal c.id (fun c => { c with outcome := .running, runStart := some s.clk.s }) s
  pulseTime c (resuppress { s1 with sch := { s1.sch with windows := s1.sch.windows.set c.sensor .running } })

/-- R39: the examination of entry c. -/
def examineCal (c : Cal) (s : State) : State :=
  if s.eventActive then
    flagRecord (fun f => { f with calDeferred := true }) (editCal c.id (fun c => { c with outcome := .deferred }) s)
  else if s.bat.cls = .critical ∨ s.bat.power = .shed ∨ s.prt[c.sensor].link ≠ .up then
    editCal c.id (fun c => { c with outcome := .skipped }) s
  else if s.calRunning || s.settling then editCal c.id (fun c => { c with outcome := .deferred }) s
  else startRun c s

/-- R39: every entry due at this boundary is examined in schedule order. -/
def examineCals (s : State) : State :=
  (s.sch.cals.filter fun c => c.examined s.clk.s).foldl (fun s c => examineCal c s) s

/-- Station time x has come, on the 32-bit wrap of the seconds. -/
def State.past (s : State) (x : Time) : Bool :=
  let d := secsAhead s.clk.s x.s
  decide (0 < d) || (decide (d = 0) && decide (x.t ≤ s.clk.t))

/-- A pulse on the line of port p has run its width by now. -/
def State.pulseOver (s : State) (p : PortId) : Bool :=
  match s.sch.lines[p] with
  | none => false
  | some x => s.past x

/-- R40: pulses and a run whose end falls at this boundary, or has passed. -/
def endDue (s : State) : State :=
  let s1 := allPorts.foldl (fun s p => if s.pulseOver p then endPulse p s else s) s
  match s1.runningCal with
  | none => s1
  | some c => if s1.past c.endTime then endRun c s1 else s1

/-- R40: the pulses of the entry already running. -/
def pulsesDue (s : State) : State :=
  match s.runningCal with
  | none => s
  | some c => if c.pulseDue s.clk.s then pulseTime c s else s

/-- The scheduler's calibration work at a second boundary (R39, R40). -/
def calBoundary (s : State) : State := examineCals (pulsesDue s)

/-- CAL_PULSE_END (R40): the pulse on the line of a sensor ends. -/
def execCalPulseEnd (p : PortId) (s : State) : Host.Outcome State Fault Refusal :=
  act (fun s =>
    match s.sch.lines[p] with
    | none => s
    | some x =>
      match reachTime x s with
      | none => s
      | some s1 => endPulse p s1) s

/-- CAL_RUN_END (R40): the run ends. -/
def execCalRunEnd (s : State) : Host.Outcome State Fault Refusal :=
  act (fun s =>
    match s.runningCal with
    | none => s
    | some c =>
      match reachTime c.endTime s with
      | none => s
      | some s1 => endRun c s1) s

/-- CAL_SETTLE_EXPIRY (R39): the event settle timer expires. -/
def execCalSettleExpiry (s : State) : Host.Outcome State Fault Refusal :=
  act (fun s =>
    match s.sch.settleEnd with
    | none => s
    | some d => atCycle d (fun s => { s with sch := { s.sch with settleEnd := none } }) s) s

/-- SUPPRESSION_WINDOW_CLOSE (R41): the window of a port closes. -/
def execSuppressionWindowClose (p : PortId) (s : State) : Host.Outcome State Fault Refusal :=
  act (fun s =>
    match s.sch.windows[p] with
    | .closing d =>
      atCycle d (fun s => resuppress { s with sch := { s.sch with windows := s.sch.windows.set p .closed } }) s
    | _ => s) s

end Sys2Proof.Machine
end

