-- ==== Sys2Proof/Machine/Modem.lean ====
section
/-! DEFINITION. The Modem Line Controller (6.5, 6.7, 11.3): link states, offers, failures and the modem line's receiver. -/
namespace Sys2Proof.Machine

/-! ### Codes of named values (11.1, 11.2, R214): numbered in the order their chapter first lists them -/

/-- 11.1. -/
def Grade.code : Grade → Byte
  | .U => 0 | .A => 1 | .B => 2 | .C => 3 | .D => 4

/-- 11.2. -/
def Disc.code : Disc → Byte
  | .unset => 0 | .acquire => 1 | .track => 2 | .holdover => 3

/-- 11.3. -/
def BatClass.code : BatClass → Byte
  | .normal => 0 | .low => 1 | .critical => 2

/-- 11.3. -/
def AlertKind.code : AlertKind → Byte
  | .eventOpen => 0 | .eventClose => 1 | .condition => 2 | .note => 3

/-- A station time in 8 bytes (11.1). -/
def Time.bytes (x : Time) : List Byte := beBytes 4 x.s ++ beBytes 4 x.t

/-- A stamp in 9 bytes (11.1). -/
def Stamp.bytes (x : Stamp) : List Byte := x.time.bytes ++ [x.grade.code]

/-- The flags of an event record in one byte (11.2). -/
def EvFlags.toByte (f : EvFlags) : Byte :=
  byte (setBits [f.truncated, f.aborted, f.shed, f.degraded, f.timePoor, f.stepDeferred, f.calDeferred, f.heatHeld])

/-- A trigger-list entry in 10 bytes (11.2). -/
def TrigEntry.bytes (e : TrigEntry) : List Byte :=
  [byte e.chan.val] ++ beInt 2 e.offset ++ beBytes 2 e.peak.ratio ++ beBytes 3 e.peak.absx
    ++ [flagByte e.peak.clipped, byte e.onCount]

/-- The content of an alert (11.3). -/
def Content.bytes : Content → List Byte
  | .eventOpen x sum l =>
    x.bytes ++ [byte sum, byte l.length] ++ l.flatMap fun e => [byte e.chan.val] ++ beInt 2 e.offset ++ beBytes 2 e.ratio
  | .eventClose x dur peak f l =>
    x.bytes ++ beBytes 2 dur ++ [byte peak, f.toByte, byte l.length] ++ l.flatMap TrigEntry.bytes
  | .condition id v n x => [byte id.val, flagByte v, byte n] ++ x.bytes
  | .note l => byte l.length :: l

/-- An alert record as an OFFER carries it (11.3). -/
def Alert.bytes (a : Alert) : List Byte :=
  [a.kind.code] ++ beBytes 4 a.origin ++ a.created.bytes ++ [byte a.attempts] ++ a.content.bytes

/-- The station header (6.5, 11.3). -/
def State.stationHeader (s : State) : List Byte :=
  [byte s.bus.addr] ++ s.now.bytes
    ++ [s.bat.cls.code, byte s.bat.soc, s.clk.disc.code, s.grade.code, flagByte s.mon.degraded]
    ++ beInt 1 s.box.credits

/-- A modem frame (R215); its length byte counts the body alone (log 12). -/
def modemFrame (kind : Byte) (body : List Byte) : List Byte :=
  let l := byte body.length :: kind :: body
  0xC5 :: l ++ crcBytes l

/-! ### Link states -/

/-- Entry to a link state with a time limit in cycles (6.5). -/
def enterLink (x : ModemLink) (limit : Nat) (s : State) : State :=
  { s with mdm := { s.mdm with link := x, since := s.osc, limit := limit } }

/-- The cycle at which the link timer reaches its limit. -/
def Modem.deadline (m : Modem) : Nat := m.since + m.limit

/-- R126: entry to READY. -/
def enterReady (s : State) : State := enterLink .ready (s.modemHold * 10000000) s

/-- The link enters OFF (6.5). -/
def enterOff (s : State) : State := enterLink .off 0 s

/-- R215, R133: the receiver hunts, with no frame in progress: at this frame boundary it takes the stored divisor. -/
def hunt (s : State) : State := { s with mdm := { s.mdm with rx := [], div := s.modemDivisor } }

/-- Modem power goes off: the link enters OFF and a partial frame is dropped (R215). -/
def modemOff (s : State) : State := hunt (enterOff s)

/-- R131: entry to BACKOFF; modem power goes off, and a partial frame is dropped (R215). -/
def enterBackoff (s : State) : State :=
  let s1 := hunt (enterLink .backoff (s.modemRetryBackoff * 10000000) s)
  { s1 with mdm := { s1.mdm with fails := 0 } }

/-- R132: MODEM_FAULT status set or cleared, and reported at a change. -/
def setModemFault (v : Bool) (s : State) : State :=
  statusChange 15 v { s with mdm := { s.mdm with fault := v } }

/-- R125: modem power goes on, and the receiver starts hunting (R215). -/
def startModem (s : State) : State := hunt (enterLink .starting (s.modemStartTimeout * 10000000) s)

/-- R125: the start has timed out. -/
def startTimedOut (s : State) : State :=
  enterBackoff (setModemFault true { s with mdm := { s.mdm with startTimeouts := inc16 s.mdm.startTimeouts } })

/-- R126: entry a is offered. The start of its frame is a frame boundary: the frame takes the stored divisor and keeps it to
its end, and so does the receiver where no frame is coming in (R133). -/
def sendOffer (a : Alert) (s : State) : State :=
  let tag := s.mdm.tag + 1
  let frame := modemFrame 0x01 ([tag] ++ s.stationHeader ++ a.bytes)
  let s1 := { s with
    box := { s.box with entries := s.box.entries.replace a { a with inFlight := true } }
    mdm := { s.mdm with
      tag := tag, tx := frame, txDiv := s.modemDivisor, div := if s.mdm.rx = [] then s.modemDivisor else s.mdm.div } }
  enterLink .offered 20000000 s1

/-- R129: a failure of the alert in flight. -/
def takeFailure (s : State) : State :=
  let n := ((s.inFlight.map Alert.attempts).getD 0) + 1
  let s1 := if 3 ≤ n then alertDropped s else returnInFlight n none s
  let s2 := { s1 with mdm := { s1.mdm with fails := s1.mdm.fails + 1 } }
  if 3 ≤ s2.mdm.fails then enterBackoff (setModemFault true s2) else enterReady s2

/-- R124: a good frame that is not accepted. -/
def unexpectedFrame (s : State) : State :=
  { s with mdm := { s.mdm with unexpected := inc16 s.mdm.unexpected } }

/-- R124: a bad frame. -/
def badFrame (s : State) : State := { s with mdm := { s.mdm with bad := inc16 s.mdm.bad } }

/-! ### The five messages -/

/-- READY (R124, R125, R130); in READY the link timer starts again with the limit it had. -/
def takeReady (s : State) : State :=
  match s.mdm.link with
  | .starting => enterReady s
  | .ready => enterLink .ready s.mdm.limit s
  | .offered => takeFailure s
  | .sending => takeFailure s
  | _ => unexpectedFrame s

/-- TAKE (R127). -/
def takeTake (tag : Byte) (s : State) : State :=
  if s.mdm.link = .offered ∧ tag = s.mdm.tag then
    enterLink .sending (s.sendTimeout * 10000000) { s with box := { s.box with credits := s.box.credits - 1 } }
  else unexpectedFrame s

/-- BUSY (R127); its not-before is the stamp of now + 10 s modulo 2^32 and is compared as a plain number (R123; log 31). -/
def takeBusy (tag : Byte) (s : State) : State :=
  if s.mdm.link = .offered ∧ tag = s.mdm.tag then
    enterReady (returnInFlight ((s.inFlight.map Alert.attempts).getD 0) (some (s.now.addTicks 100000000)) s)
  else unexpectedFrame s

/-- SENT (R128). -/
def takeSent (tag : Byte) (s : State) : State :=
  if s.mdm.link = .sending ∧ tag = s.mdm.tag then
    let s1 := alertSent s
    enterReady (setModemFault false { s1 with mdm := { s1.mdm with fails := 0 } })
  else unexpectedFrame s

/-- FAILED (R128). -/
def takeFailed (tag : Byte) (s : State) : State :=
  if s.mdm.link = .sending ∧ tag = s.mdm.tag then takeFailure s else unexpectedFrame s

/-! ### The receiver (R124, R215) -/

/-- R124: a whole frame is checked, and a good one matched against the link state. -/
def takeModemFrame (l : List Byte) (s : State) : State :=
  let body := (l.drop 1).take (l.length - 3)
  let kind := l.getD 2 0
  let tag := l.getD 3 0
  if crcBytes body ≠ l.drop (l.length - 2) then badFrame s
  else if kind = 0x81 ∧ body.length = 2 then takeReady s
  else if body.length ≠ 3 then badFrame s
  else if kind = 0x82 then takeTake tag s
  else if kind = 0x83 then takeBusy tag s
  else if kind = 0x84 then takeSent tag s
  else if kind = 0x85 then takeFailed tag s
  else badFrame s

/-- R215: the frame in progress ends at once as a bad frame; with none in progress nothing is counted. -/
def abandonModemFrame (s : State) : State :=
  if s.mdm.rx.isEmpty then s else badFrame (hunt s)

/-- The cycle at which 32 character times have passed since the last byte of the modem line (R215, R197). -/
def State.modemGap (s : State) : Nat := s.mdm.lastByte + 32 * 160 * s.mdm.div

/-- R215: one byte on the modem line. The divisor in force is taken afresh at a frame boundary (R133): while hunting, so at a
frame's first byte, and at a frame's end. The length byte counts the body alone, so a frame has five bytes more (log 12). -/
def modemByte (b : Byte) (s : State) : State :=
  let s1 := { s with mdm := { s.mdm with lastByte := s.osc } }
  match s.mdm.rx with
  | [] => { s1 with mdm := { s1.mdm with div := s.modemDivisor, rx := if b = 0xC5 then [b] else [] } }
  | l =>
    let l' := l ++ [b]
    let s2 := { s1 with mdm := { s1.mdm with rx := l' } }
    if l'.length = 2 ∧ 240 < b.toNat then abandonModemFrame s2
    else if 2 ≤ l'.length ∧ l'.length = (l'.getD 1 0).toNat + 5 then
      takeModemFrame l' (hunt s2)
    else s2

/-- R215: bytes come: a frame in progress that has been silent for 32 character times has ended as a bad frame, also where the
last of those times ends on the very cycle of the bytes: DESIGN CHOICE, unsafe (log 41). -/
def modemSilence (s : State) : State := if s.modemGap ≤ s.osc then abandonModemFrame s else s

/-- A whole good frame arrives after dt cycles: what the receiver still held before it is gone (log 15), and its end is a frame
boundary (R133). -/
def goodFrame (dt : Nat) (f : State → State) (s : State) : State :=
  let s1 := modemSilence (elapse dt s)
  f (hunt { s1 with mdm := { s1.mdm with lastByte := s1.osc } })

/-! ### Commands -/

/-- MODEM_START (R125): an entry is eligible in OFF. -/
def execModemStart (s : State) : Host.Outcome State Fault Refusal :=
  act (fun s => if s.mdm.link == .off && s.firstEligible.isSome then startModem s else s) s

/-- MODEM_START_TIMEOUT (R125). -/
def execModemStartTimeout (s : State) : Host.Outcome State Fault Refusal :=
  act (fun s => if s.mdm.link = .starting then atCycle s.mdm.deadline startTimedOut s else s) s

/-- MODEM_READY (R125, R130): a good READY frame. -/
def execModemReady (dt : Nat) (s : State) : Host.Outcome State Fault Refusal := act (goodFrame dt takeReady) s

/-- OFFER (R126): an entry is eligible in READY. -/
def execOffer (s : State) : Host.Outcome State Fault Refusal :=
  act (fun s =>
    match s.mdm.link, s.firstEligible with
    | .ready, some a => sendOffer a s
    | _, _ => s) s

/-- MODEM_HOLD_EXPIRY (R126): the hold expires with nothing eligible. -/
def execModemHoldExpiry (s : State) : Host.Outcome State Fault Refusal :=
  act (fun s =>
    if s.mdm.link = .ready then
      atCycle s.mdm.deadline (fun t => if t.firstEligible.isSome then t else modemOff t) s
    else s) s

/-- TAKE (R127). -/
def execTake (dt : Nat) (tag : Byte) (s : State) : Host.Outcome State Fault Refusal :=
  act (goodFrame dt (takeTake tag)) s

/-- MODEM_BUSY (R127). -/
def execModemBusy (dt : Nat) (tag : Byte) (s : State) : Host.Outcome State Fault Refusal :=
  act (goodFrame dt (takeBusy tag)) s

/-- OFFER_TIMEOUT (R127): no reply within 2 s. -/
def execOfferTimeout (s : State) : Host.Outcome State Fault Refusal :=
  act (fun s => if s.mdm.link = .offered then atCycle s.mdm.deadline takeFailure s else s) s

/-- SENT (R128). -/
def execSent (dt : Nat) (tag : Byte) (s : State) : Host.Outcome State Fault Refusal :=
  act (goodFrame dt (takeSent tag)) s

/-- FAILED (R128). -/
def execFailed (dt : Nat) (tag : Byte) (s : State) : Host.Outcome State Fault Refusal :=
  act (goodFrame dt (takeFailed tag)) s

/-- SEND_TIMEOUT (R128): no verdict within `send_timeout`. -/
def execSendTimeout (s : State) : Host.Outcome State Fault Refusal :=
  act (fun s => if s.mdm.link = .sending then atCycle s.mdm.deadline takeFailure s else s) s

/-- BACKOFF_EXPIRY (R131): modem power is off already. -/
def execBackoffExpiry (s : State) : Host.Outcome State Fault Refusal :=
  act (fun s => if s.mdm.link = .backoff then atCycle s.mdm.deadline enterOff s else s) s

/-- MODEM_BAD_FRAME (R124, R215): bytes on the modem line, judged frame by frame. -/
def execModemBadFrame (dt : Nat) (bytes : List Byte) (s : State) : Host.Outcome State Fault Refusal :=
  act (fun s => bytes.foldl (fun s b => modemByte b s) (modemSilence (elapse dt s))) s

/-- MODEM_FRAME_TIMEOUT (R215): 32 character times without a byte. -/
def execModemFrameTimeout (s : State) : Host.Outcome State Fault Refusal :=
  act (fun s => if s.mdm.rx.isEmpty then s else atCycle s.modemGap abandonModemFrame s) s

/-- MODEM_FRAMING_ERROR (R215). -/
def execModemFramingError (dt : Nat) (s : State) : Host.Outcome State Fault Refusal :=
  act (fun s => abandonModemFrame (elapse dt s)) s

/-! ### SHED and RESTART -/

/-- R134: SHED entry: modem off, the alert in flight returns; a partial frame is dropped where the power was on (R215). -/
def modemShed (s : State) : State :=
  let s1 := returnInFlight ((s.inFlight.map Alert.attempts).getD 0) none s
  if s.mdm.link.power then modemOff s1 else enterOff s1

/-- R135: RESTART: modem off, the outbox emptied, the credits clamped, the consecutive failures 0. -/
def outboxRestart (s : State) : State :=
  let s1 := modemOff s
  clampCredits { s1 with box := { s1.box with entries := [] }, mdm := { s1.mdm with fails := 0 } }

end Sys2Proof.Machine
end

