-- ==== Sys2Proof/Machine/Boundary.lean ====
section
/-! DEFINITION. What the class and the power state set off in the other blocks (R142 to R144), and the second boundary with
everything that works once per station second (R1, R138, R161, 95 SECOND_BOUNDARY). -/
namespace Sys2Proof.Machine

/-- R109: SHED entry closes the record in progress. -/
def shedEvents (s : State) : State := closeBetweenVotes (fun f => { f with shed := true }) s

/-- R143: SHED, already the power state, is handed to its readers (in the order of log 9). -/
def handShed (s : State) : State :=
  heaterFollow (modemShed (cutCal (evalSupplies (shedEvents (clockFollow s)))))

/-- R144: RUN, already the power state, is handed to its readers. -/
def handRun (s : State) : State := heaterFollow (evalSupplies (clockFollow s))

/-- R142: a change of class within one power state is handed to its readers. -/
def handClass (s : State) : State :=
  let s1 := evalSupplies (clockFollow s)
  if s1.bat.cls = .critical then cutCal s1 else s1

/-- R142 to R144: the class and the power state of a reading are handed over together, where they differ from those
before it. -/
def handOver (cls : BatClass) (power : PowerState) (s : State) : State :=
  let s1 := reportClass s
  if s1.bat.power ≠ power then (if s1.bat.power = .shed then handShed s1 else handRun s1)
  else if s1.bat.cls ≠ cls then handClass s1
  else s1

/-- R138: the work of Battery Care for one reading, in its order. -/
def batteryReading (s : State) : State :=
  handOver s.bat.cls s.bat.power (classStep (chargeReading (coulombStep s)))

/-- R136: the reading of a second boundary and everything it brings about (R161). -/
def powerReading (r : Reading) (s : State) : State := heaterReading (batteryReading (takeReading r s))

/-- R34: strobes run from the first boundary on, and their points begin again. -/
def beginSecond (s : State) : State :=
  { s with
    sch := { s.sch with started := true, point := 0 }
    moment := { s.moment with
      boundary := true, strobe := false, updated := #v[false, false, false, false, false, false] } }

/-- SECOND_BOUNDARY: the clock, the interval test, the not-befores, the reading, then the scheduler (log 6). -/
def secondBoundary (r : Reading) (s : State) : State :=
  beginSecond (calBoundary (pendingMapTest (pendingRate (endDue
    (powerReading r (passNotBefores (intervalTest (clockBoundary s))))))))

/-- SECOND_BOUNDARY (R1). -/
def execSecondBoundary (r : Reading) (s : State) : Host.Outcome State Fault Refusal := act (secondBoundary r) s

/-- SHED_ENTRY (R143): the cutoff run stands at 10 in RUN. -/
def execShedEntry (s : State) : Host.Outcome State Fault Refusal :=
  act (fun s =>
    if s.bat.power == .run && decide (10 ≤ s.bat.cutoff) then handShed { s with bat := s.bat.shed } else s) s

/-- SHED_EXIT (R144): the reconnect run stands at 60 in SHED. -/
def execShedExit (s : State) : Host.Outcome State Fault Refusal :=
  act (fun s =>
    if s.bat.power == .shed && decide (60 ≤ s.bat.reconnect) then handRun { s with bat := s.bat.resume } else s) s

end Sys2Proof.Machine
end

