-- ==== Sys2Proof/Machine/Replies.lean ====
section
/-! DEFINITION. What the replies of the station bus carry (11.2, R214; the choices R214 leaves are in log 12): the bodies
after the result code, as functions of the state. -/
namespace Sys2Proof.Machine

/-! ### Codes of named values (R214): numbered in the order their chapter first lists them -/

/-- 1: holdover reason. -/
def HoldReason.code : HoldReason → Byte
  | .ppsLoss => 0 | .gnssOff => 1 | .shed => 2 | .hostSet => 3

/-- 1: GNSS supply state. -/
def Supply.code : Supply → Byte
  | .continuous => 0 | .session => 1 | .resting => 2 | .shedOff => 3

/-- 2.4: calibration outcome. -/
def CalOutcome.code : CalOutcome → Byte
  | .waiting => 0 | .deferred => 1 | .running => 2 | .done => 3 | .skipped => 4 | .cancelled => 5

/-- 3: link state. -/
def Link.code : Link → Byte
  | .off => 0 | .starting => 1 | .up => 2 | .down => 3

/-- 4: trigger state. -/
def TrigState.code : TrigState → Byte
  | .off => 0 | .warmup => 1 | .quiet => 2 | .triggered => 3 | .suppressed => 4

/-- 5: event state. -/
def EvState.code : EvState → Byte
  | .idle => 0 | .opened => 1 | .closing => 2 | .rearm => 3

/-- 11.2: state of an event record. -/
def RecState.code : RecState → Byte
  | .opened => 0 | .closing => 1 | .closed => 2

/-- 6: modem link state. -/
def ModemLink.code : ModemLink → Byte
  | .off => 0 | .starting => 1 | .ready => 2 | .offered => 3 | .sending => 4 | .backoff => 5

/-- 7: power state. -/
def PowerState.code : PowerState → Byte
  | .run => 0 | .shed => 1

/-- 7: charge state. -/
def Charge.code : Charge → Byte
  | .idle => 0 | .coldHold => 1 | .hotHold => 2 | .bulk => 3 | .absorb => 4 | .float => 5 | .fault => 6

/-- 8: heater state. -/
def HeatState.code : HeatState → Byte
  | .regulate => 0 | .held => 1 | .shutdown => 2 | .off => 3

/-- 10: settings source. -/
def Source.code : Source → Byte
  | .stored => 0 | .defaults => 1

/-! ### Pieces -/

/-- An optional strobe number (11.1). -/
def optStrobe (x : Option Nat) : List Byte := optField 6 (x.map (beBytes 6))

/-- Generation of the image, 0 if none (R212, R209). -/
def Store.generation (st : Store) : Nat :=
  match st.image with
  | none => 0
  | some (_, x) => x.generation

/-- The statuses of the 18 conditions as one set (R214). -/
def State.statusBits (s : State) : Nat := setBits (s.mon.conds.toList.map Cond.status)

/-- The pending marks of the 18 conditions as one set (R214). -/
def State.pendingBits (s : State) : Nat := setBits (s.mon.conds.toList.map Cond.pending)

/-- The nine bus counters in the order of R199 and R200. -/
def BusCounters.bytes (c : BusCounters) : List Byte :=
  [c.framing, c.overruns, c.oversize, c.broken, c.crc, c.goodOwn, c.goodBcast, c.replies, c.busyOverrun].flatMap
    (beBytes 2)

/-- The most recent strobe number; before the first strobe a free value (log 13). -/
def State.recentStrobe (s : State) : List Byte :=
  match s.sch.last with
  | some n => beBytes 6 n
  | none => beBytes 6 (Config.noStrobeYet s.free).toNat

/-- One map entry in 4 bytes, in replies too as MAP_SET carries it (11.2): 0xFF for no source. DESIGN CHOICE, unsafe, for the
replies (log 12). -/
def MapEntry.bytes (e : MapEntry) : List Byte :=
  [match e.source with | none => 0xFF | some x => byte x.val, flagByte e.inverted, byte e.component.val, e.sensor]

/-- A whole map in 25 bytes, as MAP_SET carries it, one reversal byte at its end (11.2). DESIGN CHOICE, unsafe, for MAP_GET's reply
(log 12). -/
def ChanMap.bytes (m : ChanMap) : List Byte :=
  m.entries.toList.flatMap MapEntry.bytes ++ [byte (setBits m.reversed.toList)]

/-- The eight detector settings in the order of R83, 12 bytes: each in the fewest bytes of its range (R214), since 11.2 gives the
2-byte values for the request alone. DESIGN CHOICE, unsafe (log 12). -/
def Detector.bytes (d : Detector) : List Byte :=
  [byte d.staShift, byte d.ltaShift] ++ beBytes 2 d.onRatio ++ beBytes 2 d.offRatio ++ beBytes 2 d.floor
    ++ beBytes 2 d.trigMax ++ [byte d.weight, flagByte d.enable]

/-- A Mark record in 12 bytes (11.2). -/
def Mark.bytes (m : Mark) : List Byte :=
  [if m.input = .markB then 1 else 0] ++ m.stamp.bytes ++ beBytes 2 m.seq

/-- An event header in 25 bytes (11.2). -/
def EvRecord.header (r : EvRecord) : List Byte :=
  beBytes 4 r.number ++ [r.state.code] ++ r.openStamp.bytes ++ beBytes 6 r.openStrobe
    ++ (match r.close with | none => [0xFF, 0xFF] | some c => beBytes 2 c.duration)
    ++ [byte r.peakS, byte r.list.length, r.flags.toByte]

/-- An event record (11.2); the close fields are zero while absent. -/
def EvRecord.bytes (r : EvRecord) : List Byte :=
  beBytes 4 r.number ++ [r.state.code] ++ r.openStamp.bytes ++ beBytes 6 r.openStrobe ++ beBytes 6 r.preStart
    ++ optField 17 (r.close.map fun c => c.stamp.bytes ++ beBytes 6 c.strobe ++ beBytes 2 c.duration)
    ++ [byte r.peakS, r.flags.toByte, byte r.list.length] ++ r.list.flatMap TrigEntry.bytes

/-- The figures of an interval, without the readings covered (R190, R194); energy in whole joules. Minimum V_b and minimum T_p, for
which R190 gives a unit and no width, take two bytes each by the ranges of V_b and T_p: DESIGN CHOICE, unsafe (log 12). -/
def Figures.bytes (f : Figures) : List Byte :=
  (f.ports.toList.flatMap fun p => [p.sync, p.crc, p.skips, p.gaps].flatMap (beBytes 2))
    ++ beBytes 4 f.chargeIn ++ beBytes 4 f.chargeOut ++ optField 2 (f.minVb.map (beBytes 2))
    ++ optField 2 (f.minTp.map (beInt 2)) ++ beBytes 2 f.onSeconds ++ beBytes 4 (f.energy / 1000)
    ++ beBytes 2 f.sent ++ beBytes 2 f.dropped

/-- A calibration entry (R43). -/
def Cal.bytes (c : Cal) : List Byte :=
  [byte c.id, byte c.sensor.val] ++ beBytes 4 c.start ++ beBytes 2 c.width ++ [byte c.count] ++ beBytes 2 c.spacing
    ++ [c.outcome.code] ++ optField 4 (c.runStart.map (beBytes 4)) ++ [byte c.issued, byte c.withheld]

/-- What OUTBOX_GET gives of an alert beyond its state: condition status and change count, or the text length (11.2). -/
def Content.detail : Content → List Byte
  | .condition _ v n _ => [flagByte v, byte n]
  | .note l => [0, byte l.length]
  | _ => [0, 0]

/-- One entry of OUTBOX_GET, 28 bytes (11.2). -/
def Alert.outboxBytes (a : Alert) : List Byte :=
  [a.kind.code, byte a.rank] ++ beBytes 4 a.origin ++ a.created.bytes ++ [flagByte a.inFlight, byte a.attempts]
    ++ optField 8 (a.notBefore.map Time.bytes) ++ a.content.detail

/-! ### Snapshot replies -/

/-- STATUS (R212); the two rates are one byte each, and the holdover reason, which stands in HOLDOVER only, is an optional field
(log 12). -/
def State.statusBody (s : State) : List Byte :=
  [s.store.source.code, flagByte s.store.clamped] ++ beBytes 4 s.store.generation ++ beBytes 2 s.store.saves
    ++ beBytes 2 s.store.saveFails ++ beBytes 2 s.bus.restarts ++ s.bus.counts.bytes
    ++ s.now.bytes ++ [s.clk.disc.code] ++ optField 1 (s.clk.reason.map fun r => [r.code]) ++ [s.grade.code]
    ++ beBytes 4 s.clk.u ++ [flagByte s.clk.stepDeferred, s.clk.supply.code]
    ++ s.recentStrobe ++ [byte s.sch.rate] ++ optField 1 (s.sch.pending.map (beBytes 1)) ++ optStrobe s.sch.lastBreak
    ++ beBytes 2 s.sch.breaks ++ [byte s.sch.cals.length, flagByte s.calRunning]
    ++ [s.prt[0].link.code, s.prt[1].link.code]
    ++ [s.evt.state.code] ++ optField 4 (s.evt.record.map fun r => beBytes 4 r.number)
    ++ optStrobe (s.evt.lastVoted.map Note.strobe) ++ beBytes 4 (s.evt.number.getD 0) ++ [byte s.evt.list.length]
    ++ [byte s.bat.soc, s.bat.cls.code, s.bat.power.code, s.bat.charge.code, s.htr.state.code]
    ++ [byte s.box.entries.length] ++ beInt 1 s.box.credits ++ [s.mdm.link.code, flagByte s.mdm.fault]
    ++ beBytes 4 s.statusBits ++ beBytes 4 s.pendingBits
    ++ [flagByte s.mon.degraded, flagByte s.evt.wakeTerm, flagByte s.mon.wake]

/-- TIME_GET (R21). -/
def State.timeBody (s : State) : List Byte := s.stamp.bytes ++ [s.clk.disc.code] ++ beBytes 4 s.clk.u

/-- CLOCK_DETAIL (R21); r_loss and T_loss have two bytes each (log 12). -/
def State.clockBody (s : State) : List Byte :=
  let inSession := s.clk.supply == .session
  [s.clk.disc.code] ++ optField 1 (s.clk.reason.map fun r => [r.code])
    ++ beInt 2 s.clk.r ++ beInt 2 s.clk.c ++ beInt 1 s.clk.acc ++ beBytes 4 s.clk.u ++ [s.grade.code]
    ++ [byte s.clk.lock, byte s.clk.unlock, byte s.clk.mismatch] ++ beInt 4 (s.clk.offset.getD 0)
    ++ [flagByte s.clk.stepDeferred] ++ optField 5 (s.clk.label.map fun l => beBytes 4 l.secs ++ [byte l.fix])
    ++ beInt 2 s.clk.rLoss ++ beInt 2 s.clk.tLoss ++ [s.clk.supply.code]
    ++ optField 4 (if s.clk.supply = .resting then some (beBytes 4 s.clk.rest) else none)
    ++ optField 4 (if inSession then some (beBytes 4 s.clk.session) else none)
    ++ optField 4 (if inSession then some (beBytes 4 s.clk.hold) else none)
    ++ beBytes 2 s.clk.labelErrors ++ beBytes 2 s.clk.unfixed ++ beBytes 2 s.clk.steps

/-- The link state of a channel's source port; with no source a free value (log 13). -/
def State.sourceLink (s : State) (c : Chan) : Byte :=
  match s.sourcePort c with
  | some p => s.prt[p].link.code
  | none => Config.noSourceLink s.free

/-- DETECTOR_GET for channel c (R85). -/
def State.detectorBody (s : State) (c : Chan) : List Byte :=
  let ch := s.chn[c]
  ch.det.bytes ++ [ch.state.code] ++ beBytes 4 ch.sta ++ beBytes 4 ch.lta ++ beBytes 4 ch.effLta ++ beBytes 2 ch.ratio
    ++ beBytes 2 ch.warmup ++ [flagByte ch.warmed, flagByte ch.frozen, flagByte ch.released] ++ beBytes 3 ch.age
    ++ [flagByte ch.supp] ++ beInt 3 ch.prev ++ optStrobe ch.last ++ beBytes 2 ch.count
    ++ s.map.entries[c].bytes ++ [s.sourceLink c]

/-- The records EVENT_INDEX walks: the closed ones, then the one in progress (R102). -/
def State.records (s : State) : List EvRecord := s.evt.list ++ s.evt.record.toList

/-- EVENT_INDEX from number `first` (R102). -/
def State.indexBody (s : State) (first : Nat) : List Byte :=
  let l := s.records.filter fun r => decide (first ≤ r.number)
  let h := l.take 8
  [s.evt.state.code] ++ beBytes 4 (s.evt.number.getD 0) ++ [byte s.evt.list.length] ++ beBytes 4 s.evt.released
    ++ beBytes 2 s.evt.lost ++ [flagByte s.evt.wakeTerm, byte h.length, flagByte (decide (8 < l.length))]
    ++ h.flatMap EvRecord.header

/-- A strobe number lies in the valid range of a ring, from its oldest to its newest, on the 48-bit wrap (R62). -/
def Ring.holds (r : Ring) (first : Nat) : Bool :=
  match r.newest with
  | none => false
  | some n => decide (dist r.oldest first ≤ dist r.oldest n)

/-- R106: a first strobe older than the oldest valid number of a ring: a smaller 48-bit number, unless the ring holds it
across the wrap (log 38). -/
def Ring.older (r : Ring) (first : Nat) : Bool := decide (first < r.oldest) && !r.holds first

/-- How many of `count` slots from `first` on the ring holds (R106). -/
def Ring.held (r : Ring) (first count : Nat) : Nat :=
  match r.newest with
  | none => 0
  | some n => if r.holds first then min count (dist first n + 1) else 0

/-- SAMPLES_FETCH of channel c, result code first (R106, R107). -/
def State.samplesReply (s : State) (c : Chan) (first count : Nat) : List Byte :=
  let r := s.rings[c]
  let ends := beBytes 6 r.oldest ++ optStrobe r.newest
  if r.older first then 0x07 :: ends
  else
    let n := r.held first (min count 60)
    let l := (List.range n).map fun i => r.slot (strobeAdd first i)
    let bytes := (n + 7) / 8
    (if 60 < count then 0x01 else 0x00) :: byte c.val :: beBytes 6 first ++ [byte n] ++ ends
      ++ l.flatMap (fun x => beInt 3 x.value) ++ bitmap bytes (l.map Slot.gap) ++ bitmap bytes (l.map Slot.clip)

/-- One row of CONDITIONS_GET, 12 bytes (11.2). -/
def State.condBytes (s : State) (c : CondId) : List Byte :=
  let k := s.mon.conds[c]
  [byte (setBits [k.status, k.pending, s.pendingBlocked c, k.last.isSome])] ++ beBytes 2 k.changes
    ++ (match k.last with | none => List.replicate 9 0 | some x => x.bytes)

/-- CONDITIONS_GET (R188). -/
def State.conditionsBody (s : State) : List Byte :=
  allConds.flatMap s.condBytes ++ beBytes 4 s.wakeSet ++ beBytes 4 s.alertSet ++ beBytes 4 s.degradedSet
    ++ [flagByte s.mon.degraded, flagByte s.evt.wakeTerm, flagByte s.mon.wake]

/-- The last report of INTERVAL_GET (R194). -/
def IntervalReport.bytes (r : IntervalReport) : List Byte :=
  r.figures.bytes ++ beBytes 4 r.number ++ beBytes 4 r.start ++ beBytes 2 r.figures.readings ++ beInt 1 r.credits

/-- INTERVAL_GET (R194); the interval length has two bytes (log 12). -/
def State.intervalBody (s : State) : List Byte :=
  beBytes 2 s.intervalLen ++ beBytes 4 s.mon.number ++ beBytes 4 s.mon.start ++ s.mon.figs.bytes
    ++ beBytes 2 s.mon.figs.readings ++ optField 51 (s.mon.report.map IntervalReport.bytes)

/-- The Heater Controller's figures (R177); `heat_enable` has one byte, and the period start, absent before the first period, is
an optional field (log 12). -/
def State.heaterBytes (s : State) : List Byte :=
  let h := s.htr
  [h.state.code, flagByte s.heatEnable] ++ beInt 4 h.target ++ beInt 4 h.error ++ beBytes 2 h.limit
    ++ beBytes 2 h.request ++ beBytes 2 h.latched ++ optField 4 (h.period.map (beBytes 4)) ++ [flagByte h.heat]
    ++ [flagByte h.hold.isSome] ++ beBytes 2 (h.hold.getD 0) ++ [flagByte h.holdFlagged]
    ++ beBytes 5 h.today ++ beBytes 2 h.day ++ [flagByte h.spent, flagByte h.fault]
    ++ [flagByte (decide (s.tHeaterCutoff < s.pwr.tp)), flagByte (!s.pwr.tpValid), flagByte h.fault]
    ++ [byte h.clear] ++ beBytes 2 h.count

/-- POWER_GET (R156, R177). -/
def State.powerBody (s : State) : List Byte :=
  let p := s.pwr
  let b := s.bat
  beBytes 2 p.vb ++ beInt 2 p.ib ++ beBytes 2 p.vs ++ beInt 2 p.tp ++ [flagByte p.tpValid] ++ beInt 2 p.tv
    ++ [flagByte p.tvValid, flagByte p.solar] ++ beBytes 4 b.q ++ beBytes 4 s.full
    ++ [byte b.soc, b.cls.code, b.power.code, byte b.cutoff, byte b.reconnect, byte b.empty]
    ++ [b.charge.code, flagByte b.charge.enabled] ++ beBytes 2 b.limit ++ beBytes 2 b.duty ++ beBytes 2 b.absorb
    ++ [byte b.term, byte b.floatLow, byte b.overRun] ++ beBytes 2 b.clear ++ [byte b.restarts]
    ++ [flagByte b.hold.isSome] ++ beBytes 2 (b.hold.getD 0)
    ++ beBytes 2 b.fullSyncs ++ beBytes 2 b.emptySyncs ++ beBytes 2 b.faults ++ beBytes 2 b.sheds ++ s.heaterBytes

/-- OUTBOX_GET from position `first` (R120, 11.2). -/
def State.outboxBody (s : State) (first : Nat) : List Byte :=
  let l := s.box.entries.drop first
  let h := l.take 8
  beInt 1 s.box.credits ++ [byte s.creditCap, s.mdm.link.code, flagByte s.mdm.link.power, byte s.mdm.fails,
    flagByte s.mdm.fault] ++ [s.box.sent, s.box.drops, s.mdm.bad, s.mdm.unexpected, s.mdm.startTimeouts].flatMap (beBytes 2)
    ++ [byte s.box.entries.length, byte h.length, flagByte (decide (8 < l.length))] ++ h.flatMap Alert.outboxBytes

/-- MAP_GET (R58). -/
def State.mapBody (s : State) : List Byte :=
  s.map.bytes ++ optField 25 (s.pendingMap.map ChanMap.bytes)
    ++ s.prt.toList.flatMap fun p => [p.link.code, flagByte (p.link != .off), flagByte p.alarm, byte p.badRun,
      byte p.goodRun] ++ beBytes 2 p.downs

/-- EVENT_GET of an event number, result code first (R103). -/
def State.eventReply (s : State) (n : Nat) : List Byte :=
  match s.records.find? fun r => r.number == n with
  | none => [0x09]
  | some r => 0x00 :: r.bytes

/-- PENDING_CLEAR's reply body (R189). -/
def State.pendingBody (s : State) : List Byte :=
  beBytes 4 s.pendingBits ++ (s.mon.conds.toList.flatMap fun k => beBytes 2 k.changes) ++ [flagByte s.mon.wake]

/-- PARAM_GET's reply, result code first (R205). -/
def State.paramReply (s : State) (n : Nat) : List Byte :=
  match paramRow n with
  | none => [0x09]
  | some r => [0x00, byte n] ++ beInt 4 (s.param n) ++ beInt 4 r.dflt

/-- A channel number as a channel, where it names one. -/
def chanOf (n : Nat) : Option Chan := if h : n < 6 then some ⟨n, h⟩ else none

/-- R201: the whole reply of a request whose rule takes a snapshot at receipt, result code first. -/
def State.snapshot (s : State) (kind : Byte) (body : List Byte) : Option (List Byte) :=
  if kind = 0x01 then some (0x00 :: s.statusBody)
  else if kind = 0x02 then some (0x00 :: s.timeBody)
  else if kind = 0x04 then some (0x00 :: s.clockBody)
  else if kind = 0x21 then
    some (match chanOf (field body 0 1) with | none => [0x04] | some c => 0x00 :: s.detectorBody c)
  else if kind = 0x30 then some (0x00 :: s.indexBody (field body 0 4))
  else if kind = 0x33 then
    some (match chanOf (field body 0 1) with
      | none => [0x04]
      | some c => if field body 7 1 = 0 then [0x04] else s.samplesReply c (field body 1 6) (field body 7 1))
  else if kind = 0x50 then some (0x00 :: s.conditionsBody)
  else if kind = 0x52 then some (0x00 :: s.intervalBody)
  else if kind = 0x60 then some (0x00 :: s.powerBody)
  else if kind = 0x70 then some (0x00 :: s.outboxBody (field body 0 1))
  else none

end Sys2Proof.Machine
end

