-- ==== Sys2Proof/Machine/Bus.lean ====
section
/-! DEFINITION. The Station Bus Interface (10.1 to 10.3): characters, frames, the request in hand, and the reply on its
way out. -/
namespace Sys2Proof.Machine

/-! ### The catalogue (10.3, 11.2) -/

/-- The request types of the catalogue. -/
def catalogue : List Byte := [0x01, 0x02, 0x03, 0x04, 0x10, 0x11, 0x12, 0x20, 0x21, 0x22, 0x23, 0x30, 0x31, 0x32, 0x33,
  0x40, 0x41, 0x42, 0x43, 0x50, 0x51, 0x52, 0x60, 0x61, 0x70, 0x71, 0x7F]

/-- R201, 11.2: a body's length fits its type. -/
def lengthFits (kind : Byte) (body : List Byte) : Bool :=
  let n := body.length
  if kind = 0x03 then n == 12
  else if kind = 0x10 then n == 1
  else if kind = 0x11 then n == 5
  else if kind = 0x20 then decide (2 ≤ n) && n == 2 + 2 * popcount (body.getD 1 0)
  else if kind = 0x21 then n == 1
  else if kind = 0x22 then n == 25
  else if kind = 0x30 then n == 4
  else if kind = 0x31 then n == 4
  else if kind = 0x32 then n == 4
  else if kind = 0x33 then n == 8
  else if kind = 0x40 then n == 1
  else if kind = 0x41 then n == 10
  else if kind = 0x42 then n == 1
  else if kind = 0x51 then decide (1 ≤ n) && decide (field body 0 1 ≤ 18) && n == 1 + field body 0 1
  else if kind = 0x61 then n == 1
  else if kind = 0x70 then n == 1
  else if kind = 0x71 then decide (1 ≤ n) && decide (n ≤ 32)
  else n == 0

/-! ### Receiving (R197 to R200) -/

/-- Cycles of one character time on the bus: eleven bit times (R197). -/
def State.charCycles (s : State) : Nat := 176 * s.bus.div

/-- The cycle at which the gap timer reaches 32 (R198, R199). -/
def State.busGap (s : State) : Nat := s.bus.lastChar + 32 * s.charCycles

/-- Change the nine counters. -/
def countBus (f : BusCounters → BusCounters) (s : State) : State :=
  { s with bus := { s.bus with counts := f s.bus.counts } }

/-- The frame in progress is gone: RECEIVING goes back to IGNORING, HANDLING stays. -/
def dropFrame (s : State) : State :=
  { s with bus := { s.bus with
      frame := none
      recv := if s.bus.recv = .receiving then .ignoring else s.bus.recv } }

/-- R199: a frame abandoned as broken. -/
def breakFrame (s : State) : State := dropFrame (countBus (fun c => { c with broken := inc16 c.broken }) s)

/-- R200: the part is busy with a request, or has still to carry out an answered RESTART (log 16). -/
def State.busy (s : State) : Bool := s.bus.req.isSome || s.bus.restartDue

/-- R198: an address character judged as in IGNORING; while the part is busy a match starts a frame that will be discarded
(R200). -/
def judgeAddress (b : Byte) (s : State) : State :=
  if b.toNat = s.bus.addr ∨ b = 0xFF then
    { s with bus := { s.bus with
        frame := some { bcast := b == 0xFF, busy := s.busy }
        lastChar := s.osc
        recv := if s.bus.recv = .handling then .handling else .receiving } }
  else s

/-- A free value stands in the snapshot of this request (log 13). -/
def State.usesFree (s : State) (kind : Byte) (body : List Byte) : Bool :=
  (kind == 0x01 && s.sch.last.isNone)
    || (kind == 0x21 && (match chanOf (field body 0 1) with | none => false | some c => (s.sourcePort c).isNone))

/-- R155: the charger as OUTPUT_RESTART finds it: 0 NOT_FAULTED, 1 RESTARTED, 2 CAUSE_PRESENT. -/
def State.chargerFinding (s : State) : Byte := if s.bat.charge ≠ .fault then 0 else if s.bat.cause then 2 else 1

/-- R174: the heater as OUTPUT_RESTART finds it, in the same numbers. -/
def State.heaterFinding (s : State) : Byte := if s.htr.state ≠ .shutdown then 0 else if s.heatCause then 2 else 1

/-- R197, R207: a broadcast PARAM_SET of the address or the divisor is in force for the first character after it. -/
def Bus.takeBroadcast (b : Bus) (bcast : Bool) (kind : Byte) (body : List Byte) : Bus :=
  let x := signedOf 32 (field body 1 4)
  if bcast && kind == 0x11 && lengthFits kind body then
    if field body 0 1 = 120 then { b with addr := (clampI 1 254 x).toNat }
    else if field body 0 1 = 121 then { b with div := (clampI 1 255 x).toNat }
    else b
  else b

/-- R198, R201: a good frame becomes the request in hand, with what is read at receipt. -/
def acceptRequest (bcast : Bool) (kind : Byte) (body : List Byte) (s : State) : State :=
  let q : Request :=
    { bcast := bcast
      kind := kind
      body := body
      cycle := s.osc
      ticks := s.clk.ticks
      stamp := s.stamp
      eventActive := s.eventActive
      forbidden := s.stepForbidden
      snapshot := if lengthFits kind body then s.snapshot kind body else none
      chargerFound := s.chargerFinding
      heaterFound := s.heaterFinding }
  { s with
    bus := { s.bus.takeBroadcast bcast kind body with req := some q, recv := .handling }
    free := if s.usesFree kind body then s.free + 1 else s.free }

/-- R198 to R200: a frame is complete: its check is compared; a good one becomes the request in hand, or is discarded as
busy-overrun where it began in a busy period. The good-frame count goes up before a snapshot is taken (log 37). -/
def completeFrame (f : BusFrame) (kind : Byte) (s : State) : State :=
  let s1 := dropFrame s
  if crcBytes (byte (f.len.getD 0) :: kind :: f.body) ≠ f.crc then
    countBus (fun c => { c with crc := inc16 c.crc }) s1
  else if f.busy || s1.busy then countBus (fun c => { c with busyOverrun := inc16 c.busyOverrun }) s1
  else
    acceptRequest f.bcast kind f.body (countBus (fun c =>
      if f.bcast then { c with goodBcast := inc16 c.goodBcast } else { c with goodOwn := inc16 c.goodOwn }) s1)

/-- R198: a data character taken into the frame in progress. -/
def takeChar (f : BusFrame) (b : Byte) (s : State) : State :=
  let put (g : BusFrame) : State := { s with bus := { s.bus with frame := some g, lastChar := s.osc } }
  match f.len, f.kind with
  | none, _ =>
    if 240 < b.toNat then dropFrame (countBus (fun c => { c with oversize := inc16 c.oversize }) s)
    else put { f with len := some b.toNat }
  | some _, none => put { f with kind := some b }
  | some n, some k =>
    if f.body.length < n then put { f with body := f.body ++ [b] }
    else
      let g := { f with crc := f.crc ++ [b] }
      if g.crc.length < 2 then put g else completeFrame g k s

/-- R199: the gap timer has reached 32 before this character, so the frame was broken. Where it reaches 32 on the very cycle at
which the character completes, no rule orders the two, and the frame breaks first: DESIGN CHOICE, unsafe (log 41). -/
def checkGap (s : State) : State :=
  if s.bus.frame.isSome && decide (s.busGap ≤ s.osc) then breakFrame s else s

/-- R199: a character with a framing error: a frame in progress is abandoned and counted. With none in progress, in IGNORING, it
is neither counted nor, an address character, judged as an address. While a frame is being taken an address character with a
framing error meets two rows of the table: it counts under framing errors alone, and is not judged as an address. DESIGN CHOICE,
unsafe, both (log 17). -/
def framingChar (s : State) : State :=
  if s.bus.frame.isSome then dropFrame (countBus (fun c => { c with framing := inc16 c.framing }) s) else s

/-- R197, R199: a character lost to an overrun: a frame in progress is abandoned and counted. -/
def overrunChar (s : State) : State :=
  if s.bus.frame.isSome then dropFrame (countBus (fun c => { c with overruns := inc16 c.overruns }) s) else s

/-- An address character taken whole (10.2). -/
def addressChar (b : Byte) (s : State) : State :=
  judgeAddress b (if s.bus.frame.isSome then breakFrame s else s)

/-- A data character taken whole (10.2). -/
def dataChar (b : Byte) (s : State) : State :=
  match s.bus.frame with
  | none => s
  | some f => takeChar f b s

/-- R200, R213: the receiver is disabled: in REPLYING, and for a character that began before the reply had ended or the
load at power-on was complete. -/
def State.deaf (s : State) : Bool := s.bus.recv == .replying || decide (s.osc < s.bus.listenFrom + s.charCycles)

/-- One character on the bus (R197 to R200); one can be lost to an overrun at divisors 1 to 3 only. -/
def busChar (f : CharFault) (clean : State → State) (s : State) : State :=
  if s.deaf then s
  else
    let s1 := checkGap s
    match f with
    | .clean => clean s1
    | .framing => framingChar s1
    | .overrun => if s1.bus.div < 4 then overrunChar s1 else clean s1

/-! ### Replying (R200, R202, R203) -/

/-- The bus settings in force from the first character after the busy period (R197, R207, R211). -/
def takeLine (s : State) : State :=
  { s with bus := { s.bus with addr := s.stationAddress, div := s.busDivisor } }

/-- R203: a broadcast request has been carried out: nothing is sent and the part is no longer busy. A frame being taken is
taken to its end, to be discarded (R200, log 28). -/
def endBroadcast (s : State) : State :=
  takeLine { s with bus := { s.bus with
    req := none
    recv := if s.bus.frame.isSome then .receiving else .ignoring } }

/-- R202, R203: the request in hand has been handled: its reply, result code first, is ready to be sent. -/
def finish (reply : List Byte) (s : State) : State :=
  match s.bus.req with
  | none => s
  | some q => if q.bcast then endBroadcast s else { s with bus := { s.bus with reply := some reply } }

/-- R201: a request of one type is served from the request in hand: its length is checked, then its own rule answers
with the reply and the state. Without such a request in hand nothing is done. -/
def serve (kind : Byte) (f : Request → State → List Byte × State) (s : State) : State :=
  match s.bus.req, s.bus.recv, s.bus.reply with
  | some q, .handling, none =>
    if q.kind = kind then
      if lengthFits kind q.body then
        let r := f q s
        finish r.1 r.2
      else finish [0x03] s
    else s
  | _, _, _ => s

/-- A request that answers with the snapshot taken at receipt (R201). -/
def serveSnapshot (kind : Byte) (s : State) : State := serve kind (fun q s => (q.snapshot.getD [], s)) s

/-- The characters of a reply: address 0, length, type with 0x80 added modulo 256 (log 12), result code and body, CRC-16
(R202). -/
def replyFrame (kind : Byte) (reply : List Byte) : List Byte :=
  let l := byte reply.length :: (kind + 0x80) :: reply
  0x00 :: l ++ crcBytes l

/-- R202: the reply begins: a frame still being taken is broken, the driver is on. -/
def startReply (kind : Byte) (reply : List Byte) (s : State) : State :=
  let s1 := if s.bus.frame.isSome then breakFrame s else s
  { s1 with bus := { s1.bus with
      recv := .replying, reply := none, tx := replyFrame kind reply, txAt := s.osc, de := true } }

/-- R43: the finished entries that a CAL_LIST reply carried leave the schedule. -/
def removeReported (ids : List Nat) (s : State) : State :=
  { s with sch := { s.sch with cals := s.sch.cals.filter fun c => !ids.contains c.id } }

/-- R202: the reply has ended. A RESTART so answered is now to be carried out (R211), and keeps the part busy. -/
def endReply (s : State) : State :=
  match s.bus.req with
  | none => s
  | some q =>
    let s1 := countBus (fun c => { c with replies := inc16 c.replies }) (removeReported q.reported s)
    let due := q.kind == 0x7F && q.body.isEmpty
    let s2 := { s1 with bus := { s1.bus with
      recv := .ignoring, req := none, tx := [], de := false, listenFrom := s1.osc, restartDue := due } }
    if due then s2 else takeLine s2

/-! ### Commands -/

/-- BUS_ADDRESS_CHARACTER (R198). -/
def execBusAddressCharacter (dt : Nat) (b : Byte) (f : CharFault) (s : State) : Host.Outcome State Fault Refusal :=
  act (fun s => busChar f (addressChar b) (elapse dt s)) s

/-- BUS_DATA_CHARACTER (R198). -/
def execBusDataCharacter (dt : Nat) (b : Byte) (f : CharFault) (s : State) : Host.Outcome State Fault Refusal :=
  act (fun s => busChar f (dataChar b) (elapse dt s)) s

/-- BUS_GAP_TIMEOUT (R199): 32 character times without a character in a frame. -/
def execBusGapTimeout (s : State) : Host.Outcome State Fault Refusal :=
  act (fun s => if s.bus.frame.isSome then atCycle s.busGap breakFrame s else s) s

/-- REPLY_START (R202): no sooner than two character times after receipt. -/
def execReplyStart (dt : Nat) (s : State) : Host.Outcome State Fault Refusal :=
  act (fun s =>
    match s.bus.req, s.bus.recv, s.bus.reply with
    | some q, .handling, some r =>
      let soonest := q.cycle + 2 * s.charCycles
      let s1 := elapse (max dt (soonest - s.osc)) s
      if soonest ≤ s1.osc then startReply q.kind r s1 else s1
    | _, _, _ => s) s

/-- REPLY_END (R202): the last stop bit, one character time for each character after the start. -/
def execReplyEnd (s : State) : Host.Outcome State Fault Refusal :=
  act (fun s =>
    if s.bus.recv = .replying then atCycle (s.bus.txAt + s.bus.tx.length * s.charCycles) endReply s else s) s

/-- UNKNOWN_TYPE (R201): the type of the request in hand is not in the catalogue. -/
def execUnknownType (s : State) : Host.Outcome State Fault Refusal :=
  act (fun s =>
    match s.bus.req, s.bus.recv, s.bus.reply with
    | some q, .handling, none => if catalogue.contains q.kind then s else finish [0x02] s
    | _, _, _ => s) s

end Sys2Proof.Machine
end

