-- ==== Sys2Proof/Machine/Requests.lean ====
section
/-! DEFINITION. The requests of the station bus (10.3 and the chapter of the block each serves), carried out from the
request in hand. A reply is the result code and the body. -/
namespace Sys2Proof.Machine

/-! ### Snapshots (R201) -/

/-- STATUS (R212). -/
def execStatus (s : State) : Host.Outcome State Fault Refusal := act (serveSnapshot 0x01) s

/-- TIME_GET (R21). -/
def execTimeGet (s : State) : Host.Outcome State Fault Refusal := act (serveSnapshot 0x02) s

/-- CLOCK_DETAIL (R21). -/
def execClockDetail (s : State) : Host.Outcome State Fault Refusal := act (serveSnapshot 0x04) s

/-- DETECTOR_GET (R85). -/
def execDetectorGet (s : State) : Host.Outcome State Fault Refusal := act (serveSnapshot 0x21) s

/-- EVENT_INDEX (R102). -/
def execEventIndex (s : State) : Host.Outcome State Fault Refusal := act (serveSnapshot 0x30) s

/-- SAMPLES_FETCH (R106, R107). -/
def execSamplesFetch (s : State) : Host.Outcome State Fault Refusal := act (serveSnapshot 0x33) s

/-- CONDITIONS_GET (R188). -/
def execConditionsGet (s : State) : Host.Outcome State Fault Refusal := act (serveSnapshot 0x50) s

/-- INTERVAL_GET (R194). -/
def execIntervalGet (s : State) : Host.Outcome State Fault Refusal := act (serveSnapshot 0x52) s

/-- POWER_GET (R156, R177). -/
def execPowerGet (s : State) : Host.Outcome State Fault Refusal := act (serveSnapshot 0x60) s

/-- OUTBOX_GET (R120). -/
def execOutboxGet (s : State) : Host.Outcome State Fault Refusal := act (serveSnapshot 0x70) s

/-! ### Reads answered from the state as it stands -/

/-- PARAM_GET (R205). -/
def execParamGet (s : State) : Host.Outcome State Fault Refusal :=
  act (serve 0x10 fun q s => (s.paramReply (field q.body 0 1), s)) s

/-- MAP_GET (R58). -/
def execMapGet (s : State) : Host.Outcome State Fault Refusal := act (serve 0x23 fun _ s => (0x00 :: s.mapBody, s)) s

/-- EVENT_GET (R103). -/
def execEventGet (s : State) : Host.Outcome State Fault Refusal :=
  act (serve 0x31 fun q s => (s.eventReply (field q.body 0 4), s)) s

/-! ### TIME_SET (R20) -/

/-- R20: the checks in their order, then the setting. The state is that of the handling, the ban on stepping that of the
receipt (log 11). -/
def serveTimeSet (q : Request) (s : State) : List Byte × State :=
  let x : Time := ⟨field q.body 0 4, field q.body 4 4⟩
  let micros := field q.body 8 4
  if 9999999 < x.t then ([0x04], s)
  else if s.clk.disc = .acquire ∨ s.clk.disc = .track then ([0x05], s)
  else if q.forbidden then ([0x06], s)
  else ([if 4294967295 < micros * 1000 then 0x01 else 0x00], setTime x micros q.ticks s)

/-- TIME_SET (R20). -/
def execTimeSet (s : State) : Host.Outcome State Fault Refusal := act (serve 0x03 serveTimeSet) s

/-! ### PARAM_SET (R206) -/

/-- R193: `interval_len` stored with a new value: the recorded number is recomputed. -/
def newInterval (old : Nat) (s : State) : State :=
  if s.intervalLen = old then s else { s with mon := { s.mon with number := s.intervalNumber } }

/-- R206 step 4: what the owner of parameter n does at once with a stored value; `old` is the state before the store.
Every parameter not named here acts at its next use. -/
def paramAction (n : Nat) (old s : State) : State :=
  if n = 8 then reportClock s
  else if n = 20 ∨ n = 21 ∨ n = 22 then clearInput .pps s
  else if n = 23 ∨ n = 24 ∨ n = 25 then clearInput .markA s
  else if n = 26 ∨ n = 27 ∨ n = 28 then clearInput .markB s
  else if n = 30 then storeRate s.sampleRate s
  else if n = 40 then evalSupply 0 s
  else if n = 41 ∨ n = 42 then evalSupply 1 s
  else if n = 43 then judgeErrors 0 s
  else if n = 44 then judgeErrors 1 s
  else if n = 55 then eventWakeEval s
  else if n = 62 then clampCredits s
  else if n = 70 then clampCharge s
  else if n = 83 ∨ n = 84 then chargeTempTest s
  else if n = 90 then heaterFollow s
  else if n = 95 ∨ n = 96 then relimit s
  else if n = 98 then relimit (judgeBudget s)
  else if n = 110 then wakeEval s
  else if n = 112 then degradedEval s
  else if n = 113 then newInterval old.intervalLen s
  else s

/-- R206: parameter n written with value x by a request received with an event active or not. What the moment's tests have
compared, they have compared with the value before it (log 4). -/
def writeParam (n : Nat) (x : Int) (eventActive : Bool) (s : State) : List Byte × State :=
  match paramRow n with
  | none => ([0x09], s)
  | some r =>
    if n = 30 ∧ eventActive = true then ([0x06], s)
    else
      let y := r.fit.fit x
      ((if y = x then 0x00 else 0x01) :: byte n :: beInt 4 y, paramAction n s (setParam n y { s with moment := {} }))

/-- PARAM_SET (R206). -/
def execParamSet (s : State) : Host.Outcome State Fault Refusal :=
  act (serve 0x11 fun q s =>
    writeParam (field q.body 0 1) (signedOf 32 (field q.body 1 4)) q.eventActive s) s

/-! ### DETECTOR_SET (R82 to R84) -/

/-- R82: the value a DETECTOR_SET body carries for setting i (in the order of R83), if it is present. -/
def carried (body : List Byte) (i : Nat) : Option Nat :=
  let mask := (body.getD 1 0).toNat
  if mask.testBit i then
    some (field body (2 + 2 * ((List.range i).filter fun j => mask.testBit j).length) 2)
  else none

/-- R82: the settings of a channel with the carried values in place of its own, before fitting. -/
def Detector.withCarried (d : Detector) (body : List Byte) : Detector where
  staShift := (carried body 0).getD d.staShift
  ltaShift := (carried body 1).getD d.ltaShift
  onRatio := (carried body 2).getD d.onRatio
  offRatio := (carried body 3).getD d.offRatio
  floor := (carried body 4).getD d.floor
  trigMax := (carried body 5).getD d.trigMax
  weight := (carried body 6).getD d.weight
  enable := match carried body 7 with | none => d.enable | some v => v == 1

/-- R82 to R84: one channel takes its settings; `trig_enable` acts at once. -/
def storeDetector (body : List Byte) (c : Chan) (s : State) : State :=
  let ch := s.chn[c]
  refreshChan c (setChan c { ch with det := (ch.det.withCarried body).fit } s)

/-- R82: the channels a DETECTOR_SET names. -/
def namedChans (body : List Byte) : List Chan := allChans.filter fun c => (body.getD 0 0).toNat.testBit c.val

/-- R82: the reply's list: a count, then the eight settings of each channel. -/
def detectorList (l : List Chan) (s : State) : List Byte :=
  byte l.length :: l.flatMap fun c => s.chn[c].det.bytes

/-- R82: the checks in their order, then the channels one at a time. -/
def serveDetectorSet (q : Request) (s : State) : List Byte × State :=
  let l := namedChans q.body
  if l.isEmpty || decide (64 ≤ (q.body.getD 0 0).toNat) then ([0x04], s)
  else if 1 < (carried q.body 7).getD 0 then ([0x04], s)
  else if q.body.getD 1 0 = 0 then (0x00 :: detectorList l s, s)
  else
    let fits := l.all fun c => (s.chn[c].det.withCarried q.body).fit = s.chn[c].det.withCarried q.body
    let s1 := l.foldl (fun s c => storeDetector q.body c s) { s with moment := {} }
    ((if fits then 0x00 else 0x01) :: detectorList l s1, s1)

/-- DETECTOR_SET (R82). -/
def execDetectorSet (s : State) : Host.Outcome State Fault Refusal := act (serve 0x20 serveDetectorSet) s

/-! ### MAP_SET (R56) -/

/-- R56: one entry of a carried map, where its codes lie in their sets. -/
def parseEntry (body : List Byte) (c : Chan) : Option MapEntry :=
  let i := 4 * c.val
  let src := field body i 1
  let pol := field body (i + 1) 1
  let comp := field body (i + 2) 1
  if h : comp < 3 then
    if 1 < pol then none
    else if src = 255 then some ⟨none, pol == 1, ⟨comp, h⟩, body.getD (i + 3) 0⟩
    else if h' : src < 6 then some ⟨some ⟨src, h'⟩, pol == 1, ⟨comp, h⟩, body.getD (i + 3) 0⟩
    else none
  else none

/-- R56: a carried map, absent where a code lies outside its set. -/
def parseMap (body : List Byte) : Option ChanMap :=
  let rev := body.getD 24 0
  match parseEntry body 0, parseEntry body 1, parseEntry body 2, parseEntry body 3, parseEntry body 4, parseEntry body 5 with
  | some a, some b, some c, some d, some e, some f =>
    if rev.toNat < 4 then some ⟨#v[a, b, c, d, e, f], #v[rev.getLsbD 0, rev.getLsbD 1]⟩ else none
  | _, _, _, _, _, _ => none

/-- R56: the checks in their order, then the pending map. -/
def serveMapSet (q : Request) (s : State) : List Byte × State :=
  match parseMap q.body with
  | none => ([0x04], s)
  | some m =>
    if q.eventActive then ([0x06], s)
    else ([0x00], { s with pendingMap := if m = s.map then none else some m })

/-- MAP_SET (R56). -/
def execMapSet (s : State) : Host.Outcome State Fault Refusal := act (serve 0x22 serveMapSet) s

/-! ### Events, marks -/

/-- R104. -/
def serveEventRelease (q : Request) (s : State) : List Byte × State :=
  let n := field q.body 0 4
  if s.evt.list.any fun r => r.number == n then
    ([0x00], eventWakeEval { s with evt := { s.evt with
      list := s.evt.list.filter fun r => r.number != n
      released := (s.evt.released + 1) % Config.wrap32 } })
  else if (s.evt.record.map EvRecord.number) = some n then ([0x05], s)
  else ([0x09], s)

/-- EVENT_RELEASE (R104). -/
def execEventRelease (s : State) : Host.Outcome State Fault Refusal := act (serve 0x32 serveEventRelease) s

/-- R32. -/
def serveMarksTake (q : Request) (s : State) : List Byte × State :=
  let n := field q.body 0 1
  let l := s.mrk.marks.take (min n 8)
  let s1 := { s with mrk := { s.mrk with marks := s.mrk.marks.drop (min n 8) } }
  ([if 8 < n then 0x01 else 0x00, byte l.length, byte s1.mrk.marks.length]
    ++ [s.mrk.overrun, s.mrk.widthRej, s.mrk.holdoffRej, s.mrk.windowRej].flatMap (beBytes 2) ++ l.flatMap Mark.bytes, s1)

/-- MARKS_TAKE (R32). -/
def execMarksTake (s : State) : Host.Outcome State Fault Refusal := act (serve 0x40 serveMarksTake) s

/-! ### Calibration (R38, R42, R43) -/

/-- R38: the id after n, from 255 to 1, skipping the ids in the schedule. -/
def nextCalId (held : List Nat) : Nat → Nat → Nat
  | 0, n => n
  | fuel + 1, n =>
    let m := if 255 ≤ n then 1 else n + 1
    if held.contains m then nextCalId held fuel m else m

/-- R38: the entry a CAL_ADD stores, received in second `now`; now + 2 is taken modulo 2^32 before the comparison (log 31). -/
def calFrom (body : List Byte) (sensor : PortId) (id now : Nat) : Cal :=
  let width := clampN 10 60000 (field body 5 2)
  let spacing := clampN 1 600 (field body 8 2)
  let soon := (now + 2) % Config.wrap32
  { id := id
    sensor := sensor
    start := if field body 1 4 < soon then soon else field body 1 4
    width := width
    count := clampN 1 16 (field body 7 1)
    spacing := if spacing * 1000 ≤ width then (width + 999) / 1000 + 1 else spacing
    outcome := .waiting
    runStart := none
    issued := 0
    withheld := 0 }

/-- R38: the id and the stored fields, as CAL_ADD carries them. -/
def Cal.stored (c : Cal) : List Byte :=
  [byte c.sensor.val] ++ beBytes 4 c.start ++ beBytes 2 c.width ++ [byte c.count] ++ beBytes 2 c.spacing

/-- R38: the steps in their order. -/
def serveCalAdd (q : Request) (s : State) : List Byte × State :=
  let x := field q.body 0 1
  if h : x < 2 then
    if 4 ≤ s.sch.cals.length then ([0x08], s)
    else
      let c := calFrom q.body ⟨x, h⟩ s.sch.calId q.stamp.time.s
      let cals := insertBy Cal.before c s.sch.cals
      ((if c.stored = q.body then 0x00 else 0x01) :: byte c.id :: c.stored,
        { s with sch := { s.sch with cals := cals, calId := nextCalId (cals.map Cal.id) 255 s.sch.calId } })
  else ([0x04], s)

/-- CAL_ADD (R38). -/
def execCalAdd (s : State) : Host.Outcome State Fault Refusal := act (serve 0x41 serveCalAdd) s

/-- R42. -/
def serveCalCancel (q : Request) (s : State) : List Byte × State :=
  match s.sch.cals.find? fun c => c.id == field q.body 0 1 with
  | none => ([0x09], s)
  | some c =>
    match c.outcome with
    | .running => ([0x00], leaveRunning c .cancelled s)
    | .waiting => ([0x00], editCal c.id (fun c => { c with outcome := .cancelled }) s)
    | .deferred => ([0x00], editCal c.id (fun c => { c with outcome := .cancelled }) s)
    | _ => ([0x05], s)

/-- CAL_CANCEL (R42). -/
def execCalCancel (s : State) : Host.Outcome State Fault Refusal := act (serve 0x42 serveCalCancel) s

/-- R43: the reply, with the finished entries it carries noted for the end of the reply; a broadcast removes nothing. -/
def serveCalList (q : Request) (s : State) : List Byte × State :=
  let l := s.sch.cals
  (0x00 :: byte l.length :: l.flatMap Cal.bytes,
    { s with bus := { s.bus with
        req := some { q with reported := (l.filter fun c => c.outcome.finished).map Cal.id } } })

/-- CAL_LIST (R43). -/
def execCalList (s : State) : Host.Outcome State Fault Refusal := act (serve 0x43 serveCalList) s

/-! ### Conditions (R189) -/

/-- The pending marks of the listed ids cleared. -/
def clearPending (ids : List Nat) (s : State) : State :=
  wakeEval { s with mon := { s.mon with
    conds := allConds.foldl (fun v (c : CondId) => if ids.contains c.val then v.set c { v[c] with pending := false } else v)
      s.mon.conds } }

/-- R189. -/
def servePendingClear (q : Request) (s : State) : List Byte × State :=
  let ids := (q.body.drop 1).map BitVec.toNat
  if ids.any fun n => 17 < n then ([0x04], s)
  else
    let s1 := clearPending ids s
    (0x00 :: s1.pendingBody, s1)

/-- PENDING_CLEAR (R189). -/
def execPendingClear (s : State) : Host.Outcome State Fault Refusal := act (serve 0x51 servePendingClear) s

/-! ### OUTPUT_RESTART (R155, R174) -/

/-- R155: the charger's part, by what its receipt found; a charger that has left FAULT since stays as it is (log 11). -/
def restartCharger (found : Byte) (s : State) : State :=
  let s1 := { s with bat := { s.bat with restarts := 0 } }
  if found = 1 ∧ s.bat.charge = .fault then reportCharge { s1 with bat := { s1.bat with charge := .idle, clear := 0 } }
  else s1

/-- R174: the heater's part, by what its receipt found; a heater that has left SHUTDOWN since stays as it is (log 11). -/
def restartHeater (found : Byte) (s : State) : State :=
  if found = 1 ∧ s.htr.state = .shutdown then heaterRestart s else s

/-- R155: the reply, once every selected output has its outcome. -/
def outputReply (charger heater : Option Byte) : List Byte :=
  (if charger = some 2 ∨ heater = some 2 then 0x05 else 0x00)
    :: optField 1 (charger.map fun b => [b]) ++ optField 1 (heater.map fun b => [b])

/-- R155: the selected outputs are all served: the request is answered; otherwise it waits for the other output. -/
def settleOutputs (q : Request) (sel : Nat) (s : State) : State :=
  let s1 := { s with bus := { s.bus with req := some q } }
  if (sel.testBit 0 → q.charger.isSome) ∧ (sel.testBit 1 → q.heater.isSome) then finish (outputReply q.charger q.heater) s1
  else s1

/-- R155: one output's part of an OUTPUT_RESTART in hand: `bit` selects it, `served` says it has its outcome, `run` carries
it out, `put` notes the outcome. -/
def outputPart (bit : Nat) (served : Request → Bool) (run : Request → State → State) (put : Request → Request)
    (s : State) : State :=
  match s.bus.req, s.bus.recv, s.bus.reply with
  | some q, .handling, none =>
    let sel := field q.body 0 1
    if q.kind ≠ 0x61 then s
    else if lengthFits 0x61 q.body = false then finish [0x03] s
    else if sel = 0 ∨ 4 ≤ sel then finish [0x04] s
    else if sel.testBit bit && !served q then settleOutputs (put q) sel (run q s)
    else s
  | _, _, _ => s

/-- OUTPUT_RESTART_CHARGER (R155). -/
def execOutputRestartCharger (s : State) : Host.Outcome State Fault Refusal :=
  act (outputPart 0 (fun q => q.charger.isSome) (fun q => restartCharger q.chargerFound)
    (fun q => { q with charger := some q.chargerFound })) s

/-- OUTPUT_RESTART_HEATER (R174). -/
def execOutputRestartHeater (s : State) : Host.Outcome State Fault Refusal :=
  act (outputPart 1 (fun q => q.heater.isSome) (fun q => restartHeater q.heaterFound)
    (fun q => { q with heater := some q.heaterFound })) s

/-! ### NOTE_SEND (R119) -/

/-- R119: the note number after n, from 255 to 1, skipping the notes still in the outbox. -/
def nextNote (held : List Nat) : Nat → Nat → Nat
  | 0, n => n
  | fuel + 1, n =>
    let m := if 255 ≤ n then 1 else n + 1
    if held.contains m then nextNote held fuel m else m

/-- R119. -/
def serveNoteSend (q : Request) (s : State) : List Byte × State :=
  if 12 ≤ s.box.entries.length then ([0x08], s)
  else
    let s1 := place (newAlert .note 3 s.box.note q.stamp (.note q.body)) s
    let held := (s1.box.entries.filter fun a => a.kind == .note).map Alert.origin
    ([0x00, byte s.box.note],
      { s1 with box := { s1.box with note := nextNote held 255 s.box.note } })

/-- NOTE_SEND (R119). -/
def execNoteSend (s : State) : Host.Outcome State Fault Refusal := act (serve 0x71 serveNoteSend) s

/-! ### Settings Store (R208, R209) -/

/-- R208: the slot a write goes to, and the generation it carries. -/
def Store.target (st : Store) : Fin 2 × Nat :=
  match st.image with
  | none => (0, 1)
  | some (i, x) => (if i = 0 then 1 else 0, x.generation + 1)

/-- R208, R209: the write begins: the written slot holds no valid image until it is complete. -/
def beginSave (s : State) : State :=
  let t := s.store.target
  { s with store := { s.store with
      slots := s.store.slots.set t.1 none
      saving := some ⟨t.1, ⟨t.2, s.imageNow⟩⟩ } }

/-- SETTINGS_SAVE (R209): the reply waits for the comparison. -/
def execSettingsSave (s : State) : Host.Outcome State Fault Refusal :=
  act (fun s =>
    match s.bus.req, s.bus.recv, s.bus.reply, s.store.saving with
    | some q, .handling, none, none =>
      if q.kind ≠ 0x12 then s else if lengthFits 0x12 q.body then beginSave s else finish [0x03] s
    | _, _, _, _ => s) s

/-- R209: the comparison has been made. -/
def endSave (w : Saving) (ok : Bool) (s : State) : State :=
  let st := { s.store with saving := none, saves := inc16 s.store.saves }
  if ok then
    finish (0x00 :: beBytes 4 w.content.generation)
      { s with store := { st with slots := st.slots.set w.slot (some w.content) } }
  else
    finish (0x05 :: beBytes 4 st.generation) { s with store := { st with saveFails := inc16 st.saveFails } }

/-- SETTINGS_SAVE_DONE (R209): the slot has been read back, equal to the snapshot or not. -/
def execSettingsSaveDone (dt : Nat) (ok : Bool) (s : State) : Host.Outcome State Fault Refusal :=
  act (fun s =>
    match s.store.saving with
    | none => s
    | some w => endSave w ok (elapse dt s)) s

end Sys2Proof.Machine
end

