-- ==== Sys2Proof/Machine/Restart.lean ====
section
/-! DEFINITION. Power-on, loss of power and RESTART: the load of the settings and what each block does with it. -/
namespace Sys2Proof.Machine

/-! ### RESTART (R211), block by block in the order of log 10 -/

/-- R211 part 1: the load; the map is put in force later, by the ports. -/
def restartLoad (ld : Loaded) (s : State) : State :=
  { s with
    params := ld.params
    store := { s.store with source := ld.source, clamped := ld.clamped }
    chn := Vector.ofFn fun c => { s.chn[c] with det := ld.dets[c] } }

/-- R26. -/
def restartClock (s : State) : State :=
  reportClock { s with clk := { s.clk with
    mismatch := 0
    offset := none
    label := none
    rx := []
    labelErrors := 0
    unfixed := 0
    steps := 0 } }

/-- R33: the levels of the lines stay what they are. -/
def restartMarks (s : State) : State :=
  { s with mrk := { pps := { high := s.mrk.pps.high }, markA := { high := s.mrk.markA.high },
                    markB := { high := s.mrk.markB.high } } }

/-- R111. -/
def restartEvents (s : State) : State :=
  let s1 := closeBetweenVotes (fun f => { f with aborted := true }) s
  eventWakeEval { s1 with evt := { s1.evt with
    counting := #v[none, none, none, none, none, none]
    notes := []
    reports := []
    post := 0
    peaks := #v[{}, {}, {}, {}, {}, {}] } }

/-- R65: a port switches its supply off. -/
def restartPort (p : PortId) (s : State) : State :=
  if s.prt[p].link = .off then s else closeStopped p s.prt[p] (stopLink p s)

/-- R44, R37. -/
def restartScheduler (s : State) : State :=
  let s1 := match s.runningCal with
    | none => s
    | some c => leaveRunning c .cancelled s
  storeRate s1.sampleRate { s1 with sch := { s1.sch with cals := [] } }

/-- R63, R65: all rings cleared, then the reloaded map in force. -/
def restartRings (m : ChanMap) (s : State) : State :=
  { allChans.foldl (fun s c => clearRing c s) s with map := m, pendingMap := none }

/-- R86: every channel restarted, its count cleared, suppression as the windows stand. -/
def restartTrigger (s : State) : State :=
  resuppress (restartAll { s with chn := s.chn.map fun ch => { ch with count := 0 } })

/-- R159, R178: the reloaded settings act as written ones. -/
def restartPower (s : State) : State :=
  heaterFollow (relimit (judgeBudget (chargeTempTest (clampCharge s))))

/-- R196: the pending marks cleared, the figures zeroed, the errors judged against the reloaded thresholds once, after that
(log 10), those of D0 before those of D1 (log 34), the reloaded sets and length taken. -/
def restartMonitor (oldLen : Nat) (s : State) : State :=
  let s1 := { s with mon := { s.mon with conds := s.mon.conds.map fun k => { k with pending := false }, figs := {} } }
  newInterval oldLen (wakeEval (degradedEval (judgeErrors 1 (judgeErrors 0 s1))))

/-- R211: the three parts; both ports go OFF, D0 first (log 40). -/
def restartWork (s : State) : State :=
  let ld := s.store.load
  let s1 := restartEvents (restartMarks (restartClock (restartLoad ld s)))
  let s2 := restartScheduler (restartPort 1 (restartPort 0 s1))
  let s3 := evalSupplies (restartTrigger (restartRings ld.map s2))
  let s4 := restartMonitor s.intervalLen (restartPower (outboxRestart s3))
  { s4 with bus := { s4.bus with restarts := inc16 s4.bus.restarts }, moment := {} }

/-- RESTART (R211): an addressed one is answered with OK and carried out after the reply, a broadcast one now. -/
def execRestart (s : State) : Host.Outcome State Fault Refusal :=
  act (serve 0x7F fun q s => ([0x00], if q.bcast then restartWork s else s)) s

/-- RESTART_EXECUTE (R211): after the reply of a RESTART; the busy period ends with it. -/
def execRestartExecute (dt : Nat) (s : State) : Host.Outcome State Fault Refusal :=
  act (fun s =>
    if s.bus.restartDue then
      let s1 := restartWork (elapse dt s)
      takeLine { s1 with bus := { s1.bus with restartDue := false } }
    else s) s

/-! ### Power -/

/-- R140: SOC0 from the voltage of the power-on reading. -/
def socAtStart (vb vEmpty vFloat : Nat) : Nat :=
  if vb ≤ vEmpty then 0 else if vFloat ≤ vb then 100 else (vb - vEmpty) * 100 / (vFloat - vEmpty)

/-- R210: the part with its settings loaded and every block empty, the queue and the store's slots kept. -/
def loadPart (s : State) : State :=
  let ld := s.store.load
  { params := ld.params
    chn := Vector.ofFn fun c => { det := ld.dets[c] }
    map := ld.map
    store := { slots := s.store.slots, source := ld.source, clamped := ld.clamped }
    pending := s.pending
    free := s.free }

/-- R136, R137, R158: the power-on reading; the held temperatures are 0 where it is not valid. -/
def startMonitor (r : Reading) (s : State) : State := { s with pwr := ({ tp := 0, tv := 0 } : Power).take r }

/-- R140, R141, R158: Battery Care at power-on. -/
def startBattery (s : State) : State :=
  let soc := socAtStart s.pwr.vb s.vEmpty s.vFloat
  { s with bat := { q := s.capacity * 36 * soc, soc := soc, cls := classAtStart soc s.socLow s.socCritical } }

/-- R25: the supply state from the class; the divisors and addresses in force (R210, R213). -/
def startLines (s : State) : State :=
  { s with
    clk := { s.clk with supply := if s.bat.cls = .normal then .continuous else .session, div := s.gnssDivisor }
    mdm := { s.mdm with div := s.modemDivisor, txDiv := s.modemDivisor }
    bus := { s.bus with addr := s.stationAddress, div := s.busDivisor }
    sch := { s.sch with rate := s.sampleRate }
    box := { s.box with credits := s.creditCap } }

/-- R178: the heater at power-on: stages 3 and 5 on the power-on reading, no entry to SHUTDOWN counted. -/
def startHeater (s : State) : State :=
  let st : HeatState := if s.heatCause then .shutdown else if s.heatEnable then .regulate else .off
  let s1 := heaterLaw (judgeBudget { s with htr := { state := st } })
  { s1 with htr := { s1.htr with solarPrev := s1.pwr.solar } }

/-- R195: the initial status of each condition. -/
def State.initialStatus (s : State) (c : CondId) : Bool :=
  match c.val with
  | 1 => decide (s.holdoverLimit * 1000 < s.clk.u)
  | 2 => true
  | 9 => s.bat.cls != .normal
  | 10 => s.bat.cls == .critical
  | 13 => s.htr.state == .shutdown
  | 14 => !s.pwr.tpValid
  | _ => false

/-- R195: the Condition Monitor at power-on. -/
def startConditions (s : State) : State :=
  degradedEval { s with mon := { s.mon with conds := Vector.ofFn fun c => { status := s.initialStatus c } } }

/-- R210 and the power-on rule of each block. -/
def powerOn (r : Reading) (s : State) : State :=
  startConditions (evalSupplies (startHeater (startLines (startBattery (startMonitor r (loadPart s))))))

/-- POWER_ON (R210), also for a part that has no supply. -/
def execPowerOn (r : Reading) (s : State) : Host.Outcome State Fault Refusal := .next (powerOn r s)

/-- POWER_LOSS (R208): a write in progress leaves its slot incomplete; nothing more happens until POWER_ON. -/
def execPowerLoss (s : State) : Host.Outcome State Fault Refusal :=
  act (fun s => { s with powered := false, store := { s.store with saving := none } }) s

end Sys2Proof.Machine
end

