-- ==== Sys2Proof/Machine/Dispatch.lean ====
section
/-! DEFINITION. The dispatch: one arm per command, in the order of spec/opcode_table.json. -/
namespace Sys2Proof.Machine

def exec (i : Instr) (s : State) : Host.Outcome State Fault Refusal :=
  match i with
  | .powerOn r => Sys2Proof.Machine.execPowerOn r s
  | .secondBoundary r => Sys2Proof.Machine.execSecondBoundary r s
  | .fullSync => Sys2Proof.Machine.execFullSync s
  | .absorbTimeLimit => Sys2Proof.Machine.execAbsorbTimeLimit s
  | .floatLowRecharge => Sys2Proof.Machine.execFloatLowRecharge s
  | .chargerAutoRestart => Sys2Proof.Machine.execChargerAutoRestart s
  | .emptySync => Sys2Proof.Machine.execEmptySync s
  | .shedEntry => Sys2Proof.Machine.execShedEntry s
  | .shedExit => Sys2Proof.Machine.execShedExit s
  | .chgPwmPeriod => Sys2Proof.Machine.execChgPwmPeriod s
  | .chargeHoldExpiry => Sys2Proof.Machine.execChargeHoldExpiry s
  | .heaterAutoRestart => Sys2Proof.Machine.execHeaterAutoRestart s
  | .heaterHoldExpiry => Sys2Proof.Machine.execHeaterHoldExpiry s
  | .heatFaultAsserted dt => Sys2Proof.Machine.execHeatFaultAsserted dt s
  | .heatFaultCleared dt => Sys2Proof.Machine.execHeatFaultCleared dt s
  | .strobe => Sys2Proof.Machine.execStrobe s
  | .pendingRateApply => Sys2Proof.Machine.execPendingRateApply s
  | .pendingMapApply => Sys2Proof.Machine.execPendingMapApply s
  | .inputEdge dt k => Sys2Proof.Machine.execInputEdge dt k s
  | .inputLevelReturn dt k => Sys2Proof.Machine.execInputLevelReturn dt k s
  | .edgeQualified k => Sys2Proof.Machine.execEdgeQualified k s
  | .secondsCorrection => Sys2Proof.Machine.execSecondsCorrection s
  | .trackEntry => Sys2Proof.Machine.execTrackEntry s
  | .trackUnlock => Sys2Proof.Machine.execTrackUnlock s
  | .ppsWatchExpiry => Sys2Proof.Machine.execPpsWatchExpiry s
  | .gnssSessionStart => Sys2Proof.Machine.execGnssSessionStart s
  | .gnssSessionEnd => Sys2Proof.Machine.execGnssSessionEnd s
  | .gnssLabel dt bytes => Sys2Proof.Machine.execGnssLabel dt bytes s
  | .gnssLabelTimeout => Sys2Proof.Machine.execGnssLabelTimeout s
  | .gnssFramingError dt => Sys2Proof.Machine.execGnssFramingError dt s
  | .calPulseEnd p => Sys2Proof.Machine.execCalPulseEnd p s
  | .calRunEnd => Sys2Proof.Machine.execCalRunEnd s
  | .calSettleExpiry => Sys2Proof.Machine.execCalSettleExpiry s
  | .suppressionWindowClose p => Sys2Proof.Machine.execSuppressionWindowClose p s
  | .drdyEdge dt p => Sys2Proof.Machine.execDrdyEdge dt p s
  | .digitizerFrame dt p bytes => Sys2Proof.Machine.execDigitizerFrame dt p bytes s
  | .startingTimeout p => Sys2Proof.Machine.execStartingTimeout p s
  | .linkUp p alarm => Sys2Proof.Machine.execLinkUp p alarm s
  | .linkDown p => Sys2Proof.Machine.execLinkDown p s
  | .warmupComplete c => Sys2Proof.Machine.execWarmupComplete c s
  | .ltaRelease c => Sys2Proof.Machine.execLtaRelease c s
  | .postTimerExpiry => Sys2Proof.Machine.execPostTimerExpiry s
  | .eventTruncate => Sys2Proof.Machine.execEventTruncate s
  | .notBeforePassed => Sys2Proof.Machine.execNotBeforePassed s
  | .modemStart => Sys2Proof.Machine.execModemStart s
  | .modemStartTimeout => Sys2Proof.Machine.execModemStartTimeout s
  | .modemReady dt => Sys2Proof.Machine.execModemReady dt s
  | .offer => Sys2Proof.Machine.execOffer s
  | .modemHoldExpiry => Sys2Proof.Machine.execModemHoldExpiry s
  | .take dt tag => Sys2Proof.Machine.execTake dt tag s
  | .modemBusy dt tag => Sys2Proof.Machine.execModemBusy dt tag s
  | .offerTimeout => Sys2Proof.Machine.execOfferTimeout s
  | .sent dt tag => Sys2Proof.Machine.execSent dt tag s
  | .failed dt tag => Sys2Proof.Machine.execFailed dt tag s
  | .sendTimeout => Sys2Proof.Machine.execSendTimeout s
  | .backoffExpiry => Sys2Proof.Machine.execBackoffExpiry s
  | .modemBadFrame dt bytes => Sys2Proof.Machine.execModemBadFrame dt bytes s
  | .modemFrameTimeout => Sys2Proof.Machine.execModemFrameTimeout s
  | .modemFramingError dt => Sys2Proof.Machine.execModemFramingError dt s
  | .intervalBoundary => Sys2Proof.Machine.execIntervalBoundary s
  | .busAddressCharacter dt b f => Sys2Proof.Machine.execBusAddressCharacter dt b f s
  | .busDataCharacter dt b f => Sys2Proof.Machine.execBusDataCharacter dt b f s
  | .busGapTimeout => Sys2Proof.Machine.execBusGapTimeout s
  | .unknownType => Sys2Proof.Machine.execUnknownType s
  | .replyEnd => Sys2Proof.Machine.execReplyEnd s
  | .status => Sys2Proof.Machine.execStatus s
  | .timeGet => Sys2Proof.Machine.execTimeGet s
  | .timeSet => Sys2Proof.Machine.execTimeSet s
  | .clockDetail => Sys2Proof.Machine.execClockDetail s
  | .paramGet => Sys2Proof.Machine.execParamGet s
  | .paramSet => Sys2Proof.Machine.execParamSet s
  | .settingsSave => Sys2Proof.Machine.execSettingsSave s
  | .settingsSaveDone dt ok => Sys2Proof.Machine.execSettingsSaveDone dt ok s
  | .detectorSet => Sys2Proof.Machine.execDetectorSet s
  | .detectorGet => Sys2Proof.Machine.execDetectorGet s
  | .mapSet => Sys2Proof.Machine.execMapSet s
  | .mapGet => Sys2Proof.Machine.execMapGet s
  | .eventIndex => Sys2Proof.Machine.execEventIndex s
  | .eventGet => Sys2Proof.Machine.execEventGet s
  | .eventRelease => Sys2Proof.Machine.execEventRelease s
  | .samplesFetch => Sys2Proof.Machine.execSamplesFetch s
  | .marksTake => Sys2Proof.Machine.execMarksTake s
  | .calAdd => Sys2Proof.Machine.execCalAdd s
  | .calCancel => Sys2Proof.Machine.execCalCancel s
  | .calList => Sys2Proof.Machine.execCalList s
  | .conditionsGet => Sys2Proof.Machine.execConditionsGet s
  | .pendingClear => Sys2Proof.Machine.execPendingClear s
  | .intervalGet => Sys2Proof.Machine.execIntervalGet s
  | .powerGet => Sys2Proof.Machine.execPowerGet s
  | .outputRestartCharger => Sys2Proof.Machine.execOutputRestartCharger s
  | .outputRestartHeater => Sys2Proof.Machine.execOutputRestartHeater s
  | .outboxGet => Sys2Proof.Machine.execOutboxGet s
  | .noteSend => Sys2Proof.Machine.execNoteSend s
  | .restart => Sys2Proof.Machine.execRestart s
  | .restartExecute dt => Sys2Proof.Machine.execRestartExecute dt s
  | .heatHighTimeEnd => Sys2Proof.Machine.execHeatHighTimeEnd s
  | .chgLimitHighEnd => Sys2Proof.Machine.execChgLimitHighEnd s
  | .samplePulseEnd => Sys2Proof.Machine.execSamplePulseEnd s
  | .replyStart dt => Sys2Proof.Machine.execReplyStart dt s
  | .powerLoss => Sys2Proof.Machine.execPowerLoss s

end Sys2Proof.Machine
end

