-- ==== Sys2Proof/Safety.lean ====
section
/-! DEFINITION. What the statements speak of beyond the machine itself: the parts of the state a frame names, the
invariants of the state, and when a request of the bus is in hand. -/
namespace Sys2Proof.Machine

/-! ### Frames -/

/-- The parts of the state a frame can leave out. Some are views into a larger part: `time` and `supplyView` into `clk`,
`strobes` into `sch`, `event` into `evt`, `credits` and `flight` into `box`, `interval` into `mon`, `power` into `bat`. A command that
changes such a larger part but not the view leaves the fields of the view as they were. -/
inductive Part where
  | clk | time | supplyView | mrk | sch | strobes | prt | map | pendingMap | rings | chn | evt | event | box | credits | flight
  | mdm | pwr | bat | power | htr | mon | interval | bus | params | store | pending | powered | osc | moment | free
  deriving DecidableEq, Repr

/-- How many entries of the outbox are IN_FLIGHT (R112). -/
def State.flights (s : State) : Nat := s.box.entries.countP Alert.inFlight

/-- Part p reads the same in s and in t. -/
def Part.same (p : Part) (s t : State) : Prop :=
  match p with
  | .clk => t.clk = s.clk
  | .time => t.clk.s = s.clk.s ∧ t.clk.t = s.clk.t ∧ t.clk.acc = s.clk.acc ∧ t.clk.corr = s.clk.corr ∧ t.clk.corrUp = s.clk.corrUp
      ∧ t.clk.ticks = s.clk.ticks
  | .supplyView => t.clk.supply = s.clk.supply ∧ t.clk.label = s.clk.label
  | .mrk => t.mrk = s.mrk
  | .sch => t.sch = s.sch
  | .strobes => t.sch.next = s.sch.next ∧ t.sch.last = s.sch.last ∧ t.sch.started = s.sch.started
      ∧ t.sch.point = s.sch.point ∧ t.sch.rate = s.sch.rate ∧ t.sch.pending = s.sch.pending
      ∧ t.sch.sampleEnd = s.sch.sampleEnd ∧ t.sch.breakDue = s.sch.breakDue ∧ t.sch.lastBreak = s.sch.lastBreak
      ∧ t.sch.breaks = s.sch.breaks
  | .prt => t.prt = s.prt
  | .map => t.map = s.map
  | .pendingMap => t.pendingMap = s.pendingMap
  | .rings => t.rings = s.rings
  | .chn => t.chn = s.chn
  | .evt => t.evt = s.evt
  | .event => t.evt.state = s.evt.state ∧ t.evt.record = s.evt.record ∧ t.evt.list = s.evt.list
      ∧ t.evt.number = s.evt.number ∧ t.evt.released = s.evt.released ∧ t.evt.lost = s.evt.lost ∧ t.evt.post = s.evt.post
  | .box => t.box = s.box
  | .credits => t.box.credits = s.box.credits ∧ t.box.note = s.box.note ∧ t.box.sent = s.box.sent
  | .flight => t.flights = s.flights
  | .mdm => t.mdm = s.mdm
  | .pwr => t.pwr = s.pwr
  | .bat => t.bat = s.bat
  | .power => t.bat.power = s.bat.power ∧ t.bat.cls = s.bat.cls ∧ t.bat.soc = s.bat.soc ∧ t.bat.cutoff = s.bat.cutoff
      ∧ t.bat.reconnect = s.bat.reconnect ∧ t.bat.sheds = s.bat.sheds
  | .htr => t.htr = s.htr
  | .mon => t.mon = s.mon
  | .interval => t.mon.report = s.mon.report ∧ t.mon.number = s.mon.number ∧ t.mon.start = s.mon.start
  | .bus => t.bus = s.bus
  | .params => t.params = s.params
  | .store => t.store = s.store
  | .pending => t.pending = s.pending
  | .powered => t.powered = s.powered
  | .osc => t.osc = s.osc
  | .moment => t.moment = s.moment
  | .free => t.free = s.free

/-- The parts outside L read the same in s and in t. -/
def OnlyIn (L : List Part) (s t : State) : Prop := ∀ p : Part, p ∉ L → p.same s t

/-- What the passing of oscillator cycles changes (R1, R2). -/
abbrev Part.cycles : List Part := [.clk, .time, .osc, .moment]

/-- What a capture of the PPS input can change: a step moves time and the strobe points, a deferral flags the record. -/
abbrev Part.capture : List Part :=
  [.clk, .time, .supplyView, .sch, .strobes, .moment, .box, .evt, .event, .mrk, .mon]

/-- What a slot written for a channel, and the vote it may complete, can change (R61, R67, R87, R99). -/
abbrev Part.slots : List Part := [.box, .mon, .evt, .event, .htr, .bat, .sch, .moment, .chn, .rings, .prt]

/-- What a change of class or power state can change (R142 to R144). -/
abbrev Part.hand : List Part :=
  [.clk, .supplyView, .box, .flight, .mon, .evt, .event, .htr, .bat, .power, .sch, .moment, .chn, .rings, .prt, .mdm]

/-- What RESTART can change (R211). -/
abbrev Part.restart : List Part :=
  [.clk, .supplyView, .mrk, .sch, .strobes, .prt, .map, .pendingMap, .rings, .chn, .evt, .event, .box, .credits, .flight, .mdm,
    .bat, .htr, .mon, .interval, .bus, .params, .store, .moment]

/-- The parts each command can change; every other part reads the same after it. -/
def touches : Instr → List Part
  | .powerOn _ => [.clk, .time, .supplyView, .mrk, .sch, .strobes, .prt, .map, .pendingMap, .rings, .chn, .evt, .event, .box,
      .credits, .flight, .mdm, .pwr, .bat, .power, .htr, .mon, .interval, .bus, .params, .store, .powered, .osc, .moment]
  | .secondBoundary _ => [.clk, .time, .supplyView, .box, .credits, .flight, .mon, .interval, .evt, .event, .htr, .bat, .power, .sch,
      .strobes, .moment, .chn, .rings, .prt, .mdm, .pwr, .map, .pendingMap, .osc]
  | .fullSync => [.bat, .power]
  | .absorbTimeLimit => [.bat]
  | .floatLowRecharge => [.bat]
  | .chargerAutoRestart => [.bat, .evt, .event, .box, .mon]
  | .emptySync => [.bat]
  | .shedEntry => Part.hand
  | .shedExit => Part.hand
  | .chgPwmPeriod => .bat :: Part.cycles
  | .chargeHoldExpiry => [.bat]
  | .heaterAutoRestart => [.htr, .box, .mon]
  | .heaterHoldExpiry => [.htr]
  | .heatFaultAsserted _ => .htr :: .box :: .mon :: Part.cycles
  | .heatFaultCleared _ => .htr :: Part.cycles
  | .strobe => .strobes :: Part.cycles ++ Part.slots
  | .pendingRateApply => .strobes :: Part.slots
  | .pendingMapApply => .map :: .pendingMap :: Part.slots
  | .inputEdge _ .pps => Part.cycles ++ Part.capture
  | .inputEdge _ _ => .mrk :: Part.cycles
  | .inputLevelReturn _ .pps => Part.cycles ++ Part.capture
  | .inputLevelReturn _ _ => .mrk :: Part.cycles
  | .edgeQualified .pps => Part.cycles ++ Part.capture
  | .edgeQualified _ => .mrk :: Part.cycles
  | .secondsCorrection => [.clk, .time, .sch, .strobes, .moment, .box, .evt, .event]
  | .trackEntry => [.clk]
  | .trackUnlock => [.clk]
  | .ppsWatchExpiry => [.clk, .box, .mon]
  | .gnssSessionStart => [.clk, .supplyView]
  | .gnssSessionEnd => [.clk, .supplyView, .box, .mon]
  | .gnssLabel _ _ => .supplyView :: Part.cycles
  | .gnssLabelTimeout => Part.cycles
  | .gnssFramingError _ => Part.cycles
  | .calPulseEnd _ => .sch :: Part.cycles
  | .calRunEnd => .sch :: .chn :: .evt :: Part.cycles
  | .calSettleExpiry => .sch :: Part.cycles
  | .suppressionWindowClose _ => .sch :: .chn :: .evt :: Part.cycles
  | .drdyEdge _ _ => .prt :: Part.cycles
  | .digitizerFrame _ _ _ => Part.cycles ++ Part.slots
  | .startingTimeout _ => .prt :: .box :: .mon :: .chn :: .evt :: Part.cycles
  | .linkUp _ _ => [.prt, .box, .mon, .chn, .evt]
  | .linkDown _ => [.prt, .box, .mon, .chn, .evt]
  | .warmupComplete _ => [.chn]
  | .ltaRelease _ => [.chn]
  | .postTimerExpiry => [.box, .mon, .evt, .event, .htr, .bat, .sch]
  | .eventTruncate => [.box, .mon, .evt, .event, .htr, .bat, .sch]
  | .notBeforePassed => [.box]
  | .modemStart => [.mdm]
  | .modemStartTimeout => .mdm :: .box :: .mon :: Part.cycles
  | .modemReady _ => .mdm :: .box :: .flight :: .mon :: Part.cycles
  | .offer => [.mdm, .box, .flight]
  | .modemHoldExpiry => .mdm :: Part.cycles
  | .take _ _ => .mdm :: .box :: .credits :: Part.cycles
  | .modemBusy _ _ => .mdm :: .box :: .flight :: Part.cycles
  | .offerTimeout => .mdm :: .box :: .flight :: .mon :: Part.cycles
  | .sent _ _ => .mdm :: .box :: .flight :: .credits :: .mon :: Part.cycles
  | .failed _ _ => .mdm :: .box :: .flight :: .mon :: Part.cycles
  | .sendTimeout => .mdm :: .box :: .flight :: .mon :: Part.cycles
  | .backoffExpiry => .mdm :: Part.cycles
  | .modemBadFrame _ _ => .mdm :: .box :: .flight :: .credits :: .mon :: Part.cycles
  | .modemFrameTimeout => .mdm :: Part.cycles
  | .modemFramingError _ => .mdm :: Part.cycles
  | .intervalBoundary => [.box, .credits, .mon, .interval]
  | .busAddressCharacter _ _ _ => .bus :: .free :: Part.cycles
  | .busDataCharacter _ _ _ => .bus :: .free :: Part.cycles
  | .busGapTimeout => .bus :: Part.cycles
  | .unknownType => [.bus]
  | .replyEnd => .bus :: .sch :: Part.cycles
  | .status => [.bus]
  | .timeGet => [.bus]
  | .timeSet => [.bus, .clk, .time, .sch, .strobes, .moment, .box, .mon]
  | .clockDetail => [.bus]
  | .paramGet => [.bus]
  | .paramSet => [.bus, .params, .mrk, .sch, .strobes, .box, .credits, .mon, .interval, .evt, .event, .htr, .bat, .moment,
      .chn, .rings, .prt]
  | .settingsSave => [.bus, .store]
  | .settingsSaveDone _ _ => .bus :: .store :: Part.cycles
  | .detectorSet => [.bus, .chn, .evt, .moment]
  | .detectorGet => [.bus]
  | .mapSet => [.bus, .pendingMap]
  | .mapGet => [.bus]
  | .eventIndex => [.bus]
  | .eventGet => [.bus]
  | .eventRelease => [.bus, .evt, .event, .mon]
  | .samplesFetch => [.bus]
  | .marksTake => [.bus, .mrk]
  | .calAdd => [.bus, .sch]
  | .calCancel => [.bus, .sch, .chn, .evt]
  | .calList => [.bus]
  | .conditionsGet => [.bus]
  | .pendingClear => [.bus, .mon]
  | .intervalGet => [.bus]
  | .powerGet => [.bus]
  | .outputRestartCharger => [.bus, .bat, .box, .mon]
  | .outputRestartHeater => [.bus, .htr, .box, .mon]
  | .outboxGet => [.bus]
  | .noteSend => [.bus, .box, .credits]
  | .restart => Part.restart
  | .restartExecute _ => Part.cycles ++ Part.restart
  | .heatHighTimeEnd => .htr :: Part.cycles
  | .chgLimitHighEnd => .bat :: Part.cycles
  | .samplePulseEnd => .sch :: .strobes :: Part.cycles
  | .replyStart _ => .bus :: Part.cycles
  | .powerLoss => [.powered, .store]

/-! ### Invariants -/

/-- R3, R2: both rates within their range, the fraction accumulator within −99 to +99. -/
def State.ratesBounded (s : State) : Prop :=
  -2000 ≤ s.clk.c ∧ s.clk.c ≤ 2000 ∧ -2000 ≤ s.clk.r ∧ s.clk.r ≤ 2000 ∧ -99 ≤ s.clk.acc ∧ s.clk.acc ≤ 99

/-- 2.2, 2.4, 6.1, R100: the four collections within their capacities. -/
def State.listsFit (s : State) : Prop :=
  s.mrk.marks.length ≤ 16 ∧ s.sch.cals.length ≤ 4 ∧ s.box.entries.length ≤ 12 ∧ s.evt.list.length ≤ 32

/-- R112: at most one entry is IN_FLIGHT, and one is exactly while the link is OFFERED or SENDING. -/
def State.flightFollows (s : State) : Prop :=
  s.flights = if s.mdm.link = .offered ∨ s.mdm.link = .sending then 1 else 0

/-- R121, R122: the credits within −3 and `credit_cap`, with room for the TAKE of an offer. -/
def State.creditsFit (s : State) : Prop :=
  -3 ≤ s.box.credits ∧ s.box.credits ≤ s.creditCap ∧ (s.mdm.link = .offered → -3 < s.box.credits)

/-- R105: the event-wake term. -/
def State.termFollows (s : State) : Prop := s.evt.wakeTerm = (s.eventWake && !s.evt.list.isEmpty)

/-- R186: the degraded flag. -/
def State.degradedFollows (s : State) : Prop := s.mon.degraded = s.degradedLevel

/-- R185: the WAKE level. -/
def State.wakeFollows (s : State) : Prop := s.mon.wake = s.wakeLevel

/-- The rings and the parameters stand in their canonical form, so that equal contents are equal data. -/
def State.canonical (s : State) : Prop :=
  (∀ c : Chan, Sparse.wf (fun _ => Slot.blank) s.rings[c].slots = true) ∧ Sparse.wf paramDefault s.params = true

/-- R206: every parameter of the table holds a value of its range. -/
def State.paramsFit (s : State) : Prop := ∀ r ∈ paramTable, r.fit.fit (s.param r.num) = s.param r.num

/-! ### Requests -/

/-- Request q is in hand with its type and length right, and no reply has been made for it. -/
def State.serving (s : State) (kind : Byte) (q : Request) : Prop :=
  s.powered = true ∧ s.bus.req = some q ∧ s.bus.recv = .handling ∧ s.bus.reply = none ∧ q.kind = kind
    ∧ lengthFits kind q.body = true

/-- Request q is in hand with its type but a body of the wrong length, and no reply has been made for it. -/
def State.misfit (s : State) (kind : Byte) (q : Request) : Prop :=
  s.powered = true ∧ s.bus.req = some q ∧ s.bus.recv = .handling ∧ s.bus.reply = none ∧ q.kind = kind
    ∧ lengthFits kind q.body = false

/-- s with a reply ready to be sent. -/
def State.replied (s : State) (reply : List Byte) : State := { s with bus := { s.bus with reply := some reply } }

end Sys2Proof.Machine
end

