-- ==== Sys2Proof/Certificates/Slice0/Obligations.lean ====
section
/-! DEFINITION. The statements for the provers. Each says what its title in OBLIGATIONS.json says; a clause that rests on a
choice of the model names its log entry. -/
open Sys2Proof Sys2Proof.Machine

/-! ### The machine -/

/-- A step takes the command at the front of the queue and runs it on the part with the queue's rest. -/
def Obligations.StepTakesTheFrontCommand : Prop :=
  ∀ (c : Instr) (rest : List Instr) (s : State), s.pending = c :: rest → step s = exec c { s with pending := rest }

/-- With an empty queue the block idles (log 3), and without its supply the part does nothing until POWER_ON (log 25). -/
def Obligations.IdleOrUnpoweredDoesNothing : Prop :=
  (∀ s : State, s.pending = [] → step s = .next s)
  ∧ ∀ (c : Instr) (s : State), s.powered = false → (∀ r, c ≠ .powerOn r) → exec c s = .next s

/-- State.reset is what POWER_ON with the power-on reading of log 5 makes of a part with a blank store. -/
def Obligations.ResetIsPowerOnOfABlankPart : Prop :=
  exec (.powerOn ⟨12600, 0, 0, 600, 600⟩) State.reset = .next State.reset

/-- The invariants the tier 3 statements keep hold at reset. -/
def Obligations.ResetMeetsEveryInvariant : Prop :=
  State.reset.listsFit ∧ State.reset.ratesBounded ∧ State.reset.termFollows ∧ State.reset.degradedFollows
    ∧ State.reset.wakeFollows ∧ State.reset.canonical ∧ State.reset.paramsFit
    ∧ State.reset.flightFollows ∧ State.reset.creditsFit

/-- Every command answers a next state, leaves the queue alone, and changes nothing outside the parts named for it. -/
def Obligations.EveryCommandKeepsItsFrame : Prop :=
  ∀ (c : Instr) (s : State), ∃ t, exec c s = .next t ∧ t.pending = s.pending ∧ OnlyIn (touches c) s t

/-! ### Invariants that every step keeps -/

/-- The Mark List, the Calibration Schedule, the outbox and the Event List stay within their capacities. -/
def Obligations.ListsStayWithinCapacity : Prop :=
  ∀ s t : State, s.listsFit → step s = .next t → t.listsFit

/-- Both rates and the fraction accumulator stay within their ranges. -/
def Obligations.RatesStayBounded : Prop :=
  ∀ s t : State, s.ratesBounded → step s = .next t → t.ratesBounded

/-- R112: at most one entry of the outbox is IN_FLIGHT, and one is exactly while the link is OFFERED or SENDING. -/
def Obligations.OneAlertIsInFlight : Prop :=
  ∀ s t : State, s.flightFollows → step s = .next t → t.flightFollows

/-- R121, R122: the credits stay within −3 and `credit_cap`, and above −3 while an offer awaits its TAKE. -/
def Obligations.CreditsStayBounded : Prop :=
  ∀ s t : State, s.creditsFit → step s = .next t → t.creditsFit

/-- The event-wake term, the degraded flag and the WAKE level each go on following from what they are functions of. -/
def Obligations.WakeAndDegradedFollow : Prop :=
  ∀ s t : State, step s = .next t →
    (s.termFollows → t.termFollows) ∧ (s.degradedFollows → t.degradedFollows) ∧ (s.wakeFollows → t.wakeFollows)

/-- The rings and the parameters keep their canonical form, and every parameter keeps a value of its range. -/
def Obligations.SettingsStayFitted : Prop :=
  ∀ s t : State, s.canonical → s.paramsFit → step s = .next t → t.canonical ∧ t.paramsFit

/-! ### Power, the battery and the heater -/

/-- POWER_ON loads the settings and starts every block as its power-on rule says (R25, R33, R37, R44, R64, R86, R110, R158,
R178, R195, R213), keeping the non-volatile slots; POWER_LOSS gives up a write in progress and changes nothing else but the
supply (R208, R210). The model's choices: log 19 (the three inputs low), log 25 (POWER_ON of a part that has its supply, and
what is kept without it). -/
def Obligations.PowerOnStartsEveryBlock : Prop :=
  (∀ (r : Reading) (s : State), ∃ t, exec (.powerOn r) s = .next t ∧ t.powered = true ∧ t.store.slots = s.store.slots
    ∧ t.params = s.store.load.params ∧ t.map = s.store.load.map ∧ t.pendingMap = none
    ∧ t.clk.s = 0 ∧ t.clk.t = 0 ∧ t.clk.disc = .unset ∧ t.clk.u = 4294967295 ∧ t.clk.r = 0 ∧ t.clk.c = 0
    ∧ t.clk.supply = (if t.bat.cls = .normal then .continuous else .session)
    ∧ t.clk.acc = 0 ∧ t.clk.reason = none ∧ t.clk.rLoss = 0 ∧ t.clk.tLoss = 0 ∧ t.clk.label = none ∧ t.clk.lock = 0
    ∧ t.clk.unlock = 0 ∧ t.clk.mismatch = 0 ∧ t.clk.offset = none ∧ t.clk.stepDeferred = false ∧ t.clk.labelErrors = 0
    ∧ t.clk.unfixed = 0 ∧ t.clk.steps = 0 ∧ t.clk.session = 0 ∧ t.clk.hold = 0
    ∧ t.mrk = {} ∧ t.sch.next = 0 ∧ t.sch.last = none ∧ t.sch.rate = t.sampleRate ∧ t.sch.pending = none ∧ t.sch.cals = []
    ∧ t.sch.calId = 1 ∧ t.sch.lastBreak = none ∧ t.sch.breaks = 0 ∧ t.sch.settleEnd = none
    ∧ (∀ p : PortId, t.sch.lines[p] = none ∧ t.sch.windows[p] = .closed)
    ∧ t.prt[(0 : PortId)] = { link := if t.digEnable0 = true then .starting else .off }
    ∧ t.prt[(1 : PortId)] = { link :=
        if t.digEnable1 = true ∧ (t.bat.cls ≠ .critical ∨ t.shedD1Critical = false) then .starting else .off }
    ∧ (∀ c : Chan, t.rings[c].newest = none ∧ t.rings[c].oldest = 0 ∧ t.chn[c] = { det := s.store.load.dets[c] })
    ∧ t.evt.state = .idle ∧ t.evt.number = some 1 ∧ t.evt.list = [] ∧ t.evt.record = none ∧ t.evt.notes = []
    ∧ t.evt.reports = [] ∧ t.evt.lastVoted = none ∧ t.evt.post = 0 ∧ t.evt.released = 0 ∧ t.evt.lost = 0
    ∧ t.evt.wakeTerm = false
    ∧ t.box.entries = [] ∧ t.box.credits = t.creditCap ∧ t.box.creation = 0 ∧ t.box.note = 1 ∧ t.box.sent = 0
    ∧ t.box.drops = 0 ∧ t.mdm.link = .off ∧ t.mdm.fails = 0 ∧ t.mdm.fault = false
    ∧ t.pwr.vb = r.vb ∧ t.pwr.ib = r.ib ∧ t.pwr.vs = r.vs ∧ (t.pwr.solar = true ↔ r.vb + 300 ≤ r.vs)
    ∧ (t.pwr.tpValid = true ↔ 50 ≤ r.tpMv ∧ r.tpMv ≤ 1850) ∧ (t.pwr.tvValid = true ↔ 50 ≤ r.tvMv ∧ r.tvMv ≤ 1850)
    ∧ t.pwr.tp = (if 50 ≤ r.tpMv ∧ r.tpMv ≤ 1850 then (r.tpMv : Int) - 600 else 0)
    ∧ t.pwr.tv = (if 50 ≤ r.tvMv ∧ r.tvMv ≤ 1850 then (r.tvMv : Int) - 600 else 0)
    ∧ t.bat.power = .run ∧ t.bat.power.load = true ∧ t.bat.charge = .idle ∧ t.bat.charge.enabled = false ∧ t.bat.restarts = 0
    ∧ t.bat.limit = 0 ∧ t.bat.duty = 0 ∧ t.bat.cutoff = 0 ∧ t.bat.reconnect = 0 ∧ t.bat.empty = 0 ∧ t.bat.absorb = 0
    ∧ t.bat.term = 0 ∧ t.bat.floatLow = 0 ∧ t.bat.overRun = 0 ∧ t.bat.clear = 0 ∧ t.bat.hold = none ∧ t.bat.fullSyncs = 0
    ∧ t.bat.emptySyncs = 0 ∧ t.bat.faults = 0 ∧ t.bat.sheds = 0
    ∧ t.htr.state = (if t.tHeaterCutoff < t.pwr.tp ∨ t.pwr.tpValid = false then .shutdown
        else if t.heatEnable = true then .regulate else .off)
    ∧ t.htr.latched = 0 ∧ t.htr.heat = false ∧ t.htr.period = none ∧ t.htr.hold = none ∧ t.htr.today = 0 ∧ t.htr.day = 0
    ∧ t.htr.fault = false ∧ t.htr.clear = 0 ∧ t.htr.count = 0 ∧ t.htr.spent = t.budgetSpent ∧ t.htr.target = t.tKeepWarm
    ∧ t.htr.error = t.tKeepWarm - t.pwr.tp
    ∧ t.htr.limit = (match t.bat.cls with
        | .normal => t.dutyMaxNormal
        | .low => if t.htr.spent = true ∧ t.pwr.solar = false then 0 else t.dutyMaxLow
        | .critical => if t.pwr.solar = true then t.dutyMaxNormal else 0)
    ∧ (t.htr.request : Int) = max 0 (min (t.htr.limit : Int) (t.htr.error * t.heatGain))
    ∧ (∀ c : CondId, t.mon.conds[c].pending = false ∧ t.mon.conds[c].changes = 0 ∧ t.mon.conds[c].last = none
        ∧ (t.mon.conds[c].status = true ↔ c.val = 1 ∧ t.holdoverLimit * 1000 < 4294967295 ∨ c.val = 2
          ∨ c.val = 9 ∧ t.bat.cls ≠ .normal ∨ c.val = 10 ∧ t.bat.cls = .critical ∨ c.val = 13 ∧ t.htr.state = .shutdown
          ∨ c.val = 14 ∧ t.pwr.tpValid = false))
    ∧ t.mon.degraded = t.degradedLevel ∧ t.mon.wake = false ∧ t.mon.figs = {} ∧ t.mon.report = none ∧ t.mon.number = 0
    ∧ t.mon.start = 0
    ∧ t.bus.recv = .ignoring ∧ t.bus.frame = none ∧ t.bus.req = none ∧ t.bus.de = false ∧ t.bus.counts = {} ∧ t.bus.restarts = 0
    ∧ t.bus.addr = t.stationAddress ∧ t.bus.div = t.busDivisor ∧ t.osc = 0 ∧ t.bus.listenFrom = 0)
  ∧ (∀ s : State, s.powered = true →
    exec .powerLoss s = .next { s with powered := false, store := { s.store with saving := none } })

/-- R140: the state of charge and Q at the power-on reading; R141: the class at that reading and at every later one, whose state of
charge is that of the Q it leaves (R138). -/
def Obligations.SocAndClassFollowTheirTables : Prop :=
  (∀ (r : Reading) (s : State), ∃ t, exec (.powerOn r) s = .next t
    ∧ t.bat.soc = (if r.vb ≤ t.vEmpty then 0 else if t.vFloat ≤ r.vb then 100
        else (r.vb - t.vEmpty) * 100 / (t.vFloat - t.vEmpty))
    ∧ t.bat.q = t.capacity * 36 * t.bat.soc
    ∧ t.bat.cls = (if t.bat.soc < t.socCritical then .critical else if t.bat.soc < t.socLow then .low else .normal))
  ∧ ∀ (r : Reading) (s : State), s.powered = true → ∃ t, exec (.secondBoundary r) s = .next t
    ∧ t.bat.soc = t.bat.q * 100 / (s.capacity * 3600)
    ∧ t.bat.cls = match s.bat.cls with
      | .normal => if t.bat.soc < s.socCritical then .critical else if t.bat.soc < s.socLow then .low else .normal
      | .low => if t.bat.soc < s.socCritical then .critical else if s.socLow + 5 ≤ t.bat.soc then .normal else .low
      | .critical =>
        if s.socCritical + 5 ≤ t.bat.soc ∧ s.socLow + 5 ≤ t.bat.soc then .normal
        else if s.socCritical + 5 ≤ t.bat.soc then .low else .critical

/-- The cutoff and reconnect runs of a reading, and the power state they give (R143, R144). -/
def Obligations.PowerStateFollowsItsRuns : Prop :=
  ∀ (r : Reading) (s : State), s.powered = true → ∃ t, exec (.secondBoundary r) s = .next t
    ∧ (s.bat.power = .run →
        let n := if r.vb < s.vCutoff then min (s.bat.cutoff + 1) 10 else 0
        if 10 ≤ n then t.bat.power = .shed ∧ t.bat.cutoff = 0 ∧ t.bat.reconnect = 0 ∧ t.bat.sheds = inc16 s.bat.sheds
        else t.bat.power = .run ∧ t.bat.cutoff = n ∧ t.bat.sheds = s.bat.sheds)
    ∧ (s.bat.power = .shed →
        let n := if max s.vReconnect (s.vCutoff + 100) ≤ r.vb then min (s.bat.reconnect + 1) 60 else 0
        if 60 ≤ n then t.bat.power = .run ∧ t.bat.cutoff = 0 ∧ t.bat.reconnect = 0 ∧ t.bat.sheds = s.bat.sheds
        else t.bat.power = .shed ∧ t.bat.reconnect = n ∧ t.bat.cutoff = s.bat.cutoff ∧ t.bat.sheds = s.bat.sheds)

/-- The monitor after a second boundary holds the boundary's reading (R137). -/
def Obligations.ReadingIsHeld : Prop :=
  ∀ (r : Reading) (s : State), s.powered = true → ∃ t, exec (.secondBoundary r) s = .next t
    ∧ t.pwr.vb = r.vb ∧ t.pwr.ib = r.ib ∧ t.pwr.vs = r.vs ∧ (t.pwr.solar = true ↔ r.vb + 300 ≤ r.vs)
    ∧ (t.pwr.tpValid = true ↔ 50 ≤ r.tpMv ∧ r.tpMv ≤ 1850) ∧ (t.pwr.tvValid = true ↔ 50 ≤ r.tvMv ∧ r.tvMv ≤ 1850)
    ∧ t.pwr.tp = (if 50 ≤ r.tpMv ∧ r.tpMv ≤ 1850 then (r.tpMv : Int) - 600 else s.pwr.tp)
    ∧ t.pwr.tv = (if 50 ≤ r.tvMv ∧ r.tvMv ≤ 1850 then (r.tvMv : Int) - 600 else s.pwr.tv)

/-- Q after the current of a reading, and the empty sync with the mark that lets it count once in a run (R138, R139): the mark is set
once the run stands at 60, stays while the run lasts and ends with it. The state of charge that the reading then takes from Q
(R138). -/
def Obligations.ChargeCountFollowsTheCurrent : Prop :=
  (∀ s : State,
    let x : Int := s.bat.q + if s.pwr.ib < 0 then s.pwr.ib else s.pwr.ib * s.chargeEff / 100
    let q := (max 0 (min ((s.capacity * 3600 : Nat) : Int) x)).toNat
    let low : Prop := s.pwr.vb < s.vEmpty ∧ s.pwr.ib < 0
    let n := if s.pwr.vb < s.vEmpty ∧ s.pwr.ib < 0 then min (s.bat.empty + 1) 60 else 0
    let t := coulombStep s
    t.bat.empty = n
      ∧ t.bat.q = (if 60 ≤ n then min q (s.capacity * 36 * 5) else q)
      ∧ t.bat.emptySyncs =
          (if 60 ≤ n ∧ s.bat.emptyCounted = false then inc16 s.bat.emptySyncs else s.bat.emptySyncs)
      ∧ (t.bat.emptyCounted = true ↔ 60 ≤ n ∨ low ∧ s.bat.emptyCounted = true)
      ∧ (¬ low → t.bat.emptyCounted = false)
      ∧ ((s.bat.emptyCounted = true ↔ s.bat.empty = 60) →
          (t.bat.emptyCounted = true ↔ t.bat.empty = 60)
          ∧ t.bat.emptySyncs = (if n = 60 ∧ s.bat.empty ≠ 60 then inc16 s.bat.emptySyncs else s.bat.emptySyncs)))
  ∧ ∀ s : State, (classStep s).bat.soc = s.bat.q * 100 / (s.capacity * 3600) ∧ (classStep s).bat.q = s.bat.q

/-- FULL_SYNC, ABSORB_TIME_LIMIT, FLOAT_LOW_RECHARGE, EMPTY_SYNC and CHARGE_HOLD_EXPIRY, each where its run, time or hold
has reached its limit (R139, R150, R151, R154). The model's choices: log 4, log 33 (a return from FLOAT to BULK keeps the
float-low run, and the absorb time and the term run of the last ABSORB). -/
def Obligations.ChargerTimersAct : Prop :=
  ∀ s : State, s.powered = true →
    (s.bat.charge = .absorb → 60 ≤ s.bat.term →
      exec .fullSync s = .next { s with bat := { s.bat with
        charge := .float, floatLow := 0, restarts := 0, q := s.full, fullSyncs := inc16 s.bat.fullSyncs,
        soc := s.full * 100 / s.full } })
    ∧ (s.moment.boundary = true → s.bat.charge = .absorb → s.absorbMax * 60 ≤ s.bat.absorb → s.bat.term < 60 →
      exec .absorbTimeLimit s = .next { s with bat := { s.bat with charge := .float, floatLow := 0, restarts := 0 } })
    ∧ (s.bat.charge = .float → 60 ≤ s.bat.floatLow →
      exec .floatLowRecharge s = .next { s with bat := { s.bat with charge := .bulk, limit := s.iBulk } })
    ∧ (60 ≤ s.bat.empty → s.bat.emptyCounted = false →
      exec .emptySync s = .next { s with bat := { s.bat with
        q := min s.bat.q (s.capacity * 36 * 5), emptySyncs := inc16 s.bat.emptySyncs, emptyCounted := true } })
    ∧ (∀ h, s.bat.hold = some h → s.moment.boundary = true → s.quietMax ≤ h →
      exec .chargeHoldExpiry s = .next { s with bat := { s.bat with hold := none } })

/-- Steps 3 and 4 of a reading (R138): the charge hold and the fault check (R154, R147), whose cause stands until the next
reading (the cause that CHARGE_RESTART meets, R155), FAULT and its automatic restart (R152),
the evaluation (R148), BULK, ABSORB and FLOAT with the step of the limit, its withholding under a hold and its one signal (R149
to R151, R154), and the conditions reported (R153); CHARGER_AUTO_RESTART by itself. The model's choices: log 4, log 33 (the
timers and runs that no rule sets stay). -/
def Obligations.ChargerFollowsTheReading : Prop :=
  (∀ s : State,
    let t := chargeReading s
    let vb := s.pwr.vb
    let run := if ((s.iBulk * 3 / 2 : Nat) : Int) < s.pwr.ib then min (s.bat.overRun + 1) 5 else 0
    let fault : Prop := s.vOver < vb ∨ run = 5
    let hold := match s.bat.hold with
      | none => none
      | some h => if s.quietMax ≤ h + 1 then none else some (min (h + 1) 900)
    let usable : Prop := s.pwr.solar = true ∧ s.tChargeMin ≤ s.pwr.tp ∧ s.pwr.tp ≤ s.tChargeMax
    let stepped (v : Nat) : Nat :=
      (max 0 (min (s.iBulk : Int) (s.bat.limit + if v < vb then -100 else if vb < v then 100 else 0))).toNat
    let kept := min s.bat.limit s.iBulk
    let limited (v : Nat) : Nat := if hold.isSome = true then kept else stepped v
    t.bat.overRun = run ∧ (t.bat.cause = true ↔ fault) ∧ t.bat.hold = hold
    ∧ (t.mon.conds[(11 : CondId)].status = true ↔ t.bat.charge = .coldHold)
    ∧ (t.mon.conds[(12 : CondId)].status = true ↔ t.bat.charge = .fault)
    ∧ (fault → s.bat.charge ≠ .fault → t.bat.charge = .fault ∧ t.bat.limit = 0 ∧ t.bat.absorb = 0 ∧ t.bat.term = 0
        ∧ t.bat.floatLow = 0 ∧ t.bat.clear = 0 ∧ t.bat.faults = inc16 s.bat.faults ∧ t.bat.restarts = s.bat.restarts)
    ∧ (fault → s.bat.charge = .fault → t.bat.charge = .fault ∧ t.bat.clear = 0 ∧ t.bat.faults = s.bat.faults)
    ∧ (¬ fault → s.bat.charge = .fault →
        s.chargeRestart = true ∨ 3 ≤ s.bat.restarts ∨ min (s.bat.clear + 1) 600 < 600 →
        t.bat.charge = .fault ∧ t.bat.clear = min (s.bat.clear + 1) 600 ∧ t.bat.restarts = s.bat.restarts)
    ∧ (¬ fault → s.bat.charge = .fault → s.chargeRestart = false → s.bat.restarts < 3 → 599 ≤ s.bat.clear →
        t.bat.restarts = s.bat.restarts + 1
        ∧ t.bat.charge = (if s.pwr.solar = false then .idle else if s.pwr.tp < s.tChargeMin then .coldHold
            else if s.tChargeMax < s.pwr.tp then .hotHold else .bulk)
        ∧ t.bat.limit = (if t.bat.charge = .bulk then s.iBulk else 0))
    ∧ (¬ fault → s.bat.charge ≠ .fault → ¬ usable →
        t.bat.charge = (if s.pwr.solar = false then .idle else if s.pwr.tp < s.tChargeMin then .coldHold else .hotHold)
        ∧ t.bat.limit = 0
        ∧ (s.bat.charge = .absorb ∨ s.bat.charge = .float → t.bat.absorb = 0 ∧ t.bat.term = 0 ∧ t.bat.floatLow = 0))
    ∧ (¬ fault → usable → s.bat.charge = .idle ∨ s.bat.charge = .coldHold ∨ s.bat.charge = .hotHold →
        t.bat.charge = .bulk ∧ t.bat.limit = s.iBulk)
    ∧ (¬ fault → usable → s.bat.charge = .bulk → t.bat.limit = s.iBulk
        ∧ (vb < s.vAbsorb → t.bat.charge = .bulk)
        ∧ (s.vAbsorb ≤ vb → t.bat.charge = .absorb ∧ t.bat.absorb = 0 ∧ t.bat.term = 0))
    ∧ (¬ fault → usable → s.bat.charge = .absorb →
        let time := min (s.bat.absorb + 1) 36000
        let term := if s.pwr.ib < s.iTerm then min (s.bat.term + 1) 60 else 0
        t.bat.limit = limited s.vAbsorb
        ∧ (60 ≤ term → t.bat.charge = .float ∧ t.bat.floatLow = 0 ∧ t.bat.restarts = 0 ∧ t.bat.q = s.full
            ∧ t.bat.fullSyncs = inc16 s.bat.fullSyncs)
        ∧ (term < 60 → s.absorbMax * 60 ≤ time → t.bat.charge = .float ∧ t.bat.floatLow = 0 ∧ t.bat.restarts = 0
            ∧ t.bat.q = s.bat.q ∧ t.bat.fullSyncs = s.bat.fullSyncs)
        ∧ (term < 60 → time < s.absorbMax * 60 → t.bat.charge = .absorb ∧ t.bat.absorb = time ∧ t.bat.term = term
            ∧ t.bat.q = s.bat.q))
    ∧ (¬ fault → usable → s.bat.charge = .float →
        let low := if vb + 300 < s.vFloat then min (s.bat.floatLow + 1) 60 else 0
        (60 ≤ low → t.bat.charge = .bulk ∧ t.bat.limit = s.iBulk)
        ∧ (low < 60 → t.bat.charge = .float ∧ t.bat.floatLow = low ∧ t.bat.limit = limited s.vFloat))
    ∧ (∀ v r, ¬ fault → usable → s.bat.charge = .absorb ∧ v = s.vAbsorb ∨ s.bat.charge = .float ∧ v = s.vFloat →
        hold.isSome = true → stepped v ≠ kept → s.bat.holdFlagged = false → s.evt.record = some r →
        t.bat.holdFlagged = true ∧ t.evt.record = some { r with flags := { r.flags with heatHeld := true } }))
  ∧ ∀ s : State, s.powered = true → s.moment.boundary = true → s.bat.charge = .fault → s.chargeRestart = false →
    s.bat.restarts < 3 → 600 ≤ s.bat.clear →
    ∃ t, exec .chargerAutoRestart s = .next t ∧ t.bat.restarts = s.bat.restarts + 1
      ∧ t.bat.charge = (if s.pwr.solar = false then .idle else if s.pwr.tp < s.tChargeMin then .coldHold
          else if s.tChargeMax < s.pwr.tp then .hotHold else .bulk)
      ∧ t.bat.limit = (if t.bat.charge = .bulk then s.iBulk else 0)
      ∧ t.mon.conds[(12 : CondId)].status = false

/-- CHG_PWM_PERIOD: the duty latched from the limit in force, CHG_LIMIT high for duty × 10 cycles (R146); where the next
period starts is log 21. SAMPLE_PULSE_END, CHG_LIMIT_HIGH_END, HEAT_HIGH_TIME_END and CAL_SETTLE_EXPIRY: each output
goes low, and the settle timer expires, at its own cycle. -/
def Obligations.TimedLevelsFollowTheirCycles : Prop :=
  (∀ s u : State, s.powered = true → reach s.nextChgPeriod s = some u →
    exec .chgPwmPeriod s = .next { u with bat := { u.bat with
      duty := u.bat.limit * 1000 / 20000
      chgStart := u.osc
      chgHigh := decide (0 < u.bat.limit * 1000 / 20000)
      chgEnd := if 0 < u.bat.limit * 1000 / 20000 ∧ u.bat.limit * 1000 / 20000 < 1000 then
        some (u.osc + u.bat.limit * 1000 / 20000 * 10) else none } })
  ∧ (∀ (d : Nat) (s u : State), s.powered = true → reach d s = some u →
    (s.sch.sampleEnd = some d → exec .samplePulseEnd s = .next { u with sch := { u.sch with sampleEnd := none } })
    ∧ (s.bat.chgEnd = some d →
        exec .chgLimitHighEnd s = .next { u with bat := { u.bat with chgHigh := false, chgEnd := none } })
    ∧ (s.htr.heatEnd = some d →
        exec .heatHighTimeEnd s = .next { u with htr := { u.htr with heat := false, heatEnd := none } })
    ∧ (s.sch.settleEnd = some d → exec .calSettleExpiry s = .next { u with sch := { u.sch with settleEnd := none } }))

/-- SHED_ENTRY and SHED_EXIT, and the hand-over of a reading's class and power state, by which SECOND_BOUNDARY does the same work
(SecondBoundaryRollsTime). Entry to SHED cuts the loads (R143, R145, R18, R23, R49, R53, R134, R175): the record in progress closes
with SHED (R109), a running calibration is SKIPPED (R40); exit restores them (R144, R23, R49, R50, R175) and leaves the
modem line as it is. A change of class within one power state moves the GNSS supply (R23, R18), the supply of D1 (R49) and, to CRITICAL, cuts a
running calibration (R40); BATT_LOW and BATT_CRITICAL follow the class at every reading (R142). The model's choices: log 4 (the two
commands as steps of their own), log 9 (the order of the readers), log 40 (D0 before D1 at SHED entry). -/
def Obligations.ShedCutsAndRestoresTheLoads : Prop :=
  let skipped (s t : State) : Prop := ∀ c, s.runningCal = some c → t.sch.lines[c.sensor] = none
    ∧ t.sch.windows[c.sensor] = (if s.calSettle = 0 then .closed else .closing (s.osc + s.calSettle * 10000000))
    ∧ ∀ y ∈ t.sch.cals, y.id = c.id → y.outcome = .skipped
  let enabled (s : State) (p : PortId) : Prop := if p = 0 then s.digEnable0 = true else
    s.digEnable1 = true ∧ (s.bat.cls ≠ .critical ∨ s.shedD1Critical = false)
  let gnssOff (reason : HoldReason) (s t : State) : Prop := t.clk.label = none
    ∧ (s.clk.disc = .acquire ∨ s.clk.disc = .track →
        t.clk.disc = .holdover ∧ t.clk.reason = some reason ∧ t.clk.rLoss = s.clk.r ∧ t.clk.tLoss = s.pwr.tv)
    ∧ (s.clk.disc = .unset ∨ s.clk.disc = .holdover → t.clk.disc = s.clk.disc ∧ t.clk.reason =
        (if s.clk.disc = .holdover ∧ (reason = .shed ∨ s.clk.reason = some .ppsLoss) then some reason else s.clk.reason))
  let cut (s t : State) : Prop :=
    t.clk.supply = .shedOff ∧ (s.clk.supply ≠ .shedOff → gnssOff .shed s t)
    ∧ (∀ p : PortId, t.prt[p].link = .off ∧ t.prt[p].window = (if s.prt[p].link = .off then s.prt[p].window else none))
    ∧ t.mdm.link = .off ∧ (∀ a ∈ t.box.entries, a.inFlight = false)
    ∧ t.htr.state = (if s.htr.state = .shutdown then .shutdown else .off)
    ∧ (s.htr.state = .regulate ∨ s.htr.state = .held → t.htr.heat = false ∧ t.htr.heatEnd = none ∧ t.htr.latched = 0)
    ∧ skipped s t
    ∧ (s.evt.notes = [] → t.evt.state = .idle
      ∧ (s.evt.state = .opened ∨ s.evt.state = .closing → t.evt.record = none ∧ ∀ r k, s.evt.record = some r →
          s.evt.lastVoted = some k → t.evt.list.getLast? = some { r with
            state := .closed, close := some ⟨s.stamp, k.strobe, Machine.dist r.openStrobe k.strobe / s.sch.rate⟩,
            flags := { r.flags with shed := true } }))
  let restored (s t : State) : Prop :=
    (s.clk.supply = .shedOff → t.clk.supply = (if s.bat.cls = .normal then .continuous else .session)
      ∧ t.clk.disc = s.clk.disc ∧ t.clk.reason = s.clk.reason ∧ (s.bat.cls ≠ .normal → t.clk.session = 0 ∧ t.clk.hold = 0))
    ∧ (∀ p : PortId, s.prt[p].link = .off →
        (enabled s p → t.prt[p].link = .starting ∧ t.prt[p].startAt = s.osc) ∧ (¬ enabled s p → t.prt[p].link = .off))
    ∧ ((∀ p : PortId, s.prt[p].link = .off) → (s.htr.state = .shutdown → t.htr = s.htr)
        ∧ (s.htr.state = .off → t.htr = { s.htr with state := if s.heatEnable = false then .off
            else if s.htr.hold.isSome = true then .held else .regulate }))
    ∧ t.mdm = s.mdm
  (∀ s : State, s.powered = true → s.bat.power = .run → 10 ≤ s.bat.cutoff →
    ∃ t, exec .shedEntry s = .next t ∧ t.bat.power = .shed ∧ t.bat.power.load = false ∧ t.bat.cutoff = 0 ∧ t.bat.reconnect = 0
      ∧ t.bat.sheds = inc16 s.bat.sheds ∧ cut s t)
  ∧ (∀ s : State, s.powered = true → s.bat.power = .shed → 60 ≤ s.bat.reconnect →
    ∃ t, exec .shedExit s = .next t ∧ t.bat.power = .run ∧ t.bat.power.load = true ∧ t.bat.cutoff = 0 ∧ t.bat.reconnect = 0
      ∧ restored s t)
  ∧ (∀ (cls : BatClass) (power : PowerState) (s : State),
    let t := handOver cls power s
    t.bat.power = s.bat.power ∧ t.bat.cls = s.bat.cls
    ∧ (s.bat.power = .shed → power = .run → cut s t)
    ∧ (s.bat.power = .run → power = .shed → restored s t)
    ∧ (s.bat.power = power → s.bat.cls = cls → t = reportClass s)
    ∧ (s.bat.power = power → s.bat.cls ≠ cls →
      t.clk.supply = (if power = .shed then .shedOff else match s.clk.supply, s.bat.cls with
        | _, .normal => .continuous
        | .continuous, _ => .resting
        | .shedOff, _ => .session
        | x, _ => x)
      ∧ (power = .run → s.bat.cls ≠ .normal → s.clk.supply = .continuous → t.clk.rest = 0 ∧ gnssOff .gnssOff s t)
      ∧ (power = .run → s.bat.cls ≠ .normal → s.clk.supply = .session ∨ s.clk.supply = .resting → t.clk = s.clk)
      ∧ (power = .run → s.bat.cls = .normal → t.clk.disc = s.clk.disc ∧ t.clk.reason = s.clk.reason)
      ∧ (power = .shed → s.clk.supply = .shedOff → t.clk = s.clk)
      ∧ (∀ p : PortId, (power = .run → enabled s p → t.prt[p].link = if s.prt[p].link = .off then .starting else s.prt[p].link)
          ∧ (power = .shed ∨ ¬ enabled s p → t.prt[p].link = .off))
      ∧ (s.bat.cls = .critical → skipped s t)
      ∧ (s.bat.cls ≠ .critical ∨ s.runningCal = none →
          t.sch.cals = s.sch.cals ∧ t.sch.lines = s.sch.lines ∧ t.sch.windows = s.sch.windows)
      ∧ t.mdm = s.mdm))
  ∧ ∀ s : State, OnlyIn [.box, .mon] s (reportClass s)
    ∧ ((reportClass s).mon.conds[(9 : CondId)].status = true ↔ s.bat.cls ≠ .normal)
    ∧ ((reportClass s).mon.conds[(10 : CondId)].status = true ↔ s.bat.cls = .critical)

/-- HEATER_HOLD_EXPIRY, HEAT_FAULT_CLEARED, HEAT_FAULT_ASSERTED and HEATER_AUTO_RESTART (R170, R172, R173): the HEAT_FAULT
input changes no sooner than 10,000 cycles after its last change or power-on, and not at all to the level it has. The model's
choices: log 2 (a filter that is not over within the present second), log 4, log 20, log 39 (the hold's flagged mark stays). -/
def Obligations.HeaterEventsAct : Prop :=
  ∀ (dt : Nat) (s u : State), s.powered = true → u = elapse (max dt (s.htr.faultAt + 10000 - s.osc)) s →
    (∀ h, s.htr.hold = some h → s.moment.boundary = true → s.quietMax ≤ h →
      exec .heaterHoldExpiry s = .next { s with htr := { s.htr with
        hold := none, state := if s.htr.state = .held then .regulate else s.htr.state } })
    ∧ (s.htr.fault = false → exec (.heatFaultCleared dt) s = .next (elapse dt s))
    ∧ (s.htr.fault = true → exec (.heatFaultAsserted dt) s = .next (elapse dt s))
    ∧ (u.osc < s.htr.faultAt + 10000 →
      (s.htr.fault = true → exec (.heatFaultCleared dt) s = .next u)
      ∧ (s.htr.fault = false → exec (.heatFaultAsserted dt) s = .next u))
    ∧ (s.htr.faultAt + 10000 ≤ u.osc →
      (s.htr.fault = true →
        exec (.heatFaultCleared dt) s = .next { u with htr := { u.htr with fault := false, faultAt := u.osc } })
      ∧ (s.htr.fault = false → s.htr.state = .shutdown → exec (.heatFaultAsserted dt) s =
          .next { u with htr := { u.htr with fault := true, faultAt := u.osc, clear := 0 } })
      ∧ (s.htr.fault = false → s.htr.state ≠ .shutdown → ∃ t, exec (.heatFaultAsserted dt) s = .next t
        ∧ t.htr = { u.htr with fault := true, faultAt := u.osc, state := .shutdown, heat := false, heatEnd := none,
                               latched := 0, clear := 0, count := inc16 u.htr.count }))
    ∧ (s.moment.boundary = true → s.htr.state = .shutdown → 60 ≤ s.htr.clear → s.heatRestart = false →
      ∃ t, exec .heaterAutoRestart s = .next t ∧ t.htr = { s.htr with
        state := if s.bat.power = .shed ∨ s.heatEnable = false then .off
          else if s.htr.hold.isSome then .held else .regulate
        clear := 0 })

/-- The six stages of a reading: the energy of the second that has ended (R167, R168), the day and the budget (R168, R169), the
shutdown causes and the clear run (R172, R173), the hold time (R170), target, error, duty limit and request with the latched
duty that follows a lowered limit with HEAT and the end of its high time (R162, R163, R166), and the latch of a period start with
HEAT driven from it (R164, R165, R171). The model's choices: log 35 (duty 1000 in a lengthened period), log 39 (the flagged mark
after a hold). -/
def Obligations.HeaterFollowsTheReading : Prop :=
  ∀ s : State,
    let resumed : HeatState := if s.bat.power = .shed ∨ s.heatEnable = false then .off
      else if s.htr.hold.isSome then .held else .regulate
    let relatched (limit : Nat) (t : State) : Prop :=
      let stop := s.htr.periodAt + limit * s.htr.periodLen * 10000
      (s.htr.latched ≤ limit → t.htr.latched = s.htr.latched ∧ t.htr.heat = s.htr.heat ∧ t.htr.heatEnd = s.htr.heatEnd)
      ∧ (limit < s.htr.latched → t.htr.latched = limit
        ∧ (s.htr.heat = true → s.osc < stop → 0 < limit → t.htr.heat = true ∧ t.htr.heatEnd = some stop)
        ∧ (s.htr.heat = false ∨ stop ≤ s.osc ∨ limit = 0 → t.htr.heat = false ∧ t.htr.heatEnd = none))
    (let e := s.heaterPower * s.htr.latched
     let t := heaterEnergy s
     t.mon.figs.energy = min (s.mon.figs.energy + e) 4294967295
     ∧ t.mon.figs.onSeconds = (if 0 < s.htr.latched then inc16 s.mon.figs.onSeconds else s.mon.figs.onSeconds)
     ∧ t.htr = { s.htr with today := if s.htr.solarPrev = true then s.htr.today else min (s.htr.today + e) 1099511627775 })
    ∧ (let today := if s.clk.s / 86400 = s.htr.day then s.htr.today else 0
       heaterDay s = { s with htr := { s.htr with
         today := today, day := s.clk.s / 86400, spent := decide (s.dailyHeatBudgetLow * 3600000 ≤ today) } })
    ∧ (let cause : Prop := s.tHeaterCutoff < s.pwr.tp ∨ s.pwr.tpValid = false ∨ s.htr.fault = true
       let t := heaterCauses s
       (s.htr.state ≠ .shutdown → cause → t.htr = { s.htr with
          state := .shutdown, heat := false, heatEnd := none, latched := 0, clear := 0, count := inc16 s.htr.count }
          ∧ t.mon.conds[(13 : CondId)].status = true)
       ∧ (s.htr.state ≠ .shutdown → ¬ cause → t = s)
       ∧ (s.htr.state = .shutdown → cause → t = { s with htr := { s.htr with clear := 0 } })
       ∧ (s.htr.state = .shutdown → ¬ cause → s.htr.clear + 1 < 60 ∨ s.heatRestart = true →
          t = { s with htr := { s.htr with clear := min (s.htr.clear + 1) 60 } })
       ∧ (s.htr.state = .shutdown → ¬ cause → 60 ≤ s.htr.clear + 1 → s.heatRestart = false →
          t.htr = { s.htr with state := resumed, clear := 0 } ∧ t.mon.conds[(13 : CondId)].status = false))
    ∧ ((s.htr.hold = none → heaterHold s = s)
      ∧ ∀ h, s.htr.hold = some h →
        (h + 1 < s.quietMax → heaterHold s = { s with htr := { s.htr with hold := some (min (h + 1) 900) } })
        ∧ (s.quietMax ≤ h + 1 → heaterHold s = { s with htr := { s.htr with
            hold := none, state := if s.htr.state = .held then .regulate else s.htr.state } }))
    ∧ (let target := if s.pwr.solar = true ∧ (s.bat.charge = .coldHold ∨ s.bat.charge = .bulk ∨ s.bat.charge = .absorb
          ∨ s.bat.charge = .float) then s.tChargeMin + s.tChargeMargin else s.tKeepWarm
       let limit := match s.bat.cls with
         | .normal => s.dutyMaxNormal
         | .low => if s.htr.spent = true ∧ s.pwr.solar = false then 0 else s.dutyMaxLow
         | .critical => if s.pwr.solar = true then s.dutyMaxNormal else 0
       (heaterLaw s).htr.target = target ∧ (heaterLaw s).htr.error = target - s.pwr.tp ∧ (heaterLaw s).htr.limit = limit
         ∧ ((heaterLaw s).htr.request : Int) = max 0 (min (limit : Int) ((target - s.pwr.tp) * s.heatGain))
         ∧ (heaterLaw s).htr.latched = min s.htr.latched limit
         ∧ (heaterLaw s).htr.periodAt = s.htr.periodAt ∧ (heaterLaw s).htr.periodLen = s.htr.periodLen
         ∧ (∀ t, t = heaterLaw s ∨ t = relimit s → relatched limit t))
    ∧ (let t := heaterPeriod s
       let duty := if s.htr.state = .regulate then s.htr.request else if s.htr.state = .held then s.htr.latched else 0
       let withheld : Prop := s.htr.state = .held ∧ s.htr.request ≠ s.htr.latched
       (s.clk.s % s.heatPeriod ≠ 0 → t = s)
       ∧ (s.clk.s % s.heatPeriod = 0 → t.htr = { s.htr with
            latched := duty, period := some s.clk.s, periodAt := s.osc, periodLen := s.heatPeriod, heat := decide (0 < duty)
            heatEnd := if 0 < duty ∧ duty < 1000 then some (s.osc + duty * s.heatPeriod * 10000) else none
            holdFlagged := decide withheld || s.htr.holdFlagged }
          ∧ ∀ r, s.evt.record = some r → t.evt.record = some { r with flags := { r.flags with
              heatHeld := r.flags.heatHeld || (decide withheld && !s.htr.holdFlagged) } }))

/-! ### Station time -/

/-- Within the second, n oscillator cycles are n cycles of the oscillator count and n ticks, one more or one less for each
correction point that is passed, and the count of ticks goes with them (R1, R2); a cycle of the present second can be reached,
and only cycles pass on the way. -/
def Obligations.CyclesCountTime : Prop :=
  ∀ (n : Nat) (s : State), n < s.clk.cyclesLeft →
    (elapse n s).osc = s.osc + n ∧ OnlyIn Part.cycles s (elapse n s)
    ∧ (elapse n s).clk.ticks + s.clk.t = s.clk.ticks + (elapse n s).clk.t
    ∧ (s.clk.corr = [] → (elapse n s).clk.t = s.clk.t + n)
    ∧ (∀ p, s.clk.corr = [p] → s.clk.t ≤ p → n ≤ p - s.clk.t → (elapse n s).clk.t = s.clk.t + n)
    ∧ (∀ p, s.clk.corr = [p] → s.clk.t ≤ p → p - s.clk.t < n →
        (elapse n s).clk.t = (if s.clk.corrUp = true then s.clk.t + n + 1 else s.clk.t + n - 1))
    ∧ (s.clk.corr.Pairwise (fun p q => p + 2 ≤ q) → (∀ p ∈ s.clk.corr, s.clk.t ≤ p) → ∃ k, k ≤ s.clk.corr.length
        ∧ (elapse n s).clk.t = (if s.clk.corrUp = true then s.clk.t + n + k else s.clk.t + n - k)
        ∧ (elapse n s).clk.corr = s.clk.corr.drop k ∧ (∀ p ∈ s.clk.corr.take k, p ≤ (elapse n s).clk.t)
        ∧ ∀ p ∈ s.clk.corr.drop k, (elapse n s).clk.t ≤ p)
    ∧ (∃ u, reach (s.osc + n) s = some u ∧ u.osc = s.osc + n)

/-- SECOND_BOUNDARY: the seconds, the tick, the fraction accumulator, the corrections of the new second and its length
(R1, R2, R19), the uncertainty, which grows in HOLDOVER, saturating (R17), and the order in which the blocks work at it (R136,
R138, R161). The clock's own work: the PPS watch and HOLDOVER with PPS_LOSS on its expiry (R16), the rest, session and hold times,
the start of a session and its end with HOLDOVER or the reason GNSS_OFF (R24, R18), what an entry to HOLDOVER records and clears
(R18), and the three conditions (R22). The model's choices: log 6 (the order of the blocks; the watch before the session timers; a
clock that enters HOLDOVER at this boundary grows u first at the next), log 4 (what the moment keeps of the rest time's test). -/
def Obligations.SecondBoundaryRollsTime : Prop :=
  (∀ (r : Reading) (s : State), s.powered = true →
    let c := if s.clk.disc = .holdover then
        max (-2000) (min 2000 (s.clk.rLoss + roundDiv (s.tempco * (s.pwr.tv - s.clk.tLoss)) 10)) else s.clk.c
    let whole := Int.tdiv (s.clk.acc + c) 100
    ∃ t, exec (.secondBoundary r) s = .next t
      ∧ t.clk.s = (s.clk.s + 1) % 4294967296 ∧ t.clk.t = 0 ∧ t.osc = s.osc + s.clk.cyclesLeft
      ∧ t.clk.ticks = s.clk.ticks + (10000000 - s.clk.t)
      ∧ t.clk.acc = s.clk.acc + c - whole * 100
      ∧ t.clk.corr = (List.range whole.natAbs).map (fun i => 250000 + 500000 * i)
      ∧ t.clk.corrUp = decide (0 < whole)
      ∧ (s.ratesBounded → (t.clk.cyclesLeft : Int) = 10000000 - whole)
      ∧ t.clk.u = (if s.clk.disc = .holdover then min (s.clk.u + s.driftBound) 4294967295 else s.clk.u)
      ∧ t.sch.started = true ∧ t.sch.point = 0)
  ∧ (∀ (r : Reading) (s : State), s.powered = true → exec (.secondBoundary r) s = .next
      (beginSecond (calBoundary (pendingMapTest (pendingRate (endDue (powerReading r
        (passNotBefores (intervalTest (clockBoundary s))))))))))
  ∧ (∀ (r : Reading) (s : State), powerReading r s = heaterReading (batteryReading (takeReading r s)))
  ∧ (∀ s : State, batteryReading s = handOver s.bat.cls s.bat.power (classStep (chargeReading (coulombStep s))))
  ∧ (∀ s : State,
    let t := heaterPeriod (heaterLaw (heaterHold (heaterCauses (heaterDay (heaterEnergy s)))))
    heaterReading s = { t with htr := { t.htr with solarPrev := t.pwr.solar } })
  ∧ ∀ s : State,
    let t := clockBoundary s
    let running : Prop := s.clk.disc = .acquire ∨ s.clk.disc = .track
    let on : Prop := s.clk.supply = .continuous ∨ s.clk.supply = .session
    let expired : Prop := running ∧ on ∧ s.ppsPrescale + 2 ≤ s.clk.watch + 1
    let held := if s.clk.disc = .track ∧ ¬ expired then s.clk.hold + 1 else 0
    let ends : Prop := s.clk.supply = .session ∧ (s.gnssHoldAfterLock ≤ held ∨ s.gnssSessionMax * 60 ≤ s.clk.session + 1)
    let interval := if s.bat.cls = .critical then s.gnssSessionCritical * 3600 else s.gnssSessionLow * 3600
    let due : Prop := s.clk.supply = .resting ∧ interval ≤ s.clk.rest + 1
    let entered : Prop := expired ∨ ends ∧ running
    t.clk.u = (if s.clk.disc = .holdover then min (s.clk.u + s.driftBound) 4294967295 else s.clk.u)
    ∧ t.clk.watch = (if running ∧ on then s.clk.watch + 1 else s.clk.watch)
    ∧ t.clk.r = s.clk.r ∧ t.clk.steps = s.clk.steps
    ∧ (entered → t.clk.disc = .holdover ∧ t.clk.rLoss = s.clk.r ∧ t.clk.tLoss = s.pwr.tv
        ∧ t.clk.c = max (-2000) (min 2000 s.clk.r) ∧ t.clk.lock = 0 ∧ t.clk.unlock = 0 ∧ t.clk.mismatch = 0
        ∧ t.clk.offset = none ∧ t.clk.stepDeferred = false)
    ∧ (¬ entered → t.clk.disc = s.clk.disc ∧ t.clk.rLoss = s.clk.rLoss ∧ t.clk.tLoss = s.clk.tLoss
        ∧ t.clk.lock = s.clk.lock ∧ t.clk.unlock = s.clk.unlock ∧ t.clk.mismatch = s.clk.mismatch
        ∧ t.clk.offset = s.clk.offset ∧ t.clk.stepDeferred = s.clk.stepDeferred
        ∧ t.clk.c = (if s.clk.disc = .holdover then
            max (-2000) (min 2000 (s.clk.rLoss + roundDiv (s.tempco * (s.pwr.tv - s.clk.tLoss)) 10)) else s.clk.c))
    ∧ t.clk.reason = (if ends ∧ (running ∨ s.clk.disc = .holdover ∧ s.clk.reason = some .ppsLoss) then some .gnssOff
        else if expired then some .ppsLoss else s.clk.reason)
    ∧ t.clk.supply = (if ends then .resting else if due then .session else s.clk.supply)
    ∧ t.clk.session = (if s.clk.supply = .session then s.clk.session + 1 else if due then 0 else s.clk.session)
    ∧ t.clk.hold = (if ends ∨ due ∨ expired then 0
        else if s.clk.supply = .session then held else s.clk.hold)
    ∧ t.clk.rest = (if ends then 0 else if s.clk.supply = .resting then s.clk.rest + 1 else s.clk.rest)
    ∧ t.clk.label = (if ends then none else s.clk.label) ∧ t.clk.rx = (if ends ∨ due then [] else s.clk.rx)
    ∧ t.moment = { restDue := decide due }
    ∧ (t.mon.conds[(0 : CondId)].status = true ↔ t.clk.disc = .holdover ∧ t.clk.reason = some .ppsLoss)
    ∧ (t.mon.conds[(1 : CondId)].status = true ↔ s.holdoverLimit * 1000 < t.clk.u)
    ∧ (t.mon.conds[(2 : CondId)].status = true ↔ t.clk.disc = .unset)
    ∧ OnlyIn [.clk, .time, .supplyView, .osc, .moment, .box, .mon] s t

/-- R7: the phase error, the edge second and the values of P. -/
def Obligations.PhaseErrorAndEdgeSecond : Prop :=
  (∀ x : Time, x.t ≤ 9999999 →
    -5000000 ≤ phaseError x.t ∧ phaseError x.t ≤ 4999999
      ∧ (x.t ≤ 4999999 → phaseError x.t = x.t) ∧ (4999999 < x.t → phaseError x.t = (x.t : Int) - 10000000)
      ∧ (0 ≤ phaseError x.t → edgeSecond x = x.s) ∧ (phaseError x.t < 0 → edgeSecond x = (x.s + 1) % 4294967296))
  ∧ State.reset.ppsPrescale = 1
  ∧ ∀ s : State, s.paramsFit → s.ppsPrescale = 1 ∨ s.ppsPrescale = 4 ∨ s.ppsPrescale = 16

/-- A qualified capture of the PPS input with stamp x, whose edge came at the count `since` of ticks: what the supply, the
window and the label do with it (R5, R6), the setting of an UNSET clock and its deferral (R8, R9), the seconds check (R11),
the steering in ACQUIRE and TRACK with the uncertainty, the lock count and the unlock count (R13 to R15, R17), the phase step and
its deferral, with a seconds correction of the same capture (R10, R11, R15), the exit from HOLDOVER (R19), and the three
conditions of the clock (R22): all of it for captures with a label of fix 2 and without a label. The model's choices: log 8 (in
UNSET the flag of a deferred setting stays set at its own capture), log 34 (PPS_LOST is reported before the step). -/
def Obligations.CapturesAreJudgedAndSteer : Prop :=
  ∀ (x : Time) (since : Nat) (s : State),
    let e := phaseError x.t
    let t := ppsCapture x since s
    let inside := s.clk.disc ≠ .track ∨ e.natAbs ≤ s.ppsWindow
    let accepted : Prop := s.clk.supply.on = true ∧ inside ∧ ∀ l, s.clk.label = some l → l.fix = 2
    let corrected : Option Int := match s.clk.label with
      | none => none
      | some l =>
        let off := signed32 ((l.secs : Int) - edgeSecond x)
        if off ≠ 0 ∧ s.clk.offset = some off ∧ 2 ≤ s.clk.mismatch ∧ s.eventActive = false ∧ s.calRunning = false then some off
        else none
    let steered : Prop :=
      t.clk.r = max (-2000) (min 2000 (s.clk.r - roundDiv (e * 100) (s.ppsPrescale * s.gainI)))
      ∧ t.clk.c = max (-2000) (min 2000 (t.clk.r - roundDiv (e * 100) (s.ppsPrescale * s.gainP)))
      ∧ t.clk.u = e.natAbs * 100 + 100 ∧ t.clk.watch = 0 ∧ t.clk.label = none ∧ t.clk.t = s.clk.t
      ∧ t.clk.s = (match corrected with
        | none => s.clk.s
        | some off => (((s.clk.s : Int) + off) % 4294967296).toNat)
      ∧ t.clk.steps = (if corrected.isSome = true then inc16 s.clk.steps else s.clk.steps)
      ∧ (t.clk.mismatch ≠ 3 → t.clk.stepDeferred = false)
      ∧ (s.clk.label = none → t.clk.mismatch = s.clk.mismatch ∧ t.clk.offset = s.clk.offset)
    (s.clk.supply.on = false → t = s)
    ∧ (s.clk.supply.on = true → s.clk.disc = .track → s.ppsWindow < e.natAbs →
        t = { s with mrk := { s.mrk with windowRej := inc16 s.mrk.windowRej } })
    ∧ (∀ l, s.clk.supply.on = true → inside → s.clk.label = some l → l.fix ≠ 2 →
        t.clk = { s.clk with label := none, unfixed := inc16 s.clk.unfixed })
    ∧ (∀ l, s.clk.supply.on = true → s.clk.disc = .unset → s.clk.label = some l → l.fix = 2 →
        let late := s.clk.ticks - since
        (s.eventActive = false → s.calRunning = false → t.clk = { s.clk with
          s := (l.secs + late / 10000000) % 4294967296, t := late % 10000000, disc := .acquire, label := none, lock := 1,
          unlock := 0, mismatch := 0, stepDeferred := false, watch := 0, hold := 0, u := 100, steps := inc16 s.clk.steps,
          r := max (-2000) (min 2000 s.clk.r), c := max (-2000) (min 2000 s.clk.r) })
        ∧ (s.eventActive = true ∨ s.calRunning = true → t.clk = { s.clk with label := none, stepDeferred := true }
          ∧ ∀ y, s.evt.record = some y → t.evt.record = some { y with flags := { y.flags with stepDeferred := true } }))
    ∧ (∀ l, s.clk.supply.on = true → inside → s.clk.disc = .acquire ∨ s.clk.disc = .track → s.clk.label = some l →
        l.fix = 2 →
        let off := signed32 ((l.secs : Int) - edgeSecond x)
        t.clk.label = none
        ∧ (off = 0 → t.clk.mismatch = 0 ∧ t.clk.offset = none)
        ∧ (off ≠ 0 → s.clk.offset ≠ some off → t.clk.mismatch = 1 ∧ t.clk.offset = some off)
        ∧ (off ≠ 0 → s.clk.offset = some off → s.clk.mismatch < 2 →
            t.clk.mismatch = s.clk.mismatch + 1 ∧ t.clk.offset = some off)
        ∧ (off ≠ 0 → s.clk.offset = some off → 2 ≤ s.clk.mismatch →
          (s.eventActive = true ∨ s.calRunning = true →
            t.clk.mismatch = 3 ∧ t.clk.offset = some off ∧ t.clk.stepDeferred = true)
          ∧ (s.eventActive = false → s.calRunning = false → t.clk.mismatch = 0 ∧ t.clk.offset = none
            ∧ (e.natAbs ≤ s.stepThreshold → t.clk.s = (((s.clk.s : Int) + off) % 4294967296).toNat ∧ t.clk.t = s.clk.t
                ∧ t.clk.steps = inc16 s.clk.steps))))
    ∧ (accepted → s.clk.disc = .track → e.natAbs ≤ s.stepThreshold →
        let n := if s.lockWindow < e.natAbs then min (s.clk.unlock + 1) 4 else 0
        steered ∧ t.clk.disc = (if 4 ≤ n then .acquire else .track) ∧ t.clk.unlock = (if 4 ≤ n then 0 else n)
        ∧ (4 ≤ n → t.clk.lock = 0))
    ∧ (accepted → s.clk.disc = .acquire → e.natAbs ≤ s.stepThreshold →
        let n := if e.natAbs ≤ s.lockWindow then min (s.clk.lock + 1) 8 else 0
        steered ∧ t.clk.disc = (if 8 ≤ n then .track else .acquire) ∧ t.clk.lock = (if 8 ≤ n then 0 else n)
        ∧ (8 ≤ n → t.clk.unlock = 0))
    ∧ (accepted → s.clk.disc ≠ .unset → s.stepThreshold < e.natAbs →
        t.clk.disc = .acquire ∧ t.clk.lock = 0 ∧ t.clk.watch = 0 ∧ t.clk.u = e.natAbs * 100 + 100 ∧ t.clk.r = s.clk.r
        ∧ t.clk.label = none ∧ (s.clk.disc ≠ .acquire → t.clk.hold = 0)
        ∧ (s.eventActive = false → s.calRunning = false →
            t.clk.s = (((s.clk.s : Int) + corrected.getD 0 + ((s.clk.t : Int) - e) / 10000000) % 4294967296).toNat
            ∧ t.clk.t = (((s.clk.t : Int) - e) % 10000000).toNat ∧ t.clk.c = s.clk.r
            ∧ t.clk.steps = (if corrected.isSome = true then inc16 (inc16 s.clk.steps) else inc16 s.clk.steps))
        ∧ (s.eventActive = true ∨ s.calRunning = true →
            t.clk.s = s.clk.s ∧ t.clk.t = s.clk.t ∧ t.clk.stepDeferred = true ∧ t.clk.steps = s.clk.steps
            ∧ t.clk.c = (if 0 < e then -2000 else 2000)
            ∧ ∀ y, s.evt.record = some y → t.evt.record = some { y with flags := { y.flags with stepDeferred := true } }))
    ∧ (accepted → s.clk.disc = .holdover →
        t.clk.reason = none ∧ t.clk.rLoss = 0 ∧ t.clk.tLoss = 0
        ∧ (e.natAbs ≤ s.stepThreshold → steered ∧ t.clk.disc = .acquire
            ∧ t.clk.lock = (if e.natAbs ≤ s.lockWindow then 1 else 0))
        ∧ (s.mon.conds[(0 : CondId)].status = true → t.mon.conds[(0 : CondId)].last = some s.stamp))
    ∧ (s.clk.supply.on = true → inside →
        (t.mon.conds[(0 : CondId)].status = true ↔ t.clk.disc = .holdover ∧ t.clk.reason = some .ppsLoss)
        ∧ (t.mon.conds[(1 : CondId)].status = true ↔ s.holdoverLimit * 1000 < t.clk.u)
        ∧ (t.mon.conds[(2 : CondId)].status = true ↔ t.clk.disc = .unset))

/-- An accepted ACQUIRE capture without a label whose phase error is above the threshold: the step where stepping is
permitted, the slew and the flag where it is forbidden (R9, R10, R17); an accepted UNSET capture without a label, which R8
discards, clears the flag unless a seconds correction waits (R12). The model's choices: log 8 (that capture clears the flag). -/
def Obligations.PhaseStepIsTakenOrDeferred : Prop :=
  (∀ (x : Time) (since : Nat) (s : State), s.clk.disc = .unset → acceptedCapture x since none s =
    if s.clk.mismatch = 3 then s else { s with clk := { s.clk with stepDeferred := false } })
  ∧ ∀ (x : Time) (since : Nat) (s : State), s.clk.disc = .acquire → s.stepThreshold < (phaseError x.t).natAbs →
    let e := phaseError x.t
    let t := acceptedCapture x since none s
    t.clk.lock = 0 ∧ t.clk.disc = .acquire ∧ t.clk.u = e.natAbs * 100 + 100 ∧ t.clk.r = s.clk.r
      ∧ (s.eventActive = false → s.calRunning = false →
          t.clk.s = (((s.clk.s : Int) + ((s.clk.t : Int) - e) / 10000000) % 4294967296).toNat
          ∧ t.clk.t = (((s.clk.t : Int) - e) % 10000000).toNat ∧ t.clk.c = s.clk.r ∧ t.clk.steps = inc16 s.clk.steps)
      ∧ (s.eventActive = true ∨ s.calRunning = true →
          t.clk.s = s.clk.s ∧ t.clk.t = s.clk.t ∧ t.clk.stepDeferred = true ∧ t.clk.steps = s.clk.steps
          ∧ t.clk.c = (if 0 < e then -2000 else 2000))

/-- TRACK_ENTRY and TRACK_UNLOCK (R14, R15); SECONDS_CORRECTION: taken where stepping is permitted, waiting where it is
forbidden (R11). The model's choices: log 4. -/
def Obligations.ClockCommandsAct : Prop :=
  (∀ s : State, s.powered = true →
    (s.clk.disc = .acquire → 8 ≤ s.clk.lock →
      exec .trackEntry s = .next { s with clk := { s.clk with disc := .track, lock := 0, unlock := 0, hold := 0 } })
    ∧ (s.clk.disc = .track → 4 ≤ s.clk.unlock →
      exec .trackUnlock s = .next { s with clk := { s.clk with
        disc := .acquire, lock := 0, watch := 0, hold := 0, unlock := 0 } }))
  ∧ ∀ (off : Int) (s : State), s.powered = true → s.clk.offset = some off → s.moment.capture = true → s.clk.mismatch = 3 →
    s.clk.disc = .acquire ∨ s.clk.disc = .track →
    ∃ t, exec .secondsCorrection s = .next t ∧ t.clk.t = s.clk.t ∧ t.clk.disc = s.clk.disc
      ∧ (s.eventActive = false → s.calRunning = false →
          t.clk.s = (((s.clk.s : Int) + off) % 4294967296).toNat ∧ t.clk.mismatch = 0 ∧ t.clk.offset = none
          ∧ t.clk.steps = inc16 s.clk.steps)
      ∧ (s.eventActive = true ∨ s.calRunning = true →
          t.clk.s = s.clk.s ∧ t.clk.mismatch = 3 ∧ t.clk.offset = some off ∧ t.clk.stepDeferred = true
          ∧ ∀ r, s.evt.record = some r → t.evt.record = some { r with flags := { r.flags with stepDeferred := true } })

/-- PPS_WATCH_EXPIRY enters HOLDOVER with reason PPS_LOSS; GNSS_SESSION_START and GNSS_SESSION_END switch the supply; a rest
time that its count brings to the interval of the class starts a session at that boundary (R16, R18, R24). A watch that expires
at the boundary at which the session ends asserts PPS_LOST and clears it again, each at its own change (R22). The model's choices:
log 4, log 6 (the watch before the session timers). -/
def Obligations.HoldoverAndSessions : Prop :=
  (∀ s : State, s.powered = true → s.moment.boundary = true → s.clk.disc = .acquire ∨ s.clk.disc = .track →
    s.clk.supply = .continuous ∨ s.clk.supply = .session → s.ppsPrescale + 2 ≤ s.clk.watch →
    ∃ t, exec .ppsWatchExpiry s = .next t ∧ t.clk = { s.clk with
      disc := .holdover, reason := some .ppsLoss, rLoss := s.clk.r, tLoss := s.pwr.tv, lock := 0, unlock := 0,
      mismatch := 0, offset := none, stepDeferred := false, hold := 0, c := max (-2000) (min 2000 s.clk.r) })
  ∧ (∀ s : State, s.clk.supply = .resting →
    let interval := if s.bat.cls = .critical then s.gnssSessionCritical * 3600 else s.gnssSessionLow * 3600
    let rested := { s.clk with rest := s.clk.rest + 1 }
    (s.clk.rest + 1 < interval → tickSupply s = { s with clk := rested })
    ∧ (interval ≤ s.clk.rest + 1 → tickSupply s = { s with
        clk := { rested with supply := .session, rx := [], session := 0, hold := 0 }
        moment := { s.moment with restDue := true } }))
  ∧ (∀ s : State, s.powered = true →
    (s.moment.restDue = true → s.clk.supply = .resting →
      exec .gnssSessionStart s = .next { s with clk := { s.clk with supply := .session, rx := [], session := 0, hold := 0 } })
    ∧ (s.moment.restDue = false ∨ s.clk.supply ≠ .resting → exec .gnssSessionStart s = .next s)
    ∧ (s.moment.boundary = true → s.clk.supply = .session → s.gnssHoldAfterLock ≤ s.clk.hold ∨ s.gnssSessionMax * 60 ≤ s.clk.session →
      ∃ t, exec .gnssSessionEnd s = .next t ∧ t.clk.supply = .resting ∧ t.clk.rest = 0 ∧ t.clk.label = none
        ∧ (s.clk.disc = .acquire ∨ s.clk.disc = .track → t.clk.disc = .holdover ∧ t.clk.reason = some .gnssOff)))
  ∧ ∀ s : State, s.clk.disc = .acquire ∨ s.clk.disc = .track → s.clk.supply = .session → s.ppsPrescale + 2 ≤ s.clk.watch + 1 →
    s.gnssSessionMax * 60 ≤ s.clk.session + 1 → s.mon.conds[(0 : CondId)].status = false →
    let t := clockBoundary s
    t.clk.disc = .holdover ∧ t.clk.reason = some .gnssOff ∧ t.clk.supply = .resting ∧ t.clk.rest = 0
      ∧ t.mon.conds[(0 : CondId)].status = false
      ∧ t.mon.conds[(0 : CondId)].changes = inc16 (inc16 s.mon.conds[(0 : CondId)].changes)

/-- GNSS_LABEL, GNSS_LABEL_TIMEOUT and GNSS_FRAMING_ERROR (R4, R216); with the supply off the bytes do nothing (log 15). -/
def Obligations.LabelsAreLatchedOrCounted : Prop :=
  ∀ (dt : Nat) (a b c d fix check : Byte) (s u : State), s.powered = true → u = elapse dt s →
    (u.clk.supply.on = false → ∀ bytes, exec (.gnssLabel dt bytes) s = .next u)
    ∧ (u.clk.supply.on = true → u.clk.rx = [] →
      exec (.gnssLabel dt [0x9A, 0x1E, a, b, c, d, fix, check]) s = .next { u with
        clk := if check = crc8 [a, b, c, d, fix] ∧ fix.toNat ≤ 2 then
          { u.clk with lastByte := u.osc, div := u.gnssDivisor,
                       label := some ⟨ofBytes [a, b, c, d], fix.toNat⟩ }
        else { u.clk with lastByte := u.osc, div := u.gnssDivisor, labelErrors := inc16 u.clk.labelErrors } })
    ∧ (∀ v, s.clk.rx ≠ [] → reach s.gnssGap s = some v → exec .gnssLabelTimeout s = .next { v with clk := { v.clk with
        rx := [], labelErrors := if 2 ≤ s.clk.rx.length then inc16 v.clk.labelErrors else v.clk.labelErrors } })
    ∧ exec (.gnssFramingError dt) s = .next { u with clk := { u.clk with
        rx := [], labelErrors := if 2 ≤ u.clk.rx.length then inc16 u.clk.labelErrors else u.clk.labelErrors } }

/-! ### Marks -/

/-- INPUT_EDGE and INPUT_LEVEL_RETURN: an edge starts its width count or goes on at once, an early return discards it
(R27). The model's choices: log 30 (a return at or after the complete width qualifies the edge inside this command; on a
disabled input only the level is followed). -/
def Obligations.EdgesAreTested : Prop :=
  ∀ (dt : Nat) (i : Input) (s u : State), s.powered = true → u = elapse dt s →
    (¬ (u.mrk.input i).high = u.selectedLevel i →
      (u.prescale i = 0 → exec (.inputEdge dt i) s =
        .next (setInput i { u.mrk.input i with high := u.selectedLevel i } u))
      ∧ (u.prescale i ≠ 0 → u.minWidth i ≠ 0 → exec (.inputEdge dt i) s =
        .next (setInput i { u.mrk.input i with high := u.selectedLevel i, edge := some ⟨u.stamp, u.osc, u.clk.ticks⟩ } u))
      ∧ (u.prescale i ≠ 0 → u.minWidth i = 0 → exec (.inputEdge dt i) s =
        .next (qualify i ⟨u.stamp, u.osc, u.clk.ticks⟩ (setInput i { u.mrk.input i with high := u.selectedLevel i } u))))
    ∧ ((u.mrk.input i).high = u.selectedLevel i →
      ((u.mrk.input i).edge = none → exec (.inputLevelReturn dt i) s =
        .next (setInput i { u.mrk.input i with high := !u.selectedLevel i } u))
      ∧ (∀ x, (u.mrk.input i).edge = some x → u.osc < x.cycle + u.minWidth i → ∃ t,
        exec (.inputLevelReturn dt i) s = .next t ∧ t.mrk.input i = { u.mrk.input i with
          high := !u.selectedLevel i, edge := none }
        ∧ t.mrk.widthRej = (if i = .pps then inc16 u.mrk.widthRej else u.mrk.widthRej) ∧ t.mrk.marks = u.mrk.marks)
      ∧ (∀ x, (u.mrk.input i).edge = some x → x.cycle + u.minWidth i ≤ u.osc → exec (.inputLevelReturn dt i) s =
        .next (qualify i x (setInput i { u.mrk.input i with high := !u.selectedLevel i } u))))

/-- EDGE_QUALIFIED: the edge whose width count completes goes through the holdoff and the prescaler (R27 to R30); a mark capture
enters the Mark List, which keeps the newest sixteen (R31). -/
def Obligations.QualifiedEdgesAreCounted : Prop :=
  (∀ (x : EdgeTest) (s u : State), s.powered = true →
    (s.mrk.pps.edge = some x → reach (x.cycle + s.ppsMinWidth) s = some u →
      (∀ p, u.mrk.lastPass = some p → x.cycle < p + 5000000 →
        exec (.edgeQualified .pps) s = .next { u with mrk := { u.mrk with
          pps := { u.mrk.pps with edge := none }, holdoffRej := inc16 u.mrk.holdoffRej } })
      ∧ ((∀ p, u.mrk.lastPass = some p → p + 5000000 ≤ x.cycle) → u.mrk.pps.count + 1 < u.ppsPrescale →
        exec (.edgeQualified .pps) s = .next { u with mrk := { u.mrk with
          pps := { u.mrk.pps with edge := none, count := u.mrk.pps.count + 1 }, lastPass := some x.cycle } })
      ∧ ((∀ p, u.mrk.lastPass = some p → p + 5000000 ≤ x.cycle) → u.ppsPrescale ≤ u.mrk.pps.count + 1 →
        exec (.edgeQualified .pps) s = .next (ppsCapture x.stamp.time x.ticks { u with mrk := { u.mrk with
          pps := { u.mrk.pps with edge := none, count := 0 }, lastPass := some x.cycle } })))
    ∧ (s.mrk.markA.edge = some x → reach (x.cycle + s.markAMinWidth) s = some u → ∃ t,
      exec (.edgeQualified .markA) s = .next t ∧ t.mrk.markA.edge = none
        ∧ (u.mrk.markA.count + 1 < u.markAPrescale → t.mrk.markA.count = u.mrk.markA.count + 1
            ∧ t.mrk.marks = u.mrk.marks ∧ t.mrk.seqA = u.mrk.seqA)
        ∧ (u.markAPrescale ≤ u.mrk.markA.count + 1 → t.mrk.markA.count = 0 ∧ t.mrk.seqA = (u.mrk.seqA + 1) % 65536
            ∧ t.mrk.marks.getLast? = some ⟨.markA, x.stamp, u.mrk.seqA⟩))
    ∧ (s.mrk.markB.edge = some x → reach (x.cycle + s.markBMinWidth) s = some u → ∃ t,
      exec (.edgeQualified .markB) s = .next t ∧ t.mrk.markB.edge = none
        ∧ (u.mrk.markB.count + 1 < u.markBPrescale → t.mrk.markB.count = u.mrk.markB.count + 1
            ∧ t.mrk.marks = u.mrk.marks ∧ t.mrk.seqB = u.mrk.seqB)
        ∧ (u.markBPrescale ≤ u.mrk.markB.count + 1 → t.mrk.markB.count = 0 ∧ t.mrk.seqB = (u.mrk.seqB + 1) % 65536
            ∧ t.mrk.marks.getLast? = some ⟨.markB, x.stamp, u.mrk.seqB⟩)))
  ∧ ∀ (x : EdgeTest) (s : State) (i : Input), i ≠ .pps →
    let m : Mark := ⟨i, x.stamp, if i = .markA then s.mrk.seqA else s.mrk.seqB⟩
    let t := handCapture i x s
    (s.mrk.marks.length < 16 → t.mrk.marks = s.mrk.marks ++ [m] ∧ t.mrk.overrun = s.mrk.overrun)
    ∧ (s.mrk.marks.length = 16 → t.mrk.marks = s.mrk.marks.drop 1 ++ [m] ∧ t.mrk.marks.length = 16
        ∧ t.mrk.overrun = min (s.mrk.overrun + 1) 65535)

/-! ### Strobes, calibration and ports -/

/-- STROBE: the strobe at the next multiple of the period takes the next number, SAMPLE is high for 100 cycles from it, a
due timing break is recorded (R34, R35). The windows still open close first, their outcome missing and their gap in every
channel of the port, and every port that is not OFF opens its window for the new strobe (R45, R59, R60). The Event Engine
is given number, time and grade (R87). Then every channel whose source is none, or whose port is OFF, takes the gap slot of
this strobe at once: the previous value on channel and ring, processed by the Trigger Engine, the ring's oldest strobe moved
on where 4096 are held (R59, R60, R67), and reported to the Event Engine, where the six reports of a strobe of which no port
decides a channel bring its vote (R66, R87); the other channels stay. The model's choices: log 18 (a point that counting has
passed), log 40 (D0's window closes before D1's). -/
def Obligations.StrobeIsIssued : Prop :=
  ∀ s : State, s.powered = true → s.sch.started = true →
    let p := 10000000 / s.sch.rate
    let tick := (max s.clk.t s.sch.point + p - 1) / p * p
    let n := s.sch.next
    let u : State := { elapse (s.clk.cyclesTo tick) s with moment := {} }
    let v := closeWindows u
    let note : Note := ⟨n, u.stamp⟩
    let opened (q : PortId) : Port :=
      if s.prt[q].link = .off then v.prt[q] else { v.prt[q] with window := some n, transfer := none }
    let issued : State := { v with
      prt := #v[opened 0, opened 1]
      evt := { v.evt with notes := v.evt.notes ++ [note] }
      sch := { v.sch with
        next := (n + 1) % 281474976710656
        last := some n
        point := tick + p
        sampleEnd := some (u.osc + 100)
        breakDue := false
        lastBreak := if s.sch.breakDue = true then some n else s.sch.lastBreak
        breaks := if s.sch.breakDue = true then inc16 s.sch.breaks else s.sch.breaks } }
    tick < 10000000 →
    ∃ t, exec .strobe s = .next t ∧ t.sch.next = (s.sch.next + 1) % 281474976710656 ∧ t.sch.last = some s.sch.next
      ∧ t.osc = (elapse (s.clk.cyclesTo tick) s).osc ∧ t.sch.sampleEnd = some (t.osc + 100) ∧ t.sch.point = tick + p
      ∧ t.sch.breakDue = false ∧ t.sch.breaks = (if s.sch.breakDue = true then inc16 s.sch.breaks else s.sch.breaks)
      ∧ t.sch.lastBreak = (if s.sch.breakDue = true then some s.sch.next else s.sch.lastBreak)
      ∧ (∀ q : PortId, s.prt[q].link ≠ .off → t.prt[q].window = some s.sch.next ∧ t.prt[q].transfer = none)
      ∧ (∀ q : PortId, t.prt[q].last = if s.prt[q].window = none then s.prt[q].last else some .missing)
      ∧ (∀ c : Chan, s.unsourced c = true ↔ ∀ q : PortId, s.sourcePort c = some q → s.prt[q].link = .off)
      ∧ t = allChans.foldl (fun x c =>
          if s.unsourced c = true then writeSlot c n ⟨x.rings[c].previous n, true, false⟩ x else x) issued
      ∧ ((∀ c : Chan, s.unsourced c = false) → t = issued)
      ∧ (s.canonical →
        (∀ c : Chan,
          (∀ (q : PortId) (k : Nat), s.sourcePort c = some q → s.prt[q].window = some k →
            v.rings[c].newest = some k ∧ v.rings[c].slot k = ⟨s.rings[c].previous k, true, false⟩)
          ∧ (s.unsourced c = false → t.rings[c] = v.rings[c] ∧ t.chn[c] = v.chn[c])
          ∧ (s.unsourced c = true →
            let value := v.rings[c].previous n
            t.rings[c].newest = some n ∧ t.rings[c].slot n = ⟨value, true, false⟩
            ∧ (∀ m, m % 4096 ≠ n % 4096 → t.rings[c].slot m = v.rings[c].slot m)
            ∧ t.rings[c].oldest = (if 4095 < Machine.dist v.rings[c].oldest n then (n + 281474976710656 - 4095) % 281474976710656
                else v.rings[c].oldest)
            ∧ t.chn[c] = { (v.chn[c].strobe s.sch.rate value).chan with last := some n }))
        ∧ (v.evt.notes = [] → v.evt.reports = [] →
          ((∃ c, s.unsourced c = false) → t.evt.notes = [note] ∧ t.evt.reports.map Report.chan = allChans.filter s.unsourced
            ∧ ∀ r ∈ t.evt.reports, r.strobe = n ∧ r.gap = true)
          ∧ ((∀ c, s.unsourced c = true) → t.evt.notes = [] ∧ t.evt.reports = [] ∧ t.evt.lastVoted = some note)))

/-- The tests of a pending rate and of a pending map, as SECOND_BOUNDARY runs them (SecondBoundaryRollsTime) and as
PENDING_RATE_APPLY and PENDING_MAP_APPLY do for the rate or map that this boundary's test has let through: the open
windows close, with missing for their outcome and a gap in every channel of the port (R45, R57), then the rate or map comes
into force: the ring of every channel that it changes is emptied, from the next strobe on, and the channel restarted, any other
ring stays (R36, R57, R63, R80), and a new map moves the suppression of every channel to the window of its new port (R41).
Where an event, or for the rate a running calibration, forbids the change, where nothing is pending, and in the two commands for
a rate or map that the boundary did not let through, nothing happens. The model's choices: log 4 (what a boundary has let
through), log 6 (the event state and the calibrations are read as they stand once the windows have closed). -/
def Obligations.PendingSettingsAreApplied : Prop :=
  (∀ (r : Nat) (s : State), s.sch.pending = some r →
    let v := closeWindows s
    let applied (t : State) : Prop :=
      t.sch = { v.sch with rate := r, pending := none }
      ∧ t.prt = v.prt ∧ t.mon = v.mon ∧ (∀ q : PortId, t.prt[q].window = none
        ∧ t.prt[q].last = if s.prt[q].window = none then s.prt[q].last else some .missing)
      ∧ ∀ c : Chan, t.rings[c] = { v.rings[c] with newest := none, oldest := s.sch.next }
        ∧ t.chn[c].sta = 0 ∧ t.chn[c].lta = 0 ∧ t.chn[c].warmup = 0 ∧ t.chn[c].warmed = false
    (v.eventActive = false → v.calRunning = false → applied (pendingRate s) ∧ (pendingRate s).moment.rate = some r)
    ∧ (v.eventActive = true ∨ v.calRunning = true → pendingRate s = s)
    ∧ (s.powered = true → s.moment.rate = some r → v.eventActive = false → v.calRunning = false →
      ∃ t, exec .pendingRateApply s = .next t ∧ applied t)
    ∧ (s.powered = true → s.moment.rate ≠ some r ∨ v.eventActive = true ∨ v.calRunning = true →
      exec .pendingRateApply s = .next s))
  ∧ (∀ (m : ChanMap) (s : State), s.pendingMap = some m →
    let v := closeWindows s
    let applied (t : State) : Prop :=
      t.map = m ∧ t.pendingMap = none
      ∧ t.prt = v.prt ∧ t.mon = v.mon ∧ t.sch = v.sch ∧ (∀ q : PortId, t.prt[q].window = none
        ∧ t.prt[q].last = if s.prt[q].window = none then s.prt[q].last else some .missing)
      ∧ ∀ c : Chan,
        (s.map.changed m c = true → t.rings[c] = { v.rings[c] with newest := none, oldest := s.sch.next }
          ∧ t.chn[c].sta = 0 ∧ t.chn[c].lta = 0 ∧ t.chn[c].warmup = 0 ∧ t.chn[c].warmed = false)
        ∧ (s.map.changed m c = false → t.rings[c] = v.rings[c])
        ∧ t.chn[c].supp = (match m.entries[c].source with
          | none => false
          | some x => v.sch.windows[portOf x].isOpen)
    (v.eventActive = false → applied (pendingMapTest s) ∧ (pendingMapTest s).moment.map = some m)
    ∧ (v.eventActive = true → pendingMapTest s = s)
    ∧ (s.powered = true → s.moment.map = some m → v.eventActive = false →
      ∃ t, exec .pendingMapApply s = .next t ∧ applied t)
    ∧ (s.powered = true → s.moment.map ≠ some m ∨ v.eventActive = true → exec .pendingMapApply s = .next s))
  ∧ (∀ s : State, (s.sch.pending = none → pendingRate s = s ∧ (s.powered = true → exec .pendingRateApply s = .next s))
    ∧ (s.pendingMap = none → pendingMapTest s = s ∧ (s.powered = true → exec .pendingMapApply s = .next s)))
  ∧ ∀ s : State, ((∀ q : PortId, s.prt[q].window = none) → closeWindows s = s)
    ∧ (s.canonical → ∀ (c : Chan) (q : PortId) (k : Nat), s.sourcePort c = some q → s.prt[q].window = some k →
      (closeWindows s).rings[c].newest = some k
      ∧ (closeWindows s).rings[c].slot k = ⟨s.rings[c].previous k, true, false⟩)

/-- The examination of an entry at a second boundary, its run start, and the pulses of a run, begun or withheld (R39, R40).
CAL_PULSE_END and CAL_RUN_END: the line goes low, the pulse of the running entry is counted; the run ends DONE and the
window of its port begins to close. SUPPRESSION_WINDOW_CLOSE: the window closes, and each channel's suppression mark follows
the windows (R40, R41). The model's choices: log 2, 23. -/
def Obligations.CalibrationRuns : Prop :=
  (∀ s : State, examineCals s = (s.sch.cals.filter fun c =>
      decide (c.outcome = .waiting ∧ c.start ≤ s.clk.s ∨ c.outcome = .deferred)).foldl (fun s c => examineCal c s) s)
  ∧ (∀ (c : Cal) (s : State),
    let t := examineCal c s
    let put (o : CalOutcome) : List Cal := s.sch.cals.map fun x => if x.id = c.id then { x with outcome := o } else x
    let barred : Prop := s.bat.cls = .critical ∨ s.bat.power = .shed ∨ s.prt[c.sensor].link ≠ .up
    let waits : Prop := s.calRunning = true ∨ ∃ d, s.sch.settleEnd = some d ∧ s.osc < d
    (s.eventActive = true → t.sch = { s.sch with cals := put .deferred }
      ∧ ∀ r, s.evt.record = some r → t.evt.record = some { r with flags := { r.flags with calDeferred := true } })
    ∧ (s.eventActive = false → barred → t = { s with sch := { s.sch with cals := put .skipped } })
    ∧ (s.eventActive = false → ¬ barred → waits → t = { s with sch := { s.sch with cals := put .deferred } })
    ∧ (s.eventActive = false → ¬ barred → ¬ waits → t.sch = { s.sch with
        cals := s.sch.cals.map fun x => if x.id = c.id then { x with outcome := .running, runStart := some s.clk.s } else x
        windows := s.sch.windows.set c.sensor .running
        lines := s.sch.lines.set c.sensor (some ⟨(s.clk.s + (s.clk.t + c.width * 10000) / 10000000) % 4294967296,
          (s.clk.t + c.width * 10000) % 10000000⟩) }))
  ∧ (∀ (c : Cal) (first : Nat) (s : State), s.runningCal = some c → c.runStart = some first → 0 < c.spacing → c.spacing ≤ 600 →
    c.count ≤ 16 → s.clk.s < 4294967296 →
    (∀ k, 0 < k → k < c.count → s.clk.s = (first + k * c.spacing) % 4294967296 →
      (s.eventActive = true → pulsesDue s = { s with sch := { s.sch with
        cals := s.sch.cals.map fun x => if x.id = c.id then { x with withheld := min (x.withheld + 1) 16 } else x } })
      ∧ (s.eventActive = false → pulsesDue s = { s with sch := { s.sch with
        lines := s.sch.lines.set c.sensor (some ⟨(s.clk.s + (s.clk.t + c.width * 10000) / 10000000) % 4294967296,
          (s.clk.t + c.width * 10000) % 10000000⟩) } }))
    ∧ ((∀ k, 0 < k → k < c.count → s.clk.s ≠ (first + k * c.spacing) % 4294967296) → pulsesDue s = s))
  ∧ (∀ s : State, calBoundary s = examineCals (pulsesDue s))
  ∧ (∀ s u : State, s.powered = true →
    (∀ (p : PortId) (x : Time), s.sch.lines[p] = some x → reachTime x s = some u → ∃ t,
      exec (.calPulseEnd p) s = .next t ∧ t.sch.lines = u.sch.lines.set p none
        ∧ (∀ c, u.runningCal = some c → c.sensor = p → t.sch.cals = u.sch.cals.map fun y =>
            if y.id = c.id then { y with issued := min (y.issued + 1) 16 } else y)
        ∧ ((∀ c, u.runningCal = some c → c.sensor ≠ p) → t.sch.cals = u.sch.cals))
    ∧ (∀ c, s.runningCal = some c → reachTime c.endTime s = some u → ∃ t,
      exec .calRunEnd s = .next t ∧ t.sch.lines[c.sensor] = none
        ∧ t.sch.windows[c.sensor] = (if s.calSettle = 0 then .closed else .closing (u.osc + s.calSettle * 10000000))
        ∧ ∀ y ∈ t.sch.cals, y.id = c.id → y.outcome = .done))
  ∧ (∀ (p : PortId) (d : Nat) (s u : State), s.powered = true → s.sch.windows[p] = .closing d → reach d s = some u →
    ∃ t, exec (.suppressionWindowClose p) s = .next t ∧ t.sch = { u.sch with windows := u.sch.windows.set p .closed }
      ∧ ∀ c : Chan, t.chn[c].supp = (match t.map.entries[c].source with
          | none => false
          | some x => t.sch.windows[portOf x].isOpen))

/-- DRDY_EDGE and DIGITIZER_FRAME: the edge starts the transfer of an open window; the frame taken gives the strobe its
outcome, and every channel of the port its slot (R45, R46, R59); a window that closes without a frame is decided as missing. An
outcome writes the slot of every channel sourced from the port, after the link-state signal, and the Trigger Engine processes it:
the channel is what `Channel.strobe` makes of it with the slot's value (R59 to R61, R67), and gives its report. A ring keeps every
other slot, and its oldest valid number moves on with the write that overwrites that strobe (R59, R62). The model's choices: log
2. -/
def Obligations.FramesAreTakenAndJudged : Prop :=
  (∀ (dt : Nat) (p : PortId) (s : State), s.powered = true →
    (let u := elapse dt s
     ∀ k, u.prt[p].window = some k → u.prt[p].transfer = none →
      exec (.drdyEdge dt p) s = .next { u with prt := u.prt.set p { u.prt[p] with transfer := some u.osc } })
    ∧ ∀ (bytes : List Byte) (k d : Nat), s.prt[p].window = some k → s.prt[p].transfer = some d → bytes.length = 14 →
      s.canonical →
      let u := elapse (max dt (d + 448 - s.osc)) s
      d + 448 ≤ u.osc →
      ∃ t, exec (.digitizerFrame dt p bytes) s = .next t ∧ t = decideOutcome p k (judgeFrame bytes).1 (judgeFrame bytes).2 u
        ∧ t.prt[p].window = none ∧ t.prt[p].transfer = none
        ∧ (bytes.getD 0 0 ≠ 0xB3 ∨ bytes.getD 1 0 ≠ 0x4C → t.prt[p].last = some .syncError)
        ∧ (bytes.getD 0 0 = 0xB3 → bytes.getD 1 0 = 0x4C → crc8 ((bytes.drop 2).take 11) ≠ bytes.getD 13 0 →
            t.prt[p].last = some .crcError)
        ∧ (bytes.getD 0 0 = 0xB3 → bytes.getD 1 0 = 0x4C → crc8 ((bytes.drop 2).take 11) = bytes.getD 13 0 →
            t.prt[p].last = some (.good (bytes.getD 2 0)))
        ∧ ∀ (c : Chan) (x : Fin 6), u.map.entries[c].source = some x → portOf x = p →
          t.rings[c].newest = some k
          ∧ t.rings[c].slot k = (match (judgeFrame bytes).2 with
            | none => ⟨u.rings[c].previous k, true, false⟩
            | some f => filledSlot u.map.entries[c] x u.map.reversed[p] f))
  ∧ (∀ (p : PortId) (k : Nat) (s : State), s.prt[p].window = some k → closeWindow p s = decideOutcome p k .missing none s)
  ∧ (∀ (p : PortId) (k : Nat) (o : PortOutcome) (f : Option Frame) (s : State), s.canonical →
    let x := reportOutcome p o s
    let v := linkChanged p (setPort p { x.prt[p].take f.isSome ((f.map Frame.alarm).getD false) with
      last := some o, window := none, transfer := none } x)
    let t := decideOutcome p k o f s
    ∀ c : Chan,
      (v.prt[p].link = .up → s.chn[c].det.enable = true → s.chn[c].state ≠ .off → v.chn[c] = s.chn[c])
      ∧ (s.sourcePort c ≠ some p → t.rings[c] = s.rings[c] ∧ t.chn[c] = v.chn[c])
      ∧ ∀ src, s.map.entries[c].source = some src → portOf src = p →
        let slot := match f with
          | none => (⟨s.rings[c].previous k, true, false⟩ : Slot)
          | some g => filledSlot s.map.entries[c] src s.map.reversed[p] g
        t.rings[c].newest = some k ∧ t.rings[c].slot k = slot
        ∧ (∀ m, m % 4096 ≠ k % 4096 → t.rings[c].slot m = s.rings[c].slot m)
        ∧ t.chn[c] = { (v.chn[c].strobe s.sch.rate slot.value).chan with last := some k })
  ∧ ∀ (c : Chan) (k : Nat) (x : Slot) (s : State), s.canonical →
    let t := writeSlot c k x s
    let y := s.chn[c].strobe s.sch.rate x.value
    let ahead := (k + 281474976710656 - s.rings[c].oldest) % 281474976710656
    t.rings[c].newest = some k ∧ t.rings[c].slot k = x ∧ t.chn[c] = { y.chan with last := some k }
    ∧ t.rings[c].oldest = (if 4095 < ahead then (k + 281474976710656 - 4095) % 281474976710656 else s.rings[c].oldest)
    ∧ (∀ m, m % 4096 ≠ k % 4096 → t.rings[c].slot m = s.rings[c].slot m)
    ∧ (∀ d : Chan, d ≠ c → t.rings[d] = s.rings[d] ∧ t.chn[d] = s.chn[d])
    ∧ ∃ u, t = gatherReport ⟨c, k, y.chan.state, y.on, y.off, y.ratio, x.value, x.gap, x.clip, false⟩ u ∧ u.evt = s.evt
      ∧ u.chn = t.chn ∧ u.rings = t.rings

/-- R55: a channel's value and clip flag from a good frame, and its effective input. -/
def Obligations.MappedValueFollowsTheMap : Prop :=
  ∀ (e : MapEntry) (src : Fin 6) (reversed : Bool) (f : Frame),
    ∃ i : Fin 3, i.val = (if reversed = true then 2 - src.val % 3 else src.val % 3)
      ∧ (filledSlot e src reversed f).clip = f.clips[i]
      ∧ (e.inverted = false → (filledSlot e src reversed f).value = f.samples[i])
      ∧ (e.inverted = true → f.samples[i] = -8388608 → (filledSlot e src reversed f).value = 8388607)
      ∧ (e.inverted = true → f.samples[i] ≠ -8388608 → (filledSlot e src reversed f).value = -f.samples[i])
      ∧ ∀ (m : ChanMap) (c : Chan), m.entries[c].source = some src → m.reversed[portOf src] = reversed →
          m.effective c = some (portOf src, i)

/-- The link of a port after an outcome (R50, R51, R52). -/
def Obligations.LinkFollowsOutcomes : Prop :=
  ∀ (p : PortId) (k : Nat) (o : PortOutcome) (f : Option Frame) (s : State),
    let x := s.prt[p]
    let y := (decideOutcome p k o f s).prt[p]
    (x.link = .starting → f = none → y.link = .starting)
    ∧ (∀ g, x.link = .starting → f = some g → y.link = .up ∧ y.alarm = g.alarm ∧ y.badRun = 0)
    ∧ (∀ g, x.link = .up → f = some g → y.link = .up ∧ y.badRun = 0 ∧ y.alarm = g.alarm)
    ∧ (x.link = .up → f = none → x.badRun < 7 → y.link = .up ∧ y.badRun = x.badRun + 1)
    ∧ (x.link = .up → f = none → 7 ≤ x.badRun → y.link = .down ∧ y.goodRun = 0 ∧ y.downs = inc16 x.downs)
    ∧ (x.link = .down → f = none → y.link = .down ∧ y.goodRun = 0)
    ∧ (∀ g, x.link = .down → f = some g → x.goodRun < 15 → y.link = .down ∧ y.goodRun = x.goodRun + 1)
    ∧ (∀ g, x.link = .down → f = some g → 15 ≤ x.goodRun → y.link = .up ∧ y.alarm = g.alarm ∧ y.badRun = 0)

/-- STARTING_TIMEOUT, LINK_UP and LINK_DOWN, with what the channels of the port take from them (R50, R51, R52, R54, R74).
The model's choices: log 4, log 33 (the good run keeps its value in UP, the bad run in DOWN). -/
def Obligations.LinkCommandsMoveTheLink : Prop :=
  ∀ (p : PortId) (s u : State), s.powered = true →
    (s.prt[p].link = .starting → reach (s.prt[p].startAt + 50000000) s = some u → ∃ t,
      exec (.startingTimeout p) s = .next t ∧ t.prt = u.prt.set p { u.prt[p] with link := .down, goodRun := 0 })
    ∧ (∀ a, s.prt[p].link = .down ∧ 16 ≤ s.prt[p].goodRun ∨
          s.prt[p].link = .starting ∧ (∃ q, s.prt[p].last = some (.good q)) → ∃ t,
      exec (.linkUp p a) s = .next t ∧ t.prt = s.prt.set p { s.prt[p] with link := .up, alarm := a, badRun := 0 }
        ∧ ∀ c : Chan, s.sourcePort c = some p → s.chn[c].det.enable = true → t.chn[c].state ≠ .off)
    ∧ (s.prt[p].link = .up → 8 ≤ s.prt[p].badRun → ∃ t,
      exec (.linkDown p) s = .next t ∧ t.prt = s.prt.set p { s.prt[p] with
          link := .down, alarm := false, goodRun := 0, downs := inc16 s.prt[p].downs }
        ∧ ∀ c : Chan, s.sourcePort c = some p → t.chn[c].state = .off)

/-! ### Trigger and events -/

/-- WARMUP_COMPLETE and LTA_RELEASE, in the moment of the channel's own update (R75, R77, R84). The model's choices: log 4. -/
def Obligations.WarmupEndsAndLtaIsReleased : Prop :=
  ∀ (c : Chan) (s : State), s.powered = true → s.moment.updated[c] = true →
    (s.chn[c].state = .warmup → 2 ^ s.chn[c].det.ltaShift ≤ s.chn[c].warmup →
      exec (.warmupComplete c) s = .next { s with chn := s.chn.set c { s.chn[c] with warmed := true, state := .quiet } })
    ∧ (s.chn[c].state = .triggered → s.chn[c].det.trigMax * s.sch.rate ≤ s.chn[c].age → s.chn[c].released = false →
      exec (.ltaRelease c) s = .next { s with chn := s.chn.set c { s.chn[c] with released := true } })

/-- R68 to R71, R73: what a strobe makes of a channel's averages and of its trigger ratio, in each state; R75 to R77: what it
makes of the state; R72: which test it applies, when it passes, and the size of its products. -/
def Obligations.StrobesUpdateAndTest : Prop :=
  (∀ (ch : Channel) (rate : Nat) (x : Int),
    let t := (ch.strobe rate x).chan
    let cf : Nat := if ch.state = .warmup ∧ ch.warmup = 0 then 0 else min (x - ch.prev).natAbs 8388607
    let next (a n : Nat) : Int := a + ((cf : Int) * 256 - a) / ((2 ^ n : Nat) : Int)
    let ratio := min 4095 (t.sta * 16 / max t.lta (ch.det.floor * 256))
    let age := min (ch.age + 1) 120000
    (ch.state = .off → t = ch)
    ∧ (ch.state = .suppressed → t = { ch with prev := x })
    ∧ (ch.state = .warmup → t.prev = x ∧ (t.sta : Int) = next ch.sta ch.det.staShift ∧ (t.lta : Int) = next ch.lta ch.det.ltaShift
        ∧ t.warmup = min (ch.warmup + 1) 16384 ∧ t.ratio = 0
        ∧ (2 ^ ch.det.ltaShift ≤ t.warmup → t.state = .quiet ∧ t.warmed = true)
        ∧ (t.warmup < 2 ^ ch.det.ltaShift → t.state = .warmup ∧ t.warmed = ch.warmed))
    ∧ (ch.state = .quiet → t.prev = x ∧ (t.sta : Int) = next ch.sta ch.det.staShift ∧ (t.lta : Int) = next ch.lta ch.det.ltaShift
        ∧ t.ratio = ratio
        ∧ ((ch.strobe rate x).on = true → t.state = .triggered ∧ t.frozen = true ∧ t.age = 0 ∧ t.count = inc16 ch.count)
        ∧ ((ch.strobe rate x).on = false → t.state = .quiet ∧ t.count = ch.count))
    ∧ (ch.state = .triggered → t.prev = x ∧ (t.sta : Int) = next ch.sta ch.det.staShift
        ∧ (t.lta : Int) = (if ch.released = true ∨ ch.det.trigMax * rate ≤ age then next ch.lta ch.det.ltaShift else ch.lta)
        ∧ t.ratio = ratio
        ∧ ((ch.strobe rate x).off = true → t.state = .quiet ∧ t.frozen = false ∧ t.released = false ∧ t.age = 0)
        ∧ ((ch.strobe rate x).off = false → t.state = .triggered ∧ t.age = age
            ∧ (t.released = true ↔ ch.released = true ∨ ch.det.trigMax * rate ≤ age))))
  ∧ (∀ (ch : Channel) (rate : Nat) (x : Int),
    let r := ch.strobe rate x
    let le := max r.chan.lta (r.chan.det.floor * 256)
    (r.on = true ↔ ch.state = .quiet ∧ ch.det.onRatio * le ≤ r.chan.sta * 16)
    ∧ (r.off = true ↔ ch.state = .triggered ∧ r.chan.sta * 16 < ch.det.offRatio * le)
    ∧ ¬ (r.on = true ∧ r.off = true))
  ∧ ∀ ch : Channel, let le := max ch.lta (ch.det.floor * 256)
    (ch.det.offRatio ≤ ch.det.onRatio → ch.det.onRatio * le ≤ ch.sta * 16 → ¬ ch.sta * 16 < ch.det.offRatio * le)
    ∧ (ch.sta ≤ 2147483392 → ch.sta * 16 < 2 ^ 35)
    ∧ (ch.lta ≤ 2147483392 → ch.det.floor ≤ 65535 → ch.det.onRatio ≤ 640 →
        ch.det.onRatio * le < 640 * 2 ^ 31 ∧ 640 * 2 ^ 31 < 2 ^ 41)

/-- POST_TIMER_EXPIRY and EVENT_TRUNCATE: the record closes at the strobe last voted and is filed last, and the charge
hold and the heater hold end (R92, R93, R94, R100). SHED entry closes it with SHED (R109) and RESTART with ABORTED (R111), at
the strobe last voted and the stamp of that moment. The model's choices: log 4. -/
def Obligations.EventsClose : Prop :=
  (∀ (k : Note) (r : EvRecord) (s : State), s.powered = true → s.evt.lastVoted = some k → s.evt.record = some r →
    (s.evt.state = .closing → s.evt.post = 0 → ∃ t, exec .postTimerExpiry s = .next t
      ∧ t.evt.state = .idle ∧ t.evt.record = none ∧ t.evt.post = 0 ∧ t.bat.hold = none ∧ t.htr.hold = none
      ∧ t.evt.list = (if s.evt.list.length < 32 then s.evt.list else s.evt.list.drop 1) ++ [{ r with
          state := .closed, close := some ⟨k.stamp, k.strobe, Machine.dist r.openStrobe k.strobe / s.sch.rate⟩ }])
    ∧ (s.moment.strobe = true → s.evt.state = .opened ∨ s.evt.state = .closing →
      s.eventMax * s.sch.rate ≤ Machine.dist r.openStrobe k.strobe → ∃ t, exec .eventTruncate s = .next t
      ∧ t.evt.state = .rearm ∧ t.evt.record = none ∧ t.evt.post = 0 ∧ t.bat.hold = none ∧ t.htr.hold = none
      ∧ t.evt.list = (if s.evt.list.length < 32 then s.evt.list else s.evt.list.drop 1) ++ [{ r with
          state := .closed, close := some ⟨k.stamp, k.strobe, Machine.dist r.openStrobe k.strobe / s.sch.rate⟩,
          flags := { r.flags with truncated := true } }]))
  ∧ ∀ (s : State),
    let filed (k : Note) (r : EvRecord) (f : EvFlags) : List EvRecord :=
      (if s.evt.list.length < 32 then s.evt.list else s.evt.list.drop 1) ++ [{ r with
        state := .closed, close := some ⟨s.stamp, k.strobe, Machine.dist r.openStrobe k.strobe / s.sch.rate⟩, flags := f }]
    ((shedEvents s).evt.state = .idle ∧ (restartEvents s).evt.state = .idle ∧ (restartEvents s).evt.notes = []
      ∧ (restartEvents s).evt.reports = [] ∧ (restartEvents s).evt.post = 0
      ∧ ∀ c : Chan, (restartEvents s).evt.counting[c] = none)
    ∧ (s.evt.state = .opened ∨ s.evt.state = .closing → ∀ r k, s.evt.record = some r → s.evt.lastVoted = some k →
      (shedEvents s).evt.record = none ∧ (restartEvents s).evt.record = none
      ∧ (shedEvents s).evt.list = filed k r { r.flags with shed := true }
      ∧ (restartEvents s).evt.list = filed k r { r.flags with aborted := true }
      ∧ (shedEvents s).bat.hold = none ∧ (restartEvents s).bat.hold = none ∧ (shedEvents s).htr.hold = none
      ∧ (restartEvents s).htr.hold = none
      ∧ ((shedEvents s).evt.wakeTerm = true ↔ s.eventWake = true) ∧ ((restartEvents s).evt.wakeTerm = true ↔ s.eventWake = true))
    ∧ (s.evt.state = .idle ∨ s.evt.state = .rearm → (shedEvents s).evt.list = s.evt.list
      ∧ (restartEvents s).evt.list = s.evt.list)

/-- How reports are gathered and a vote taken at the sixth (R87); the counting marks after it, their windows and overrides, and the
vote sum (R88 to R90). A vote that reaches the threshold in IDLE opens an event with the next number, with its trigger list, its
alert and the two holds (R90, R91, R95, R97, R99, R101); a vote in OPEN, CLOSING or REARM moves the event state, updates the
record with its trigger list, ON counts and peaks (R95, R96), closes it at its limit before the comparison, and counts the post
timer down (R92, R93). -/
def Obligations.VoteMovesTheEvent : Prop :=
  (∀ (n sum : Nat) (k : Note) (l : List Report) (s : State), s.evt.state = .idle → s.evt.number = some n →
    s.voteThreshold ≤ sum →
    let t := moveEvent k l sum s
    t.evt.state = .opened ∧ t.evt.number = (if n < 4294967295 then some (n + 1) else none)
      ∧ ∃ r, t.evt.record = some r ∧ r.number = n ∧ r.state = .opened ∧ r.openStamp = k.stamp ∧ r.openStrobe = k.strobe
        ∧ r.preStart = k.strobe - s.preEvent * s.sch.rate ∧ r.close = none ∧ r.peakS = sum
        ∧ (r.flags.timePoor = true ↔ k.stamp.grade = .C ∨ k.stamp.grade = .D ∨ k.stamp.grade = .U)
        ∧ r.flags.degraded = s.mon.degraded ∧ r.flags.truncated = false ∧ r.flags.shed = false ∧ r.flags.aborted = false
        ∧ (∀ c : Chan, (∃ e ∈ r.list, e.chan = c) ↔ s.evt.counting[c] ≠ none)
        ∧ (∀ e ∈ r.list, ∀ x, s.evt.counting[e.chan] = some x → e.firstOn = x.on ∧ e.onCount = 1
            ∧ e.offset = (let d := Machine.dist k.strobe x.on
                max (-32768) (min 32767 (if d < 140737488355328 then (d : Int) else (d : Int) - 281474976710656))))
        ∧ r.list.Pairwise (fun a b => Machine.dist b.firstOn k.strobe < Machine.dist a.firstOn k.strobe
            ∨ Machine.dist b.firstOn k.strobe = Machine.dist a.firstOn k.strobe ∧ a.chan < b.chan)
        ∧ ((∀ x ∈ l, x.strobe = k.strobe) → l.Pairwise (fun a b => a.chan ≠ b.chan) →
            ∀ c : Chan, let x := t.evt.peaks[c]
              (∀ e ∈ r.list, e.chan = c → e.peak = x)
              ∧ ((∀ a ∈ l, a.chan ≠ c) → x = ⟨0, 0, false⟩)
              ∧ ∀ a ∈ l, a.chan = c → x = ⟨a.ratio, if a.gap = true then 0 else a.value.natAbs, a.clip⟩)
        ∧ t.box = (openAlert r s).box
        ∧ (0 < s.quietMax → t.bat.hold = some 0 ∧ t.htr.hold = some 0))
  ∧ (∀ (sum : Nat) (k : Note) (l : List Report) (s : State),
    (s.evt.state = .idle → s.evt.number = none ∨ sum < s.voteThreshold → moveEvent k l sum s = s)
    ∧ (s.evt.state = .rearm → s.voteThreshold ≤ sum → moveEvent k l sum s = s)
    ∧ (s.evt.state = .rearm → sum < s.voteThreshold →
        moveEvent k l sum s = { s with evt := { s.evt with state := .idle } }))
  ∧ (∀ (sum : Nat) (k : Note) (l : List Report) (r : EvRecord) (s : State), s.evt.record = some r →
    s.evt.state = .opened ∨ s.evt.state = .closing →
    let t := moveEvent k l sum s
    let listed (y : EvRecord) : Prop :=
      (∀ x ∈ l, x.strobe = k.strobe) → l.Pairwise (fun a b => a.chan ≠ b.chan) →
      let on (c : Chan) : Prop := ∃ a ∈ l, a.chan = c ∧ a.on = true ∧ a.overridden = false
      (∀ c : Chan, let p := s.evt.peaks[c]
        (∀ e ∈ y.list, e.chan = c → e.peak = t.evt.peaks[c])
        ∧ ((∀ a ∈ l, a.chan ≠ c) → t.evt.peaks[c] = p)
        ∧ ∀ a ∈ l, a.chan = c → t.evt.peaks[c] =
          ⟨max p.ratio a.ratio, if a.gap = true then p.absx else max p.absx a.value.natAbs, p.clipped || a.clip⟩)
      ∧ ∃ old new, y.list = old ++ new ∧ old.length = r.list.length
        ∧ (∀ (i : Nat) (e f : TrigEntry), r.list[i]? = some e → old[i]? = some f → f.chan = e.chan ∧ f.firstOn = e.firstOn
            ∧ f.offset = e.offset ∧ (on e.chan → f.onCount = min (e.onCount + 1) 255) ∧ (¬ on e.chan → f.onCount = e.onCount))
        ∧ (∀ c : Chan, (∃ f ∈ new, f.chan = c) ↔ on c ∧ ∀ e ∈ r.list, e.chan ≠ c)
        ∧ new.Pairwise (fun a b => a.chan < b.chan)
        ∧ ∀ f ∈ new, f.firstOn = k.strobe ∧ f.onCount = 1
          ∧ f.offset = (let d := Machine.dist r.openStrobe k.strobe
              max (-32768) (min 32767 (if d < 140737488355328 then (d : Int) else (d : Int) - 281474976710656)))
    let updated (x : RecState) (y : EvRecord) : Prop := listed y ∧ y.state = x ∧ y.number = r.number ∧ y.openStamp = r.openStamp
      ∧ y.openStrobe = r.openStrobe ∧ y.preStart = r.preStart ∧ y.close = r.close ∧ y.peakS = max r.peakS sum
      ∧ y.flags = { r.flags with degraded := r.flags.degraded || s.mon.degraded }
    let closed (y : EvRecord) (f : Bool) : Prop := listed y ∧ y.state = .closed ∧ y.number = r.number ∧ y.peakS = max r.peakS sum
      ∧ y.close = some ⟨k.stamp, k.strobe, Machine.dist r.openStrobe k.strobe / s.sch.rate⟩
      ∧ y.flags = { r.flags with degraded := r.flags.degraded || s.mon.degraded, truncated := r.flags.truncated || f }
    (s.eventMax * s.sch.rate ≤ Machine.dist r.openStrobe k.strobe →
      t.evt.state = .rearm ∧ t.evt.record = none ∧ ∃ y, t.evt.list.getLast? = some y ∧ closed y true)
    ∧ (Machine.dist r.openStrobe k.strobe < s.eventMax * s.sch.rate →
      (s.voteThreshold ≤ sum → t.evt.state = .opened ∧ t.evt.post = (if s.evt.state = .closing then 0 else s.evt.post)
        ∧ ∃ y, t.evt.record = some y ∧ updated (if s.evt.state = .closing then .opened else r.state) y)
      ∧ (sum < s.voteThreshold → s.evt.state = .opened → t.evt.state = .closing ∧ t.evt.post = s.postEvent * s.sch.rate
        ∧ ∃ y, t.evt.record = some y ∧ updated .closing y)
      ∧ (sum < s.voteThreshold → s.evt.state = .closing → 2 ≤ s.evt.post →
        t.evt.state = .closing ∧ t.evt.post = s.evt.post - 1 ∧ ∃ y, t.evt.record = some y ∧ updated r.state y)
      ∧ (sum < s.voteThreshold → s.evt.state = .closing → s.evt.post ≤ 1 →
        t.evt.state = .idle ∧ t.evt.record = none ∧ ∃ y, t.evt.list.getLast? = some y ∧ closed y false)))
  ∧ (∀ (r : Report) (s : State),
    let u : State := { s with evt := { s.evt with reports := s.evt.reports ++ [r] } }
    let held (n : Nat) := (u.evt.reports.filter fun x => x.strobe == n).length
    ((∀ k ∈ s.evt.notes, k.strobe ≠ r.strobe) → gatherReport r s = s)
    ∧ ∀ k rest, s.evt.notes = k :: rest → (∃ x ∈ s.evt.notes, x.strobe = r.strobe) →
      (held k.strobe < 6 → gatherReport r s = u)
      ∧ (6 ≤ held k.strobe → (∀ x ∈ rest, x.strobe = k.strobe) → gatherReport r s = vote k u)
      ∧ ∀ j later, (rest.filter fun x => x.strobe != k.strobe) = j :: later → 6 ≤ held k.strobe →
        (held j.strobe < 6 → gatherReport r s = vote k u) ∧ (6 ≤ held j.strobe → gatherReport r s = vote j (vote k u)))
  ∧ (∀ (k : Note) (s : State),
    let l := s.evt.reports.filter fun x => x.strobe == k.strobe
    let t := vote k s
    let weight (c : Chan) := if t.evt.counting[c].isSome = true then s.chn[c].det.weight else 0
    let sum := weight 0 + weight 1 + weight 2 + weight 3 + weight 4 + weight 5
    let v := moveEvent k l sum
      { s with evt := { s.evt with counting := t.evt.counting }, moment := { s.moment with strobe := true } }
    t = { v with evt := { v.evt with
        lastVoted := some k
        notes := s.evt.notes.filter fun x => x.strobe != k.strobe
        reports := s.evt.reports.filter fun x => x.strobe != k.strobe } }
    ∧ ((∀ c : Chan, s.chn[c].det.weight ≤ 15) → sum ≤ 90)
    ∧ ∀ c : Chan, ((∀ a ∈ l, a.chan ≠ c) → t.evt.counting[c] = s.evt.counting[c])
      ∧ ∀ a, l.filter (fun x => x.chan == c) = [a] →
        (a.overridden = true ∨ a.state = .off ∨ a.state = .warmup ∨ a.state = .suppressed → t.evt.counting[c] = none)
        ∧ (a.overridden = false → a.state = .quiet ∨ a.state = .triggered →
          (a.on = true → t.evt.counting[c] = some ⟨k.strobe, s.coincWindow * s.sch.rate⟩)
          ∧ (a.on = false → a.state = .triggered → t.evt.counting[c] = s.evt.counting[c])
          ∧ (a.on = false → a.state = .quiet → s.evt.counting[c] = none → t.evt.counting[c] = none)
          ∧ ∀ m, a.on = false → a.state = .quiet → s.evt.counting[c] = some m → t.evt.counting[c] =
              (if Machine.dist m.on k.strobe < m.span then some m else none)))
  ∧ ∀ (c : Chan) (s : State),
    let t := signalState c s
    (s.chn[c].state = .quiet ∨ s.chn[c].state = .triggered → t = s)
    ∧ (s.chn[c].state ≠ .quiet → s.chn[c].state ≠ .triggered → t = { s with evt := { s.evt with
        counting := s.evt.counting.set c none
        reports := s.evt.reports.map fun a => if a.chan = c then { a with overridden := true } else a } })

/-! ### Alerts, the modem line and the conditions -/

/-- R113 and R114: the alerts of an event open and an event close, the close superseding an open that waits; R115: a condition
change coalesces into the waiting entry of its condition, or makes a new one; R112, R116: a new record takes its place in outbox
order, and a full outbox gives up its last WAITING entry to a record of lower rank, or refuses the record. The model's choices:
log 29 (a record refused takes no creation position). -/
def Obligations.AlertsAreCreatedAndPlaced : Prop :=
  let fresh (k : AlertKind) (rank origin : Nat) (s : State) (x : Content) : Alert :=
    ⟨k, rank, origin, s.stamp, 0, false, 0, none, x⟩
  (∀ (r : EvRecord) (s : State),
    let first := (r.list.take 3).map fun e => (⟨e.chan, e.offset, e.peak.ratio⟩ : OpenEntry)
    let closing : Content := .eventClose r.openStamp (match r.close with | none => 0 | some x => x.duration) r.peakS r.flags r.list
    (s.alertOpen = false → openAlert r s = s)
    ∧ (s.alertOpen = true → openAlert r s =
        place (fresh .eventOpen 0 r.number s (.eventOpen r.openStamp r.peakS first)) s)
    ∧ (s.alertClose = false → closeAlert r s = s)
    ∧ (s.alertClose = true → (∃ a ∈ s.box.entries, a.kind = .eventOpen ∧ a.origin = r.number ∧ a.inFlight = false) →
      closeAlert r s = { s with box := { s.box with entries := s.box.entries.map fun a =>
        if a.kind = .eventOpen ∧ a.origin = r.number ∧ a.inFlight = false then { a with kind := .eventClose, content := closing }
        else a } })
    ∧ (s.alertClose = true → (∀ a ∈ s.box.entries, ¬ (a.kind = .eventOpen ∧ a.origin = r.number ∧ a.inFlight = false)) →
      closeAlert r s = place (fresh .eventClose 1 r.number s closing) s))
  ∧ (∀ (c : CondId) (v : Bool) (x : Stamp) (s : State),
    ((∃ a ∈ s.box.entries, a.kind = .condition ∧ a.origin = c.val ∧ a.inFlight = false) →
      conditionAlert c v x s = { s with box := { s.box with entries := s.box.entries.map fun a =>
        if a.kind = .condition ∧ a.origin = c.val ∧ a.inFlight = false then
          (match a.content with
          | .condition id _ n _ => { a with content := .condition id v (min (n + 1) 255) x }
          | _ => a)
        else a } })
    ∧ ((∀ a ∈ s.box.entries, ¬ (a.kind = .condition ∧ a.origin = c.val ∧ a.inFlight = false)) →
      conditionAlert c v x s = place (fresh .condition 2 c.val s (.condition c v 1 x)) s))
  ∧ ∀ (a : Alert) (s : State),
    let t := place a s
    let placed := { a with position := s.box.creation }
    let age (p : Nat) := (t.box.creation + 4294967296 - p) % 4294967296
    let lost : Prop := t.box.drops = inc16 s.box.drops ∧ t.mon.figs.dropped = inc16 s.mon.figs.dropped
      ∧ t.mon.conds[(16 : CondId)].pending = true ∧ t.mon.conds[(16 : CondId)].status = true
    let entered : Prop := t.box.creation = (s.box.creation + 1) % 4294967296
      ∧ t.box.entries.Pairwise fun x y => x.rank < y.rank ∨ x.rank = y.rank ∧ age y.position ≤ age x.position
    (s.box.entries.length < 12 → t.box.entries.Perm (placed :: s.box.entries) ∧ entered ∧ t.mon = s.mon
      ∧ t.box.drops = s.box.drops)
    ∧ (12 ≤ s.box.entries.length → (∀ b ∈ s.box.entries, b.inFlight = true) → t.box.entries = s.box.entries ∧ lost
      ∧ t.box.creation = s.box.creation)
    ∧ ∀ l w m, 12 ≤ s.box.entries.length → s.box.entries = l ++ w :: m → w.inFlight = false → (∀ b ∈ m, b.inFlight = true) →
      (a.rank < w.rank → t.box.entries.Perm (placed :: (l ++ m)) ∧ entered ∧ lost)
      ∧ (w.rank ≤ a.rank → t.box.entries = s.box.entries ∧ lost ∧ t.box.creation = s.box.creation)

/-- The not-befores and the interval test, as SECOND_BOUNDARY runs them (SecondBoundaryRollsTime) and as NOT_BEFORE_PASSED and
INTERVAL_BOUNDARY do (R123, R191, R192, R121): the test changes nothing where the interval number is the one recorded; otherwise
the boundary zeroes the figures, with the minima absent, judges the two error conditions again and clears OUTBOX_DROP and
EVENT_LOST; only an alert lost to a full outbox by these very status changes can count in the new figures and assert OUTBOX_DROP
again. The model's choices: log 4, log 34 (the order of steps 4 and 5). -/
def Obligations.NotBeforesAndIntervalsPass : Prop :=
  ∀ s : State,
    let freed : State := { s with box := { s.box with entries := s.box.entries.map fun a =>
      match a.notBefore with
      | none => a
      | some x => if x.s < s.clk.s ∨ x.s = s.clk.s ∧ x.t ≤ s.clk.t then { a with notBefore := none } else a } }
    let passed (t : State) : Prop :=
        t.mon.report = some ⟨s.mon.figs, s.mon.number, s.mon.start, t.box.credits⟩
        ∧ t.mon.number = s.clk.s / s.intervalLen ∧ t.mon.start = s.clk.s
        ∧ t.mon.figs = { dropped := t.mon.figs.dropped } ∧ t.mon.figs.minVb = none ∧ t.mon.figs.minTp = none
        ∧ (∀ c : CondId, c.val = 7 ∨ c.val = 8 ∨ c.val = 17 → t.mon.conds[c].status = false ∧ t.mon.conds[c].changes =
            (if s.mon.conds[c].status = true then inc16 s.mon.conds[c].changes else s.mon.conds[c].changes))
        ∧ (∀ c : CondId, c.val = 7 ∨ c.val = 8 → (t.mon.conds[c].pending = true ↔ s.mon.conds[c].pending = true
            ∨ s.mon.conds[c].status = true ∧ s.mon.conds[if c.val = 7 then (3 : CondId) else 4].status = false))
        ∧ t.mon.conds[(17 : CondId)].pending = s.mon.conds[(17 : CondId)].pending
        ∧ (s.box.entries.length ≤ 8 ∨ (∀ c : CondId, inSet s.alertSet c = false) →
            t.mon.figs = {} ∧ t.mon.conds[(16 : CondId)].status = false
            ∧ t.mon.conds[(16 : CondId)].pending = s.mon.conds[(16 : CondId)].pending ∧ t.mon.conds[(16 : CondId)].changes =
              (if s.mon.conds[(16 : CondId)].status = true then inc16 s.mon.conds[(16 : CondId)].changes
               else s.mon.conds[(16 : CondId)].changes))
        ∧ t.box.credits = min (s.box.credits + ((match s.bat.cls with
            | .normal => s.refillNormal | .low => s.refillLow | .critical => s.refillCritical : Nat) : Int)) s.creditCap
    passNotBefores s = freed
    ∧ (s.clk.s / s.intervalLen = s.mon.number → intervalTest s = s)
    ∧ (s.clk.s / s.intervalLen ≠ s.mon.number → passed (intervalTest s))
    ∧ (s.powered = true → s.moment.boundary = true ∨ s.moment.timeChange = true → exec .notBeforePassed s = .next freed)
    ∧ (s.powered = true → s.moment.boundary = true → s.clk.s / s.intervalLen = s.mon.number →
        exec .intervalBoundary s = .next s)
    ∧ (s.powered = true → s.moment.boundary = true → s.clk.s / s.intervalLen ≠ s.mon.number →
        ∃ t, exec .intervalBoundary s = .next t ∧ passed t)

/-- R179, R180: a report of the status held changes nothing; a status change takes the new status, counts, keeps the stamp, sets
the pending mark of a condition that is neither an occurrence condition nor blocked by another (R181), and goes to the outbox
where the condition is in the alert set; other rows stand, but for OUTBOX_DROP, to which a lost alert can be an occurrence. R182:
an occurrence sets mark and status, and is a status change only where the status was clear. R183, R48: a port's error condition
follows its error sum, judged at each counted outcome. -/
def Obligations.StatusChangesAreTaken : Prop :=
  (∀ (c : CondId) (v : Bool) (s : State),
    let t := statusChange c v s
    let blocked : Prop := c.val = 7 ∧ s.mon.conds[(3 : CondId)].status = true
      ∨ c.val = 8 ∧ s.mon.conds[(4 : CondId)].status = true ∨ c.val = 11 ∧ s.mon.conds[(14 : CondId)].status = true
    (s.mon.conds[c].status = v → t = s)
    ∧ (s.mon.conds[c].status ≠ v → c.val ≠ 16 ∨ inSet s.alertSet c = false →
        t.mon.conds[c].status = v ∧ t.mon.conds[c].changes = min (s.mon.conds[c].changes + 1) 65535
        ∧ t.mon.conds[c].last = some ⟨⟨s.clk.s, s.clk.t⟩, gradeOf s.clk.disc s.clk.u⟩
        ∧ (t.mon.conds[c].pending = true ↔
            s.mon.conds[c].pending = true ∨ ¬ (c.val = 16 ∨ c.val = 17 ∨ blocked)))
    ∧ (s.mon.conds[c].status ≠ v →
        t.box = if inSet s.alertSet c = true then (conditionAlert c v s.stamp s).box else s.box)
    ∧ ∀ d : CondId, d ≠ c → d.val ≠ 16 → t.mon.conds[d] = s.mon.conds[d])
  ∧ (∀ s : State,
    let d := (dropOccurrence s).mon.conds[(16 : CondId)]
    let e := (lostOccurrence s).mon.conds[(17 : CondId)]
    let x := s.mon.conds[(16 : CondId)]
    let y := s.mon.conds[(17 : CondId)]
    d.pending = true ∧ d.status = true ∧ d.changes = (if x.status = true then x.changes else inc16 x.changes)
    ∧ d.last = (if x.status = true then x.last else some s.stamp) ∧ (dropOccurrence s).box = s.box
    ∧ e.pending = true ∧ e.status = true ∧ e.changes = (if y.status = true then y.changes else inc16 y.changes)
    ∧ e.last = (if y.status = true then y.last else some s.stamp)
    ∧ (y.status = true → (lostOccurrence s).box = s.box))
  ∧ ∀ (p : PortId) (s : State),
    let id : CondId := if p = 0 then 7 else 8
    let above (u : State) : Prop :=
      s.errThreshold p < u.mon.figs.ports[p].sync + u.mon.figs.ports[p].crc + u.mon.figs.ports[p].gaps
    ((judgeErrors p s).mon.conds[id].status = true ↔ above s)
    ∧ ∀ o : PortOutcome, s.prt[p].link = .up ∨ s.prt[p].link = .down →
      let t := reportOutcome p o s
      let f := s.mon.figs.ports[p]
      let g := t.mon.figs.ports[p]
      (t.mon.conds[id].status = true ↔ above t)
      ∧ g.sync = (if o = .syncError then inc16 f.sync else f.sync) ∧ g.crc = (if o = .crcError then inc16 f.crc else f.crc)
      ∧ g.gaps = (if o = .missing then inc16 f.gaps else f.gaps)

/-- MODEM_START, MODEM_START_TIMEOUT, MODEM_READY, OFFER, MODEM_HOLD_EXPIRY and BACKOFF_EXPIRY (R125, R126, R130, R131): a READY
in READY starts the link timer again with the limit it had; a READY in OFFERED or SENDING is a failure of the alert in flight, as
ModemFailuresAreCounted says it. The divisors are those of R133. The model's choices: log 15, 22. -/
def Obligations.ModemStartsAndOffers : Prop :=
  ∀ (dt : Nat) (s u : State), s.powered = true →
    (s.mdm.link = .off → s.firstEligible.isSome = true → exec .modemStart s = .next { s with mdm := { s.mdm with
      link := .starting, since := s.osc, limit := s.modemStartTimeout * 10000000, rx := [], div := s.modemDivisor } })
    ∧ (s.mdm.link = .starting → reach (s.mdm.since + s.mdm.limit) s = some u → ∃ t,
      exec .modemStartTimeout s = .next t ∧ t.mdm = { u.mdm with
        link := .backoff, since := u.osc, limit := u.modemRetryBackoff * 10000000, fails := 0, rx := [],
        div := u.modemDivisor, fault := true,
        startTimeouts := inc16 u.mdm.startTimeouts })
    ∧ (u = modemSilence (elapse dt s) → u.mdm.link = .starting →
      exec (.modemReady dt) s = .next { u with mdm := { u.mdm with
        rx := [], div := u.modemDivisor, lastByte := u.osc, link := .ready, since := u.osc, limit := u.modemHold * 10000000 } })
    ∧ (u = modemSilence (elapse dt s) → u.mdm.link = .ready →
      exec (.modemReady dt) s = .next { u with mdm := { u.mdm with
        rx := [], div := u.modemDivisor, lastByte := u.osc, since := u.osc } })
    ∧ (u = modemSilence (elapse dt s) → u.mdm.link = .off ∨ u.mdm.link = .backoff →
      exec (.modemReady dt) s = .next { u with mdm := { u.mdm with
        rx := [], div := u.modemDivisor, lastByte := u.osc, unexpected := inc16 u.mdm.unexpected } })
    ∧ (u = modemSilence (elapse dt s) → u.mdm.link = .offered ∨ u.mdm.link = .sending → ∃ t, exec (.modemReady dt) s = .next t
      ∧ t.mdm.link = (if 3 ≤ u.mdm.fails + 1 then .backoff else .ready)
      ∧ t.mdm.fails = (if 3 ≤ u.mdm.fails + 1 then 0 else u.mdm.fails + 1) ∧ t.flights = 0 ∧ t.box.credits = u.box.credits)
    ∧ (∀ a, s.mdm.link = .ready → s.firstEligible = some a → exec .offer s = .next { s with
        box := { s.box with entries := s.box.entries.replace a { a with inFlight := true } }
        mdm := { s.mdm with
          tag := s.mdm.tag + 1, tx := modemFrame 0x01 ([s.mdm.tag + 1] ++ s.stationHeader ++ a.bytes), link := .offered,
          txDiv := s.modemDivisor, div := if s.mdm.rx = [] then s.modemDivisor else s.mdm.div, since := s.osc, limit := 20000000 } })
    ∧ (s.mdm.link = .ready → reach (s.mdm.since + s.mdm.limit) s = some u → u.firstEligible = none →
      exec .modemHoldExpiry s = .next { u with mdm := { u.mdm with
        link := .off, since := u.osc, limit := 0, rx := [], div := u.modemDivisor } })
    ∧ (s.mdm.link = .backoff → reach (s.mdm.since + s.mdm.limit) s = some u →
      exec .backoffExpiry s = .next { u with mdm := { u.mdm with link := .off, since := u.osc, limit := 0 } })

/-- TAKE, MODEM_BUSY and SENT with the tag of the offer in hand; with another tag or in another link state each is an
unexpected frame (R124, R127, R128, R118, R132); how an entry returns to WAITING, with the duplicate that replaces it (R117). The
model's choices: log 15, log 31 (a not-before past the wrap of the seconds). -/
def Obligations.ModemRepliesAreTaken : Prop :=
  (∀ (dt : Nat) (tag : Byte) (s u v : State), s.powered = true → u = modemSilence (elapse dt s) →
    v = { u with mdm := { u.mdm with rx := [], div := u.modemDivisor, lastByte := u.osc } } →
    (u.mdm.link = .offered → tag = u.mdm.tag → exec (.take dt tag) s = .next { v with
      box := { v.box with credits := v.box.credits - 1 }
      mdm := { v.mdm with link := .sending, since := u.osc, limit := u.sendTimeout * 10000000 } })
    ∧ (∀ a, u.mdm.link = .offered → tag = u.mdm.tag → u.inFlight = some a → exec (.modemBusy dt tag) s = .next { v with
        box := (returnInFlight a.attempts (some (u.now.addTicks 100000000)) u).box
        mdm := { v.mdm with link := .ready, since := u.osc, limit := u.modemHold * 10000000 } })
    ∧ (u.mdm.link = .sending → tag = u.mdm.tag → ∃ t, exec (.sent dt tag) s = .next t
      ∧ t.mdm = { v.mdm with fails := 0, fault := false, link := .ready, since := u.osc, limit := u.modemHold * 10000000 }
      ∧ t.box.sent = inc16 u.box.sent ∧ t.mon.figs.sent = inc16 u.mon.figs.sent ∧ t.mon.conds[(15 : CondId)].status = false
      ∧ (u.mon.conds[(15 : CondId)].status = false ∨ inSet u.alertSet 15 = false →
          t.box.entries = u.box.entries.filter fun a => !a.inFlight))
    ∧ (u.mdm.link ≠ .offered ∨ tag ≠ u.mdm.tag →
      exec (.take dt tag) s = .next { v with mdm := { v.mdm with unexpected := inc16 v.mdm.unexpected } }
      ∧ exec (.modemBusy dt tag) s = .next { v with mdm := { v.mdm with unexpected := inc16 v.mdm.unexpected } })
    ∧ (u.mdm.link ≠ .sending ∨ tag ≠ u.mdm.tag →
      exec (.sent dt tag) s = .next { v with mdm := { v.mdm with unexpected := inc16 v.mdm.unexpected } }
      ∧ exec (.failed dt tag) s = .next { v with mdm := { v.mdm with unexpected := inc16 v.mdm.unexpected } }))
  ∧ ∀ (n : Nat) (nb : Option Time) (a : Alert) (s : State), s.inFlight = some a →
    let t := returnInFlight n nb s
    let others := s.box.entries.filter fun b => !b.inFlight
    let later (x : Option Time) : Option Time :=
      match x, nb with
      | none, y => y
      | x, none => x
      | some x, some y => if y.s < x.s ∨ y.s = x.s ∧ y.t ≤ x.t then some x else some y
    (a.kind = .eventOpen → (∃ b ∈ others, b.kind = .eventClose ∧ b.origin = a.origin) →
      t.box.entries.Perm (others.map fun b =>
        if b.kind = .eventClose ∧ b.origin = a.origin then { b with rank := 0, notBefore := later b.notBefore } else b)
      ∧ t.box.drops = s.box.drops ∧ t.mon = s.mon)
    ∧ (a.kind = .condition → (∃ b ∈ others, b.kind = .condition ∧ b.origin = a.origin) →
      t = { s with box := { s.box with entries := others } })
    ∧ (a.kind = .eventClose ∨ a.kind = .note
        ∨ a.kind = .eventOpen ∧ (∀ b ∈ s.box.entries, ¬ (b.kind = .eventClose ∧ b.origin = a.origin))
        ∨ a.kind = .condition ∧ (∀ b ∈ others, ¬ (b.kind = .condition ∧ b.origin = a.origin)) →
      t = { s with box := { s.box with entries := s.box.entries.map fun b =>
        if b.inFlight = true then { b with inFlight := false, attempts := n, notBefore := nb } else b } })

/-- FAILED, OFFER_TIMEOUT, SEND_TIMEOUT, and READY in OFFERED or SENDING: a failure of the alert in flight counts an attempt and
returns the alert, or drops it at its third, and the third failure in a row leads to BACKOFF with MODEM_FAULT asserted (R128 to
R130, R118, R132); how an alert is dropped, with the close of the same event raised (R118). The model's choices: log 15. -/
def Obligations.ModemFailuresAreCounted : Prop :=
  (∀ (dt : Nat) (tag : Byte) (s u : State), s.powered = true →
    let third : Prop := 3 ≤ u.mdm.fails + 1
    let failedTo (t : State) : Prop :=
      t.mdm.link = (if 3 ≤ u.mdm.fails + 1 then .backoff else .ready)
      ∧ t.mdm.fails = (if 3 ≤ u.mdm.fails + 1 then 0 else u.mdm.fails + 1)
      ∧ t.mdm.fault = (if 3 ≤ u.mdm.fails + 1 then true else u.mdm.fault)
      ∧ (third → t.mon.conds[(15 : CondId)].status = true)
      ∧ ∀ a, u.inFlight = some a → ¬ third ∨ u.mon.conds[(15 : CondId)].status = true ∨ inSet u.alertSet 15 = false →
        (3 ≤ a.attempts + 1 → t.box = (alertDropped u).box ∧ t.mon.figs.dropped = inc16 u.mon.figs.dropped)
        ∧ (a.attempts + 1 < 3 → t.box = (returnInFlight (a.attempts + 1) none u).box
            ∧ t.mon.figs.dropped = u.mon.figs.dropped)
    (u = elapse dt s → u.mdm.link = .sending → tag = u.mdm.tag → ∃ t, exec (.failed dt tag) s = .next t ∧ failedTo t)
    ∧ (u = elapse dt s → u.mdm.link = .offered ∨ u.mdm.link = .sending → ∃ t, exec (.modemReady dt) s = .next t ∧ failedTo t)
    ∧ (s.mdm.link = .offered → reach (s.mdm.since + s.mdm.limit) s = some u →
        ∃ t, exec .offerTimeout s = .next t ∧ failedTo t)
    ∧ (s.mdm.link = .sending → reach (s.mdm.since + s.mdm.limit) s = some u →
        ∃ t, exec .sendTimeout s = .next t ∧ failedTo t))
  ∧ ∀ (a : Alert) (s : State), s.inFlight = some a →
    let t := alertDropped s
    let others := s.box.entries.filter fun b => !b.inFlight
    t.box.drops = inc16 s.box.drops ∧ t.mon.figs.dropped = inc16 s.mon.figs.dropped
    ∧ t.mon.conds[(16 : CondId)].pending = true ∧ t.mon.conds[(16 : CondId)].status = true
    ∧ (a.kind ≠ .eventOpen → t.box.entries = others)
    ∧ (a.kind = .eventOpen → t.box.entries.Perm (others.map fun b =>
        if b.kind = .eventClose ∧ b.origin = a.origin then { b with rank := 0 } else b))

/-- MODEM_BAD_FRAME, MODEM_FRAME_TIMEOUT and MODEM_FRAMING_ERROR: a frame whose check differs, whose length is too great,
that falls silent or has a framing error counts as a bad frame, the silent one also where bytes come after the silence (R124,
R215); its end is a frame boundary, at which the stored divisor is taken (R133). The model's choices: log 12 (the length byte of a
modem frame counts the body alone, so that the check is due after that many body bytes), log 15, log 41 (bytes on the very cycle
at which the silence is complete come after it). -/
def Obligations.BadModemFramesAreCounted : Prop :=
  (∀ s : State,
    (s.mdm.rx ≠ [] → s.mdm.lastByte + 5120 * s.mdm.div ≤ s.osc →
      modemSilence s = { s with mdm := { s.mdm with rx := [], div := s.modemDivisor, bad := inc16 s.mdm.bad } })
    ∧ (s.mdm.rx = [] ∨ s.osc < s.mdm.lastByte + 5120 * s.mdm.div → modemSilence s = s))
  ∧ ∀ (dt : Nat) (s u : State), s.powered = true → u = elapse dt s →
    (∀ (n kind x y : Byte) (body : List Byte), u.mdm.rx = [] → n.toNat ≤ 240 → body.length = n.toNat →
      crcBytes (n :: kind :: body) ≠ [x, y] →
      exec (.modemBadFrame dt (0xC5 :: n :: kind :: body ++ [x, y])) s = .next { u with mdm := { u.mdm with
        lastByte := u.osc, div := u.modemDivisor, bad := inc16 u.mdm.bad } })
    ∧ (∀ n : Byte, u.mdm.rx = [] → 240 < n.toNat → exec (.modemBadFrame dt [0xC5, n]) s = .next { u with mdm := { u.mdm with
        lastByte := u.osc, div := u.modemDivisor, bad := inc16 u.mdm.bad } })
    ∧ (∀ v, s.mdm.rx ≠ [] → reach s.modemGap s = some v → exec .modemFrameTimeout s = .next { v with mdm := { v.mdm with
        rx := [], div := v.modemDivisor, bad := inc16 v.mdm.bad } })
    ∧ (u.mdm.rx ≠ [] → exec (.modemFramingError dt) s = .next { u with mdm := { u.mdm with
        rx := [], div := u.modemDivisor, bad := inc16 u.mdm.bad } })
    ∧ (u.mdm.rx = [] → exec (.modemFramingError dt) s = .next u)

/-! ### The station bus -/

/-- BUS_ADDRESS_CHARACTER, BUS_DATA_CHARACTER and BUS_GAP_TIMEOUT: how a frame is built, checked, refused or becomes the
request in hand with the snapshot of a reading request (its bytes are ReadsAreAnswered's), and where the receiver is disabled (R197
to R200, R106, R207, R213). The model's choices: log 12, 16, 17 (overruns, and address characters with a framing error), 28, 37,
41 (a character on the very cycle at which the gap timer reaches 32). -/
def Obligations.BusFramesAreBuilt : Prop :=
  ∀ (dt : Nat) (b : Byte) (s u : State), s.powered = true → u = elapse dt s →
    let deaf := u.bus.recv = .replying ∨ u.osc < u.bus.listenFrom + 176 * u.bus.div
    let begun : BusFrame := { bcast := b == 0xFF, busy := u.bus.req.isSome || u.bus.restartDue }
    (deaf → ∀ f, exec (.busAddressCharacter dt b f) s = .next u ∧ exec (.busDataCharacter dt b f) s = .next u)
    ∧ (¬ deaf → u.bus.recv = .ignoring ∨ u.bus.recv = .handling → u.bus.frame = none →
      (b.toNat = u.bus.addr ∨ b = 0xFF → exec (.busAddressCharacter dt b .clean) s = .next { u with bus := { u.bus with
        frame := some begun, lastChar := u.osc, recv := if u.bus.recv = .handling then .handling else .receiving } })
      ∧ (b.toNat ≠ u.bus.addr → b ≠ 0xFF → exec (.busAddressCharacter dt b .clean) s = .next u)
      ∧ exec (.busAddressCharacter dt b .framing) s = .next u ∧ ∀ f, exec (.busDataCharacter dt b f) s = .next u)
    ∧ (∀ f, ¬ deaf → u.bus.recv = .receiving ∨ u.bus.recv = .handling → u.bus.frame = some f →
      u.osc < u.bus.lastChar + 32 * (176 * u.bus.div) →
      let put (g : BusFrame) : State := { u with bus := { u.bus with frame := some g, lastChar := u.osc } }
      let gone (n : BusCounters) : State := { u with bus := { u.bus with
        frame := none, recv := if u.bus.recv = .receiving then .ignoring else .handling, counts := n } }
      let broken := { u.bus.counts with broken := inc16 u.bus.counts.broken }
      (b.toNat = u.bus.addr ∨ b = 0xFF → exec (.busAddressCharacter dt b .clean) s = .next { u with bus := { u.bus with
        frame := some begun, lastChar := u.osc, counts := broken } })
      ∧ (b.toNat ≠ u.bus.addr → b ≠ 0xFF → exec (.busAddressCharacter dt b .clean) s = .next (gone broken))
      ∧ (∀ x, x = .busDataCharacter dt b .framing ∨ x = .busAddressCharacter dt b .framing →
        exec x s = .next (gone { u.bus.counts with framing := inc16 u.bus.counts.framing }))
      ∧ (∀ x, u.bus.div < 4 → x = .busDataCharacter dt b .overrun ∨ x = .busAddressCharacter dt b .overrun →
        exec x s = .next (gone { u.bus.counts with overruns := inc16 u.bus.counts.overruns }))
      ∧ (4 ≤ u.bus.div → exec (.busDataCharacter dt b .overrun) s = exec (.busDataCharacter dt b .clean) s)
      ∧ (f.len = none → b.toNat ≤ 240 → exec (.busDataCharacter dt b .clean) s = .next (put { f with len := some b.toNat }))
      ∧ (f.len = none → 240 < b.toNat → exec (.busDataCharacter dt b .clean) s =
          .next (gone { u.bus.counts with oversize := inc16 u.bus.counts.oversize }))
      ∧ (∀ n, f.len = some n → f.kind = none →
          exec (.busDataCharacter dt b .clean) s = .next (put { f with kind := some b }))
      ∧ (∀ n k, f.len = some n → f.kind = some k → f.body.length < n →
          exec (.busDataCharacter dt b .clean) s = .next (put { f with body := f.body ++ [b] }))
      ∧ (∀ n k, f.len = some n → f.kind = some k → n ≤ f.body.length → f.crc = [] →
          exec (.busDataCharacter dt b .clean) s = .next (put { f with crc := [b] }))
      ∧ (∀ n k x, f.len = some n → f.kind = some k → n ≤ f.body.length → f.crc = [x] →
          (crcBytes (byte n :: k :: f.body) ≠ [x, b] → exec (.busDataCharacter dt b .clean) s =
            .next (gone { u.bus.counts with crc := inc16 u.bus.counts.crc }))
          ∧ (crcBytes (byte n :: k :: f.body) = [x, b] →
              f.busy = true ∨ u.bus.req.isSome = true ∨ u.bus.restartDue = true →
            exec (.busDataCharacter dt b .clean) s =
              .next (gone { u.bus.counts with busyOverrun := inc16 u.bus.counts.busyOverrun }))
          ∧ (crcBytes (byte n :: k :: f.body) = [x, b] → f.busy = false → u.bus.req = none → u.bus.restartDue = false →
            ∃ t q, exec (.busDataCharacter dt b .clean) s = .next t ∧ t.bus.req = some q ∧ t.bus.recv = .handling
              ∧ t.bus.frame = none ∧ q.bcast = f.bcast ∧ q.kind = k ∧ q.body = f.body ∧ q.cycle = u.osc
              ∧ q.ticks = u.clk.ticks
              ∧ q.stamp = u.stamp ∧ q.eventActive = u.eventActive ∧ q.forbidden = (u.eventActive || u.calRunning)
              ∧ (let y := signedOf 32 (field f.body 1 4)
                 let written (n : Nat) := f.bcast = true ∧ k = 0x11 ∧ f.body.length = 5 ∧ field f.body 0 1 = n
                 t.bus.addr = (if written 120 then (max 1 (min 254 y)).toNat else u.bus.addr)
                 ∧ t.bus.div = (if written 121 then (max 1 (min 255 y)).toNat else u.bus.div))
              ∧ t.bus.counts.goodOwn = (if f.bcast = true then u.bus.counts.goodOwn else inc16 u.bus.counts.goodOwn)
              ∧ t.bus.counts.goodBcast = (if f.bcast = true then inc16 u.bus.counts.goodBcast else u.bus.counts.goodBcast)
              ∧ (k = 0x02 → f.body = [] → q.snapshot = some (0x00 :: u.timeBody))
              ∧ (k = 0x04 → f.body = [] → q.snapshot = some (0x00 :: u.clockBody))
              ∧ (k = 0x50 → f.body = [] → q.snapshot = some (0x00 :: u.conditionsBody))
              ∧ (k = 0x52 → f.body = [] → q.snapshot = some (0x00 :: u.intervalBody))
              ∧ (k = 0x60 → f.body = [] → q.snapshot = some (0x00 :: u.powerBody))
              ∧ (k = 0x01 → f.body = [] → f.bcast = false → q.snapshot = some (0x00 ::
                  (gone { u.bus.counts with goodOwn := inc16 u.bus.counts.goodOwn }).statusBody))
              ∧ (k = 0x30 → f.body.length = 4 → q.snapshot = some (0x00 :: u.indexBody (field f.body 0 4)))
              ∧ (k = 0x70 → f.body.length = 1 → q.snapshot = some (0x00 :: u.outboxBody (field f.body 0 1)))
              ∧ (∀ c : Chan, k = 0x21 → f.body.length = 1 → field f.body 0 1 = c.val →
                  q.snapshot = some (0x00 :: u.detectorBody c))
              ∧ (k = 0x21 → f.body.length = 1 → 6 ≤ field f.body 0 1 → q.snapshot = some [0x04])
              ∧ (∀ c : Chan, k = 0x33 → f.body.length = 8 → field f.body 0 1 = c.val → field f.body 7 1 ≠ 0 →
                  q.snapshot = some (u.samplesReply c (field f.body 1 6) (field f.body 7 1)))
              ∧ (k = 0x33 → f.body.length = 8 → 6 ≤ field f.body 0 1 ∨ field f.body 7 1 = 0 → q.snapshot = some [0x04]))))
    ∧ (∀ f x, ¬ deaf → u.bus.recv = .receiving ∨ u.bus.recv = .handling → u.bus.frame = some f →
      u.bus.lastChar + 32 * (176 * u.bus.div) ≤ u.osc →
      let broken := { u.bus.counts with broken := inc16 u.bus.counts.broken }
      let lost : State := { u with bus := { u.bus with
        frame := none, recv := if u.bus.recv = .receiving then .ignoring else .handling, counts := broken } }
      exec (.busDataCharacter dt b x) s = .next lost
      ∧ (b.toNat = u.bus.addr ∨ b = 0xFF → exec (.busAddressCharacter dt b .clean) s = .next { u with bus := { u.bus with
        frame := some begun, lastChar := u.osc, counts := broken } })
      ∧ (b.toNat ≠ u.bus.addr → b ≠ 0xFF → exec (.busAddressCharacter dt b .clean) s = .next lost))
    ∧ (∀ f v, s.bus.frame = some f → reach (s.bus.lastChar + 32 * (176 * s.bus.div)) s = some v →
      exec .busGapTimeout s = .next { v with bus := { v.bus with
        counts := { v.bus.counts with broken := inc16 v.bus.counts.broken }, frame := none,
        recv := if v.bus.recv = .receiving then .ignoring else v.bus.recv } })

/-- A handled request has its reply ready, or, broadcast, ends the busy period; a type outside the catalogue is answered
UNKNOWN_TYPE and a body of the wrong length BAD_LENGTH. REPLY_START and REPLY_END: when the reply goes out, what it is made
of, the frame in progress that it breaks, and what its end leaves (R201 to R203, R43). The model's choices: log 12 (the reply's
type is the sum modulo 256), log 16 (the address and the divisor stay those of the reply where a RESTART is due), log 28 (a
frame being taken when a broadcast ends). -/
def Obligations.RequestsAreAnswered : Prop :=
  ∀ (q : Request) (s : State), s.bus.req = some q →
    (∀ reply, q.bcast = false → finish reply s = s.replied reply)
    ∧ (∀ reply, q.bcast = true → finish reply s = { s with bus := { s.bus with
        req := none, recv := if s.bus.frame.isSome then .receiving else .ignoring,
        addr := s.stationAddress, div := s.busDivisor } })
    ∧ (s.powered = true → s.bus.recv = .handling → s.bus.reply = none → q.kind ∉ catalogue →
        exec .unknownType s = .next (finish [0x02] s))
    ∧ (∀ x ∈ ([(.status, 0x01), (.timeGet, 0x02), (.timeSet, 0x03), (.clockDetail, 0x04), (.paramGet, 0x10),
          (.paramSet, 0x11), (.settingsSave, 0x12), (.detectorSet, 0x20), (.detectorGet, 0x21), (.mapSet, 0x22), (.mapGet, 0x23),
          (.eventIndex, 0x30), (.eventGet, 0x31), (.eventRelease, 0x32), (.samplesFetch, 0x33), (.marksTake, 0x40),
          (.calAdd, 0x41), (.calCancel, 0x42), (.calList, 0x43), (.conditionsGet, 0x50), (.pendingClear, 0x51),
          (.intervalGet, 0x52), (.powerGet, 0x60), (.outputRestartCharger, 0x61), (.outputRestartHeater, 0x61),
          (.outboxGet, 0x70), (.noteSend, 0x71), (.restart, 0x7F)] : List (Instr × Byte)),
        s.misfit x.2 q → s.store.saving = none → exec x.1 s = .next (finish [0x03] s))
    ∧ (∀ (dt : Nat) (r : List Byte), s.powered = true → s.bus.recv = .handling → s.bus.reply = some r →
        let u := elapse (max dt (q.cycle + 2 * (176 * s.bus.div) - s.osc)) s
        q.cycle + 2 * (176 * s.bus.div) ≤ u.osc →
        let l := byte r.length :: (q.kind + 0x80) :: r
        exec (.replyStart dt) s = .next { u with bus := { u.bus with
          frame := none
          counts := if s.bus.frame.isSome then { u.bus.counts with broken := inc16 u.bus.counts.broken } else u.bus.counts
          recv := .replying, reply := none, tx := 0x00 :: l ++ crcBytes l, txAt := u.osc, de := true } })
    ∧ (∀ u, s.powered = true → s.bus.recv = .replying →
        reach (s.bus.txAt + s.bus.tx.length * (176 * s.bus.div)) s = some u →
        let due := q.kind == 0x7F && q.body.isEmpty
        exec .replyEnd s = .next { u with
          sch := { u.sch with cals := u.sch.cals.filter fun c => !q.reported.contains c.id }
          bus := { u.bus with
            counts := { u.bus.counts with replies := inc16 u.bus.counts.replies }, recv := .ignoring, req := none,
            tx := [], de := false, listenFrom := u.osc, restartDue := due, addr := if due then u.bus.addr else u.stationAddress,
            div := if due then u.bus.div else u.busDivisor } })

/-- STATUS, TIME_GET, CLOCK_DETAIL, DETECTOR_GET, EVENT_INDEX, SAMPLES_FETCH, CONDITIONS_GET, INTERVAL_GET, POWER_GET and
OUTBOX_GET answer with the snapshot of their receipt; PARAM_GET, MAP_GET and EVENT_GET answer from the state, and none of
them changes anything but the bus (R201, R205, R58, R103). The bytes of each, named values numbered as R214 says: R212, R21, R85,
R188, R194, R156 and R177, and R58 and R103; the walks of EVENT_INDEX and OUTBOX_GET, eight at a time with the more mark (R102,
R120); of SAMPLES_FETCH GONE, CLAMPED, the count returned and the slots (R106, R107). The model's choices: log 11, 12, 13, 38. -/
def Obligations.ReadsAreAnswered : Prop :=
  ∀ (q : Request) (s : State),
    (∀ x ∈ ([(.status, 0x01), (.timeGet, 0x02), (.clockDetail, 0x04), (.detectorGet, 0x21), (.eventIndex, 0x30),
        (.samplesFetch, 0x33), (.conditionsGet, 0x50), (.intervalGet, 0x52), (.powerGet, 0x60), (.outboxGet, 0x70)]
        : List (Instr × Byte)),
      s.serving x.2 q → ∀ b, q.snapshot = some b → exec x.1 s = .next (finish b s))
    ∧ (s.serving 0x10 q →
      (∀ r, paramRow (field q.body 0 1) = some r → exec .paramGet s =
        .next (finish ([0x00, byte (field q.body 0 1)] ++ beInt 4 (s.param (field q.body 0 1)) ++ beInt 4 r.dflt) s))
      ∧ (paramRow (field q.body 0 1) = none → exec .paramGet s = .next (finish [0x09] s)))
    ∧ (s.serving 0x23 q → exec .mapGet s = .next (finish (0x00 :: s.mapBody) s))
    ∧ (s.serving 0x31 q →
      (∀ r, ((s.evt.list ++ s.evt.record.toList).find? fun r => r.number == field q.body 0 4) = some r →
        exec .eventGet s = .next (finish (0x00 :: r.bytes) s))
      ∧ ((∀ r ∈ s.evt.list ++ s.evt.record.toList, r.number ≠ field q.body 0 4) →
        exec .eventGet s = .next (finish [0x09] s)))
    ∧ ([Source.stored, .defaults].map Source.code = [0, 1]
      ∧ [Disc.unset, .acquire, .track, .holdover].map Disc.code = [0, 1, 2, 3]
      ∧ [HoldReason.ppsLoss, .gnssOff, .shed, .hostSet].map HoldReason.code = [0, 1, 2, 3]
      ∧ [Grade.U, .A, .B, .C, .D].map Grade.code = [0, 1, 2, 3, 4]
      ∧ [Supply.continuous, .session, .resting, .shedOff].map Supply.code = [0, 1, 2, 3]
      ∧ [Link.off, .starting, .up, .down].map Link.code = [0, 1, 2, 3]
      ∧ [TrigState.off, .warmup, .quiet, .triggered, .suppressed].map TrigState.code = [0, 1, 2, 3, 4]
      ∧ [EvState.idle, .opened, .closing, .rearm].map EvState.code = [0, 1, 2, 3]
      ∧ [RecState.opened, .closing, .closed].map RecState.code = [0, 1, 2]
      ∧ [BatClass.normal, .low, .critical].map BatClass.code = [0, 1, 2]
      ∧ [PowerState.run, .shed].map PowerState.code = [0, 1]
      ∧ [Charge.idle, .coldHold, .hotHold, .bulk, .absorb, .float, .fault].map Charge.code = [0, 1, 2, 3, 4, 5, 6]
      ∧ [HeatState.regulate, .held, .shutdown, .off].map HeatState.code = [0, 1, 2, 3]
      ∧ [ModemLink.off, .starting, .ready, .offered, .sending, .backoff].map ModemLink.code = [0, 1, 2, 3, 4, 5]
      ∧ [AlertKind.eventOpen, .eventClose, .condition, .note].map AlertKind.code = [0, 1, 2, 3])
    ∧ (let flag (b : Bool) : Byte := if b = true then 1 else 0
       let opt (n : Nat) (x : Option (List Byte)) : List Byte := match x with
         | none => 0 :: List.replicate n 0
         | some l => 1 :: l
       let stamp (x : Stamp) := beBytes 4 x.time.s ++ beBytes 4 x.time.t ++ [x.grade.code]
       let grade := gradeOf s.clk.disc s.clk.u
       let records := s.evt.list ++ s.evt.record.toList
       let k := s.bus.counts
       let entry (e : MapEntry) : List Byte := [match e.source with
         | none => 0xFF
         | some x => byte x.val, flag e.inverted, byte e.component.val, e.sensor]
       let mapped (m : ChanMap) := entry m.entries[(0 : Chan)] ++ entry m.entries[(1 : Chan)] ++ entry m.entries[(2 : Chan)]
         ++ entry m.entries[(3 : Chan)] ++ entry m.entries[(4 : Chan)] ++ entry m.entries[(5 : Chan)]
         ++ [(if m.reversed[(0 : PortId)] = true then 1 else 0) + if m.reversed[(1 : PortId)] = true then 2 else 0]
       let figures (f : Figures) := ([f.ports[(0 : PortId)], f.ports[(1 : PortId)]].flatMap fun p =>
           beBytes 2 p.sync ++ beBytes 2 p.crc ++ beBytes 2 p.skips ++ beBytes 2 p.gaps)
         ++ beBytes 4 f.chargeIn ++ beBytes 4 f.chargeOut ++ opt 2 (f.minVb.map (beBytes 2)) ++ opt 2 (f.minTp.map (beInt 2))
         ++ beBytes 2 f.onSeconds ++ beBytes 4 (f.energy / 1000) ++ beBytes 2 f.sent ++ beBytes 2 f.dropped
       let blocked (c : CondId) : Bool := c.val == 7 && s.mon.conds[(3 : CondId)].status
         || c.val == 8 && s.mon.conds[(4 : CondId)].status || c.val == 11 && s.mon.conds[(14 : CondId)].status
       (∃ statuses marks : Nat,
          (∀ c : CondId, statuses.testBit c.val = s.mon.conds[c].status ∧ marks.testBit c.val = s.mon.conds[c].pending)
          ∧ statuses < 2 ^ 18 ∧ marks < 2 ^ 18
          ∧ s.statusBody = [s.store.source.code, flag s.store.clamped]
            ++ beBytes 4 (match s.store.image with | none => 0 | some (_, x) => x.generation) ++ beBytes 2 s.store.saves
            ++ beBytes 2 s.store.saveFails ++ beBytes 2 s.bus.restarts ++ beBytes 2 k.framing ++ beBytes 2 k.overruns
            ++ beBytes 2 k.oversize ++ beBytes 2 k.broken ++ beBytes 2 k.crc ++ beBytes 2 k.goodOwn ++ beBytes 2 k.goodBcast
            ++ beBytes 2 k.replies ++ beBytes 2 k.busyOverrun
            ++ beBytes 4 s.clk.s ++ beBytes 4 s.clk.t ++ [s.clk.disc.code] ++ opt 1 (s.clk.reason.map fun x => [x.code])
            ++ [grade.code] ++ beBytes 4 s.clk.u ++ [flag s.clk.stepDeferred, s.clk.supply.code]
            ++ beBytes 6 (match s.sch.last with | none => (Config.noStrobeYet s.free).toNat | some n => n) ++ [byte s.sch.rate]
            ++ opt 1 (s.sch.pending.map fun x => [byte x]) ++ opt 6 (s.sch.lastBreak.map (beBytes 6)) ++ beBytes 2 s.sch.breaks
            ++ [byte s.sch.cals.length, flag s.calRunning, s.prt[(0 : PortId)].link.code, s.prt[(1 : PortId)].link.code,
              s.evt.state.code]
            ++ opt 4 (s.evt.record.map fun x => beBytes 4 x.number) ++ opt 6 (s.evt.lastVoted.map fun x => beBytes 6 x.strobe)
            ++ beBytes 4 (s.evt.number.getD 0) ++ [byte s.evt.list.length, byte s.bat.soc, s.bat.cls.code, s.bat.power.code,
              s.bat.charge.code, s.htr.state.code, byte s.box.entries.length]
            ++ beInt 1 s.box.credits ++ [s.mdm.link.code, flag s.mdm.fault] ++ beBytes 4 statuses ++ beBytes 4 marks
            ++ [flag s.mon.degraded, flag s.evt.wakeTerm, flag s.mon.wake])
       ∧ s.timeBody = beBytes 4 s.clk.s ++ beBytes 4 s.clk.t ++ [grade.code, s.clk.disc.code] ++ beBytes 4 s.clk.u
       ∧ s.clockBody = [s.clk.disc.code] ++ opt 1 (s.clk.reason.map fun x => [x.code]) ++ beInt 2 s.clk.r ++ beInt 2 s.clk.c
          ++ beInt 1 s.clk.acc ++ beBytes 4 s.clk.u ++ [grade.code, byte s.clk.lock, byte s.clk.unlock, byte s.clk.mismatch]
          ++ beInt 4 (s.clk.offset.getD 0) ++ [flag s.clk.stepDeferred]
          ++ opt 5 (s.clk.label.map fun x => beBytes 4 x.secs ++ [byte x.fix]) ++ beInt 2 s.clk.rLoss ++ beInt 2 s.clk.tLoss
          ++ [s.clk.supply.code] ++ opt 4 (if s.clk.supply = .resting then some (beBytes 4 s.clk.rest) else none)
          ++ opt 4 (if s.clk.supply = .session then some (beBytes 4 s.clk.session) else none)
          ++ opt 4 (if s.clk.supply = .session then some (beBytes 4 s.clk.hold) else none)
          ++ beBytes 2 s.clk.labelErrors ++ beBytes 2 s.clk.unfixed ++ beBytes 2 s.clk.steps
       ∧ (∀ c : Chan,
          let x := s.chn[c]
          s.detectorBody c = [byte x.det.staShift, byte x.det.ltaShift] ++ beBytes 2 x.det.onRatio ++ beBytes 2 x.det.offRatio
            ++ beBytes 2 x.det.floor ++ beBytes 2 x.det.trigMax ++ [byte x.det.weight, flag x.det.enable, x.state.code]
            ++ beBytes 4 x.sta ++ beBytes 4 x.lta ++ beBytes 4 (max x.lta (x.det.floor * 256)) ++ beBytes 2 x.ratio
            ++ beBytes 2 x.warmup ++ [flag x.warmed, flag x.frozen, flag x.released] ++ beBytes 3 x.age ++ [flag x.supp]
            ++ beInt 3 x.prev ++ opt 6 (x.last.map (beBytes 6)) ++ beBytes 2 x.count ++ entry s.map.entries[c]
            ++ [match s.map.entries[c].source with
              | none => Config.noSourceLink s.free
              | some y => s.prt[portOf y].link.code])
       ∧ s.mapBody = mapped s.map ++ opt 25 (s.pendingMap.map mapped)
          ++ ([s.prt[(0 : PortId)], s.prt[(1 : PortId)]].flatMap fun p =>
            [p.link.code, flag (decide (p.link ≠ .off)), flag p.alarm, byte p.badRun, byte p.goodRun] ++ beBytes 2 p.downs)
       ∧ (∀ r : EvRecord,
          r.header = beBytes 4 r.number ++ [r.state.code] ++ stamp r.openStamp ++ beBytes 6 r.openStrobe
            ++ beBytes 2 (match r.close with | none => 65535 | some x => x.duration)
            ++ [byte r.peakS, byte r.list.length, r.flags.toByte]
          ∧ r.bytes = beBytes 4 r.number ++ [r.state.code] ++ stamp r.openStamp ++ beBytes 6 r.openStrobe ++ beBytes 6 r.preStart
            ++ opt 17 (r.close.map fun x => stamp x.stamp ++ beBytes 6 x.strobe ++ beBytes 2 x.duration)
            ++ [byte r.peakS, r.flags.toByte, byte r.list.length] ++ (r.list.flatMap fun e => [byte e.chan.val] ++ beInt 2 e.offset
              ++ beBytes 2 e.peak.ratio ++ beBytes 3 e.peak.absx ++ [flag e.peak.clipped, byte e.onCount])
          ∧ ([0, 1, 2, 3, 4, 5, 6, 7].map fun i => r.flags.toByte.getLsbD i) = [r.flags.truncated, r.flags.aborted, r.flags.shed,
            r.flags.degraded, r.flags.timePoor, r.flags.stepDeferred, r.flags.calDeferred, r.flags.heatHeld])
       ∧ (∀ first : Nat, ∃ shown rest, (records.filter fun r => decide (first ≤ r.number)) = shown ++ rest
          ∧ shown.length ≤ 8 ∧ (rest ≠ [] → shown.length = 8)
          ∧ s.indexBody first = [s.evt.state.code] ++ beBytes 4 (s.evt.number.getD 0) ++ [byte s.evt.list.length]
            ++ beBytes 4 s.evt.released ++ beBytes 2 s.evt.lost
            ++ [flag s.evt.wakeTerm, byte shown.length, flag (!rest.isEmpty)] ++ shown.flatMap EvRecord.header)
       ∧ (∀ first : Nat, ∃ shown rest, s.box.entries.drop first = shown ++ rest
          ∧ shown.length ≤ 8 ∧ (rest ≠ [] → shown.length = 8)
          ∧ s.outboxBody first = beInt 1 s.box.credits ++ [byte s.creditCap, s.mdm.link.code,
              flag (decide (s.mdm.link ≠ .off ∧ s.mdm.link ≠ .backoff)), byte s.mdm.fails, flag s.mdm.fault]
            ++ beBytes 2 s.box.sent ++ beBytes 2 s.box.drops ++ beBytes 2 s.mdm.bad ++ beBytes 2 s.mdm.unexpected
            ++ beBytes 2 s.mdm.startTimeouts ++ [byte s.box.entries.length, byte shown.length, flag (!rest.isEmpty)]
            ++ shown.flatMap fun a => [a.kind.code, byte a.rank] ++ beBytes 4 a.origin ++ stamp a.created
              ++ [flag a.inFlight, byte a.attempts] ++ opt 8 (a.notBefore.map fun x => beBytes 4 x.s ++ beBytes 4 x.t)
              ++ match a.content with
                | .condition _ v n _ => [flag v, byte n]
                | .note l => [0, byte l.length]
                | _ => [0, 0])
       ∧ s.conditionsBody = (([0, 1, 2, 3, 4, 5, 6, 7, 8, 9, 10, 11, 12, 13, 14, 15, 16, 17] : List CondId).flatMap fun c =>
            let x := s.mon.conds[c]
            [byte ((if x.status = true then 1 else 0) + (if x.pending = true then 2 else 0) + (if blocked c = true then 4 else 0)
              + if x.last.isSome = true then 8 else 0)] ++ beBytes 2 x.changes
            ++ match x.last with | none => List.replicate 9 0 | some y => stamp y)
          ++ beBytes 4 s.wakeSet ++ beBytes 4 s.alertSet ++ beBytes 4 s.degradedSet
          ++ [flag s.mon.degraded, flag s.evt.wakeTerm, flag s.mon.wake]
       ∧ s.intervalBody = beBytes 2 s.intervalLen ++ beBytes 4 s.mon.number ++ beBytes 4 s.mon.start ++ figures s.mon.figs
          ++ beBytes 2 s.mon.figs.readings ++ opt 51 (s.mon.report.map fun r => figures r.figures ++ beBytes 4 r.number
            ++ beBytes 4 r.start ++ beBytes 2 r.figures.readings ++ beInt 1 r.credits)
       ∧ (let p := s.pwr
          let b := s.bat
          let h := s.htr
          s.powerBody = beBytes 2 p.vb ++ beInt 2 p.ib ++ beBytes 2 p.vs ++ beInt 2 p.tp ++ [flag p.tpValid] ++ beInt 2 p.tv
            ++ [flag p.tvValid, flag p.solar] ++ beBytes 4 b.q ++ beBytes 4 (s.capacity * 3600)
            ++ [byte b.soc, b.cls.code, b.power.code, byte b.cutoff, byte b.reconnect, byte b.empty, b.charge.code,
              flag (decide (b.charge = .bulk ∨ b.charge = .absorb ∨ b.charge = .float))]
            ++ beBytes 2 b.limit ++ beBytes 2 b.duty ++ beBytes 2 b.absorb ++ [byte b.term, byte b.floatLow, byte b.overRun]
            ++ beBytes 2 b.clear ++ [byte b.restarts, flag b.hold.isSome] ++ beBytes 2 (b.hold.getD 0)
            ++ beBytes 2 b.fullSyncs ++ beBytes 2 b.emptySyncs ++ beBytes 2 b.faults ++ beBytes 2 b.sheds
            ++ [h.state.code, flag s.heatEnable] ++ beInt 4 h.target ++ beInt 4 h.error ++ beBytes 2 h.limit ++ beBytes 2 h.request
            ++ beBytes 2 h.latched ++ opt 4 (h.period.map (beBytes 4)) ++ [flag h.heat, flag h.hold.isSome]
            ++ beBytes 2 (h.hold.getD 0) ++ [flag h.holdFlagged] ++ beBytes 5 h.today ++ beBytes 2 h.day
            ++ [flag h.spent, flag h.fault, flag (decide (s.tHeaterCutoff < p.tp)), flag (!p.tpValid), flag h.fault, byte h.clear]
            ++ beBytes 2 h.count)
       ∧ ∀ (c : Chan) (first count : Nat),
          let r := s.rings[c]
          let far (a b : Nat) := (b + 281474976710656 - a) % 281474976710656
          let within : Prop := ∃ n, r.newest = some n ∧ far r.oldest first ≤ far r.oldest n
          let slot (i : Nat) := r.slot ((first + i) % 281474976710656)
          let ends := beBytes 6 r.oldest ++ opt 6 (r.newest.map (beBytes 6))
          (first < r.oldest → ¬ within → s.samplesReply c first count = 0x07 :: ends)
          ∧ (r.oldest ≤ first ∨ within → ∃ held gaps clips,
              s.samplesReply c first count = (if 60 < count then 0x01 else 0x00) :: byte c.val :: beBytes 6 first ++ [byte held]
                ++ ends ++ ((List.range held).flatMap fun i => beInt 3 (slot i).value) ++ gaps ++ clips
              ∧ (¬ within → held = 0)
              ∧ (∀ n, r.newest = some n → within → held = min (min count 60) (far first n + 1))
              ∧ (∀ n, r.newest = some n → n < 281474976710656 → r.oldest ≤ first → first < 281474976710656 → r.oldest ≤ n →
                  held = if first ≤ n then min (min count 60) (n - first + 1) else 0)
              ∧ gaps.length = (held + 7) / 8 ∧ clips.length = (held + 7) / 8
              ∧ ∀ i, i < held → (gaps.getD (i / 8) 0).getLsbD (7 - i % 8) = (slot i).gap
                  ∧ (clips.getD (i / 8) 0).getLsbD (7 - i % 8) = (slot i).clip))

/-- PARAM_SET: an unknown number and a `sample_rate` with an event open are refused; any other value is fitted to its range
and stored, no other parameter changes (R206, R36), and the owner of the parameter does its immediate work at once, whatever the
number: HOLDOVER_LIMIT judged (R22), the input cleared (R29), the pending rate (R36), the port supply and its link (R49, R50, R53,
R54, R60, R74), DIGn_ERRORS judged (R183), the wake term of the index and WAKE (R105, R185), the credits (R121), the charge
(R138), the test of the charge temperatures (R146, R148), the heater state (R175), the duty limit and the budget (R166, R168), the
degraded flag (R186), the recorded interval number (R193); any other number changes its parameter alone. The model's choices:
log 4 (a written setting ends the moment of a boundary), log 9 (a link enters OFF before the gap of its open window is written),
log 11 (the event state that refuses a `sample_rate` is that of the receipt), log 26 (the reported duty limit and request stay
those of the latest reading). -/
def Obligations.ParametersAreWritten : Prop :=
  let acted (n : Nat) (s t : State) : Prop :=
    let u : State := { s with params := t.params, moment := {} }
    let status (i : CondId) : Prop := t.mon.conds[i].status = true
    let reported (L : List Part) (l : List CondId) : Prop :=
      OnlyIn (L ++ [.box, .mon]) u t ∧ ∀ d, d ∉ l → d.val ≠ 16 → t.mon.conds[d] = s.mon.conds[d]
    let supply (p : PortId) (on : Prop) : Prop :=
      let x := s.prt[p]
      (on → x.link ≠ .off → t = u) ∧ (¬ on → x.link = .off → t = u)
      ∧ (on → x.link = .off → t = { u with prt := s.prt.set p { x with
          link := .starting, window := none, transfer := none, startAt := s.osc, badRun := 0, goodRun := 0, last := none
          alarm := false } })
      ∧ (¬ on → x.link ≠ .off → OnlyIn Part.slots u t ∧ t.prt = s.prt.set p { x with
            link := .off, window := none, transfer := none, startAt := 0, badRun := 0, goodRun := 0, alarm := false }
        ∧ (∀ i : CondId, i.val = 3 + p.val ∨ i.val = 5 + p.val → ¬ status i)
        ∧ (s.canonical → ∀ c : Chan,
          (s.sourcePort c ≠ some p → t.chn[c] = s.chn[c]) ∧ (s.sourcePort c = some p → t.chn[c].state = .off)
          ∧ (s.sourcePort c ≠ some p ∨ x.window = none → t.rings[c] = s.rings[c])
          ∧ ∀ k, s.sourcePort c = some p → x.window = some k →
            t.rings[c].newest = some k ∧ t.rings[c].slot k = ⟨s.rings[c].previous k, true, false⟩))
    let tested (on : Bool) : Prop :=
      let halted (c : Charge) : Prop := reported [.bat] [11, 12] ∧ (status 11 ↔ c = .coldHold) ∧ ¬ status 12
        ∧ t.bat = { (if s.bat.charge = .bulk then s.bat else { s.bat with absorb := 0, term := 0, floatLow := 0 }) with
            charge := c, limit := 0 }
      (on = true → s.pwr.tp < t.tChargeMin → halted .coldHold)
      ∧ (on = true → t.tChargeMin ≤ s.pwr.tp → t.tChargeMax < s.pwr.tp → halted .hotHold)
      ∧ (on = false ∨ t.tChargeMin ≤ s.pwr.tp ∧ s.pwr.tp ≤ t.tChargeMax → t = u)
    let limited (spent : Bool) : Prop :=
      let limit := match s.bat.cls with
        | .normal => t.dutyMaxNormal
        | .low => if spent = true ∧ s.pwr.solar = false then 0 else t.dutyMaxLow
        | .critical => if s.pwr.solar = true then t.dutyMaxNormal else 0
      let stop := s.htr.periodAt + limit * s.htr.periodLen * 10000
      let high : Prop := s.htr.heat = true ∧ s.osc < stop ∧ 0 < limit
      (s.htr.latched ≤ limit → t = { u with htr := { s.htr with spent := spent } })
      ∧ (limit < s.htr.latched → high →
          t = { u with htr := { s.htr with spent := spent, latched := limit, heatEnd := some stop } })
      ∧ (limit < s.htr.latched → ¬ high →
          t = { u with htr := { s.htr with spent := spent, latched := limit, heat := false, heatEnd := none } })
    let heated (on : Prop) : Prop :=
      (s.htr.state = .shutdown ∨ s.htr.state = .off ∧ ¬ on ∨ (s.htr.state = .regulate ∨ s.htr.state = .held) ∧ on → t = u)
      ∧ (s.htr.state = .off → on →
          t = { u with htr := { s.htr with state := if s.htr.hold.isSome = true then .held else .regulate } })
      ∧ (s.htr.state = .regulate ∨ s.htr.state = .held → ¬ on →
          t = { u with htr := { s.htr with state := .off, heat := false, heatEnd := none, latched := 0 } })
    let wake (w : Bool) : Bool := (allConds.any fun c => s.mon.conds[c].pending && t.wakeSet.testBit c.val) || w
    (n = 8 → reported [] [0, 1, 2] ∧ (status 0 ↔ s.clk.disc = .holdover ∧ s.clk.reason = some .ppsLoss)
      ∧ (status 1 ↔ t.holdoverLimit * 1000 < s.clk.u) ∧ (status 2 ↔ s.clk.disc = .unset))
    ∧ (n ∈ [20, 21, 22] → t = { u with mrk := { s.mrk with pps := { s.mrk.pps with count := 0, edge := none } } })
    ∧ (n ∈ [23, 24, 25] → t = { u with mrk := { s.mrk with markA := { s.mrk.markA with count := 0, edge := none } } })
    ∧ (n ∈ [26, 27, 28] → t = { u with mrk := { s.mrk with markB := { s.mrk.markB with count := 0, edge := none } } })
    ∧ (n = 30 → t = { u with sch := { s.sch with pending := if t.sampleRate = s.sch.rate then none else some t.sampleRate } })
    ∧ (n = 40 → supply 0 (t.digEnable0 = true ∧ s.bat.power = .run))
    ∧ (n ∈ [41, 42] → supply 1 (t.digEnable1 = true ∧ s.bat.power = .run ∧ (s.bat.cls ≠ .critical ∨ t.shedD1Critical = false)))
    ∧ (∀ p : PortId, n = 43 + p.val →
        let f := s.mon.figs.ports[p]
        reported [] [if p = 0 then 7 else 8]
          ∧ (status (if p = 0 then 7 else 8) ↔ (t.param n).toNat < f.sync + f.crc + f.gaps))
    ∧ (n = 55 → t = { u with
        evt := { s.evt with wakeTerm := t.eventWake && !s.evt.list.isEmpty }
        mon := { s.mon with wake := wake (t.eventWake && !s.evt.list.isEmpty) } })
    ∧ (n = 62 → t = { u with box := { s.box with credits := min s.box.credits t.creditCap } })
    ∧ (n = 70 → t = { u with bat := { s.bat with q := min s.bat.q (t.capacity * 3600) } })
    ∧ (n ∈ [83, 84] → tested ((s.bat.charge == .bulk || s.bat.charge == .absorb || s.bat.charge == .float) && s.pwr.solar))
    ∧ (n = 90 → heated (s.bat.power = .run ∧ t.heatEnable = true))
    ∧ (n ∈ [95, 96] → limited s.htr.spent)
    ∧ (n = 98 → limited (decide (t.dailyHeatBudgetLow * 3600000 ≤ s.htr.today)))
    ∧ (n = 110 → t = { u with mon := { s.mon with wake := wake s.evt.wakeTerm } })
    ∧ (n = 112 → t = { u with mon := { s.mon with
        degraded := allConds.any fun c => s.mon.conds[c].status && t.degradedSet.testBit c.val } })
    ∧ (n = 113 → t = if t.intervalLen = s.intervalLen then u
        else { u with mon := { s.mon with number := s.clk.s / t.intervalLen } })
    ∧ (n ∉ [8, 20, 21, 22, 23, 24, 25, 26, 27, 28, 30, 40, 41, 42, 43, 44, 55, 62, 70, 83, 84, 90, 95, 96, 98, 110, 112, 113] →
        t = u)
  ∀ (q : Request) (s : State), s.serving 0x11 q → Sparse.wf paramDefault s.params = true →
    let n := field q.body 0 1
    let x := signedOf 32 (field q.body 1 4)
    (paramRow n = none → exec .paramSet s = .next (finish [0x09] s))
    ∧ (n = 30 → q.eventActive = true → exec .paramSet s = .next (finish [0x06] s))
    ∧ ∀ r, paramRow n = some r → ¬ (n = 30 ∧ q.eventActive = true) →
      ∃ t y, exec .paramSet s = .next (finish ((if y = x then 0x00 else 0x01) :: byte n :: beInt 4 y) t)
        ∧ t.param n = y ∧ (∀ m, m ≠ n → t.param m = s.param m)
        ∧ (∀ lo hi, r.fit = .range lo hi → y = max lo (min hi x))
        ∧ (∀ l, r.fit = .oneOf l → y ∈ l ∧ ∀ v ∈ l, (x - y).natAbs < (x - v).natAbs ∨
            (x - y).natAbs = (x - v).natAbs ∧ v ≤ y)
        ∧ (∀ m, r.fit = .condSet m → y = (((x % 4294967296).toNat &&& m : Nat) : Int))
        ∧ (n = 30 → t.sch.pending = if y.toNat = s.sch.rate then none else some y.toNat)
        ∧ acted n s t

/-- TIME_SET and MAP_SET: the checks in their order, then the setting (R20, R56). The model's choices: log 11 (the state of the
clock is that of the handling). -/
def Obligations.TimeAndMapAreSet : Prop :=
  ∀ (q : Request) (s : State),
    (s.serving 0x03 q →
      let x : Time := ⟨field q.body 0 4, field q.body 4 4⟩
      let micros := field q.body 8 4
      let late := s.clk.ticks - q.ticks
      (9999999 < x.t → exec .timeSet s = .next (finish [0x04] s))
      ∧ (x.t ≤ 9999999 → s.clk.disc = .acquire ∨ s.clk.disc = .track → exec .timeSet s = .next (finish [0x05] s))
      ∧ (x.t ≤ 9999999 → s.clk.disc = .unset ∨ s.clk.disc = .holdover → q.forbidden = true →
          exec .timeSet s = .next (finish [0x06] s))
      ∧ (x.t ≤ 9999999 → s.clk.disc = .unset ∨ s.clk.disc = .holdover → q.forbidden = false → ∃ t,
          exec .timeSet s = .next (finish [if 4294967295 < micros * 1000 then 0x01 else 0x00] t)
          ∧ t.clk.s = (x.s + (x.t + late) / 10000000) % 4294967296 ∧ t.clk.t = (x.t + late) % 10000000
          ∧ t.clk.u = min (micros * 1000) 4294967295 ∧ t.clk.disc = .holdover ∧ t.clk.reason = some .hostSet
          ∧ t.clk.steps = inc16 s.clk.steps))
    ∧ (s.serving 0x22 q →
      (parseMap q.body = none → exec .mapSet s = .next (finish [0x04] s))
      ∧ ∀ m, parseMap q.body = some m →
        (q.eventActive = true → exec .mapSet s = .next (finish [0x06] s))
        ∧ (q.eventActive = false → exec .mapSet s =
            .next (finish [0x00] { s with pendingMap := if m = s.map then none else some m })))

/-- DETECTOR_SET: the checks, then the named channels take the carried settings fitted in the order of R83, and no other
channel's settings change (R82, R83). The reply lists the eight settings of each named channel as stored, CLAMPED where one of
them is not what the request and the channel's own settings gave, else OK; a mask that names no setting stores nothing (R82).
At once a named channel that has become eligible restarts, one that has stopped being eligible enters OFF, both signalled to
the Event Engine, which counts them no longer and overrides their reports of the strobe still to be voted on, and every other
channel keeps its state (R74, R80, R81, R84, R89). The model's choices: log 4 (written settings end the moment of a boundary),
log 12 (the reply has a count before its list, and the eight settings take the fewest bytes), log 42 (the warmup count in OFF). -/
def Obligations.DetectorSettingsAreWritten : Prop :=
  ∀ (q : Request) (s : State), s.serving 0x20 q →
    let named := (q.body.getD 0 0).toNat
    let mask := q.body.getD 1 0
    let list := allChans.filter fun c => named.testBit c.val
    let bytes (d : Detector) : List Byte :=
      [byte d.staShift, byte d.ltaShift] ++ beBytes 2 d.onRatio ++ beBytes 2 d.offRatio ++ beBytes 2 d.floor
        ++ beBytes 2 d.trigMax ++ [byte d.weight, if d.enable = true then 1 else 0]
    let eligible (t : State) (c : Chan) : Bool := t.chn[c].det.enable && (match s.sourcePort c with
      | none => false
      | some p => s.prt[p].link == .up)
    let moved (t : State) (c : Chan) : Bool :=
      named.testBit c.val && mask != 0 && (eligible t c == (s.chn[c].state == .off))
    (named = 0 ∨ 64 ≤ named → exec .detectorSet s = .next (finish [0x04] s))
    ∧ (1 < (carried q.body 7).getD 0 → exec .detectorSet s = .next (finish [0x04] s))
    ∧ (named ≠ 0 → named < 64 → (carried q.body 7).getD 0 ≤ 1 →
      ∃ t reply, exec .detectorSet s = .next (finish reply t)
        ∧ (∃ code, reply = code :: byte list.length :: list.flatMap (fun c => bytes t.chn[c].det)
          ∧ (code = 0x00 ∨ code = 0x01) ∧ (code = 0x01 ↔ mask ≠ 0 ∧ ∃ c : Chan, named.testBit c.val = true
              ∧ t.chn[c].det ≠ s.chn[c].det.withCarried q.body))
        ∧ (mask = 0 → t = s)
        ∧ (mask ≠ 0 → OnlyIn [.chn, .evt] { s with moment := {} } t
          ∧ t.evt = { s.evt with
              counting := t.evt.counting
              reports := s.evt.reports.map fun r => if moved t r.chan = true then { r with overridden := true } else r })
        ∧ ∀ c : Chan,
        let d := s.chn[c].det.withCarried q.body
        let e := t.chn[c].det
        (named.testBit c.val = false ∨ mask = 0 → e = s.chn[c].det)
        ∧ (named.testBit c.val = true → mask ≠ 0 →
          e.staShift = max 1 (min 8 d.staShift) ∧ e.ltaShift = max (e.staShift + 2) (min 14 d.ltaShift)
          ∧ e.onRatio = max 20 (min 640 d.onRatio) ∧ e.offRatio = max 16 (min e.onRatio d.offRatio)
          ∧ e.floor = max 1 (min 65535 d.floor) ∧ e.trigMax = max 1 (min 600 d.trigMax)
          ∧ e.weight = max 0 (min 15 d.weight) ∧ e.enable = d.enable)
        ∧ (moved t c = false → t.chn[c] = { s.chn[c] with det := e } ∧ t.evt.counting[c] = s.evt.counting[c])
        ∧ (moved t c = true → t.evt.counting[c] = none
          ∧ (eligible t c = true → t.chn[c] = { s.chn[c] with
              det := e, sta := 0, lta := 0, warmup := 0, ratio := 0, warmed := false, frozen := false, released := false
              age := 0, last := none, state := if s.chn[c].supp = true then .suppressed else .warmup })
          ∧ (eligible t c = false → t.chn[c] = { s.chn[c] with
              det := e, state := .off, ratio := 0, frozen := false, released := false, age := 0 })))

/-- EVENT_RELEASE, MARKS_TAKE, NOTE_SEND and PENDING_CLEAR (R104, R32, R119, R189). The model's choices: log 12. -/
def Obligations.ListsAreServed : Prop :=
  ∀ (q : Request) (s : State),
    (s.serving 0x32 q →
      let n := field q.body 0 4
      ((∃ r ∈ s.evt.list, r.number = n) → ∃ t, exec .eventRelease s = .next (finish [0x00] t)
        ∧ t.evt.list = (s.evt.list.filter fun r => r.number != n) ∧ t.evt.released = (s.evt.released + 1) % 4294967296
        ∧ t.evt.wakeTerm = (s.eventWake && !t.evt.list.isEmpty))
      ∧ ((∀ r ∈ s.evt.list, r.number ≠ n) → (∃ r, s.evt.record = some r ∧ r.number = n) →
          exec .eventRelease s = .next (finish [0x05] s))
      ∧ ((∀ r ∈ s.evt.list, r.number ≠ n) → (∀ r, s.evt.record = some r → r.number ≠ n) →
          exec .eventRelease s = .next (finish [0x09] s)))
    ∧ (s.serving 0x40 q →
      let n := min (field q.body 0 1) 8
      exec .marksTake s = .next (finish
        ([if 8 < field q.body 0 1 then 0x01 else 0x00, byte (s.mrk.marks.take n).length, byte (s.mrk.marks.drop n).length]
          ++ [s.mrk.overrun, s.mrk.widthRej, s.mrk.holdoffRej, s.mrk.windowRej].flatMap (beBytes 2)
          ++ (s.mrk.marks.take n).flatMap Mark.bytes)
        { s with mrk := { s.mrk with marks := s.mrk.marks.drop n } }))
    ∧ (s.serving 0x71 q →
      (12 ≤ s.box.entries.length → exec .noteSend s = .next (finish [0x08] s))
      ∧ (s.box.entries.length < 12 → ∃ t, exec .noteSend s = .next (finish [0x00, byte s.box.note] t)
        ∧ t.box.entries.length = s.box.entries.length + 1 ∧ t.box.creation = (s.box.creation + 1) % 4294967296
        ∧ ∃ a ∈ t.box.entries, a.kind = .note ∧ a.rank = 3 ∧ a.origin = s.box.note ∧ a.created = q.stamp
          ∧ a.position = s.box.creation ∧ a.inFlight = false ∧ a.attempts = 0 ∧ a.content = .note q.body))
    ∧ (s.serving 0x51 q →
      ((∃ b ∈ q.body.drop 1, 17 < b.toNat) → exec .pendingClear s = .next (finish [0x04] s))
      ∧ ((∀ b ∈ q.body.drop 1, b.toNat ≤ 17) → ∃ t reply, exec .pendingClear s = .next (finish reply t)
        ∧ ∀ c : CondId, t.mon.conds[c].status = s.mon.conds[c].status ∧ t.mon.conds[c].changes = s.mon.conds[c].changes
          ∧ t.mon.conds[c].pending = (s.mon.conds[c].pending && !((q.body.drop 1).map BitVec.toNat).contains c.val)))

/-- CAL_ADD, CAL_CANCEL and CAL_LIST (R38, R42, R43). The model's choices: log 31 (now + 2 modulo 2^32, compared as a plain
number). -/
def Obligations.CalibrationIsScheduled : Prop :=
  ∀ (q : Request) (s : State),
    (s.serving 0x41 q →
      (2 ≤ field q.body 0 1 → exec .calAdd s = .next (finish [0x04] s))
      ∧ (field q.body 0 1 < 2 → 4 ≤ s.sch.cals.length → exec .calAdd s = .next (finish [0x08] s))
      ∧ (field q.body 0 1 < 2 → s.sch.cals.length < 4 →
        ∃ t c code, exec .calAdd s = .next (finish (code :: byte s.sch.calId :: c.stored) t)
          ∧ t.sch.cals.Perm (c :: s.sch.cals) ∧ c.id = s.sch.calId ∧ c.sensor.val = field q.body 0 1
          ∧ c.start = (let soon := (q.stamp.time.s + 2) % 4294967296
              if field q.body 1 4 < soon then soon else field q.body 1 4)
          ∧ c.width = max 10 (min 60000 (field q.body 5 2)) ∧ c.count = max 1 (min 16 (field q.body 7 1))
          ∧ c.spacing = (let x := max 1 (min 600 (field q.body 8 2))
              if x * 1000 ≤ c.width then (c.width + 999) / 1000 + 1 else x)
          ∧ c.outcome = .waiting ∧ c.runStart = none ∧ c.issued = 0 ∧ c.withheld = 0
          ∧ code = (if c.stored = q.body then 0x00 else 0x01)))
    ∧ (s.serving 0x42 q →
      ((∀ c ∈ s.sch.cals, c.id ≠ field q.body 0 1) → exec .calCancel s = .next (finish [0x09] s))
      ∧ ∀ c, (s.sch.cals.find? fun c => c.id == field q.body 0 1) = some c →
        (c.outcome = .waiting ∨ c.outcome = .deferred ∨ c.outcome = .running → ∃ t,
          exec .calCancel s = .next (finish [0x00] t) ∧ (∀ y ∈ t.sch.cals, y.id = c.id → y.outcome = .cancelled)
          ∧ (c.outcome = .running → t.sch.lines[c.sensor] = none ∧ t.sch.windows[c.sensor] =
              (if s.calSettle = 0 then .closed else .closing (s.osc + s.calSettle * 10000000))))
        ∧ (c.outcome = .done ∨ c.outcome = .skipped ∨ c.outcome = .cancelled →
          exec .calCancel s = .next (finish [0x05] s)))
    ∧ (s.serving 0x43 q → exec .calList s = .next (finish
        (0x00 :: byte s.sch.cals.length :: s.sch.cals.flatMap Cal.bytes)
        { s with bus := { s.bus with req := some { q with reported :=
            (s.sch.cals.filter fun c =>
              c.outcome == .done || c.outcome == .skipped || c.outcome == .cancelled).map Cal.id } } }))

/-- SETTINGS_SAVE, SETTINGS_SAVE_DONE, RESTART and RESTART_EXECUTE: what is written and where, and what a RESTART reloads,
clears and keeps (R208, R209, R211): the outbox is emptied and the credits are clamped (R135), the pending marks and the figures
go (R196), and DIG0_ERRORS and DIG1_ERRORS then clear, with a mark and perhaps an alert of their own. The model's choices: log 10
(the blocks' order, by which only those two conditions and the two of the charger can change after the outbox is emptied). -/
def Obligations.SettingsAreSavedAndReloaded : Prop :=
  ∀ (q : Request) (s : State),
    let restarted (u t : State) : Prop :=
      t.params = u.store.load.params ∧ t.map = u.store.load.map ∧ t.pendingMap = none
      ∧ (∀ c : Chan, t.chn[c].det = u.store.load.dets[c] ∧ t.rings[c].newest = none ∧ t.chn[c].count = 0)
      ∧ t.sch.cals = [] ∧ t.sch.next = u.sch.next ∧ t.mdm.link = .off ∧ t.mdm.fails = 0
      ∧ t.mrk.marks = [] ∧ t.mrk.seqA = 0 ∧ t.mrk.seqB = 0 ∧ t.clk.steps = 0 ∧ t.clk.label = none
      ∧ t.store.slots = u.store.slots ∧ t.bus.restarts = inc16 u.bus.restarts
      ∧ (∀ a ∈ t.box.entries, a.kind = .condition ∧ a.inFlight = false ∧ a.attempts = 0 ∧ ∃ c : CondId, a.origin = c.val
          ∧ (c.val = 7 ∨ c.val = 8 ∨ c.val = 11 ∨ c.val = 12) ∧ inSet t.alertSet c = true)
      ∧ t.box.credits = min u.box.credits t.creditCap ∧ t.box.note = u.box.note ∧ t.box.sent = u.box.sent
      ∧ (u.box.entries.length ≤ 3 → t.box.drops = u.box.drops) ∧ t.mdm.tag = u.mdm.tag ∧ t.mdm.fault = u.mdm.fault
      ∧ t.mdm.bad = u.mdm.bad ∧ t.mdm.unexpected = u.mdm.unexpected ∧ t.mdm.startTimeouts = u.mdm.startTimeouts
      ∧ t.mon.figs = {} ∧ t.mon.report = u.mon.report ∧ t.mon.start = u.mon.start
      ∧ t.mon.number = (if t.intervalLen = u.intervalLen then u.mon.number else u.clk.s / t.intervalLen)
      ∧ (∀ c : CondId,
        (c.val ≠ 7 → c.val ≠ 8 → t.mon.conds[c].pending = false)
        ∧ (c.val = 7 ∨ c.val = 8 → t.mon.conds[c].status = false
          ∧ t.mon.conds[c].changes = (if u.mon.conds[c].status = true then inc16 u.mon.conds[c].changes else u.mon.conds[c].changes)
          ∧ (t.mon.conds[c].pending = true ↔ u.mon.conds[c].status = true
            ∧ t.mon.conds[if c.val = 7 then (3 : CondId) else 4].status = false))
        ∧ (c.val = 9 ∨ c.val = 10 ∨ c.val = 13 ∨ c.val = 14 ∨ c.val = 15 →
          t.mon.conds[c] = { u.mon.conds[c] with pending := false }))
      ∧ t.mon.wake = t.wakeLevel ∧ t.mon.degraded = t.degradedLevel
    (s.serving 0x12 q → s.store.saving = none →
      let i : Fin 2 := s.store.target.1
      exec .settingsSave s = .next { s with store := { s.store with
        slots := s.store.slots.set i none
        saving := some ⟨i, s.store.target.2,
          { params := s.params,
            dets := #v[s.chn[(0 : Chan)].det, s.chn[(1 : Chan)].det, s.chn[(2 : Chan)].det, s.chn[(3 : Chan)].det,
              s.chn[(4 : Chan)].det, s.chn[(5 : Chan)].det],
            map := s.pendingMap.getD s.map }⟩ } })
    ∧ (∀ dt w u, s.powered = true → s.store.saving = some w → u = elapse dt s →
      exec (.settingsSaveDone dt true) s = .next (finish (0x00 :: beBytes 4 w.content.generation) { u with
        store := { u.store with
          saving := none, saves := inc16 u.store.saves, slots := u.store.slots.set w.slot (some w.content) } })
      ∧ ∃ reply, exec (.settingsSaveDone dt false) s = .next (finish (0x05 :: reply) { u with
        store := { u.store with
          saving := none, saves := inc16 u.store.saves, saveFails := inc16 u.store.saveFails } }))
    ∧ (s.serving 0x7F q → q.bcast = false → exec .restart s = .next (s.replied [0x00]))
    ∧ (s.serving 0x7F q → q.bcast = true → ∃ t, exec .restart s = .next (finish [0x00] t) ∧ restarted s t)
    ∧ (∀ dt, s.powered = true → s.bus.restartDue = true → ∃ t, exec (.restartExecute dt) s = .next t
      ∧ restarted (elapse dt s) t ∧ t.bus.restartDue = false ∧ t.bus.addr = t.stationAddress ∧ t.bus.div = t.busDivisor)

/-- OUTPUT_RESTART_CHARGER and OUTPUT_RESTART_HEATER: each output's outcome by the state and the causes found at receipt, its
action, and the reply once every selected output is served (R155, R174). The model's choices: log 11 (an output that has left
FAULT or SHUTDOWN since receipt stays as it is), log 12, log 36 (the cutoff written between readings). -/
def Obligations.OutputsAreRestarted : Prop :=
  (∀ (bcast : Bool) (kind : Byte) (body : List Byte) (s : State), ∃ q,
    (acceptRequest bcast kind body s).bus.req = some q
      ∧ q.chargerFound = (if s.bat.charge ≠ .fault then 0 else if s.bat.cause = true then 2 else 1)
      ∧ q.heaterFound = (if s.htr.state ≠ .shutdown then 0
          else if s.tHeaterCutoff < s.pwr.tp ∨ s.pwr.tpValid = false ∨ s.htr.fault = true then 2 else 1))
  ∧ (∀ (q : Request) (s : State), s.serving 0x61 q → q.charger = none → q.heater = none →
    let charger := q.chargerFound
    let heater := q.heaterFound
    (field q.body 0 1 = 0 ∨ 4 ≤ field q.body 0 1 →
      exec .outputRestartCharger s = .next (finish [0x04] s) ∧ exec .outputRestartHeater s = .next (finish [0x04] s))
    ∧ (field q.body 0 1 = 1 → ∃ t, exec .outputRestartCharger s =
        .next (finish [if charger = 2 then 0x05 else 0x00, 1, charger, 0, 0] t)
      ∧ t.bat.restarts = 0 ∧ t.bat.charge = (if charger = 1 ∧ s.bat.charge = .fault then .idle else s.bat.charge)
      ∧ t.bat.clear = (if charger = 1 ∧ s.bat.charge = .fault then 0 else s.bat.clear)
      ∧ (charger = 1 → s.bat.charge = .fault → t.mon.conds[(12 : CondId)].status = false) ∧ t.htr = s.htr)
    ∧ (field q.body 0 1 = 2 → ∃ t, exec .outputRestartHeater s =
        .next (finish [if heater = 2 then 0x05 else 0x00, 0, 0, 1, heater] t)
      ∧ t.bat = s.bat
      ∧ (heater = 1 → s.htr.state = .shutdown → t.mon.conds[(13 : CondId)].status = false)
      ∧ t.htr = (if heater = 1 ∧ s.htr.state = .shutdown then { s.htr with
          state := if s.bat.power = .shed ∨ s.heatEnable = false then .off
            else if s.htr.hold.isSome then .held else .regulate
          clear := 0 } else s.htr))
    ∧ (field q.body 0 1 = 3 → ∃ t, exec .outputRestartCharger s = .next t ∧ t.bus.reply = none
      ∧ t.bus.req = some { q with charger := some charger } ∧ t.bat.restarts = 0 ∧ t.htr = s.htr)
    ∧ (field q.body 0 1 = 3 → ∃ t, exec .outputRestartHeater s = .next t ∧ t.bus.reply = none
      ∧ t.bus.req = some { q with heater := some heater } ∧ t.bat = s.bat
      ∧ t.htr = (if heater = 1 ∧ s.htr.state = .shutdown then { s.htr with
          state := if s.bat.power = .shed ∨ s.heatEnable = false then .off
            else if s.htr.hold.isSome then .held else .regulate
          clear := 0 } else s.htr)))
  ∧ (∀ (x : Byte) (q : Request) (s : State), s.serving 0x61 q → field q.body 0 1 = 3 → q.charger = some x → q.heater = none →
    ∃ t, exec .outputRestartHeater s =
        .next (finish [if x = 2 ∨ q.heaterFound = 2 then 0x05 else 0x00, 1, x, 1, q.heaterFound] t)
      ∧ t.bus.req = some { q with heater := some q.heaterFound } ∧ t.bat = s.bat
      ∧ t.htr = (if q.heaterFound = 1 ∧ s.htr.state = .shutdown then { s.htr with
          state := if s.bat.power = .shed ∨ s.heatEnable = false then .off
            else if s.htr.hold.isSome then .held else .regulate
          clear := 0 } else s.htr))
  ∧ ∀ (y : Byte) (q : Request) (s : State), s.serving 0x61 q → field q.body 0 1 = 3 → q.charger = none → q.heater = some y →
    ∃ t, exec .outputRestartCharger s =
        .next (finish [if q.chargerFound = 2 ∨ y = 2 then 0x05 else 0x00, 1, q.chargerFound, 1, y] t)
      ∧ t.bus.req = some { q with charger := some q.chargerFound } ∧ t.bat.restarts = 0 ∧ t.htr = s.htr
      ∧ t.bat.charge = (if q.chargerFound = 1 ∧ s.bat.charge = .fault then .idle else s.bat.charge)
      ∧ t.bat.clear = (if q.chargerFound = 1 ∧ s.bat.charge = .fault then 0 else s.bat.clear)
end

