-- ==== Sys2Proof/Laws/State.lean ====
section
/-! SUPPORT. One lemma for each field of State and each update of one field: the updated field reads what was put there,
every other field what it held. All true by definition, so that no later proof unfolds a record update. -/
namespace Sys2Proof.Laws

open Sys2Proof Sys2Proof.Machine

/-- A put into `clk`. -/
@[simp] theorem put_clk (s : State) (x : Clock) :
    { s with clk := x }.clk = x ∧ { s with clk := x }.mrk = s.mrk ∧ { s with clk := x }.sch = s.sch ∧ { s with clk := x }.prt = s.prt ∧
    { s with clk := x }.map = s.map ∧ { s with clk := x }.pendingMap = s.pendingMap ∧ { s with clk := x }.rings = s.rings ∧ { s with clk := x }.chn = s.chn ∧
    { s with clk := x }.evt = s.evt ∧ { s with clk := x }.box = s.box ∧ { s with clk := x }.mdm = s.mdm ∧ { s with clk := x }.pwr = s.pwr ∧
    { s with clk := x }.bat = s.bat ∧ { s with clk := x }.htr = s.htr ∧ { s with clk := x }.mon = s.mon ∧ { s with clk := x }.bus = s.bus ∧
    { s with clk := x }.params = s.params ∧ { s with clk := x }.store = s.store ∧ { s with clk := x }.pending = s.pending ∧ { s with clk := x }.powered = s.powered ∧
    { s with clk := x }.osc = s.osc ∧ { s with clk := x }.moment = s.moment ∧ { s with clk := x }.free = s.free := by
  refine ⟨rfl, rfl, rfl, rfl, rfl, rfl, rfl, rfl, rfl, rfl, rfl, rfl, rfl, rfl, rfl, rfl, rfl, rfl, rfl, rfl, rfl, rfl, rfl⟩

/-- A put into `mrk`. -/
@[simp] theorem put_mrk (s : State) (x : Capture) :
    { s with mrk := x }.mrk = x ∧ { s with mrk := x }.clk = s.clk ∧ { s with mrk := x }.sch = s.sch ∧ { s with mrk := x }.prt = s.prt ∧
    { s with mrk := x }.map = s.map ∧ { s with mrk := x }.pendingMap = s.pendingMap ∧ { s with mrk := x }.rings = s.rings ∧ { s with mrk := x }.chn = s.chn ∧
    { s with mrk := x }.evt = s.evt ∧ { s with mrk := x }.box = s.box ∧ { s with mrk := x }.mdm = s.mdm ∧ { s with mrk := x }.pwr = s.pwr ∧
    { s with mrk := x }.bat = s.bat ∧ { s with mrk := x }.htr = s.htr ∧ { s with mrk := x }.mon = s.mon ∧ { s with mrk := x }.bus = s.bus ∧
    { s with mrk := x }.params = s.params ∧ { s with mrk := x }.store = s.store ∧ { s with mrk := x }.pending = s.pending ∧ { s with mrk := x }.powered = s.powered ∧
    { s with mrk := x }.osc = s.osc ∧ { s with mrk := x }.moment = s.moment ∧ { s with mrk := x }.free = s.free := by
  refine ⟨rfl, rfl, rfl, rfl, rfl, rfl, rfl, rfl, rfl, rfl, rfl, rfl, rfl, rfl, rfl, rfl, rfl, rfl, rfl, rfl, rfl, rfl, rfl⟩

/-- A put into `sch`. -/
@[simp] theorem put_sch (s : State) (x : Scheduler) :
    { s with sch := x }.sch = x ∧ { s with sch := x }.clk = s.clk ∧ { s with sch := x }.mrk = s.mrk ∧ { s with sch := x }.prt = s.prt ∧
    { s with sch := x }.map = s.map ∧ { s with sch := x }.pendingMap = s.pendingMap ∧ { s with sch := x }.rings = s.rings ∧ { s with sch := x }.chn = s.chn ∧
    { s with sch := x }.evt = s.evt ∧ { s with sch := x }.box = s.box ∧ { s with sch := x }.mdm = s.mdm ∧ { s with sch := x }.pwr = s.pwr ∧
    { s with sch := x }.bat = s.bat ∧ { s with sch := x }.htr = s.htr ∧ { s with sch := x }.mon = s.mon ∧ { s with sch := x }.bus = s.bus ∧
    { s with sch := x }.params = s.params ∧ { s with sch := x }.store = s.store ∧ { s with sch := x }.pending = s.pending ∧ { s with sch := x }.powered = s.powered ∧
    { s with sch := x }.osc = s.osc ∧ { s with sch := x }.moment = s.moment ∧ { s with sch := x }.free = s.free := by
  refine ⟨rfl, rfl, rfl, rfl, rfl, rfl, rfl, rfl, rfl, rfl, rfl, rfl, rfl, rfl, rfl, rfl, rfl, rfl, rfl, rfl, rfl, rfl, rfl⟩

/-- A put into `prt`. -/
@[simp] theorem put_prt (s : State) (x : Vector Port 2) :
    { s with prt := x }.prt = x ∧ { s with prt := x }.clk = s.clk ∧ { s with prt := x }.mrk = s.mrk ∧ { s with prt := x }.sch = s.sch ∧
    { s with prt := x }.map = s.map ∧ { s with prt := x }.pendingMap = s.pendingMap ∧ { s with prt := x }.rings = s.rings ∧ { s with prt := x }.chn = s.chn ∧
    { s with prt := x }.evt = s.evt ∧ { s with prt := x }.box = s.box ∧ { s with prt := x }.mdm = s.mdm ∧ { s with prt := x }.pwr = s.pwr ∧
    { s with prt := x }.bat = s.bat ∧ { s with prt := x }.htr = s.htr ∧ { s with prt := x }.mon = s.mon ∧ { s with prt := x }.bus = s.bus ∧
    { s with prt := x }.params = s.params ∧ { s with prt := x }.store = s.store ∧ { s with prt := x }.pending = s.pending ∧ { s with prt := x }.powered = s.powered ∧
    { s with prt := x }.osc = s.osc ∧ { s with prt := x }.moment = s.moment ∧ { s with prt := x }.free = s.free := by
  refine ⟨rfl, rfl, rfl, rfl, rfl, rfl, rfl, rfl, rfl, rfl, rfl, rfl, rfl, rfl, rfl, rfl, rfl, rfl, rfl, rfl, rfl, rfl, rfl⟩

/-- A put into `map`. -/
@[simp] theorem put_map (s : State) (x : ChanMap) :
    { s with map := x }.map = x ∧ { s with map := x }.clk = s.clk ∧ { s with map := x }.mrk = s.mrk ∧ { s with map := x }.sch = s.sch ∧
    { s with map := x }.prt = s.prt ∧ { s with map := x }.pendingMap = s.pendingMap ∧ { s with map := x }.rings = s.rings ∧ { s with map := x }.chn = s.chn ∧
    { s with map := x }.evt = s.evt ∧ { s with map := x }.box = s.box ∧ { s with map := x }.mdm = s.mdm ∧ { s with map := x }.pwr = s.pwr ∧
    { s with map := x }.bat = s.bat ∧ { s with map := x }.htr = s.htr ∧ { s with map := x }.mon = s.mon ∧ { s with map := x }.bus = s.bus ∧
    { s with map := x }.params = s.params ∧ { s with map := x }.store = s.store ∧ { s with map := x }.pending = s.pending ∧ { s with map := x }.powered = s.powered ∧
    { s with map := x }.osc = s.osc ∧ { s with map := x }.moment = s.moment ∧ { s with map := x }.free = s.free := by
  refine ⟨rfl, rfl, rfl, rfl, rfl, rfl, rfl, rfl, rfl, rfl, rfl, rfl, rfl, rfl, rfl, rfl, rfl, rfl, rfl, rfl, rfl, rfl, rfl⟩

/-- A put into `pendingMap`. -/
@[simp] theorem put_pendingMap (s : State) (x : Option ChanMap) :
    { s with pendingMap := x }.pendingMap = x ∧ { s with pendingMap := x }.clk = s.clk ∧ { s with pendingMap := x }.mrk = s.mrk ∧ { s with pendingMap := x }.sch = s.sch ∧
    { s with pendingMap := x }.prt = s.prt ∧ { s with pendingMap := x }.map = s.map ∧ { s with pendingMap := x }.rings = s.rings ∧ { s with pendingMap := x }.chn = s.chn ∧
    { s with pendingMap := x }.evt = s.evt ∧ { s with pendingMap := x }.box = s.box ∧ { s with pendingMap := x }.mdm = s.mdm ∧ { s with pendingMap := x }.pwr = s.pwr ∧
    { s with pendingMap := x }.bat = s.bat ∧ { s with pendingMap := x }.htr = s.htr ∧ { s with pendingMap := x }.mon = s.mon ∧ { s with pendingMap := x }.bus = s.bus ∧
    { s with pendingMap := x }.params = s.params ∧ { s with pendingMap := x }.store = s.store ∧ { s with pendingMap := x }.pending = s.pending ∧ { s with pendingMap := x }.powered = s.powered ∧
    { s with pendingMap := x }.osc = s.osc ∧ { s with pendingMap := x }.moment = s.moment ∧ { s with pendingMap := x }.free = s.free := by
  refine ⟨rfl, rfl, rfl, rfl, rfl, rfl, rfl, rfl, rfl, rfl, rfl, rfl, rfl, rfl, rfl, rfl, rfl, rfl, rfl, rfl, rfl, rfl, rfl⟩

/-- A put into `rings`. -/
@[simp] theorem put_rings (s : State) (x : Vector Ring 6) :
    { s with rings := x }.rings = x ∧ { s with rings := x }.clk = s.clk ∧ { s with rings := x }.mrk = s.mrk ∧ { s with rings := x }.sch = s.sch ∧
    { s with rings := x }.prt = s.prt ∧ { s with rings := x }.map = s.map ∧ { s with rings := x }.pendingMap = s.pendingMap ∧ { s with rings := x }.chn = s.chn ∧
    { s with rings := x }.evt = s.evt ∧ { s with rings := x }.box = s.box ∧ { s with rings := x }.mdm = s.mdm ∧ { s with rings := x }.pwr = s.pwr ∧
    { s with rings := x }.bat = s.bat ∧ { s with rings := x }.htr = s.htr ∧ { s with rings := x }.mon = s.mon ∧ { s with rings := x }.bus = s.bus ∧
    { s with rings := x }.params = s.params ∧ { s with rings := x }.store = s.store ∧ { s with rings := x }.pending = s.pending ∧ { s with rings := x }.powered = s.powered ∧
    { s with rings := x }.osc = s.osc ∧ { s with rings := x }.moment = s.moment ∧ { s with rings := x }.free = s.free := by
  refine ⟨rfl, rfl, rfl, rfl, rfl, rfl, rfl, rfl, rfl, rfl, rfl, rfl, rfl, rfl, rfl, rfl, rfl, rfl, rfl, rfl, rfl, rfl, rfl⟩

/-- A put into `chn`. -/
@[simp] theorem put_chn (s : State) (x : Vector Channel 6) :
    { s with chn := x }.chn = x ∧ { s with chn := x }.clk = s.clk ∧ { s with chn := x }.mrk = s.mrk ∧ { s with chn := x }.sch = s.sch ∧
    { s with chn := x }.prt = s.prt ∧ { s with chn := x }.map = s.map ∧ { s with chn := x }.pendingMap = s.pendingMap ∧ { s with chn := x }.rings = s.rings ∧
    { s with chn := x }.evt = s.evt ∧ { s with chn := x }.box = s.box ∧ { s with chn := x }.mdm = s.mdm ∧ { s with chn := x }.pwr = s.pwr ∧
    { s with chn := x }.bat = s.bat ∧ { s with chn := x }.htr = s.htr ∧ { s with chn := x }.mon = s.mon ∧ { s with chn := x }.bus = s.bus ∧
    { s with chn := x }.params = s.params ∧ { s with chn := x }.store = s.store ∧ { s with chn := x }.pending = s.pending ∧ { s with chn := x }.powered = s.powered ∧
    { s with chn := x }.osc = s.osc ∧ { s with chn := x }.moment = s.moment ∧ { s with chn := x }.free = s.free := by
  refine ⟨rfl, rfl, rfl, rfl, rfl, rfl, rfl, rfl, rfl, rfl, rfl, rfl, rfl, rfl, rfl, rfl, rfl, rfl, rfl, rfl, rfl, rfl, rfl⟩

/-- A put into `evt`. -/
@[simp] theorem put_evt (s : State) (x : Events) :
    { s with evt := x }.evt = x ∧ { s with evt := x }.clk = s.clk ∧ { s with evt := x }.mrk = s.mrk ∧ { s with evt := x }.sch = s.sch ∧
    { s with evt := x }.prt = s.prt ∧ { s with evt := x }.map = s.map ∧ { s with evt := x }.pendingMap = s.pendingMap ∧ { s with evt := x }.rings = s.rings ∧
    { s with evt := x }.chn = s.chn ∧ { s with evt := x }.box = s.box ∧ { s with evt := x }.mdm = s.mdm ∧ { s with evt := x }.pwr = s.pwr ∧
    { s with evt := x }.bat = s.bat ∧ { s with evt := x }.htr = s.htr ∧ { s with evt := x }.mon = s.mon ∧ { s with evt := x }.bus = s.bus ∧
    { s with evt := x }.params = s.params ∧ { s with evt := x }.store = s.store ∧ { s with evt := x }.pending = s.pending ∧ { s with evt := x }.powered = s.powered ∧
    { s with evt := x }.osc = s.osc ∧ { s with evt := x }.moment = s.moment ∧ { s with evt := x }.free = s.free := by
  refine ⟨rfl, rfl, rfl, rfl, rfl, rfl, rfl, rfl, rfl, rfl, rfl, rfl, rfl, rfl, rfl, rfl, rfl, rfl, rfl, rfl, rfl, rfl, rfl⟩

/-- A put into `box`. -/
@[simp] theorem put_box (s : State) (x : Outbox) :
    { s with box := x }.box = x ∧ { s with box := x }.clk = s.clk ∧ { s with box := x }.mrk = s.mrk ∧ { s with box := x }.sch = s.sch ∧
    { s with box := x }.prt = s.prt ∧ { s with box := x }.map = s.map ∧ { s with box := x }.pendingMap = s.pendingMap ∧ { s with box := x }.rings = s.rings ∧
    { s with box := x }.chn = s.chn ∧ { s with box := x }.evt = s.evt ∧ { s with box := x }.mdm = s.mdm ∧ { s with box := x }.pwr = s.pwr ∧
    { s with box := x }.bat = s.bat ∧ { s with box := x }.htr = s.htr ∧ { s with box := x }.mon = s.mon ∧ { s with box := x }.bus = s.bus ∧
    { s with box := x }.params = s.params ∧ { s with box := x }.store = s.store ∧ { s with box := x }.pending = s.pending ∧ { s with box := x }.powered = s.powered ∧
    { s with box := x }.osc = s.osc ∧ { s with box := x }.moment = s.moment ∧ { s with box := x }.free = s.free := by
  refine ⟨rfl, rfl, rfl, rfl, rfl, rfl, rfl, rfl, rfl, rfl, rfl, rfl, rfl, rfl, rfl, rfl, rfl, rfl, rfl, rfl, rfl, rfl, rfl⟩

/-- A put into `mdm`. -/
@[simp] theorem put_mdm (s : State) (x : Modem) :
    { s with mdm := x }.mdm = x ∧ { s with mdm := x }.clk = s.clk ∧ { s with mdm := x }.mrk = s.mrk ∧ { s with mdm := x }.sch = s.sch ∧
    { s with mdm := x }.prt = s.prt ∧ { s with mdm := x }.map = s.map ∧ { s with mdm := x }.pendingMap = s.pendingMap ∧ { s with mdm := x }.rings = s.rings ∧
    { s with mdm := x }.chn = s.chn ∧ { s with mdm := x }.evt = s.evt ∧ { s with mdm := x }.box = s.box ∧ { s with mdm := x }.pwr = s.pwr ∧
    { s with mdm := x }.bat = s.bat ∧ { s with mdm := x }.htr = s.htr ∧ { s with mdm := x }.mon = s.mon ∧ { s with mdm := x }.bus = s.bus ∧
    { s with mdm := x }.params = s.params ∧ { s with mdm := x }.store = s.store ∧ { s with mdm := x }.pending = s.pending ∧ { s with mdm := x }.powered = s.powered ∧
    { s with mdm := x }.osc = s.osc ∧ { s with mdm := x }.moment = s.moment ∧ { s with mdm := x }.free = s.free := by
  refine ⟨rfl, rfl, rfl, rfl, rfl, rfl, rfl, rfl, rfl, rfl, rfl, rfl, rfl, rfl, rfl, rfl, rfl, rfl, rfl, rfl, rfl, rfl, rfl⟩

/-- A put into `pwr`. -/
@[simp] theorem put_pwr (s : State) (x : Power) :
    { s with pwr := x }.pwr = x ∧ { s with pwr := x }.clk = s.clk ∧ { s with pwr := x }.mrk = s.mrk ∧ { s with pwr := x }.sch = s.sch ∧
    { s with pwr := x }.prt = s.prt ∧ { s with pwr := x }.map = s.map ∧ { s with pwr := x }.pendingMap = s.pendingMap ∧ { s with pwr := x }.rings = s.rings ∧
    { s with pwr := x }.chn = s.chn ∧ { s with pwr := x }.evt = s.evt ∧ { s with pwr := x }.box = s.box ∧ { s with pwr := x }.mdm = s.mdm ∧
    { s with pwr := x }.bat = s.bat ∧ { s with pwr := x }.htr = s.htr ∧ { s with pwr := x }.mon = s.mon ∧ { s with pwr := x }.bus = s.bus ∧
    { s with pwr := x }.params = s.params ∧ { s with pwr := x }.store = s.store ∧ { s with pwr := x }.pending = s.pending ∧ { s with pwr := x }.powered = s.powered ∧
    { s with pwr := x }.osc = s.osc ∧ { s with pwr := x }.moment = s.moment ∧ { s with pwr := x }.free = s.free := by
  refine ⟨rfl, rfl, rfl, rfl, rfl, rfl, rfl, rfl, rfl, rfl, rfl, rfl, rfl, rfl, rfl, rfl, rfl, rfl, rfl, rfl, rfl, rfl, rfl⟩

/-- A put into `bat`. -/
@[simp] theorem put_bat (s : State) (x : Battery) :
    { s with bat := x }.bat = x ∧ { s with bat := x }.clk = s.clk ∧ { s with bat := x }.mrk = s.mrk ∧ { s with bat := x }.sch = s.sch ∧
    { s with bat := x }.prt = s.prt ∧ { s with bat := x }.map = s.map ∧ { s with bat := x }.pendingMap = s.pendingMap ∧ { s with bat := x }.rings = s.rings ∧
    { s with bat := x }.chn = s.chn ∧ { s with bat := x }.evt = s.evt ∧ { s with bat := x }.box = s.box ∧ { s with bat := x }.mdm = s.mdm ∧
    { s with bat := x }.pwr = s.pwr ∧ { s with bat := x }.htr = s.htr ∧ { s with bat := x }.mon = s.mon ∧ { s with bat := x }.bus = s.bus ∧
    { s with bat := x }.params = s.params ∧ { s with bat := x }.store = s.store ∧ { s with bat := x }.pending = s.pending ∧ { s with bat := x }.powered = s.powered ∧
    { s with bat := x }.osc = s.osc ∧ { s with bat := x }.moment = s.moment ∧ { s with bat := x }.free = s.free := by
  refine ⟨rfl, rfl, rfl, rfl, rfl, rfl, rfl, rfl, rfl, rfl, rfl, rfl, rfl, rfl, rfl, rfl, rfl, rfl, rfl, rfl, rfl, rfl, rfl⟩

/-- A put into `htr`. -/
@[simp] theorem put_htr (s : State) (x : Heater) :
    { s with htr := x }.htr = x ∧ { s with htr := x }.clk = s.clk ∧ { s with htr := x }.mrk = s.mrk ∧ { s with htr := x }.sch = s.sch ∧
    { s with htr := x }.prt = s.prt ∧ { s with htr := x }.map = s.map ∧ { s with htr := x }.pendingMap = s.pendingMap ∧ { s with htr := x }.rings = s.rings ∧
    { s with htr := x }.chn = s.chn ∧ { s with htr := x }.evt = s.evt ∧ { s with htr := x }.box = s.box ∧ { s with htr := x }.mdm = s.mdm ∧
    { s with htr := x }.pwr = s.pwr ∧ { s with htr := x }.bat = s.bat ∧ { s with htr := x }.mon = s.mon ∧ { s with htr := x }.bus = s.bus ∧
    { s with htr := x }.params = s.params ∧ { s with htr := x }.store = s.store ∧ { s with htr := x }.pending = s.pending ∧ { s with htr := x }.powered = s.powered ∧
    { s with htr := x }.osc = s.osc ∧ { s with htr := x }.moment = s.moment ∧ { s with htr := x }.free = s.free := by
  refine ⟨rfl, rfl, rfl, rfl, rfl, rfl, rfl, rfl, rfl, rfl, rfl, rfl, rfl, rfl, rfl, rfl, rfl, rfl, rfl, rfl, rfl, rfl, rfl⟩

/-- A put into `mon`. -/
@[simp] theorem put_mon (s : State) (x : Monitor) :
    { s with mon := x }.mon = x ∧ { s with mon := x }.clk = s.clk ∧ { s with mon := x }.mrk = s.mrk ∧ { s with mon := x }.sch = s.sch ∧
    { s with mon := x }.prt = s.prt ∧ { s with mon := x }.map = s.map ∧ { s with mon := x }.pendingMap = s.pendingMap ∧ { s with mon := x }.rings = s.rings ∧
    { s with mon := x }.chn = s.chn ∧ { s with mon := x }.evt = s.evt ∧ { s with mon := x }.box = s.box ∧ { s with mon := x }.mdm = s.mdm ∧
    { s with mon := x }.pwr = s.pwr ∧ { s with mon := x }.bat = s.bat ∧ { s with mon := x }.htr = s.htr ∧ { s with mon := x }.bus = s.bus ∧
    { s with mon := x }.params = s.params ∧ { s with mon := x }.store = s.store ∧ { s with mon := x }.pending = s.pending ∧ { s with mon := x }.powered = s.powered ∧
    { s with mon := x }.osc = s.osc ∧ { s with mon := x }.moment = s.moment ∧ { s with mon := x }.free = s.free := by
  refine ⟨rfl, rfl, rfl, rfl, rfl, rfl, rfl, rfl, rfl, rfl, rfl, rfl, rfl, rfl, rfl, rfl, rfl, rfl, rfl, rfl, rfl, rfl, rfl⟩

/-- A put into `bus`. -/
@[simp] theorem put_bus (s : State) (x : Bus) :
    { s with bus := x }.bus = x ∧ { s with bus := x }.clk = s.clk ∧ { s with bus := x }.mrk = s.mrk ∧ { s with bus := x }.sch = s.sch ∧
    { s with bus := x }.prt = s.prt ∧ { s with bus := x }.map = s.map ∧ { s with bus := x }.pendingMap = s.pendingMap ∧ { s with bus := x }.rings = s.rings ∧
    { s with bus := x }.chn = s.chn ∧ { s with bus := x }.evt = s.evt ∧ { s with bus := x }.box = s.box ∧ { s with bus := x }.mdm = s.mdm ∧
    { s with bus := x }.pwr = s.pwr ∧ { s with bus := x }.bat = s.bat ∧ { s with bus := x }.htr = s.htr ∧ { s with bus := x }.mon = s.mon ∧
    { s with bus := x }.params = s.params ∧ { s with bus := x }.store = s.store ∧ { s with bus := x }.pending = s.pending ∧ { s with bus := x }.powered = s.powered ∧
    { s with bus := x }.osc = s.osc ∧ { s with bus := x }.moment = s.moment ∧ { s with bus := x }.free = s.free := by
  refine ⟨rfl, rfl, rfl, rfl, rfl, rfl, rfl, rfl, rfl, rfl, rfl, rfl, rfl, rfl, rfl, rfl, rfl, rfl, rfl, rfl, rfl, rfl, rfl⟩

/-- A put into `params`. -/
@[simp] theorem put_params (s : State) (x : List (Nat × Int)) :
    { s with params := x }.params = x ∧ { s with params := x }.clk = s.clk ∧ { s with params := x }.mrk = s.mrk ∧ { s with params := x }.sch = s.sch ∧
    { s with params := x }.prt = s.prt ∧ { s with params := x }.map = s.map ∧ { s with params := x }.pendingMap = s.pendingMap ∧ { s with params := x }.rings = s.rings ∧
    { s with params := x }.chn = s.chn ∧ { s with params := x }.evt = s.evt ∧ { s with params := x }.box = s.box ∧ { s with params := x }.mdm = s.mdm ∧
    { s with params := x }.pwr = s.pwr ∧ { s with params := x }.bat = s.bat ∧ { s with params := x }.htr = s.htr ∧ { s with params := x }.mon = s.mon ∧
    { s with params := x }.bus = s.bus ∧ { s with params := x }.store = s.store ∧ { s with params := x }.pending = s.pending ∧ { s with params := x }.powered = s.powered ∧
    { s with params := x }.osc = s.osc ∧ { s with params := x }.moment = s.moment ∧ { s with params := x }.free = s.free := by
  refine ⟨rfl, rfl, rfl, rfl, rfl, rfl, rfl, rfl, rfl, rfl, rfl, rfl, rfl, rfl, rfl, rfl, rfl, rfl, rfl, rfl, rfl, rfl, rfl⟩

/-- A put into `store`. -/
@[simp] theorem put_store (s : State) (x : Store) :
    { s with store := x }.store = x ∧ { s with store := x }.clk = s.clk ∧ { s with store := x }.mrk = s.mrk ∧ { s with store := x }.sch = s.sch ∧
    { s with store := x }.prt = s.prt ∧ { s with store := x }.map = s.map ∧ { s with store := x }.pendingMap = s.pendingMap ∧ { s with store := x }.rings = s.rings ∧
    { s with store := x }.chn = s.chn ∧ { s with store := x }.evt = s.evt ∧ { s with store := x }.box = s.box ∧ { s with store := x }.mdm = s.mdm ∧
    { s with store := x }.pwr = s.pwr ∧ { s with store := x }.bat = s.bat ∧ { s with store := x }.htr = s.htr ∧ { s with store := x }.mon = s.mon ∧
    { s with store := x }.bus = s.bus ∧ { s with store := x }.params = s.params ∧ { s with store := x }.pending = s.pending ∧ { s with store := x }.powered = s.powered ∧
    { s with store := x }.osc = s.osc ∧ { s with store := x }.moment = s.moment ∧ { s with store := x }.free = s.free := by
  refine ⟨rfl, rfl, rfl, rfl, rfl, rfl, rfl, rfl, rfl, rfl, rfl, rfl, rfl, rfl, rfl, rfl, rfl, rfl, rfl, rfl, rfl, rfl, rfl⟩

/-- A put into `pending`. -/
@[simp] theorem put_pending (s : State) (x : List Instr) :
    { s with pending := x }.pending = x ∧ { s with pending := x }.clk = s.clk ∧ { s with pending := x }.mrk = s.mrk ∧ { s with pending := x }.sch = s.sch ∧
    { s with pending := x }.prt = s.prt ∧ { s with pending := x }.map = s.map ∧ { s with pending := x }.pendingMap = s.pendingMap ∧ { s with pending := x }.rings = s.rings ∧
    { s with pending := x }.chn = s.chn ∧ { s with pending := x }.evt = s.evt ∧ { s with pending := x }.box = s.box ∧ { s with pending := x }.mdm = s.mdm ∧
    { s with pending := x }.pwr = s.pwr ∧ { s with pending := x }.bat = s.bat ∧ { s with pending := x }.htr = s.htr ∧ { s with pending := x }.mon = s.mon ∧
    { s with pending := x }.bus = s.bus ∧ { s with pending := x }.params = s.params ∧ { s with pending := x }.store = s.store ∧ { s with pending := x }.powered = s.powered ∧
    { s with pending := x }.osc = s.osc ∧ { s with pending := x }.moment = s.moment ∧ { s with pending := x }.free = s.free := by
  refine ⟨rfl, rfl, rfl, rfl, rfl, rfl, rfl, rfl, rfl, rfl, rfl, rfl, rfl, rfl, rfl, rfl, rfl, rfl, rfl, rfl, rfl, rfl, rfl⟩

/-- A put into `powered`. -/
@[simp] theorem put_powered (s : State) (x : Bool) :
    { s with powered := x }.powered = x ∧ { s with powered := x }.clk = s.clk ∧ { s with powered := x }.mrk = s.mrk ∧ { s with powered := x }.sch = s.sch ∧
    { s with powered := x }.prt = s.prt ∧ { s with powered := x }.map = s.map ∧ { s with powered := x }.pendingMap = s.pendingMap ∧ { s with powered := x }.rings = s.rings ∧
    { s with powered := x }.chn = s.chn ∧ { s with powered := x }.evt = s.evt ∧ { s with powered := x }.box = s.box ∧ { s with powered := x }.mdm = s.mdm ∧
    { s with powered := x }.pwr = s.pwr ∧ { s with powered := x }.bat = s.bat ∧ { s with powered := x }.htr = s.htr ∧ { s with powered := x }.mon = s.mon ∧
    { s with powered := x }.bus = s.bus ∧ { s with powered := x }.params = s.params ∧ { s with powered := x }.store = s.store ∧ { s with powered := x }.pending = s.pending ∧
    { s with powered := x }.osc = s.osc ∧ { s with powered := x }.moment = s.moment ∧ { s with powered := x }.free = s.free := by
  refine ⟨rfl, rfl, rfl, rfl, rfl, rfl, rfl, rfl, rfl, rfl, rfl, rfl, rfl, rfl, rfl, rfl, rfl, rfl, rfl, rfl, rfl, rfl, rfl⟩

/-- A put into `osc`. -/
@[simp] theorem put_osc (s : State) (x : Nat) :
    { s with osc := x }.osc = x ∧ { s with osc := x }.clk = s.clk ∧ { s with osc := x }.mrk = s.mrk ∧ { s with osc := x }.sch = s.sch ∧
    { s with osc := x }.prt = s.prt ∧ { s with osc := x }.map = s.map ∧ { s with osc := x }.pendingMap = s.pendingMap ∧ { s with osc := x }.rings = s.rings ∧
    { s with osc := x }.chn = s.chn ∧ { s with osc := x }.evt = s.evt ∧ { s with osc := x }.box = s.box ∧ { s with osc := x }.mdm = s.mdm ∧
    { s with osc := x }.pwr = s.pwr ∧ { s with osc := x }.bat = s.bat ∧ { s with osc := x }.htr = s.htr ∧ { s with osc := x }.mon = s.mon ∧
    { s with osc := x }.bus = s.bus ∧ { s with osc := x }.params = s.params ∧ { s with osc := x }.store = s.store ∧ { s with osc := x }.pending = s.pending ∧
    { s with osc := x }.powered = s.powered ∧ { s with osc := x }.moment = s.moment ∧ { s with osc := x }.free = s.free := by
  refine ⟨rfl, rfl, rfl, rfl, rfl, rfl, rfl, rfl, rfl, rfl, rfl, rfl, rfl, rfl, rfl, rfl, rfl, rfl, rfl, rfl, rfl, rfl, rfl⟩

/-- A put into `moment`. -/
@[simp] theorem put_moment (s : State) (x : Moment) :
    { s with moment := x }.moment = x ∧ { s with moment := x }.clk = s.clk ∧ { s with moment := x }.mrk = s.mrk ∧ { s with moment := x }.sch = s.sch ∧
    { s with moment := x }.prt = s.prt ∧ { s with moment := x }.map = s.map ∧ { s with moment := x }.pendingMap = s.pendingMap ∧ { s with moment := x }.rings = s.rings ∧
    { s with moment := x }.chn = s.chn ∧ { s with moment := x }.evt = s.evt ∧ { s with moment := x }.box = s.box ∧ { s with moment := x }.mdm = s.mdm ∧
    { s with moment := x }.pwr = s.pwr ∧ { s with moment := x }.bat = s.bat ∧ { s with moment := x }.htr = s.htr ∧ { s with moment := x }.mon = s.mon ∧
    { s with moment := x }.bus = s.bus ∧ { s with moment := x }.params = s.params ∧ { s with moment := x }.store = s.store ∧ { s with moment := x }.pending = s.pending ∧
    { s with moment := x }.powered = s.powered ∧ { s with moment := x }.osc = s.osc ∧ { s with moment := x }.free = s.free := by
  refine ⟨rfl, rfl, rfl, rfl, rfl, rfl, rfl, rfl, rfl, rfl, rfl, rfl, rfl, rfl, rfl, rfl, rfl, rfl, rfl, rfl, rfl, rfl, rfl⟩

/-- A put into `free`. -/
@[simp] theorem put_free (s : State) (x : Nat) :
    { s with free := x }.free = x ∧ { s with free := x }.clk = s.clk ∧ { s with free := x }.mrk = s.mrk ∧ { s with free := x }.sch = s.sch ∧
    { s with free := x }.prt = s.prt ∧ { s with free := x }.map = s.map ∧ { s with free := x }.pendingMap = s.pendingMap ∧ { s with free := x }.rings = s.rings ∧
    { s with free := x }.chn = s.chn ∧ { s with free := x }.evt = s.evt ∧ { s with free := x }.box = s.box ∧ { s with free := x }.mdm = s.mdm ∧
    { s with free := x }.pwr = s.pwr ∧ { s with free := x }.bat = s.bat ∧ { s with free := x }.htr = s.htr ∧ { s with free := x }.mon = s.mon ∧
    { s with free := x }.bus = s.bus ∧ { s with free := x }.params = s.params ∧ { s with free := x }.store = s.store ∧ { s with free := x }.pending = s.pending ∧
    { s with free := x }.powered = s.powered ∧ { s with free := x }.osc = s.osc ∧ { s with free := x }.moment = s.moment := by
  refine ⟨rfl, rfl, rfl, rfl, rfl, rfl, rfl, rfl, rfl, rfl, rfl, rfl, rfl, rfl, rfl, rfl, rfl, rfl, rfl, rfl, rfl, rfl, rfl⟩

end Sys2Proof.Laws
end

