-- ==== Sys2Proof/Laws/Does.lean ====
section
/-! SUPPORT. What an operation can do, said once for each operation: the parts of the state it can change and that it
keeps the invariants. Here the relation itself, and the update of one field. -/
namespace Sys2Proof.Laws

open Sys2Proof Sys2Proof.Machine

/-- From s to t only the parts of L change, and every invariant that held in s holds in t. -/
structure Does (L : List Part) (s t : State) : Prop where
  frame : OnlyIn L s t
  lists : s.listsFit → t.listsFit
  rates : s.ratesBounded → t.ratesBounded
  term : s.termFollows → t.termFollows
  degraded : s.degradedFollows → t.degradedFollows
  wake : s.wakeFollows → t.wakeFollows
  rings : (∀ c : Chan, Sparse.wf (fun _ => Slot.blank) s.rings[c].slots = true) →
    ∀ c : Chan, Sparse.wf (fun _ => Slot.blank) t.rings[c].slots = true

theorem same_refl (p : Part) (s : State) : p.same s s := by
  cases p <;> simp [Part.same]

theorem same_trans {p : Part} {s t u : State} (h : p.same s t) (k : p.same t u) : p.same s u := by
  cases p <;> simp only [Part.same] at * <;> simp_all

theorem Does.refl (L : List Part) (s : State) : Does L s s :=
  ⟨fun p _ => same_refl p s, id, id, id, id, id, id⟩

theorem Does.trans {L : List Part} {s t u : State} (h : Does L s t) (k : Does L t u) : Does L s u :=
  ⟨fun p hp => same_trans (h.frame p hp) (k.frame p hp), fun x => k.lists (h.lists x), fun x => k.rates (h.rates x),
    fun x => k.term (h.term x), fun x => k.degraded (h.degraded x), fun x => k.wake (h.wake x),
    fun x => k.rings (h.rings x)⟩

theorem Does.mono {K L : List Part} {s t : State} (h : Does K s t) (hs : ∀ p ∈ K, p ∈ L) : Does L s t :=
  ⟨fun p hp => h.frame p fun hk => hp (hs p hk), h.lists, h.rates, h.term, h.degraded, h.wake, h.rings⟩

/-- Two operations one after the other, each under its own parts. -/
theorem Does.after {K M L : List Part} {s t u : State} (h : Does K s t) (k : Does M t u)
    (hK : ∀ p ∈ K, p ∈ L) (hM : ∀ p ∈ M, p ∈ L) : Does L s u :=
  (h.mono hK).trans (k.mono hM)

/-- An operation over a list of ids, one after the other. -/
theorem Does.fold {α : Type} {L : List Part} (f : State → α → State) (h : ∀ s a, Does L s (f s a)) (l : List α) (s : State) :
    Does L s (l.foldl f s) := by
  induction l generalizing s with
  | nil => exact Does.refl L s
  | cons a r ih => exact (h s a).trans (ih (f s a))

/-- An operation that is taken or not after a first one. -/
theorem Does.ite {L : List Part} {s u : State} (c : Prop) [Decidable c] (f : State → State) (h : Does L s u)
    (k : Does L u (f u)) : Does L s (if c then f u else u) := by
  split
  · exact h.trans k
  · exact h

/-- One of two operations, or none, after a first one. -/
theorem Does.ite2 {L : List Part} {s u : State} (c d : Prop) [Decidable c] [Decidable d] (f g : State → State) (h : Does L s u)
    (k : Does L u (f u)) (l : Does L u (g u)) : Does L s (if c then f u else if d then g u else u) := by
  split
  · exact h.trans k
  · split
    · exact h.trans l
    · exact h

/-! ### One field put -/

theorem Does.clk (s : State) (x : Clock) (ht : Part.time.same s { s with clk := x })
    (hs : Part.supplyView.same s { s with clk := x })
    (hr : s.ratesBounded → ({ s with clk := x } : State).ratesBounded) : Does [.clk] s { s with clk := x } :=
  ⟨fun p hp => by cases p <;> first | exact ht | exact hs | rfl | (simp [Part.same]; done) | exact absurd (by simp) hp,
    id, hr, id, id, id, id⟩

theorem Does.clkAll (s : State) (x : Clock)
    (hr : s.ratesBounded → ({ s with clk := x } : State).ratesBounded) :
    Does [.clk, .time, .supplyView] s { s with clk := x } :=
  ⟨fun p hp => by cases p <;> first | rfl | (simp [Part.same]; done) | exact absurd (by simp) hp, id, hr, id, id, id, id⟩

theorem Does.clkSupply (s : State) (x : Clock) (ht : Part.time.same s { s with clk := x })
    (hr : s.ratesBounded → ({ s with clk := x } : State).ratesBounded) :
    Does [.clk, .supplyView] s { s with clk := x } :=
  ⟨fun p hp => by cases p <;> first | exact ht | rfl | (simp [Part.same]; done) | exact absurd (by simp) hp,
    id, hr, id, id, id, id⟩

theorem Does.mrk (s : State) (x : Capture) (h : s.mrk.marks.length ≤ 16 → x.marks.length ≤ 16) :
    Does [.mrk] s { s with mrk := x } :=
  ⟨fun p hp => by cases p <;> first | rfl | (simp [Part.same]; done) | exact absurd (by simp) hp,
    fun k => ⟨h k.1, k.2.1, k.2.2.1, k.2.2.2⟩, id, id, id, id, id⟩

theorem Does.sch (s : State) (x : Scheduler) (hv : Part.strobes.same s { s with sch := x })
    (h : s.sch.cals.length ≤ 4 → x.cals.length ≤ 4) : Does [.sch] s { s with sch := x } :=
  ⟨fun p hp => by cases p <;> first | exact hv | rfl | (simp [Part.same]; done) | exact absurd (by simp) hp,
    fun k => ⟨k.1, h k.2.1, k.2.2.1, k.2.2.2⟩, id, id, id, id, id⟩

theorem Does.schAll (s : State) (x : Scheduler) (h : s.sch.cals.length ≤ 4 → x.cals.length ≤ 4) :
    Does [.sch, .strobes] s { s with sch := x } :=
  ⟨fun p hp => by cases p <;> first | rfl | (simp [Part.same]; done) | exact absurd (by simp) hp,
    fun k => ⟨k.1, h k.2.1, k.2.2.1, k.2.2.2⟩, id, id, id, id, id⟩

theorem Does.prt (s : State) (x : Vector Port 2) : Does [.prt] s { s with prt := x } :=
  ⟨fun p hp => by cases p <;> first | rfl | (simp [Part.same]; done) | exact absurd (by simp) hp, id, id, id, id, id, id⟩

theorem Does.map (s : State) (x : ChanMap) : Does [.map] s { s with map := x } :=
  ⟨fun p hp => by cases p <;> first | rfl | (simp [Part.same]; done) | exact absurd (by simp) hp, id, id, id, id, id, id⟩

theorem Does.pendingMap (s : State) (x : Option ChanMap) : Does [.pendingMap] s { s with pendingMap := x } :=
  ⟨fun p hp => by cases p <;> first | rfl | (simp [Part.same]; done) | exact absurd (by simp) hp, id, id, id, id, id, id⟩

theorem Does.chn (s : State) (x : Vector Channel 6) : Does [.chn] s { s with chn := x } :=
  ⟨fun p hp => by cases p <;> first | rfl | (simp [Part.same]; done) | exact absurd (by simp) hp, id, id, id, id, id, id⟩

/-- The marks, notes and reports of the engine: nothing of the event itself. -/
theorem Does.evt (s : State) (x : Events) (hv : Part.event.same s { s with evt := x })
    (hw : x.wakeTerm = s.evt.wakeTerm) : Does [.evt] s { s with evt := x } := by
  obtain ⟨h1, h2, h3, h4, h5, h6, h7⟩ := hv
  have h3' : x.list = s.evt.list := h3
  refine ⟨fun p hp => by cases p <;> first | exact ⟨h1, h2, h3, h4, h5, h6, h7⟩ | rfl | (simp [Part.same]; done) | exact absurd (by simp) hp,
    fun k => ⟨k.1, k.2.1, k.2.2.1, ?_⟩, id, fun k => ?_, id, fun k => ?_, id⟩
  · show x.list.length ≤ 32; rw [h3']; exact k.2.2.2
  · show x.wakeTerm = (s.eventWake && !x.list.isEmpty); rw [h3', hw]; exact k
  · show s.mon.wake = (_ || x.wakeTerm); rw [hw]; exact k

/-- The event itself, with the same Event List and event-wake term. -/
theorem Does.event (s : State) (x : Events) (hl : x.list = s.evt.list) (hw : x.wakeTerm = s.evt.wakeTerm) :
    Does [.evt, .event] s { s with evt := x } := by
  refine ⟨fun p hp => by cases p <;> first | rfl | (simp [Part.same]; done) | exact absurd (by simp) hp,
    fun k => ⟨k.1, k.2.1, k.2.2.1, ?_⟩, id, fun k => ?_, id, fun k => ?_, id⟩
  · show x.list.length ≤ 32; rw [hl]; exact k.2.2.2
  · show x.wakeTerm = (s.eventWake && !x.list.isEmpty); rw [hl, hw]; exact k
  · show s.mon.wake = (_ || x.wakeTerm); rw [hw]; exact k

theorem Does.box (s : State) (x : Outbox) (hv : Part.credits.same s { s with box := x })
    (hf : x.entries.countP Alert.inFlight = s.box.entries.countP Alert.inFlight)
    (h : s.box.entries.length ≤ 12 → x.entries.length ≤ 12) : Does [.box] s { s with box := x } :=
  ⟨fun p hp => by cases p <;> first | exact hv | exact hf | rfl | (simp [Part.same]; done) | exact absurd (by simp) hp,
    fun k => ⟨k.1, k.2.1, h k.2.2.1, k.2.2.2⟩, id, id, id, id, id⟩

/-- The outbox with an entry going into flight or coming back. -/
theorem Does.boxFlight (s : State) (x : Outbox) (hv : Part.credits.same s { s with box := x })
    (h : s.box.entries.length ≤ 12 → x.entries.length ≤ 12) : Does [.box, .flight] s { s with box := x } :=
  ⟨fun p hp => by cases p <;> first | exact hv | rfl | (simp [Part.same]; done) | exact absurd (by simp) hp,
    fun k => ⟨k.1, k.2.1, h k.2.2.1, k.2.2.2⟩, id, id, id, id, id⟩

theorem Does.boxAll (s : State) (x : Outbox)
    (hf : x.entries.countP Alert.inFlight = s.box.entries.countP Alert.inFlight) (h : s.box.entries.length ≤ 12 → x.entries.length ≤ 12) :
    Does [.box, .credits] s { s with box := x } :=
  ⟨fun p hp => by cases p <;> first | exact hf | rfl | (simp [Part.same]; done) | exact absurd (by simp) hp,
    fun k => ⟨k.1, k.2.1, h k.2.2.1, k.2.2.2⟩, id, id, id, id, id⟩

theorem Does.mdm (s : State) (x : Modem) : Does [.mdm] s { s with mdm := x } :=
  ⟨fun p hp => by cases p <;> first | rfl | (simp [Part.same]; done) | exact absurd (by simp) hp, id, id, id, id, id, id⟩

theorem Does.pwr (s : State) (x : Power) : Does [.pwr] s { s with pwr := x } :=
  ⟨fun p hp => by cases p <;> first | rfl | (simp [Part.same]; done) | exact absurd (by simp) hp, id, id, id, id, id, id⟩

theorem Does.bat (s : State) (x : Battery) (hv : Part.power.same s { s with bat := x }) : Does [.bat] s { s with bat := x } :=
  ⟨fun p hp => by cases p <;> first | exact hv | rfl | (simp [Part.same]; done) | exact absurd (by simp) hp, id, id, id, id, id, id⟩

theorem Does.batAll (s : State) (x : Battery) : Does [.bat, .power] s { s with bat := x } :=
  ⟨fun p hp => by cases p <;> first | rfl | (simp [Part.same]; done) | exact absurd (by simp) hp, id, id, id, id, id, id⟩

theorem Does.htr (s : State) (x : Heater) : Does [.htr] s { s with htr := x } :=
  ⟨fun p hp => by cases p <;> first | rfl | (simp [Part.same]; done) | exact absurd (by simp) hp, id, id, id, id, id, id⟩

/-- The figures and the report of the monitor: neither conditions, WAKE nor the degraded flag. -/
theorem Does.figs (s : State) (x : Monitor) (hv : Part.interval.same s { s with mon := x })
    (hc : x.conds = s.mon.conds) (hw : x.wake = s.mon.wake) (hd : x.degraded = s.mon.degraded) :
    Does [.mon] s { s with mon := x } := by
  refine ⟨fun p hp => by cases p <;> first | exact hv | rfl | (simp [Part.same]; done) | exact absurd (by simp) hp,
    id, id, id, fun k => ?_, fun k => ?_, id⟩
  · show x.degraded = allConds.any fun c => x.conds[c].status && _; rw [hc, hd]; exact k
  · show x.wake = ((allConds.any fun c => x.conds[c].pending && _) || _); rw [hc, hw]; exact k

theorem Does.figsAll (s : State) (x : Monitor)
    (hc : x.conds = s.mon.conds) (hw : x.wake = s.mon.wake) (hd : x.degraded = s.mon.degraded) :
    Does [.mon, .interval] s { s with mon := x } := by
  refine ⟨fun p hp => by cases p <;> first | rfl | (simp [Part.same]; done) | exact absurd (by simp) hp,
    id, id, id, fun k => ?_, fun k => ?_, id⟩
  · show x.degraded = allConds.any fun c => x.conds[c].status && _; rw [hc, hd]; exact k
  · show x.wake = ((allConds.any fun c => x.conds[c].pending && _) || _); rw [hc, hw]; exact k

theorem Does.bus (s : State) (x : Bus) : Does [.bus] s { s with bus := x } :=
  ⟨fun p hp => by cases p <;> first | rfl | (simp [Part.same]; done) | exact absurd (by simp) hp, id, id, id, id, id, id⟩

theorem Does.store (s : State) (x : Store) : Does [.store] s { s with store := x } :=
  ⟨fun p hp => by cases p <;> first | rfl | (simp [Part.same]; done) | exact absurd (by simp) hp, id, id, id, id, id, id⟩

theorem Does.osc (s : State) (x : Nat) : Does [.osc] s { s with osc := x } :=
  ⟨fun p hp => by cases p <;> first | rfl | (simp [Part.same]; done) | exact absurd (by simp) hp, id, id, id, id, id, id⟩

theorem Does.moment (s : State) (x : Moment) : Does [.moment] s { s with moment := x } :=
  ⟨fun p hp => by cases p <;> first | rfl | (simp [Part.same]; done) | exact absurd (by simp) hp, id, id, id, id, id, id⟩

theorem Does.free (s : State) (x : Nat) : Does [.free] s { s with free := x } :=
  ⟨fun p hp => by cases p <;> first | rfl | (simp [Part.same]; done) | exact absurd (by simp) hp, id, id, id, id, id, id⟩

end Sys2Proof.Laws
end

