-- ==== Sys2Proof/Laws/Flags.lean ====
section
/-! SUPPORT. What the operations of Flags and Outbox can do: conditions, WAKE, the degraded flag, placing and the other
changes of the Alert Outbox. -/
namespace Sys2Proof.Laws

open Sys2Proof Sys2Proof.Machine

/-! ### WAKE and the degraded flag -/

theorem wakeEval_follows (s : State) : (wakeEval s).wakeFollows := rfl

theorem degradedEval_follows (s : State) : (degradedEval s).degradedFollows := rfl

theorem setCond_conds (c : CondId) (x : Cond) (s : State) (d : CondId) :
    (setCond c x s).mon.conds[d] = if c = d then x else s.mon.conds[d] := by
  show (s.mon.conds.set c x)[d.val] = _
  rw [Vector.getElem_set]
  by_cases h : c = d
  · simp [h]
  · have : c.val ≠ d.val := fun e => h (Fin.ext e)
    simp [h, this]

theorem degradedLevel_setCond (c : CondId) (x : Cond) (s : State)
    (h : x.status = s.mon.conds[c].status ∨ inSet s.degradedSet c = false) :
    (setCond c x s).degradedLevel = s.degradedLevel := by
  unfold State.degradedLevel
  congr 1
  funext d
  rw [setCond_conds]
  show ((if c = d then x else s.mon.conds[d]).status && inSet s.degradedSet d) = _
  by_cases e : c = d
  · subst e
    rcases h with h | h
    · simp [h]
    · simp [h]
  · simp [e]

theorem setCond_degraded (c : CondId) (x : Cond) (s : State)
    (h : x.status = s.mon.conds[c].status ∨ inSet s.degradedSet c = false) (k : s.degradedFollows) :
    (setCond c x s).degradedFollows := by
  show s.mon.degraded = (setCond c x s).degradedLevel
  rw [degradedLevel_setCond c x s h]
  exact k

theorem wakeEval_does (s : State) : Does [.mon] s (wakeEval s) :=
  ⟨fun p hp => by cases p <;> first | rfl | (simp [Part.same, wakeEval]; done) | exact absurd (by simp) hp,
    id, id, id, id, fun _ => rfl, id⟩

theorem degradedEval_does (s : State) : Does [.mon] s (degradedEval s) :=
  ⟨fun p hp => by cases p <;> first | rfl | (simp [Part.same, degradedEval]; done) | exact absurd (by simp) hp,
    id, id, id, fun _ => rfl, id, id⟩

/-- A put of a row with WAKE evaluated after it, where the status does not bear on the degraded flag. -/
theorem setCond_wake_does (c : CondId) (x : Cond) (s : State)
    (h : x.status = s.mon.conds[c].status ∨ inSet s.degradedSet c = false) :
    Does [.mon] s (wakeEval (setCond c x s)) :=
  ⟨fun p hp => by cases p <;> first | rfl | (simp [Part.same, wakeEval, setCond]; done) | exact absurd (by simp) hp,
    id, id, id, fun k => (wakeEval_does _).degraded (setCond_degraded c x s h k), fun _ => rfl, id⟩

/-- A put of a row with the degraded flag and WAKE evaluated after it. -/
theorem setCond_eval_does (c : CondId) (x : Cond) (s : State) :
    Does [.mon] s (wakeEval (degradedEval (setCond c x s))) :=
  ⟨fun p hp => by
    cases p <;> first | rfl | (simp [Part.same, wakeEval, degradedEval, setCond]; done) | exact absurd (by simp) hp,
    id, id, id, fun _ => (wakeEval_does _).degraded (degradedEval_follows _), fun _ => rfl, id⟩

theorem dropOccurrence_does (s : State) : Does [.mon] s (dropOccurrence s) := by
  unfold dropOccurrence
  simp only
  split
  · exact setCond_wake_does _ _ _ (Or.inl rfl)
  · split
    · exact setCond_eval_does _ _ _
    · rename_i h
      refine setCond_wake_does _ _ _ (Or.inr ?_)
      exact Bool.eq_false_iff.mpr h

/-! ### Placing -/

/-- An insertion only adds its element. -/
theorem insertBy_perm {α : Type} (f : α → α → Bool) (x : α) (l : List α) : (insertBy f x l).Perm (x :: l) := by
  induction l with
  | nil => exact List.Perm.refl _
  | cons y r ih =>
    unfold insertBy
    split
    · exact (ih.cons y).trans (List.Perm.swap x y r)
    · exact List.Perm.refl _

theorem length_insertBy {α : Type} (f : α → α → Bool) (x : α) (l : List α) : (insertBy f x l).length = l.length + 1 :=
  (insertBy_perm f x l).length_eq

/-- R112: putting the entries in order keeps them. -/
theorem sortAlerts_perm (n : Nat) (l : List Alert) : (sortAlerts n l).Perm l := by
  unfold sortAlerts
  induction l with
  | nil => exact List.Perm.refl _
  | cons y r ih => exact (insertBy_perm _ y _).trans (ih.cons y)

theorem length_sortAlerts (n : Nat) (l : List Alert) : (sortAlerts n l).length = l.length := (sortAlerts_perm n l).length_eq

theorem length_enter (b : Outbox) (a : Alert) (kept : List Alert) : (b.enter a kept).entries.length = kept.length + 1 := by
  unfold Outbox.enter
  simp [length_sortAlerts]

/-- R116: a WAITING entry enters, with as many entries IN_FLIGHT among those kept as before. -/
theorem enter_does (a : Alert) (kept : List Alert) (s : State) (ha : a.inFlight = false)
    (hf : kept.countP Alert.inFlight = s.box.entries.countP Alert.inFlight) (h : s.box.entries.length ≤ 12 → kept.length ≤ 11) :
    Does [.box] s { s with box := s.box.enter a kept } :=
  Does.box s (s.box.enter a kept) (by simp [Part.same, Outbox.enter])
    (by
      show (sortAlerts _ _).countP _ = _
      rw [(sortAlerts_perm _ _).countP_eq, List.countP_cons]
      simp [ha, hf])
    fun k => by rw [length_enter]; have := h k; omega

theorem alertLost_does (s : State) : Does [.box, .mon] s (alertLost s) := by
  unfold alertLost
  refine Does.trans ?_ (Does.mono (dropOccurrence_does _) (by decide))
  exact Does.trans (Does.mono (Does.box s { s.box with drops := inc16 s.box.drops } (by simp [Part.same]) rfl id) (by decide))
    (Does.mono (Does.figs _ { s.mon with figs := { s.mon.figs with dropped := inc16 s.mon.figs.dropped } }
      (by simp [Part.same]) rfl rfl rfl) (by decide))

theorem lastWaiting_mem {l : List Alert} {w : Alert} (h : lastWaiting l = some w) : w ∈ l := by
  unfold lastWaiting at h
  exact List.mem_reverse.mp (List.mem_of_find?_eq_some h)

theorem lastWaiting_waits {l : List Alert} {w : Alert} (h : lastWaiting l = some w) : w.inFlight = false := by
  unfold lastWaiting at h
  simpa using List.find?_some h

/-- Taking a WAITING entry out leaves as many IN_FLIGHT. -/
theorem countP_erase_waiting (l : List Alert) (w : Alert) (hw : w.inFlight = false) :
    (l.erase w).countP Alert.inFlight = l.countP Alert.inFlight := by
  rw [List.countP_erase]
  simp [hw]

/-- R116: a WAITING alert is placed. -/
theorem place_does (a : Alert) (s : State) (ha : a.inFlight = false) : Does [.box, .mon] s (place a s) := by
  unfold place
  split
  · rename_i h
    exact (enter_does a _ s ha rfl fun _ => by omega).mono (by decide)
  · split
    · exact alertLost_does s
    · rename_i w hw
      split
      · refine ((enter_does a _ s ha (countP_erase_waiting _ _ (lastWaiting_waits hw)) fun k => ?_).mono (by decide)).trans
          (alertLost_does _)
        rw [List.length_erase_of_mem (lastWaiting_mem hw)]
        omega
      · exact alertLost_does s

/-- A change of entries that takes none into flight or out of it. -/
theorem countP_map_flight (l : List Alert) (f : Alert → Alert) (h : ∀ a, (f a).inFlight = a.inFlight) :
    (l.map f).countP Alert.inFlight = l.countP Alert.inFlight := by
  rw [List.countP_map]
  congr 1
  funext a
  exact h a

theorem coalesce_flight (v : Bool) (x : Stamp) (a : Alert) : (a.coalesce v x).inFlight = a.inFlight := by
  unfold Alert.coalesce
  split <;> rfl

theorem conditionAlert_does (c : CondId) (v : Bool) (x : Stamp) (s : State) : Does [.box, .mon] s (conditionAlert c v x s) := by
  unfold conditionAlert
  split
  · refine (Does.box s _ (by simp [Part.same]) (countP_map_flight _ _ fun a => ?_) fun k => by simpa using k).mono (by decide)
    split
    · exact coalesce_flight v x a
    · rfl
  · exact place_does _ s rfl

/-! ### Status changes -/

theorem statusChange_does (c : CondId) (v : Bool) (s : State) : Does [.box, .mon] s (statusChange c v s) := by
  unfold statusChange
  split
  · exact Does.refl _ s
  · unfold completeChange
    simp only
    generalize hk : (s.mon.conds[c].change v s.stamp) = k
    -- the row with its pending mark
    have key : ∃ x : Cond, (if isOccurrence c || (setCond c k s).pendingBlocked c then setCond c k s
        else setCond c { (setCond c k s).mon.conds[c] with pending := true } (setCond c k s)) = setCond c x s := by
      split
      · exact ⟨k, rfl⟩
      · exact ⟨{ k with pending := true }, by unfold setCond; simp⟩
    obtain ⟨x, hx⟩ := key
    rw [hx]
    have hd : (setCond c x s).degradedSet = s.degradedSet := rfl
    have h2 : Does [.box, .mon] (setCond c x s)
        (if inSet (setCond c x s).alertSet c then conditionAlert c v s.stamp (setCond c x s) else setCond c x s) := by
      split
      · exact conditionAlert_does _ _ _ _
      · exact Does.refl _ _
    generalize (if inSet (setCond c x s).alertSet c then conditionAlert c v s.stamp (setCond c x s) else setCond c x s) = u at *
    have hu : u.degradedSet = s.degradedSet := by
      have := h2.frame .params (by decide)
      show (u.param 112).toNat = _
      unfold State.param
      rw [show u.params = s.params from this]
      rfl
    have f1 : OnlyIn [.box, .mon] s (setCond c x s) := fun p hp => by
      cases p <;> first | rfl | (simp [Part.same, setCond]; done) | exact absurd (by simp) hp
    have f2 : OnlyIn [.box, .mon] s u := fun p hp => same_trans (f1 p hp) (h2.frame p hp)
    split
    · refine ⟨fun p hp => same_trans (f2 p hp) (((degradedEval_does u).trans (wakeEval_does _)).mono (by decide) |>.frame p hp),
        fun h => h2.lists h, fun h => h2.rates h, fun h => h2.term h,
        fun _ => (wakeEval_does _).degraded (degradedEval_follows _), fun _ => rfl, fun h => h2.rings h⟩
    · rename_i hn
      refine ⟨fun p hp => same_trans (f2 p hp) ((wakeEval_does u).mono (by decide) |>.frame p hp),
        fun h => h2.lists h, fun h => h2.rates h, fun h => h2.term h, fun h => ?_, fun _ => rfl, fun h => h2.rings h⟩
      refine (wakeEval_does _).degraded (h2.degraded (setCond_degraded c x s (Or.inr ?_) h))
      rw [← hu]
      exact Bool.eq_false_iff.mpr hn

theorem lostOccurrence_does (s : State) : Does [.box, .mon] s (lostOccurrence s) := by
  unfold lostOccurrence
  refine Does.trans ?_ (statusChange_does 17 true _)
  exact Does.mono (setCond_wake_does 17 { s.mon.conds[17] with pending := true } s (Or.inl rfl)) (by decide)

theorem judgeErrors_does (p : PortId) (s : State) : Does [.box, .mon] s (judgeErrors p s) := statusChange_does _ _ s

theorem refillCredits_does (s : State) : Does [.box, .credits] s (refillCredits s) := Does.boxAll s _ rfl id

theorem clampCredits_does (s : State) : Does [.box, .credits] s (clampCredits s) := Does.boxAll s _ rfl id

theorem intervalBoundary_does (s : State) : Does [.box, .credits, .mon, .interval] s (intervalBoundary s) := by
  unfold intervalBoundary
  simp only
  have h (x : Monitor) (hc : x.conds = s.mon.conds) (hw : x.wake = s.mon.wake) (hd : x.degraded = s.mon.degraded) :
      Does [.box, .credits, .mon, .interval] s
        (refillCredits (statusChange 17 false (statusChange 16 false (judgeErrors 1 (judgeErrors 0 { s with mon := x }))))) := by
    refine Does.trans ?_ (Does.mono (refillCredits_does _) (by decide))
    refine Does.trans ?_ (Does.mono (statusChange_does 17 false _) (by decide))
    refine Does.trans ?_ (Does.mono (statusChange_does 16 false _) (by decide))
    refine Does.trans ?_ (Does.mono (judgeErrors_does 1 _) (by decide))
    refine Does.trans ?_ (Does.mono (judgeErrors_does 0 _) (by decide))
    exact Does.mono (Does.figsAll s x hc hw hd) (by decide)
  have h6 := h { s.mon with figs := {}, number := s.intervalNumber, start := s.clk.s } rfl rfl rfl
  generalize refillCredits _ = u at *
  exact Does.trans h6 (Does.mono (Does.figsAll u { u.mon with report := _ } rfl rfl rfl) (by decide))

theorem intervalTest_does (s : State) : Does [.box, .credits, .mon, .interval] s (intervalTest s) := by
  unfold intervalTest
  split
  · exact intervalBoundary_does s
  · exact Does.refl _ s

/-! ### The Alert Outbox -/

theorem openAlert_does (r : EvRecord) (s : State) : Does [.box, .mon] s (openAlert r s) := by
  unfold openAlert
  split
  · exact place_does _ s rfl
  · exact Does.refl _ s

theorem closeAlert_does (r : EvRecord) (s : State) : Does [.box, .mon] s (closeAlert r s) := by
  unfold closeAlert
  split
  · split
    · refine (Does.box s _ (by simp [Part.same]) (countP_map_flight _ _ fun a => ?_) fun k => by simpa using k).mono (by decide)
      split <;> rfl
    · exact place_does _ s rfl
  · exact Does.refl _ s

theorem raiseClose_does (k : Nat) (nb : Option Time) (s : State) : Does [.box] s (raiseClose k nb s) :=
  Does.box s _ (by simp [Part.same])
    (by
      show (sortAlerts _ _).countP _ = _
      rw [(sortAlerts_perm _ _).countP_eq]
      refine countP_map_flight _ _ fun a => ?_
      split <;> rfl)
    fun h => by rw [length_sortAlerts]; simpa using h

theorem removeInFlight_does (s : State) : Does [.box, .flight] s (removeInFlight s) :=
  Does.boxFlight s _ (by simp [Part.same]) fun h => Nat.le_trans (List.length_filter_le _ _) h

theorem returnInFlight_does (n : Nat) (nb : Option Time) (s : State) : Does [.box, .flight] s (returnInFlight n nb s) := by
  unfold returnInFlight
  split
  · exact Does.refl _ s
  · split
    · exact (removeInFlight_does s).trans (Does.mono (raiseClose_does _ _ _) (by decide))
    · split
      · exact removeInFlight_does s
      · exact Does.boxFlight s _ (by simp [Part.same]) fun h => by simpa using h

theorem alertSent_does (s : State) : Does [.box, .credits, .flight, .mon] s (alertSent s) := by
  unfold alertSent
  simp only
  refine Does.trans (Does.mono (removeInFlight_does s) (by decide)) ?_
  generalize removeInFlight s = u
  exact Does.trans (Does.mono (Does.boxAll u { u.box with sent := inc16 u.box.sent } rfl id) (by decide))
    (Does.mono (Does.figs _ { u.mon with figs := { u.mon.figs with sent := inc16 u.mon.figs.sent } }
      (by simp [Part.same]) rfl rfl rfl) (by decide))

theorem alertDropped_does (s : State) : Does [.box, .flight, .mon] s (alertDropped s) := by
  unfold alertDropped
  split
  · exact Does.refl _ s
  · have h := ((removeInFlight_does s).mono (L := [.box, .flight, .mon]) (by decide)).trans
      ((alertLost_does _).mono (by decide))
    simp only
    split
    · exact h.trans ((raiseClose_does _ _ _).mono (by decide))
    · exact h

theorem passNotBefores_does (s : State) : Does [.box] s (passNotBefores s) :=
  Does.box s _ (by simp [Part.same])
    (countP_map_flight _ _ fun a => by
      cases h : a.notBefore with
      | none => rfl
      | some x => simp only; split <;> rfl)
    fun h => by simpa using h

end Sys2Proof.Laws
end

