-- ==== Sys2Proof/Laws/Conditions.lean ====
section
/-! SUPPORT. What a report does to the rows of the condition table: the row reported takes the status it is given, and every
other row stays, but for that of OUTBOX_DROP, to which an alert lost on the way is an occurrence (R118, R179, R180). -/
namespace Sys2Proof.Laws

open Sys2Proof Sys2Proof.Machine

theorem dropOccurrence_cond (s : State) (d : CondId) (h : d.val ≠ 16) : (dropOccurrence s).mon.conds[d] = s.mon.conds[d] := by
  have e : (16 : CondId) ≠ d := fun e => h (by rw [← e]; rfl)
  have one (x : Cond) : (setCond 16 x s).mon.conds[d] = s.mon.conds[d] := by rw [setCond_conds, if_neg e]
  unfold dropOccurrence
  dsimp only
  split
  · exact one _
  · split <;> exact one _

theorem alertLost_cond (s : State) (d : CondId) (h : d.val ≠ 16) : (alertLost s).mon.conds[d] = s.mon.conds[d] :=
  dropOccurrence_cond _ d h

theorem place_cond (a : Alert) (s : State) (d : CondId) (h : d.val ≠ 16) : (place a s).mon.conds[d] = s.mon.conds[d] := by
  unfold place
  split
  · rfl
  · split
    · exact alertLost_cond s d h
    · split <;> exact alertLost_cond _ d h

theorem conditionAlert_cond (c : CondId) (v : Bool) (x : Stamp) (s : State) (d : CondId) (h : d.val ≠ 16) :
    (conditionAlert c v x s).mon.conds[d] = s.mon.conds[d] := by
  unfold conditionAlert
  split
  · rfl
  · exact place_cond _ s d h

/-- A completed change leaves every row but its own and that of OUTBOX_DROP, and the status of its own row. -/
theorem completeChange_cond (c : CondId) (v : Bool) (x : Stamp) (s : State) (d : CondId) (h : d.val ≠ 16) :
    (completeChange c v x s).mon.conds[d].status = s.mon.conds[d].status
    ∧ (d ≠ c → (completeChange c v x s).mon.conds[d] = s.mon.conds[d]) := by
  unfold completeChange
  dsimp only
  generalize hs1 : (if isOccurrence c || s.pendingBlocked c then s
    else setCond c { s.mon.conds[c] with pending := true } s) = s1
  have h1 : s1.mon.conds[d].status = s.mon.conds[d].status ∧ (d ≠ c → s1.mon.conds[d] = s.mon.conds[d]) := by
    subst hs1
    split
    · exact ⟨rfl, fun _ => rfl⟩
    · rw [setCond_conds]
      refine ⟨?_, fun k => if_neg (Ne.symm k)⟩
      split
      · rename_i e; subst e; rfl
      · rfl
  have h2 : ∀ u : State, u.mon.conds[d] = s1.mon.conds[d] →
      (wakeEval (if inSet u.degradedSet c then degradedEval u else u)).mon.conds[d].status = s.mon.conds[d].status
      ∧ (d ≠ c → (wakeEval (if inSet u.degradedSet c then degradedEval u else u)).mon.conds[d] = s.mon.conds[d]) := by
    intro u e
    have : (wakeEval (if inSet u.degradedSet c then degradedEval u else u)).mon.conds[d] = u.mon.conds[d] := by split <;> rfl
    rw [this, e]
    exact h1
  apply h2
  split
  · exact conditionAlert_cond c v x s1 d h
  · rfl

/-- A report leaves every row but its own and that of OUTBOX_DROP. -/
theorem statusChange_other (c : CondId) (v : Bool) (s : State) (d : CondId) (h : d.val ≠ 16) (hd : d ≠ c) :
    (statusChange c v s).mon.conds[d] = s.mon.conds[d] := by
  unfold statusChange
  split
  · rfl
  · rw [(completeChange_cond c v _ _ d h).2 hd, setCond_conds, if_neg (Ne.symm hd)]

/-- A report of a condition other than OUTBOX_DROP leaves its row with the status reported. -/
theorem statusChange_status (c : CondId) (v : Bool) (s : State) (h : c.val ≠ 16) :
    (statusChange c v s).mon.conds[c].status = v := by
  unfold statusChange
  split
  · assumption
  · rw [(completeChange_cond c v _ _ c h).1, setCond_conds, if_pos rfl]
    rfl

end Sys2Proof.Laws
end

