-- ==== Sys2Proof/Laws/Sparse.lean ====
section
/-! SUPPORT. Sparse maps: a put keeps the canonical form, reads back what was put, and leaves every other key. -/
namespace Sys2Proof.Laws

open Sys2Proof Sys2Proof.Machine

variable {α : Type} [DecidableEq α]

theorem put_wfFrom (d : Nat → α) (k : Nat) (v : α) (lo : Option Nat) (m : List (Nat × α))
    (h : Sparse.wfFrom d lo m = true) (hk : ∀ l, lo = some l → l < k) :
    Sparse.wfFrom d lo (Sparse.put (d k) k v m) = true := by
  induction m generalizing lo with
  | nil =>
    unfold Sparse.put
    split
    · rfl
    · rename_i hv
      unfold Sparse.wfFrom
      cases lo with
      | none => simp [hv, Sparse.wfFrom]
      | some l => simp [hv, hk l rfl, Sparse.wfFrom]
  | cons a r ih =>
    obtain ⟨k', v'⟩ := a
    unfold Sparse.wfFrom at h
    simp only [Bool.and_eq_true, decide_eq_true_eq] at h
    obtain ⟨⟨h1, h2⟩, h3⟩ := h
    unfold Sparse.put
    split
    · rename_i hlt
      split
      · unfold Sparse.wfFrom
        simp only [Bool.and_eq_true, decide_eq_true_eq]
        exact ⟨⟨h1, h2⟩, h3⟩
      · rename_i hv
        have inner : Sparse.wfFrom d (some k) ((k', v') :: r) = true := by
          unfold Sparse.wfFrom
          simp only [Bool.and_eq_true, decide_eq_true_eq]
          exact ⟨⟨by simpa using hlt, h2⟩, h3⟩
        unfold Sparse.wfFrom
        cases lo with
        | none => simp [hv, inner]
        | some l => simp [hv, hk l rfl, inner]
    · rename_i hge
      split
      · rename_i heq
        subst heq
        split
        · -- the entry is taken out: what follows stands above k, so above lo
          have hr := h3
          cases r with
          | nil => rfl
          | cons b r' =>
            obtain ⟨k2, v2⟩ := b
            unfold Sparse.wfFrom at hr ⊢
            simp only [Bool.and_eq_true, decide_eq_true_eq] at hr ⊢
            refine ⟨⟨?_, hr.1.2⟩, hr.2⟩
            cases lo with
            | none => rfl
            | some l =>
              have := hk l rfl
              have := hr.1.1
              simp only [decide_eq_true_eq] at this ⊢
              omega
        · rename_i hv
          unfold Sparse.wfFrom
          cases lo with
          | none => simp [hv, h3]
          | some l => simp [hv, hk l rfl, h3]
      · rename_i hne
        unfold Sparse.wfFrom
        simp only [Bool.and_eq_true, decide_eq_true_eq]
        refine ⟨⟨h1, h2⟩, ih (some k') h3 fun l hl => ?_⟩
        cases hl
        omega

/-- Every put keeps the canonical form. -/
theorem put_wf (d : Nat → α) (k : Nat) (v : α) (m : List (Nat × α)) (h : Sparse.wf d m = true) :
    Sparse.wf d (Sparse.put (d k) k v m) = true :=
  put_wfFrom d k v none m h fun _ hl => by cases hl

theorem find_above (d : Nat → α) (e : α) (k : Nat) (m : List (Nat × α)) (lo : Nat) (h : Sparse.wfFrom d (some lo) m = true)
    (hk : k ≤ lo) : Sparse.find e k m = e := by
  induction m generalizing lo with
  | nil => rfl
  | cons a r ih =>
    obtain ⟨k', v'⟩ := a
    unfold Sparse.wfFrom at h
    simp only [Bool.and_eq_true, decide_eq_true_eq] at h
    unfold Sparse.find
    rw [if_neg (by have := h.1.1; omega)]
    exact ih k' h.2 (by have := h.1.1; omega)

/-- Every put leaves the other keys. -/
theorem find_put_ne (d e v : α) (k j : Nat) (m : List (Nat × α)) (h : j ≠ k) :
    Sparse.find e j (Sparse.put d k v m) = Sparse.find e j m := by
  induction m with
  | nil =>
    unfold Sparse.put
    split
    · rfl
    · simp [Sparse.find, Ne.symm h]
  | cons a r ih =>
    obtain ⟨k', v'⟩ := a
    unfold Sparse.put
    split
    · split
      · rfl
      · simp [Sparse.find, Ne.symm h]
    · split
      · rename_i heq
        subst heq
        split
        · simp [Sparse.find, Ne.symm h]
        · simp [Sparse.find, Ne.symm h]
      · unfold Sparse.find
        split
        · rfl
        · exact ih

/-- What was put reads back. -/
theorem find_put (d : Nat → α) (k : Nat) (v : α) (lo : Option Nat) (m : List (Nat × α))
    (h : Sparse.wfFrom d lo m = true) : Sparse.find (d k) k (Sparse.put (d k) k v m) = v := by
  induction m generalizing lo with
  | nil =>
    unfold Sparse.put
    split
    · rename_i hv; simp [Sparse.find, hv]
    · simp [Sparse.find]
  | cons a r ih =>
    obtain ⟨k', v'⟩ := a
    have h0 := h
    unfold Sparse.wfFrom at h
    simp only [Bool.and_eq_true, decide_eq_true_eq] at h
    unfold Sparse.put
    split
    · rename_i hlt
      split
      · rename_i hv
        rw [hv]
        have inner : Sparse.wfFrom d (some k) ((k', v') :: r) = true := by
          unfold Sparse.wfFrom
          simp only [Bool.and_eq_true, decide_eq_true_eq]
          exact ⟨⟨by simpa using hlt, h.1.2⟩, h.2⟩
        exact find_above d (d k) k _ k inner (Nat.le_refl k)
      · simp [Sparse.find]
    · split
      · rename_i heq
        subst heq
        split
        · rename_i hv
          rw [hv]
          exact find_above d (d k) k r k h.2 (Nat.le_refl k)
        · simp [Sparse.find]
      · rename_i h1 h2
        unfold Sparse.find
        rw [if_neg (Ne.symm h2)]
        exact ih (some k') h.2

end Sys2Proof.Laws
end

