-- ==== Sys2Proof/Laws/Power.lean ====
section
/-! SUPPORT. What the operations of Trigger, Heater, Battery and Clock can do. -/
namespace Sys2Proof.Laws

open Sys2Proof Sys2Proof.Machine

/-! ### Trigger -/

theorem setChan_does (c : Chan) (x : Channel) (s : State) : Does [.chn] s (setChan c x s) := Does.chn s _

theorem signalState_does (c : Chan) (s : State) : Does [.evt] s (signalState c s) := by
  unfold signalState
  split
  · exact Does.evt s _ (by simp [Part.same]) rfl
  · exact Does.refl _ s

theorem setSignal_does (c : Chan) (x : Channel) (s : State) : Does [.chn, .evt] s (signalState c (setChan c x s)) :=
  Does.trans (Does.mono (setChan_does c x s) (by decide)) (Does.mono (signalState_does c _) (by decide))

theorem restartChan_does (c : Chan) (s : State) : Does [.chn, .evt] s (restartChan c s) := setSignal_does c _ s

theorem restartAll_does (s : State) : Does [.chn, .evt] s (restartAll s) :=
  Does.fold (fun s c => restartChan c s) (fun s c => restartChan_does c s) _ s

theorem refreshChan_does (c : Chan) (s : State) : Does [.chn, .evt] s (refreshChan c s) := by
  unfold refreshChan
  repeat' split
  · exact restartChan_does c s
  · exact Does.refl _ s
  · exact Does.refl _ s
  · exact setSignal_does c _ s

theorem refreshPort_does (p : PortId) (s : State) : Does [.chn, .evt] s (refreshPort p s) := by
  unfold refreshPort
  refine Does.fold _ (fun s c => ?_) _ s
  split
  · exact refreshChan_does c s
  · exact Does.refl _ s

theorem suppressOn_does (c : Chan) (s : State) : Does [.chn, .evt] s (suppressOn c s) := setSignal_does c _ s

theorem suppressOff_does (c : Chan) (s : State) : Does [.chn, .evt] s (suppressOff c s) := by
  unfold suppressOff
  simp only
  repeat' split
  · exact setSignal_does c _ s
  · exact Does.trans (Does.mono (setChan_does c _ s) (by decide)) (restartChan_does c _)
  · exact Does.mono (setChan_does c _ s) (by decide)

theorem resuppressChan_does (c : Chan) (s : State) : Does [.chn, .evt] s (resuppressChan c s) := by
  unfold resuppressChan
  repeat' split
  · exact Does.refl _ s
  · exact suppressOn_does c s
  · exact suppressOff_does c s
  · exact Does.refl _ s

theorem resuppress_does (s : State) : Does [.chn, .evt] s (resuppress s) :=
  Does.fold (fun s c => resuppressChan c s) (fun s c => resuppressChan_does c s) _ s

/-! ### Heater -/

theorem flagRecord_does (f : EvFlags → EvFlags) (s : State) : Does [.evt, .event] s (flagRecord f s) := by
  unfold flagRecord
  split
  · exact Does.refl _ s
  · exact Does.event s _ rfl rfl

theorem judgeBudget_does (s : State) : Does [.htr] s (judgeBudget s) := Does.htr s _

theorem relimit_does (s : State) : Does [.htr] s (relimit s) := Does.htr s _

theorem heaterShutdown_does (s : State) : Does [.htr, .box, .mon] s (heaterShutdown s) := by
  unfold heaterShutdown
  refine Does.trans ?_ (Does.mono (statusChange_does 13 _ _) (by decide))
  exact Does.mono (Does.htr s _) (by decide)

theorem heaterRestart_does (s : State) : Does [.htr, .box, .mon] s (heaterRestart s) := by
  unfold heaterRestart
  refine Does.trans ?_ (Does.mono (statusChange_does 13 _ _) (by decide))
  exact Does.mono (Does.htr s _) (by decide)

theorem heaterFollow_does (s : State) : Does [.htr] s (heaterFollow s) := by
  unfold heaterFollow
  repeat' split
  all_goals first | exact Does.refl _ s | exact Does.htr s _

theorem heaterHoldStart_does (s : State) : Does [.htr] s (heaterHoldStart s) := by
  unfold heaterHoldStart
  split
  · exact Does.htr s _
  · exact Does.refl _ s

theorem heaterHoldEnd_does (s : State) : Does [.htr] s (heaterHoldEnd s) := Does.htr s _

/-- The figures of the monitor and one more field. -/
theorem figsHtr_does (s : State) (f : Figures) (x : Heater) :
    Does [.htr, .mon] s { s with mon := { s.mon with figs := f }, htr := x } :=
  Does.trans (t := { s with mon := { s.mon with figs := f } })
    (Does.mono (Does.figs s _ (by simp [Part.same]) rfl rfl rfl) (by decide)) (Does.mono (Does.htr _ x) (by decide))

theorem heaterEnergy_does (s : State) : Does [.htr, .mon] s (heaterEnergy s) := figsHtr_does s _ _

theorem heaterDay_does (s : State) : Does [.htr] s (heaterDay s) := by
  unfold heaterDay
  simp only
  split
  · exact judgeBudget_does s
  · exact Does.trans (Does.htr s _) (judgeBudget_does _)

theorem heaterCauses_does (s : State) : Does [.htr, .box, .mon] s (heaterCauses s) := by
  unfold heaterCauses
  split
  · exact Does.ite _ heaterRestart (Does.mono (Does.htr s _) (by decide)) (heaterRestart_does _)
  · split
    · exact heaterShutdown_does s
    · exact Does.refl _ s

theorem heaterHold_does (s : State) : Does [.htr] s (heaterHold s) := by
  unfold heaterHold
  split
  · exact Does.refl _ s
  · simp only
    split
    · refine Does.trans ?_ (heaterHoldEnd_does _)
      exact Does.htr s _
    · exact Does.htr s _

theorem heaterLaw_does (s : State) : Does [.htr] s (heaterLaw s) := by
  unfold heaterLaw
  refine Does.trans ?_ (relimit_does _)
  exact Does.htr s _

theorem heaterWithheld_does (s : State) : Does [.htr, .evt, .event] s (heaterWithheld s) := by
  unfold heaterWithheld
  split
  · exact Does.refl _ s
  · refine Does.trans ?_ (Does.mono (flagRecord_does _ _) (by decide))
    exact Does.mono (Does.htr s _) (by decide)

theorem heaterLatch_does (s : State) : Does [.htr, .evt, .event] s (heaterLatch s) := by
  unfold heaterLatch
  repeat' split
  all_goals first | exact Does.refl _ s | exact heaterWithheld_does s | exact Does.mono (Does.htr s _) (by decide)

theorem heaterPeriod_does (s : State) : Does [.htr, .evt, .event] s (heaterPeriod s) := by
  unfold heaterPeriod
  simp only
  split
  · refine Does.trans (heaterLatch_does s) ?_
    generalize heaterLatch s = u
    exact Does.mono (Does.htr u _) (by decide)
  · exact Does.refl _ s

theorem heaterReading_does (s : State) : Does [.htr, .box, .mon, .evt, .event] s (heaterReading s) := by
  unfold heaterReading
  simp only
  have h : Does [.htr, .box, .mon, .evt, .event] s (heaterPeriod (heaterLaw (heaterHold (heaterCauses (heaterDay (heaterEnergy s)))))) := by
    refine Does.trans ?_ (Does.mono (heaterPeriod_does _) (by decide))
    refine Does.trans ?_ (Does.mono (heaterLaw_does _) (by decide))
    refine Does.trans ?_ (Does.mono (heaterHold_does _) (by decide))
    refine Does.trans ?_ (Does.mono (heaterCauses_does _) (by decide))
    refine Does.trans ?_ (Does.mono (heaterDay_does _) (by decide))
    exact Does.mono (heaterEnergy_does s) (by decide)
  refine Does.trans h ?_
  generalize heaterPeriod _ = u
  exact Does.mono (Does.htr u _) (by decide)

/-! ### Battery -/

theorem pwrFigs_does (s : State) (x : Power) (f : Figures) :
    Does [.pwr, .box, .mon] s { s with pwr := x, mon := { s.mon with figs := f } } :=
  Does.trans (t := { s with pwr := x }) (Does.mono (Does.pwr s x) (by decide))
    (Does.mono (Does.figs { s with pwr := x } { s.mon with figs := f } (by simp [Part.same]) rfl rfl rfl) (by decide))

theorem takeReading_does (r : Reading) (s : State) : Does [.pwr, .box, .mon] s (takeReading r s) := by
  unfold takeReading
  refine Does.trans ?_ (Does.mono (statusChange_does 14 _ _) (by decide))
  exact pwrFigs_does s _ _

theorem emptyLower_does (s : State) : Does [.bat] s (emptyLower s) := Does.bat s _ (by simp [Part.same])

theorem emptySyncDue_does (s : State) : Does [.bat] s (emptySyncDue s) := by
  unfold emptySyncDue
  simp only
  split
  · split
    · exact emptyLower_does s
    · refine Does.trans (emptyLower_does s) ?_
      generalize emptyLower s = u
      exact Does.bat u _ (by simp [Part.same])
  · exact Does.refl _ s

theorem coulombStep_does (s : State) : Does [.bat] s (coulombStep s) := by
  unfold coulombStep
  simp only
  refine Does.trans ?_ (emptySyncDue_does _)
  exact Does.bat s _ (by simp [Part.same])

theorem reportCharge_does (s : State) : Does [.box, .mon] s (reportCharge s) :=
  Does.trans (statusChange_does 11 _ s) (statusChange_does 12 _ _)

theorem enterBulk_does (s : State) : Does [.bat] s (enterBulk s) := Does.bat s _ (by simp [Part.same])

theorem enterFloat_does (s : State) : Does [.bat] s (enterFloat s) := Does.bat s _ (by simp [Part.same])

theorem fullSync_does (s : State) : Does [.bat] s (fullSync s) := by
  unfold fullSync
  simp only
  refine Does.trans (enterFloat_does s) ?_
  generalize enterFloat s = u
  exact Does.bat u _ (by simp [Part.same])

theorem chargeStep_does (v : Nat) (s : State) : Does [.bat, .evt, .event] s (chargeStep v s) := by
  unfold chargeStep
  simp only
  repeat' split
  · refine Does.trans ?_ (Does.mono (flagRecord_does _ _) (by decide))
    exact Does.mono (Does.bat s _ (by simp [Part.same])) (by decide)
  · exact Does.mono (Does.bat s _ (by simp [Part.same])) (by decide)
  · exact Does.mono (Does.bat s _ (by simp [Part.same])) (by decide)

theorem absorbReading_does (s : State) : Does [.bat, .evt, .event] s (absorbReading s) := by
  unfold absorbReading
  have h1 : Does [.bat, .evt, .event] s
      (chargeStep s.vAbsorb { s with bat := { s.bat with absorb := min (s.bat.absorb + 1) 36000 } }) := by
    refine Does.trans ?_ (chargeStep_does _ _)
    exact Does.mono (Does.bat s _ (by simp [Part.same])) (by decide)
  generalize chargeStep s.vAbsorb _ = u at *
  exact Does.ite2 _ _ fullSync enterFloat (Does.trans h1 (Does.mono (Does.bat u _ (by simp [Part.same])) (by decide)))
    (Does.mono (fullSync_does _) (by decide)) (Does.mono (enterFloat_does _) (by decide))

theorem floatReading_does (s : State) : Does [.bat, .evt, .event] s (floatReading s) := by
  unfold floatReading
  have h1 := chargeStep_does s.vFloat s
  generalize chargeStep s.vFloat s = u at *
  exact Does.ite _ enterBulk (Does.trans h1 (Does.mono (Does.bat u _ (by simp [Part.same])) (by decide)))
    (Does.mono (enterBulk_does _) (by decide))

theorem bulkReading_does (s : State) : Does [.bat] s (bulkReading s) := by
  unfold bulkReading
  simp only
  split
  · exact Does.bat s _ (by simp [Part.same])
  · exact Does.bat s _ (by simp [Part.same])

theorem chargeOff_does (c : Charge) (s : State) : Does [.bat] s (chargeOff c s) := by
  unfold chargeOff
  simp only
  split
  · exact Does.bat s _ (by simp [Part.same, Battery.discard])
  · exact Does.bat s _ (by simp [Part.same])

theorem chargeEvaluate_does (s : State) : Does [.bat, .evt, .event] s (chargeEvaluate s) := by
  unfold chargeEvaluate
  repeat' split
  all_goals first
    | exact Does.mono (chargeOff_does _ s) (by decide)
    | exact Does.mono (bulkReading_does s) (by decide)
    | exact absorbReading_does s
    | exact floatReading_does s
    | exact Does.mono (enterBulk_does s) (by decide)

theorem faultCheck_does (s : State) : Does [.bat] s (faultCheck s) := Does.bat s _ (by simp [Part.same])

theorem chargeFault_does (s : State) : Does [.bat] s (chargeFault s) := by
  unfold chargeFault
  simp only
  refine Does.trans (chargeOff_does .fault s) ?_
  generalize chargeOff .fault s = u
  exact Does.bat u _ (by simp [Part.same, Battery.discard])

theorem chargerAutoRestart_does (s : State) : Does [.bat, .evt, .event, .box, .mon] s (chargerAutoRestart s) := by
  unfold chargerAutoRestart
  have h : Does [.bat] s { s with bat := { s.bat with charge := .idle, restarts := s.bat.restarts + 1 } } :=
    Does.bat s _ (by simp [Part.same])
  exact ((h.after (statusChange_does 12 false _) (by decide) (by decide)).after (chargeEvaluate_does _) (fun _ x => x)
    (by decide))

theorem faultReading_does (s : State) : Does [.bat, .evt, .event, .box, .mon] s (faultReading s) := by
  unfold faultReading
  exact Does.ite _ chargerAutoRestart (Does.mono (Does.bat s _ (by simp [Part.same])) (by decide)) (chargerAutoRestart_does _)

theorem chargeHoldReading_does (s : State) : Does [.bat] s (chargeHoldReading s) := by
  unfold chargeHoldReading
  split
  · exact Does.refl _ s
  · exact Does.bat s _ (by simp [Part.same])

theorem chargeReading_does (s : State) : Does [.bat, .evt, .event, .box, .mon] s (chargeReading s) := by
  unfold chargeReading
  simp only
  refine Does.trans ?_ (Does.mono (reportCharge_does _) (by decide))
  have h : Does [.bat, .evt, .event, .box, .mon] s (faultCheck (chargeHoldReading s)) :=
    Does.trans (Does.mono (chargeHoldReading_does s) (by decide)) (Does.mono (faultCheck_does _) (by decide))
  repeat' split
  · exact Does.trans h (Does.mono (faultReading_does _) (by decide))
  · exact Does.trans h (Does.mono (chargeFault_does _) (by decide))
  · exact Does.trans h (Does.mono (chargeEvaluate_does _) (by decide))

/-! ### The fault cause of the latest reading (R147, R155) -/

theorem statusChange_bat (i : CondId) (v : Bool) (s : State) : (statusChange i v s).bat = s.bat :=
  (statusChange_does i v s).frame .bat (by decide)

theorem chargeStep_cause (v : Nat) (s : State) : (chargeStep v s).bat.cause = s.bat.cause := by
  unfold chargeStep flagRecord
  dsimp only
  repeat' split
  all_goals rfl

theorem absorbReading_cause (s : State) : (absorbReading s).bat.cause = s.bat.cause := by
  unfold absorbReading fullSync enterFloat
  have := chargeStep_cause s.vAbsorb { s with bat := { s.bat with absorb := min (s.bat.absorb + 1) 36000 } }
  dsimp only
  repeat' split
  all_goals exact this

theorem floatReading_cause (s : State) : (floatReading s).bat.cause = s.bat.cause := by
  unfold floatReading enterBulk
  have := chargeStep_cause s.vFloat s
  dsimp only
  repeat' split
  all_goals exact this

/-- The evaluation of a reading leaves the fault cause as the fault check put it. -/
theorem chargeEvaluate_cause (s : State) : (chargeEvaluate s).bat.cause = s.bat.cause := by
  have off (c : Charge) : (chargeOff c s).bat.cause = s.bat.cause := by
    unfold chargeOff
    dsimp only
    split <;> rfl
  have bulk : (bulkReading s).bat.cause = s.bat.cause := by
    unfold bulkReading
    dsimp only
    split <;> rfl
  unfold chargeEvaluate
  repeat' split
  · exact off _
  · exact off _
  · exact off _
  · exact bulk
  · exact absorbReading_cause s
  · exact floatReading_cause s
  · rfl

/-- After a reading the fault cause is that of its fault check (R147). -/
theorem chargeReading_cause (s : State) : (chargeReading s).bat.cause = (faultCheck (chargeHoldReading s)).bat.cause := by
  have fault (s : State) : (faultReading s).bat.cause = s.bat.cause := by
    have restart (s : State) : (chargerAutoRestart s).bat.cause = s.bat.cause := by
      unfold chargerAutoRestart
      rw [chargeEvaluate_cause, statusChange_bat]
    have clear (b : Bool) (t : State) (h : t.bat.cause = s.bat.cause) :
        (if b = true then chargerAutoRestart t else t).bat.cause = s.bat.cause := by
      split
      · rw [restart, h]
      · exact h
    exact clear _ _ rfl
  have enter (s : State) : (chargeFault s).bat.cause = s.bat.cause := by
    unfold chargeFault chargeOff
    dsimp only
    split <;> rfl
  unfold chargeReading reportCharge
  dsimp only
  rw [statusChange_bat, statusChange_bat]
  repeat' split
  · exact fault _
  · exact enter _
  · exact chargeEvaluate_cause _

theorem chargeHoldStart_does (s : State) : Does [.bat] s (chargeHoldStart s) := by
  unfold chargeHoldStart
  split
  · exact Does.bat s _ (by simp [Part.same])
  · exact Does.refl _ s

theorem chargeHoldEnd_does (s : State) : Does [.bat] s (chargeHoldEnd s) := Does.bat s _ (by simp [Part.same])

theorem chargeTempTest_does (s : State) : Does [.bat, .box, .mon] s (chargeTempTest s) := by
  unfold chargeTempTest
  repeat' split
  · refine Does.trans ?_ (Does.mono (reportCharge_does _) (by decide))
    exact Does.mono (chargeOff_does _ s) (by decide)
  · refine Does.trans ?_ (Does.mono (reportCharge_does _) (by decide))
    exact Does.mono (chargeOff_does _ s) (by decide)
  · exact Does.refl _ s
  · exact Does.refl _ s

theorem clampCharge_does (s : State) : Does [.bat] s (clampCharge s) := Does.bat s _ (by simp [Part.same])

theorem classStep_does (s : State) : Does [.bat, .power] s (classStep s) := Does.batAll s _

theorem reportClass_does (s : State) : Does [.box, .mon] s (reportClass s) :=
  Does.trans (statusChange_does 9 _ s) (statusChange_does 10 _ _)

theorem chgPeriodStart_does (s : State) : Does [.bat] s (chgPeriodStart s) := Does.bat s _ (by simp [Part.same])

end Sys2Proof.Laws
end

