-- ==== Sys2Proof/Laws/Time.lean ====
section
/-! SUPPORT. What the passing of cycles and the operations of Clock and Marks can do. -/
namespace Sys2Proof.Laws

open Sys2Proof Sys2Proof.Machine

/-! ### Oscillator cycles -/

theorem elapse_does (n : Nat) (s : State) : Does [.clk, .time, .osc, .moment] s (elapse n s) := by
  unfold elapse
  simp only
  split
  · exact Does.refl _ s
  · exact ⟨fun p hp => by cases p <;> first | rfl | (simp [Part.same]; done) | exact absurd (by simp) hp,
      id, id, id, id, id, id⟩

/-- R2: counting never goes back. -/
theorem advance_ge (up : Bool) (l : List Nat) : ∀ t n : Nat, t ≤ (Clock.advance up t l n).1 := by
  induction l with
  | nil => intro t n; exact Nat.le_add_right t n
  | cons p r ih =>
    intro t n
    unfold Clock.advance
    repeat' split
    · exact ih t n
    · exact Nat.le_add_right t n
    · exact Nat.le_trans (by omega) (ih (p + 2) _)
    · exact Nat.le_trans (by omega) (ih p _)

/-- R1, R2: the count of ticks goes with the tick. -/
theorem elapse_ticks (n : Nat) (s : State) : (elapse n s).clk.ticks + s.clk.t = s.clk.ticks + (elapse n s).clk.t := by
  unfold elapse
  simp only
  split
  · rfl
  · have := advance_ge s.clk.corrUp s.clk.corr s.clk.t (min n (s.clk.cyclesLeft - 1))
    show s.clk.ticks + ((Clock.advance _ _ _ _).1 - s.clk.t) + s.clk.t = s.clk.ticks + (Clock.advance _ _ _ _).1
    omega

theorem reach_does {d : Nat} {s t : State} (h : reach d s = some t) : Does [.clk, .time, .osc, .moment] s t := by
  unfold reach at h
  repeat' split at h
  · exact Option.some.inj h ▸ Does.refl _ s
  · exact Option.some.inj h ▸ elapse_does _ s
  · cases h

theorem reachTime_does {x : Time} {s t : State} (h : reachTime x s = some t) : Does [.clk, .time, .osc, .moment] s t := by
  unfold reachTime at h
  simp only at h
  repeat' split at h
  · exact Option.some.inj h ▸ Does.refl _ s
  · cases h
  · exact Option.some.inj h ▸ elapse_does _ s

theorem atCycle_does {L : List Part} (d : Nat) (f : State → State) (s : State) (h : ∀ t, Does L t (f t))
    (hL : ∀ p ∈ [Part.clk, Part.time, Part.osc, Part.moment], p ∈ L) : Does L s (atCycle d f s) := by
  unfold atCycle
  split
  · exact Does.refl _ s
  · rename_i t ht
    exact Does.trans (Does.mono (reach_does ht) hL) (h t)

/-- Cycle d is reached where it lies within the present second. -/
theorem reach_some (d : Nat) (s : State) (h : d ≤ s.osc ∨ d - s.osc < s.clk.cyclesLeft) : (reach d s).isSome := by
  unfold reach
  split
  · rfl
  · split
    · rfl
    · omega

/-! ### Rates (R3) -/

theorem clampRate_bounds (x : Int) : -2000 ≤ clampRate x ∧ clampRate x ≤ 2000 := by
  unfold clampRate clampI
  omega

/-- A change of the clock that leaves both rates and the accumulator. -/
theorem Does.clkSame (s : State) (x : Clock) (ht : Part.time.same s { s with clk := x })
    (hs : Part.supplyView.same s { s with clk := x }) (hc : x.c = s.clk.c) (hr : x.r = s.clk.r) :
    Does [.clk] s { s with clk := x } :=
  Does.clk s x ht hs fun h => by
    obtain ⟨_, _, ha, _⟩ := ht
    have ha : x.acc = s.clk.acc := ha
    show -2000 ≤ x.c ∧ x.c ≤ 2000 ∧ -2000 ≤ x.r ∧ x.r ≤ 2000 ∧ -99 ≤ x.acc ∧ x.acc ≤ 99
    rw [hc, hr, ha]
    exact h

/-- A change of the clock that puts both rates within their range. -/
theorem Does.clkRates (s : State) (x : Clock) (ht : Part.time.same s { s with clk := x })
    (hs : Part.supplyView.same s { s with clk := x })
    (hc : s.ratesBounded → -2000 ≤ x.c ∧ x.c ≤ 2000) (hr : s.ratesBounded → -2000 ≤ x.r ∧ x.r ≤ 2000) :
    Does [.clk] s { s with clk := x } :=
  Does.clk s x ht hs fun h => by
    obtain ⟨_, _, ha, _⟩ := ht
    have ha : x.acc = s.clk.acc := ha
    have hb : -99 ≤ s.clk.acc ∧ s.clk.acc ≤ 99 := ⟨h.2.2.2.2.1, h.2.2.2.2.2⟩
    show -2000 ≤ x.c ∧ x.c ≤ 2000 ∧ -2000 ≤ x.r ∧ x.r ≤ 2000 ∧ -99 ≤ x.acc ∧ x.acc ≤ 99
    rw [ha]
    exact ⟨(hc h).1, (hc h).2, (hr h).1, (hr h).2, hb.1, hb.2⟩

/-! ### Clock -/

theorem reportClock_does (s : State) : Does [.box, .mon] s (reportClock s) :=
  Does.trans (Does.trans (statusChange_does 0 _ s) (statusChange_does 1 _ _)) (statusChange_does 2 _ _)

theorem changeTime_does (x : Time) (s : State) : Does [.clk, .time, .sch, .strobes, .moment, .box] s (changeTime x s) := by
  unfold changeTime
  refine Does.trans ?_ (Does.mono (passNotBefores_does _) (by decide))
  refine ⟨fun p hp => by cases p <;> first | rfl | (simp [Part.same]; done) | exact absurd (by simp) hp,
    fun h => ⟨h.1, ?_, h.2.2.1, h.2.2.2⟩, id, id, id, id, id⟩
  show (if _ then _ else s.sch : Scheduler).cals.length ≤ 4
  split <;> exact h.2.1

theorem deferStep_does (s : State) : Does [.clk, .evt, .event] s (deferStep s) := by
  unfold deferStep
  refine Does.trans ?_ (Does.mono (flagRecord_does _ _) (by decide))
  exact Does.mono (Does.clkSame s _ (by simp [Part.same]) (by simp [Part.same]) rfl rfl) (by decide)

theorem countStep_does (s : State) : Does [.clk] s (countStep s) :=
  Does.clkSame s _ (by simp [Part.same]) (by simp [Part.same]) rfl rfl

theorem enterHoldover_does (x : HoldReason) (s : State) : Does [.clk] s (enterHoldover x s) :=
  Does.clkRates s _ (by simp [Part.same]) (by simp [Part.same]) (fun _ => clampRate_bounds _) fun h => ⟨h.2.2.1, h.2.2.2.1⟩

theorem holdoverCause_does (x : HoldReason) (s : State) : Does [.clk] s (holdoverCause x s) := by
  unfold holdoverCause
  repeat' split
  · exact Does.refl _ s
  · exact Does.clkSame s _ (by simp [Part.same]) (by simp [Part.same]) rfl rfl
  · exact Does.refl _ s
  · exact enterHoldover_does x s

theorem enterAcquire_does (s : State) : Does [.clk] s (enterAcquire s) :=
  Does.clkSame s _ (by simp [Part.same]) (by simp [Part.same]) rfl rfl

theorem leaveHoldover_does (s : State) : Does [.clk] s (leaveHoldover s) := by
  unfold leaveHoldover
  refine Does.trans (enterAcquire_does s) ?_
  generalize enterAcquire s = u
  exact Does.clkSame u _ (by simp [Part.same]) (by simp [Part.same]) rfl rfl

theorem supplyOff_does (x : Supply) (s : State) : Does [.clk, .supplyView] s (supplyOff x s) :=
  Does.clkSupply s _ (by simp [Part.same]) id

theorem supplyOn_does (x : Supply) (s : State) : Does [.clk, .supplyView] s (supplyOn x s) :=
  Does.clkSupply s _ (by simp [Part.same]) id

theorem sessionStart_does (s : State) : Does [.clk, .supplyView] s (sessionStart s) := by
  unfold sessionStart
  refine Does.trans (supplyOn_does .session s) ?_
  generalize supplyOn .session s = u
  exact Does.clkSupply u _ (by simp [Part.same]) id

theorem supplyRest_does (s : State) : Does [.clk, .supplyView] s (supplyRest s) := by
  unfold supplyRest
  have h : Does [.clk, .supplyView] s (holdoverCause .gnssOff (supplyOff .resting s)) :=
    Does.trans (supplyOff_does .resting s) (Does.mono (holdoverCause_does _ _) (by decide))
  refine Does.trans h ?_
  generalize holdoverCause .gnssOff (supplyOff .resting s) = u
  exact Does.clkSupply u _ (by simp [Part.same]) id

theorem clockFollow_does (s : State) : Does [.clk, .supplyView, .box, .mon] s (clockFollow s) := by
  unfold clockFollow
  refine Does.trans ?_ (Does.mono (reportClock_does _) (by decide))
  repeat' split
  all_goals first
    | exact Does.refl _ s
    | exact Does.mono (supplyRest_does s) (by decide)
    | exact Does.mono (sessionStart_does s) (by decide)
    | exact Does.mono (supplyOn_does _ s) (by decide)
    | exact Does.trans (Does.mono (supplyOff_does _ s) (by decide)) (Does.mono (holdoverCause_does _ _) (by decide))

theorem compensate_does (s : State) : Does [.clk] s (compensate s) := by
  unfold compensate
  split
  · exact Does.clkRates s _ (by simp [Part.same]) (by simp [Part.same]) (fun _ => clampRate_bounds _) fun h => ⟨h.2.2.1, h.2.2.2.1⟩
  · exact Does.refl _ s

theorem tdiv_rest (a : Int) : -99 ≤ a - Int.tdiv a 100 * 100 ∧ a - Int.tdiv a 100 * 100 ≤ 99 := by
  have h := Int.tmod_def a 100
  have h1 : a - Int.tdiv a 100 * 100 = Int.tmod a 100 := by rw [h]; omega
  rw [h1]
  have h2 := Int.tmod_lt_of_pos a (b := 100) (by decide)
  have h3 := Int.lt_tmod_of_pos a (b := 100) (by decide)
  omega

theorem rollSecond_does (s : State) : Does [.clk, .time, .osc, .moment] s (rollSecond s) := by
  refine ⟨fun p hp => by cases p <;> first | rfl | (simp [Part.same, rollSecond]; done) | exact absurd (by simp) hp,
    id, fun h => ⟨h.1, h.2.1, h.2.2.1, h.2.2.2.1, ?_, ?_⟩, id, id, id, id⟩
  · exact (tdiv_rest _).1
  · exact (tdiv_rest _).2

theorem growUncertainty_does (s : State) : Does [.clk] s (growUncertainty s) := by
  unfold growUncertainty
  split
  · exact Does.clkSame s _ (by simp [Part.same]) (by simp [Part.same]) rfl rfl
  · exact Does.refl _ s

theorem tickWatch_does (s : State) : Does [.clk] s (tickWatch s) := by
  unfold tickWatch
  have h : Does [.clk] s (if (s.clk.disc == .acquire || s.clk.disc == .track) && s.clk.supply.on then
      { s with clk := { s.clk with watch := s.clk.watch + 1 } } else s) := by
    split
    · exact Does.clkSame s _ (by simp [Part.same]) (by simp [Part.same]) rfl rfl
    · exact Does.refl _ s
  exact Does.ite _ (enterHoldover .ppsLoss) h (enterHoldover_does _ _)

theorem tickSupply_does (s : State) : Does [.clk, .supplyView, .moment] s (tickSupply s) := by
  unfold tickSupply
  split
  · have h : Does [.clk, .supplyView, .moment] s { s with clk := { s.clk with rest := s.clk.rest + 1 } } :=
      Does.mono (Does.clkSame s _ (by simp [Part.same]) (by simp [Part.same]) rfl rfl) (by decide)
    generalize ({ s with clk := { s.clk with rest := s.clk.rest + 1 } } : State) = u at *
    simp only
    split
    · exact h.trans (Does.after (Does.moment u { u.moment with restDue := true }) (sessionStart_does _) (by decide) (by decide))
    · exact h
  · exact Does.ite _ supplyRest
      (Does.mono (Does.clkSame s _ (by simp [Part.same]) (by simp [Part.same]) rfl rfl) (by decide))
      (Does.mono (supplyRest_does _) (by decide))
  · exact Does.refl _ s

theorem clockBoundary_does (s : State) : Does [.clk, .time, .supplyView, .osc, .moment, .box, .mon] s (clockBoundary s) := by
  unfold clockBoundary
  refine Does.trans ?_ (Does.mono (reportClock_does _) (by decide))
  refine Does.trans ?_ (Does.mono (tickSupply_does _) (by decide))
  refine Does.trans ?_ (Does.mono (reportClock_does _) (by decide))
  refine Does.trans ?_ (Does.mono (tickWatch_does _) (by decide))
  refine Does.trans ?_ (Does.mono (reportClock_does _) (by decide))
  refine Does.trans ?_ (Does.mono (growUncertainty_does _) (by decide))
  refine Does.trans ?_ (Does.mono (rollSecond_does _) (by decide))
  exact Does.mono (compensate_does s) (by decide)

/-- The parts a capture can change: a step moves time and the strobe points, a deferral flags the record. -/
abbrev captureParts : List Part :=
  [.clk, .time, .supplyView, .sch, .strobes, .moment, .box, .evt, .event, .mrk, .mon]

theorem clkSame_capture (s : State) (x : Clock) (ht : Part.time.same s { s with clk := x })
    (hs : Part.supplyView.same s { s with clk := x }) (hc : x.c = s.clk.c) (hr : x.r = s.clk.r) :
    Does captureParts s { s with clk := x } := Does.mono (Does.clkSame s x ht hs hc hr) (by decide)

theorem loopLaw_does (e : Int) (s : State) : Does captureParts s (loopLaw e s) :=
  Does.mono (Does.clkRates s _ (by simp [Part.same]) (by simp [Part.same]) (fun _ => clampRate_bounds _)
    (fun _ => clampRate_bounds _)) (by decide)

theorem stepTo_does (x : Time) (s : State) : Does captureParts s (countStep (changeTime x s)) :=
  Does.trans (Does.mono (changeTime_does x s) (by decide)) (Does.mono (countStep_does _) (by decide))

theorem secondsCorrection_does (off : Int) (u : State) : Does captureParts u (secondsCorrection off u) := by
  refine Does.trans (Does.mono (Does.moment u { u.moment with capture := false }) (by decide)) ?_
  unfold secondsCorrection
  generalize ({ u with moment := { u.moment with capture := false } } : State) = s
  simp only
  split
  · exact Does.mono (deferStep_does s) (by decide)
  · refine Does.trans (stepTo_does ⟨((s.clk.s + off) % 4294967296).toNat, s.clk.t⟩ s) ?_
    generalize countStep (changeTime _ s) = u
    exact clkSame_capture u _ (by simp [Part.same]) (by simp [Part.same]) rfl rfl

theorem secondsCheck_does (secs edge : Nat) (u : State) : Does captureParts u (secondsCheck secs edge u) := by
  refine Does.trans (Does.mono (Does.moment u { u.moment with capture := true }) (by decide)) ?_
  unfold secondsCheck
  generalize ({ u with moment := { u.moment with capture := true } } : State) = s
  simp only
  split
  · exact clkSame_capture s _ (by simp [Part.same]) (by simp [Part.same]) rfl rfl
  · have h : Does captureParts s (if s.clk.offset = some (signed32 (secs - edge)) then
        { s with clk := { s.clk with mismatch := min (s.clk.mismatch + 1) 3 } }
      else { s with clk := { s.clk with mismatch := 1, offset := some (signed32 (secs - edge)) } }) := by
      split
      · exact clkSame_capture s _ (by simp [Part.same]) (by simp [Part.same]) rfl rfl
      · exact clkSame_capture s _ (by simp [Part.same]) (by simp [Part.same]) rfl rfl
    generalize (if s.clk.offset = some (signed32 (secs - edge)) then
        { s with clk := { s.clk with mismatch := min (s.clk.mismatch + 1) 3 } }
      else { s with clk := { s.clk with mismatch := 1, offset := some (signed32 (secs - edge)) } } : State) = u at *
    exact Does.ite _ (secondsCorrection _) h (secondsCorrection_does _ u)

theorem secondsCheckIf_does (l : Option Nat) (edge : Nat) (s : State) : Does captureParts s (secondsCheckIf l edge s) := by
  unfold secondsCheckIf
  split
  · exact Does.refl _ s
  · exact secondsCheck_does _ _ s

theorem signOf_bounds (x : Int) : -1 ≤ signOf x ∧ signOf x ≤ 1 := by
  unfold signOf
  split
  · omega
  · split <;> omega

theorem phaseStep_does (e : Int) (s : State) : Does captureParts s (phaseStep e s) := by
  unfold phaseStep
  have h : Does captureParts s (if s.stepForbidden then
      deferStep { s with clk := { s.clk with c := -2000 * signOf e } }
    else
      let s2 := countStep (changeTime (s.now.addTicks (-e)) s)
      { s2 with clk := { s2.clk with c := s2.clk.r } }) := by
    split
    · refine Does.trans ?_ (Does.mono (deferStep_does _) (by decide))
      refine Does.mono (Does.clkRates s _ (by simp [Part.same]) (by simp [Part.same]) (fun _ => ?_)
        fun h => ⟨h.2.2.1, h.2.2.2.1⟩) (by decide)
      have := signOf_bounds e
      show -2000 ≤ -2000 * signOf e ∧ -2000 * signOf e ≤ 2000
      omega
    · refine Does.trans (stepTo_does (s.now.addTicks (-e)) s) ?_
      generalize countStep (changeTime _ s) = u
      exact Does.mono (Does.clkRates u _ (by simp [Part.same]) (by simp [Part.same]) (fun h => ⟨h.2.2.1, h.2.2.2.1⟩)
        fun h => ⟨h.2.2.1, h.2.2.2.1⟩) (by decide)
  refine Does.trans h ?_
  generalize (if s.stepForbidden then _ else _ : State) = u
  exact clkSame_capture u _ (by simp [Part.same]) (by simp [Part.same]) rfl rfl

theorem setUncertainty_does (e : Int) (s : State) : Does captureParts s (setUncertainty e s) :=
  clkSame_capture s _ (by simp [Part.same]) (by simp [Part.same]) rfl rfl

theorem enterTrack_does (s : State) : Does captureParts s (enterTrack s) :=
  clkSame_capture s _ (by simp [Part.same]) (by simp [Part.same]) rfl rfl

theorem unlockTrack_does (s : State) : Does captureParts s (unlockTrack s) := by
  unfold unlockTrack
  refine Does.trans (Does.mono (enterAcquire_does s) (by decide)) ?_
  generalize enterAcquire s = u
  exact clkSame_capture u _ (by simp [Part.same]) (by simp [Part.same]) rfl rfl

theorem settleFlag_does (b : Bool) (s : State) : Does captureParts s (settleFlag b s) := by
  unfold settleFlag
  split
  · exact Does.refl _ s
  · exact clkSame_capture s _ (by simp [Part.same]) (by simp [Part.same]) rfl rfl

theorem acquireWork_does (e : Int) (s : State) : Does captureParts s (acquireWork e s) := by
  unfold acquireWork
  have h : Does captureParts s (if s.stepNeeded e then phaseStep e s
    else
      let s2 := loopLaw e s
      { s2 with clk := { s2.clk with lock := if e.natAbs ≤ s.lockWindow then min (s2.clk.lock + 1) 8 else 0 } }) := by
    split
    · exact phaseStep_does e s
    · refine Does.trans (loopLaw_does e s) ?_
      generalize loopLaw e s = u
      exact clkSame_capture u _ (by simp [Part.same]) (by simp [Part.same]) rfl rfl
  simp only at h ⊢
  generalize (if s.stepNeeded e = true then _ else _ : State) = u at *
  refine Does.trans ?_ (settleFlag_does _ _)
  exact Does.ite _ enterTrack (Does.trans h (setUncertainty_does e u)) (enterTrack_does _)

theorem acquireCapture_does (e : Int) (edge : Nat) (l : Option Nat) (s : State) :
    Does captureParts s (acquireCapture e edge l s) :=
  Does.trans (secondsCheckIf_does l edge s) (acquireWork_does e _)

theorem trackCapture_does (e : Int) (edge : Nat) (l : Option Nat) (s : State) :
    Does captureParts s (trackCapture e edge l s) := by
  unfold trackCapture
  simp only
  refine Does.trans (secondsCheckIf_does l edge s) ?_
  generalize secondsCheckIf l edge s = u
  split
  · refine Does.trans ?_ (settleFlag_does _ _)
    refine Does.trans ?_ (setUncertainty_does _ _)
    refine Does.trans ?_ (phaseStep_does _ _)
    exact Does.mono (enterAcquire_does u) (by decide)
  · refine Does.trans ?_ (settleFlag_does _ _)
    refine Does.trans ?_ (setUncertainty_does _ _)
    refine Does.trans (loopLaw_does e u) ?_
    generalize loopLaw e u = v
    exact Does.ite _ unlockTrack (clkSame_capture v _ (by simp [Part.same]) (by simp [Part.same]) rfl rfl) (unlockTrack_does _)

theorem settingCapture_does (secs since : Nat) (s : State) : Does captureParts s (settingCapture secs since s) := by
  unfold settingCapture
  split
  · exact Does.mono (deferStep_does s) (by decide)
  · simp only
    refine Does.trans (stepTo_does (Time.addTicks ⟨secs, 0⟩ (s.clk.ticks - since : Nat)) s) ?_
    generalize countStep (changeTime _ s) = u
    have h : Does captureParts u
        (reportClock (enterAcquire { u with clk := { u.clk with unlock := 0, mismatch := 0, stepDeferred := false } })) := by
      refine Does.trans ?_ (Does.mono (reportClock_does _) (by decide))
      refine Does.trans ?_ (Does.mono (enterAcquire_does _) (by decide))
      exact clkSame_capture u _ (by simp [Part.same]) (by simp [Part.same]) rfl rfl
    refine Does.trans h ?_
    generalize reportClock _ = v
    refine Does.trans ?_ (setUncertainty_does _ _)
    refine Does.trans ?_ (loopLaw_does _ _)
    exact clkSame_capture v _ (by simp [Part.same]) (by simp [Part.same]) rfl rfl

theorem acceptedCapture_does (x : Time) (since : Nat) (l : Option Nat) (s : State) :
    Does captureParts s (acceptedCapture x since l s) := by
  unfold acceptedCapture
  simp only
  have h : Does captureParts s { s with clk := { s.clk with watch := 0 } } :=
    clkSame_capture s _ (by simp [Part.same]) (by simp [Part.same]) rfl rfl
  repeat' split
  · exact settleFlag_does _ s
  · exact settingCapture_does _ _ s
  · exact Does.trans h (acquireCapture_does _ _ _ _)
  · exact Does.trans h (trackCapture_does _ _ _ _)
  · refine Does.trans ?_ (acquireCapture_does _ _ _ _)
    exact Does.after (leaveHoldover_does s) (reportClock_does _) (by decide) (by decide)

theorem labelledCapture_does (x : Time) (since : Nat) (s : State) : Does captureParts s (labelledCapture x since s) := by
  unfold labelledCapture
  simp only
  have h : Does captureParts s { s with clk := { s.clk with label := none } } :=
    Does.mono (Does.clkSupply s _ (by simp [Part.same]) id) (by decide)
  repeat' split
  · exact Does.trans h (acceptedCapture_does _ _ _ _)
  · exact Does.trans h (acceptedCapture_does _ _ _ _)
  · exact Does.mono (Does.clkSupply s _ (by simp [Part.same]) id) (by decide)

theorem ppsCapture_does (x : Time) (since : Nat) (s : State) : Does captureParts s (ppsCapture x since s) := by
  unfold ppsCapture
  repeat' split
  · exact Does.mono (Does.mrk s _ id) (by decide)
  · refine Does.trans (Does.mono (Does.moment s { s.moment with capture := false }) (by decide)) ?_
    exact Does.after (labelledCapture_does x since _) (reportClock_does _) (fun _ h => h) (by decide)
  · exact Does.refl _ s

/-- What TIME_SET makes of the clock, the strobe points, the not-befores and the conditions. -/
abbrev setTimeParts : List Part := [.clk, .time, .sch, .strobes, .moment, .box, .mon]

theorem setTime_does (x : Time) (micros since : Nat) (s : State) : Does setTimeParts s (setTime x micros since s) := by
  unfold setTime
  refine Does.trans ?_ (Does.mono (reportClock_does _) (by decide))
  simp only
  have g : Does setTimeParts s (countStep (changeTime (x.addTicks (s.clk.ticks - since : Nat)) s)) :=
    Does.after (changeTime_does _ s) (countStep_does _) (by decide) (by decide)
  refine Does.trans g ?_
  generalize countStep (changeTime _ s) = u
  have h : Does setTimeParts u { u with clk := { u.clk with u := min (micros * 1000) 4294967295 } } :=
    Does.mono (Does.clkSame u _ (by simp [Part.same]) (by simp [Part.same]) rfl rfl) (by decide)
  refine Does.trans h ?_
  generalize ({ u with clk := { u.clk with u := min (micros * 1000) 4294967295 } } : State) = w
  refine Does.trans (Does.mono (reportClock_does w) (by decide)) ?_
  generalize reportClock w = v
  split
  · exact Does.mono (enterHoldover_does _ _) (by decide)
  · exact Does.mono (Does.clkSame v _ (by simp [Part.same]) (by simp [Part.same]) rfl rfl) (by decide)

theorem takeLabel_does (l : List Byte) (s : State) : Does [.clk, .supplyView] s (takeLabel l s) := by
  unfold takeLabel
  simp only
  split
  · exact Does.clkSupply s _ (by simp [Part.same]) id
  · exact Does.clkSupply s _ (by simp [Part.same]) id

theorem abandonLabel_does (s : State) : Does [.clk] s (abandonLabel s) :=
  Does.clkSame s _ (by simp [Part.same]) (by simp [Part.same]) rfl rfl

theorem gnssByte_does (b : Byte) (s : State) : Does [.clk, .supplyView] s (gnssByte b s) := by
  unfold gnssByte
  simp only
  repeat' split
  all_goals first
    | exact Does.clkSupply s _ (by simp [Part.same]) id
    | (refine Does.trans ?_ (takeLabel_does _ _); exact Does.clkSupply s _ (by simp [Part.same]) id)

theorem gnssBytes_does (l : List Byte) (s : State) : Does [.clk, .supplyView] s (l.foldl (fun s b => gnssByte b s) s) :=
  Does.fold (fun s b => gnssByte b s) (fun s b => gnssByte_does b s) l s

/-! ### Marks -/

theorem setInput_does (i : Input) (x : MarkInput) (s : State) : Does [.mrk] s (setInput i x s) := by
  unfold setInput
  split <;> exact Does.mrk s _ id

theorem enter_length (m : Capture) (x : Mark) (h : m.marks.length ≤ 16) : (m.enter x).marks.length ≤ 16 := by
  unfold Capture.enter
  split
  · rename_i h1
    show (m.marks ++ [x]).length ≤ 16
    simp; omega
  · show (m.marks.drop 1 ++ [x]).length ≤ 16
    simp; omega

theorem markACapture_does (x : Stamp) (s : State) : Does captureParts s (markACapture x s) :=
  Does.mono (Does.mrk s _ fun h => enter_length s.mrk _ h) (by decide)

theorem markBCapture_does (x : Stamp) (s : State) : Does captureParts s (markBCapture x s) :=
  Does.mono (Does.mrk s _ fun h => enter_length s.mrk _ h) (by decide)

theorem handCapture_does (i : Input) (x : EdgeTest) (s : State) : Does captureParts s (handCapture i x s) := by
  unfold handCapture
  split
  · exact ppsCapture_does _ _ s
  · exact markACapture_does _ s
  · exact markBCapture_does _ s

theorem prescaleEdge_does (i : Input) (x : EdgeTest) (s : State) : Does captureParts s (prescaleEdge i x s) := by
  unfold prescaleEdge
  simp only
  split
  · exact Does.trans (Does.mono (setInput_does _ _ s) (by decide)) (handCapture_does _ _ _)
  · exact Does.mono (setInput_does _ _ s) (by decide)

theorem qualify_does (i : Input) (x : EdgeTest) (s : State) : Does captureParts s (qualify i x s) := by
  unfold qualify
  simp only
  refine Does.trans (Does.mono (setInput_does i { s.mrk.input i with edge := none } s) (by decide)) ?_
  generalize setInput i _ s = u
  repeat' split
  · exact Does.mono (Does.mrk u _ id) (by decide)
  · refine Does.trans ?_ (prescaleEdge_does _ _ _)
    exact Does.mono (Does.mrk u _ id) (by decide)
  · exact prescaleEdge_does _ _ u

theorem clearInput_does (i : Input) (s : State) : Does [.mrk] s (clearInput i s) := setInput_does i _ s

theorem seeEdge_does (i : Input) (s : State) : Does captureParts s (seeEdge i s) := by
  unfold seeEdge
  simp only
  refine Does.trans (Does.mono (setInput_does i { s.mrk.input i with high := s.selectedLevel i } s) (by decide)) ?_
  generalize setInput i _ s = u
  repeat' split
  · exact Does.refl _ u
  · exact qualify_does _ _ u
  · exact Does.mono (setInput_does _ _ u) (by decide)

theorem endLevel_does (i : Input) (s : State) : Does captureParts s (endLevel i s) := by
  unfold endLevel
  simp only
  refine Does.trans (Does.mono (setInput_does i { s.mrk.input i with high := !s.selectedLevel i } s) (by decide)) ?_
  generalize setInput i _ s = u
  split
  · exact Does.refl _ u
  · split
    · exact qualify_does _ _ u
    · refine Does.trans (Does.mono (setInput_does i { u.mrk.input i with edge := none } u) (by decide)) ?_
      generalize setInput i _ u = v
      split
      · exact Does.mono (Does.mrk v _ id) (by decide)
      · exact Does.refl _ v

end Sys2Proof.Laws
end

