-- ==== Sys2Proof/Laws/Vote.lean ====
section
/-! SUPPORT. What the operations of Events can do: closing and filing a record, the vote, the gathering of reports; what a vote
makes of the counting marks, the peaks and the trigger list. -/
namespace Sys2Proof.Laws

open Sys2Proof Sys2Proof.Machine

/-- What the end of an event, and so a vote, can change. -/
abbrev voteParts : List Part := [.box, .mon, .evt, .event, .htr, .bat, .sch, .moment]

/-- What the close of a record can change. -/
abbrev closeParts : List Part := [.box, .mon, .evt, .event, .htr, .bat, .sch]

theorem startSettle_does (s : State) : Does [.sch] s (startSettle s) := Does.sch s _ (by simp [Part.same]) id

theorem eventWakeEval_term (s : State) : (eventWakeEval s).termFollows := rfl

/-- Any change of the engine's state with the event-wake term evaluated after it. -/
theorem putEvents_does (s : State) (x : Events) (h : s.evt.list.length ≤ 32 → x.list.length ≤ 32) :
    Does [.evt, .event, .mon] s (eventWakeEval { s with evt := x }) :=
  ⟨fun p hp => by cases p <;> first | rfl | (simp [Part.same, eventWakeEval, wakeEval]; done) | exact absurd (by simp) hp,
    fun k => ⟨k.1, k.2.1, k.2.2.1, h k.2.2.2⟩, id, fun _ => rfl, id, fun _ => rfl, id⟩

theorem eventWakeEval_does (s : State) : Does [.evt, .event, .mon] s (eventWakeEval s) := putEvents_does s s.evt id

theorem putEvt_frame (s : State) (x : Events) : OnlyIn [.evt, .event, .box, .mon] s { s with evt := x } :=
  fun p hp => by cases p <;> first | rfl | (simp [Part.same]; done) | exact absurd (by simp) hp

theorem fileRecord_does (r : EvRecord) (s : State) : Does [.evt, .event, .box, .mon] s (fileRecord r s) := by
  unfold fileRecord
  split
  · rename_i h
    exact Does.mono (putEvents_does s _ fun _ => by simp; omega) (by decide)
  · rename_i h
    have k := lostOccurrence_does { s with evt := { s.evt with list := s.evt.list.drop 1, lost := inc16 s.evt.lost } }
    have f := putEvt_frame s { s.evt with list := s.evt.list.drop 1, lost := inc16 s.evt.lost }
    have hl : (lostOccurrence { s with evt := { s.evt with list := s.evt.list.drop 1, lost := inc16 s.evt.lost } }).evt.list
        = s.evt.list.drop 1 := by rw [show _ = _ from k.frame .evt (by decide)]
    generalize lostOccurrence _ = u at *
    have m := putEvents_does u { u.evt with list := u.evt.list ++ [r] }
    refine ⟨fun p hp => ?_, fun a => ?_, fun a => k.rates a, fun _ => rfl, fun a => k.degraded a, fun _ => rfl, fun a => k.rings a⟩
    · have g : OnlyIn [.evt, .event, .mon] u (eventWakeEval { u with evt := { u.evt with list := u.evt.list ++ [r] } }) :=
        fun p hp => by cases p <;> first | rfl | (simp [Part.same, eventWakeEval, wakeEval]; done) | exact absurd (by simp) hp
      refine same_trans (f p hp) (same_trans (k.frame p fun hk => hp ?_) (g p fun hk => hp ?_))
      · revert hk; cases p <;> simp
      · revert hk; cases p <;> simp
    · have b : u.listsFit := k.lists ⟨a.1, a.2.1, a.2.2.1, by
        show (s.evt.list.drop 1).length ≤ 32
        have := a.2.2.2
        simp; omega⟩
      refine ⟨b.1, b.2.1, b.2.2.1, ?_⟩
      show (u.evt.list ++ [r]).length ≤ 32
      have := a.2.2.2
      rw [hl]; simp; omega

theorem signalClose_does (r : EvRecord) (s : State) : Does closeParts s (signalClose r s) := by
  unfold signalClose
  refine Does.trans ?_ (Does.mono (chargeHoldEnd_does _) (by decide))
  refine Does.trans ?_ (Does.mono (heaterHoldEnd_does _) (by decide))
  refine Does.trans ?_ (Does.mono (startSettle_does _) (by decide))
  exact Does.mono (closeAlert_does r s) (by decide)

theorem closeRecord_does (f : EvFlags → EvFlags) (k : Nat) (x : Stamp) (after : EvState) (s : State) :
    Does closeParts s (closeRecord f k x after s) := by
  unfold closeRecord
  split
  · exact Does.mono (Does.event s _ rfl rfl) (by decide)
  · refine Does.trans ?_ (signalClose_does _ _)
    refine Does.trans ?_ (Does.mono (fileRecord_does _ _) (by decide))
    exact Does.mono (Does.event s _ rfl rfl) (by decide)

theorem closeBetweenVotes_does (f : EvFlags → EvFlags) (s : State) : Does closeParts s (closeBetweenVotes f s) := by
  unfold closeBetweenVotes
  split
  · exact closeRecord_does f _ _ _ s
  · exact Does.mono (Does.event s _ rfl rfl) (by decide)

theorem openEvent_does (n : Nat) (k : Note) (rs : List Report) (sum : Nat) (s : State) :
    Does voteParts s (openEvent n k rs sum s) := by
  unfold openEvent
  refine Does.trans ?_ (Does.mono (chargeHoldStart_does _) (by decide))
  refine Does.trans ?_ (Does.mono (heaterHoldStart_does _) (by decide))
  refine Does.trans ?_ (Does.mono (openAlert_does _ _) (by decide))
  exact Does.mono (Does.event s _ rfl rfl) (by decide)

theorem updateRecord_does (rs : List Report) (sum : Nat) (s : State) : Does voteParts s (updateRecord rs sum s) :=
  Does.mono (Does.event s _ rfl rfl) (by decide)

theorem setEvState_does (x : EvState) (y : RecState) (post : Nat) (s : State) : Does voteParts s (setEvState x y post s) :=
  Does.mono (Does.event s _ rfl rfl) (by decide)

theorem compareVote_does (k : Note) (sum : Nat) (s : State) : Does voteParts s (compareVote k sum s) := by
  unfold compareVote
  split
  · split
    · exact setEvState_does _ _ _ s
    · exact Does.refl _ s
  · split
    · have h : Does voteParts s { s with evt := { s.evt with post := s.evt.post - 1 } } :=
        Does.mono (Does.event s _ rfl rfl) (by decide)
      simp only
      split
      · exact h.trans (Does.mono (closeRecord_does _ _ _ _ _) (by decide))
      · exact h
    · exact setEvState_does _ _ _ s
  · exact Does.refl _ s

theorem moveEvent_does (k : Note) (rs : List Report) (sum : Nat) (s : State) : Does voteParts s (moveEvent k rs sum s) := by
  unfold moveEvent
  split
  · split
    · exact Does.refl _ s
    · split
      · exact openEvent_does _ k rs sum s
      · exact Does.refl _ s
  · split
    · exact Does.mono (Does.event s _ rfl rfl) (by decide)
    · exact Does.refl _ s
  · have h := updateRecord_does rs sum s
    simp only
    split
    · exact h.trans (Does.mono (closeRecord_does _ _ _ _ _) (by decide))
    · exact h.trans (compareVote_does k sum _)

theorem markVote_does (s : State) (x : Events) (m : Moment) (hv : Part.event.same s { s with evt := x })
    (hw : x.wakeTerm = s.evt.wakeTerm) : Does voteParts s { s with evt := x, moment := m } :=
  Does.trans (t := { s with evt := x }) (Does.mono (Does.evt s x hv hw) (by decide))
    (Does.mono (Does.moment { s with evt := x } m) (by decide))

theorem vote_does (k : Note) (s : State) : Does voteParts s (vote k s) := by
  unfold vote
  simp only
  refine Does.trans (t := moveEvent k _ _ _) ?_ (Does.mono (Does.evt _ _ (by simp [Part.same]) rfl) (by decide))
  refine Does.trans ?_ (moveEvent_does k _ _ _)
  exact markVote_does s _ _ (by simp [Part.same]) rfl

theorem tryVote_does (s : State) : Does voteParts s (tryVote s) := by
  unfold tryVote
  split
  · exact Does.refl _ s
  · split
    · exact vote_does _ s
    · exact Does.refl _ s

theorem gatherReport_does (r : Report) (s : State) : Does voteParts s (gatherReport r s) := by
  unfold gatherReport
  split
  · refine Does.trans ?_ (tryVote_does _)
    refine Does.trans ?_ (tryVote_does _)
    exact Does.mono (Does.evt s _ (by simp [Part.same]) rfl) (by decide)
  · exact Does.refl _ s

theorem noteStrobe_does (n : Nat) (s : State) : Does [.evt] s (noteStrobe n s) := Does.evt s _ (by simp [Part.same]) rfl

/-! ### What a vote keeps, and what it makes of marks, peaks and the trigger list -/

/-- The gathering, the counting marks and the channels are kept. -/
structure KeepsGathering (s t : State) : Prop where
  counting : t.evt.counting = s.evt.counting
  notes : t.evt.notes = s.evt.notes
  reports : t.evt.reports = s.evt.reports
  chn : t.chn = s.chn

theorem KeepsGathering.trans {s t u : State} (h : KeepsGathering s t) (k : KeepsGathering t u) : KeepsGathering s u :=
  ⟨k.counting.trans h.counting, k.notes.trans h.notes, k.reports.trans h.reports, k.chn.trans h.chn⟩

/-- An operation that leaves the Event Engine and the channels. -/
theorem KeepsGathering.of {L : List Part} {s t : State} (h : Does L s t) (he : Part.evt ∉ L) (hc : Part.chn ∉ L) :
    KeepsGathering s t := by
  have a : t.evt = s.evt := h.frame .evt he
  exact ⟨by rw [a], by rw [a], by rw [a], h.frame .chn hc⟩

theorem fileRecord_gathering (r : EvRecord) (s : State) : KeepsGathering s (fileRecord r s) := by
  unfold fileRecord eventWakeEval wakeEval
  split
  · exact ⟨rfl, rfl, rfl, rfl⟩
  · have k := KeepsGathering.of (lostOccurrence_does
      { s with evt := { s.evt with list := s.evt.list.drop 1, lost := inc16 s.evt.lost } }) (by decide) (by decide)
    exact ⟨k.counting, k.notes, k.reports, k.chn⟩

theorem closeRecord_gathering (f : EvFlags → EvFlags) (k : Nat) (x : Stamp) (a : EvState) (s : State) :
    KeepsGathering s (closeRecord f k x a s) := by
  unfold closeRecord
  split
  · exact ⟨rfl, rfl, rfl, rfl⟩
  · unfold signalClose
    refine KeepsGathering.trans ?_ (.of (chargeHoldEnd_does _) (by decide) (by decide))
    refine KeepsGathering.trans ?_ (.of (heaterHoldEnd_does _) (by decide) (by decide))
    refine KeepsGathering.trans ?_ (.of (startSettle_does _) (by decide) (by decide))
    refine KeepsGathering.trans ?_ (.of (closeAlert_does _ _) (by decide) (by decide))
    refine KeepsGathering.trans ?_ (fileRecord_gathering _ _)
    exact ⟨rfl, rfl, rfl, rfl⟩

theorem compareVote_gathering (k : Note) (sum : Nat) (s : State) : KeepsGathering s (compareVote k sum s) := by
  unfold compareVote
  split
  · split <;> exact ⟨rfl, rfl, rfl, rfl⟩
  · split
    · dsimp only
      split
      · exact KeepsGathering.trans ⟨rfl, rfl, rfl, rfl⟩ (closeRecord_gathering _ _ _ _ _)
      · exact ⟨rfl, rfl, rfl, rfl⟩
    · exact ⟨rfl, rfl, rfl, rfl⟩
  · exact ⟨rfl, rfl, rfl, rfl⟩

/-- A vote's move of the event leaves the marks, the notes, the reports and the channels. -/
theorem moveEvent_gathering (k : Note) (rs : List Report) (sum : Nat) (s : State) :
    KeepsGathering s (moveEvent k rs sum s) := by
  unfold moveEvent
  split
  · split
    · exact ⟨rfl, rfl, rfl, rfl⟩
    · split
      · unfold openEvent
        refine KeepsGathering.trans ?_ (.of (chargeHoldStart_does _) (by decide) (by decide))
        refine KeepsGathering.trans ?_ (.of (heaterHoldStart_does _) (by decide) (by decide))
        refine KeepsGathering.trans ?_ (.of (openAlert_does _ _) (by decide) (by decide))
        exact ⟨rfl, rfl, rfl, rfl⟩
      · exact ⟨rfl, rfl, rfl, rfl⟩
  · split <;> exact ⟨rfl, rfl, rfl, rfl⟩
  · have h : KeepsGathering s (updateRecord rs sum s) := ⟨rfl, rfl, rfl, rfl⟩
    dsimp only
    split
    · exact h.trans (closeRecord_gathering _ _ _ _ _)
    · exact h.trans (compareVote_gathering _ _ _)

/-- R88: the marks a vote leaves. -/
theorem vote_counting (k : Note) (s : State) :
    (vote k s).evt.counting = countAll (s.coincWindow * s.sch.rate) (s.evt.reports.filter fun x => x.strobe == k.strobe) s.evt.counting := by
  unfold vote
  exact (moveEvent_gathering k _ _ _).counting

/-- R88: a channel without a report keeps its mark. -/
theorem countAll_none (span : Nat) (l : List Report) (m : Vector (Option Counting) 6) (c : Chan)
    (h : ∀ a ∈ l, a.chan ≠ c) :(countAll span l m)[c] = m[c] := by
  unfold countAll
  induction l generalizing m with
  | nil => rfl
  | cons a r ih =>
    rw [List.foldl_cons, ih _ fun b hb => h b (List.mem_cons_of_mem _ hb)]
    have := h a (List.mem_cons_self)
    show (m.set a.chan.val _)[c.val] = m[c.val]
    rw [Vector.getElem_set_ne]
    intro e; exact this (Fin.ext e)

/-- R88: a channel with one report has the mark after it. -/
theorem countAll_one (span : Nat) (l : List Report) (m : Vector (Option Counting) 6) (c : Chan) (a : Report)
    (h : l.filter (fun x => x.chan == c) = [a]) :(countAll span l m)[c] = countAfter m[c] a span := by
  induction l generalizing m with
  | nil => cases h
  | cons b r ih =>
    by_cases hb : b.chan = c
    · rw [List.filter_cons_of_pos (by simpa using hb)] at h
      have h9 := (List.cons.inj h).2
      have hab := (List.cons.inj h).1
      subst hab
      unfold countAll
      rw [List.foldl_cons]
      have := countAll_none span r (m.set b.chan (countAfter m[b.chan] b span)) c (by
        intro x hx e
        have : x ∈ r.filter (fun x => x.chan == c) := List.mem_filter.mpr ⟨hx, by simpa using e⟩
        rw [h9] at this; cases this)
      unfold countAll at this
      rw [this]
      subst hb
      show (m.set b.chan.val _)[b.chan.val] = _
      rw [Vector.getElem_set_self]
    · rw [List.filter_cons_of_neg (by simpa using hb)] at h
      unfold countAll
      rw [List.foldl_cons]
      have := ih (m.set b.chan (countAfter m[b.chan] b span)) h
      unfold countAll at this
      rw [this]
      congr 1
      show (m.set b.chan.val _)[c.val] = _
      rw [Vector.getElem_set_ne]; rfl
      intro e; exact hb (Fin.ext e)

/-- R96: a channel without a report keeps its peaks. -/
theorem takePeaks_none (l : List Report) (p : Vector Peak 6) (c : Chan) (h : ∀ a ∈ l, a.chan ≠ c) :
    (takePeaks l p)[c] = p[c] := by
  unfold takePeaks
  induction l generalizing p with
  | nil => rfl
  | cons a r ih =>
    rw [List.foldl_cons, ih _ fun b hb => h b (List.mem_cons_of_mem _ hb)]
    have := h a (List.mem_cons_self)
    show (p.set a.chan.val _)[c.val] = p[c.val]
    rw [Vector.getElem_set_ne]
    intro e; exact this (Fin.ext e)

/-- R96: a channel with one report takes it. -/
theorem takePeaks_one (l : List Report) (p : Vector Peak 6) (h : l.Pairwise (fun a b => a.chan ≠ b.chan))
    (a : Report) (ha : a ∈ l) :
    (takePeaks l p)[a.chan] = p[a.chan].take a := by
  induction l generalizing p with
  | nil => cases ha
  | cons b r ih =>
    have hp := List.pairwise_cons.mp h
    unfold takePeaks
    rw [List.foldl_cons]
    rcases List.mem_cons.mp ha with rfl | hr
    · have := takePeaks_none r (p.set a.chan (p[a.chan].take a)) a.chan (fun x hx e => hp.1 x hx e.symm)
      unfold takePeaks at this
      rw [this]
      show (p.set a.chan.val _)[a.chan.val] = _
      rw [Vector.getElem_set_self]
    · have := ih (p.set b.chan (p[b.chan].take b)) hp.2 hr
      unfold takePeaks at this
      rw [this]
      congr 1
      show (p.set b.chan.val _)[a.chan.val] = _
      rw [Vector.getElem_set_ne]; rfl
      intro e; exact hp.1 a hr (Fin.ext e)

/-- The channels of rs that touch the list. -/
def touchedBy (rs : List Report) (c : Chan) : Bool :=
  match reportOf rs c with
  | none => false
  | some r => r.on && !r.overridden

/-- With one report for each channel at most, a channel touches the list by an ON of its own that is not overridden. -/
theorem touchedBy_iff (l : List Report) (h : l.Pairwise (fun a b => a.chan ≠ b.chan)) (c : Chan) :
    touchedBy l c = true ↔ ∃ a ∈ l, a.chan = c ∧ a.on = true ∧ a.overridden = false := by
  unfold touchedBy reportOf
  induction l with
  | nil => simp
  | cons b r ih =>
    have hp := List.pairwise_cons.mp h
    by_cases hb : b.chan = c
    · rw [List.find?_cons_of_pos (by simpa using hb)]
      constructor
      · intro h; exact ⟨b, List.mem_cons_self, hb, by simpa using h⟩
      · rintro ⟨a, ha, hc, hh⟩
        rcases List.mem_cons.mp ha with rfl | ha
        · simpa using hh
        · exact absurd (hb.trans hc.symm) (hp.1 a ha)
    · rw [List.find?_cons_of_neg (by simpa using hb), ih hp.2]
      constructor
      · rintro ⟨a, ha, x⟩; exact ⟨a, List.mem_cons_of_mem _ ha, x⟩
      · rintro ⟨a, ha, hc, x⟩
        rcases List.mem_cons.mp ha with rfl | ha
        · exact absurd hc hb
        · exact ⟨a, ha, hc, x⟩

/-- R95: the ON reports of some channels in rising order, the list so far being the old entries, then those appended. -/
theorem touchFold (o k : Nat) (rs : List Report) (hk : ∀ x ∈ rs, x.strobe = k) (base : List TrigEntry) :
    ∀ (cs : List Chan) (old new : List TrigEntry),
    cs.Pairwise (· < ·) → (∀ f ∈ new, ∀ c ∈ cs, f.chan < c) → new.Pairwise (fun a b => a.chan < b.chan) →
    (∀ f ∈ new, ∀ e ∈ base, e.chan ≠ f.chan) → old.map TrigEntry.chan = base.map TrigEntry.chan →
    cs.foldl (fun l c => match reportOf rs c with
      | none => l
      | some r => if r.on && !r.overridden then touchList o l r else l) (old ++ new)
    = (old.map fun e =>
        if e.chan ∈ cs ∧ touchedBy rs e.chan = true then { e with onCount := min (e.onCount + 1) 255 } else e)
      ++ (new ++ ((cs.filter fun c => touchedBy rs c && !(base.any fun e => e.chan == c)).map fun c =>
        (⟨c, k, onOffset o k, 1, {}⟩ : TrigEntry))) := by
  intro cs
  induction cs with
  | nil => intro old new h1 h2 h3 h4 h5; simp
  | cons c r ih =>
    intro old new h1 h2 h3 h4 h5
    have hp := List.pairwise_cons.mp h1
    rw [List.foldl_cons]
    by_cases ht : touchedBy rs c = true
    · obtain ⟨a, ha, hon⟩ : ∃ a, reportOf rs c = some a ∧ (a.on && !a.overridden) = true := by
        unfold touchedBy at ht
        split at ht
        · cases ht
        · rename_i x hx; exact ⟨x, hx, ht⟩
      have hac : a.chan = c := by simpa using List.find?_some ha
      have hak : a.strobe = k := hk a (List.mem_of_find?_eq_some ha)
      rw [ha]; dsimp only; rw [if_pos hon]
      by_cases hb : base.any (fun e => e.chan == c) = true
      · -- in old
        have hold : (old ++ new).any (fun e => e.chan == a.chan) = true := by
          obtain ⟨e, he, hec⟩ := List.any_eq_true.mp hb
          have : e.chan ∈ old.map TrigEntry.chan := by rw [h5]; exact List.mem_map_of_mem he
          obtain ⟨e', he', hx⟩ := List.mem_map.mp this
          refine List.any_eq_true.mpr ⟨e', List.mem_append_left _ he', ?_⟩
          rw [hac]; simpa [hx] using hec
        have hn : (new.map fun e => if e.chan = a.chan then { e with onCount := min (e.onCount + 1) 255 } else e) = new := by
          conv_rhs => rw [← List.map_id new]
          apply List.map_congr_left
          intro f hf
          have : f.chan < c := h2 f hf c List.mem_cons_self
          have : f.chan ≠ a.chan := by rw [hac]; exact ne_of_lt this
          simp [this]
        have e1 : touchList o (old ++ new) a =
            (old.map fun e => if e.chan = a.chan then { e with onCount := min (e.onCount + 1) 255 } else e) ++ new := by
          unfold touchList
          rw [if_pos hold, List.map_append, hn]
        rw [e1, ih _ new hp.2 (fun f hf d hd => h2 f hf d (List.mem_cons_of_mem _ hd)) h3 h4 (by
          rw [← h5, List.map_map]; apply List.map_congr_left; intro e _; dsimp; split <;> rfl)]
        rw [List.filter_cons_of_neg (by simp [hb])]
        congr 1
        rw [List.map_map]
        apply List.map_congr_left
        intro e he
        dsimp only [Function.comp]
        by_cases hec : e.chan = c
        · have : c ∉ r := fun hc => absurd (hp.1 c hc) (lt_irrefl c)
          simp [hec, hac, this, ht]
        · have hea : e.chan ≠ a.chan := by rw [hac]; exact hec
          simp [hea, hec]
      · have hnot : (old ++ new).any (fun e => e.chan == a.chan) = false := by
          rw [Bool.eq_false_iff]
          intro h
          obtain ⟨e, he, hec⟩ := List.any_eq_true.mp h
          have hec : e.chan = c := by rw [hac] at hec; simpa using hec
          rcases List.mem_append.mp he with he | he
          · have : e.chan ∈ base.map TrigEntry.chan := by rw [← h5]; exact List.mem_map_of_mem he
            obtain ⟨e', he', hx⟩ := List.mem_map.mp this
            exact hb (List.any_eq_true.mpr ⟨e', he', by simp [hx, hec]⟩)
          · exact absurd (h2 e he c List.mem_cons_self) (by rw [hec]; exact lt_irrefl c)
        have e1 : touchList o (old ++ new) a = old ++ (new ++ [(⟨c, k, onOffset o k, 1, {}⟩ : TrigEntry)]) := by
          unfold touchList
          rw [if_neg (by rw [hnot]; simp), List.append_assoc, hac, hak]
        rw [e1]
        rw [ih old (new ++ [(⟨c, k, onOffset o k, 1, {}⟩ : TrigEntry)]) hp.2 ?_ ?_ ?_ h5]
        · rw [List.filter_cons_of_pos (by simp [ht, hb])]
          congr 1
          · apply List.map_congr_left
            intro e he
            have : e.chan ≠ c := fun x => by
              have : e.chan ∈ base.map TrigEntry.chan := by rw [← h5]; exact List.mem_map_of_mem he
              obtain ⟨e', he', hx⟩ := List.mem_map.mp this
              exact hb (List.any_eq_true.mpr ⟨e', he', by simp [hx, x]⟩)
            simp [this]
          · simp
        · intro f hf d hd
          rcases List.mem_append.mp hf with hf | hf
          · exact h2 f hf d (List.mem_cons_of_mem _ hd)
          · rw [List.mem_singleton.mp hf]; exact hp.1 d hd
        · refine List.pairwise_append.mpr ⟨h3, List.pairwise_singleton _ _, fun f hf g hg => ?_⟩
          rw [List.mem_singleton.mp hg]; exact h2 f hf c List.mem_cons_self
        · intro f hf e he
          rcases List.mem_append.mp hf with hf | hf
          · exact h4 f hf e he
          · rw [List.mem_singleton.mp hf]; intro x
            exact hb (List.any_eq_true.mpr ⟨e, he, by simp [x]⟩)
    · have : (match reportOf rs c with
        | none => old ++ new
        | some r => if (r.on && !r.overridden) = true then touchList o (old ++ new) r else (old ++ new)) = old ++ new := by
        unfold touchedBy at ht
        split
        · rfl
        · rename_i x hx; rw [hx] at ht; rw [if_neg ht]
      rw [this, ih old new hp.2 (fun f hf d hd => h2 f hf d (List.mem_cons_of_mem _ hd)) h3 h4 h5]
      rw [List.filter_cons_of_neg (by simp [ht])]
      congr 1
      apply List.map_congr_left
      intro e he
      by_cases hec : e.chan = c
      · simp [hec, ht]
      · simp [hec]

/-- R95: what the ON reports of strobe k make of a trigger list: the counts of its entries, then the entries appended. -/
theorem touchAll_eq (o k : Nat) (l : List TrigEntry) (rs : List Report) (hk : ∀ x ∈ rs, x.strobe = k) :
    touchAll o l rs =
      (l.map fun e => if touchedBy rs e.chan = true then { e with onCount := min (e.onCount + 1) 255 } else e)
      ++ ((allChans.filter fun c => touchedBy rs c && !(l.any fun e => e.chan == c)).map fun c =>
        (⟨c, k, onOffset o k, 1, {}⟩ : TrigEntry)) := by
  have := touchFold o k rs hk l allChans l [] (by decide) (by simp) (by simp) (by simp) rfl
  unfold touchAll
  rw [List.append_nil, List.nil_append] at this
  refine this.trans ?_
  congr 1
  apply List.map_congr_left
  intro e _
  have : e.chan ∈ allChans := by revert e; intro e _; generalize e.chan = c; revert c; decide
  simp [this]

end Sys2Proof.Laws
end

