-- ==== Sys2Proof/Laws/Ports.lean ====
section
/-! SUPPORT. What the operations of Ports can do: slots written, outcomes decided, windows opened and closed, supplies
switched, the map applied. -/
namespace Sys2Proof.Laws

open Sys2Proof Sys2Proof.Machine

/-- What a slot written for a channel, and the vote it may complete, can change. -/
abbrev slotParts : List Part := [.box, .mon, .evt, .event, .htr, .bat, .sch, .moment, .chn, .rings]

/-- What an outcome decided on a port can change. -/
abbrev portParts : List Part := [.box, .mon, .evt, .event, .htr, .bat, .sch, .moment, .chn, .rings, .prt]

/-! ### Rings -/

theorem putRing_does (c : Chan) (x : Ring) (s : State)
    (h : Sparse.wf (fun _ => Slot.blank) s.rings[c].slots = true → Sparse.wf (fun _ => Slot.blank) x.slots = true) :
    Does [.rings] s { s with rings := s.rings.set c x } :=
  ⟨fun p hp => by cases p <;> first | rfl | (simp [Part.same]; done) | exact absurd (by simp) hp,
    id, id, id, id, id, fun k d => by
      show Sparse.wf _ (s.rings.set c x)[d.val].slots = true
      rw [Vector.getElem_set]
      by_cases e : c.val = d.val
      · simp only [e, ↓reduceIte]
        exact h (k c)
      · simp only [e, ↓reduceIte]
        exact k d⟩

/-- A ring stays in its canonical form under every write (R59, R62). -/
theorem write_wf (r : Ring) (n : Nat) (x : Slot) (h : Sparse.wf (fun _ => Slot.blank) r.slots = true) :
    Sparse.wf (fun _ => Slot.blank) (r.write n x).slots = true := put_wf (fun _ => Slot.blank) _ _ _ h

theorem clearRing_does (c : Chan) (s : State) : Does [.rings] s (clearRing c s) := putRing_does c _ s id

theorem clearRings_does (s : State) : Does [.rings] s (allChans.foldl (fun s c => clearRing c s) s) :=
  Does.fold (fun s c => clearRing c s) (fun s c => clearRing_does c s) _ s

theorem triggerStrobe_does (c : Chan) (k : Nat) (s : State) : Does slotParts s (triggerStrobe c k s) := by
  unfold triggerStrobe
  refine Does.trans ?_ (Does.mono (gatherReport_does _ _) (by decide))
  have m : Does slotParts s { s with moment := { s.moment with updated := s.moment.updated.set c true } } :=
    Does.mono (Does.moment s _) (by decide)
  exact m.trans (Does.mono (setChan_does c _ _) (by decide))

theorem writeSlot_does (c : Chan) (k : Nat) (x : Slot) (s : State) : Does slotParts s (writeSlot c k x s) := by
  unfold writeSlot
  refine Does.trans ?_ (triggerStrobe_does c k _)
  exact Does.mono (putRing_does c _ s fun h => write_wf _ k x h) (by decide)

theorem writeGap_does (c : Chan) (k : Nat) (s : State) : Does slotParts s (writeGap c k s) := writeSlot_does c k _ s

theorem writePortGaps_does (p : PortId) (k : Nat) (s : State) : Does slotParts s (writePortGaps p k s) := by
  unfold writePortGaps
  refine Does.fold (fun s c => if s.sourcePort c = some p then writeGap c k s else s) (fun s c => ?_) _ s
  split
  · exact writeGap_does c k s
  · exact Does.refl _ s

theorem writePortSlots_does (p : PortId) (k : Nat) (f : Option Frame) (s : State) :
    Does slotParts s (writePortSlots p k f s) := by
  unfold writePortSlots
  split
  · exact writePortGaps_does p k s
  · rename_i g
    refine Does.fold (fun s c => match s.map.entries[c].source with
      | none => s
      | some src =>
        if portOf src = p then writeSlot c k (filledSlot s.map.entries[c] src s.map.reversed[p] g) s else s)
      (fun s c => ?_) _ s
    split
    · exact Does.refl _ s
    · split
      · exact writeSlot_does c k _ s
      · exact Does.refl _ s

theorem writeUnsourced_does (k : Nat) (s : State) : Does slotParts s (writeUnsourced k s) := by
  unfold writeUnsourced
  refine Does.fold (fun s c => if s.unsourced c then writeGap c k s else s) (fun s c => ?_) _ s
  split
  · exact writeGap_does c k s
  · exact Does.refl _ s

/-! ### Links -/

theorem setPort_does (p : PortId) (x : Port) (s : State) : Does [.prt] s (setPort p x s) := Does.prt s _

theorem reportPort_does (p : PortId) (s : State) : Does [.box, .mon] s (reportPort p s) :=
  (statusChange_does _ _ s).trans (statusChange_does _ _ _)

theorem linkChanged_does (p : PortId) (s : State) : Does [.box, .mon, .chn, .evt] s (linkChanged p s) := by
  unfold linkChanged
  exact Does.trans (Does.mono (reportPort_does p s) (by decide)) (Does.mono (refreshPort_does p _) (by decide))

theorem setLinkOnly_does (p : PortId) (x : Port) (s : State) :
    Does [.prt, .box, .mon, .chn, .evt] s (linkChanged p (setPort p x s)) :=
  Does.trans (Does.mono (setPort_does p x s) (by decide)) (Does.mono (linkChanged_does p _) (by decide))

theorem setLink_does (p : PortId) (x : Port) (s : State) : Does portParts s (linkChanged p (setPort p x s)) :=
  Does.mono (setLinkOnly_does p x s) (by decide)

theorem stopLink_does (p : PortId) (s : State) : Does portParts s (stopLink p s) := setLink_does p _ s

theorem closeStopped_does (p : PortId) (old : Port) (s : State) : Does portParts s (closeStopped p old s) := by
  unfold closeStopped
  split
  · split
    · exact Does.refl _ s
    · exact Does.mono (writePortGaps_does p _ s) (by decide)
  · exact Does.refl _ s

theorem startPort_does (p : PortId) (s : State) : Does [.prt] s (startPort p s) := setPort_does p _ s

theorem switchSupply_does (p : PortId) (s : State) : Does portParts s (switchSupply p s) := by
  unfold switchSupply
  split
  · split
    · exact Does.mono (startPort_does p s) (by decide)
    · exact Does.refl _ s
  · split
    · exact Does.refl _ s
    · exact stopLink_does p s

theorem evalSupply_does (p : PortId) (s : State) : Does portParts s (evalSupply p s) :=
  (switchSupply_does p s).trans (closeStopped_does p _ _)

theorem evalSupplies_does (s : State) : Does portParts s (evalSupplies s) :=
  (((switchSupply_does 0 s).trans (switchSupply_does 1 _)).trans (closeStopped_does 0 _ _)).trans (closeStopped_does 1 _ _)

/-! ### Outcomes -/

theorem reportOutcome_does (p : PortId) (o : PortOutcome) (s : State) : Does [.box, .mon] s (reportOutcome p o s) := by
  unfold reportOutcome
  dsimp only
  split
  · refine Does.trans ?_ (judgeErrors_does p _)
    exact Does.mono (Does.figs s _ (by simp [Part.same]) rfl rfl rfl) (by decide)
  · exact Does.refl _ s

theorem decideOutcome_does (p : PortId) (k : Nat) (o : PortOutcome) (f : Option Frame) (s : State) :
    Does portParts s (decideOutcome p k o f s) := by
  unfold decideOutcome
  refine Does.trans ?_ (Does.mono (writePortSlots_does p k f _) (by decide))
  refine Does.trans ?_ (setLink_does p _ _)
  exact Does.mono (reportOutcome_does p o s) (by decide)

theorem closeWindow_does (p : PortId) (s : State) : Does portParts s (closeWindow p s) := by
  unfold closeWindow
  split
  · exact Does.refl _ s
  · exact decideOutcome_does p _ _ _ s

theorem closeWindows_does (s : State) : Does portParts s (closeWindows s) :=
  (closeWindow_does 0 s).trans (closeWindow_does 1 _)

theorem openWindow_does (p : PortId) (k : Nat) (s : State) : Does [.prt] s (openWindow p k s) := by
  unfold openWindow
  split
  · exact Does.refl _ s
  · exact setPort_does p _ s

theorem startingExpired_does (p : PortId) (s : State) : Does portParts s (startingExpired p s) := setLink_does p _ s

/-! ### The Channel Map -/

theorem applyChange_does (m : ChanMap) (c : Chan) (s : State) : Does [.rings, .chn, .evt] s (applyChange m c s) := by
  unfold applyChange
  split
  · exact Does.trans (Does.mono (clearRing_does c s) (by decide)) (Does.mono (restartChan_does c _) (by decide))
  · exact Does.refl _ s

theorem applyMap_does (s : State) : Does [.map, .pendingMap, .rings, .chn, .evt] s (applyMap s) := by
  unfold applyMap
  split
  · exact Does.refl _ s
  · rename_i n _
    refine Does.trans ?_ (Does.mono (Does.fold (fun t c => applyChange s.map c t) (fun t c => applyChange_does _ c t) allChans _)
      (by decide))
    refine Does.trans ?_ (Does.mono (resuppress_does _) (by decide))
    exact Does.trans (t := { s with map := n }) (Does.mono (Does.map s n) (by decide))
      (Does.mono (Does.pendingMap { s with map := n } none) (by decide))

end Sys2Proof.Laws
end

