-- ==== Sys2Proof/Laws/Second.lean ====
section
/-! SUPPORT. What the operations of Scheduler, Modem and Boundary can do: strobes, rate changes, calibration, the modem
line, the reading, and the second boundary as a whole. -/
namespace Sys2Proof.Laws

open Sys2Proof Sys2Proof.Machine

/-! ### Strobes and rate changes -/

theorem numberStrobe_does (tick : Nat) (s : State) : Does [.sch, .strobes] s (numberStrobe tick s) := Does.schAll s _ id

/-- What a strobe can change. -/
abbrev strobeParts : List Part := [.box, .mon, .evt, .event, .htr, .bat, .sch, .strobes, .moment, .chn, .rings, .prt]

theorem issueStrobe_does (tick : Nat) (s : State) : Does strobeParts s (issueStrobe tick s) := by
  unfold issueStrobe
  refine Does.trans ?_ (Does.mono (writeUnsourced_does _ _) (by decide))
  refine Does.trans ?_ (Does.mono (openWindow_does 1 _ _) (by decide))
  refine Does.trans ?_ (Does.mono (openWindow_does 0 _ _) (by decide))
  refine Does.trans ?_ (Does.mono (noteStrobe_does _ _) (by decide))
  refine Does.trans ?_ (Does.mono (numberStrobe_does _ _) (by decide))
  exact Does.mono (closeWindows_does s) (by decide)

theorem storeRate_does (rate : Nat) (s : State) : Does [.sch, .strobes] s (storeRate rate s) := Does.schAll s _ id

theorem applyRate_does (s : State) : Does [.sch, .strobes, .rings, .chn, .evt] s (applyRate s) := by
  unfold applyRate
  split
  · exact Does.refl _ s
  · refine Does.trans ?_ (Does.mono (restartAll_does _) (by decide))
    refine Does.trans ?_ (Does.mono (clearRings_does _) (by decide))
    exact Does.mono (Does.schAll s _ id) (by decide)

theorem pendingRate_does (s : State) : Does strobeParts s (pendingRate s) := by
  unfold pendingRate
  have h : Does strobeParts s (closeWindows s) := Does.mono (closeWindows_does s) (by decide)
  generalize closeWindows s = u at *
  simp only
  split
  · exact h.trans (Does.after (Does.moment u _) (applyRate_does _) (by decide) (by decide))
  · exact Does.refl _ s

/-- What a pending map's test can change. -/
abbrev mapParts : List Part :=
  [.box, .mon, .evt, .event, .htr, .bat, .sch, .moment, .chn, .rings, .prt, .map, .pendingMap]

theorem pendingMapTest_does (s : State) : Does mapParts s (pendingMapTest s) := by
  unfold pendingMapTest
  have h : Does mapParts s (closeWindows s) := Does.mono (closeWindows_does s) (by decide)
  generalize closeWindows s = u at *
  simp only
  split
  · exact h.trans (Does.after (Does.moment u _) (applyMap_does _) (by decide) (by decide))
  · exact Does.refl _ s

/-! ### Calibration -/

theorem editCal_does (id : Nat) (f : Cal → Cal) (s : State) : Does [.sch] s (editCal id f s) :=
  Does.sch s _ (by simp [Part.same]) fun h => by simpa using h

theorem endWindow_does (p : PortId) (s : State) : Does [.sch, .chn, .evt] s (endWindow p s) := by
  unfold endWindow
  refine Does.trans ?_ (Does.mono (resuppress_does _) (by decide))
  exact Does.mono (Does.sch s _ (by simp [Part.same]) id) (by decide)

theorem lineLow_does (p : PortId) (s : State) : Does [.sch] s (lineLow p s) := Does.sch s _ (by simp [Part.same]) id

theorem leaveRunning_does (c : Cal) (o : CalOutcome) (s : State) : Does [.sch, .chn, .evt] s (leaveRunning c o s) := by
  unfold leaveRunning
  refine Does.trans ?_ (endWindow_does _ _)
  refine Does.trans ?_ (Does.mono (lineLow_does _ _) (by decide))
  exact Does.mono (editCal_does _ _ s) (by decide)

theorem cutCal_does (s : State) : Does [.sch, .chn, .evt] s (cutCal s) := by
  unfold cutCal
  split
  · exact Does.refl _ s
  · exact leaveRunning_does _ _ s

theorem endPulse_does (p : PortId) (s : State) : Does [.sch] s (endPulse p s) := by
  unfold endPulse
  split
  · exact lineLow_does p s
  · split
    · exact (lineLow_does p s).trans (editCal_does _ _ _)
    · exact lineLow_does p s

theorem endRun_does (c : Cal) (s : State) : Does [.sch, .chn, .evt] s (endRun c s) := by
  unfold endRun
  refine Does.trans ?_ (leaveRunning_does _ _ _)
  split
  · exact Does.mono (endPulse_does _ s) (by decide)
  · exact Does.refl _ s

theorem pulseTime_does (c : Cal) (s : State) : Does [.sch] s (pulseTime c s) := by
  unfold pulseTime
  split
  · exact editCal_does _ _ s
  · exact Does.sch s _ (by simp [Part.same]) id

theorem startRun_does (c : Cal) (s : State) : Does [.sch, .chn, .evt] s (startRun c s) := by
  unfold startRun
  refine Does.trans ?_ (Does.mono (pulseTime_does _ _) (by decide))
  refine Does.trans ?_ (Does.mono (resuppress_does _) (by decide))
  refine Does.trans (Does.mono (editCal_does c.id (fun c => { c with outcome := .running, runStart := some s.clk.s }) s)
    (by decide)) ?_
  generalize editCal _ _ s = u
  exact Does.mono (Does.sch u _ (by simp [Part.same]) id) (by decide)

/-- What the calibration work of a second boundary can change. -/
abbrev calParts : List Part := [.sch, .chn, .evt, .event]

theorem examineCal_does (c : Cal) (s : State) : Does calParts s (examineCal c s) := by
  unfold examineCal
  split
  · exact Does.trans (Does.mono (editCal_does _ _ s) (by decide)) (Does.mono (flagRecord_does _ _) (by decide))
  · split
    · exact Does.mono (editCal_does _ _ s) (by decide)
    · split
      · exact Does.mono (editCal_does _ _ s) (by decide)
      · exact Does.mono (startRun_does c s) (by decide)

theorem examineCals_does (s : State) : Does calParts s (examineCals s) :=
  Does.fold (fun s c => examineCal c s) (fun s c => examineCal_does c s) _ s

theorem pulsesDue_does (s : State) : Does [.sch] s (pulsesDue s) := by
  unfold pulsesDue
  split
  · exact Does.refl _ s
  · split
    · exact pulseTime_does _ s
    · exact Does.refl _ s

theorem calBoundary_does (s : State) : Does calParts s (calBoundary s) :=
  Does.trans (Does.mono (pulsesDue_does s) (by decide)) (examineCals_does _)

theorem endDue_does (s : State) : Does [.sch, .chn, .evt] s (endDue s) := by
  unfold endDue
  have h : Does [.sch, .chn, .evt] s (allPorts.foldl (fun s p => if s.pulseOver p then endPulse p s else s) s) :=
    Does.fold (fun s p => if s.pulseOver p then endPulse p s else s) (fun s p => by
      split
      · exact Does.mono (endPulse_does p s) (by decide)
      · exact Does.refl _ s) _ s
  dsimp only
  split
  · exact h
  · split
    · exact h.trans (endRun_does _ _)
    · exact h

/-! ### The modem line -/

theorem enterLink_does (x : ModemLink) (n : Nat) (s : State) : Does [.mdm] s (enterLink x n s) := Does.mdm s _

theorem enterOff_does (s : State) : Does [.mdm] s (enterOff s) := enterLink_does _ _ s

theorem hunt_does (s : State) : Does [.mdm] s (hunt s) := Does.mdm s _

theorem modemOff_does (s : State) : Does [.mdm] s (modemOff s) := (enterOff_does s).trans (hunt_does _)

theorem enterBackoff_does (s : State) : Does [.mdm] s (enterBackoff s) := Does.mdm s _

theorem startModem_does (s : State) : Does [.mdm] s (startModem s) := Does.mdm s _

theorem setModemFault_does (v : Bool) (s : State) : Does [.mdm, .box, .mon] s (setModemFault v s) := by
  unfold setModemFault
  refine Does.trans ?_ (Does.mono (statusChange_does 15 v _) (by decide))
  exact Does.mono (Does.mdm s _) (by decide)

theorem startTimedOut_does (s : State) : Does [.mdm, .box, .mon] s (startTimedOut s) := by
  unfold startTimedOut
  refine Does.trans ?_ (Does.mono (enterBackoff_does _) (by decide))
  refine Does.trans ?_ (setModemFault_does true _)
  exact Does.mono (Does.mdm s _) (by decide)

theorem boxMdm_does (s : State) (x : Outbox) (m : Modem) (hv : Part.credits.same s { s with box := x })
    (h : s.box.entries.length ≤ 12 → x.entries.length ≤ 12) : Does [.mdm, .box, .flight] s { s with box := x, mdm := m } :=
  Does.trans (t := { s with box := x }) (Does.mono (Does.boxFlight s x hv h) (by decide))
    (Does.mono (Does.mdm { s with box := x } m) (by decide))

theorem sendOffer_does (a : Alert) (s : State) : Does [.mdm, .box, .flight] s (sendOffer a s) := by
  unfold sendOffer
  refine Does.trans ?_ (Does.mono (enterLink_does _ _ _) (by decide))
  exact boxMdm_does s _ _ (by simp [Part.same]) fun h => by simpa using h

theorem takeFailure_does (s : State) : Does [.mdm, .box, .flight, .mon] s (takeFailure s) := by
  unfold takeFailure
  have h : Does [.mdm, .box, .flight, .mon] s (if 3 ≤ ((s.inFlight.map Alert.attempts).getD 0) + 1 then alertDropped s
      else returnInFlight (((s.inFlight.map Alert.attempts).getD 0) + 1) none s) := by
    split
    · exact Does.mono (alertDropped_does s) (by decide)
    · exact Does.mono (returnInFlight_does _ _ s) (by decide)
  dsimp only
  generalize (if 3 ≤ ((s.inFlight.map Alert.attempts).getD 0) + 1 then alertDropped s
      else returnInFlight (((s.inFlight.map Alert.attempts).getD 0) + 1) none s) = u at *
  have h2 : Does [.mdm, .box, .flight, .mon] s { u with mdm := { u.mdm with fails := u.mdm.fails + 1 } } :=
    h.trans (Does.mono (Does.mdm u _) (by decide))
  split
  · exact Does.trans (Does.trans h2 (Does.mono (setModemFault_does true _) (by decide))) (Does.mono (enterBackoff_does _) (by decide))
  · exact Does.trans h2 (Does.mono (enterLink_does _ _ _) (by decide))

theorem unexpectedFrame_does (s : State) : Does [.mdm] s (unexpectedFrame s) := Does.mdm s _

theorem badFrame_does (s : State) : Does [.mdm] s (badFrame s) := Does.mdm s _

/-- What a frame of the modem can change. -/
abbrev modemParts : List Part := [.mdm, .box, .credits, .flight, .mon]

theorem takeReady_does (s : State) : Does [.mdm, .box, .flight, .mon] s (takeReady s) := by
  unfold takeReady
  split
  · exact Does.mono (enterLink_does _ _ s) (by decide)
  · exact Does.mono (enterLink_does _ _ s) (by decide)
  · exact Does.mono (takeFailure_does s) (by decide)
  · exact Does.mono (takeFailure_does s) (by decide)
  · exact Does.mono (unexpectedFrame_does s) (by decide)

theorem takeTake_does (tag : Byte) (s : State) : Does [.mdm, .box, .credits] s (takeTake tag s) := by
  unfold takeTake
  split
  · refine Does.trans ?_ (Does.mono (enterLink_does _ _ _) (by decide))
    exact Does.mono (Does.boxAll s _ rfl id) (by decide)
  · exact Does.mono (unexpectedFrame_does s) (by decide)

theorem takeBusy_does (tag : Byte) (s : State) : Does [.mdm, .box, .flight] s (takeBusy tag s) := by
  unfold takeBusy
  split
  · exact Does.trans (Does.mono (returnInFlight_does _ _ s) (by decide)) (Does.mono (enterLink_does _ _ _) (by decide))
  · exact Does.mono (unexpectedFrame_does s) (by decide)

theorem takeSent_does (tag : Byte) (s : State) : Does modemParts s (takeSent tag s) := by
  unfold takeSent
  split
  · refine Does.trans ?_ (Does.mono (enterLink_does _ _ _) (by decide))
    refine Does.trans ?_ (Does.mono (setModemFault_does false _) (by decide))
    refine Does.trans (Does.mono (alertSent_does s) (by decide)) ?_
    exact Does.mono (Does.mdm _ _) (by decide)
  · exact Does.mono (unexpectedFrame_does s) (by decide)

theorem takeFailed_does (tag : Byte) (s : State) : Does [.mdm, .box, .flight, .mon] s (takeFailed tag s) := by
  unfold takeFailed
  split
  · exact Does.mono (takeFailure_does s) (by decide)
  · exact Does.mono (unexpectedFrame_does s) (by decide)

theorem takeModemFrame_does (l : List Byte) (s : State) : Does modemParts s (takeModemFrame l s) := by
  unfold takeModemFrame
  have hb : Does modemParts s (badFrame s) := Does.mono (badFrame_does s) (by decide)
  dsimp only
  repeat' split
  all_goals first
    | exact hb | exact Does.mono (takeReady_does s) (by decide) | exact Does.mono (takeTake_does _ s) (by decide)
    | exact Does.mono (takeBusy_does _ s) (by decide) | exact takeSent_does _ s
    | exact Does.mono (takeFailed_does _ s) (by decide)

theorem abandonModemFrame_does (s : State) : Does [.mdm] s (abandonModemFrame s) := by
  unfold abandonModemFrame
  split
  · exact Does.refl _ s
  · exact Does.mdm s _

theorem modemSilence_does (s : State) : Does [.mdm] s (modemSilence s) := by
  unfold modemSilence
  split
  · exact abandonModemFrame_does s
  · exact Does.refl _ s

theorem modemByte_does (b : Byte) (s : State) : Does modemParts s (modemByte b s) := by
  unfold modemByte
  dsimp only
  split
  · exact Does.mono (Does.mdm s _) (by decide)
  · split
    · refine Does.trans ?_ (Does.mono (abandonModemFrame_does _) (by decide))
      exact Does.mono (Does.mdm s _) (by decide)
    · split
      · refine Does.trans ?_ (takeModemFrame_does _ _)
        exact Does.mono (Does.mdm s _) (by decide)
      · exact Does.mono (Does.mdm s _) (by decide)

theorem modemBytes_does (l : List Byte) (s : State) : Does modemParts s (l.foldl (fun s b => modemByte b s) s) :=
  Does.fold (fun s b => modemByte b s) (fun s b => modemByte_does b s) l s

theorem modemShed_does (s : State) : Does [.mdm, .box, .flight] s (modemShed s) := by
  have h := Does.mono (L := [.mdm, .box, .flight]) (returnInFlight_does ((s.inFlight.map Alert.attempts).getD 0) none s) (by decide)
  unfold modemShed
  simp only
  split
  · exact h.trans (Does.mono (modemOff_does _) (by decide))
  · exact h.trans (Does.mono (enterOff_does _) (by decide))

theorem boxMdmAll_does (s : State) (x : Outbox) (m : Modem)
    (h : s.box.entries.length ≤ 12 → x.entries.length ≤ 12) : Does [.mdm, .box, .credits, .flight] s { s with box := x, mdm := m } :=
  ⟨fun p hp => by cases p <;> first | rfl | (simp [Part.same]; done) | exact absurd (by simp) hp,
    fun k => ⟨k.1, k.2.1, h k.2.2.1, k.2.2.2⟩, id, id, id, id, id⟩

theorem outboxRestart_does (s : State) : Does [.mdm, .box, .credits, .flight] s (outboxRestart s) := by
  unfold outboxRestart
  refine Does.trans ?_ (Does.mono (clampCredits_does _) (by decide))
  exact boxMdmAll_does s _ _ fun _ => by simp

/-! ### Class and power state -/

/-- What a change of class or power state other than SHED entry can change in the blocks that read them. -/
abbrev followParts : List Part :=
  [.clk, .supplyView, .box, .mon, .evt, .event, .htr, .bat, .sch, .moment, .chn, .rings, .prt]

/-- What a change of class or power state can change in the blocks that read them. -/
abbrev handParts : List Part :=
  [.clk, .supplyView, .box, .flight, .mon, .evt, .event, .htr, .bat, .sch, .moment, .chn, .rings, .prt, .mdm]

theorem handShed_does (s : State) : Does handParts s (handShed s) := by
  unfold handShed
  refine Does.trans ?_ (Does.mono (heaterFollow_does _) (by decide))
  refine Does.trans ?_ (Does.mono (modemShed_does _) (by decide))
  refine Does.trans ?_ (Does.mono (cutCal_does _) (by decide))
  refine Does.trans ?_ (Does.mono (evalSupplies_does _) (by decide))
  refine Does.trans ?_ (Does.mono (closeBetweenVotes_does _ _) (by decide))
  exact Does.mono (clockFollow_does s) (by decide)

theorem handRun_does (s : State) : Does followParts s (handRun s) := by
  unfold handRun
  refine Does.trans ?_ (Does.mono (heaterFollow_does _) (by decide))
  refine Does.trans ?_ (Does.mono (evalSupplies_does _) (by decide))
  exact Does.mono (clockFollow_does s) (by decide)

theorem handClass_does (s : State) : Does followParts s (handClass s) := by
  unfold handClass
  have h : Does followParts s (evalSupplies (clockFollow s)) :=
    Does.trans (Does.mono (clockFollow_does s) (by decide)) (Does.mono (evalSupplies_does _) (by decide))
  exact Does.ite _ cutCal h (Does.mono (cutCal_does _) (by decide))

theorem handOver_does (c : BatClass) (p : PowerState) (s : State) : Does handParts s (handOver c p s) := by
  unfold handOver
  have h : Does handParts s (reportClass s) := Does.mono (reportClass_does s) (by decide)
  dsimp only
  split
  · split
    · exact h.trans (handShed_does _)
    · exact h.trans (Does.mono (handRun_does _) (by decide))
  · split
    · exact h.trans (Does.mono (handClass_does _) (by decide))
    · exact h

/-! ### The second boundary -/

/-- What a reading can change. -/
abbrev readingParts : List Part :=
  [.clk, .supplyView, .box, .flight, .mon, .evt, .event, .htr, .bat, .power, .sch, .moment, .chn, .rings, .prt, .mdm, .pwr]

theorem batteryReading_does (s : State) : Does readingParts s (batteryReading s) := by
  unfold batteryReading
  refine Does.trans ?_ (Does.mono (handOver_does _ _ _) (by decide))
  refine Does.trans ?_ (Does.mono (classStep_does _) (by decide))
  refine Does.trans ?_ (Does.mono (chargeReading_does _) (by decide))
  exact Does.mono (coulombStep_does s) (by decide)

theorem powerReading_does (r : Reading) (s : State) : Does readingParts s (powerReading r s) := by
  unfold powerReading
  refine Does.trans ?_ (Does.mono (heaterReading_does _) (by decide))
  refine Does.trans ?_ (batteryReading_does _)
  exact Does.mono (takeReading_does r s) (by decide)

theorem beginSecond_does (s : State) : Does [.sch, .strobes, .moment] s (beginSecond s) :=
  Does.trans (t := { s with sch := { s.sch with started := true, point := 0 } })
    (Does.mono (Does.schAll s _ id) (by decide))
    (Does.mono (Does.moment _ _) (by decide))

/-- What a second boundary can change. -/
abbrev boundaryParts : List Part :=
  [.clk, .time, .supplyView, .box, .credits, .flight, .mon, .interval, .evt, .event, .htr, .bat, .power, .sch, .strobes,
    .moment, .chn, .rings, .prt, .mdm, .pwr, .map, .pendingMap, .osc]

theorem secondBoundary_does (r : Reading) (s : State) : Does boundaryParts s (secondBoundary r s) := by
  unfold secondBoundary
  refine Does.trans ?_ (Does.mono (beginSecond_does _) (by decide))
  refine Does.trans ?_ (Does.mono (calBoundary_does _) (by decide))
  refine Does.trans ?_ (Does.mono (pendingMapTest_does _) (by decide))
  refine Does.trans ?_ (Does.mono (pendingRate_does _) (by decide))
  refine Does.trans ?_ (Does.mono (endDue_does _) (by decide))
  refine Does.trans ?_ (Does.mono (powerReading_does _ _) (by decide))
  refine Does.trans ?_ (Does.mono (passNotBefores_does _) (by decide))
  refine Does.trans ?_ (Does.mono (intervalTest_does _) (by decide))
  exact Does.mono (clockBoundary_does s) (by decide)

end Sys2Proof.Laws
end

