-- ==== Sys2Proof/Laws/Strobe.lean ====
section
/-! SUPPORT. What is left by a strobe issued and by a rate or map put in force: slots and gaps, windows that close, the channels
that no port decides and their reports, and the channels and rings restarted. -/
namespace Sys2Proof.Laws

open Sys2Proof Sys2Proof.Machine

theorem mem_allChans (c : Chan) : c ∈ allChans := by revert c; decide

theorem allChans_nodup : allChans.Nodup := by decide

/-! ### One slot -/

theorem gatherReport_chn (r : Report) (s : State) : (gatherReport r s).chn = s.chn := (gatherReport_does r s).frame .chn (by decide)

theorem gatherReport_rings (r : Report) (s : State) : (gatherReport r s).rings = s.rings :=
  (gatherReport_does r s).frame .rings (by decide)

/-- A written slot changes the ring of its channel alone (R59). -/
theorem writeSlot_rings (c : Chan) (k : Nat) (x : Slot) (s : State) :
    (writeSlot c k x s).rings = s.rings.set c (s.rings[c].write k x) := by
  unfold writeSlot triggerStrobe
  exact gatherReport_rings _ _

/-- The Trigger Engine processes the value of the written slot, of its channel alone (R61, R67). -/
theorem writeSlot_chn (c : Chan) (k : Nat) (x : Slot) (s : State) (h : s.canonical) :
    (writeSlot c k x s).chn = s.chn.set c { (s.chn[c].strobe s.sch.rate x.value).chan with last := some k } := by
  unfold writeSlot triggerStrobe
  rw [gatherReport_chn]
  have e : ((s.rings.set c (s.rings[c].write k x))[c]).slot k = x := by
    rw [Fin.getElem_fin, Vector.getElem_set_self]
    exact find_put (fun _ => Slot.blank) _ _ none _ (h.1 c)
  simp only [setChan]
  rw [e]

/-- A slot just written reads back, and the others of its ring stay (R59). -/
theorem write_slot (r : Ring) (k : Nat) (x : Slot) (h : Sparse.wf (fun _ => Slot.blank) r.slots = true) :
    (r.write k x).slot k = x ∧ ∀ m, m % 4096 ≠ k % 4096 → (r.write k x).slot m = r.slot m :=
  ⟨find_put (fun _ => Slot.blank) _ _ none _ h, fun m mem_allChans => find_put_ne _ _ _ (k % 4096) (m % 4096) _ mem_allChans⟩

theorem writeGap_canonical (c : Chan) (k : Nat) (s : State) (h : s.canonical) : (writeGap c k s).canonical := by
  refine ⟨(writeGap_does c k s).rings h.1, ?_⟩
  rw [show (writeGap c k s).params = s.params from (writeGap_does c k s).frame .params (by decide)]
  exact h.2

/-! ### Gaps over the channels -/

/-- The gap that strobe k puts into a ring (R59). -/
abbrev gapSlot (r : Ring) (k : Nat) : Slot := ⟨r.previous k, true, false⟩

/-- Gaps for strobe k, one after the other, for those channels of a list that meet a condition which no gap changes: each such
ring and channel takes its own gap, the others stay (R59, R60, R67). -/
theorem gapFold (q : State → Chan → Prop) [∀ s c, Decidable (q s c)] (k : Nat)
    (hq : ∀ s c d, q (writeGap d k s) c ↔ q s c) (l : List Chan) (s : State) (hn : l.Nodup) (h : s.canonical) (c : Chan) :
    let t := l.foldl (fun s c => if q s c then writeGap c k s else s) s
    t.rings[c] = (if c ∈ l ∧ q s c then s.rings[c].write k (gapSlot s.rings[c] k) else s.rings[c])
    ∧ t.chn[c] = (if c ∈ l ∧ q s c then
        { (s.chn[c].strobe s.sch.rate (gapSlot s.rings[c] k).value).chan with last := some k } else s.chn[c]) := by
  induction l generalizing s with
  | nil => simp
  | cons d r ih =>
    obtain ⟨hd, hr⟩ := List.nodup_cons.mp hn
    dsimp only [List.foldl_cons]
    by_cases hqd : q s d
    · rw [if_pos hqd]
      obtain ⟨i1, i2⟩ := ih (writeGap d k s) hr (writeGap_canonical d k s h)
      have er : (writeGap d k s).rings = s.rings.set d (s.rings[d].write k (gapSlot s.rings[d] k)) := writeSlot_rings d k _ s
      have ec : (writeGap d k s).chn = _ := writeSlot_chn d k (gapSlot s.rings[d] k) s h
      have es : (writeGap d k s).sch.rate = s.sch.rate := ((writeGap_does d k s).frame .strobes (by decide)).2.2.2.2.1
      dsimp only at i1 i2
      rw [i1, i2]
      simp only [hq, er, ec, es, Fin.getElem_fin]
      by_cases hcd : c = d
      · subst hcd; simp [hd, hqd]
      · have hv : d.val ≠ c.val := fun e => hcd (Fin.ext e.symm)
        simp [Vector.getElem_set_ne _ _ hv, hcd]
    · rw [if_neg hqd]
      obtain ⟨i1, i2⟩ := ih s hr h
      dsimp only at i1 i2
      rw [i1, i2]
      by_cases hcd : c = d
      · subst hcd; simp [hd, hqd]
      · simp [hcd]

/-! ### Windows that close (R45) -/

/-- What a missing outcome leaves of a port (R45, R50 to R52). -/
abbrev missedPort (x : Port) : Port := { x.take false false with last := some .missing, window := none, transfer := none }

theorem closeWindow_prt (p : PortId) (s : State) :
    (closeWindow p s).prt = if s.prt[p].window = none then s.prt else s.prt.set p (missedPort s.prt[p]) := by
  unfold closeWindow
  split
  · rename_i h; rw [if_pos h]
  · rename_i k h
    rw [if_neg (by rw [h]; simp)]
    unfold decideOutcome
    have a (t : State) : (writePortSlots p k none t).prt = t.prt := (writePortSlots_does p k none t).frame .prt (by decide)
    have b (t : State) : (linkChanged p t).prt = t.prt := by
      unfold linkChanged
      exact ((refreshPort_does p _).frame .prt (by decide)).trans ((reportPort_does p t).frame .prt (by decide))
    have c : (reportOutcome p .missing s).prt = s.prt := (reportOutcome_does p .missing s).frame .prt (by decide)
    rw [a, b]
    simp only [setPort, c]
    rfl

theorem closeWindow_port (p q : PortId) (s : State) : (closeWindow p s).prt[q] =
    if q = p ∧ s.prt[q].window ≠ none then missedPort s.prt[q] else s.prt[q] := by
  rw [closeWindow_prt]
  by_cases h : s.prt[p].window = none
  · rw [if_pos h, if_neg (by rintro ⟨rfl, k⟩; exact k h)]
  · rw [if_neg h]
    by_cases e : q = p
    · subst e; rw [if_pos ⟨rfl, h⟩]; simp
    · rw [if_neg fun k => e k.1]
      have : p.val ≠ q.val := fun x => e (Fin.ext x.symm)
      simp [Vector.getElem_set_ne _ _ this]

/-- The port after both windows have closed. -/
theorem closeWindows_port (s : State) (q : PortId) :
    (closeWindows s).prt[q] = if s.prt[q].window = none then s.prt[q] else missedPort s.prt[q] := by
  unfold closeWindows
  rw [closeWindow_port 1, closeWindow_port 0]
  generalize s.prt[q] = x
  have h : q = 0 ∨ q = 1 := by revert q; decide
  by_cases w : x.window = none
  · have e : (if q = 0 ∧ x.window ≠ none then missedPort x else x) = x := if_neg fun k => k.2 w
    rw [e, if_neg (fun k => k.2 w), if_pos w]
  · rcases h with rfl | rfl <;> simp [w]

/-- A link is OFF after a missing outcome just where it was. -/
theorem take_off (x : Port) : (x.take false false).link = .off ↔ x.link = .off := by
  unfold Port.take Port.goDown
  cases h : x.link <;> simp [h]
  split <;> simp

theorem closeWindows_off (s : State) (q : PortId) : (closeWindows s).prt[q].link = .off ↔ s.prt[q].link = .off := by
  rw [closeWindows_port]
  split
  · rfl
  · exact take_off _

/-- No window open: nothing closes. -/
theorem closeWindows_none (s : State) (h : ∀ q : PortId, s.prt[q].window = none) : closeWindows s = s := by
  unfold closeWindows closeWindow
  rw [h 0]
  dsimp only
  rw [h 1]

theorem canonical_of_does {L : List Part} {s t : State} (d : Does L s t) (hp : Part.params ∉ L) (h : s.canonical) : t.canonical :=
  ⟨d.rings h.1, by rw [show t.params = s.params from d.frame .params hp]; exact h.2⟩

theorem sourcePort_of_does {L : List Part} {s t : State} (d : Does L s t) (hp : Machine.Part.map ∉ L) (c : Chan) :
    t.sourcePort c = s.sourcePort c := by
  unfold State.sourcePort
  rw [show t.map = s.map from d.frame .map hp]

/-- The channels of a port whose window closes take a gap for its strobe (R59, R60). -/
theorem closeWindow_ring (p : PortId) (s : State) (h : s.canonical) (c : Chan) :
    (closeWindow p s).rings[c] = if s.sourcePort c = some p then
        (match s.prt[p].window with
          | none => s.rings[c]
          | some k => s.rings[c].write k (gapSlot s.rings[c] k))
      else s.rings[c] := by
  unfold closeWindow
  split
  · rename_i hk; rw [hk]; exact (ite_self _).symm
  · rename_i k hk
    rw [hk]
    unfold decideOutcome writePortSlots writePortGaps
    dsimp only
    generalize he : linkChanged p _ = u
    have d : Does portParts s u := by
      rw [← he]
      exact Does.trans (Does.mono (reportOutcome_does p .missing s) (by decide)) (setLink_does p _ _)
    have er : u.rings = s.rings := by
      rw [← he]
      exact ((setLinkOnly_does p _ _).frame .rings (by decide)).trans ((reportOutcome_does p .missing s).frame .rings (by decide))
    have f := (gapFold (fun s c => s.sourcePort c = some p) k
      (fun s c d => by rw [sourcePort_of_does (writeGap_does d k s) (by decide)]) allChans u (by decide)
      (canonical_of_does d (by decide) h) c).1
    rw [f]
    simp only [mem_allChans, true_and, sourcePort_of_does d (by decide), er]

/-- The rings after both windows have closed: a gap for every channel of a port whose window was open. -/
theorem closeWindows_ring (s : State) (h : s.canonical) (c : Chan) :
    (closeWindows s).rings[c] = match s.sourcePort c with
      | none => s.rings[c]
      | some p => match s.prt[p].window with
        | none => s.rings[c]
        | some k => s.rings[c].write k (gapSlot s.rings[c] k) := by
  unfold closeWindows
  rw [closeWindow_ring 1 _ (canonical_of_does (closeWindow_does 0 s) (by decide) h) c,
    sourcePort_of_does (closeWindow_does 0 s) (by decide), closeWindow_ring 0 s h c]
  have ew : (closeWindow 0 s).prt[(1 : PortId)] = s.prt[(1 : PortId)] := by
    rw [closeWindow_port 0 1]; exact if_neg fun k => absurd k.1 (by decide)
  rw [ew]
  cases e : s.sourcePort c with
  | none => rfl
  | some p => match p with
    | 0 => rfl
    | 1 => rfl

/-! ### The channels that no port decides (R60) -/

theorem unsourced_iff (s : State) (c : Chan) :
    s.unsourced c = true ↔ ∀ q : PortId, s.sourcePort c = some q → s.prt[q].link = .off := by
  unfold State.unsourced
  cases s.sourcePort c <;> simp

theorem unsourced_writeGap (s : State) (c d : Chan) (k : Nat) : (writeGap d k s).unsourced c = s.unsourced c := by
  unfold State.unsourced
  rw [sourcePort_of_does (writeGap_does d k s) (by decide),
    show (writeGap d k s).prt = s.prt from (writeGap_does d k s).frame .prt (by decide)]

/-- The ring and the channel of each channel after the gaps of a strobe that no port decides. -/
theorem writeUnsourced_chan (k : Nat) (s : State) (h : s.canonical) (c : Chan) :
    (writeUnsourced k s).rings[c] = (if s.unsourced c = true then s.rings[c].write k (gapSlot s.rings[c] k) else s.rings[c])
    ∧ (writeUnsourced k s).chn[c] = (if s.unsourced c = true then
        { (s.chn[c].strobe s.sch.rate (gapSlot s.rings[c] k).value).chan with last := some k } else s.chn[c]) := by
  have f := gapFold (fun s c => s.unsourced c = true) k (fun s c d => by rw [unsourced_writeGap]) allChans s (by decide) h c
  simp only [mem_allChans, true_and] at f
  exact f

/-! ### The reports of a strobe whose note stands alone (R87) -/

/-- A vote leaves the notes and reports of the other strobes, and its strobe as the last voted. -/
theorem vote_gathers (k : Note) (s : State) : (vote k s).evt.lastVoted = some k
    ∧ (vote k s).evt.notes = s.evt.notes.filter (fun n => n.strobe != k.strobe)
    ∧ (vote k s).evt.reports = s.evt.reports.filter (fun r => r.strobe != k.strobe) := by
  unfold vote
  have h := moveEvent_gathering k
  exact ⟨rfl, congrArg (List.filter _) (h _ _ _).notes, congrArg (List.filter _) (h _ _ _).reports⟩

/-- A report that is not the sixth waits. -/
theorem gatherReport_waits (r : Report) (k : Note) (s : State) (hn : s.evt.notes = [k]) (hr : r.strobe = k.strobe)
    (hl : s.evt.reports.length < 5) :
    gatherReport r s = { s with evt := { s.evt with reports := s.evt.reports ++ [r] } } := by
  have hf : ((s.evt.reports ++ [r]).filter fun x => x.strobe == k.strobe).length < 6 :=
    Nat.lt_of_le_of_lt (List.length_filter_le _ _) (by simp; omega)
  have ht : tryVote { s with evt := { s.evt with reports := s.evt.reports ++ [r] } }
      = { s with evt := { s.evt with reports := s.evt.reports ++ [r] } } := by
    unfold tryVote
    simp only [hn]
    rw [if_neg (by omega)]
  unfold gatherReport
  rw [if_pos (by rw [hn]; simp [hr]), ht, ht]

/-- The sixth report brings the vote, which leaves nothing to gather. -/
theorem gatherReport_votes (r : Report) (k : Note) (s : State) (hn : s.evt.notes = [k]) (hr : r.strobe = k.strobe)
    (hs : ∀ x ∈ s.evt.reports, x.strobe = k.strobe) (hl : s.evt.reports.length = 5) :
    (gatherReport r s).evt.notes = [] ∧ (gatherReport r s).evt.reports = [] ∧ (gatherReport r s).evt.lastVoted = some k := by
  have hall : ∀ x ∈ s.evt.reports ++ [r], x.strobe = k.strobe := fun x hx => by
    rcases List.mem_append.mp hx with h | h
    · exact hs x h
    · rw [List.mem_singleton.mp h]; exact hr
  have hf : (s.evt.reports ++ [r]).filter (fun x => x.strobe == k.strobe) = s.evt.reports ++ [r] :=
    List.filter_eq_self.mpr fun x hx => by simpa using hall x hx
  have hg : (s.evt.reports ++ [r]).filter (fun x => x.strobe != k.strobe) = [] :=
    List.filter_eq_nil_iff.mpr fun x hx => by simpa using hall x hx
  unfold gatherReport
  rw [if_pos (by rw [hn]; simp [hr])]
  generalize hu : ({ s with evt := { s.evt with reports := s.evt.reports ++ [r] } } : State) = u
  have en : u.evt.notes = [k] := by rw [← hu]; exact hn
  have er : u.evt.reports = s.evt.reports ++ [r] := by rw [← hu]
  have ht : tryVote u = vote k u := by
    unfold tryVote
    rw [en]
    dsimp only
    rw [er, hf, if_pos (by simp; omega)]
  obtain ⟨v1, v2, v3⟩ := vote_gathers k u
  rw [en] at v2
  rw [er, hg] at v3
  have v2 : (vote k u).evt.notes = [] := by simpa using v2
  have ht2 : tryVote (vote k u) = vote k u := by
    unfold tryVote
    rw [v2]
  rw [ht, ht2]
  exact ⟨v2, v3, v1⟩

/-- A gap is reported for its strobe with its gap flag. -/
theorem writeGap_report (c : Chan) (k : Nat) (s : State) (h : s.canonical) : ∃ r u, writeGap c k s = gatherReport r u
    ∧ u.evt = s.evt ∧ r.chan = c ∧ r.strobe = k ∧ r.gap = true := by
  refine ⟨_, _, rfl, rfl, rfl, rfl, ?_⟩
  have e : (s.rings.set c (s.rings[c].write k (gapSlot s.rings[c] k)))[c].slot k = gapSlot s.rings[c] k := by
    rw [Fin.getElem_fin, Vector.getElem_set_self]
    exact (write_slot _ k _ (h.1 c)).1
  exact congrArg Slot.gap e

/-- The gaps of strobe k for those channels of a list that no port decides. -/
abbrev unsourcedGaps (k : Nat) (l : List Chan) (s : State) : State :=
  l.foldl (fun s c => if s.unsourced c then writeGap c k s else s) s

theorem unsourcedGaps_concat (k : Nat) (l : List Chan) (c : Chan) (s : State) : unsourcedGaps k (l ++ [c]) s =
    if (unsourcedGaps k l s).unsourced c then writeGap c k (unsourcedGaps k l s) else unsourcedGaps k l s := by
  unfold unsourcedGaps
  rw [List.foldl_append, List.foldl_cons, List.foldl_nil]

theorem unsourcedGaps_unsourced (k : Nat) (l : List Chan) (s : State) (c : Chan) :
    (unsourcedGaps k l s).unsourced c = s.unsourced c := by
  unfold unsourcedGaps
  induction l generalizing s with
  | nil => rfl
  | cons d l ih =>
    rw [List.foldl_cons, ih]
    split
    · exact unsourced_writeGap s c d k
    · rfl

/-- While fewer than six reports are in, the gaps of the strobe noted alone are gathered in channel order. -/
theorem unsourcedGaps_gather (k : Note) (l : List Chan) (s : State) (h : s.canonical) (hn : s.evt.notes = [k])
    (hl : s.evt.reports.length + (l.filter s.unsourced).length ≤ 5) :
    (unsourcedGaps k.strobe l s).canonical ∧ (unsourcedGaps k.strobe l s).evt.notes = [k]
    ∧ ∃ rs, (unsourcedGaps k.strobe l s).evt.reports = s.evt.reports ++ rs ∧ rs.map Report.chan = l.filter s.unsourced
      ∧ ∀ r ∈ rs, r.strobe = k.strobe ∧ r.gap = true := by
  induction l generalizing s with
  | nil => exact ⟨h, hn, [], by simp, rfl, by simp⟩
  | cons c l ih =>
    unfold unsourcedGaps
    rw [List.foldl_cons]
    by_cases hc : s.unsourced c = true
    · rw [if_pos hc]
      rw [List.filter_cons_of_pos hc] at hl ⊢
      obtain ⟨r, u, e, eu, r1, r2, r3⟩ := writeGap_report c k.strobe s h
      have hlt : u.evt.reports.length < 5 := by rw [eu]; simp at hl; omega
      rw [gatherReport_waits r k u (by rw [eu]; exact hn) r2 hlt] at e
      have en : (writeGap c k.strobe s).evt.notes = [k] := by rw [e]; show u.evt.notes = _; rw [eu]; exact hn
      have er : (writeGap c k.strobe s).evt.reports = s.evt.reports ++ [r] := by rw [e]; show u.evt.reports ++ _ = _; rw [eu]
      have eq : (writeGap c k.strobe s).unsourced = s.unsourced := funext fun d => unsourced_writeGap s d c k.strobe
      obtain ⟨i0, i1, rs, i2, i3, i4⟩ := ih (writeGap c k.strobe s) (writeGap_canonical c _ s h) en
        (by rw [er, eq]; simp at hl ⊢; omega)
      rw [eq] at i3
      refine ⟨i0, i1, r :: rs, by rw [i2, er]; simp, by simp [r1, i3], fun x hx => ?_⟩
      rcases List.mem_cons.mp hx with rfl | hx
      · exact ⟨r2, r3⟩
      · exact i4 x hx
    · rw [if_neg hc]
      rw [List.filter_cons_of_neg hc] at hl ⊢
      exact ih s h hn hl

/-- The reports of a strobe noted alone as it is issued: those of the channels that no port decides wait for the others; where that
is all six, the vote is taken at once (R60, R66, R87). -/
theorem writeUnsourced_reports (n : Nat) (x : Stamp) (s : State) (h : s.canonical) (hn : s.evt.notes = [⟨n, x⟩])
    (hr : s.evt.reports = []) :
    ((∃ c, s.unsourced c = false) → (writeUnsourced n s).evt.notes = [⟨n, x⟩]
      ∧ (writeUnsourced n s).evt.reports.map Report.chan = allChans.filter s.unsourced
      ∧ ∀ r ∈ (writeUnsourced n s).evt.reports, r.strobe = n ∧ r.gap = true)
    ∧ ((∀ c, s.unsourced c = true) → (writeUnsourced n s).evt.notes = []
      ∧ (writeUnsourced n s).evt.reports = [] ∧ (writeUnsourced n s).evt.lastVoted = some ⟨n, x⟩) := by
  have e : writeUnsourced n s = unsourcedGaps n allChans s := rfl
  refine ⟨fun ⟨c, hc⟩ => ?_, fun ha => ?_⟩
  · have hlt : (allChans.filter s.unsourced).length < 6 :=
      List.length_filter_lt_length_iff_exists.mpr ⟨c, mem_allChans c, by simp [hc]⟩
    obtain ⟨-, i1, rs, i2, i3, i4⟩ := unsourcedGaps_gather ⟨n, x⟩ allChans s h hn (by rw [hr, List.length_nil]; omega)
    rw [hr, List.nil_append] at i2
    rw [e, i2]
    exact ⟨i1, i3, i4⟩
  · have hf : (([0, 1, 2, 3, 4] : List Chan).filter s.unsourced).length = 5 := by simp [ha]
    obtain ⟨i0, i1, rs, i2, i3, i4⟩ := unsourcedGaps_gather ⟨n, x⟩ [0, 1, 2, 3, 4] s h hn (by rw [hr, hf]; exact Nat.le_refl 5)
    have h5 := unsourcedGaps_unsourced n [0, 1, 2, 3, 4] s 5
    have hl : rs.length = 5 := by rw [← hf, ← i3, List.length_map]
    rw [e, show allChans = [0, 1, 2, 3, 4] ++ [5] from rfl, unsourcedGaps_concat]
    generalize unsourcedGaps n [0, 1, 2, 3, 4] s = u at *
    rw [if_pos (h5.trans (ha 5))]
    obtain ⟨r, v, ev, eu, r1, r2, r3⟩ := writeGap_report 5 n u i0
    rw [hr, List.nil_append] at i2
    rw [ev]
    exact gatherReport_votes r ⟨n, x⟩ v (by rw [eu]; exact i1) r2 (by rw [eu, i2]; exact fun x hx => (i4 x hx).1)
      (by rw [eu, i2]; exact hl)

/-! ### A strobe issued -/

/-- What a new strobe makes of a port (R45). -/
abbrev openedPort (k : Nat) (x : Port) : Port := if x.link = .off then x else { x with window := some k, transfer := none }

theorem openWindow_prt (p : PortId) (k : Nat) (s : State) :
    openWindow p k s = { s with prt := s.prt.set p (openedPort k s.prt[p]) } := by
  unfold openWindow openedPort
  split
  · simp
  · rfl

/-- Both ports open their windows (R45). -/
theorem openWindows_eq (k : Nat) (s : State) : openWindow 1 k (openWindow 0 k s) =
    { s with prt := #v[openedPort k s.prt[(0 : PortId)], openedPort k s.prt[(1 : PortId)]] } := by
  rw [openWindow_prt 0, openWindow_prt 1]
  have h : ∀ x y : Vector Port 2, x[0] = y[0] → x[1] = y[1] → x = y := fun x y a b => by
    ext i hi
    match i, hi with
    | 0, _ => rw [a]
    | 1, _ => rw [b]
  congr 1
  exact h _ _ (by simp) (by simp)

/-- A strobe as it is issued: the windows have closed, the number, the note and the new windows stand, and the slots that no port
decides follow (R34, R45, R60, R87). -/
theorem issueStrobe_eq (tick : Nat) (s : State) :
    let v := closeWindows s
    issueStrobe tick s = writeUnsourced v.sch.next { v with
      prt := #v[openedPort v.sch.next v.prt[(0 : PortId)], openedPort v.sch.next v.prt[(1 : PortId)]]
      evt := { v.evt with notes := v.evt.notes ++ [⟨v.sch.next, v.stamp⟩] }
      sch := (numberStrobe tick v).sch } := by
  intro v
  unfold issueStrobe
  dsimp only
  rw [openWindows_eq]
  rfl

/-! ### What an operation over the six channels makes of one of them -/

/-- An operation taken channel by channel, each leaving what is seen of the others: the one of channel c meets that view unchanged,
and those after it leave what it made. -/
theorem fold_own {α : Type} (view : State → Chan → α) (f : State → Chan → State)
    (h : ∀ s c d, d ≠ c → view (f s d) c = view s c) (l : List Chan) (hn : l.Nodup) (c : Chan) (hc : c ∈ l) (s : State) :
    ∃ u, view u c = view s c ∧ view (l.foldl f s) c = view (f u c) c := by
  induction l generalizing s with
  | nil => cases hc
  | cons d l ih =>
    obtain ⟨hd, hl⟩ := List.nodup_cons.mp hn
    rw [List.foldl_cons]
    rcases List.mem_cons.mp hc with rfl | hc
    · refine ⟨s, rfl, ?_⟩
      have : ∀ (r : List Chan) (x : State), c ∉ r → view (r.foldl f x) c = view x c := by
        intro r
        induction r with
        | nil => intro x _; rfl
        | cons e r ih =>
          intro x hx
          rw [List.foldl_cons, ih _ fun k => hx (List.mem_cons_of_mem _ k), h x c e fun k => hx (by rw [k]; exact List.mem_cons_self)]
      exact this l _ hd
    · obtain ⟨u, hu, e⟩ := ih hl hc (f s d)
      exact ⟨u, hu.trans (h s c d fun k => hd (by rw [k]; exact hc)), e⟩

theorem clearRing_ring (s : State) (c d : Chan) :
    (clearRing d s).rings[c] = if d = c then s.rings[c].clear s.sch.next else s.rings[c] := by
  unfold clearRing
  by_cases h : d = c
  · subst h; simp
  · have : d.val ≠ c.val := fun e => h (Fin.ext e)
    simp [Vector.getElem_set_ne _ _ this, h]

/-- R63: all six rings cleared. -/
theorem clearRings_ring (s : State) (c : Chan) :
    (allChans.foldl (fun s c => clearRing c s) s).rings[c] = s.rings[c].clear s.sch.next := by
  obtain ⟨u, hu, e⟩ := fold_own (fun s c => (s.rings[c], s.sch.next)) (fun s c => clearRing c s)
    (fun s c d h => by rw [clearRing_ring, if_neg h]; rfl) allChans allChans_nodup c (mem_allChans c) s
  have e := congrArg Prod.fst e
  have h1 := congrArg Prod.fst hu
  have h2 := congrArg Prod.snd hu
  dsimp only at e h1 h2
  rw [e, clearRing_ring, if_pos rfl, h1, h2]

theorem setSignal_chan (s : State) (c d : Chan) (x : Channel) :
    (signalState d (setChan d x s)).chn[c] = if d = c then x else s.chn[c] := by
  rw [show (signalState d (setChan d x s)).chn = s.chn.set d x from (signalState_does d _).frame .chn (by decide)]
  by_cases h : d = c
  · subst h; simp
  · have : d.val ≠ c.val := fun e => h (Fin.ext e)
    simp [Vector.getElem_set_ne _ _ this, h]

theorem setChan_chan (s : State) (c d : Chan) (x : Channel) : (setChan d x s).chn[c] = if d = c then x else s.chn[c] := by
  by_cases h : d = c
  · subst h; simp [setChan]
  · have : d.val ≠ c.val := fun e => h (Fin.ext e)
    simp [setChan, Vector.getElem_set_ne _ _ this, h]

theorem restartChan_chan (s : State) (c d : Chan) :
    (restartChan d s).chn[c] = if d = c then s.chn[c].restart (s.chanEligible c) else s.chn[c] := by
  unfold restartChan
  rw [setSignal_chan]
  by_cases h : d = c
  · subst h; rfl
  · rw [if_neg h, if_neg h]

/-- R80: what a restart leaves of a channel, whatever its link. -/
theorem restart_zero (x : Channel) (b : Bool) : (x.restart b).sta = 0 ∧ (x.restart b).lta = 0 ∧ (x.restart b).warmup = 0
    ∧ (x.restart b).warmed = false ∧ (x.restart b).supp = x.supp := ⟨rfl, rfl, rfl, rfl, rfl⟩

/-- R80: all six channels restarted. -/
theorem restartAll_chan (s : State) (c : Chan) : ∃ b, (restartAll s).chn[c] = s.chn[c].restart b := by
  obtain ⟨u, hu, e⟩ := fold_own (fun s c => s.chn[c]) (fun s c => restartChan c s)
    (fun s c d h => by rw [restartChan_chan, if_neg h]) allChans allChans_nodup c (mem_allChans c) s
  refine ⟨u.chanEligible c, ?_⟩
  unfold restartAll
  rw [e, restartChan_chan, if_pos rfl, hu]

theorem suppressOff_other (s : State) (c d : Chan) (h : d ≠ c) : (suppressOff d s).chn[c] = s.chn[c] := by
  unfold suppressOff
  dsimp only
  split
  · split
    · rw [setSignal_chan, if_neg h]
    · rw [restartChan_chan, if_neg h, setChan_chan, if_neg h]
  · rw [setChan_chan, if_neg h]

theorem suppressOff_supp (s : State) (c : Chan) : (suppressOff c s).chn[c].supp = false := by
  unfold suppressOff
  dsimp only
  split
  · split
    · rw [setSignal_chan, if_pos rfl]
    · rw [restartChan_chan, if_pos rfl, setChan_chan, if_pos rfl]; rfl
  · rw [setChan_chan, if_pos rfl]

theorem resuppressChan_other (s : State) (c d : Chan) (h : d ≠ c) : (resuppressChan d s).chn[c] = s.chn[c] := by
  unfold resuppressChan suppressOn
  repeat' split
  · rfl
  · rw [setSignal_chan, if_neg h]
  · exact suppressOff_other s c d h
  · rfl

/-- R41: the mark of a channel follows the windows once it has been recomputed. -/
theorem resuppressChan_supp (s : State) (c : Chan) : (resuppressChan c s).chn[c].supp = s.suppressed c := by
  have on : (suppressOn c s).chn[c].supp = true := by
    unfold suppressOn
    rw [setSignal_chan, if_pos rfl]
    unfold Channel.suppress
    split <;> rfl
  have off := suppressOff_supp s c
  unfold resuppressChan
  cases hs : s.suppressed c <;> cases hx : s.chn[c].supp <;> simp_all

/-- R41: every mark follows the windows. -/
theorem resuppress_supp (s : State) (c : Chan) : (resuppress s).chn[c].supp = s.suppressed c := by
  have keep (s : State) (d : Chan) : (resuppressChan d s).suppressed c = s.suppressed c := by
    unfold State.suppressed
    have k := resuppressChan_does d s
    rw [sourcePort_of_does k (by decide), show (resuppressChan d s).sch = s.sch from k.frame .sch (by decide)]
  obtain ⟨u, hu, e⟩ := fold_own (fun s d => (s.chn[d], s.suppressed c)) (fun s d => resuppressChan d s)
    (fun s x d h => by rw [resuppressChan_other s x d h, keep]) allChans allChans_nodup c (mem_allChans c) s
  have e := congrArg Prod.fst e
  have h2 := congrArg Prod.snd hu
  dsimp only at e h2
  unfold resuppress
  rw [e, resuppressChan_supp, h2]

/-- R57, R63, R80: a channel that the map put in force has changed has its ring cleared and starts again; the others stay. -/
theorem applyChange_chan (m : ChanMap) (s : State) (c d : Chan) :
    ∃ b, (applyChange m d s).rings[c] = (if d = c ∧ m.changed s.map c = true then s.rings[c].clear s.sch.next else s.rings[c])
      ∧ (applyChange m d s).chn[c] = (if d = c ∧ m.changed s.map c = true then s.chn[c].restart b else s.chn[c]) := by
  refine ⟨(clearRing c s).chanEligible c, ?_⟩
  unfold applyChange
  have hr : (restartChan d (clearRing d s)).rings = (clearRing d s).rings := (restartChan_does d _).frame .rings (by decide)
  by_cases h : d = c
  · subst h
    by_cases k : m.changed s.map d = true
    · rw [if_pos k, hr, clearRing_ring, restartChan_chan]
      simp [k, clearRing]
    · simp [k]
  · by_cases k : m.changed s.map d = true
    · rw [if_pos k, hr, clearRing_ring, restartChan_chan]
      simp [h, clearRing]
    · rw [if_neg k]; simp [h]

/-- The six channels after a map has been put in force over map `m`. -/
theorem applyChanges_chan (m : ChanMap) (s : State) (c : Chan) :
    ∃ b, (allChans.foldl (fun t c => applyChange m c t) s).rings[c]
        = (if m.changed s.map c = true then s.rings[c].clear s.sch.next else s.rings[c])
      ∧ (allChans.foldl (fun t c => applyChange m c t) s).chn[c] = (if m.changed s.map c = true then s.chn[c].restart b else s.chn[c]) := by
  have keep (s : State) (d : Chan) : (applyChange m d s).map = s.map ∧ (applyChange m d s).sch.next = s.sch.next :=
    ⟨(applyChange_does m d s).frame .map (by decide), ((applyChange_does m d s).frame .strobes (by decide)).1⟩
  obtain ⟨u, hu, e⟩ := fold_own (fun s c => (s.rings[c], s.chn[c], s.map, s.sch.next)) (fun s c => applyChange m c s)
    (fun s x d h => by
      obtain ⟨b, h1, h2⟩ := applyChange_chan m s x d
      rw [h1, h2, (keep s d).1, (keep s d).2, if_neg fun k => h k.1, if_neg fun k => h k.1]) allChans allChans_nodup c (mem_allChans c) s
  obtain ⟨b, h1, h2⟩ := applyChange_chan m u c c
  have e1 := congrArg Prod.fst e
  have e2 := congrArg (fun x => x.2.1) e
  have u1 := congrArg Prod.fst hu
  have u2 := congrArg (fun x => x.2.1) hu
  have u3 := congrArg (fun x => x.2.2.1) hu
  have u4 := congrArg (fun x => x.2.2.2) hu
  dsimp only at e1 e2 u1 u2 u3 u4
  refine ⟨b, ?_, ?_⟩
  · rw [e1, h1, u1, u3, u4]; simp
  · rw [e2, h2, u2, u3]; simp

end Sys2Proof.Laws
end

