-- ==== Sys2Proof/Laws/Supplies.lean ====
section
/-! SUPPORT. What the class and the power state move in the blocks that read them: the two digitizer supplies, the calibration
they cut short, and the scheduler as votes leave it. -/
namespace Sys2Proof.Laws

open Sys2Proof Sys2Proof.Machine

/-! ### A relation kept through every slot that is written -/

/-- R holds between a state and what each of the operations of a written slot and of the votes it completes makes of it, so that it
holds for the slot as a whole. -/
structure UnderVotes (R : State → State → Prop) : Prop where
  refl : ∀ s, R s s
  trans : ∀ {s t u}, R s t → R t u → R s u
  evt : ∀ (s : State) (x : Events), R s { s with evt := x }
  moment : ∀ (s : State) (x : Moment), R s { s with moment := x }
  rings : ∀ (s : State) (x : Vector Ring 6), R s { s with rings := x }
  chn : ∀ (s : State) (x : Vector Channel 6), R s { s with chn := x }
  settle : ∀ s, R s (startSettle s)
  holdStart : ∀ s, R s (heaterHoldStart s)
  holdEnd : ∀ s, R s (heaterHoldEnd s)
  chargeStart : ∀ s, R s (chargeHoldStart s)
  chargeEnd : ∀ s, R s (chargeHoldEnd s)
  openAlert : ∀ r s, R s (openAlert r s)
  closeAlert : ∀ r s, R s (closeAlert r s)
  lost : ∀ s, R s (lostOccurrence s)
  wake : ∀ s, R s (wakeEval s)

namespace UnderVotes

variable {R : State → State → Prop}

theorem ite (_ : UnderVotes R) {s t u : State} (c : Prop) [Decidable c] (a : R s t) (b : R s u) : R s (if c then t else u) := by
  split <;> assumption

variable (h : UnderVotes R)
include h

theorem fold {α : Type} (f : State → α → State) (k : ∀ s a, R s (f s a)) (l : List α) (s : State) : R s (l.foldl f s) := by
  induction l generalizing s with
  | nil => exact h.refl s
  | cons a r ih => exact h.trans (k s a) (ih _)

theorem fileRecord (r : EvRecord) (s : State) : R s (fileRecord r s) := by
  have key (u : State) : R u (eventWakeEval { u with evt := { u.evt with list := u.evt.list ++ [r] } }) :=
    h.trans (h.trans (h.evt u _) (h.evt _ _)) (h.wake _)
  unfold Machine.fileRecord
  dsimp only
  split
  · exact key s
  · exact h.trans (h.trans (h.evt s _) (h.lost _)) (key _)

theorem closeRecord (f : EvFlags → EvFlags) (k : Nat) (x : Stamp) (a : EvState) (s : State) : R s (closeRecord f k x a s) := by
  unfold Machine.closeRecord
  split
  · exact h.evt s _
  · unfold signalClose
    refine h.trans ?_ (h.chargeEnd _)
    refine h.trans ?_ (h.holdEnd _)
    refine h.trans ?_ (h.settle _)
    refine h.trans ?_ (h.closeAlert _ _)
    exact h.trans (h.evt s _) (h.fileRecord _ _)

theorem closeBetweenVotes (f : EvFlags → EvFlags) (s : State) : R s (closeBetweenVotes f s) :=
  h.ite _ (h.closeRecord _ _ _ _ s) (h.evt s _)

theorem compareVote (k : Note) (sum : Nat) (s : State) : R s (compareVote k sum s) := by
  unfold Machine.compareVote
  split
  · exact h.ite _ (h.evt s _) (h.refl s)
  · refine h.ite _ ?_ (h.evt s _)
    exact h.ite _ (h.trans (h.evt s _) (h.closeRecord _ _ _ _ _)) (h.evt s _)
  · exact h.refl s

theorem moveEvent (k : Note) (rs : List Report) (sum : Nat) (s : State) : R s (moveEvent k rs sum s) := by
  unfold Machine.moveEvent
  split
  · split
    · exact h.refl s
    · refine h.ite _ ?_ (h.refl s)
      unfold openEvent
      refine h.trans ?_ (h.chargeStart _)
      refine h.trans ?_ (h.holdStart _)
      exact h.trans (h.evt s _) (h.openAlert _ _)
  · exact h.ite _ (h.evt s _) (h.refl s)
  · have e : R s (updateRecord rs sum s) := h.evt s _
    exact h.ite _ (h.trans e (h.closeRecord _ _ _ _ _)) (h.trans e (h.compareVote _ _ _))

theorem vote (k : Note) (s : State) : R s (vote k s) := by
  have e (x : Events) (y : Moment) (rs : List Report) (sum : Nat) : R s (Machine.moveEvent k rs sum { s with evt := x, moment := y }) :=
    h.trans (h.trans (h.evt s x) (h.moment _ y)) (h.moveEvent k rs sum _)
  exact h.trans (e _ _ _ _) (h.evt _ _)

theorem tryVote (s : State) : R s (tryVote s) := by
  unfold Machine.tryVote
  split
  · exact h.refl s
  · exact h.ite _ (h.vote _ s) (h.refl s)

theorem gatherReport (r : Report) (s : State) : R s (gatherReport r s) :=
  h.ite _ (h.trans (h.evt s _) (h.trans (h.tryVote _) (h.tryVote _))) (h.refl s)

theorem writeSlot (c : Chan) (k : Nat) (x : Slot) (s : State) : R s (writeSlot c k x s) := by
  unfold Machine.writeSlot triggerStrobe setChan
  refine h.trans ?_ (h.gatherReport _ _)
  exact h.trans (h.trans (h.rings s _) (h.moment _ _)) (h.chn _ _)

theorem writePortGaps (p : PortId) (k : Nat) (s : State) : R s (writePortGaps p k s) :=
  h.fold (fun s c => if s.sourcePort c = some p then writeGap c k s else s) (fun s _ => h.ite _ (h.writeSlot _ _ _ s) (h.refl s)) _ s

theorem closeStopped (p : PortId) (old : Port) (s : State) : R s (closeStopped p old s) := by
  unfold Machine.closeStopped
  refine h.ite _ ?_ (h.refl s)
  split
  · exact h.refl s
  · exact h.writePortGaps p _ s

end UnderVotes

/-- Of the scheduler only the event settle timer has moved (R39), and the heater has neither entered nor left SHUTDOWN or OFF
(R170). -/
structure KeepsRuns (s t : State) : Prop where
  sch : ∃ e : Option Nat, t.sch = { s.sch with settleEnd := e }
  shutdown : t.htr.state = .shutdown ↔ s.htr.state = .shutdown
  off : t.htr.state = .off ↔ s.htr.state = .off

theorem KeepsRuns.refl (s : State) : KeepsRuns s s := ⟨⟨s.sch.settleEnd, rfl⟩, .rfl, .rfl⟩

theorem KeepsRuns.trans {s t u : State} (h : KeepsRuns s t) (k : KeepsRuns t u) : KeepsRuns s u := by
  obtain ⟨a, ha⟩ := h.sch
  obtain ⟨b, hb⟩ := k.sch
  exact ⟨⟨b, by rw [hb, ha]⟩, k.shutdown.trans h.shutdown, k.off.trans h.off⟩

/-- An operation that leaves the scheduler and the heater. -/
theorem KeepsRuns.of {L : List Part} {s t : State} (h : Does L s t) (hs : Part.sch ∉ L) (hh : Part.htr ∉ L) : KeepsRuns s t := by
  have e : t.htr = s.htr := h.frame .htr hh
  exact ⟨⟨s.sch.settleEnd, h.frame .sch hs⟩, by rw [e], by rw [e]⟩

theorem keepsRuns : UnderVotes KeepsRuns where
  refl := .refl
  trans := .trans
  evt _ _ := ⟨⟨_, rfl⟩, .rfl, .rfl⟩
  moment _ _ := ⟨⟨_, rfl⟩, .rfl, .rfl⟩
  rings _ _ := ⟨⟨_, rfl⟩, .rfl, .rfl⟩
  chn _ _ := ⟨⟨_, rfl⟩, .rfl, .rfl⟩
  settle _ := ⟨⟨_, rfl⟩, .rfl, .rfl⟩
  holdStart s := by
    unfold heaterHoldStart
    split
    · refine ⟨⟨s.sch.settleEnd, rfl⟩, ?_, ?_⟩ <;> cases s.htr.state <;> simp
    · exact .refl s
  holdEnd s := by
    refine ⟨⟨s.sch.settleEnd, rfl⟩, ?_, ?_⟩ <;> cases h : s.htr.state <;> simp [heaterHoldEnd, h]
  chargeStart s := .of (chargeHoldStart_does s) (by decide) (by decide)
  chargeEnd s := .of (chargeHoldEnd_does s) (by decide) (by decide)
  openAlert r s := .of (openAlert_does r s) (by decide) (by decide)
  closeAlert r s := .of (closeAlert_does r s) (by decide) (by decide)
  lost s := .of (lostOccurrence_does s) (by decide) (by decide)
  wake s := .of (wakeEval_does s) (by decide) (by decide)

/-- Every row of the condition table but those of the two occurrence conditions is kept. -/
def KeepsConds (s t : State) : Prop := ∀ d : CondId, d.val < 16 → t.mon.conds[d] = s.mon.conds[d]

theorem KeepsConds.of {L : List Part} {s t : State} (h : Does L s t) (hm : Part.mon ∉ L) : KeepsConds s t := fun d _ => by
  rw [show t.mon = s.mon from h.frame .mon hm]

theorem keepsConds : UnderVotes KeepsConds where
  refl _ _ _ := rfl
  trans h k d hd := (k d hd).trans (h d hd)
  evt _ _ _ _ := rfl
  moment _ _ _ _ := rfl
  rings _ _ _ _ := rfl
  chn _ _ _ _ := rfl
  settle _ _ _ := rfl
  holdStart s := .of (heaterHoldStart_does s) (by decide)
  holdEnd s := .of (heaterHoldEnd_does s) (by decide)
  chargeStart s := .of (chargeHoldStart_does s) (by decide)
  chargeEnd s := .of (chargeHoldEnd_does s) (by decide)
  openAlert r s d hd := by
    unfold openAlert
    split
    · exact place_cond _ s d (by omega)
    · rfl
  closeAlert r s d hd := by
    unfold closeAlert
    split
    · split
      · rfl
      · exact place_cond _ s d (by omega)
    · rfl
  lost s d hd := by
    have e : (17 : CondId) ≠ d := fun e => by rw [← e] at hd; exact absurd hd (by decide)
    unfold lostOccurrence
    rw [statusChange_other 17 true _ d (by omega) (Ne.symm e)]
    show (setCond 17 _ s).mon.conds[d] = _
    rw [setCond_conds, if_neg e]
  wake _ _ _ := rfl

/-! ### The two supplies (R49) -/

/-- R49, R50, R53: what becomes of a port whose supply is due or not, at cycle `now`. -/
def Port.supplied (x : Port) (due : Bool) (now : Nat) : Port :=
  if due then
    if x.link = .off then { x with
      link := .starting, window := none, transfer := none, startAt := now, badRun := 0, goodRun := 0, last := none, alarm := false }
    else x
  else if x.link = .off then x
  else { x with link := .off, window := none, transfer := none, startAt := 0, badRun := 0, goodRun := 0, alarm := false }

theorem setPort_port (p q : PortId) (x : Port) (s : State) : (setPort p x s).prt[q] = if p = q then x else s.prt[q] := by
  show (s.prt.set p x)[q.val] = _
  rw [Vector.getElem_set]
  by_cases h : p = q
  · simp [h]
  · have : p.val ≠ q.val := fun e => h (Fin.ext e)
    simp [h, this]

theorem stopLink_only (p : PortId) (s : State) : Does [.prt, .box, .mon, .chn, .evt] s (stopLink p s) := setLinkOnly_does p _ s

theorem stopLink_prt (p : PortId) (s : State) : (stopLink p s).prt = s.prt.set p { s.prt[p] with
    link := .off, window := none, transfer := none, startAt := 0, badRun := 0, goodRun := 0, alarm := false } :=
  (linkChanged_does p _).frame .prt (by decide)

theorem stopLink_port (p q : PortId) (s : State) : (stopLink p s).prt[q] = if p = q then { s.prt[q] with
    link := .off, window := none, transfer := none, startAt := 0, badRun := 0, goodRun := 0, alarm := false } else s.prt[q] := by
  rw [stopLink_prt]
  by_cases h : p = q
  · subst h; simp
  · rw [if_neg h]
    exact Vector.getElem_set_ne _ _ fun e => h (Fin.ext e)

theorem switchSupply_port (p q : PortId) (s : State) : (switchSupply p s).prt[q] =
    if p = q then Port.supplied s.prt[q] (s.supplyDue p) s.osc else s.prt[q] := by
  unfold switchSupply Port.supplied
  by_cases h : p = q
  · subst h
    rw [if_pos rfl]
    split
    · split
      · rw [show (startPort p s).prt[p] = _ from setPort_port p p _ s, if_pos rfl]
      · rfl
    · split
      · rfl
      · rw [stopLink_port, if_pos rfl]
  · rw [if_neg h]
    split
    · split
      · rw [show (startPort p s).prt[q] = _ from setPort_port p q _ s, if_neg h]
      · rfl
    · split
      · rfl
      · rw [stopLink_port, if_neg h]

theorem switchSupply_due (p q : PortId) (s : State) : (switchSupply p s).supplyDue q = s.supplyDue q := by
  have d := switchSupply_does p s
  have hp : (switchSupply p s).params = s.params := d.frame .params (by decide)
  have hb := d.frame .power (by decide)
  unfold State.supplyDue State.digEnable0 State.digEnable1 State.shedD1Critical State.param
  rw [hp, hb.1, hb.2.1]

theorem closeStopped_prt (p : PortId) (old : Port) (s : State) : (closeStopped p old s).prt = s.prt := by
  unfold closeStopped
  split
  · split
    · rfl
    · exact (writePortGaps_does p _ s).frame .prt (by decide)
  · rfl

theorem evalSupply_port (p q : PortId) (s : State) : (evalSupply p s).prt[q] =
    if p = q then Port.supplied s.prt[q] (s.supplyDue p) s.osc else s.prt[q] := by
  unfold evalSupply
  rw [closeStopped_prt, switchSupply_port]

theorem evalSupplies_port (q : PortId) (s : State) :
    (evalSupplies s).prt[q] = Port.supplied s.prt[q] (s.supplyDue q) s.osc := by
  unfold evalSupplies
  rw [closeStopped_prt, closeStopped_prt, switchSupply_port, switchSupply_port, switchSupply_due,
    show (switchSupply 0 s).osc = s.osc from (switchSupply_does 0 s).frame .osc (by decide)]
  match q with
  | 0 => rfl
  | 1 => rfl

theorem switchSupply_runs (p : PortId) (s : State) : KeepsRuns s (switchSupply p s) :=
  keepsRuns.ite _ (keepsRuns.ite _ (.of (startPort_does p s) (by decide) (by decide)) (.refl s))
    (keepsRuns.ite _ (.refl s) (.of (stopLink_only p s) (by decide) (by decide)))

theorem evalSupply_runs (p : PortId) (s : State) : KeepsRuns s (evalSupply p s) :=
  (switchSupply_runs p s).trans (keepsRuns.closeStopped p _ _)

theorem evalSupplies_runs (s : State) : KeepsRuns s (evalSupplies s) :=
  (((switchSupply_runs 0 s).trans (switchSupply_runs 1 _)).trans (keepsRuns.closeStopped 0 _ _)).trans
    (keepsRuns.closeStopped 1 _ _)

/-! ### A calibration cut short (R40) -/

theorem leaveRunning_sch (c : Cal) (o : CalOutcome) (s : State) : (leaveRunning c o s).sch = { s.sch with
    cals := s.sch.cals.map fun y => if y.id = c.id then { y with outcome := o } else y
    lines := s.sch.lines.set c.sensor none
    windows := s.sch.windows.set c.sensor
      (if s.calSettle = 0 then .closed else .closing (s.osc + s.calSettle * 10000000)) } := by
  unfold leaveRunning endWindow
  rw [show ∀ u : State, (resuppress u).sch = u.sch from fun u => (resuppress_does u).frame .sch (by decide)]
  rfl

/-- The running entry is SKIPPED, its line low and its window closing or closed. -/
theorem cutCal_skips (s : State) (c : Cal) (h : s.runningCal = some c) :
    (cutCal s).sch.lines[c.sensor] = none
    ∧ (cutCal s).sch.windows[c.sensor] = (if s.calSettle = 0 then .closed else .closing (s.osc + s.calSettle * 10000000))
    ∧ ∀ y ∈ (cutCal s).sch.cals, y.id = c.id → y.outcome = .skipped := by
  unfold cutCal
  rw [h]
  dsimp only
  rw [leaveRunning_sch]
  refine ⟨by simp, by simp, fun y hy e => ?_⟩
  obtain ⟨x, -, rfl⟩ := List.mem_map.mp hy
  dsimp only at *
  split
  · rfl
  · rename_i k
    rw [if_neg k] at e
    exact absurd e k

/-! ### Channels that follow a link or their own enable (R74, R80) -/

/-- R74, R80: a channel after its eligibility has been looked at. -/
def refreshed (x : Channel) (eligible : Bool) : Channel :=
  if eligible then (if x.state = .off then x.restart true else x) else if x.state = .off then x else x.enterOff

theorem refreshed_ineligible (x : Channel) : (refreshed x false).state = .off := by
  unfold refreshed
  by_cases h : x.state = .off
  · simp [h]
  · simp [h, Channel.enterOff]

theorem refreshChan_chan (s : State) (c d : Chan) :
    (refreshChan d s).chn[c] = if d = c then refreshed s.chn[c] (s.chanEligible c) else s.chn[c] := by
  unfold refreshChan refreshed
  by_cases h : d = c
  · subst h
    rw [if_pos rfl]
    cases he : s.chanEligible d
    · by_cases ho : s.chn[d].state = .off
      · simp only [if_pos ho, Bool.false_eq_true, if_false]
      · simp only [if_neg ho, Bool.false_eq_true, if_false]
        rw [setSignal_chan, if_pos rfl]
    · by_cases ho : s.chn[d].state = .off
      · simp only [if_pos ho, if_true]
        rw [restartChan_chan, if_pos rfl, he]
      · simp only [if_neg ho, if_true]
  · rw [if_neg h]
    split
    · split
      · rw [restartChan_chan, if_neg h]
      · rfl
    · split
      · rfl
      · rw [setSignal_chan, if_neg h]

theorem refreshPort_chan (p : PortId) (s : State) (c : Chan) : (refreshPort p s).chn[c] =
    if s.sourcePort c = some p then refreshed s.chn[c] (s.chanEligible c) else s.chn[c] := by
  let f (s : State) (c : Chan) : State := if s.sourcePort c = some p then refreshChan c s else s
  have keep (s : State) (d : Chan) : (f s d).sourcePort c = s.sourcePort c ∧ (f s d).prt = s.prt := by
    by_cases hp : s.sourcePort d = some p
    · have k := refreshChan_does d s
      rw [show f s d = refreshChan d s from if_pos hp]
      exact ⟨sourcePort_of_does k (by decide) c, k.frame .prt (by decide)⟩
    · rw [show f s d = s from if_neg hp]
      exact ⟨rfl, rfl⟩
  have own (s : State) (d : Chan) : (f s d).chn[c] =
      if d = c ∧ s.sourcePort c = some p then refreshed s.chn[c] (s.chanEligible c) else s.chn[c] := by
    by_cases hp : s.sourcePort d = some p
    · rw [show f s d = refreshChan d s from if_pos hp, refreshChan_chan]
      by_cases h : d = c
      · subst h; rw [if_pos rfl, if_pos ⟨rfl, hp⟩]
      · rw [if_neg h, if_neg fun k => h k.1]
    · rw [show f s d = s from if_neg hp, if_neg fun k => hp (by rw [k.1]; exact k.2)]
  obtain ⟨u, hu, e⟩ := fold_own (fun s d => (s.chn[d], s.sourcePort c, s.prt)) f (fun s x d h => by
      have k := keep s d
      have o : (f s d).chn[x] = s.chn[x] := by
        by_cases hp : s.sourcePort d = some p
        · rw [show f s d = refreshChan d s from if_pos hp, refreshChan_chan, if_neg h]
        · rw [show f s d = s from if_neg hp]
      rw [o, k.1, k.2]) allChans allChans_nodup c (mem_allChans c) s
  have e := congrArg Prod.fst e
  have u1 := congrArg Prod.fst hu
  have u2 := congrArg (fun x => x.2.1) hu
  have u3 := congrArg (fun x => x.2.2) hu
  dsimp only at e u1 u2 u3
  have el : u.chanEligible c = s.chanEligible c := by
    unfold State.chanEligible
    rw [u1, u2, u3]
  unfold refreshPort
  rw [e, own, u1, u2, el]
  simp

theorem reportPort_conds (p : PortId) (s : State) (i : CondId) :
    (i.val = 3 + p.val → (reportPort p s).mon.conds[i].status = (s.prt[p].link == .down))
    ∧ (i.val = 5 + p.val → (reportPort p s).mon.conds[i].status = (s.prt[p].link == .up && s.prt[p].alarm)) := by
  match p with
  | 0 =>
    refine ⟨fun h => ?_, fun h => ?_⟩
    · obtain rfl : i = 3 := Fin.ext h
      rw [show (reportPort 0 s).mon.conds[(3 : CondId)] = _ from statusChange_other 5 _ _ 3 (by decide) (by decide)]
      exact statusChange_status 3 _ _ (by decide)
    · obtain rfl : i = 5 := Fin.ext h
      exact statusChange_status 5 _ _ (by decide)
  | 1 =>
    refine ⟨fun h => ?_, fun h => ?_⟩
    · obtain rfl : i = 4 := Fin.ext h
      rw [show (reportPort 1 s).mon.conds[(4 : CondId)] = _ from statusChange_other 6 _ _ 4 (by decide) (by decide)]
      exact statusChange_status 4 _ _ (by decide)
    · obtain rfl : i = 6 := Fin.ext h
      exact statusChange_status 6 _ _ (by decide)

/-- R53, R54, R74: a link that enters OFF leaves both its conditions clear and the channels of its port OFF. -/
theorem stopLink_leaves (p : PortId) (s : State) :
    (∀ c : Chan, (s.sourcePort c = some p → (stopLink p s).chn[c].state = .off)
      ∧ (s.sourcePort c ≠ some p → (stopLink p s).chn[c] = s.chn[c]))
    ∧ ∀ i : CondId, i.val = 3 + p.val ∨ i.val = 5 + p.val → (stopLink p s).mon.conds[i].status = false := by
  unfold stopLink linkChanged
  generalize hw : setPort p _ s = w
  have dw : Does [.prt] s w := by rw [← hw]; exact setPort_does p _ s
  have hl : w.prt[p].link = .off := by rw [← hw, setPort_port, if_pos rfl]
  have dr := reportPort_does p w
  have sp (c : Chan) : (reportPort p w).sourcePort c = s.sourcePort c := by
    rw [sourcePort_of_does dr (by decide), sourcePort_of_does dw (by decide)]
  have ch : (reportPort p w).chn = s.chn := by rw [dr.frame .chn (by decide), dw.frame .chn (by decide)]
  have hm : (refreshPort p (reportPort p w)).mon = (reportPort p w).mon := (refreshPort_does p _).frame .mon (by decide)
  refine ⟨fun c => ⟨fun h => ?_, fun h => ?_⟩, fun i hi => ?_⟩
  · rw [refreshPort_chan, sp, if_pos h]
    have : (reportPort p w).chanEligible c = false := by
      unfold State.chanEligible
      rw [sp, h]
      dsimp only
      rw [show (reportPort p w).prt = w.prt from dr.frame .prt (by decide), hl]
      simp
    rw [this]
    exact refreshed_ineligible _
  · rw [refreshPort_chan, sp, if_neg h, ch]
  · rw [hm]
    rcases hi with h | h
    · rw [(reportPort_conds p w i).1 h, hl]
      rfl
    · rw [(reportPort_conds p w i).2 h, hl]
      rfl

/-- A channel that is OFF stays OFF and keeps all but its last processed strobe under a gap (R67, R74). -/
theorem strobe_off (x : Channel) (rate : Nat) (v : Int) (h : x.state = .off) : (x.strobe rate v).chan = x := by
  unfold Channel.strobe
  rw [h]

/-- A supply switched off: the link enters OFF, then the gap of its open window is written (log 9). -/
theorem evalSupply_stop (p : PortId) (s : State) (hd : s.supplyDue p = false) (hl : s.prt[p].link ≠ .off) : evalSupply p s =
    (match s.prt[p].window with | none => stopLink p s | some k => writePortGaps p k (stopLink p s)) := by
  have sw : switchSupply p s = stopLink p s := by
    unfold switchSupply
    rw [hd, if_neg (by simp), if_neg hl]
  have off : (stopLink p s).prt[p].link = .off := by rw [stopLink_port, if_pos rfl]
  unfold evalSupply closeStopped
  rw [sw]
  refine (if_pos ⟨hl, off⟩).trans ?_
  cases s.prt[p].window <;> rfl

/-- The gap of a window that was open leaves the ports and the conditions of blocks. -/
theorem windowGaps_leaves (p : PortId) (o : Option Nat) (w t : State)
    (ht : t = match o with | none => w | some k => writePortGaps p k w) : t.prt = w.prt ∧ KeepsConds w t := by
  cases o with
  | none => subst ht; exact ⟨rfl, fun _ _ => rfl⟩
  | some k => subst ht; exact ⟨(writePortGaps_does p k w).frame .prt (by decide), keepsConds.writePortGaps p k w⟩

/-- R49, R53, R54: what a supply switched off leaves of the ports and the two conditions of its own. -/
theorem evalSupply_stops (p : PortId) (s : State) (hd : s.supplyDue p = false) (hl : s.prt[p].link ≠ .off) :
    (evalSupply p s).prt = (stopLink p s).prt
    ∧ ∀ i : CondId, i.val = 3 + p.val ∨ i.val = 5 + p.val → (evalSupply p s).mon.conds[i].status = false := by
  obtain ⟨h, k⟩ := windowGaps_leaves p _ _ _ (evalSupply_stop p s hd hl)
  exact ⟨h, fun i hi => (congrArg Cond.status (k i (by omega))).trans ((stopLink_leaves p s).2 i hi)⟩

/-- R53, R59, R60, R74: what a supply switched off leaves of a channel and its ring. -/
theorem evalSupply_stops_chan (p : PortId) (s : State) (hd : s.supplyDue p = false) (hl : s.prt[p].link ≠ .off) (hc : s.canonical)
    (c : Chan) : (s.sourcePort c = some p → (evalSupply p s).chn[c].state = .off)
      ∧ (s.sourcePort c ≠ some p → (evalSupply p s).chn[c] = s.chn[c])
      ∧ (evalSupply p s).rings[c] = if s.sourcePort c = some p then
          (match s.prt[p].window with
            | none => s.rings[c]
            | some k => s.rings[c].write k (gapSlot s.rings[c] k))
        else s.rings[c] := by
  have ds := stopLink_does p s
  have l1 := (stopLink_leaves p s).1
  have er : (stopLink p s).rings = s.rings := (stopLink_only p s).frame .rings (by decide)
  rw [evalSupply_stop p s hd hl]
  cases s.prt[p].window with
  | none => exact ⟨(l1 c).1, (l1 c).2, by rw [er]; exact (ite_self _).symm⟩
  | some k =>
    have hcan : (stopLink p s).canonical := canonical_of_does ds (by decide) hc
    obtain ⟨f1, f2⟩ := gapFold (fun s c => s.sourcePort c = some p) k
      (fun s c d => by rw [sourcePort_of_does (writeGap_does d k s) (by decide)]) allChans (stopLink p s) (by decide) hcan c
    have es : (stopLink p s).sourcePort c = s.sourcePort c := sourcePort_of_does ds (by decide) c
    simp only [mem_allChans, true_and, es, er] at f1 f2
    have off (h : s.sourcePort c = some p) := (l1 c).1 h
    have kept (h : s.sourcePort c ≠ some p) := (l1 c).2 h
    generalize stopLink p s = w at *
    refine ⟨fun h => ?_, fun h => ?_, f1⟩
    · rw [show (writePortGaps p k w).chn[c] = _ from f2, if_pos h, strobe_off _ _ _ (off h)]
      exact off h
    · rw [show (writePortGaps p k w).chn[c] = _ from f2, if_neg h]
      exact kept h

end Sys2Proof.Laws
end

