-- ==== Sys2Proof/Laws/Actions.lean ====
section
/-! SUPPORT. What the operations by which a written setting acts at once can do: a port's supply, the clock's and the charger's
conditions, the test of the charge temperatures, the heater state and its duty limit, and the settings of a detector with the
channels that follow their own enable (R22, R49, R74, R80, R82, R146, R166, R175, R206). -/
namespace Sys2Proof.Laws

open Sys2Proof Sys2Proof.Machine

/-! ### A port's supply (R49) -/

/-- A supply that is as it is due changes nothing. -/
theorem evalSupply_keeps (p : PortId) (s : State) (h : s.supplyDue p = true ↔ s.prt[p].link ≠ .off) : evalSupply p s = s := by
  have sw : switchSupply p s = s := by
    unfold switchSupply
    by_cases d : s.supplyDue p = true
    · rw [if_pos d, if_neg (h.1 d)]
    · rw [if_neg d, if_pos (Classical.byContradiction fun k => d (h.2 k))]
  unfold evalSupply closeStopped
  rw [sw, if_neg fun k => k.1 k.2]

/-- A supply that becomes due starts its port, and nothing else (R50). -/
theorem evalSupply_starts (p : PortId) (s : State) (h : s.supplyDue p = true) (k : s.prt[p].link = .off) :
    evalSupply p s = { s with prt := s.prt.set p { s.prt[p] with
      link := .starting, window := none, transfer := none, startAt := s.osc, badRun := 0, goodRun := 0, last := none
      alarm := false } } := by
  have sw : switchSupply p s = startPort p s := by unfold switchSupply; rw [if_pos h, if_pos k]
  unfold evalSupply closeStopped
  rw [sw, if_neg fun e => e.1 k]
  rfl

/-! ### Conditions reported together -/

/-- R22: the three conditions of the clock, and no row but theirs and that of OUTBOX_DROP. -/
theorem reportClock_conds (s : State) :
    ((reportClock s).mon.conds[(0 : CondId)].status = true ↔ s.clk.disc = .holdover ∧ s.clk.reason = some .ppsLoss)
    ∧ ((reportClock s).mon.conds[(1 : CondId)].status = true ↔ s.holdoverLimit * 1000 < s.clk.u)
    ∧ ((reportClock s).mon.conds[(2 : CondId)].status = true ↔ s.clk.disc = .unset)
    ∧ ∀ d : CondId, d ∉ [(0 : CondId), 1, 2] → d.val ≠ 16 → (reportClock s).mon.conds[d] = s.mon.conds[d] := by
  unfold reportClock
  refine ⟨?_, ?_, ?_, fun d hd k => ?_⟩
  · rw [statusChange_other 2 _ _ 0 (by decide) (by decide), statusChange_other 1 _ _ 0 (by decide) (by decide),
      statusChange_status 0 _ _ (by decide)]
    simp
  · rw [statusChange_other 2 _ _ 1 (by decide) (by decide), statusChange_status 1 _ _ (by decide)]
    simp
  · rw [statusChange_status 2 _ _ (by decide)]
    simp
  · have hd : d ≠ 0 ∧ d ≠ 1 ∧ d ≠ 2 := by simpa using hd
    rw [statusChange_other 2 _ _ d k hd.2.2, statusChange_other 1 _ _ d k hd.2.1, statusChange_other 0 _ _ d k hd.1]

/-- R153: the two conditions of the charger, and no row but theirs and that of OUTBOX_DROP. -/
theorem reportCharge_conds (s : State) :
    (reportCharge s).mon.conds[(11 : CondId)].status = (s.bat.charge == .coldHold)
    ∧ (reportCharge s).mon.conds[(12 : CondId)].status = (s.bat.charge == .fault)
    ∧ (reportCharge s).bat = s.bat
    ∧ ∀ d : CondId, d ∉ [(11 : CondId), 12] → d.val ≠ 16 → (reportCharge s).mon.conds[d] = s.mon.conds[d] := by
  unfold reportCharge
  generalize (s.bat.charge == Charge.coldHold) = a
  generalize (s.bat.charge == Charge.fault) = b
  refine ⟨?_, ?_, ?_, fun d hd k => ?_⟩
  · rw [statusChange_other 12 _ _ 11 (by decide) (by decide), statusChange_status 11 _ _ (by decide)]
  · rw [statusChange_status 12 _ _ (by decide)]
  · rw [statusChange_bat, statusChange_bat]
  · have hd : d ≠ 11 ∧ d ≠ 12 := by simpa using hd
    rw [statusChange_other 12 _ _ d k hd.2, statusChange_other 11 _ _ d k hd.1]

/-! ### The charger and the heater -/

/-- R148: what a charger that was charging leaves of the battery as it goes off. -/
theorem chargeOff_bat (c : Charge) (s : State) (h : s.bat.charge.enabled = true) : (chargeOff c s).bat =
    { (if s.bat.charge = .bulk then s.bat else { s.bat with absorb := 0, term := 0, floatLow := 0 }) with
      charge := c, limit := 0 } := by
  unfold chargeOff Battery.discard
  cases e : s.bat.charge <;> rw [e] at h <;> first | rfl | cases h

/-- R146: the temperature test of a charger that may charge, and of one that may not. -/
theorem chargeTempTest_cases (s : State) :
    (s.bat.charge.enabled = true → s.pwr.solar = true → s.pwr.tp < s.tChargeMin →
      chargeTempTest s = reportCharge (chargeOff .coldHold s))
    ∧ (s.bat.charge.enabled = true → s.pwr.solar = true → s.tChargeMin ≤ s.pwr.tp → s.tChargeMax < s.pwr.tp →
      chargeTempTest s = reportCharge (chargeOff .hotHold s))
    ∧ (s.bat.charge.enabled = false ∨ s.pwr.solar = false ∨ s.tChargeMin ≤ s.pwr.tp ∧ s.pwr.tp ≤ s.tChargeMax →
      chargeTempTest s = s) := by
  unfold chargeTempTest
  refine ⟨fun a b c => ?_, fun a b c d => ?_, fun h => ?_⟩
  · rw [a, b, if_pos (by rfl), if_pos c]
  · rw [a, b, if_pos (by rfl), if_neg (by omega : ¬ s.pwr.tp < s.tChargeMin), if_pos d]
  · rcases h with h | h | h
    · rw [h]; rfl
    · rw [h, Bool.and_false]; rfl
    · rw [if_neg (by omega : ¬ s.pwr.tp < s.tChargeMin), if_neg (by omega : ¬ s.tChargeMax < s.pwr.tp)]
      exact ite_self _

/-- R175: the heater after its enable or the power state has been looked at. -/
theorem heaterFollow_cases (s : State) :
    (s.htr.state = .shutdown ∨ s.htr.state = .off ∧ s.heatOffDue = true
        ∨ (s.htr.state = .regulate ∨ s.htr.state = .held) ∧ s.heatOffDue = false → heaterFollow s = s)
    ∧ (s.htr.state = .off → s.heatOffDue = false →
      heaterFollow s = { s with htr := { s.htr with state := if s.htr.hold.isSome = true then .held else .regulate } })
    ∧ (s.htr.state = .regulate ∨ s.htr.state = .held → s.heatOffDue = true →
      heaterFollow s = { s with htr := { s.htr with state := .off, heat := false, heatEnd := none, latched := 0 } }) := by
  unfold heaterFollow State.heatResume
  refine ⟨fun h => ?_, fun h k => ?_, fun h k => ?_⟩
  · rcases h with h | ⟨h, k⟩ | ⟨h, k⟩
    · rw [h]
    · rw [h, k]; rfl
    · rcases h with h | h <;> rw [h, k] <;> rfl
  · rw [h, k]; simp
  · rcases h with h | h <;> rw [h, k] <;> rfl

/-- R166: the latched duty after the duty limit has been evaluated again. -/
theorem relimit_cases (s : State) :
    let stop := s.htr.periodAt + s.dutyLimit * s.htr.periodLen * 10000
    let high : Prop := s.htr.heat = true ∧ s.osc < stop ∧ 0 < s.dutyLimit
    (s.htr.latched ≤ s.dutyLimit → relimit s = s)
    ∧ (s.dutyLimit < s.htr.latched → high →
      relimit s = { s with htr := { s.htr with latched := s.dutyLimit, heatEnd := some stop } })
    ∧ (s.dutyLimit < s.htr.latched → ¬ high →
      relimit s = { s with htr := { s.htr with latched := s.dutyLimit, heat := false, heatEnd := none } }) := by
  intro stop high
  unfold relimit Heater.relatch
  refine ⟨fun h => ?_, fun h k => ?_, fun h k => ?_⟩
  · rw [if_neg (by omega)]
  · rw [if_pos h]
    dsimp only
    rw [if_pos (by simp [k.1, k.2.2]; exact k.2.1)]
  · rw [if_pos h]
    dsimp only
    rw [if_neg fun e => k (by simpa [and_assoc] using e)]

/-- R168: the budget judged, with the product as the spec gives it. -/
theorem judgeBudget_spent (s : State) : judgeBudget s =
    { s with htr := { s.htr with spent := decide ((s.param 98).toNat * 3600000 ≤ s.htr.today) } } := rfl

/-! ### The settings of a detector (R82 to R84) -/

/-- The three things that a look at its eligibility makes of a channel (R74, R80). -/
theorem refreshed_cases (x : Channel) (el : Bool) : (refreshed x el).det = x.det
    ∧ ((el == (x.state == .off)) = false → refreshed x el = x)
    ∧ ((el == (x.state == .off)) = true → el = true → refreshed x el = x.restart true)
    ∧ ((el == (x.state == .off)) = true → el = false → refreshed x el = x.enterOff) := by
  unfold refreshed
  by_cases ho : x.state = .off
  · have hb : (x.state == .off) = true := by rw [ho]; rfl
    rw [hb]
    cases el <;> simp [ho, Channel.restart]
  · have hb : (x.state == .off) = false := by cases h : x.state <;> first | rfl | exact absurd h ho
    rw [hb]
    cases el <;> simp [ho, Channel.enterOff]

/-- R74: channel c is eligible with settings d. -/
def State.eligibleWith (s : State) (c : Chan) (d : Detector) : Bool :=
  d.enable && (match s.sourcePort c with | none => false | some p => s.prt[p].link == .up)

/-- R82, R84: channel c with the settings a request carries for it. -/
def storedChan (body : List Byte) (s : State) (c : Chan) : Channel :=
  let d := (s.chn[c].det.withCarried body).fit
  refreshed { s.chn[c] with det := d } (State.eligibleWith s c d)

/-- R81, R84: the settings a request carries for channel c move its state, which is signalled. -/
def movedChan (body : List Byte) (s : State) (c : Chan) : Bool :=
  State.eligibleWith s c (s.chn[c].det.withCarried body).fit == (s.chn[c].state == .off)

/-- One channel takes its settings: its own entry, and its signal where its state moves. -/
theorem storeDetector_spec (body : List Byte) (c : Chan) (s : State) : let t := storeDetector body c s
    OnlyIn [.chn, .evt] s t ∧ (∀ d, t.chn[d] = if d = c then storedChan body s c else s.chn[d])
    ∧ t.evt = (if movedChan body s c = true then { s.evt with
        counting := s.evt.counting.set c none
        reports := s.evt.reports.map (fun r => if r.chan = c then { r with overridden := true } else r) } else s.evt) := by
  intro t
  let w := setChan c { s.chn[c] with det := (s.chn[c].det.withCarried body).fit } s
  have ht : t = refreshChan c w := rfl
  have hwc : w.chn[c] = { s.chn[c] with det := (s.chn[c].det.withCarried body).fit } := by
    rw [show w.chn[c] = _ from setChan_chan s c c _, if_pos rfl]
  have hel : w.chanEligible c = State.eligibleWith s c (s.chn[c].det.withCarried body).fit := by
    unfold State.chanEligible
    rw [hwc]
    rfl
  refine ⟨((Does.mono (setChan_does c _ s) (by decide)).trans (refreshChan_does c w) : Does [.chn, .evt] s t).frame,
    fun d => ?_, ?_⟩
  · rw [ht, refreshChan_chan]
    by_cases h : c = d
    · subst h
      rw [if_pos rfl, if_pos rfl, hwc, hel]
      rfl
    · rw [if_neg h, if_neg (Ne.symm h), show w.chn[d] = _ from setChan_chan s d c _, if_neg h]
  · rw [ht]
    unfold refreshChan movedChan
    have hst : w.chn[c].state = s.chn[c].state := by rw [hwc]
    rw [← hel, hst]
    have sig (x : Channel) (hx : x.state.silent = true) : (signalState c (setChan c x w)).evt = { s.evt with
        counting := s.evt.counting.set c none
        reports := s.evt.reports.map (fun r => if r.chan = c then { r with overridden := true } else r) } := by
      unfold signalState
      rw [setChan_chan, if_pos rfl, if_pos hx]
      rfl
    by_cases ho : s.chn[c].state = .off
    · have hb : (s.chn[c].state == .off) = true := by rw [ho]; rfl
      rw [hb]
      cases he : w.chanEligible c
      · rw [if_neg (by simp), if_pos ho, if_neg (by simp)]
        rfl
      · rw [if_pos rfl, if_pos ho, if_pos (by simp)]
        unfold restartChan
        refine sig _ ?_
        rw [he]
        unfold Channel.restart
        dsimp only
        cases w.chn[c].supp <;> rfl
    · have hb : (s.chn[c].state == .off) = false := by cases h : s.chn[c].state <;> first | rfl | exact absurd h ho
      rw [hb]
      cases he : w.chanEligible c
      · rw [if_neg (by simp), if_neg ho, if_pos (by simp)]
        exact sig _ rfl
      · rw [if_pos rfl, if_neg ho, if_neg (by simp)]
        rfl

/-- The named channels, one at a time: each takes its own settings as if it were the only one. -/
theorem storeDetectors_spec (body : List Byte) (l : List Chan) (hl : l.Nodup) (s : State) :
    let t := l.foldl (fun s c => storeDetector body c s) s
    OnlyIn [.chn, .evt] s t ∧ (∀ d, t.chn[d] = if d ∈ l then storedChan body s d else s.chn[d])
    ∧ t.evt = { s.evt with
        counting := t.evt.counting
        reports := s.evt.reports.map fun r =>
          if r.chan ∈ l ∧ movedChan body s r.chan = true then { r with overridden := true } else r }
    ∧ ∀ d, t.evt.counting[d] = if d ∈ l ∧ movedChan body s d = true then none else s.evt.counting[d] := by
  induction l generalizing s with
  | nil => refine ⟨fun p _ => same_refl p s, fun d => by simp, by simp, fun d => by simp⟩
  | cons c l ih =>
    obtain ⟨hc, hl⟩ := List.nodup_cons.mp hl
    obtain ⟨a1, a2, a3⟩ := storeDetector_spec body c s
    rw [List.foldl_cons]
    obtain ⟨b1, b2, b3, b4⟩ := ih hl (storeDetector body c s)
    generalize storeDetector body c s = w at *
    have emap : w.map = s.map := a1 .map (by decide)
    have eprt : w.prt = s.prt := a1 .prt (by decide)
    have keep (d : Chan) (hd : d ∈ l) :
        storedChan body w d = storedChan body s d ∧ movedChan body w d = movedChan body s d := by
      have n : d ≠ c := fun e => hc (e ▸ hd)
      have e : w.chn[d] = s.chn[d] := by rw [a2, if_neg n]
      unfold storedChan movedChan State.eligibleWith State.sourcePort
      rw [e, emap, eprt]
      exact ⟨rfl, rfl⟩
    generalize List.foldl _ w l = t at *
    refine ⟨fun p hp => same_trans (a1 p hp) (b1 p hp), fun d => ?_, ?_, fun d => ?_⟩
    · rw [b2, a2]
      by_cases h : d ∈ l
      · rw [if_pos h, if_pos (List.mem_cons_of_mem _ h), (keep d h).1]
      · rw [if_neg h]
        by_cases e : d = c
        · subst e; rw [if_pos rfl, if_pos List.mem_cons_self]
        · rw [if_neg e, if_neg (by simp [e, h])]
    · rw [b3, a3]
      have f : ∀ r : Report, (if r.chan ∈ l ∧ movedChan body w r.chan = true then { r with overridden := true } else r) =
          if r.chan ∈ l ∧ movedChan body s r.chan = true then { r with overridden := true } else r := by
        intro r
        by_cases h : r.chan ∈ l
        · rw [(keep _ h).2]
        · simp [h]
      simp only [f]
      by_cases hm : movedChan body s c = true
      · rw [if_pos hm]
        congr 1
        rw [List.map_map]
        apply List.map_congr_left
        intro r _
        simp only [Function.comp]
        by_cases h : r.chan = c
        · have : c ∉ l := hc
          simp [h, hm, hc]
        · simp [h]
      · rw [if_neg hm]
        congr 1
        apply List.map_congr_left
        intro r _
        by_cases h : r.chan = c
        · simp [h, hm, hc]
        · simp [h]
    · have hev (d : Chan) (n : d ≠ c) : w.evt.counting[d] = s.evt.counting[d] := by
        rw [a3]
        have n' : c.val ≠ d.val := fun k => n (Fin.ext k.symm)
        split
        · exact Vector.getElem_set_ne c.isLt d.isLt n'
        · rfl
      rw [b4]
      by_cases h : d ∈ l
      · have n : d ≠ c := fun e => hc (e ▸ h)
        rw [(keep d h).2, hev d n]
        simp [h]
      · rw [if_neg (fun k => h k.1)]
        by_cases e : d = c
        · subst e
          rw [a3]
          by_cases hm : movedChan body s d = true
          · simp [hm]
          · simp [hm]
        · rw [hev d e]
          simp [h, e]

end Sys2Proof.Laws
end

