-- ==== Sys2Proof/Laws/Capture.lean ====
section
/-! SUPPORT. What the operations of a capture make of the clock: one equation for each, which the statements about captures
cite instead of unfolding them. -/
namespace Sys2Proof.Laws

open Sys2Proof Sys2Proof.Machine

/-- A report leaves the clock. -/
theorem reportClock_clk (s : State) : (reportClock s).clk = s.clk := (reportClock_does s).frame .clk (by decide)
/-- A flag of the record leaves the clock. -/
theorem flagRecord_clk (f) (s : State) : (flagRecord f s).clk = s.clk := (flagRecord_does f s).frame .clk (by decide)
/-- R8, R10, R11: what a deferral does to the clock. -/
theorem deferStep_clk (s : State) : (deferStep s).clk = { s.clk with stepDeferred := true } := by
  unfold deferStep; rw [flagRecord_clk]
/-- R1: what a change of time does to the clock. -/
theorem changeTime_clk (x : Time) (s : State) : (changeTime x s).clk = { s.clk with s := x.s, t := x.t } := by
  unfold changeTime
  exact (passNotBefores_does _).frame .clk (by decide)
/-- R11: what a seconds correction does to the clock. -/
theorem secondsCorrection_clk (off : Int) (s : State) : (secondsCorrection off s).clk =
    if s.eventActive || s.calRunning then { s.clk with stepDeferred := true }
    else { s.clk with s := ((s.clk.s + off) % 4294967296).toNat, steps := inc16 s.clk.steps, mismatch := 0, offset := none } := by
  unfold secondsCorrection
  simp only
  show (if (s.eventActive || s.calRunning) = true then _ else _ : State).clk = _
  split
  · rw [deferStep_clk]
  · unfold countStep
    simp only [changeTime_clk]

/-- R11: the table of the seconds check, with the correction taken or waiting. -/
theorem secondsCheck_clk (secs edge : Nat) (s : State) :
    (secondsCheck secs edge s).clk =
      let off := signed32 ((secs : Int) - edge)
      let n := if s.clk.offset = some off then min (s.clk.mismatch + 1) 3 else 1
      if off = 0 then { s.clk with mismatch := 0, offset := none }
      else if n = 3 then
        if s.eventActive || s.calRunning then { s.clk with mismatch := 3, offset := some off, stepDeferred := true }
        else { s.clk with s := ((s.clk.s + off) % 4294967296).toNat, steps := inc16 s.clk.steps, mismatch := 0, offset := none }
      else { s.clk with mismatch := n, offset := some off } := by
  unfold secondsCheck
  simp only
  generalize signed32 ((secs : Int) - edge) = off
  by_cases h0 : off = 0
  · simp [h0]
  · simp only [h0, if_false]
    by_cases h1 : s.clk.offset = some off
    · simp only [h1, if_true]
      by_cases h2 : min (s.clk.mismatch + 1) 3 = 3
      · simp only [h2, if_true, secondsCorrection_clk]
        by_cases h3 : (s.eventActive || s.calRunning) = true
        · simp [State.eventActive, State.calRunning] at h3 ⊢
        · simp [State.eventActive, State.calRunning] at h3 ⊢
      · simp only [h2, if_false]
    · simp [h1]

/-- R10: what a phase step does to the clock, taken or deferred. -/
theorem phaseStep_clk (e : Int) (s : State) : (phaseStep e s).clk =
    if s.eventActive || s.calRunning then { s.clk with c := -2000 * signOf e, stepDeferred := true, lock := 0 }
    else { s.clk with s := (s.now.addTicks (-e)).s, t := (s.now.addTicks (-e)).t, steps := inc16 s.clk.steps,
                      c := s.clk.r, lock := 0 } := by
  unfold phaseStep
  show ({ (if (s.eventActive || s.calRunning) = true then _ else _ : State).clk with lock := 0 } : Clock) = _
  split
  · rw [deferStep_clk]
  · unfold countStep
    simp only [changeTime_clk]

/-- R12: the flag after an accepted capture. -/
theorem settleFlag_clk (b : Bool) (s : State) : (settleFlag b s).clk =
    { s.clk with stepDeferred := s.clk.stepDeferred && (b || decide (s.clk.mismatch = 3)) } := by
  unfold settleFlag
  by_cases h : (b || decide (s.clk.mismatch = 3)) = true
  · rw [if_pos h, h, Bool.and_true]
  · rw [if_neg h]; simp only [Bool.not_eq_true] at h; rw [h, Bool.and_false]

/-- The loop law of R13 on the rates. -/
theorem loopLaw_clk (e : Int) (s : State) : (loopLaw e s).clk =
    let r := max (-2000) (min 2000 (s.clk.r - roundDiv (e * 100) (s.ppsPrescale * s.gainI)))
    { s.clk with r := r, c := max (-2000) (min 2000 (r - roundDiv (e * 100) (s.ppsPrescale * s.gainP))) } := rfl

/-- The loop law leaves the settings. -/
theorem loopLaw_lockWindow (e : Int) (s : State) : (loopLaw e s).lockWindow = s.lockWindow := rfl

/-- R13, R14, R17: an ACQUIRE capture that needs no phase step. -/
theorem acquireWork_near (e : Int) (s : State) (h : e.natAbs ≤ s.stepThreshold) : (acquireWork e s).clk =
    let r := max (-2000) (min 2000 (s.clk.r - roundDiv (e * 100) (s.ppsPrescale * s.gainI)))
    let n := if e.natAbs ≤ s.lockWindow then min (s.clk.lock + 1) 8 else 0
    let x := { s.clk with
      r := r, c := max (-2000) (min 2000 (r - roundDiv (e * 100) (s.ppsPrescale * s.gainP))), lock := n,
      u := e.natAbs * 100 + 100, stepDeferred := s.clk.stepDeferred && decide (s.clk.mismatch = 3) }
    if 8 ≤ n then { x with disc := .track, lock := 0, unlock := 0, hold := 0 } else x := by
  have hn : s.stepNeeded e = false := decide_eq_false (Nat.not_lt.mpr h)
  by_cases h1 : e.natAbs ≤ s.lockWindow <;> by_cases h2 : 7 ≤ s.clk.lock <;>
    simp [acquireWork, hn, settleFlag_clk, h1, h2, loopLaw, setUncertainty, enterTrack, clampRate, clampI]

/-- R10, R14, R17: an ACQUIRE capture that needs a phase step. -/
theorem acquireWork_far (e : Int) (s : State) (h : s.stepThreshold < e.natAbs) : (acquireWork e s).clk =
    { (phaseStep e s).clk with
      u := e.natAbs * 100 + 100
      stepDeferred := (phaseStep e s).clk.stepDeferred && ((s.eventActive || s.calRunning) || decide (s.clk.mismatch = 3)) } := by
  have hn : s.stepNeeded e = true := decide_eq_true h
  unfold acquireWork
  simp only [hn, Bool.true_and, if_true]
  have hl : (phaseStep e s).clk.lock = 0 := rfl
  have hm : (phaseStep e s).clk.mismatch = s.clk.mismatch := by rw [phaseStep_clk]; split <;> rfl
  rw [if_neg (by show ¬ 8 ≤ (phaseStep e s).clk.lock; omega), settleFlag_clk]
  simp [setUncertainty, hm, State.stepForbidden]

/-- R13, R15, R17: a TRACK capture that needs no phase step. -/
theorem trackCapture_near (e : Int) (edge : Nat) (l : Option Nat) (s : State) (h : e.natAbs ≤ s.stepThreshold) :
    (trackCapture e edge l s).clk =
    let v := (secondsCheckIf l edge s).clk
    let r := max (-2000) (min 2000 (v.r - roundDiv (e * 100) (s.ppsPrescale * s.gainI)))
    let n := if s.lockWindow < e.natAbs then min (v.unlock + 1) 4 else 0
    let x := { v with
      r := r, c := max (-2000) (min 2000 (r - roundDiv (e * 100) (s.ppsPrescale * s.gainP))), unlock := n,
      u := e.natAbs * 100 + 100, stepDeferred := v.stepDeferred && decide (v.mismatch = 3) }
    if 4 ≤ n then { x with disc := .acquire, lock := 0, watch := 0, hold := 0, unlock := 0 } else x := by
  have hp : (secondsCheckIf l edge s).params = s.params := (secondsCheckIf_does l edge s).frame .params (by decide)
  unfold trackCapture
  simp only
  generalize secondsCheckIf l edge s = v at *
  have hn : v.stepNeeded e = false := by
    unfold State.stepNeeded State.stepThreshold State.param at *; rw [hp]; exact decide_eq_false (Nat.not_lt.mpr h)
  simp only [hn, Bool.false_eq_true, if_false, settleFlag_clk, Bool.false_or]
  have hw : v.lockWindow = s.lockWindow := by unfold State.lockWindow State.param; rw [hp]
  have hr : v.ppsPrescale = s.ppsPrescale ∧ v.gainI = s.gainI ∧ v.gainP = s.gainP := by
    unfold State.ppsPrescale State.gainI State.gainP State.param; rw [hp]; exact ⟨rfl, rfl, rfl⟩
  rw [← hr.1, ← hr.2.1, ← hr.2.2, ← hw]
  by_cases h1 : v.lockWindow < e.natAbs <;> by_cases h2 : 3 ≤ v.clk.unlock <;>
    simp [h1, h2, loopLaw_clk, loopLaw_lockWindow, setUncertainty, unlockTrack, enterAcquire]

/-- R10, R15, R17: a TRACK capture that needs a phase step. -/
theorem trackCapture_far (e : Int) (edge : Nat) (l : Option Nat) (s : State) (h : s.stepThreshold < e.natAbs) :
    (trackCapture e edge l s).clk =
    let w := phaseStep e (enterAcquire (secondsCheckIf l edge s))
    let v := secondsCheckIf l edge s
    { w.clk with
      u := e.natAbs * 100 + 100
      stepDeferred := w.clk.stepDeferred && ((v.eventActive || v.calRunning) || decide (v.clk.mismatch = 3)) } := by
  have hp : (secondsCheckIf l edge s).params = s.params := (secondsCheckIf_does l edge s).frame .params (by decide)
  unfold trackCapture
  simp only
  generalize secondsCheckIf l edge s = v at *
  have hn : v.stepNeeded e = true := by
    unfold State.stepNeeded State.stepThreshold State.param at *; rw [hp]; exact decide_eq_true h
  have hm : (phaseStep e (enterAcquire v)).clk.mismatch = v.clk.mismatch := by rw [phaseStep_clk]; split <;> rfl
  simp only [hn, if_true, settleFlag_clk]
  simp [setUncertainty, hm, State.stepForbidden]

/-- R8: what a setting capture does to the clock, taken or deferred. -/
theorem settingCapture_clk (secs since : Nat) (s : State) : (settingCapture secs since s).clk =
    if s.eventActive || s.calRunning then { s.clk with stepDeferred := true }
    else { s.clk with
      s := (secs + (s.clk.ticks - since) / 10000000) % 4294967296, t := (s.clk.ticks - since) % 10000000, disc := .acquire,
      lock := 1, unlock := 0, mismatch := 0, stepDeferred := false, watch := 0, hold := 0, u := 100,
      steps := inc16 s.clk.steps, r := max (-2000) (min 2000 s.clk.r), c := max (-2000) (min 2000 s.clk.r) } := by
  unfold settingCapture
  show (if (s.eventActive || s.calRunning) = true then _ else _ : State).clk = _
  split
  · rw [deferStep_clk]
  · unfold setUncertainty
    simp only [loopLaw_clk, reportClock_clk, enterAcquire, countStep, changeTime_clk, Time.addTicks, Nat.cast_zero, Int.zero_add, Int.zero_mul]
    have : ∀ d, roundDiv 0 d = 0 := fun d => by
      unfold roundDiv
      rcases Nat.eq_zero_or_pos d with h | h
      · simp [h]
      · simp only [Int.mul_zero, Int.zero_add, Int.le_refl, if_true]
        exact Int.ediv_eq_zero_of_lt (by omega) (by omega)
    simp [this]
    omega

/-- R97: what a deferral does to the record in progress. -/
theorem deferStep_record (s : State) : (deferStep s).evt.record =
    s.evt.record.map fun y => { y with flags := { y.flags with stepDeferred := true } } := by
  unfold deferStep flagRecord
  cases h : s.evt.record <;> simp [h]


/-- What an accepted capture keeps of the seconds check, and of time where it needs no phase step. -/
def Kept (s : State) (e : Int) (v t : State) : Prop :=
  t.clk.mismatch = v.clk.mismatch ∧ t.clk.offset = v.clk.offset ∧ t.clk.label = v.clk.label
    ∧ (v.clk.mismatch = 3 → v.clk.stepDeferred = true → t.clk.stepDeferred = true)
    ∧ (e.natAbs ≤ s.stepThreshold → t.clk.s = v.clk.s ∧ t.clk.t = v.clk.t ∧ t.clk.steps = v.clk.steps)

theorem acquireCapture_keeps (e : Int) (edge : Nat) (l : Option Nat) (s : State) :
    Kept s e (secondsCheckIf l edge s) (acquireCapture e edge l s) := by
  have hp : (secondsCheckIf l edge s).params = s.params := (secondsCheckIf_does l edge s).frame .params (by decide)
  have ht : (secondsCheckIf l edge s).stepThreshold = s.stepThreshold := by unfold State.stepThreshold State.param; rw [hp]
  unfold acquireCapture Kept
  rw [← ht]
  generalize secondsCheckIf l edge s = v
  rcases Nat.lt_or_ge v.stepThreshold e.natAbs with h | h
  · rw [acquireWork_far e v h, phaseStep_clk]
    have hn : ¬ e.natAbs ≤ v.stepThreshold := by omega
    by_cases hf : (v.eventActive || v.calRunning) = true <;> simp [hf, hn] <;> intros <;> simp_all
  · rw [acquireWork_near e v h]
    by_cases h1 : e.natAbs ≤ v.lockWindow <;> by_cases h2 : 7 ≤ v.clk.lock <;> simp [h1, h2] <;> intros <;> simp_all

theorem trackCapture_keeps (e : Int) (edge : Nat) (l : Option Nat) (s : State) :
    Kept s e (secondsCheckIf l edge s) (trackCapture e edge l s) := by
  unfold Kept
  rcases Nat.lt_or_ge s.stepThreshold e.natAbs with h | h
  · rw [trackCapture_far e edge l s h]
    simp only [phaseStep_clk]
    generalize secondsCheckIf l edge s = v
    have hn : ¬ e.natAbs ≤ s.stepThreshold := by omega
    by_cases hf : ((enterAcquire v).eventActive || (enterAcquire v).calRunning) = true
    · have hf' : (v.eventActive || v.calRunning) = true := hf
      rw [if_pos hf, hf']
      exact ⟨rfl, rfl, rfl, fun _ _ => rfl, fun h => absurd h hn⟩
    · rw [if_neg hf]
      exact ⟨rfl, rfl, rfl, fun a b => by
        show (v.clk.stepDeferred && (_ || decide (v.clk.mismatch = 3))) = true
        rw [a, b]; simp, fun h => absurd h hn⟩
  · rw [trackCapture_near e edge l s h]
    generalize secondsCheckIf l edge s = v
    by_cases h1 : s.lockWindow < e.natAbs <;> by_cases h2 : 3 ≤ v.clk.unlock <;> simp [h1, h2] <;> intros <;> simp_all

end Sys2Proof.Laws
end

