-- ==== Sys2Proof/Laws/Lines.lean ====
section
/-! SUPPORT. What the operations of Bus and Requests can do: characters, frames, replies, and every request but PARAM_SET
and RESTART, which change the settings (Laws/Settings.lean). -/
namespace Sys2Proof.Laws

open Sys2Proof Sys2Proof.Machine

/-! ### The receiver and the reply -/

theorem countBus_does (f : BusCounters → BusCounters) (s : State) : Does [.bus] s (countBus f s) := Does.bus s _

theorem dropFrame_does (s : State) : Does [.bus] s (dropFrame s) := Does.bus s _

theorem breakFrame_does (s : State) : Does [.bus] s (breakFrame s) := (countBus_does _ s).trans (dropFrame_does _)

theorem judgeAddress_does (b : Byte) (s : State) : Does [.bus] s (judgeAddress b s) := by
  unfold judgeAddress
  split
  · exact Does.bus s _
  · exact Does.refl _ s

theorem busFree_does (s : State) (x : Bus) (n : Nat) : Does [.bus, .free] s { s with bus := x, free := n } :=
  Does.trans (t := { s with bus := x }) (Does.mono (Does.bus s x) (by decide)) (Does.mono (Does.free _ n) (by decide))

theorem acceptRequest_does (b : Bool) (k : Byte) (body : List Byte) (s : State) :
    Does [.bus, .free] s (acceptRequest b k body s) := busFree_does s _ _

theorem completeFrame_does (f : BusFrame) (k : Byte) (s : State) : Does [.bus, .free] s (completeFrame f k s) := by
  unfold completeFrame
  have h : Does [.bus, .free] s (dropFrame s) := Does.mono (dropFrame_does s) (by decide)
  dsimp only
  split
  · exact h.trans (Does.mono (countBus_does _ _) (by decide))
  · split
    · exact h.trans (Does.mono (countBus_does _ _) (by decide))
    · refine Does.trans ?_ (acceptRequest_does _ _ _ _)
      exact h.trans (Does.mono (countBus_does _ _) (by decide))

theorem takeChar_does (f : BusFrame) (b : Byte) (s : State) : Does [.bus, .free] s (takeChar f b s) := by
  unfold takeChar
  have h : Does [.bus, .free] s (dropFrame (countBus (fun c => { c with oversize := inc16 c.oversize }) s)) :=
    Does.mono ((countBus_does _ s).trans (dropFrame_does _)) (by decide)
  have p (x : Bus) : Does [.bus, .free] s { s with bus := x } := Does.mono (Does.bus s x) (by decide)
  dsimp only
  repeat' split
  all_goals first | exact h | exact p _ | exact completeFrame_does _ _ s

theorem checkGap_does (s : State) : Does [.bus] s (checkGap s) := by
  unfold checkGap
  split
  · exact breakFrame_does s
  · exact Does.refl _ s

theorem framingChar_does (s : State) : Does [.bus] s (framingChar s) := by
  unfold framingChar
  split
  · exact (countBus_does _ s).trans (dropFrame_does _)
  · exact Does.refl _ s

theorem overrunChar_does (s : State) : Does [.bus] s (overrunChar s) := by
  unfold overrunChar
  split
  · exact (countBus_does _ s).trans (dropFrame_does _)
  · exact Does.refl _ s

theorem addressChar_does (b : Byte) (s : State) : Does [.bus, .free] s (addressChar b s) := by
  unfold addressChar
  refine Does.trans ?_ (Does.mono (judgeAddress_does b _) (by decide))
  split
  · exact Does.mono (breakFrame_does s) (by decide)
  · exact Does.refl _ s

theorem dataChar_does (b : Byte) (s : State) : Does [.bus, .free] s (dataChar b s) := by
  unfold dataChar
  split
  · exact Does.refl _ s
  · exact takeChar_does _ b s

theorem busChar_does (f : CharFault) (clean : State → State) (h : ∀ s, Does [.bus, .free] s (clean s)) (s : State) :
    Does [.bus, .free] s (busChar f clean s) := by
  unfold busChar
  split
  · exact Does.refl _ s
  · have k : Does [.bus, .free] s (checkGap s) := Does.mono (checkGap_does s) (by decide)
    dsimp only
    cases f with
    | clean => exact k.trans (h _)
    | framing => exact k.trans (Does.mono (framingChar_does _) (by decide))
    | overrun =>
      dsimp only
      split
      · exact k.trans (Does.mono (overrunChar_does _) (by decide))
      · exact k.trans (h _)

theorem takeLine_does (s : State) : Does [.bus] s (takeLine s) := Does.bus s _

theorem endBroadcast_does (s : State) : Does [.bus] s (endBroadcast s) := (Does.bus s _).trans (takeLine_does _)

theorem finish_does (r : List Byte) (s : State) : Does [.bus] s (finish r s) := by
  unfold finish
  split
  · exact Does.refl _ s
  · split
    · exact endBroadcast_does s
    · exact Does.bus s _

/-- A request served changes what its own rule changes, and the bus. -/
theorem serve_does {L : List Part} (kind : Byte) (f : Request → State → List Byte × State)
    (h : ∀ q s, Does L s (f q s).2) (hb : Part.bus ∈ L) (s : State) : Does L s (serve kind f s) := by
  unfold serve
  have k : ∀ t r, Does L t (finish r t) := fun t r => Does.mono (finish_does r t) (by simpa using hb)
  split
  · split
    · split
      · exact (h _ s).trans (k _ _)
      · exact k _ _
    · exact Does.refl _ s
  · exact Does.refl _ s

theorem serveSnapshot_does (kind : Byte) (s : State) : Does [.bus] s (serveSnapshot kind s) :=
  serve_does kind _ (fun _ s => Does.refl _ s) (by decide) s

theorem startReply_does (k : Byte) (r : List Byte) (s : State) : Does [.bus] s (startReply k r s) := by
  unfold startReply
  have h : Does [.bus] s (if s.bus.frame.isSome then breakFrame s else s) := by
    split
    · exact breakFrame_does s
    · exact Does.refl _ s
  exact h.trans (Does.bus _ _)

theorem removeReported_does (ids : List Nat) (s : State) : Does [.sch] s (removeReported ids s) :=
  Does.sch s _ (by simp [Part.same]) fun h => Nat.le_trans (List.length_filter_le _ _) h

theorem endReply_does (s : State) : Does [.bus, .sch] s (endReply s) := by
  unfold endReply
  split
  · exact Does.refl _ s
  · rename_i q _
    have h : Does [.bus, .sch] s (countBus (fun c => { c with replies := inc16 c.replies }) (removeReported q.reported s)) :=
      Does.trans (Does.mono (removeReported_does _ s) (by decide)) (Does.mono (countBus_does _ _) (by decide))
    dsimp only
    generalize countBus _ (removeReported q.reported s) = u at *
    have k (x : Bus) : Does [.bus, .sch] s { u with bus := x } := h.trans (Does.mono (Does.bus u x) (by decide))
    split
    · exact k _
    · exact (k _).trans (Does.mono (takeLine_does _) (by decide))

/-! ### The requests -/

/-- What TIME_SET can change. -/
abbrev timeSetParts : List Part := [.bus, .clk, .time, .sch, .strobes, .moment, .box, .mon]

theorem serveTimeSet_does (q : Request) (s : State) : Does timeSetParts s (serveTimeSet q s).2 := by
  have h : ∀ x m n, Does timeSetParts s (setTime x m n s) := fun x m n => Does.mono (setTime_does x m n s) (by decide)
  unfold serveTimeSet
  generalize setTime = f at h ⊢
  dsimp only
  repeat' split
  all_goals first | exact Does.refl _ s | exact h _ _ _

theorem storeDetector_does (body : List Byte) (c : Chan) (s : State) : Does [.chn, .evt] s (storeDetector body c s) := by
  unfold storeDetector
  exact Does.trans (Does.mono (setChan_does c _ s) (by decide)) (refreshChan_does c _)

theorem serveDetectorSet_does (q : Request) (s : State) : Does [.bus, .chn, .evt, .moment] s (serveDetectorSet q s).2 := by
  unfold serveDetectorSet
  dsimp only
  repeat' split
  all_goals first
    | exact Does.refl _ s
    | exact Does.after (Does.moment s {})
        (Does.fold (fun s c => storeDetector q.body c s) (fun s c => storeDetector_does _ c s) _ _) (by decide) (by decide)

theorem serveMapSet_does (q : Request) (s : State) : Does [.bus, .pendingMap] s (serveMapSet q s).2 := by
  unfold serveMapSet
  repeat' split
  all_goals first | exact Does.refl _ s | exact Does.mono (Does.pendingMap s _) (by decide)

theorem serveEventRelease_does (q : Request) (s : State) : Does [.bus, .evt, .event, .mon] s (serveEventRelease q s).2 := by
  unfold serveEventRelease
  dsimp only
  repeat' split
  all_goals first
    | exact Does.refl _ s
    | exact Does.mono (putEvents_does s _ fun h => Nat.le_trans (List.length_filter_le _ _) h) (by decide)

theorem serveMarksTake_does (q : Request) (s : State) : Does [.bus, .mrk] s (serveMarksTake q s).2 := by
  unfold serveMarksTake
  exact Does.mono (Does.mrk s _ fun h => by simp; omega) (by decide)

theorem serveCalAdd_does (q : Request) (s : State) : Does [.bus, .sch] s (serveCalAdd q s).2 := by
  unfold serveCalAdd
  dsimp only
  split
  · split
    · exact Does.refl _ s
    · rename_i h
      exact Does.mono (Does.sch s _ (by simp [Part.same]) fun _ => by rw [length_insertBy]; omega) (by decide)
  · exact Does.refl _ s

theorem serveCalCancel_does (q : Request) (s : State) : Does [.bus, .sch, .chn, .evt] s (serveCalCancel q s).2 := by
  have e (id : Nat) (f : Cal → Cal) : Does [.bus, .sch, .chn, .evt] s (editCal id f s) :=
    Does.mono (editCal_does id f s) (by decide)
  unfold serveCalCancel
  generalize (s.sch.cals.find? fun c => c.id == field q.body 0 1) = m
  cases m with
  | none => exact Does.refl _ s
  | some c =>
    dsimp only
    cases c.outcome with
    | running => dsimp only; exact Does.mono (leaveRunning_does c .cancelled s) (by decide)
    | waiting => dsimp only; exact e _ _
    | deferred => dsimp only; exact e _ _
    | done => exact Does.refl _ s
    | skipped => exact Does.refl _ s
    | cancelled => exact Does.refl _ s

theorem serveCalList_does (q : Request) (s : State) : Does [.bus] s (serveCalList q s).2 := Does.bus s _

/-- Pending marks cleared: no status moves. -/
theorem cleared_one (v : Vector Cond 18) (c d : CondId) : (v.set c { v[c] with pending := false })[d].status = v[d].status := by
  show (v.set c.val { v[c] with pending := false })[d.val].status = _
  rw [Vector.getElem_set]
  by_cases e : c.val = d.val
  · have : c = d := Fin.ext e
    subst this; simp
  · simp [e]

theorem cleared_status (ids : List Nat) (l : List CondId) (v : Vector Cond 18) (d : CondId) :
    (l.foldl (fun v (c : CondId) => if ids.contains c.val then v.set c { v[c] with pending := false } else v) v)[d].status
      = v[d].status := by
  induction l generalizing v with
  | nil => rfl
  | cons c r ih =>
    refine (ih _).trans ?_
    by_cases e : ids.contains c.val
    · simp only [e, ↓reduceIte]; exact cleared_one v c d
    · simp only [e, Bool.false_eq_true, ↓reduceIte]

/-- New rows with the same statuses, and WAKE evaluated after them. -/
theorem putConds_does (v : Vector Cond 18) (s : State) (h : ∀ d : CondId, v[d].status = s.mon.conds[d].status) :
    Does [.mon] s (wakeEval { s with mon := { s.mon with conds := v } }) :=
  ⟨fun p hp => by cases p <;> first | rfl | (simp [Part.same, wakeEval]; done) | exact absurd (by simp) hp,
    id, id, id, fun k => by
      show s.mon.degraded = allConds.any fun c => v[c].status && inSet s.degradedSet c
      rw [show s.mon.degraded = _ from k]
      unfold State.degradedLevel
      congr 1; funext d; rw [h d], fun _ => rfl, id⟩

theorem clearPending_does (ids : List Nat) (s : State) : Does [.mon] s (clearPending ids s) :=
  putConds_does _ s fun d => cleared_status ids allConds s.mon.conds d

theorem servePendingClear_does (q : Request) (s : State) : Does [.bus, .mon] s (servePendingClear q s).2 := by
  unfold servePendingClear
  dsimp only
  split
  · exact Does.refl _ s
  · exact Does.mono (clearPending_does _ s) (by decide)

theorem restartCharger_does (found : Byte) (s : State) : Does [.bus, .bat, .box, .mon] s (restartCharger found s) := by
  unfold restartCharger
  have h (x : Battery) (hv : Part.power.same s { s with bat := x }) : Does [.bus, .bat, .box, .mon] s { s with bat := x } :=
    Does.mono (Does.bat s x hv) (by decide)
  dsimp only
  split
  · exact Does.trans (h _ (by simp [Part.same])) (Does.mono (reportCharge_does _) (by decide))
  · exact h _ (by simp [Part.same])

theorem restartHeater_does (found : Byte) (s : State) : Does [.bus, .htr, .box, .mon] s (restartHeater found s) := by
  unfold restartHeater
  split
  all_goals first | exact Does.refl _ s | exact Does.mono (heaterRestart_does s) (by decide)

theorem settleOutputs_does (q : Request) (sel : Nat) (s : State) : Does [.bus] s (settleOutputs q sel s) := by
  unfold settleOutputs
  have h (x : Bus) : Does [.bus] s { s with bus := x } := Does.bus s x
  dsimp only
  split
  · exact (h _).trans (finish_does _ _)
  · exact h _

theorem outputPart_does {L : List Part} (bit : Nat) (served : Request → Bool) (run : Request → State → State)
    (put : Request → Request) (h : ∀ q s, Does L s (run q s)) (hb : Part.bus ∈ L) (s : State) :
    Does L s (outputPart bit served run put s) := by
  unfold outputPart
  have k : ∀ t r, Does L t (finish r t) := fun t r => Does.mono (finish_does r t) (by simpa using hb)
  dsimp only
  split
  · repeat' split
    all_goals first
      | exact Does.refl _ s
      | exact k _ _
      | exact (h _ s).trans (Does.mono (settleOutputs_does _ _ _) (by simpa using hb))
  · exact Does.refl _ s

/-- With room in the outbox a record is placed and nothing is lost (R116). -/
theorem place_room (a : Alert) (s : State) (h : s.box.entries.length < 12) :
    place a s = { s with box := s.box.enter a s.box.entries } := by
  unfold place
  rw [if_pos h]

theorem serveNoteSend_does (q : Request) (s : State) : Does [.bus, .box, .credits] s (serveNoteSend q s).2 := by
  unfold serveNoteSend
  dsimp only
  split
  · exact Does.refl _ s
  · rename_i h
    rw [place_room _ s (by omega)]
    exact Does.trans (Does.mono (enter_does _ _ s rfl rfl fun _ => by omega) (by decide))
      (Does.mono (Does.boxAll _ _ rfl id) (by decide))

theorem beginSave_does (s : State) : Does [.store] s (beginSave s) := Does.store s _

theorem endSave_does (w : Saving) (ok : Bool) (s : State) : Does [.store, .bus] s (endSave w ok s) := by
  unfold endSave
  have h (x : Store) : Does [.store, .bus] s { s with store := x } := Does.mono (Does.store s x) (by decide)
  dsimp only
  split
  · exact (h _).trans (Does.mono (finish_does _ _) (by decide))
  · exact (h _).trans (Does.mono (finish_does _ _) (by decide))

end Sys2Proof.Laws
end

