-- ==== Sys2Proof/Laws/Settings.lean ====
section
/-! SUPPORT. What the operations that change the settings can do: PARAM_SET, RESTART and the load of an image; every stored
parameter stays a value of its range. -/
namespace Sys2Proof.Laws

open Sys2Proof Sys2Proof.Machine

/-! ### A value fitted to its range stays what it is -/

theorem clampI_idem (lo hi x : Int) : clampI lo hi (clampI lo hi x) = clampI lo hi x := by
  unfold clampI
  omega

theorem foldNearer_mem (x : Int) (l : List Int) (v : Int) : l.foldl (nearer x) v ∈ v :: l := by
  induction l generalizing v with
  | nil => simp
  | cons a r ih =>
    rw [List.foldl_cons]
    have h := ih (nearer x v a)
    have hn : nearer x v a = v ∨ nearer x v a = a := by
      unfold nearer
      split
      · exact Or.inl rfl
      · split
        · exact Or.inr rfl
        · rcases Int.le_total v a with h | h
          · exact Or.inr (by omega)
          · exact Or.inl (by omega)
    rcases List.mem_cons.mp h with h | h
    · rw [h]
      rcases hn with hn | hn <;> rw [hn] <;> simp
    · simp [h]

theorem condSet_idem (m : Nat) (x : Int) (hm : m < 4294967296) :
    (Fit.condSet m).fit ((Fit.condSet m).fit x) = (Fit.condSet m).fit x := by
  unfold Fit.fit
  have h : ((x % 4294967296).toNat &&& m) < 4294967296 := Nat.lt_of_le_of_lt Nat.and_le_right hm
  have e : ((((x % 4294967296).toNat &&& m : Nat) : Int) % 4294967296).toNat = (x % 4294967296).toNat &&& m := by omega
  dsimp only
  rw [e, Nat.and_assoc, Nat.and_self]

/-- Rows of the table whose fit is a set of values keep each of them, and whose fit is a condition set is within 32 bits. -/
def ParamRow.sound (r : ParamRow) : Bool :=
  match r.fit with
  | .range _ _ => true
  | .oneOf l => decide (l ≠ []) && l.all fun v => decide (r.fit.fit v = v)
  | .condSet m => decide (m < 4294967296)

theorem rows_sound : (paramTable.all fun r => ParamRow.sound r) = true := by decide +kernel

theorem rows_found : (paramTable.all fun r => decide (paramRow r.num = some r)) = true := by decide +kernel

theorem defaults_fit : (paramTable.all fun r => decide (r.fit.fit r.dflt = r.dflt)) = true := by decide +kernel

theorem fit_idem {r : ParamRow} (h : r ∈ paramTable) (x : Int) : r.fit.fit (r.fit.fit x) = r.fit.fit x := by
  have hs := List.all_eq_true.mp rows_sound r h
  unfold ParamRow.sound at hs
  split at hs
  · rename_i lo hi e
    rw [e]
    exact clampI_idem lo hi x
  · rename_i l e
    rw [Bool.and_eq_true] at hs
    have hl := List.all_eq_true.mp hs.2
    have hm : r.fit.fit x ∈ l := by
      rw [e]
      cases l with
      | nil => simp at hs
      | cons v t => exact foldNearer_mem x t v
    exact of_decide_eq_true (hl _ hm)
  · rename_i m e
    rw [e]
    exact condSet_idem m x (of_decide_eq_true hs)

theorem paramRow_mem {n : Nat} {r : ParamRow} (h : paramRow n = some r) : r ∈ paramTable ∧ r.num = n := by
  unfold paramRow at h
  exact ⟨List.mem_of_find?_eq_some h, by simpa using List.find?_some h⟩

theorem paramRow_of_mem {r : ParamRow} (h : r ∈ paramTable) : paramRow r.num = some r :=
  of_decide_eq_true (List.all_eq_true.mp rows_found r h)

/-- Every parameter a map holds is a value of its range. -/
def FitMap (m : List (Nat × Int)) : Prop :=
  ∀ r ∈ paramTable, r.fit.fit (Sparse.find (paramDefault r.num) r.num m) = Sparse.find (paramDefault r.num) r.num m

theorem paramsFit_iff (s : State) : s.paramsFit ↔ FitMap s.params := Iff.rfl

theorem fitMap_nil : FitMap [] := by
  intro r h
  have d : paramDefault r.num = r.dflt := by unfold paramDefault; rw [paramRow_of_mem h]
  show r.fit.fit (paramDefault r.num) = paramDefault r.num
  rw [d]
  exact of_decide_eq_true (List.all_eq_true.mp defaults_fit r h)

theorem fitMap_put {n : Nat} {r : ParamRow} (hr : paramRow n = some r) (x : Int) (m : List (Nat × Int))
    (hw : Sparse.wf paramDefault m = true) (h : FitMap m) :
    FitMap (Sparse.put (paramDefault n) n (r.fit.fit x) m) := by
  intro r' h'
  by_cases e : r'.num = n
  · have : r' = r := by
      have := paramRow_of_mem h'
      rw [e, hr] at this
      exact (Option.some.inj this).symm
    subst this
    rw [e, find_put paramDefault n _ none m hw]
    exact fit_idem h' x
  · rw [find_put_ne (paramDefault n) _ _ n r'.num m e]
    exact h r' h'

/-! ### A parameter stored -/

theorem setParam_param (n k : Nat) (x : Int) (s : State) (h : k ≠ n) : (setParam n x s).param k = s.param k :=
  find_put_ne (paramDefault n) (paramDefault k) x n k s.params h

/-- What was stored reads back. -/
theorem setParam_reads (n : Nat) (x : Int) (s : State) (hw : Sparse.wf paramDefault s.params = true) :
    (setParam n x s).param n = x := find_put paramDefault n x none s.params hw

theorem setParam_frame (n : Nat) (x : Int) (s : State) : OnlyIn [.params] s (setParam n x s) :=
  fun p hp => by cases p <;> first | rfl | (simp [Part.same, setParam]; done) | exact absurd (by simp) hp

theorem setParam_term (n : Nat) (x : Int) (s : State) (h : n ≠ 55) (k : s.termFollows) : (setParam n x s).termFollows := by
  show s.evt.wakeTerm = ((setParam n x s).param 55 == 1 && !s.evt.list.isEmpty)
  rw [setParam_param n 55 x s (Ne.symm h)]
  exact k

theorem setParam_degraded (n : Nat) (x : Int) (s : State) (h : n ≠ 112) (k : s.degradedFollows) :
    (setParam n x s).degradedFollows := by
  show s.mon.degraded = allConds.any fun c => s.mon.conds[c].status && inSet ((setParam n x s).param 112).toNat c
  rw [setParam_param n 112 x s (Ne.symm h)]
  exact k

theorem setParam_wake (n : Nat) (x : Int) (s : State) (h : n ≠ 110) (k : s.wakeFollows) : (setParam n x s).wakeFollows := by
  show s.mon.wake = ((allConds.any fun c => s.mon.conds[c].pending && inSet ((setParam n x s).param 110).toNat c) || s.evt.wakeTerm)
  rw [setParam_param n 110 x s (Ne.symm h)]
  exact k

/-- A stored parameter whose action does `f`, none of the three that an invariant reads. -/
theorem setParam_does {L : List Part} (n : Nat) (x : Int) (s u : State) (h : n ≠ 55 ∧ n ≠ 110 ∧ n ≠ 112)
    (k : Does L (setParam n x s) u) (hp : Part.params ∈ L) : Does L s u :=
  ⟨fun p hq => same_trans (setParam_frame n x s p fun e => hq (by simp at e; rw [e]; exact hp)) (k.frame p hq),
    k.lists, k.rates, fun a => k.term (setParam_term n x s h.1 a), fun a => k.degraded (setParam_degraded n x s h.2.2 a),
    fun a => k.wake (setParam_wake n x s h.2.1 a), k.rings⟩

/-- What PARAM_SET can change. -/
abbrev paramParts : List Part :=
  [.bus, .params, .mrk, .sch, .strobes, .box, .credits, .mon, .interval, .evt, .event, .htr, .bat, .moment, .chn, .rings,
    .prt]

theorem newInterval_does (old : Nat) (s : State) : Does [.mon, .interval] s (newInterval old s) := by
  unfold newInterval
  split
  · exact Does.refl _ s
  · exact Does.figsAll s _ rfl rfl rfl

/-- What the action of a stored parameter can change. -/
abbrev actionParts : List Part :=
  [.mrk, .sch, .strobes, .box, .credits, .mon, .interval, .evt, .event, .htr, .bat, .moment, .chn, .rings, .prt]

/-- One of two operations. -/
theorem Does.either {L : List Part} {s u v : State} (c : Prop) [Decidable c] (h : Does L s u) (k : Does L s v) :
    Does L s (if c then u else v) := by
  split
  · exact h
  · exact k

/-- The action of a stored parameter. -/
theorem paramAction_does (n : Nat) (old s : State) : Does actionParts s (paramAction n old s) := by
  unfold paramAction
  refine Does.either _ (Does.mono (reportClock_does s) (by decide)) ?_
  refine Does.either _ (Does.mono (clearInput_does _ s) (by decide)) ?_
  refine Does.either _ (Does.mono (clearInput_does _ s) (by decide)) ?_
  refine Does.either _ (Does.mono (clearInput_does _ s) (by decide)) ?_
  refine Does.either _ (Does.mono (storeRate_does _ s) (by decide)) ?_
  refine Does.either _ (Does.mono (evalSupply_does _ s) (by decide)) ?_
  refine Does.either _ (Does.mono (evalSupply_does _ s) (by decide)) ?_
  refine Does.either _ (Does.mono (judgeErrors_does _ s) (by decide)) ?_
  refine Does.either _ (Does.mono (judgeErrors_does _ s) (by decide)) ?_
  refine Does.either _ (Does.mono (eventWakeEval_does s) (by decide)) ?_
  refine Does.either _ (Does.mono (clampCredits_does s) (by decide)) ?_
  refine Does.either _ (Does.mono (clampCharge_does s) (by decide)) ?_
  refine Does.either _ (Does.mono (chargeTempTest_does s) (by decide)) ?_
  refine Does.either _ (Does.mono (heaterFollow_does s) (by decide)) ?_
  refine Does.either _ (Does.mono (relimit_does s) (by decide)) ?_
  refine Does.either _ (Does.mono ((judgeBudget_does s).trans (relimit_does _)) (by decide)) ?_
  refine Does.either _ (Does.mono (wakeEval_does s) (by decide)) ?_
  refine Does.either _ (Does.mono (degradedEval_does s) (by decide)) ?_
  exact Does.either _ (Does.mono (newInterval_does _ s) (by decide)) (Does.refl _ s)

theorem paramStored_does (n : Nat) (x : Int) (old s : State) : Does paramParts s (paramAction n old (setParam n x s)) := by
  have k : Does paramParts _ _ := Does.mono (paramAction_does n old (setParam n x s)) (by decide)
  have hf : OnlyIn paramParts s (paramAction n old (setParam n x s)) := fun p hp =>
    same_trans (setParam_frame n x s p fun e => hp (by simp at e; rw [e]; decide)) (k.frame p hp)
  by_cases h55 : n = 55
  · subst h55
    exact ⟨hf, k.lists, k.rates, fun _ => rfl, fun a => k.degraded (setParam_degraded 55 x s (by decide) a), fun _ => rfl, k.rings⟩
  · by_cases h110 : n = 110
    · subst h110
      exact ⟨hf, k.lists, k.rates, fun a => k.term (setParam_term 110 x s (by decide) a),
        fun a => k.degraded (setParam_degraded 110 x s (by decide) a), fun _ => rfl, k.rings⟩
    · by_cases h112 : n = 112
      · subst h112
        exact ⟨hf, k.lists, k.rates, fun a => k.term (setParam_term 112 x s (by decide) a), fun _ => rfl,
          fun a => k.wake (setParam_wake 112 x s (by decide) a), k.rings⟩
      · exact setParam_does n x s _ ⟨h55, h110, h112⟩ k (by decide)

theorem writeParam_does (n : Nat) (x : Int) (ev : Bool) (s : State) : Does paramParts s (writeParam n x ev s).2 := by
  unfold writeParam
  dsimp only
  repeat' split
  all_goals first
    | exact Does.refl _ s
    | exact Does.trans (Does.mono (Does.moment s {}) (by decide)) (paramStored_does _ _ _ _)

/-- PARAM_SET keeps the parameters in their canonical form and ranges. -/
theorem writeParam_params (n : Nat) (x : Int) (ev : Bool) (s : State) (hw : Sparse.wf paramDefault s.params = true)
    (hf : FitMap s.params) :
    Sparse.wf paramDefault (writeParam n x ev s).2.params = true ∧ FitMap (writeParam n x ev s).2.params := by
  unfold writeParam
  dsimp only
  split
  · exact ⟨hw, hf⟩
  · rename_i r hr
    split
    · exact ⟨hw, hf⟩
    · have e : (paramAction n s (setParam n (r.fit.fit x) { s with moment := {} })).params = (setParam n (r.fit.fit x) s).params :=
        (paramAction_does n s (setParam n (r.fit.fit x) { s with moment := {} })).frame .params (by decide)
      simp only [e]
      exact ⟨put_wf paramDefault n _ _ hw, fitMap_put hr x _ hw hf⟩

/-! ### The load -/

theorem fitStep_ok (acc : List (Nat × Int) × Bool) (a : Nat × Int)
    (h : Sparse.wf paramDefault acc.1 = true ∧ FitMap acc.1) :
    Sparse.wf paramDefault (match paramRow a.1 with
      | none => (acc.1, acc.2)
      | some r => (Sparse.put r.dflt a.1 (r.fit.fit a.2) acc.1, acc.2 || decide (r.fit.fit a.2 ≠ a.2))).1 = true
    ∧ FitMap (match paramRow a.1 with
      | none => (acc.1, acc.2)
      | some r => (Sparse.put r.dflt a.1 (r.fit.fit a.2) acc.1, acc.2 || decide (r.fit.fit a.2 ≠ a.2))).1 := by
  split
  · exact h
  · rename_i r hr
    have d : r.dflt = paramDefault a.1 := by unfold paramDefault; rw [hr]
    dsimp only
    rw [d]
    exact ⟨put_wf paramDefault a.1 _ _ h.1, fitMap_put hr a.2 _ h.1 h.2⟩

theorem fitFold_ok (l : List (Nat × Int)) (acc : List (Nat × Int) × Bool)
    (h : Sparse.wf paramDefault acc.1 = true ∧ FitMap acc.1) :
    Sparse.wf paramDefault (l.foldl (fun (m, ch) (n, x) =>
      match paramRow n with
      | none => (m, ch)
      | some r => (Sparse.put r.dflt n (r.fit.fit x) m, ch || decide (r.fit.fit x ≠ x))) acc).1 = true
    ∧ FitMap (l.foldl (fun (m, ch) (n, x) =>
      match paramRow n with
      | none => (m, ch)
      | some r => (Sparse.put r.dflt n (r.fit.fit x) m, ch || decide (r.fit.fit x ≠ x))) acc).1 := by
  induction l generalizing acc with
  | nil => exact h
  | cons a r ih => exact ih _ (fitStep_ok acc a h)

theorem fitParams_ok (l : List (Nat × Int)) :
    Sparse.wf paramDefault (fitParams l).1 = true ∧ FitMap (fitParams l).1 :=
  fitFold_ok l ([], false) ⟨rfl, fitMap_nil⟩

/-- Whatever a load puts in force is canonical and within its ranges. -/
theorem load_ok (st : Store) : Sparse.wf paramDefault st.load.params = true ∧ FitMap st.load.params := by
  unfold Store.load
  split
  · exact ⟨rfl, fitMap_nil⟩
  · exact fitParams_ok _

end Sys2Proof.Laws
end

