-- ==== Sys2Proof/Laws/Restart.lean ====
section
/-! SUPPORT. What RESTART and POWER_ON can do, and that both leave every invariant of the state. -/
namespace Sys2Proof.Laws

open Sys2Proof Sys2Proof.Machine

/-! ### RESTART -/

/-- What RESTART can change. -/
abbrev restartParts : List Part :=
  [.clk, .supplyView, .mrk, .sch, .strobes, .prt, .map, .pendingMap, .rings, .chn, .evt, .event, .box, .credits, .flight, .mdm,
    .bat, .htr, .mon, .interval, .bus, .params, .store, .moment]

theorem restartLoad_frame (ld : Loaded) (s : State) : OnlyIn [.params, .store, .chn] s (restartLoad ld s) :=
  fun p hp => by cases p <;> first | rfl | (simp [Part.same, restartLoad]; done) | exact absurd (by simp) hp

theorem restartClock_does (s : State) : Does [.clk, .supplyView, .box, .mon] s (restartClock s) := by
  unfold restartClock
  refine Does.trans ?_ (Does.mono (reportClock_does _) (by decide))
  exact Does.mono (Does.clkSupply s _ (by simp [Part.same]) id) (by decide)

theorem restartMarks_does (s : State) : Does [.mrk] s (restartMarks s) := Does.mrk s _ fun _ => by simp

theorem restartEvents_does (s : State) : Does voteParts s (restartEvents s) := by
  unfold restartEvents
  refine Does.trans (Does.mono (closeBetweenVotes_does (fun f => { f with aborted := true }) s) (by decide)) ?_
  exact Does.mono (putEvents_does _ _ id) (by decide)

theorem restartEvents_term (s : State) : (restartEvents s).termFollows := rfl

theorem restartPort_does (p : PortId) (s : State) : Does portParts s (restartPort p s) := by
  unfold restartPort
  split
  · exact Does.refl _ s
  · exact (stopLink_does p s).trans (closeStopped_does p _ _)

theorem restartScheduler_does (s : State) : Does [.sch, .strobes, .chn, .evt] s (restartScheduler s) := by
  unfold restartScheduler
  have h : Does [.sch, .strobes, .chn, .evt] s (match s.runningCal with
      | none => s
      | some c => leaveRunning c .cancelled s) := by
    split
    · exact Does.refl _ s
    · exact Does.mono (leaveRunning_does _ _ s) (by decide)
  refine Does.trans (Does.trans h ?_) (Does.mono (storeRate_does _ _) (by decide))
  exact Does.mono (Does.schAll _ _ fun _ => by simp) (by decide)

theorem restartRings_does (m : ChanMap) (s : State) : Does [.rings, .map, .pendingMap] s (restartRings m s) := by
  unfold restartRings
  refine Does.trans (Does.mono (clearRings_does s) (by decide)) ?_
  generalize allChans.foldl _ s = u
  exact Does.trans (t := { u with map := m }) (Does.mono (Does.map u m) (by decide))
    (Does.mono (Does.pendingMap { u with map := m } none) (by decide))

theorem restartTrigger_does (s : State) : Does [.chn, .evt] s (restartTrigger s) := by
  unfold restartTrigger
  refine Does.trans ?_ (resuppress_does _)
  refine Does.trans ?_ (restartAll_does _)
  exact Does.mono (Does.chn s _) (by decide)

theorem restartPower_does (s : State) : Does [.bat, .box, .mon, .htr] s (restartPower s) := by
  unfold restartPower
  refine Does.trans ?_ (Does.mono (heaterFollow_does _) (by decide))
  refine Does.trans ?_ (Does.mono (relimit_does _) (by decide))
  refine Does.trans ?_ (Does.mono (judgeBudget_does _) (by decide))
  refine Does.trans ?_ (Does.mono (chargeTempTest_does _) (by decide))
  exact Does.mono (clampCharge_does s) (by decide)

/-- The condition rows with every pending mark cleared and the figures zeroed: WAKE is evaluated after it. -/
theorem restartMonitor_does (old : Nat) (s : State) : Does [.mon, .interval, .box] s (restartMonitor old s) := by
  unfold restartMonitor
  dsimp only
  have f : OnlyIn [.mon, .interval, .box] s { s with mon := { s.mon with
      conds := s.mon.conds.map fun k => { k with pending := false }, figs := {} } } :=
    fun p hp => by cases p <;> first | rfl | (simp [Part.same]; done) | exact absurd (by simp) hp
  have k : Does [.mon, .interval, .box] { s with mon := { s.mon with
      conds := s.mon.conds.map fun k => { k with pending := false }, figs := {} } }
      (degradedEval (judgeErrors 1 (judgeErrors 0 { s with mon := { s.mon with
        conds := s.mon.conds.map fun k => { k with pending := false }, figs := {} } }))) := by
    refine Does.trans ?_ (Does.mono (degradedEval_does _) (by decide))
    refine Does.trans ?_ (Does.mono (judgeErrors_does 1 _) (by decide))
    exact Does.mono (judgeErrors_does 0 _) (by decide)
  have d : (degradedEval (judgeErrors 1 (judgeErrors 0 { s with mon := { s.mon with
        conds := s.mon.conds.map fun k => { k with pending := false }, figs := {} } }))).degradedFollows := rfl
  generalize degradedEval (judgeErrors 1 (judgeErrors 0 _)) = u at *
  have m : Does [.mon, .interval, .box] u (newInterval old (wakeEval u)) :=
    Does.trans (Does.mono (wakeEval_does u) (by decide)) (Does.mono (newInterval_does old _) (by decide))
  exact ⟨fun p hp => same_trans (f p hp) (same_trans (k.frame p hp) (m.frame p hp)),
    fun h => m.lists (k.lists h), fun h => m.rates (k.rates h), fun h => m.term (k.term h), fun _ => m.degraded d,
    fun _ => (newInterval_does old (wakeEval u)).wake rfl, fun h => m.rings (k.rings h)⟩

theorem restartMonitor_wake (old : Nat) (s : State) : (restartMonitor old s).wakeFollows :=
  (newInterval_does old _).wake rfl

theorem restartMonitor_degraded (old : Nat) (s : State) : (restartMonitor old s).degradedFollows :=
  (newInterval_does old _).degraded ((wakeEval_does _).degraded rfl)

/-- RESTART keeps its frame and every invariant, whatever the load puts in force. -/
theorem restartWork_does (s : State) : Does restartParts s (restartWork s) := by
  have fa : OnlyIn restartParts s (restartLoad s.store.load s) := fun p hp =>
    restartLoad_frame _ s p fun e => hp (by revert e; cases p <;> simp)
  have ab : Does restartParts (restartLoad s.store.load s)
      (restartEvents (restartMarks (restartClock (restartLoad s.store.load s)))) := by
    refine Does.trans ?_ (Does.mono (restartEvents_does _) (by decide))
    refine Does.trans ?_ (Does.mono (restartMarks_does _) (by decide))
    exact Does.mono (restartClock_does _) (by decide)
  have tb := restartEvents_term (restartMarks (restartClock (restartLoad s.store.load s)))
  have la : s.listsFit → (restartLoad s.store.load s).listsFit := id
  have ra : s.ratesBounded → (restartLoad s.store.load s).ratesBounded := id
  have ga : (∀ c : Chan, Sparse.wf (fun _ => Slot.blank) s.rings[c].slots = true) →
      ∀ c : Chan, Sparse.wf (fun _ => Slot.blank) (restartLoad s.store.load s).rings[c].slots = true := id
  unfold restartWork
  dsimp only
  generalize restartEvents (restartMarks (restartClock (restartLoad s.store.load s))) = b at *
  generalize restartLoad s.store.load s = a at *
  have bc : Does restartParts b (restartPower (outboxRestart (evalSupplies (restartTrigger
      (restartRings s.store.load.map (restartScheduler (restartPort 1 (restartPort 0 b)))))))) := by
    refine Does.trans ?_ (Does.mono (restartPower_does _) (by decide))
    refine Does.trans ?_ (Does.mono (outboxRestart_does _) (by decide))
    refine Does.trans ?_ (Does.mono (evalSupplies_does _) (by decide))
    refine Does.trans ?_ (Does.mono (restartTrigger_does _) (by decide))
    refine Does.trans ?_ (Does.mono (restartRings_does _ _) (by decide))
    refine Does.trans ?_ (Does.mono (restartScheduler_does _) (by decide))
    exact Does.mono ((restartPort_does 0 b).trans (restartPort_does 1 _)) (by decide)
  generalize restartPower (outboxRestart _) = c at *
  have cd : Does restartParts c (restartMonitor s.intervalLen c) := Does.mono (restartMonitor_does _ c) (by decide)
  have wd := restartMonitor_wake s.intervalLen c
  have dd := restartMonitor_degraded s.intervalLen c
  generalize restartMonitor s.intervalLen c = d at *
  have de : Does restartParts d { d with bus := { d.bus with restarts := inc16 d.bus.restarts }, moment := {} } :=
    Does.after (Does.bus d { d.bus with restarts := inc16 d.bus.restarts })
      (Does.moment { d with bus := { d.bus with restarts := inc16 d.bus.restarts } } {}) (by decide) (by decide)
  have ae := ((ab.trans bc).trans cd).trans de
  exact ⟨fun p hp => same_trans (fa p hp) (ae.frame p hp), fun h => ae.lists (la h), fun h => ae.rates (ra h),
    fun _ => de.term (cd.term (bc.term tb)), fun _ => de.degraded dd, fun _ => de.wake wd, fun h => ae.rings (ga h)⟩

/-- After RESTART the parameters are those of the load. -/
theorem restartWork_params (s : State) : (restartWork s).params = s.store.load.params := by
  have ab : Does [.clk, .supplyView, .mrk, .sch, .evt, .event, .box, .mdm, .bat, .htr, .mon, .moment]
      (restartLoad s.store.load s) (restartEvents (restartMarks (restartClock (restartLoad s.store.load s)))) := by
    refine Does.trans ?_ (Does.mono (restartEvents_does _) (by decide))
    refine Does.trans ?_ (Does.mono (restartMarks_does _) (by decide))
    exact Does.mono (restartClock_does _) (by decide)
  have e1 : (restartEvents (restartMarks (restartClock (restartLoad s.store.load s)))).params = s.store.load.params :=
    ab.frame .params (by decide)
  unfold restartWork
  dsimp only
  generalize restartEvents (restartMarks (restartClock (restartLoad s.store.load s))) = b at *
  rw [show (restartMonitor s.intervalLen _).params = _ from (restartMonitor_does _ _).frame .params (by decide),
    show (restartPower _).params = _ from (restartPower_does _).frame .params (by decide),
    show (outboxRestart _).params = _ from (outboxRestart_does _).frame .params (by decide),
    show (evalSupplies _).params = _ from (evalSupplies_does _).frame .params (by decide),
    show (restartTrigger _).params = _ from (restartTrigger_does _).frame .params (by decide),
    show (restartRings _ _).params = _ from (restartRings_does _ _).frame .params (by decide),
    show (restartScheduler _).params = _ from (restartScheduler_does _).frame .params (by decide),
    show (restartPort 1 _).params = _ from (restartPort_does 1 _).frame .params (by decide),
    show (restartPort 0 _).params = _ from (restartPort_does 0 _).frame .params (by decide), e1]

/-! ### POWER_ON -/

/-- The part before its conditions and supplies are set: everything the load and the reading give. -/
theorem loadPart_ok (s : State) : (loadPart s).listsFit ∧ (loadPart s).ratesBounded ∧ (loadPart s).termFollows
    ∧ ∀ c : Chan, Sparse.wf (fun _ => Slot.blank) (loadPart s).rings[c].slots = true := by
  refine ⟨⟨by simp [loadPart], by simp [loadPart], by simp [loadPart], by simp [loadPart]⟩,
    ⟨by simp [loadPart], by simp [loadPart], by simp [loadPart], by simp [loadPart], by simp [loadPart], by simp [loadPart]⟩,
    ?_, ?_⟩
  · show false = (_ && !List.isEmpty (α := EvRecord) [])
    simp
  · intro c
    show Sparse.wf _ (#v[({} : Ring), {}, {}, {}, {}, {}])[c].slots = true
    revert c
    decide

/-- What the blocks between the load and the supplies set at power-on. -/
abbrev startParts : List Part := [.pwr, .bat, .power, .clk, .supplyView, .mdm, .bus, .sch, .strobes, .box, .credits, .htr]

theorem startMonitor_does (r : Reading) (s : State) : Does [.pwr] s (startMonitor r s) := Does.pwr s _

theorem startBattery_does (s : State) : Does [.bat, .power] s (startBattery s) := Does.batAll s _

theorem putLines_does (s : State) (x : Clock) (y : Modem) (z : Bus) (w : Scheduler) (v : Outbox)
    (ht : Part.time.same s { s with clk := x }) (hr : s.ratesBounded → ({ s with clk := x } : State).ratesBounded)
    (hc : s.sch.cals.length ≤ 4 → w.cals.length ≤ 4) (hf : v.entries = s.box.entries) :
    Does startParts s { s with clk := x, mdm := y, bus := z, sch := w, box := v } :=
  Does.trans (t := { s with clk := x }) (Does.mono (Does.clkSupply s x ht hr) (by decide))
    (Does.trans (t := { s with clk := x, mdm := y }) (Does.mono (Does.mdm { s with clk := x } y) (by decide))
      (Does.trans (t := { s with clk := x, mdm := y, bus := z })
        (Does.mono (Does.bus { s with clk := x, mdm := y } z) (by decide))
        (Does.trans (t := { s with clk := x, mdm := y, bus := z, sch := w })
          (Does.mono (Does.schAll { s with clk := x, mdm := y, bus := z } w hc) (by decide))
          (Does.mono (Does.boxAll { s with clk := x, mdm := y, bus := z, sch := w } v (by rw [hf]) (by rw [hf]; exact id)) (by decide)))))

theorem startLines_does (s : State) : Does startParts s (startLines s) :=
  putLines_does s _ _ _ _ _ (by simp [Part.same]) id id rfl

theorem startHeater_does (s : State) : Does [.htr] s (startHeater s) := by
  unfold startHeater
  dsimp only
  have h (x : Heater) : Does [.htr] s (heaterLaw (judgeBudget { s with htr := x })) :=
    Does.trans (Does.trans (Does.htr s x) (judgeBudget_does _)) (heaterLaw_does _)
  exact (h _).trans (Does.htr _ _)

/-- With both links OFF the supplies only come on: nothing is reported and no slot is written. -/
theorem evalSupplies_start (s : State) (h0 : s.prt[0].link = .off) (h1 : s.prt[1].link = .off) :
    Does [.prt] s (evalSupplies s) := by
  have sw (p : PortId) (u : State) (hu : u.prt[p].link = .off) : Does [.prt] u (switchSupply p u) := by
    unfold switchSupply
    rw [if_pos hu, if_pos hu]
    exact Does.ite _ (startPort p) (Does.refl _ u) (startPort_does p u)
  have cl (p : PortId) (old : Port) (u : State) (ho : old.link = .off) : closeStopped p old u = u := by
    unfold closeStopped
    rw [if_neg (fun h => h.1 ho)]
  have k : (switchSupply 0 s).prt[(1 : PortId)].link = .off := by
    have e : switchSupply 0 s = if s.supplyDue 0 then startPort 0 s else s := by
      unfold switchSupply
      rw [if_pos (show s.prt[(0 : PortId)].link = .off from h0), if_pos (show s.prt[(0 : PortId)].link = .off from h0)]
    rw [e]
    split
    · show (s.prt.set 0 _)[1].link = .off
      rw [Vector.getElem_set]
      simpa using h1
    · exact h1
  unfold evalSupplies
  rw [cl 0 _ _ h0, cl 1 _ _ h1]
  exact (sw 0 s h0).trans (sw 1 _ k)

/-- The part before its conditions are set. -/
def started (r : Reading) (s : State) : State :=
  evalSupplies (startHeater (startLines (startBattery (startMonitor r (loadPart s)))))

theorem powerOn_eq (r : Reading) (s : State) : powerOn r s = startConditions (started r s) := rfl

theorem started_does (r : Reading) (s : State) : Does (.prt :: startParts) (loadPart s) (started r s) := by
  have h : Does startParts (loadPart s) (startHeater (startLines (startBattery (startMonitor r (loadPart s))))) := by
    refine Does.trans ?_ (Does.mono (startHeater_does _) (by decide))
    refine Does.trans ?_ (startLines_does _)
    exact Does.trans (Does.mono (startMonitor_does r _) (by decide)) (Does.mono (startBattery_does _) (by decide))
  have p : (startHeater (startLines (startBattery (startMonitor r (loadPart s))))).prt = (loadPart s).prt :=
    h.frame .prt (by decide)
  unfold started
  generalize startHeater (startLines (startBattery (startMonitor r (loadPart s)))) = u at *
  have o : ∀ i : PortId, u.prt[i].link = .off := by rw [p]; show ∀ i : PortId, (#v[({} : Port), {}])[i].link = .off; decide
  exact Does.trans (Does.mono h (by decide)) (Does.mono (evalSupplies_start u (o 0) (o 1)) (by decide))

theorem powerOn_params (r : Reading) (s : State) : (powerOn r s).params = s.store.load.params := by
  have e : (started r s).params = (loadPart s).params := (started_does r s).frame .params (by decide)
  rw [powerOn_eq]
  generalize started r s = u at *
  exact e

theorem startConditions_wake (u : State) (w : u.mon.wake = false) (e : u.evt.wakeTerm = false) :
    (startConditions u).wakeFollows := by
  show u.mon.wake = ((allConds.any fun c => (Vector.ofFn fun c => ({ status := u.initialStatus c } : Cond))[c].pending
    && _) || u.evt.wakeTerm)
  rw [w, e, Bool.or_false, eq_comm, List.any_eq_false]
  intro c _
  simp

/-- The invariants of the state that no setting bears on, and the three that follow from the settings. -/
structure Ok (s : State) : Prop where
  lists : s.listsFit
  rates : s.ratesBounded
  term : s.termFollows
  degraded : s.degradedFollows
  wake : s.wakeFollows
  rings : ∀ c : Chan, Sparse.wf (fun _ => Slot.blank) s.rings[c].slots = true

theorem putMon_frame (s : State) (x : Monitor) : OnlyIn [.mon, .interval] s { s with mon := x } :=
  fun p hp => by cases p <;> first | rfl | (simp [Part.same]; done) | exact absurd (by simp) hp

theorem startConditions_ok (u : State) (w : u.mon.wake = false) (e : u.evt.wakeTerm = false) (l : u.listsFit)
    (b : u.ratesBounded) (t : u.termFollows)
    (g : ∀ c : Chan, Sparse.wf (fun _ => Slot.blank) u.rings[c].slots = true) : Ok (startConditions u) := by
  have f : OnlyIn [.mon, .interval] u (startConditions u) := putMon_frame u _
  have d : (startConditions u).degradedFollows := degradedEval_follows _
  have h := startConditions_wake u w e
  generalize startConditions u = v at *
  have e1 : v.clk = u.clk := f .clk (by decide)
  have e2 : v.mrk = u.mrk := f .mrk (by decide)
  have e3 : v.sch = u.sch := f .sch (by decide)
  have e4 : v.box = u.box := f .box (by decide)
  have e5 : v.evt = u.evt := f .evt (by decide)
  have e6 : v.rings = u.rings := f .rings (by decide)
  have e7 : v.params = u.params := f .params (by decide)
  refine ⟨?_, ?_, ?_, d, h, ?_⟩
  · unfold State.listsFit at *; rw [e2, e3, e4, e5]; exact l
  · unfold State.ratesBounded at *; rw [e1]; exact b
  · unfold State.termFollows State.eventWake State.param at *; rw [e5, e7]; exact t
  · rw [e6]; exact g

theorem started_ok (r : Reading) (s : State) : (started r s).mon.wake = false ∧ (started r s).evt.wakeTerm = false := by
  have d := started_does r s
  generalize started r s = u at *
  constructor
  · rw [show u.mon = (loadPart s).mon from d.frame .mon (by decide)]; rfl
  · rw [show u.evt = (loadPart s).evt from d.frame .evt (by decide)]; rfl

/-- After POWER_ON every invariant holds, whatever the part held before. -/
theorem powerOn_ok (r : Reading) (s : State) : Ok (powerOn r s) := by
  have d := started_does r s
  have k := loadPart_ok s
  have m := started_ok r s
  rw [powerOn_eq]
  exact startConditions_ok _ m.1 m.2 (d.lists k.1) (d.rates k.2.1) (d.term k.2.2.1) (d.rings k.2.2.2)

end Sys2Proof.Laws
end

