-- ==== Sys2Proof/Laws/Commands.lean ====
section
/-! SUPPORT. One lemma for each command but POWER_ON: where it answers a next state, that state differs only in the parts
`touches` lists for it, and every invariant is kept. -/
namespace Sys2Proof.Laws

open Sys2Proof Sys2Proof.Machine

/-- A command that changes the state by f, from what f does. -/
theorem act_does {L : List Part} {f : State → State} {s t : State} (h : act f s = .next t) (k : ∀ s, Does L s (f s)) :
    Does L s t := by
  unfold act at h
  have e := Host.Outcome.next.inj h
  rw [← e]
  split
  · exact k s
  · exact Does.refl _ s

/-- A command that acts where a condition holds. -/
theorem Does.when {L : List Part} {s u : State} (c : Prop) [Decidable c] (h : Does L s u) : Does L s (if c then u else s) := by
  split
  · exact h
  · exact Does.refl _ s

theorem elapse_does' {L : List Part} (n : Nat) (s : State) (h : ∀ p ∈ Part.cycles, p ∈ L) : Does L s (elapse n s) :=
  Does.mono (elapse_does n s) h

/-- A command of a line: cycles pass, then f acts. -/
theorem Does.afterCycles {L : List Part} (n : Nat) (f : State → State) (s : State) (hf : ∀ t, Does L t (f t))
    (h : ∀ p ∈ Part.cycles, p ∈ L) : Does L s (f (elapse n s)) := (elapse_does' n s h).trans (hf _)

/-- A command that acts at its own deadline. -/
theorem Does.atDeadline {L : List Part} (d : Nat) (f : State → State) (s : State) (hf : ∀ t, Does L t (f t))
    (h : ∀ p ∈ Part.cycles, p ∈ L) : Does L s (atCycle d f s) := atCycle_does d f s hf h

theorem execSecondBoundary_does (r : Reading) {s t : State} (h : execSecondBoundary r s = .next t) : Does (touches (.secondBoundary r)) s t := by
  refine act_does h fun s => ?_
  exact Does.mono (secondBoundary_does r s) (by simp [touches])

theorem execFullSync_does  {s t : State} (h : execFullSync s = .next t) : Does (touches .fullSync) s t := by
  refine act_does h fun s => ?_
  refine Does.when _ ?_
  exact Does.trans (Does.mono (fullSync_does s) (by decide)) (Does.mono (Does.batAll (fullSync s) _) (by decide))

theorem execAbsorbTimeLimit_does  {s t : State} (h : execAbsorbTimeLimit s = .next t) : Does (touches .absorbTimeLimit) s t := by
  refine act_does h fun s => ?_
  exact Does.when _ (Does.mono (enterFloat_does s) (by decide))

theorem execFloatLowRecharge_does  {s t : State} (h : execFloatLowRecharge s = .next t) : Does (touches .floatLowRecharge) s t := by
  refine act_does h fun s => ?_
  exact Does.when _ (Does.mono (enterBulk_does s) (by decide))

theorem execChargerAutoRestart_does  {s t : State} (h : execChargerAutoRestart s = .next t) : Does (touches .chargerAutoRestart) s t := by
  refine act_does h fun s => ?_
  refine Does.when _ ?_
  exact Does.trans (Does.mono (chargerAutoRestart_does s) (by decide)) (Does.mono (reportCharge_does _) (by decide))

theorem execEmptySync_does  {s t : State} (h : execEmptySync s = .next t) : Does (touches .emptySync) s t := by
  refine act_does h fun s => ?_
  split
  · exact Does.refl _ s
  · exact Does.mono (emptySyncDue_does s) (by decide)

theorem execShedEntry_does  {s t : State} (h : execShedEntry s = .next t) : Does (touches .shedEntry) s t := by
  refine act_does h fun s => ?_
  refine Does.when _ ?_
  exact Does.trans (t := { s with bat := s.bat.shed }) (Does.mono (Does.batAll s _) (by decide)) (Does.mono (handShed_does _) (by decide))

theorem execShedExit_does  {s t : State} (h : execShedExit s = .next t) : Does (touches .shedExit) s t := by
  refine act_does h fun s => ?_
  refine Does.when _ ?_
  exact Does.trans (t := { s with bat := s.bat.resume }) (Does.mono (Does.batAll s _) (by decide)) (Does.mono (handRun_does _) (by decide))

theorem execChgPwmPeriod_does  {s t : State} (h : execChgPwmPeriod s = .next t) : Does (touches .chgPwmPeriod) s t := by
  refine act_does h fun s => ?_
  exact Does.atDeadline _ _ s (fun t => Does.mono (chgPeriodStart_does t) (by decide)) (by decide)

theorem execChargeHoldExpiry_does  {s t : State} (h : execChargeHoldExpiry s = .next t) : Does (touches .chargeHoldExpiry) s t := by
  refine act_does h fun s => ?_
  split
  · exact Does.refl _ s
  · exact Does.when _ (Does.mono (chargeHoldEnd_does s) (by decide))

theorem execHeaterHoldExpiry_does  {s t : State} (h : execHeaterHoldExpiry s = .next t) : Does (touches .heaterHoldExpiry) s t := by
  refine act_does h fun s => ?_
  split
  · exact Does.refl _ s
  · exact Does.when _ (Does.mono (heaterHoldEnd_does s) (by decide))

theorem execHeaterAutoRestart_does  {s t : State} (h : execHeaterAutoRestart s = .next t) : Does (touches .heaterAutoRestart) s t := by
  refine act_does h fun s => ?_
  exact Does.when _ (Does.mono (heaterRestart_does s) (by decide))

/-- The HEAT_FAULT input takes a level, and `f` follows. -/
theorem faultChange_does {L : List Part} (v : Bool) (dt : Nat) (f : State → State) (s : State) (hf : ∀ t, Does L t (f t))
    (h : ∀ p ∈ Part.cycles, p ∈ L) (hh : Part.htr ∈ L) : Does L s (faultChange v dt f s) := by
  unfold faultChange
  split
  · exact elapse_does' dt s h
  · have k := elapse_does' (max dt (s.htr.faultAt + faultCycles - s.osc)) s h
    generalize elapse (max dt (s.htr.faultAt + faultCycles - s.osc)) s = u at *
    dsimp only
    split
    · exact (k.trans (Does.mono (Does.htr u _) (by simpa using hh))).trans (hf _)
    · exact k

theorem faultShutdown_does (s : State) : Does [.htr, .box, .mon] s (faultShutdown s) := by
  unfold faultShutdown
  split
  · exact Does.mono (Does.htr s _) (by decide)
  · exact Does.mono (heaterShutdown_does s) (by decide)

theorem execHeatFaultAsserted_does (dt : Nat) {s t : State} (h : execHeatFaultAsserted dt s = .next t) : Does (touches (.heatFaultAsserted dt)) s t := by
  refine act_does h fun s => ?_
  exact faultChange_does true dt _ s (fun t => Does.mono (faultShutdown_does t) (by simp [touches])) (by simp [touches])
    (by simp [touches])

theorem execHeatFaultCleared_does (dt : Nat) {s t : State} (h : execHeatFaultCleared dt s = .next t) : Does (touches (.heatFaultCleared dt)) s t := by
  refine act_does h fun s => ?_
  exact faultChange_does false dt id s (fun t => Does.refl _ t) (by simp [touches]) (by simp [touches])

theorem execStrobe_does  {s t : State} (h : execStrobe s = .next t) : Does (touches .strobe) s t := by
  refine act_does h fun s => ?_
  dsimp only
  refine Does.when _ ?_
  have k := elapse_does' (L := touches .strobe) (s.clk.cyclesTo s.strobeTick) s (by decide)
  generalize elapse (s.clk.cyclesTo s.strobeTick) s = u at *
  exact (k.trans (Does.mono (Does.moment u {}) (by decide))).trans (Does.mono (issueStrobe_does _ _) (by decide))

theorem execPendingRateApply_does  {s t : State} (h : execPendingRateApply s = .next t) : Does (touches .pendingRateApply) s t := by
  refine act_does h fun s => ?_
  exact Does.when _ (Does.mono (pendingRate_does s) (by decide))

theorem execPendingMapApply_does  {s t : State} (h : execPendingMapApply s = .next t) : Does (touches .pendingMapApply) s t := by
  refine act_does h fun s => ?_
  exact Does.when _ (Does.mono (pendingMapTest_does s) (by decide))

theorem markQualify_does (i : Input) (hi : i ≠ .pps) (x : EdgeTest) (s : State) : Does [.mrk] s (qualify i x s) := by
  have h (u : State) : Does [.mrk] u (handCapture i x u) := by
    cases i with
    | pps => exact absurd rfl hi
    | markA => exact Does.mrk u _ (enter_length u.mrk _)
    | markB => exact Does.mrk u _ (enter_length u.mrk _)
  have k (u : State) : Does [.mrk] u (prescaleEdge i x u) := by
    unfold prescaleEdge
    dsimp only
    split
    · exact (setInput_does i _ u).trans (h _)
    · exact setInput_does i _ u
  unfold qualify
  cases i with
  | pps => exact absurd rfl hi
  | markA => exact (setInput_does .markA _ s).trans (k _)
  | markB => exact (setInput_does .markB _ s).trans (k _)

theorem markEdge_does (i : Input) (hi : i ≠ .pps) (s : State) : Does [.mrk] s (seeEdge i s) := by
  unfold seeEdge
  dsimp only
  have h := setInput_does i { s.mrk.input i with high := s.selectedLevel i } s
  split
  · exact h
  · split
    · exact h.trans (markQualify_does i hi _ _)
    · exact h.trans (setInput_does i _ _)

theorem markEnd_does (i : Input) (hi : i ≠ .pps) (s : State) : Does [.mrk] s (endLevel i s) := by
  unfold endLevel
  dsimp only
  have h := setInput_does i { s.mrk.input i with high := !s.selectedLevel i } s
  generalize setInput i { s.mrk.input i with high := !s.selectedLevel i } s = u at *
  split
  · exact h
  · split
    · exact h.trans (markQualify_does i hi _ _)
    · have k := h.trans (setInput_does i { u.mrk.input i with edge := none } u)
      cases i with
      | pps => exact absurd rfl hi
      | markA => exact k
      | markB => exact k

theorem execInputEdge_does (dt : Nat) (i : Input) {s t : State} (h : execInputEdge dt i s = .next t) :
    Does (touches (.inputEdge dt i)) s t := by
  refine act_does h fun s => ?_
  refine Does.trans (elapse_does' dt s (by cases i <;> simp [touches])) ?_
  generalize elapse dt s = u
  dsimp only
  cases i with
  | pps =>
    split
    · exact Does.refl _ u
    · exact Does.mono (seeEdge_does .pps u) (by simp [touches])
  | markA =>
    split
    · exact Does.refl _ u
    · exact Does.mono (markEdge_does .markA (by decide) u) (by simp [touches])
  | markB =>
    split
    · exact Does.refl _ u
    · exact Does.mono (markEdge_does .markB (by decide) u) (by simp [touches])

theorem execInputLevelReturn_does (dt : Nat) (i : Input) {s t : State} (h : execInputLevelReturn dt i s = .next t) :
    Does (touches (.inputLevelReturn dt i)) s t := by
  refine act_does h fun s => ?_
  refine Does.trans (elapse_does' dt s (by cases i <;> simp [touches])) ?_
  generalize elapse dt s = u
  dsimp only
  cases i with
  | pps =>
    exact Does.when _ (Does.mono (endLevel_does .pps u) (by simp [touches]))
  | markA =>
    exact Does.when _ (Does.mono (markEnd_does .markA (by decide) u) (by simp [touches]))
  | markB =>
    exact Does.when _ (Does.mono (markEnd_does .markB (by decide) u) (by simp [touches]))

theorem execEdgeQualified_does (i : Input) {s t : State} (h : execEdgeQualified i s = .next t) :
    Does (touches (.edgeQualified i)) s t := by
  refine act_does h fun s => ?_
  split
  · exact Does.refl _ s
  · refine Does.atDeadline _ _ s (fun t => ?_) (by cases i <;> decide)
    cases i with
    | pps => exact Does.mono (qualify_does .pps _ t) (by decide)
    | markA => exact Does.mono (markQualify_does .markA (by decide) _ t) (by decide)
    | markB => exact Does.mono (markQualify_does .markB (by decide) _ t) (by decide)

theorem correctionOnly_does (off : Int) (u : State) : Does (touches .secondsCorrection) u (secondsCorrection off u) := by
  refine Does.trans (Does.mono (Does.moment u { u.moment with capture := false }) (by decide)) ?_
  unfold secondsCorrection
  generalize ({ u with moment := { u.moment with capture := false } } : State) = s
  simp only
  split
  · exact Does.mono (deferStep_does s) (by decide)
  · refine Does.trans (Does.mono (changeTime_does ⟨((s.clk.s + off) % 4294967296).toNat, s.clk.t⟩ s) (by decide)) ?_
    refine Does.trans (Does.mono (countStep_does _) (by decide)) ?_
    generalize countStep _ = u
    exact Does.mono (Does.clkSame u _ (by simp [Part.same]) (by simp [Part.same]) rfl rfl) (by decide)

theorem execSecondsCorrection_does  {s t : State} (h : execSecondsCorrection s = .next t) : Does (touches .secondsCorrection) s t := by
  refine act_does h fun s => ?_
  split
  · exact Does.refl _ s
  · exact Does.when _ (correctionOnly_does _ s)

theorem execTrackEntry_does  {s t : State} (h : execTrackEntry s = .next t) : Does (touches .trackEntry) s t := by
  refine act_does h fun s => ?_
  exact Does.when _ (Does.mono (Does.clkSame s _ (by simp [Part.same]) (by simp [Part.same]) rfl rfl) (by decide))

theorem execTrackUnlock_does  {s t : State} (h : execTrackUnlock s = .next t) : Does (touches .trackUnlock) s t := by
  refine act_does h fun s => ?_
  refine Does.when _ ?_
  unfold unlockTrack
  refine Does.trans (Does.mono (enterAcquire_does s) (by decide)) ?_
  exact Does.mono (Does.clkSame (enterAcquire s) _ (by simp [Part.same]) (by simp [Part.same]) rfl rfl) (by decide)

theorem execPpsWatchExpiry_does  {s t : State} (h : execPpsWatchExpiry s = .next t) : Does (touches .ppsWatchExpiry) s t := by
  refine act_does h fun s => ?_
  refine Does.when _ ?_
  exact Does.trans (Does.mono (enterHoldover_does _ s) (by decide)) (Does.mono (reportClock_does _) (by decide))

theorem execGnssSessionStart_does  {s t : State} (h : execGnssSessionStart s = .next t) : Does (touches .gnssSessionStart) s t := by
  refine act_does h fun s => ?_
  exact Does.when _ (Does.mono (sessionStart_does s) (by decide))

theorem execGnssSessionEnd_does  {s t : State} (h : execGnssSessionEnd s = .next t) : Does (touches .gnssSessionEnd) s t := by
  refine act_does h fun s => ?_
  refine Does.when _ ?_
  exact Does.trans (Does.mono (supplyRest_does s) (by decide)) (Does.mono (reportClock_does _) (by decide))

theorem execGnssLabel_does (dt : Nat) (bytes : List Byte) {s t : State} (h : execGnssLabel dt bytes s = .next t) : Does (touches (.gnssLabel dt bytes)) s t := by
  refine act_does h fun s => ?_
  refine Does.trans (elapse_does' dt s (by simp [touches])) ?_
  generalize elapse dt s = u
  dsimp only
  refine Does.when _ ?_
  refine Does.trans ?_ (Does.mono (gnssBytes_does bytes _) (by simp [touches]))
  exact Does.when _ (Does.mono (abandonLabel_does u) (by simp [touches]))

theorem execGnssLabelTimeout_does  {s t : State} (h : execGnssLabelTimeout s = .next t) : Does (touches .gnssLabelTimeout) s t := by
  refine act_does h fun s => ?_
  split
  · exact Does.refl _ s
  · exact Does.atDeadline _ _ s (fun t => Does.mono (abandonLabel_does t) (by decide)) (by decide)

theorem execGnssFramingError_does (dt : Nat) {s t : State} (h : execGnssFramingError dt s = .next t) : Does (touches (.gnssFramingError dt)) s t := by
  refine act_does h fun s => ?_
  exact Does.afterCycles dt abandonLabel s (fun t => Does.mono (abandonLabel_does t) (by simp [touches])) (by simp [touches])

theorem execCalPulseEnd_does (p : PortId) {s t : State} (h : execCalPulseEnd p s = .next t) : Does (touches (.calPulseEnd p)) s t := by
  refine act_does h fun s => ?_
  split
  · exact Does.refl _ s
  · split
    · exact Does.refl _ s
    · rename_i u hu
      exact Does.trans (Does.mono (reachTime_does hu) (by simp [touches])) (Does.mono (endPulse_does p u) (by simp [touches]))

theorem execCalRunEnd_does  {s t : State} (h : execCalRunEnd s = .next t) : Does (touches .calRunEnd) s t := by
  refine act_does h fun s => ?_
  split
  · exact Does.refl _ s
  · split
    · exact Does.refl _ s
    · rename_i u hu
      exact Does.trans (Does.mono (reachTime_does hu) (by decide)) (Does.mono (endRun_does _ u) (by decide))

theorem execCalSettleExpiry_does  {s t : State} (h : execCalSettleExpiry s = .next t) : Does (touches .calSettleExpiry) s t := by
  refine act_does h fun s => ?_
  dsimp only
  split
  · exact Does.refl _ s
  · exact Does.atDeadline _ _ s (fun t => Does.mono (Does.sch t _ (by simp [Part.same]) id) (by decide)) (by decide)

theorem execSuppressionWindowClose_does (p : PortId) {s t : State} (h : execSuppressionWindowClose p s = .next t) : Does (touches (.suppressionWindowClose p)) s t := by
  refine act_does h fun s => ?_
  dsimp only
  split
  · refine Does.atDeadline _ _ s (fun t => ?_) (by simp [touches])
    refine Does.trans ?_ (Does.mono (resuppress_does _) (by simp [touches]))
    exact Does.mono (Does.sch t _ (by simp [Part.same]) id) (by simp [touches])
  · exact Does.refl _ s

theorem execDrdyEdge_does (dt : Nat) (p : PortId) {s t : State} (h : execDrdyEdge dt p s = .next t) : Does (touches (.drdyEdge dt p)) s t := by
  refine act_does h fun s => ?_
  refine Does.trans (elapse_does' dt s (by simp [touches])) ?_
  exact Does.when _ (Does.mono (setPort_does p _ _) (by simp [touches]))

theorem execDigitizerFrame_does (dt : Nat) (p : PortId) (bytes : List Byte) {s t : State} (h : execDigitizerFrame dt p bytes s = .next t) : Does (touches (.digitizerFrame dt p bytes)) s t := by
  refine act_does h fun s => ?_
  dsimp only
  split
  · rename_i k d _ _
    refine Does.trans (elapse_does' (max dt (d + frameCycles - s.osc)) s (by simp [touches])) ?_
    exact Does.when _ (Does.mono (decideOutcome_does p k _ _ _) (by simp [touches]))
  · exact elapse_does' dt s (by simp [touches])

theorem execStartingTimeout_does (p : PortId) {s t : State} (h : execStartingTimeout p s = .next t) : Does (touches (.startingTimeout p)) s t := by
  refine act_does h fun s => ?_
  refine Does.when _ ?_
  exact Does.atDeadline _ _ s (fun t => Does.mono (setLinkOnly_does p _ t) (by simp [touches])) (by simp [touches])

theorem execLinkUp_does (p : PortId) (alarm : Bool) {s t : State} (h : execLinkUp p alarm s = .next t) : Does (touches (.linkUp p alarm)) s t := by
  refine act_does h fun s => ?_
  exact Does.when _ (Does.mono (setLinkOnly_does p _ s) (by simp [touches]))

theorem execLinkDown_does (p : PortId) {s t : State} (h : execLinkDown p s = .next t) : Does (touches (.linkDown p)) s t := by
  refine act_does h fun s => ?_
  exact Does.when _ (Does.mono (setLinkOnly_does p _ s) (by simp [touches]))

theorem execWarmupComplete_does (c : Chan) {s t : State} (h : execWarmupComplete c s = .next t) : Does (touches (.warmupComplete c)) s t := by
  refine act_does h fun s => ?_
  exact Does.when _ (Does.mono (setChan_does c _ s) (by simp [touches]))

theorem execLtaRelease_does (c : Chan) {s t : State} (h : execLtaRelease c s = .next t) : Does (touches (.ltaRelease c)) s t := by
  refine act_does h fun s => ?_
  exact Does.when _ (Does.mono (setChan_does c _ s) (by simp [touches]))

theorem execPostTimerExpiry_does  {s t : State} (h : execPostTimerExpiry s = .next t) : Does (touches .postTimerExpiry) s t := by
  refine act_does h fun s => ?_
  split
  · exact Does.refl _ s
  · exact Does.when _ (Does.mono (closeRecord_does _ _ _ _ s) (by decide))

theorem execEventTruncate_does  {s t : State} (h : execEventTruncate s = .next t) : Does (touches .eventTruncate) s t := by
  refine act_does h fun s => ?_
  split
  · exact Does.refl _ s
  · exact Does.when _ (Does.mono (closeRecord_does _ _ _ _ s) (by decide))

theorem execNotBeforePassed_does  {s t : State} (h : execNotBeforePassed s = .next t) : Does (touches .notBeforePassed) s t := by
  refine act_does h fun s => ?_
  exact Does.when _ (Does.mono (passNotBefores_does s) (by decide))

theorem execModemStart_does  {s t : State} (h : execModemStart s = .next t) : Does (touches .modemStart) s t := by
  refine act_does h fun s => ?_
  exact Does.when _ (Does.mono (startModem_does s) (by decide))

theorem execModemStartTimeout_does  {s t : State} (h : execModemStartTimeout s = .next t) : Does (touches .modemStartTimeout) s t := by
  refine act_does h fun s => ?_
  refine Does.when _ ?_
  exact Does.atDeadline _ _ s (fun t => Does.mono (startTimedOut_does t) (by decide)) (by decide)

/-- A whole good frame of the modem. -/
theorem goodFrame_does {L : List Part} (dt : Nat) (f : State → State) (s : State) (hf : ∀ t, Does L t (f t))
    (h : ∀ p ∈ Part.cycles, p ∈ L) (hm : Part.mdm ∈ L) : Does L s (goodFrame dt f s) := by
  unfold goodFrame
  refine Does.trans (elapse_does' dt s h) ?_
  dsimp only
  refine Does.trans ?_ (hf _)
  exact Does.mono ((modemSilence_does (elapse dt s)).trans (Does.mdm _ _)) (by simpa using hm)

theorem execModemReady_does (dt : Nat) {s t : State} (h : execModemReady dt s = .next t) : Does (touches (.modemReady dt)) s t := by
  refine act_does h fun s => ?_
  exact goodFrame_does dt _ s (fun t => Does.mono (takeReady_does t) (by simp [touches])) (by simp [touches]) (by simp [touches])

theorem execOffer_does  {s t : State} (h : execOffer s = .next t) : Does (touches .offer) s t := by
  refine act_does h fun s => ?_
  split
  · exact Does.mono (sendOffer_does _ s) (by decide)
  · exact Does.refl _ s

theorem execModemHoldExpiry_does  {s t : State} (h : execModemHoldExpiry s = .next t) : Does (touches .modemHoldExpiry) s t := by
  refine act_does h fun s => ?_
  refine Does.when _ ?_
  refine Does.atDeadline _ _ s (fun t => ?_) (by decide)
  split
  · exact Does.refl _ t
  · exact Does.mono (modemOff_does t) (by decide)

theorem execTake_does (dt : Nat) (tag : Byte) {s t : State} (h : execTake dt tag s = .next t) : Does (touches (.take dt tag)) s t := by
  refine act_does h fun s => ?_
  exact goodFrame_does dt _ s (fun t => Does.mono (takeTake_does tag t) (by simp [touches])) (by simp [touches]) (by simp [touches])

theorem execModemBusy_does (dt : Nat) (tag : Byte) {s t : State} (h : execModemBusy dt tag s = .next t) : Does (touches (.modemBusy dt tag)) s t := by
  refine act_does h fun s => ?_
  exact goodFrame_does dt _ s (fun t => Does.mono (takeBusy_does tag t) (by simp [touches])) (by simp [touches]) (by simp [touches])

theorem execSent_does (dt : Nat) (tag : Byte) {s t : State} (h : execSent dt tag s = .next t) : Does (touches (.sent dt tag)) s t := by
  refine act_does h fun s => ?_
  exact goodFrame_does dt _ s (fun t => Does.mono (takeSent_does tag t) (by simp [touches])) (by simp [touches]) (by simp [touches])

theorem execFailed_does (dt : Nat) (tag : Byte) {s t : State} (h : execFailed dt tag s = .next t) : Does (touches (.failed dt tag)) s t := by
  refine act_does h fun s => ?_
  exact goodFrame_does dt _ s (fun t => Does.mono (takeFailed_does tag t) (by simp [touches])) (by simp [touches]) (by simp [touches])

theorem execOfferTimeout_does  {s t : State} (h : execOfferTimeout s = .next t) : Does (touches .offerTimeout) s t := by
  refine act_does h fun s => ?_
  refine Does.when _ ?_
  exact Does.atDeadline _ _ s (fun t => Does.mono (takeFailure_does t) (by decide)) (by decide)

theorem execSendTimeout_does  {s t : State} (h : execSendTimeout s = .next t) : Does (touches .sendTimeout) s t := by
  refine act_does h fun s => ?_
  refine Does.when _ ?_
  exact Does.atDeadline _ _ s (fun t => Does.mono (takeFailure_does t) (by decide)) (by decide)

theorem execBackoffExpiry_does  {s t : State} (h : execBackoffExpiry s = .next t) : Does (touches .backoffExpiry) s t := by
  refine act_does h fun s => ?_
  refine Does.when _ ?_
  exact Does.atDeadline _ _ s (fun t => Does.mono (enterOff_does t) (by decide)) (by decide)

theorem execModemBadFrame_does (dt : Nat) (bytes : List Byte) {s t : State} (h : execModemBadFrame dt bytes s = .next t) : Does (touches (.modemBadFrame dt bytes)) s t := by
  refine act_does h fun s => ?_
  refine Does.trans (elapse_does' dt s (by simp [touches])) ?_
  exact Does.after (modemSilence_does _) (modemBytes_does bytes _) (by simp [touches]) (by simp [touches])

theorem execModemFrameTimeout_does  {s t : State} (h : execModemFrameTimeout s = .next t) : Does (touches .modemFrameTimeout) s t := by
  refine act_does h fun s => ?_
  split
  · exact Does.refl _ s
  · exact Does.atDeadline _ _ s (fun t => Does.mono (abandonModemFrame_does t) (by decide)) (by decide)

theorem execModemFramingError_does (dt : Nat) {s t : State} (h : execModemFramingError dt s = .next t) : Does (touches (.modemFramingError dt)) s t := by
  refine act_does h fun s => ?_
  exact Does.afterCycles dt abandonModemFrame s (fun t => Does.mono (abandonModemFrame_does t) (by simp [touches])) (by simp [touches])

theorem execIntervalBoundary_does  {s t : State} (h : execIntervalBoundary s = .next t) : Does (touches .intervalBoundary) s t := by
  refine act_does h fun s => ?_
  exact Does.when _ (Does.mono (intervalTest_does s) (by decide))

theorem execBusAddressCharacter_does (dt : Nat) (b : Byte) (f : CharFault) {s t : State} (h : execBusAddressCharacter dt b f s = .next t) : Does (touches (.busAddressCharacter dt b f)) s t := by
  refine act_does h fun s => ?_
  exact Does.afterCycles dt (busChar f (addressChar b)) s
    (fun t => Does.mono (busChar_does f _ (addressChar_does b) t) (by simp [touches])) (by simp [touches])

theorem execBusDataCharacter_does (dt : Nat) (b : Byte) (f : CharFault) {s t : State} (h : execBusDataCharacter dt b f s = .next t) : Does (touches (.busDataCharacter dt b f)) s t := by
  refine act_does h fun s => ?_
  exact Does.afterCycles dt (busChar f (dataChar b)) s
    (fun t => Does.mono (busChar_does f _ (dataChar_does b) t) (by simp [touches])) (by simp [touches])

theorem execBusGapTimeout_does  {s t : State} (h : execBusGapTimeout s = .next t) : Does (touches .busGapTimeout) s t := by
  refine act_does h fun s => ?_
  refine Does.when _ ?_
  exact Does.atDeadline _ _ s (fun t => Does.mono (breakFrame_does t) (by decide)) (by decide)

theorem execUnknownType_does  {s t : State} (h : execUnknownType s = .next t) : Does (touches .unknownType) s t := by
  refine act_does h fun s => ?_
  split
  · split
    · exact Does.refl _ s
    · exact Does.mono (finish_does _ s) (by decide)
  · exact Does.refl _ s

theorem execReplyEnd_does  {s t : State} (h : execReplyEnd s = .next t) : Does (touches .replyEnd) s t := by
  refine act_does h fun s => ?_
  refine Does.when _ ?_
  exact Does.atDeadline _ _ s (fun t => Does.mono (endReply_does t) (by decide)) (by decide)

theorem execReplyStart_does (dt : Nat) {s t : State} (h : execReplyStart dt s = .next t) : Does (touches (.replyStart dt)) s t := by
  refine act_does h fun s => ?_
  dsimp only
  split
  · rename_i q r _ _ _
    refine Does.trans (elapse_does' (max dt (q.cycle + 2 * s.charCycles - s.osc)) s (by simp [touches])) ?_
    exact Does.when _ (Does.mono (startReply_does _ _ _) (by simp [touches]))
  · exact Does.refl _ s

theorem execStatus_does  {s t : State} (h : execStatus s = .next t) : Does (touches .status) s t := by
  refine act_does h fun s => ?_
  exact Does.mono (serveSnapshot_does _ s) (by decide)

theorem execTimeGet_does  {s t : State} (h : execTimeGet s = .next t) : Does (touches .timeGet) s t := by
  refine act_does h fun s => ?_
  exact Does.mono (serveSnapshot_does _ s) (by decide)

theorem execClockDetail_does  {s t : State} (h : execClockDetail s = .next t) : Does (touches .clockDetail) s t := by
  refine act_does h fun s => ?_
  exact Does.mono (serveSnapshot_does _ s) (by decide)

theorem execDetectorGet_does  {s t : State} (h : execDetectorGet s = .next t) : Does (touches .detectorGet) s t := by
  refine act_does h fun s => ?_
  exact Does.mono (serveSnapshot_does _ s) (by decide)

theorem execEventIndex_does  {s t : State} (h : execEventIndex s = .next t) : Does (touches .eventIndex) s t := by
  refine act_does h fun s => ?_
  exact Does.mono (serveSnapshot_does _ s) (by decide)

theorem execSamplesFetch_does  {s t : State} (h : execSamplesFetch s = .next t) : Does (touches .samplesFetch) s t := by
  refine act_does h fun s => ?_
  exact Does.mono (serveSnapshot_does _ s) (by decide)

theorem execConditionsGet_does  {s t : State} (h : execConditionsGet s = .next t) : Does (touches .conditionsGet) s t := by
  refine act_does h fun s => ?_
  exact Does.mono (serveSnapshot_does _ s) (by decide)

theorem execIntervalGet_does  {s t : State} (h : execIntervalGet s = .next t) : Does (touches .intervalGet) s t := by
  refine act_does h fun s => ?_
  exact Does.mono (serveSnapshot_does _ s) (by decide)

theorem execPowerGet_does  {s t : State} (h : execPowerGet s = .next t) : Does (touches .powerGet) s t := by
  refine act_does h fun s => ?_
  exact Does.mono (serveSnapshot_does _ s) (by decide)

theorem execOutboxGet_does  {s t : State} (h : execOutboxGet s = .next t) : Does (touches .outboxGet) s t := by
  refine act_does h fun s => ?_
  exact Does.mono (serveSnapshot_does _ s) (by decide)

theorem execParamGet_does  {s t : State} (h : execParamGet s = .next t) : Does (touches .paramGet) s t := by
  refine act_does h fun s => ?_
  exact serve_does _ _ (fun _ t => Does.refl _ t) (by decide) s

theorem execMapGet_does  {s t : State} (h : execMapGet s = .next t) : Does (touches .mapGet) s t := by
  refine act_does h fun s => ?_
  exact serve_does _ _ (fun _ t => Does.refl _ t) (by decide) s

theorem execEventGet_does  {s t : State} (h : execEventGet s = .next t) : Does (touches .eventGet) s t := by
  refine act_does h fun s => ?_
  exact serve_does _ _ (fun _ t => Does.refl _ t) (by decide) s

theorem execTimeSet_does  {s t : State} (h : execTimeSet s = .next t) : Does (touches .timeSet) s t := by
  refine act_does h fun s => ?_
  exact serve_does _ _ (fun q t => Does.mono (serveTimeSet_does q t) (by decide)) (by decide) s

theorem execDetectorSet_does  {s t : State} (h : execDetectorSet s = .next t) : Does (touches .detectorSet) s t := by
  refine act_does h fun s => ?_
  exact serve_does _ _ (fun q t => Does.mono (serveDetectorSet_does q t) (by decide)) (by decide) s

theorem execMapSet_does  {s t : State} (h : execMapSet s = .next t) : Does (touches .mapSet) s t := by
  refine act_does h fun s => ?_
  exact serve_does _ _ (fun q t => Does.mono (serveMapSet_does q t) (by decide)) (by decide) s

theorem execEventRelease_does  {s t : State} (h : execEventRelease s = .next t) : Does (touches .eventRelease) s t := by
  refine act_does h fun s => ?_
  exact serve_does _ _ (fun q t => Does.mono (serveEventRelease_does q t) (by decide)) (by decide) s

theorem execMarksTake_does  {s t : State} (h : execMarksTake s = .next t) : Does (touches .marksTake) s t := by
  refine act_does h fun s => ?_
  exact serve_does _ _ (fun q t => Does.mono (serveMarksTake_does q t) (by decide)) (by decide) s

theorem execCalAdd_does  {s t : State} (h : execCalAdd s = .next t) : Does (touches .calAdd) s t := by
  refine act_does h fun s => ?_
  exact serve_does _ _ (fun q t => Does.mono (serveCalAdd_does q t) (by decide)) (by decide) s

theorem execCalCancel_does  {s t : State} (h : execCalCancel s = .next t) : Does (touches .calCancel) s t := by
  refine act_does h fun s => ?_
  exact serve_does _ _ (fun q t => Does.mono (serveCalCancel_does q t) (by decide)) (by decide) s

theorem execCalList_does  {s t : State} (h : execCalList s = .next t) : Does (touches .calList) s t := by
  refine act_does h fun s => ?_
  exact serve_does _ _ (fun q t => Does.mono (serveCalList_does q t) (by decide)) (by decide) s

theorem execPendingClear_does  {s t : State} (h : execPendingClear s = .next t) : Does (touches .pendingClear) s t := by
  refine act_does h fun s => ?_
  exact serve_does _ _ (fun q t => Does.mono (servePendingClear_does q t) (by decide)) (by decide) s

theorem execNoteSend_does  {s t : State} (h : execNoteSend s = .next t) : Does (touches .noteSend) s t := by
  refine act_does h fun s => ?_
  exact serve_does _ _ (fun q t => Does.mono (serveNoteSend_does q t) (by decide)) (by decide) s

theorem execParamSet_does  {s t : State} (h : execParamSet s = .next t) : Does (touches .paramSet) s t := by
  refine act_does h fun s => ?_
  exact serve_does _ _ (fun q t => Does.mono (writeParam_does _ _ _ t) (by decide)) (by decide) s

theorem execOutputRestartCharger_does  {s t : State} (h : execOutputRestartCharger s = .next t) : Does (touches .outputRestartCharger) s t := by
  refine act_does h fun s => ?_
  exact outputPart_does _ _ _ _ (fun q t => Does.mono (restartCharger_does q.chargerFound t) (by decide)) (by decide) s

theorem execOutputRestartHeater_does  {s t : State} (h : execOutputRestartHeater s = .next t) : Does (touches .outputRestartHeater) s t := by
  refine act_does h fun s => ?_
  exact outputPart_does _ _ _ _ (fun q t => Does.mono (restartHeater_does q.heaterFound t) (by decide)) (by decide) s

theorem execSettingsSave_does  {s t : State} (h : execSettingsSave s = .next t) : Does (touches .settingsSave) s t := by
  refine act_does h fun s => ?_
  split
  · split
    · exact Does.refl _ s
    · split
      · exact Does.mono (beginSave_does s) (by decide)
      · exact Does.mono (finish_does _ s) (by decide)
  · exact Does.refl _ s

theorem execSettingsSaveDone_does (dt : Nat) (ok : Bool) {s t : State} (h : execSettingsSaveDone dt ok s = .next t) : Does (touches (.settingsSaveDone dt ok)) s t := by
  refine act_does h fun s => ?_
  split
  · exact Does.refl _ s
  · rename_i w _
    exact Does.afterCycles dt (endSave w ok) s (fun t => Does.mono (endSave_does w ok t) (by simp [touches])) (by simp [touches])

theorem execRestart_does  {s t : State} (h : execRestart s = .next t) : Does (touches .restart) s t := by
  refine act_does h fun s => ?_
  refine serve_does _ _ (fun q t => ?_) (by decide) s
  dsimp only
  exact Does.when _ (Does.mono (restartWork_does t) (by decide))

theorem execRestartExecute_does (dt : Nat) {s t : State} (h : execRestartExecute dt s = .next t) : Does (touches (.restartExecute dt)) s t := by
  refine act_does h fun s => ?_
  refine Does.when _ ?_
  refine Does.trans (elapse_does' dt s (by simp [touches])) ?_
  refine Does.trans (Does.mono (restartWork_does _) (by simp [touches])) ?_
  refine Does.trans ?_ (Does.mono (takeLine_does _) (by simp [touches]))
  exact Does.mono (Does.bus (restartWork (elapse dt s)) _) (by simp [touches])

theorem execHeatHighTimeEnd_does  {s t : State} (h : execHeatHighTimeEnd s = .next t) : Does (touches .heatHighTimeEnd) s t := by
  refine act_does h fun s => ?_
  dsimp only
  split
  · exact Does.refl _ s
  · exact Does.atDeadline _ _ s (fun t => Does.mono (Does.htr t _) (by decide)) (by decide)

theorem execChgLimitHighEnd_does  {s t : State} (h : execChgLimitHighEnd s = .next t) : Does (touches .chgLimitHighEnd) s t := by
  refine act_does h fun s => ?_
  dsimp only
  split
  · exact Does.refl _ s
  · exact Does.atDeadline _ _ s (fun t => Does.mono (Does.bat t _ (by simp [Part.same])) (by decide)) (by decide)

theorem execSamplePulseEnd_does  {s t : State} (h : execSamplePulseEnd s = .next t) : Does (touches .samplePulseEnd) s t := by
  refine act_does h fun s => ?_
  dsimp only
  split
  · exact Does.refl _ s
  · exact Does.atDeadline _ _ s (fun t => Does.mono (Does.schAll t _ id) (by decide)) (by decide)

theorem execPowerLoss_does  {s t : State} (h : execPowerLoss s = .next t) : Does (touches .powerLoss) s t := by
  refine act_does h fun s => ?_
  exact ⟨fun p hp => by cases p <;> first | rfl | (simp [Part.same]; done) | exact absurd (by simp [touches]) hp,
    id, id, id, id, id, id⟩

end Sys2Proof.Laws
end

