-- ==== Sys2Proof/Laws/Flight.lean ====
section
/-! SUPPORT. The alert in flight: each operation of the modem line keeps the agreement of the outbox with the link (R112). -/
namespace Sys2Proof.Laws
open Sys2Proof Sys2Proof.Machine

/-- No entry is IN_FLIGHT and the link awaits nothing. -/
theorem flightFollows_idle {s : State} (h : s.flights = 0) (a : s.mdm.link ≠ .offered) (b : s.mdm.link ≠ .sending) :
    s.flightFollows := by
  unfold State.flightFollows; simp [h, a, b]

/-- What keeps the entries IN_FLIGHT and the link keeps their agreement. -/
theorem flightFollows_kept {s t : State} (h : s.flightFollows) (f : t.flights = s.flights) (l : t.mdm.link = s.mdm.link) :
    t.flightFollows := by
  unfold State.flightFollows at *; rw [f, l]; exact h

theorem flights_none {s : State} (h : s.inFlight = none) : s.flights = 0 := by
  unfold State.flights
  rw [List.countP_eq_zero]
  intro a m
  exact fun k => by
    have := List.find?_eq_none.mp h a m
    exact this k

theorem flights_remove (s : State) : (removeInFlight s).flights = 0 := by
  unfold State.flights removeInFlight
  rw [List.countP_eq_zero]
  intro a m
  have := (List.mem_filter.mp m).2
  simpa using this

/-- R117: nothing is IN_FLIGHT after the return. -/
theorem flights_return (n : Nat) (nb : Option Time) (s : State) : (returnInFlight n nb s).flights = 0 := by
  unfold returnInFlight
  split
  · exact flights_none ‹_›
  · split
    · have := (raiseClose_does ‹Alert›.origin nb (removeInFlight s)).frame .flight (by decide)
      exact (show _ = _ from this).trans (flights_remove s)
    · split
      · exact flights_remove s
      · unfold State.flights
        rw [List.countP_eq_zero]
        intro a m
        obtain ⟨b, _, hb⟩ := List.mem_map.mp m
        rw [← hb]
        split
        · simp
        · assumption

/-- R118: nothing is IN_FLIGHT after the drop. -/
theorem flights_drop (s : State) : (alertDropped s).flights = 0 := by
  unfold alertDropped
  split
  · exact flights_none ‹_›
  · have h : (alertLost (removeInFlight s)).flights = 0 :=
      (show _ = _ from (alertLost_does (removeInFlight s)).frame .flight (by decide)).trans (flights_remove s)
    dsimp only
    split
    · exact (show _ = _ from (raiseClose_does _ _ _).frame .flight (by decide)).trans h
    · exact h

theorem flights_fault (v : Bool) (s : State) : (setModemFault v s).flights = s.flights :=
  (setModemFault_does v s).frame .flight (by decide)

/-- R129: after a failure nothing is IN_FLIGHT and the link is READY or in BACKOFF. -/
theorem takeFailure_idle (s : State) : (takeFailure s).flights = 0
    ∧ ((takeFailure s).mdm.link = .ready ∨ (takeFailure s).mdm.link = .backoff) := by
  unfold takeFailure
  dsimp only
  have h : (if 3 ≤ ((s.inFlight.map Alert.attempts).getD 0) + 1 then alertDropped s
      else returnInFlight (((s.inFlight.map Alert.attempts).getD 0) + 1) none s).flights = 0 := by
    split
    · exact flights_drop s
    · exact flights_return _ _ s
  generalize (if 3 ≤ ((s.inFlight.map Alert.attempts).getD 0) + 1 then alertDropped s
      else returnInFlight (((s.inFlight.map Alert.attempts).getD 0) + 1) none s) = u at *
  split
  · exact ⟨(show (setModemFault true _).flights = 0 by rw [flights_fault]; exact h), Or.inr rfl⟩
  · exact ⟨h, Or.inl rfl⟩

theorem takeFailure_follows (s : State) : (takeFailure s).flightFollows := by
  obtain ⟨h, k | k⟩ := takeFailure_idle s
  · exact flightFollows_idle h (by rw [k]; decide) (by rw [k]; decide)
  · exact flightFollows_idle h (by rw [k]; decide) (by rw [k]; decide)

/-- Away from OFFERED and SENDING nothing is IN_FLIGHT. -/
theorem not_offered {s : State} (h : s.flightFollows) (a : s.mdm.link ≠ .offered) (b : s.mdm.link ≠ .sending) : s.flights = 0 := by
  unfold State.flightFollows at h; simpa [a, b] using h

theorem takeReady_follows {s : State} (h : s.flightFollows) : (takeReady s).flightFollows := by
  by_cases o : s.mdm.link = .offered ∨ s.mdm.link = .sending
  · have e : takeReady s = takeFailure s := by
      unfold takeReady
      rcases o with k | k <;> rw [k]
    rw [e]
    exact takeFailure_follows s
  · have z : s.flights = 0 := not_offered h (fun k => o (Or.inl k)) (fun k => o (Or.inr k))
    unfold takeReady
    split
    · exact flightFollows_idle z nofun nofun
    · exact flightFollows_idle z nofun nofun
    · exact takeFailure_follows s
    · exact takeFailure_follows s
    · exact flightFollows_kept h rfl rfl

theorem takeTake_follows (tag : Byte) {s : State} (h : s.flightFollows) : (takeTake tag s).flightFollows := by
  unfold takeTake
  split
  · rename_i k
    unfold State.flightFollows at *
    rw [k.1] at h
    exact h
  · exact flightFollows_kept h rfl rfl

theorem takeBusy_follows (tag : Byte) {s : State} (h : s.flightFollows) : (takeBusy tag s).flightFollows := by
  unfold takeBusy
  split
  · exact flightFollows_idle (show (returnInFlight _ _ s).flights = 0 from flights_return _ _ s) nofun nofun
  · exact flightFollows_kept h rfl rfl

theorem takeSent_follows (tag : Byte) {s : State} (h : s.flightFollows) : (takeSent tag s).flightFollows := by
  unfold takeSent
  split
  · refine flightFollows_idle (show (setModemFault false _).flights = 0 from ?_) nofun nofun
    rw [flights_fault]
    exact flights_remove s
  · exact flightFollows_kept h rfl rfl

theorem takeFailed_follows (tag : Byte) {s : State} (h : s.flightFollows) : (takeFailed tag s).flightFollows := by
  unfold takeFailed
  split
  · exact takeFailure_follows s
  · exact flightFollows_kept h rfl rfl

theorem takeModemFrame_follows (l : List Byte) {s : State} (h : s.flightFollows) : (takeModemFrame l s).flightFollows := by
  unfold takeModemFrame
  have hb : (badFrame s).flightFollows := flightFollows_kept h rfl rfl
  dsimp only
  repeat' split
  all_goals first
    | exact hb | exact takeReady_follows h | exact takeTake_follows _ h | exact takeBusy_follows _ h
    | exact takeSent_follows _ h | exact takeFailed_follows _ h

theorem abandonModemFrame_follows {s : State} (h : s.flightFollows) : (abandonModemFrame s).flightFollows := by
  unfold abandonModemFrame
  split
  · exact h
  · exact flightFollows_kept h rfl rfl

theorem modemSilence_follows {s : State} (h : s.flightFollows) : (modemSilence s).flightFollows := by
  unfold modemSilence
  split
  · exact abandonModemFrame_follows h
  · exact h

theorem modemByte_follows (b : Byte) {s : State} (h : s.flightFollows) : (modemByte b s).flightFollows := by
  unfold modemByte
  dsimp only
  split
  · exact flightFollows_kept h rfl rfl
  · split
    · exact abandonModemFrame_follows (flightFollows_kept h rfl rfl)
    · split
      · exact takeModemFrame_follows _ (flightFollows_kept h rfl rfl)
      · exact flightFollows_kept h rfl rfl

theorem modemBytes_follows (l : List Byte) {s : State} (h : s.flightFollows) :
    (l.foldl (fun s b => modemByte b s) s).flightFollows := by
  induction l generalizing s with
  | nil => exact h
  | cons b r ih => exact ih (modemByte_follows b h)

theorem elapse_follows (n : Nat) {s : State} (h : s.flightFollows) : (elapse n s).flightFollows :=
  flightFollows_kept h ((elapse_does n s).frame .flight (by decide))
    (congrArg Modem.link (show _ = _ from (elapse_does n s).frame .mdm (by decide)))

theorem goodFrame_follows (dt : Nat) (f : State → State) {s : State} (hf : ∀ t : State, t.flightFollows → (f t).flightFollows)
    (h : s.flightFollows) : (goodFrame dt f s).flightFollows := by
  unfold goodFrame
  exact hf _ (flightFollows_kept (modemSilence_follows (elapse_follows dt h)) rfl rfl)

theorem atCycle_follows (d : Nat) (f : State → State) {s : State}
    (hf : ∀ t : State, t.mdm.link = s.mdm.link → t.flightFollows → (f t).flightFollows) (h : s.flightFollows) :
    (atCycle d f s).flightFollows := by
  unfold atCycle
  cases e : reach d s with
  | none => exact h
  | some u =>
    have k := reach_does e
    have l := congrArg Modem.link (show _ = _ from k.frame .mdm (by decide))
    exact hf u l (flightFollows_kept h (k.frame .flight (by decide)) l)

/-- R126: exactly the entry offered is IN_FLIGHT. -/
theorem sendOffer_follows (a : Alert) {s : State} (h : s.flights = 0) (m : a ∈ s.box.entries) : (sendOffer a s).flightFollows := by
  have key : ∀ l : List Alert, l.countP Alert.inFlight = 0 → a ∈ l →
      (l.replace a { a with inFlight := true }).countP Alert.inFlight = 1 := by
    intro l
    induction l with
    | nil => exact fun _ m => absurd m (by simp)
    | cons b r ih =>
      intro h m
      rw [List.replace_cons]
      rw [List.countP_cons] at h
      by_cases e : b = a
      · subst e
        simp only [BEq.rfl, if_true, List.countP_cons]
        omega
      · have hr : a ∈ r := by
          rcases List.mem_cons.mp m with k | k
          · exact absurd k.symm e
          · exact k
        have hb : (a == b) = false := by simpa using fun k => e k.symm
        simp only [hb, List.countP_cons]
        rw [ih (by omega) hr]
        omega
  show (sendOffer a s).flights = 1
  exact key _ h m

/-- R134: SHED entry. -/
theorem modemShed_follows (s : State) : (modemShed s).flightFollows := by
  unfold modemShed
  dsimp only
  split
  · exact flightFollows_idle (show (returnInFlight _ _ s).flights = 0 from flights_return _ _ s) nofun nofun
  · exact flightFollows_idle (show (returnInFlight _ _ s).flights = 0 from flights_return _ _ s) nofun nofun

theorem outboxRestart_follows (s : State) : (outboxRestart s).flightFollows := flightFollows_idle rfl nofun nofun

/-- An operation that changes neither the entries IN_FLIGHT nor the modem line keeps their agreement. -/
theorem Does.follows {L : List Part} {s t : State} (d : Does L s t) (h : s.flightFollows) (a : Part.flight ∉ L) (b : Part.mdm ∉ L) :
    t.flightFollows :=
  flightFollows_kept h (d.frame .flight a) (congrArg Modem.link (show _ = _ from d.frame .mdm b))

theorem handShed_follows (s : State) : (handShed s).flightFollows := by
  unfold handShed
  exact (heaterFollow_does _).follows (modemShed_follows _) (by decide) (by decide)

theorem handOver_follows (c : BatClass) (p : PowerState) {s : State} (h : s.flightFollows) : (handOver c p s).flightFollows := by
  unfold handOver
  have r := (reportClass_does s).follows h (by decide) (by decide)
  dsimp only
  split
  · split
    · exact handShed_follows _
    · exact (handRun_does _).follows r (by decide) (by decide)
  · split
    · exact (handClass_does _).follows r (by decide) (by decide)
    · exact r

theorem powerReading_follows (r : Reading) {s : State} (h : s.flightFollows) : (powerReading r s).flightFollows := by
  unfold powerReading batteryReading
  refine (heaterReading_does _).follows (handOver_follows _ _ ?_) (by decide) (by decide)
  refine (classStep_does _).follows ?_ (by decide) (by decide)
  refine (chargeReading_does _).follows ?_ (by decide) (by decide)
  refine (coulombStep_does _).follows ?_ (by decide) (by decide)
  exact (takeReading_does r s).follows h (by decide) (by decide)

theorem secondBoundary_follows (r : Reading) {s : State} (h : s.flightFollows) : (secondBoundary r s).flightFollows := by
  unfold secondBoundary
  refine (beginSecond_does _).follows ?_ (by decide) (by decide)
  refine (calBoundary_does _).follows ?_ (by decide) (by decide)
  refine (pendingMapTest_does _).follows ?_ (by decide) (by decide)
  refine (pendingRate_does _).follows ?_ (by decide) (by decide)
  refine (endDue_does _).follows ?_ (by decide) (by decide)
  refine powerReading_follows r ?_
  refine (passNotBefores_does _).follows ?_ (by decide) (by decide)
  refine (intervalTest_does _).follows ?_ (by decide) (by decide)
  exact (clockBoundary_does s).follows h (by decide) (by decide)
end Sys2Proof.Laws
end

