-- ==== Sys2Proof/Laws/Steps.lean ====
section
/-! SUPPORT. One step: what a powered and an unpowered part do with a command, and every command's `Does` under one name. -/
namespace Sys2Proof.Laws

open Sys2Proof Sys2Proof.Machine

theorem act_on {f : State → State} {s : State} (h : s.powered = true) : act f s = .next (f s) := by
  simp [act, h]

theorem act_off {f : State → State} {s : State} (h : s.powered = false) : act f s = .next s := by
  simp [act, h]

/-- Every command but POWER_ON is an `act`. -/
theorem exec_act (c : Instr) (h : ∀ r, c ≠ .powerOn r) : ∃ f : State → State, ∀ s, exec c s = act f s := by
  cases c
  case powerOn r => exact absurd rfl (h r)
  all_goals exact ⟨_, fun _ => rfl⟩

/-- Every command but POWER_ON changes only its own parts and keeps the invariants. -/
theorem exec_does (c : Instr) (h : ∀ r, c ≠ .powerOn r) {s t : State} (e : exec c s = .next t) : Does (touches c) s t := by
  cases c
  case powerOn r => exact absurd rfl (h r)
  case secondBoundary r => exact execSecondBoundary_does r e
  case fullSync => exact execFullSync_does e
  case absorbTimeLimit => exact execAbsorbTimeLimit_does e
  case floatLowRecharge => exact execFloatLowRecharge_does e
  case chargerAutoRestart => exact execChargerAutoRestart_does e
  case emptySync => exact execEmptySync_does e
  case shedEntry => exact execShedEntry_does e
  case shedExit => exact execShedExit_does e
  case chgPwmPeriod => exact execChgPwmPeriod_does e
  case chargeHoldExpiry => exact execChargeHoldExpiry_does e
  case heaterAutoRestart => exact execHeaterAutoRestart_does e
  case heaterHoldExpiry => exact execHeaterHoldExpiry_does e
  case heatFaultAsserted dt => exact execHeatFaultAsserted_does dt e
  case heatFaultCleared dt => exact execHeatFaultCleared_does dt e
  case strobe => exact execStrobe_does e
  case pendingRateApply => exact execPendingRateApply_does e
  case pendingMapApply => exact execPendingMapApply_does e
  case inputEdge dt i => exact execInputEdge_does dt i e
  case inputLevelReturn dt i => exact execInputLevelReturn_does dt i e
  case edgeQualified i => exact execEdgeQualified_does i e
  case secondsCorrection => exact execSecondsCorrection_does e
  case trackEntry => exact execTrackEntry_does e
  case trackUnlock => exact execTrackUnlock_does e
  case ppsWatchExpiry => exact execPpsWatchExpiry_does e
  case gnssSessionStart => exact execGnssSessionStart_does e
  case gnssSessionEnd => exact execGnssSessionEnd_does e
  case gnssLabel dt bytes => exact execGnssLabel_does dt bytes e
  case gnssLabelTimeout => exact execGnssLabelTimeout_does e
  case gnssFramingError dt => exact execGnssFramingError_does dt e
  case calPulseEnd p => exact execCalPulseEnd_does p e
  case calRunEnd => exact execCalRunEnd_does e
  case calSettleExpiry => exact execCalSettleExpiry_does e
  case suppressionWindowClose p => exact execSuppressionWindowClose_does p e
  case drdyEdge dt p => exact execDrdyEdge_does dt p e
  case digitizerFrame dt p bytes => exact execDigitizerFrame_does dt p bytes e
  case startingTimeout p => exact execStartingTimeout_does p e
  case linkUp p alarm => exact execLinkUp_does p alarm e
  case linkDown p => exact execLinkDown_does p e
  case warmupComplete c => exact execWarmupComplete_does c e
  case ltaRelease c => exact execLtaRelease_does c e
  case postTimerExpiry => exact execPostTimerExpiry_does e
  case eventTruncate => exact execEventTruncate_does e
  case notBeforePassed => exact execNotBeforePassed_does e
  case modemStart => exact execModemStart_does e
  case modemStartTimeout => exact execModemStartTimeout_does e
  case modemReady dt => exact execModemReady_does dt e
  case offer => exact execOffer_does e
  case modemHoldExpiry => exact execModemHoldExpiry_does e
  case take dt tag => exact execTake_does dt tag e
  case modemBusy dt tag => exact execModemBusy_does dt tag e
  case offerTimeout => exact execOfferTimeout_does e
  case sent dt tag => exact execSent_does dt tag e
  case failed dt tag => exact execFailed_does dt tag e
  case sendTimeout => exact execSendTimeout_does e
  case backoffExpiry => exact execBackoffExpiry_does e
  case modemBadFrame dt bytes => exact execModemBadFrame_does dt bytes e
  case modemFrameTimeout => exact execModemFrameTimeout_does e
  case modemFramingError dt => exact execModemFramingError_does dt e
  case intervalBoundary => exact execIntervalBoundary_does e
  case busAddressCharacter dt b f => exact execBusAddressCharacter_does dt b f e
  case busDataCharacter dt b f => exact execBusDataCharacter_does dt b f e
  case busGapTimeout => exact execBusGapTimeout_does e
  case unknownType => exact execUnknownType_does e
  case replyEnd => exact execReplyEnd_does e
  case status => exact execStatus_does e
  case timeGet => exact execTimeGet_does e
  case timeSet => exact execTimeSet_does e
  case clockDetail => exact execClockDetail_does e
  case paramGet => exact execParamGet_does e
  case paramSet => exact execParamSet_does e
  case settingsSave => exact execSettingsSave_does e
  case settingsSaveDone dt ok => exact execSettingsSaveDone_does dt ok e
  case detectorSet => exact execDetectorSet_does e
  case detectorGet => exact execDetectorGet_does e
  case mapSet => exact execMapSet_does e
  case mapGet => exact execMapGet_does e
  case eventIndex => exact execEventIndex_does e
  case eventGet => exact execEventGet_does e
  case eventRelease => exact execEventRelease_does e
  case samplesFetch => exact execSamplesFetch_does e
  case marksTake => exact execMarksTake_does e
  case calAdd => exact execCalAdd_does e
  case calCancel => exact execCalCancel_does e
  case calList => exact execCalList_does e
  case conditionsGet => exact execConditionsGet_does e
  case pendingClear => exact execPendingClear_does e
  case intervalGet => exact execIntervalGet_does e
  case powerGet => exact execPowerGet_does e
  case outputRestartCharger => exact execOutputRestartCharger_does e
  case outputRestartHeater => exact execOutputRestartHeater_does e
  case outboxGet => exact execOutboxGet_does e
  case noteSend => exact execNoteSend_does e
  case restart => exact execRestart_does e
  case restartExecute dt => exact execRestartExecute_does dt e
  case heatHighTimeEnd => exact execHeatHighTimeEnd_does e
  case chgLimitHighEnd => exact execChgLimitHighEnd_does e
  case samplePulseEnd => exact execSamplePulseEnd_does e
  case replyStart dt => exact execReplyStart_does dt e
  case powerLoss => exact execPowerLoss_does e

theorem loadPart_keeps (s : State) : (loadPart s).pending = s.pending ∧ (loadPart s).free = s.free := by
  unfold loadPart
  exact ⟨rfl, rfl⟩

theorem startConditions_keeps (s : State) :
    (startConditions s).pending = s.pending ∧ (startConditions s).free = s.free := by
  have f : OnlyIn [.mon, .interval] s (startConditions s) := putMon_frame s _
  exact ⟨f .pending (by decide), f .free (by decide)⟩

/-- POWER_ON may change everything but the queue and the counter of free values. -/
theorem powerOn_touches (r : Reading) {s t : State} (h1 : t.pending = s.pending) (h2 : t.free = s.free) :
    OnlyIn (touches (.powerOn r)) s t := by
  intro p hp
  have h : p = .pending ∨ p = .free := by
    revert hp
    cases p <;> simp [touches]
  rcases h with rfl | rfl
  · exact h1
  · exact h2

/-- POWER_ON keeps the queue and the counter of free values. -/
theorem powerOn_frame (r : Reading) (s : State) : OnlyIn (touches (.powerOn r)) s (powerOn r s) := by
  have d := started_does r s
  have a : (started r s).pending = (loadPart s).pending := d.frame .pending (by decide)
  have b : (started r s).free = (loadPart s).free := d.frame .free (by decide)
  rw [(loadPart_keeps s).1] at a
  rw [(loadPart_keeps s).2] at b
  rw [powerOn_eq]
  exact powerOn_touches r ((startConditions_keeps _).1.trans a) ((startConditions_keeps _).2.trans b)

/-- A request in hand whose length fits is served by its own rule. -/
theorem serve_on {kind : Byte} {q : Request} {s : State} (f : Request → State → List Byte × State) (h : s.serving kind q) :
    serve kind f s = finish (f q s).1 (f q s).2 := by
  obtain ⟨_, h1, h2, h3, h4, h5⟩ := h
  unfold serve
  rw [h1, h2, h3]
  dsimp only
  rw [if_pos h4, if_pos h5]

/-- A request in hand whose length does not fit is answered BAD_LENGTH. -/
theorem serve_misfit {kind : Byte} {q : Request} {s : State} (f : Request → State → List Byte × State)
    (h : s.misfit kind q) : serve kind f s = finish [0x03] s := by
  obtain ⟨_, h1, h2, h3, h4, h5⟩ := h
  unfold serve
  rw [h1, h2, h3]
  dsimp only
  rw [if_pos h4, if_neg (by rw [h5]; decide)]

/-- Serving keeps what every rule of the request keeps of the parameters. -/
theorem serve_params {P : List (Nat × Int) → Prop} (kind : Byte) (f : Request → State → List Byte × State) (s : State)
    (hs : P s.params) (h : ∀ q, P (f q s).2.params) : P (serve kind f s).params := by
  have k : ∀ r t, P t.params → P (finish r t).params := fun r t ht => by
    have e : (finish r t).params = t.params := (finish_does r t).frame .params (by decide)
    rw [e]; exact ht
  unfold serve
  split
  · split
    · split
      · exact k _ _ (h _)
      · exact k _ _ hs
    · exact hs
  · exact hs

/-- Every command keeps the parameters in their canonical form and their ranges. -/
theorem exec_params (c : Instr) {s t : State} (e : exec c s = .next t)
    (h : Sparse.wf paramDefault s.params = true ∧ FitMap s.params) :
    Sparse.wf paramDefault t.params = true ∧ FitMap t.params := by
  by_cases hp : ∃ r, c = .powerOn r
  · obtain ⟨r, rfl⟩ := hp
    have e' : Host.Outcome.next (powerOn r s) = (Host.Outcome.next t : Host.Outcome State Fault Refusal) := e
    injection e' with e'
    rw [← e', powerOn_params]
    exact load_ok _
  · have hp' : ∀ r, c ≠ .powerOn r := fun r hr => hp ⟨r, hr⟩
    by_cases hq : Part.params ∈ touches c
    · obtain ⟨f, hf⟩ := exec_act c hp'
      have e0 := e
      cases hpow : s.powered
      · rw [hf, act_off hpow] at e
        injection e with e
        rw [← e]; exact h
      · cases c
        case powerOn r => exact absurd rfl (hp' r)
        case paramSet =>
          have e1 : act (serve 0x11 fun q s =>
            writeParam (field q.body 0 1) (signedOf 32 (field q.body 1 4)) q.eventActive s) s = .next t := e0
          rw [act_on hpow] at e1
          injection e1 with e1
          rw [← e1]
          exact serve_params (P := fun l => Sparse.wf paramDefault l = true ∧ FitMap l) _ _ s h
            fun q => writeParam_params _ _ _ s h.1 h.2
        case restart =>
          have e1 : act (serve 0x7F fun q s => ([0x00], if q.bcast then restartWork s else s)) s = .next t := e0
          rw [act_on hpow] at e1
          injection e1 with e1
          rw [← e1]
          refine serve_params (P := fun l => Sparse.wf paramDefault l = true ∧ FitMap l) _ _ s h fun q => ?_
          dsimp only
          split
          · rw [restartWork_params]; exact load_ok _
          · exact h
        case restartExecute dt =>
          have e1 : execRestartExecute dt s = .next t := e0
          unfold execRestartExecute at e1
          rw [act_on hpow] at e1
          injection e1 with e1
          have k : Sparse.wf paramDefault (restartWork (elapse dt s)).params = true
              ∧ FitMap (restartWork (elapse dt s)).params := by
            rw [restartWork_params]
            exact load_ok _
          generalize restartWork (elapse dt s) = u at *
          rw [← e1]
          split
          · exact k
          · exact h
        all_goals exact absurd hq (by first | decide | (simp [touches]; done) | (rename_i i; cases i <;> simp [touches]))
    · have d := exec_does c hp' e
      have k : t.params = s.params := d.frame .params hq
      rw [k]; exact h

end Sys2Proof.Laws
end

