-- ==== Sys2Proof/Laws/Start.lean ====
section
/-! SUPPORT. What POWER_ON makes of the ports, the heater and the conditions. -/
namespace Sys2Proof.Laws

open Sys2Proof Sys2Proof.Machine

/-- POWER_ON after the settings, the monitor, the battery and the lines changes only the ports, the heater and the conditions. -/
theorem powerOn_lines (r : Reading) (s : State) :
    OnlyIn [.prt, .htr, .mon, .interval] (startLines (startBattery (startMonitor r (loadPart s)))) (powerOn r s) := by
  have d0 : Does startParts (loadPart s) (startLines (startBattery (startMonitor r (loadPart s)))) := by
    refine Does.trans ?_ (startLines_does _)
    exact Does.trans (Does.mono (startMonitor_does r _) (by decide)) (Does.mono (startBattery_does _) (by decide))
  have p : (startLines (startBattery (startMonitor r (loadPart s)))).prt = (loadPart s).prt := d0.frame .prt (by decide)
  rw [powerOn_eq]
  unfold started
  generalize startLines (startBattery (startMonitor r (loadPart s))) = w at *
  have h := startHeater_does w
  have hp : (startHeater w).prt = w.prt := h.frame .prt (by decide)
  rw [p] at hp
  generalize startHeater w = u at *
  have o : ∀ i : PortId, u.prt[i].link = .off := by rw [hp]; show ∀ i : PortId, (#v[({} : Port), {}])[i].link = .off; decide
  have e := evalSupplies_start u (o 0) (o 1)
  generalize evalSupplies u = v at *
  have f : OnlyIn [.mon, .interval] v (startConditions v) := putMon_frame v _
  have d : Does [.prt, .htr, .mon, .interval] w v := Does.trans (h.mono (by decide)) (e.mono (by decide))
  exact fun q hq => same_trans (d.frame q hq) (f q (fun hh => hq (by simp at hh ⊢; rcases hh with h | h <;> simp [h])))

/-- R195: every condition row at power-on. -/
theorem start_conds (u : State) (c : CondId) : (startConditions u).mon.conds[c] = { status := u.initialStatus c } := by
  show (Vector.ofFn fun c => ({ status := u.initialStatus c } : Cond))[c] = _
  simp


/-- R64: both ports evaluate their supplies from OFF at cycle 0. -/
theorem start_prt (u : State) (h : u.prt = #v[{}, {}]) (ho : u.osc = 0) :
    (evalSupplies u).prt = #v[{ link := if u.supplyDue 0 then .starting else .off }, { link := if u.supplyDue 1 then .starting else .off }] := by
  have sw (p : PortId) (v : State) (hv : v.prt[p] = {}) (ho : v.osc = 0) : switchSupply p v =
      { v with prt := v.prt.set p { link := if v.supplyDue p then .starting else .off } } := by
    unfold switchSupply
    have hl : v.prt[p].link = .off := by rw [hv]
    rw [if_pos hl, if_pos hl]
    split
    · unfold startPort setPort; rw [hv, ho]
    · have : v.prt.set p.val ({} : Port) = v.prt := by rw [← hv]; simp
      show v = { v with prt := v.prt.set p.val ({} : Port) }
      rw [this]
  unfold evalSupplies
  have cl (p : PortId) (old : Port) (u : State) (ho : old.link = .off) : closeStopped p old u = u := by
    unfold closeStopped
    rw [if_neg (fun h => h.1 ho)]
  rw [cl 0 _ _ (by rw [h]; rfl), cl 1 _ _ (by rw [h]; rfl)]
  have e0 := sw 0 u (by rw [h]; rfl) ho
  generalize switchSupply 0 u = w at *
  have w1 : w.prt = #v[{ link := if u.supplyDue 0 then .starting else .off }, {}] := by rw [e0]; dsimp only; rw [h]; rfl
  have w2 : w.osc = 0 := by rw [e0]; exact ho
  have w3 : w.supplyDue 1 = u.supplyDue 1 := by rw [e0]; rfl
  rw [sw 1 w (by rw [w1]; rfl) w2, ← w3]
  dsimp only
  rw [w1]
  rfl

/-- R178: the Heater Controller at power-on. -/
theorem htr_start (w : State) : ∃ spent, spent = decide (w.dailyHeatBudgetLow * 3600000 ≤ 0) ∧ ∃ lim : Nat,
    lim = (match w.bat.cls with
        | .normal => w.dutyMaxNormal
        | .low => if spent = true ∧ w.pwr.solar = false then 0 else w.dutyMaxLow
        | .critical => if w.pwr.solar = true then w.dutyMaxNormal else 0) ∧
    (startHeater w).htr = {
      state := if w.heatCause then .shutdown else if w.heatEnable then .regulate else .off
      spent := spent, target := w.heatTarget, error := w.heatTarget - w.pwr.tp, limit := lim
      request := (clampI 0 lim ((w.heatTarget - w.pwr.tp) * w.heatGain)).toNat
      solarPrev := w.pwr.solar } := by
  refine ⟨_, rfl, _, rfl, ?_⟩
  have rl : ∀ (h : Heater) (a b : Nat), h.latched = 0 → h.relatch a b = h := by
    intro h a b hh; unfold Heater.relatch; simp [hh]
  unfold startHeater heaterLaw relimit
  dsimp only
  rw [rl _ _ _ rfl]
  have e : (match w.bat.cls with
        | .normal => w.dutyMaxNormal
        | .low => if decide (w.dailyHeatBudgetLow * 3600000 ≤ 0) = true ∧ w.pwr.solar = false then 0 else w.dutyMaxLow
        | .critical => if w.pwr.solar = true then w.dutyMaxNormal else 0) = (judgeBudget { w with htr := { state := if w.heatCause then .shutdown else if w.heatEnable then .regulate else .off } }).dutyLimit := by
    unfold State.dutyLimit judgeBudget State.budgetSpent
    show _ = (match w.bat.cls with
      | .normal => w.dutyMaxNormal
      | .low => if decide (w.dailyHeatBudgetLow * 3600000 ≤ 0) && !w.pwr.solar then 0 else w.dutyMaxLow
      | .critical => if w.pwr.solar then w.dutyMaxNormal else 0)
    cases w.bat.cls <;> cases w.pwr.solar <;> simp
  rw [e]
  rfl


/-- The part at power-on with its settings, reading, battery and lines (R210, R158, R25). -/
def lined (r : Reading) (s : State) : State := startLines (startBattery (startMonitor r (loadPart s)))
/-- `started` from `lined`. -/
theorem started_lined (r : Reading) (s : State) : started r s = evalSupplies (startHeater (lined r s)) := rfl
/-- `powerOn_lines` from `lined`. -/
theorem powerOn_lined (r : Reading) (s : State) : OnlyIn [.prt, .htr, .mon, .interval] (lined r s) (powerOn r s) := powerOn_lines r s
/-- Both ports are still OFF. -/
theorem lined_prt (r : Reading) (s : State) : (lined r s).prt = #v[{}, {}] := rfl
/-- No cycle has passed. -/
theorem lined_osc (r : Reading) (s : State) : (lined r s).osc = 0 := rfl
/-- The ports after the heater's start and the evaluation of the supplies. -/
theorem ev_prt (w : State) (hwp : w.prt = #v[{}, {}]) (hwo : w.osc = 0) : (evalSupplies (startHeater w)).prt =
    #v[{ link := if w.supplyDue 0 then .starting else .off }, { link := if w.supplyDue 1 then .starting else .off }] := by
  have hS := startHeater_does w
  have a : (startHeater w).prt = #v[{}, {}] := by rw [show (startHeater w).prt = w.prt from hS.frame .prt (by decide)]; exact hwp
  have b : (startHeater w).osc = 0 := by rw [show (startHeater w).osc = w.osc from hS.frame .osc (by decide)]; exact hwo
  rw [start_prt _ a b]
  have c : ∀ p, (startHeater w).supplyDue p = w.supplyDue p := by
    intro p
    have h1 : (startHeater w).params = w.params := hS.frame .params (by decide)
    have h2 : (startHeater w).bat = w.bat := hS.frame .bat (by decide)
    unfold State.supplyDue State.digEnable0 State.digEnable1 State.shedD1Critical State.param
    rw [h1, h2]
  rw [c, c]
/-- The evaluation of the supplies from OFF changes only the ports. -/
theorem ev_does (w : State) (hwp : w.prt = #v[{}, {}]) : Does [.prt] (startHeater w) (evalSupplies (startHeater w)) := by
  have hS := startHeater_does w
  exact evalSupplies_start (startHeater w) (by rw [show (startHeater w).prt = w.prt from hS.frame .prt (by decide), hwp]; rfl) (by rw [show (startHeater w).prt = w.prt from hS.frame .prt (by decide), hwp]; rfl)
/-- What the Condition Monitor's start keeps. -/
theorem start_facts (u : State) : (startConditions u).prt = u.prt ∧ (startConditions u).htr = u.htr ∧ (startConditions u).mon.wake = u.mon.wake ∧ (startConditions u).mon.figs = u.mon.figs ∧ (startConditions u).mon.report = u.mon.report ∧ (startConditions u).mon.number = u.mon.number ∧ (startConditions u).mon.start = u.mon.start := by
  unfold startConditions degradedEval
  exact ⟨rfl, rfl, rfl, rfl, rfl, rfl, rfl⟩
/-- R195: every condition row, over the state after the start. -/
theorem start_cond' (u : State) (c : CondId) : (startConditions u).mon.conds[c] = { status := (startConditions u).initialStatus c } := start_conds u c
/-- R64: the ports after POWER_ON. -/
theorem powerOn_prt (r : Reading) (s : State) : (powerOn r s).prt =
    #v[{ link := if (lined r s).supplyDue 0 then .starting else .off }, { link := if (lined r s).supplyDue 1 then .starting else .off }] := by
  rw [powerOn_eq, (start_facts _).1, started_lined, ev_prt _ (lined_prt r s) (lined_osc r s)]
/-- The heater after POWER_ON. -/
theorem powerOn_htr (r : Reading) (s : State) : (powerOn r s).htr = (startHeater (lined r s)).htr := by
  rw [powerOn_eq, (start_facts _).2.1, started_lined]
  exact (ev_does _ (lined_prt r s)).frame .htr (by decide)
/-- The Condition Monitor is still empty. -/
theorem lined_mon (r : Reading) (s : State) : (lined r s).mon = {} := rfl
/-- R195: the rest of the Condition Monitor after POWER_ON. -/
theorem powerOn_mon (r : Reading) (s : State) : (powerOn r s).mon.wake = false ∧ (powerOn r s).mon.figs = {} ∧ (powerOn r s).mon.report = none ∧ (powerOn r s).mon.number = 0 ∧ (powerOn r s).mon.start = 0 := by
  have e : (started r s).mon = {} := by
    rw [started_lined]
    exact Eq.trans ((ev_does _ (lined_prt r s)).frame .mon (by decide)) (Eq.trans ((startHeater_does (lined r s)).frame .mon (by decide)) (lined_mon r s))
  obtain ⟨_, _, a, b, c, d, f⟩ := start_facts (started r s)
  rw [powerOn_eq, a, b, c, d, f, e]
  exact ⟨rfl, rfl, rfl, rfl, rfl⟩
/-- R195: every condition row after POWER_ON. -/
theorem powerOn_cond (r : Reading) (s : State) (c : CondId) : (powerOn r s).mon.conds[c] = { status := (powerOn r s).initialStatus c } := by
  rw [powerOn_eq]; exact start_cond' _ c
/-- R186: the degraded flag after POWER_ON. -/
theorem powerOn_deg (r : Reading) (s : State) : (powerOn r s).mon.degraded = (powerOn r s).degradedLevel := by
  exact (powerOn_ok r s).degraded

end Sys2Proof.Laws
end

