-- ==== Sys2Proof/WellFormed.lean ====
section
/-! DEFINITION. What a command's operands must satisfy to be one the lines can carry: the ranges of the five monitor
inputs (R137, 11.5) and the length of a digitizer frame (3.1). -/
namespace Sys2Proof

/-- The ranges of R137 for voltages and current, and 0 to 2.048 V full scale for the temperature inputs (11.5). -/
def Reading.wf (r : Reading) : Bool :=
  decide (r.vb ≤ 65535) && decide (-32768 ≤ r.ib) && decide (r.ib ≤ 32767) && decide (r.vs ≤ 65535)
    && decide (r.tpMv ≤ 2048) && decide (r.tvMv ≤ 2048)

/-- A command whose operands its line can carry. Only three rows carry operands that their types do not already bound. -/
def Instr.wf : Instr → Bool
  | .powerOn r => r.wf
  | .secondBoundary r => r.wf
  | .digitizerFrame _ _ bytes => bytes.length == 14
  | _ => true

end Sys2Proof
end

