-- ==== Sys2Proof/Tests/Slice0.lean ====
section
/-! SUPPORT. Small tests: ill-formed operands, the two checks on known data, and for every statement of
Certificates/Slice0 concrete states and operands that meet its hypotheses, at the boundary values of its clauses. -/
namespace Sys2Proof.Tests
set_option Elab.async false
open Sys2Proof Sys2Proof.Machine

/-- The state a command leaves. -/
def after (c : Instr) (s : State) : State :=
  match exec c s with
  | .next t => t
  | _ => s

/-- The reading the tests use: 12,600 mV, no current, no solar, 0 °C. -/
def calm : Reading := ⟨12600, 0, 0, 600, 600⟩

/-- A part right after a second boundary. -/
def atBoundary (s : State) : State := { s with moment := { boundary := true } }

/-- A part right after the vote of a strobe. -/
def atStrobe (s : State) : State := { s with moment := { strobe := true } }

/-- A stamp of the tests. -/
def someStamp : Stamp := ⟨⟨100, 5⟩, .A⟩

/-- A request in hand, addressed, received at cycle 0, tick 0. -/
def request (kind : Byte) (body : List Byte) : Request where
  bcast := false
  kind := kind
  body := body
  cycle := 0
  ticks := 0
  stamp := someStamp
  eventActive := false
  forbidden := false
  snapshot := none

/-- A part that handles a request. -/
def handling (q : Request) (s : State) : State := { s with bus := { s.bus with req := some q, recv := .handling } }

/-! ### Operands that the lines cannot carry -/

theorem test_wf_calm : (Instr.powerOn calm).wf = true := by decide
theorem test_wf_bounds : (Instr.secondBoundary ⟨65535, -32768, 65535, 2048, 2048⟩).wf = true := by decide
theorem test_wf_vb : (Instr.powerOn ⟨65536, 0, 0, 600, 600⟩).wf = false := by decide
theorem test_wf_ib_low : (Instr.powerOn ⟨12600, -32769, 0, 600, 600⟩).wf = false := by decide
theorem test_wf_ib_high : (Instr.powerOn ⟨12600, 32768, 0, 600, 600⟩).wf = false := by decide
theorem test_wf_vs : (Instr.secondBoundary ⟨12600, 0, 65536, 600, 600⟩).wf = false := by decide
theorem test_wf_tp : (Instr.secondBoundary ⟨12600, 0, 0, 2049, 600⟩).wf = false := by decide
theorem test_wf_tv : (Instr.secondBoundary ⟨12600, 0, 0, 600, 2049⟩).wf = false := by decide
theorem test_wf_frame : (Instr.digitizerFrame 0 0 (List.replicate 13 0)).wf = false := by decide
theorem test_wf_frame_whole : (Instr.digitizerFrame 0 0 (List.replicate 14 0)).wf = true := by decide
theorem test_decode_none : decodeTableWord 8 0 = none := by decide

/-! ### The two checks (the published check values of their polynomials on the nine digits) -/

/-- The characters 1 to 9. -/
def digits : List Byte := [0x31, 0x32, 0x33, 0x34, 0x35, 0x36, 0x37, 0x38, 0x39]

theorem test_crc16 : crc16 digits = 0x29B1#16 := by decide +kernel
theorem test_crc8 : crc8 digits = 0xF4#8 := by decide +kernel
theorem test_roundDiv : roundDiv 25 10 = 3 ∧ roundDiv (-25) 10 = -3 ∧ roundDiv 24 10 = 2 ∧ roundDiv (-24) 10 = -2 := by decide

/-! ### The machine -/

theorem test_StepTakesTheFrontCommand :
    ({ State.reset with pending := [.trackEntry, .offer] } : State).pending = .trackEntry :: [.offer] := by decide

theorem test_step_runs_front :
    ∃ t, step { State.reset with pending := [.trackEntry, .offer] } = .next t ∧ t.pending = [.offer] :=
  ⟨_, rfl, rfl⟩

theorem test_IdleOrUnpowered : State.reset.pending = []
    ∧ ({ State.reset with powered := false } : State).powered = false ∧ ∀ r, Instr.fullSync ≠ .powerOn r :=
  ⟨rfl, rfl, fun _ h => by cases h⟩

/-! ### Invariants -/

/-- A mark record of the tests. -/
def someMark : Mark := ⟨.markA, someStamp, 7⟩

/-- A calibration entry of the tests. -/
def someCal : Cal := ⟨1, 0, 200, 1000, 3, 10, .waiting, none, 0, 0⟩

/-- An alert of the tests. -/
def someAlert : Alert := newAlert .note 3 1 someStamp (.note [0x41])

/-- An event record of the tests. -/
def someRecord : EvRecord := ⟨1, .opened, someStamp, 1000, 500, none, 2, [], {}⟩

/-- A part whose four lists are full, with a command waiting. -/
def full : State := { State.reset with
  mrk := { State.reset.mrk with marks := List.replicate 16 someMark }
  sch := { State.reset.sch with cals := List.replicate 4 someCal }
  box := { State.reset.box with entries := List.replicate 12 someAlert }
  evt := { State.reset.evt with list := List.replicate 32 someRecord }
  pending := [.notBeforePassed] }

theorem test_ListsStayWithinCapacity : full.listsFit ∧ ∃ t, step full = .next t :=
  ⟨by unfold State.listsFit; decide +kernel, _, rfl⟩

/-- A part with its rates at their limits, about to cross a second boundary. -/
def fast : State := { State.reset with
  clk := { State.reset.clk with c := 2000, r := -2000, acc := 99 }
  pending := [.secondBoundary calm] }

theorem test_RatesStayBounded : fast.ratesBounded ∧ ∃ t, step fast = .next t :=
  ⟨by unfold State.ratesBounded; decide, _, rfl⟩

theorem test_RatesStayBounded_boundary : (after (.secondBoundary calm) fast).clk.acc = 99
    ∧ (after (.secondBoundary calm) fast).clk.cyclesLeft = 9999980 := by decide +kernel

/-- A part whose offer of its first alert awaits its TAKE, with credits. -/
def offering (credits : Int) : State := { State.reset with
  mdm := { State.reset.mdm with link := .offered, limit := 9, tag := 4 }
  box := { State.reset.box with credits := credits, entries := [{ someAlert with inFlight := true }, someAlert] }
  pending := [.take 3 4] }

theorem test_OneAlertIsInFlight : (offering 9).flightFollows ∧ (offering 9).flights = 1 ∧ (∃ t, step (offering 9) = .next t)
    ∧ (after (.take 3 4) (offering 9)).flightFollows ∧ (after .offerTimeout (offering 9)).flights = 0 :=
  ⟨by unfold State.flightFollows; decide +kernel, by decide +kernel, ⟨_, rfl⟩,
    by unfold State.flightFollows; decide +kernel, by decide +kernel⟩
theorem test_CreditsStayBounded : (offering (-2)).creditsFit ∧ (∃ t, step (offering (-2)) = .next t)
    ∧ (after (.take 3 4) (offering (-2))).box.credits = -3 ∧ ¬ (offering (-3)).creditsFit ∧ (offering 10).creditsFit
    ∧ ¬ (offering 11).creditsFit :=
  ⟨by unfold State.creditsFit; decide +kernel, ⟨_, rfl⟩, by decide +kernel, by unfold State.creditsFit; decide +kernel,
    by unfold State.creditsFit; decide +kernel, by unfold State.creditsFit; decide +kernel⟩

/-- A part with a parameter at a bound, a slot written, and a command waiting. -/
def fitted : State := { State.reset with
  params := [(1, 10), (22, 16)]
  rings := State.reset.rings.set 0 { slots := [(3, ⟨-5, false, true⟩)], oldest := 0, newest := some 3 }
  pending := [.offer] }

theorem test_SettingsStayFitted : fitted.canonical ∧ fitted.paramsFit ∧ ∃ t, step fitted = .next t :=
  ⟨by unfold State.canonical; decide +kernel, by unfold State.paramsFit; decide +kernel, _, rfl⟩

/-- A part with an event in its list, so that WAKE is up by the event-wake term. -/
def awake : State := { State.reset with
  evt := { State.reset.evt with list := [someRecord], wakeTerm := true }
  mon := { State.reset.mon with wake := true }
  pending := [.offer] }

theorem test_WakeAndDegradedFollow : awake.termFollows ∧ awake.degradedFollows ∧ awake.wakeFollows ∧ ∃ t, step awake = .next t :=
  ⟨by unfold State.termFollows; decide +kernel, by unfold State.degradedFollows; decide +kernel,
    by unfold State.wakeFollows; decide +kernel, _, rfl⟩

/-! ### Power, the battery and the heater -/

/-- The battery of a part changed. -/
def withBat (f : Battery → Battery) (s : State) : State := { s with bat := f s.bat }

/-- The clock of a part changed. -/
def withClk (f : Clock → Clock) (s : State) : State := { s with clk := f s.clk }

theorem test_PowerOnStartsEveryBlock : State.reset.powered = true ∧ (after .powerLoss State.reset).powered = false := by
  decide +kernel
/-- The heater at power-on: at the bound of a valid input, and above the cutoff of 30 °C. -/
theorem test_PowerOn_heater :
    (after (.powerOn { calm with tpMv := 50 }) State.reset).htr.state = .regulate
    ∧ (after (.powerOn { calm with tpMv := 49 }) State.reset).htr.state = .shutdown
    ∧ (after (.powerOn { calm with tpMv := 49 }) State.reset).mon.conds[(14 : CondId)].status = true
    ∧ (after (.powerOn { calm with tpMv := 1850 }) State.reset).mon.conds[(13 : CondId)].status = true := by decide +kernel
/-- The ports at power-on by the class: `shed_d1_critical` is set. -/
theorem test_PowerOn_ports :
    (after (.powerOn { calm with vb := 12300 }) State.reset).prt[(1 : PortId)].link = .starting
    ∧ (after (.powerOn { calm with vb := 12299 }) State.reset).prt[(1 : PortId)].link = .off
    ∧ (after (.powerOn { calm with vb := 12299 }) State.reset).prt[(0 : PortId)].link = .starting := by decide +kernel

/-- State of charge at the bounds of the table of R140. -/
theorem test_SocAndClass_soc :
    (after (.powerOn { calm with vb := 12000 }) State.reset).bat.soc = 0
    ∧ (after (.powerOn { calm with vb := 12001 }) State.reset).bat.soc = 0
    ∧ (after (.powerOn { calm with vb := 12015 }) State.reset).bat.soc = 1
    ∧ (after (.powerOn { calm with vb := 13499 }) State.reset).bat.soc = 99
    ∧ (after (.powerOn { calm with vb := 13500 }) State.reset).bat.soc = 100 := by decide +kernel

theorem test_SocAndClass_start :
    (after (.powerOn { calm with vb := 12600 }) State.reset).bat.cls = .normal
    ∧ (after (.powerOn { calm with vb := 12599 }) State.reset).bat.cls = .low
    ∧ (after (.powerOn { calm with vb := 12300 }) State.reset).bat.cls = .low
    ∧ (after (.powerOn { calm with vb := 12299 }) State.reset).bat.cls = .critical := by decide +kernel

/-- The class after a reading, from a class and a Q in per cent. -/
def classFrom (c : BatClass) (soc : Nat) : BatClass :=
  (after (.secondBoundary calm) (withBat (fun b => { b with cls := c, q := soc * 1440000 }) State.reset)).bat.cls

theorem test_SocAndClass_down : classFrom .normal 40 = .normal ∧ classFrom .normal 39 = .low ∧ classFrom .normal 19 = .critical
    ∧ classFrom .low 20 = .low ∧ classFrom .low 19 = .critical := by decide +kernel
theorem test_SocAndClass_up : classFrom .low 44 = .low ∧ classFrom .low 45 = .normal ∧ classFrom .critical 24 = .critical
    ∧ classFrom .critical 25 = .low ∧ classFrom .critical 44 = .low ∧ classFrom .critical 45 = .normal := by decide +kernel

/-- R138: the state of charge of the reading, in the case the manual works out, and where Q is clamped to full. -/
theorem test_SocAndClass_later : (after (.secondBoundary { calm with ib := -300 }) State.reset).bat.soc = 39
    ∧ (after (.secondBoundary { calm with ib := -300 }) State.reset).bat.q = 57599700
    ∧ (after (.secondBoundary { calm with ib := 300 }) (withBat (fun b => { b with q := 144000000 }) State.reset)).bat.soc = 100 := by
  decide +kernel

/-- A part in RUN whose cutoff run stands at n. -/
def weak (n : Nat) : State := withBat (fun b => { b with cutoff := n }) State.reset

/-- A part in SHED whose reconnect run stands at n. -/
def resting (n : Nat) : State :=
  { withBat (fun b => { b with power := .shed, reconnect := n }) State.reset with
    clk := { State.reset.clk with supply := .shedOff, disc := .holdover, reason := some .shed }
    htr := { State.reset.htr with state := .off } }

theorem test_PowerState_run : State.reset.powered = true ∧ (weak 9).bat.power = .run
    ∧ (after (.secondBoundary { calm with vb := 11600 }) (weak 9)).bat.power = .run
    ∧ (after (.secondBoundary { calm with vb := 11599 }) (weak 8)).bat.power = .run
    ∧ (after (.secondBoundary { calm with vb := 11599 }) (weak 9)).bat.power = .shed := by decide +kernel
theorem test_PowerState_shed : (resting 59).bat.power = .shed
    ∧ (after (.secondBoundary { calm with vb := 12799 }) (resting 59)).bat.power = .shed
    ∧ (after (.secondBoundary { calm with vb := 12800 }) (resting 58)).bat.power = .shed
    ∧ (after (.secondBoundary { calm with vb := 12800 }) (resting 59)).bat.power = .run := by decide +kernel

theorem test_ReadingIsHeld_valid :
    (after (.secondBoundary { calm with tpMv := 50, tvMv := 1850 }) State.reset).pwr.tp = -550
    ∧ (after (.secondBoundary { calm with tpMv := 50, tvMv := 1850 }) State.reset).pwr.tv = 1250
    ∧ (after (.secondBoundary { calm with vs := 12900 }) State.reset).pwr.solar = true := by decide +kernel
theorem test_ReadingIsHeld_held :
    (after (.secondBoundary { calm with tpMv := 49, tvMv := 1851 }) State.reset).pwr.tpValid = false
    ∧ (after (.secondBoundary { calm with tpMv := 49, tvMv := 1851 }) State.reset).pwr.tv = 0
    ∧ (after (.secondBoundary { calm with vs := 12899 }) State.reset).pwr.solar = false := by decide +kernel

/-- A part whose battery sags under load, its empty run at n. -/
def empty (n : Nat) : State :=
  withBat (fun b => { b with empty := n }) { State.reset with pwr := { State.reset.pwr with vb := 11999, ib := -200 } }

theorem test_ChargeCount : (coulombStep (empty 58)).bat.q = 57599800 ∧ (coulombStep (empty 59)).bat.q = 7200000
    ∧ (coulombStep (empty 59)).bat.emptySyncs = 1 := by decide +kernel
/-- R139: the mark of a counted run: set at 60, kept through the run, ended with it; the count goes up once. -/
theorem test_ChargeCount_mark :
    let t := coulombStep (empty 59)
    (coulombStep (empty 58)).bat.emptyCounted = false ∧ t.bat.emptyCounted = true ∧ (coulombStep t).bat.emptyCounted = true
      ∧ (coulombStep t).bat.emptySyncs = 1 ∧ (coulombStep { t with pwr := { t.pwr with ib := 0 } }).bat.emptyCounted = false
      ∧ (coulombStep { t with pwr := { t.pwr with vb := 12000 } }).bat.emptyCounted = false := by decide +kernel

/-- A charger in a state. -/
def charging (c : Charge) (f : Battery → Battery) : State := withBat (fun b => f { b with charge := c }) State.reset

theorem test_ChargerTimers_fullSync : (charging .absorb fun b => { b with term := 60 }).bat.charge = .absorb
    ∧ 60 ≤ (charging .absorb fun b => { b with term := 60 }).bat.term
    ∧ (after .fullSync (charging .absorb fun b => { b with term := 60 })).bat.charge = .float := by decide +kernel
theorem test_ChargerTimers_absorb :
    let s := atBoundary (charging .absorb fun b => { b with absorb := 7200, term := 59 })
    s.powered = true ∧ s.moment.boundary = true ∧ s.bat.charge = .absorb ∧ s.absorbMax * 60 ≤ s.bat.absorb ∧ s.bat.term < 60
      ∧ (after .absorbTimeLimit s).bat.charge = .float := by decide +kernel
theorem test_ChargerTimers_float :
    let s := charging .float fun b => { b with floatLow := 60 }
    s.bat.charge = .float ∧ 60 ≤ s.bat.floatLow ∧ (after .floatLowRecharge s).bat.charge = .bulk := by decide +kernel
theorem test_ChargerTimers_empty : 60 ≤ (empty 60).bat.empty ∧ (empty 60).bat.emptyCounted = false
    ∧ (after .emptySync (empty 60)).bat.emptySyncs = 1 := by decide +kernel
theorem test_ChargerTimers_hold :
    let s := atBoundary (charging .bulk fun b => { b with hold := some 180 })
    s.moment.boundary = true ∧ s.bat.hold = some 180 ∧ s.quietMax ≤ 180 ∧ (after .chargeHoldExpiry s).bat.hold = none := by
  decide +kernel

/-- A charger in FAULT that may restart, with solar present and a pack temperature. -/
def faulted (tp : Int) : State :=
  { atBoundary (charging .fault fun b => { b with clear := 600, restarts := 2 }) with
    pwr := { State.reset.pwr with solar := true, tp := tp } }

theorem test_ChargerRestarts : (faulted 20).powered = true ∧ (faulted 20).moment.boundary = true ∧ (faulted 20).bat.charge = .fault
    ∧ (faulted 20).chargeRestart = false ∧ (faulted 20).bat.restarts < 3 ∧ 600 ≤ (faulted 20).bat.clear := by decide +kernel
theorem test_ChargerRestarts_branches : (after .chargerAutoRestart (faulted 19)).bat.charge = .coldHold
    ∧ (after .chargerAutoRestart (faulted 20)).bat.charge = .bulk ∧ (after .chargerAutoRestart (faulted 450)).bat.charge = .bulk
    ∧ (after .chargerAutoRestart (faulted 451)).bat.charge = .hotHold := by decide +kernel

/-- A charger in a state at a reading with solar present, at 20 °C, with a voltage and a current. -/
def reading (vb : Nat) (ib : Int) (c : Charge) (f : Battery → Battery) : State :=
  { charging c f with pwr := { State.reset.pwr with vb := vb, ib := ib, vs := 20000, solar := true, tp := 200 } }

/-- R147: above `v_over`, and a fifth reading above 3/2 of `i_bulk`; the charger already in FAULT. -/
theorem test_ChargerReading_fault : (chargeReading (reading 15000 0 .bulk id)).bat.charge = .absorb
    ∧ (chargeReading (reading 15001 0 .float id)).bat.charge = .fault ∧ (chargeReading (reading 15001 0 .float id)).bat.faults = 1
    ∧ (chargeReading (reading 13000 7500 .bulk fun b => { b with overRun := 4 })).bat.overRun = 0
    ∧ (chargeReading (reading 13000 7501 .bulk fun b => { b with overRun := 3 })).bat.charge = .bulk
    ∧ (chargeReading (reading 13000 7501 .bulk fun b => { b with overRun := 4 })).mon.conds[(12 : CondId)].status = true
    ∧ (chargeReading (reading 15001 0 .fault fun b => { b with clear := 599 })).bat.clear = 0 := by decide +kernel
/-- R147, R155: the cause of a reading at its bounds; the next reading decides it anew. -/
theorem test_ChargerReading_cause :
    let cause (vb : Nat) (ib : Int) (n : Nat) := (chargeReading (reading vb ib .fault fun b => { b with overRun := n, cause := true })).bat.cause
    cause 15000 0 0 = false ∧ cause 15001 0 0 = true ∧ cause 13000 7500 4 = false ∧ cause 13000 7501 3 = false
      ∧ cause 13000 7501 4 = true ∧ cause 13000 7501 5 = true := by decide +kernel
theorem test_ChargerReading_restart : (chargeReading (reading 13000 0 .fault fun b => { b with clear := 598 })).bat.charge = .fault
    ∧ (chargeReading (reading 13000 0 .fault fun b => { b with clear := 599 })).bat.charge = .bulk
    ∧ (chargeReading (reading 13000 0 .fault fun b => { b with clear := 599, restarts := 2 })).bat.restarts = 3
    ∧ (chargeReading (reading 13000 0 .fault fun b => { b with clear := 599, restarts := 3 })).bat.clear = 600 := by decide +kernel
/-- R148: no solar, below and above the charge temperatures, and the entry to BULK. -/
theorem test_ChargerReading_evaluation :
    let at_ (tp : Int) (c : Charge) : State := { reading 13000 0 c fun b => { b with absorb := 9, limit := 400 } with
      pwr := { (reading 13000 0 c id).pwr with tp := tp } }
    (chargeReading { at_ 200 .absorb with pwr := State.reset.pwr }).bat.charge = .idle
    ∧ (chargeReading (at_ 19 .absorb)).bat.charge = .coldHold ∧ (chargeReading (at_ 19 .absorb)).bat.absorb = 0
    ∧ (chargeReading (at_ 19 .bulk)).bat.absorb = 9 ∧ (chargeReading (at_ 19 .bulk)).mon.conds[(11 : CondId)].status = true
    ∧ (chargeReading (at_ 451 .float)).bat.charge = .hotHold ∧ (chargeReading (at_ 450 .hotHold)).bat.charge = .bulk
    ∧ (chargeReading (at_ 20 .coldHold)).bat.limit = 5000 := by decide +kernel
/-- R149 to R151: BULK, ABSORB and FLOAT at the bounds of their voltages, runs and times. -/
theorem test_ChargerReading_states : (chargeReading (reading 14199 0 .bulk id)).bat.charge = .bulk
    ∧ (chargeReading (reading 14200 0 .bulk id)).bat.charge = .absorb
    ∧ (chargeReading (reading 14199 500 .absorb fun b => { b with limit := 4950 })).bat.limit = 5000
    ∧ (chargeReading (reading 14201 499 .absorb fun b => { b with limit := 50, term := 58 })).bat.limit = 0
    ∧ (chargeReading (reading 14200 499 .absorb fun b => { b with limit := 50, term := 58 })).bat.charge = .absorb
    ∧ (chargeReading (reading 14200 499 .absorb fun b => { b with term := 59 })).bat.fullSyncs = 1
    ∧ (chargeReading (reading 14200 500 .absorb fun b => { b with term := 59, absorb := 7198 })).bat.charge = .absorb
    ∧ (chargeReading (reading 14200 500 .absorb fun b => { b with term := 59, absorb := 7199 })).bat.charge = .float
    ∧ (chargeReading (reading 13199 0 .float fun b => { b with floatLow := 58 })).bat.charge = .float
    ∧ (chargeReading (reading 13199 0 .float fun b => { b with floatLow := 59 })).bat.charge = .bulk
    ∧ (chargeReading (reading 13200 0 .float fun b => { b with floatLow := 59 })).bat.floatLow = 0 := by decide +kernel
/-- R154: a step withheld under a hold marks the record once; at 180 s the hold ends and the step is taken. -/
theorem test_ChargerReading_hold :
    let held (h : Nat) : State :=
      { reading 14199 0 .absorb fun b => { b with limit := 300, hold := some h } with
        evt := { State.reset.evt with record := some someRecord } }
    (chargeReading (held 5)).bat.limit = 300 ∧ (chargeReading (held 5)).bat.holdFlagged = true
      ∧ (chargeReading (held 5)).evt.record = some { someRecord with flags := { heatHeld := true } }
      ∧ (chargeReading (held 178)).bat.hold = some 179 ∧ (chargeReading (held 179)).bat.hold = none
      ∧ (chargeReading (held 179)).bat.limit = 400 := by decide +kernel

theorem test_TimedLevels_period : (reach State.reset.nextChgPeriod State.reset).isSome = true
    ∧ (after .chgPwmPeriod (charging .bulk fun b => { b with limit := 5000 })).bat.duty = 250
    ∧ (after .chgPwmPeriod (charging .bulk fun b => { b with limit := 5000 })).bat.chgEnd = some 12500 := by decide +kernel
theorem test_TimedLevels_ends :
    let s : State := { State.reset with
      sch := { State.reset.sch with sampleEnd := some 9999999, settleEnd := some 9999999 }
      bat := { State.reset.bat with chgEnd := some 9999999, chgHigh := true }
      htr := { State.reset.htr with heatEnd := some 9999999, heat := true } }
    (reach 9999999 s).isSome = true ∧ (after .samplePulseEnd s).sch.sampleEnd = none ∧ (after .chgLimitHighEnd s).bat.chgHigh = false
      ∧ (after .heatHighTimeEnd s).htr.heat = false ∧ (after .calSettleExpiry s).sch.settleEnd = none := by decide +kernel

theorem test_Shed_entry : (weak 10).powered = true ∧ (weak 10).bat.power = .run ∧ 10 ≤ (weak 10).bat.cutoff
    ∧ (after .shedEntry (weak 10)).bat.power = .shed ∧ (after .shedEntry (weak 10)).clk.supply = .shedOff := by decide +kernel
/-- SHED entry with a record in progress, a calibration running and an alert in flight. -/
theorem test_Shed_entry_busy :
    let s : State := { weak 10 with
      evt := { State.reset.evt with state := .closing, record := some someRecord, lastVoted := some ⟨4000, someStamp⟩ }
      sch := { State.reset.sch with
        cals := [{ someCal with outcome := .running, runStart := some 0 }]
        windows := #v[.running, .closed]
        lines := #v[some ⟨1, 0⟩, none] }
      mdm := { State.reset.mdm with link := .sending }
      box := { State.reset.box with entries := [{ someAlert with inFlight := true }] } }
    s.evt.notes = [] ∧ s.runningCal.isSome = true ∧ (after .shedEntry s).evt.state = .idle
      ∧ (after .shedEntry s).evt.list = [{ someRecord with
          state := .closed, close := some ⟨⟨⟨0, 0⟩, .U⟩, 4000, 30⟩, flags := { shed := true } }]
      ∧ (after .shedEntry s).sch.cals.map Cal.outcome = [.skipped] ∧ (after .shedEntry s).sch.lines = #v[none, none]
      ∧ (after .shedEntry s).sch.windows = #v[.closing 300000000, .closed] ∧ (after .shedEntry s).mdm.link = .off
      ∧ (after .shedEntry s).flights = 0 ∧ someAlert ∈ (after .shedEntry s).box.entries := by decide +kernel
theorem test_Shed_exit : (resting 60).bat.power = .shed ∧ 60 ≤ (resting 60).bat.reconnect ∧ (resting 60).clk.supply = .shedOff
    ∧ (resting 60).prt[(0 : PortId)].link = State.reset.prt[(0 : PortId)].link
    ∧ (after .shedExit (resting 60)).bat.power = .run ∧ (after .shedExit (resting 60)).clk.supply = .continuous := by decide +kernel

/-- R142 to R144: SECOND_BOUNDARY hands SHED, RUN and a change of class over, in RUN and in SHED. -/
theorem test_HandOver :
    let run (cls : BatClass) (x : Supply) : State := withBat (fun b => { b with cls := cls })
      (withClk (fun c => { c with supply := x, disc := .track }) { State.reset with prt := #v[{ link := .up }, { link := .down }] })
    let shed := after (.secondBoundary { calm with vb := 11599 }) (withBat (fun b => { b with cutoff := 9 }) (run .normal .continuous))
    let back := after (.secondBoundary { calm with vb := 12800 }) (resting 59)
    let cut := handOver .low .run (run .critical .session)
    shed.bat.power = .shed ∧ shed.clk.supply = .shedOff ∧ shed.clk.reason = some .shed ∧ shed.prt[(1 : PortId)].link = .off
      ∧ shed.htr.state = .off ∧ back.bat.power = .run ∧ back.clk.supply = .continuous ∧ back.prt[(0 : PortId)].link = .starting
      ∧ (handOver .normal .run (run .low .continuous)).clk.supply = .resting
      ∧ (handOver .normal .run (run .low .continuous)).clk.reason = some .gnssOff
      ∧ (handOver .normal .run (run .low .continuous)).mon.conds[(9 : CondId)].status = true
      ∧ (handOver .low .run (run .normal .resting)).clk.supply = .continuous
      ∧ (handOver .low .shed (resting 3)).clk.supply = .shedOff
      ∧ cut.clk.supply = .session ∧ cut.clk.disc = .track ∧ cut.prt[(1 : PortId)].link = .off ∧ cut.prt[(0 : PortId)].link = .up
      ∧ cut.mon.conds[(10 : CondId)].status = true := by decide +kernel

/-- A heater in a state. -/
def heating (f : Heater → Heater) : State := { State.reset with htr := f State.reset.htr }

theorem test_HeaterEvents_hold :
    let s := atBoundary (heating fun h => { h with state := .held, hold := some 180 })
    s.powered = true ∧ s.htr.hold = some 180 ∧ s.moment.boundary = true ∧ s.quietMax ≤ 180
      ∧ (after .heaterHoldExpiry s).htr.state = .regulate := by decide +kernel
theorem test_HeaterEvents_fault :
    let s := heating fun h => { h with fault := true }
    0 + 10000 ≤ (elapse (max 3 (0 + 10000 - State.reset.osc)) State.reset).osc ∧ State.reset.htr.fault = false
      ∧ State.reset.htr.state ≠ .shutdown ∧ (after (.heatFaultAsserted 3) State.reset).htr.state = .shutdown
      ∧ (after (.heatFaultAsserted 3) State.reset).htr.faultAt = 10000 ∧ s.htr.fault = true
      ∧ (after (.heatFaultCleared 3) s).htr.fault = false ∧ (after (.heatFaultAsserted 3) s).osc = 3 := by decide +kernel
theorem test_HeaterEvents_again :
    let s := heating fun h => { h with state := .shutdown, clear := 59 }
    s.htr.fault = false ∧ s.htr.state = .shutdown ∧ (after (.heatFaultAsserted 10001) s).htr.clear = 0
      ∧ (after (.heatFaultAsserted 10001) s).htr.faultAt = 10001 := by decide +kernel
theorem test_HeaterEvents_filter :
    let s (v : Bool) : State := { heating fun h => { h with fault := v } with clk := { State.reset.clk with t := 9990001 } }
    (elapse (max 0 (0 + 10000 - (s true).osc)) (s true)).osc = 9998 ∧ (after (.heatFaultCleared 0) (s true)).htr.fault = true
      ∧ (after (.heatFaultAsserted 0) (s false)).htr.fault = false := by decide +kernel
theorem test_HeaterEvents_restart :
    let s := atBoundary (heating fun h => { h with state := .shutdown, clear := 60 })
    s.moment.boundary = true ∧ s.htr.state = .shutdown ∧ 60 ≤ s.htr.clear ∧ s.heatRestart = false
      ∧ (after .heaterAutoRestart s).htr.state = .regulate := by decide +kernel

theorem test_HeaterLaw : (heaterLaw { State.reset with pwr := { State.reset.pwr with tp := -230 } }).htr.request = 600
    ∧ (heaterLaw { State.reset with pwr := { State.reset.pwr with tp := -251 } }).htr.request = 1000
    ∧ (heaterLaw { State.reset with pwr := { State.reset.pwr with tp := -199 } }).htr.request = 0 := by decide +kernel
/-- R166: a limit of 400 re-latches a duty above it: HEAT goes low at 400 × 10 × 10,000 cycles, at once where that has passed. -/
theorem test_HeaterLaw_relatch :
    let s (d n : Nat) : State :=
      { withBat (fun b => { b with cls := .low }) (heating fun h =>
          { h with latched := d, heat := true, heatEnd := some 90000000, periodAt := 0, periodLen := 10 }) with osc := n, params := [(96, 400)] }
    (s 900 0).dutyLimit = 400 ∧ (heaterLaw (s 400 0)).htr.heatEnd = some 90000000 ∧ (heaterLaw (s 401 0)).htr.latched = 400
      ∧ (heaterLaw (s 401 39999999)).htr.heatEnd = some 40000000 ∧ (heaterLaw (s 401 39999999)).htr.heat = true
      ∧ (relimit (s 401 40000000)).htr.heat = false ∧ (relimit (s 401 40000000)).htr.heatEnd = none := by decide +kernel
/-- R167 to R169: the energy of a second, under solar too, the day test and the budget. -/
theorem test_HeaterReading_energy :
    let s (solar : Bool) := heating fun h => { h with latched := 500, today := 7, solarPrev := solar }
    let d (n : Nat) : State := { heating fun h => { h with today := n } with clk := { State.reset.clk with s := 86399 } }
    (heaterEnergy (s false)).mon.figs.energy = 20000 ∧ (heaterEnergy (s false)).mon.figs.onSeconds = 1
      ∧ (heaterEnergy (s false)).htr.today = 20007 ∧ (heaterEnergy (s true)).htr.today = 7
      ∧ (heaterDay (d 719999999)).htr.spent = false ∧ (heaterDay (d 720000000)).htr.spent = true
      ∧ (heaterDay { d 720000000 with clk := { State.reset.clk with s := 86400 } }).htr.today = 0
      ∧ (heaterDay { d 720000000 with clk := { State.reset.clk with s := 86400 } }).htr.day = 1 := by decide +kernel
/-- R172, R173: a cause, the clear run up to 60, and the restart withheld where it is manual. -/
theorem test_HeaterReading_causes :
    let hot (tp : Int) : State := { heating id with pwr := { State.reset.pwr with tp := tp } }
    let off (n : Nat) := heating fun h => { h with state := .shutdown, clear := n }
    (heaterCauses (hot 400)).htr.state = .regulate ∧ (heaterCauses (hot 401)).htr.state = .shutdown
      ∧ (heaterCauses (hot 401)).mon.conds[(13 : CondId)].status = true
      ∧ (heaterCauses { off 59 with pwr := { State.reset.pwr with tp := 401 } }).htr.clear = 0
      ∧ (heaterCauses (off 58)).htr.clear = 59 ∧ (heaterCauses (off 59)).htr.state = .regulate
      ∧ (heaterCauses { off 59 with params := [(100, 1)] }).htr.state = .shutdown := by decide +kernel
theorem test_HeaterReading_hold : (heaterHold (heating fun h => { h with state := .held, hold := some 178 })).htr.hold = some 179
    ∧ (heaterHold (heating fun h => { h with state := .held, hold := some 179 })).htr.state = .regulate
    ∧ (heating id).htr.hold = none := by decide +kernel
/-- R164, R165, R171: the latch at a period start, duty 1000, and a latch withheld under a hold. -/
theorem test_HeaterReading_period :
    let s (n d : Nat) (x : HeatState) : State :=
      { heating fun h => { h with state := x, request := d, latched := 200 } with
        clk := { State.reset.clk with s := n }
        evt := { State.reset.evt with record := some someRecord } }
    (heaterPeriod (s 11 600 .regulate)).htr.latched = 200 ∧ (heaterPeriod (s 20 600 .regulate)).htr.latched = 600
      ∧ (heaterPeriod (s 20 600 .regulate)).htr.heatEnd = some 60000000 ∧ (heaterPeriod (s 20 1000 .regulate)).htr.heatEnd = none
      ∧ (heaterPeriod (s 20 1000 .regulate)).htr.heat = true ∧ (heaterPeriod (s 20 600 .off)).htr.heat = false
      ∧ (heaterPeriod (s 20 600 .held)).htr.latched = 200 ∧ (heaterPeriod (s 20 600 .held)).htr.holdFlagged = true
      ∧ (heaterPeriod (s 20 600 .held)).evt.record = some { someRecord with flags := { heatHeld := true } }
      ∧ (heaterPeriod (s 20 200 .held)).htr.holdFlagged = false := by decide +kernel

/-! ### Station time -/

/-- A clock with one correction point, counted up or held. -/
def corrected (up : Bool) : State := withClk (fun c => { c with t := 249999, corr := [250000], corrUp := up }) State.reset

theorem test_CyclesCountTime : 1 < (corrected true).clk.cyclesLeft ∧ (corrected true).clk.t ≤ 250000
    ∧ 1 ≤ 250000 - (corrected true).clk.t ∧ (elapse 1 (corrected true)).clk.t = 250000
    ∧ (elapse 2 (corrected true)).clk.t = 250002 ∧ (elapse 2 (corrected false)).clk.t = 250000 := by decide +kernel
theorem test_CyclesCountTime_ends : State.reset.clk.corr = [] ∧ 9999999 < State.reset.clk.cyclesLeft
    ∧ (elapse 9999999 State.reset).clk.t = 9999999 := by decide +kernel
/-- Two correction points: before, between and after them, counted up and held. -/
theorem test_CyclesCountTime_list :
    let s (up : Bool) := withClk (fun c => { c with t := 249999, corr := [250000, 750000], corrUp := up }) State.reset
    (s true).clk.corr.Pairwise (fun p q => p + 2 ≤ q) ∧ (∀ p ∈ (s true).clk.corr, (s true).clk.t ≤ p)
      ∧ (elapse 1 (s true)).clk.corr = [250000, 750000] ∧ (elapse 2 (s true)).clk.corr = [750000]
      ∧ (elapse 600000 (s true)).clk.t = 850001 ∧ (elapse 600000 (s false)).clk.t = 849997
      ∧ (elapse 600000 (s true)).clk.corr = [] := by decide +kernel

theorem test_SecondBoundary : fast.powered = true ∧ (after (.secondBoundary calm) fast).clk.s = 1
    ∧ (after (.secondBoundary calm) fast).clk.corr = (List.range 20).map (fun i => 250000 + 500000 * i) := by decide +kernel
theorem test_SecondBoundary_wrap :
    (after (.secondBoundary calm) (withClk (fun c => { c with s := 4294967295 }) State.reset)).clk.s = 0 := by decide +kernel

theorem test_PhaseError : phaseError 4999999 = 4999999 ∧ phaseError 5000000 = -5000000 ∧ phaseError 9999999 = -1
    ∧ edgeSecond ⟨4294967295, 9999999⟩ = 0 ∧ edgeSecond ⟨7, 4999999⟩ = 7 := by decide
theorem test_PhaseError_fitted : State.reset.paramsFit := by unfold State.paramsFit; decide +kernel

/-- A clock in a discipline state. -/
def clockIn (d : Disc) (f : Clock → Clock) : State := withClk (fun c => f { c with disc := d, u := 1100 }) State.reset

/-- An open event. -/
def opened (s : State) : State := { s with evt := { s.evt with state := .opened, record := some someRecord } }

theorem test_Capture_steers : (clockIn .track id).clk.supply.on = true ∧ (clockIn .track id).clk.disc = .track
    ∧ (clockIn .track id).ppsWindow = 500 ∧ (phaseError 500).natAbs ≤ (clockIn .track id).stepThreshold
    ∧ (ppsCapture ⟨5, 500⟩ 0 (clockIn .track id)).clk.unlock = 1
    ∧ (ppsCapture ⟨5, 10⟩ 0 (clockIn .track id)).clk.r = -125
    ∧ (ppsCapture ⟨5, 11⟩ 0 (clockIn .track fun c => { c with unlock := 3 })).clk.disc = .acquire := by decide +kernel
theorem test_Capture_rejected :
    (clockIn .track fun c => { c with supply := .resting }).clk.supply.on = false
    ∧ (phaseError 501).natAbs = 501 ∧ (ppsCapture ⟨5, 501⟩ 0 (clockIn .track id)).mrk.windowRej = 1
    ∧ (ppsCapture ⟨5, 10⟩ 0 (clockIn .track fun c => { c with label := some ⟨5, 1⟩ })).clk.unfixed = 1 := by decide +kernel
/-- The setting capture: 3 ticks after the edge, at the carry into the next second, and its deferral. -/
theorem test_Capture_sets :
    let s := clockIn .unset fun c => { c with label := some ⟨4294967295, 2⟩, ticks := 10000003 }
    s.clk.supply.on = true ∧ s.eventActive = false ∧ s.calRunning = false ∧ (opened s).eventActive = true
    ∧ (ppsCapture ⟨5, 10⟩ 10000000 s).clk.t = 3 ∧ (ppsCapture ⟨5, 10⟩ 10000000 s).clk.s = 4294967295
    ∧ (ppsCapture ⟨5, 10⟩ 3 s).clk.t = 0 ∧ (ppsCapture ⟨5, 10⟩ 3 s).clk.s = 0
    ∧ (ppsCapture ⟨5, 10⟩ 3 (opened s)).clk.stepDeferred = true
    ∧ (ppsCapture ⟨5, 10⟩ 3 (opened s)).clk.disc = .unset := by decide +kernel
/-- The rows of R11's table, and a second that both numbers wrap at. -/
theorem test_Capture_checks :
    let s := fun (n : Nat) (o : Option Int) (l : Nat) =>
      clockIn .track fun c => { c with s := 5, t := 20, mismatch := n, offset := o, label := some ⟨l, 2⟩ }
    (ppsCapture ⟨5, 10⟩ 0 (s 2 (some 1) 5)).clk.offset = none
    ∧ (ppsCapture ⟨5, 10⟩ 0 (s 2 (some 1) 4)).clk.offset = some (-1) ∧ (ppsCapture ⟨5, 10⟩ 0 (s 2 (some 1) 4)).clk.mismatch = 1
    ∧ (ppsCapture ⟨5, 10⟩ 0 (s 1 (some 1) 6)).clk.mismatch = 2 ∧ (ppsCapture ⟨5, 10⟩ 0 (s 1 (some 1) 6)).clk.s = 5
    ∧ (ppsCapture ⟨5, 10⟩ 0 (s 2 (some 1) 6)).clk.mismatch = 0 ∧ (ppsCapture ⟨5, 10⟩ 0 (s 2 (some 1) 6)).clk.s = 6
    ∧ (ppsCapture ⟨5, 10⟩ 0 (s 2 (some (-6)) 4294967295)).clk.s = 4294967295
    ∧ (ppsCapture ⟨5, 10⟩ 0 (opened (s 2 (some 1) 6))).clk.mismatch = 3
    ∧ (ppsCapture ⟨5, 10⟩ 0 (opened (s 2 (some 1) 6))).clk.s = 5 := by decide +kernel
/-- The exit from HOLDOVER, at the lock window and above it. -/
theorem test_Capture_ends_holdover :
    let s := clockIn .holdover fun c => { c with reason := some .ppsLoss, rLoss := 7 }
    s.clk.label = none ∧ s.lockWindow = 10 ∧ (ppsCapture ⟨5, 10⟩ 0 s).clk.disc = .acquire
    ∧ (ppsCapture ⟨5, 10⟩ 0 s).clk.reason = none ∧ (ppsCapture ⟨5, 10⟩ 0 s).clk.lock = 1
    ∧ (ppsCapture ⟨5, 11⟩ 0 s).clk.lock = 0 ∧ (ppsCapture ⟨5, 1001⟩ 0 s).clk.u = 100200 := by decide +kernel
/-- A label-less ACQUIRE capture at the lock window and above it, and the eighth in a row. -/
theorem test_Capture_locks :
    let s (n : Nat) := clockIn .acquire fun c => { c with lock := n }
    (s 7).clk.label = none ∧ (phaseError 10).natAbs ≤ (s 7).stepThreshold ∧ (ppsCapture ⟨5, 10⟩ 0 (s 6)).clk.lock = 7
      ∧ (ppsCapture ⟨5, 10⟩ 0 (s 7)).clk.disc = .track ∧ (ppsCapture ⟨5, 11⟩ 0 (s 7)).clk.lock = 0
      ∧ (ppsCapture ⟨5, 10⟩ 0 (s 6)).clk.r = -125 ∧ (ppsCapture ⟨5, 10⟩ 0 (s 6)).clk.c = -625 := by decide +kernel
/-- A TRACK capture inside `pps_window` and above a step threshold of 100: the step, and its deferral. -/
theorem test_Capture_steps :
    let s : State := { clockIn .track fun c => { c with s := 6, t := 50, lock := 3 } with params := [(1, 100)] }
    (phaseError 101).natAbs ≤ s.ppsWindow ∧ s.stepThreshold < (phaseError 101).natAbs ∧ s.clk.label = none
      ∧ (ppsCapture ⟨5, 101⟩ 0 s).clk.disc = .acquire ∧ (ppsCapture ⟨5, 101⟩ 0 s).clk.t = 9999949
      ∧ (ppsCapture ⟨5, 101⟩ 0 s).clk.s = 5 ∧ (ppsCapture ⟨5, 100⟩ 0 s).clk.disc = .track
      ∧ (ppsCapture ⟨5, 101⟩ 0 (opened s)).clk.t = 50 ∧ (ppsCapture ⟨5, 101⟩ 0 (opened s)).clk.c = -2000
      ∧ (ppsCapture ⟨5, 101⟩ 0 (opened s)).clk.stepDeferred = true := by decide +kernel

/-- Captures with a fix-2 label: steering in TRACK and ACQUIRE, a correction with it, and a correction and a step at one capture. -/
theorem test_Capture_labelled :
    let s (d : Disc) (n : Nat) (l : Nat) : State :=
      clockIn d fun c => { c with s := 5, t := 2000, mismatch := n, offset := some 1, lock := 7, label := some ⟨l, 2⟩ }
    (∀ l, (s .track 2 6).clk.label = some l → l.fix = 2) ∧ (ppsCapture ⟨5, 10⟩ 0 (s .track 2 5)).clk.r = -125
      ∧ (ppsCapture ⟨5, 10⟩ 0 (s .acquire 2 5)).clk.disc = .track ∧ (ppsCapture ⟨5, 10⟩ 0 (s .acquire 2 5)).clk.s = 5
      ∧ (ppsCapture ⟨5, 10⟩ 0 (s .acquire 2 6)).clk.s = 6 ∧ (ppsCapture ⟨5, 10⟩ 0 (s .acquire 2 6)).clk.steps = 1
      ∧ (ppsCapture ⟨5, 1001⟩ 0 (s .acquire 2 6)).clk.s = 6 ∧ (ppsCapture ⟨5, 1001⟩ 0 (s .acquire 2 6)).clk.t = 999
      ∧ (ppsCapture ⟨5, 1001⟩ 0 (s .acquire 2 6)).clk.steps = 2 ∧ (ppsCapture ⟨5, 1001⟩ 0 (s .acquire 1 6)).clk.steps = 1
      ∧ (ppsCapture ⟨5, 1001⟩ 0 (opened (s .holdover 2 6))).clk.s = 5 :=
  ⟨by intro l h; cases h; rfl, by decide +kernel⟩
/-- R22: PPS_LOST is cleared with the time before the step, HOLDOVER_LIMIT and TIME_UNSET follow the clock. -/
theorem test_Capture_reports :
    let lost := reportClock (clockIn .holdover fun c => { c with s := 5, t := 2000, u := 2000000, reason := some .ppsLoss })
    let t := ppsCapture ⟨5, 1001⟩ 0 lost
    let u := ppsCapture ⟨5, 10⟩ 0 (clockIn .unset fun c => { c with s := 5, u := 4294967295, label := some ⟨8, 2⟩ })
    lost.mon.conds[(0 : CondId)].status = true ∧ lost.mon.conds[(1 : CondId)].status = true
      ∧ t.mon.conds[(0 : CondId)].last = some ⟨⟨5, 2000⟩, .C⟩ ∧ t.mon.conds[(0 : CondId)].status = false
      ∧ t.mon.conds[(1 : CondId)].last = some ⟨⟨5, 999⟩, .B⟩ ∧ t.mon.conds[(1 : CondId)].status = false
      ∧ u.mon.conds[(2 : CondId)].last = some ⟨⟨8, 0⟩, .D⟩ ∧ u.mon.conds[(1 : CondId)].last = some ⟨⟨8, 0⟩, .A⟩ := by decide +kernel

theorem test_PhaseStep : (clockIn .acquire id).clk.disc = .acquire ∧ (clockIn .acquire id).stepThreshold < (phaseError 1001).natAbs
    ∧ (clockIn .acquire id).eventActive = false ∧ (clockIn .acquire id).calRunning = false
    ∧ (acceptedCapture ⟨0, 1001⟩ 0 none (clockIn .acquire fun c => { c with s := 1, t := 2000 })).clk.t = 999 := by decide +kernel
theorem test_PhaseStep_deferred : (opened (clockIn .acquire id)).eventActive = true
    ∧ (acceptedCapture ⟨0, 1001⟩ 0 none (opened (clockIn .acquire id))).clk.c = -2000
    ∧ (acceptedCapture ⟨0, 9998999⟩ 0 none (opened (clockIn .acquire id))).clk.c = 2000 := by decide +kernel
theorem test_PhaseStep_unset : State.reset.clk.disc = .unset
    ∧ (acceptedCapture ⟨0, 5⟩ 0 none (withClk (fun c => { c with stepDeferred := true }) State.reset)).clk.stepDeferred = false
    ∧ (acceptedCapture ⟨0, 5⟩ 0 none (withClk (fun c => { c with stepDeferred := true, mismatch := 3 }) State.reset)).clk.stepDeferred
        = true := by decide +kernel

theorem test_TrackIsEntered :
    let s := clockIn .acquire fun c => { c with lock := 8 }
    s.powered = true ∧ s.clk.disc = .acquire ∧ 8 ≤ s.clk.lock ∧ (after .trackEntry s).clk.disc = .track := by decide +kernel
theorem test_TrackIsLeft :
    let s := clockIn .track fun c => { c with unlock := 4 }
    s.clk.disc = .track ∧ 4 ≤ s.clk.unlock ∧ (after .trackUnlock s).clk.disc = .acquire := by decide +kernel

/-- A clock right after a capture that made its seconds correction due. -/
def mismatched : State :=
  { clockIn .track fun c => { c with s := 10, offset := some (-11), mismatch := 3 } with moment := { capture := true } }

theorem test_SecondsCorrection : mismatched.powered = true ∧ mismatched.clk.offset = some (-11) ∧ mismatched.moment.capture = true
    ∧ mismatched.clk.mismatch = 3 ∧ mismatched.clk.disc = .track ∧ mismatched.eventActive = false ∧ mismatched.calRunning = false
    ∧ (after .secondsCorrection mismatched).clk.s = 4294967295 := by decide +kernel
theorem test_SecondsCorrection_waits : (opened mismatched).eventActive = true ∧ (opened mismatched).evt.record = some someRecord
    ∧ (after .secondsCorrection (opened mismatched)).clk.s = 10
    ∧ (after .secondsCorrection (opened mismatched)).clk.stepDeferred = true := by decide +kernel
/-- A correction that its capture deferred is not taken in the same cycle once the ban is lifted: it waits for the next one. -/
theorem test_SecondsCorrection_once :
    let s := ppsCapture ⟨5, 10⟩ 0 (opened (clockIn .track fun c =>
      { c with s := 5, t := 20, mismatch := 2, offset := some 1, label := some ⟨6, 2⟩ }))
    let free := { s with evt := { s.evt with state := .idle, record := none } }
    free.eventActive = false ∧ free.clk.mismatch = 3 ∧ (after .secondsCorrection free).clk.s = 5
    ∧ (ppsCapture ⟨5, 10⟩ 0 (withClk (fun c => { c with label := some ⟨6, 2⟩ }) free)).clk.s = 6 := by decide +kernel

theorem test_Holdover :
    let s := atBoundary (clockIn .track fun c => { c with watch := 3 })
    s.powered = true ∧ s.moment.boundary = true ∧ s.clk.disc = .track ∧ s.clk.supply = .continuous ∧ s.ppsPrescale + 2 ≤ s.clk.watch
      ∧ (after .ppsWatchExpiry s).clk.reason = some .ppsLoss := by decide +kernel
theorem test_Sessions :
    let low (n : Nat) := withBat (fun b => { b with cls := .low }) (clockIn .holdover fun c => { c with supply := .resting, rest := n })
    let s : State := { low 21600 with moment := { restDue := true } }
    let t := atBoundary (clockIn .track fun c => { c with supply := .session, hold := 120 })
    (low 21598).clk.rest + 1 < (low 0).gnssSessionLow * 3600 ∧ (tickSupply (low 21598)).clk.supply = .resting
      ∧ (low 0).gnssSessionLow * 3600 ≤ (low 21599).clk.rest + 1 ∧ (tickSupply (low 21599)).moment.restDue = true
      ∧ s.moment.restDue = true ∧ s.clk.supply = .resting ∧ (after .gnssSessionStart s).clk.supply = .session
      ∧ (after .gnssSessionStart (atBoundary (low 21600))).clk.supply = .resting ∧ t.clk.supply = .session ∧ t.gnssHoldAfterLock ≤ t.clk.hold
      ∧ (after .gnssSessionEnd t).clk.supply = .resting ∧ (after .gnssSessionEnd t).clk.reason = some .gnssOff := by decide +kernel

/-- R22: the watch expires at the boundary that ends the session: PPS_LOST changes twice. -/
theorem test_Sessions_watch :
    let s := clockIn .acquire fun c => { c with supply := .session, watch := 2, session := 1799 }
    s.ppsPrescale + 2 ≤ s.clk.watch + 1 ∧ s.gnssSessionMax * 60 ≤ s.clk.session + 1 ∧ s.mon.conds[(0 : CondId)].status = false
      ∧ (clockBoundary s).clk.reason = some .gnssOff ∧ (clockBoundary s).mon.conds[(0 : CondId)].changes = 2 := by decide +kernel

/-- R16, R17, R18, R24: the watch below and at its end, the growth of u up to its bound, and a session that goes on, ends or
begins. -/
theorem test_ClockBoundary :
    let go (d : Disc) (f : Clock → Clock) := (clockBoundary (clockIn d f)).clk
    let low (n : Nat) := (clockBoundary (withBat (fun b => { b with cls := .low })
      (clockIn .holdover fun c => { c with supply := .resting, rest := n }))).clk
    (go .track fun c => { c with watch := 1 }).disc = .track ∧ (go .track fun c => { c with watch := 1 }).watch = 2
      ∧ (go .track fun c => { c with watch := 2 }).disc = .holdover ∧ (go .track fun c => { c with watch := 2 }).u = 1100
      ∧ (go .track fun c => { c with watch := 2 }).reason = some .ppsLoss
      ∧ (go .holdover id).u = 1120 ∧ (go .holdover fun c => { c with u := 4294967290 }).u = 4294967295
      ∧ (go .track fun c => { c with supply := .session, hold := 118 }).hold = 119
      ∧ (go .acquire fun c => { c with supply := .session, hold := 118, session := 7 }).hold = 0
      ∧ (go .acquire fun c => { c with supply := .session, session := 7 }).session = 8
      ∧ (go .track fun c => { c with supply := .session, hold := 119 }).supply = .resting
      ∧ (go .track fun c => { c with supply := .session, hold := 119 }).reason = some .gnssOff
      ∧ (low 21598).rest = 21599 ∧ (low 21599).supply = .session ∧ (low 21599).session = 0 := by decide +kernel

/-- A whole GNSS label of second 100 with fix status 2, with its check. -/
def someLabel : List Byte := [0x9A, 0x1E, 0, 0, 0, 100, 2, crc8 [0, 0, 0, 100, 2]]

theorem test_Labels : (elapse 5 State.reset).clk.supply.on = true ∧ (elapse 5 State.reset).clk.rx = []
    ∧ (after (.gnssLabel 5 someLabel) State.reset).clk.label = some ⟨100, 2⟩
    ∧ (after (.gnssLabel 5 [0x9A, 0x1E, 0, 0, 0, 100, 3, crc8 [0, 0, 0, 100, 3]]) State.reset).clk.labelErrors = 1
    ∧ (elapse 5 (clockIn .holdover fun c => { c with supply := .resting })).clk.supply.on = false := by decide +kernel
theorem test_Labels_partial :
    let s := after (.gnssLabel 5 [0x9A, 0x1E, 7]) State.reset
    s.clk.rx ≠ [] ∧ (reach s.gnssGap s).isSome = true ∧ (after .gnssLabelTimeout s).clk.labelErrors = 1
      ∧ (after (.gnssFramingError 9) s).clk.labelErrors = 1 := by decide +kernel

/-! ### Marks -/

/-- A part with MARK_A enabled at every fourth edge, and a rising edge seen at cycle 0. -/
def marked : State := after (.inputEdge 0 .markA) { State.reset with params := [(25, 4)] }

theorem test_Edges : ¬ ((elapse 4 State.reset).mrk.input .pps).high = (elapse 4 State.reset).selectedLevel .pps
    ∧ (elapse 4 State.reset).prescale .pps ≠ 0 ∧ (elapse 4 State.reset).minWidth .pps ≠ 0 ∧ (elapse 4 State.reset).prescale .markB = 0
    ∧ (after (.inputEdge 4 .pps) State.reset).mrk.pps.edge = some ⟨⟨⟨0, 4⟩, .U⟩, 4, 4⟩ := by decide +kernel
theorem test_Edges_at_once : (elapse 4 { State.reset with params := [(21, 0)] }).minWidth .pps = 0
    ∧ (after (.inputEdge 4 .pps) { State.reset with params := [(21, 0)] }).mrk.lastPass = some 4 := by decide +kernel
theorem test_Edges_return : (marked.mrk.input .markA).edge = some ⟨⟨⟨0, 0⟩, .U⟩, 0, 0⟩
    ∧ (marked.mrk.input .markA).high = marked.selectedLevel .markA
    ∧ (after (.inputLevelReturn 99 .markA) marked).mrk.markA = {}
    ∧ (after (.inputLevelReturn 100 .markA) marked).mrk.markA.count = 1
    ∧ (after (.inputLevelReturn 100 .markA) (after (.inputLevelReturn 100 .markA) marked)).mrk.markA.count = 1 := by decide +kernel

/-- A part whose PPS input has an edge under test since cycle 0 of a part that has run for an hour. -/
def pulsed (p : Option Nat) (params : List (Nat × Int)) : State := { State.reset with
  osc := 36000000000
  params := params
  mrk := { State.reset.mrk with lastPass := p, pps := { high := true, edge := some ⟨someStamp, 36000000000, 0⟩ } } }

theorem test_Qualified_pps : (pulsed (some 35995000001) []).mrk.pps.edge = some ⟨someStamp, 36000000000, 0⟩
    ∧ (reach 36000000100 (pulsed none [])).isSome = true
    ∧ (after (.edgeQualified .pps) (pulsed (some 35995000001) [])).mrk.holdoffRej = 1
    ∧ (after (.edgeQualified .pps) (pulsed (some 35995000000) [(22, 4)])).mrk.pps.count = 1
    ∧ (after (.edgeQualified .pps) (pulsed none [])).mrk.lastPass = some 36000000000
    ∧ (after (.edgeQualified .pps) (pulsed none [])).moment.capture = false := by decide +kernel
theorem test_Qualified_marks :
    let s (n : Nat) : State := { State.reset with
      params := [(25, 4), (28, 4)]
      mrk := { State.reset.mrk with markA := { high := true, edge := some ⟨someStamp, 0, 0⟩, count := n },
                                    markB := { high := true, edge := some ⟨someStamp, 0, 0⟩, count := n }, seqA := 65535 } }
    (reach 100 (s 2)).isSome = true ∧ (after (.edgeQualified .markA) (s 2)).mrk.markA.count = 3
      ∧ (after (.edgeQualified .markA) (s 3)).mrk.seqA = 0
      ∧ (after (.edgeQualified .markB) (s 2)).mrk.marks = []
      ∧ (after (.edgeQualified .markB) (s 3)).mrk.marks = [⟨.markB, someStamp, 0⟩] := by decide +kernel

theorem test_MarkList : State.reset.mrk.marks.length < 16 ∧ full.mrk.marks.length = 16
    ∧ (handCapture .markB ⟨someStamp, 0, 0⟩ full).mrk.overrun = 1
    ∧ (handCapture .markB ⟨someStamp, 0, 0⟩ full).mrk.marks = List.replicate 15 someMark ++ [⟨.markB, someStamp, 0⟩] := by
  decide +kernel

/-! ### Strobes, calibration and ports -/

/-- A part whose strobes have begun, with both ports in a link state. -/
def strobing (l : Link) : State := { State.reset with
  sch := { State.reset.sch with started := true }
  prt := #v[{ link := l }, { link := l }] }

theorem test_Strobe : (strobing .up).powered = true ∧ (strobing .up).sch.started = true ∧ (strobing .up).prt[(1 : PortId)].link ≠ .off
    ∧ (after .strobe (strobing .up)).prt[(1 : PortId)].window = some 0 ∧ (after .strobe (strobing .up)).sch.point = 100000
    ∧ (after .strobe (after .strobe (strobing .up))).osc = 100000 := by decide +kernel
theorem test_Strobe_last : (strobing .off).sch.started = true
    ∧ (after .strobe { strobing .off with clk := { State.reset.clk with t := 9900000 }, sch := { (strobing .off).sch with point := 9900000, next := 281474976710655, breakDue := true } }).sch.next = 0
    ∧ (after .strobe { strobing .off with clk := { State.reset.clk with t := 9900000 }, sch := { (strobing .off).sch with point := 9900000, breakDue := true } }).sch.breaks = 1 := by decide +kernel

/-- A strobe at a part whose D0 is UP with its window open since strobe 6, whose D1 is OFF, and whose L0 has no source. -/
def mixed : State := { strobing .up with
  sch := { (strobing .up).sch with next := 7 }
  map := { ChanMap.identity with entries := ChanMap.identity.entries.set 0 ⟨none, false, 0, 0⟩ }
  prt := #v[{ link := .up, window := some 6 }, {}] }

/-- R45, R59, R60, R87: the old window closes with a gap for strobe 6 in its channels, the channels that no port decides take the
gap of strobe 7, and the note waits with their four reports. -/
theorem test_Strobe_mixed :
    let v := closeWindows mixed
    let t := after .strobe mixed
    mixed.canonical ∧ mixed.sourcePort 1 = some 0 ∧ mixed.prt[(0 : PortId)].window = some 6 ∧ v.evt.notes = [] ∧ v.evt.reports = []
      ∧ allChans.filter mixed.unsourced = [0, 3, 4, 5] ∧ t.prt[(0 : PortId)].last = some .missing
      ∧ t.prt[(0 : PortId)].window = some 7 ∧ t.prt[(1 : PortId)].window = none
      ∧ allChans.map (fun c => t.rings[c].newest) = [some 7, some 6, some 6, some 7, some 7, some 7]
      ∧ t.evt.notes.map Note.strobe = [7] ∧ t.evt.reports.map Report.chan = [0, 3, 4, 5] := by
  unfold State.canonical
  decide +kernel
/-- A strobe with no channel that a port decides brings its vote at once; with all six decided it writes no slot. -/
theorem test_Strobe_vote : allChans.filter (strobing .off).unsourced = allChans
    ∧ (after .strobe (strobing .off)).evt.notes = [] ∧ (after .strobe (strobing .off)).evt.reports = []
    ∧ (after .strobe (strobing .off)).evt.lastVoted.map Note.strobe = some 0
    ∧ allChans.filter (strobing .up).unsourced = [] ∧ (after .strobe (strobing .up)).evt.reports = []
    ∧ (after .strobe (strobing .up)).evt.notes.map Note.strobe = [0] := by decide +kernel

/-- The identity map with L0 moved to D1.0. -/
def otherMap : ChanMap := { ChanMap.identity with entries := ChanMap.identity.entries.set 0 ⟨some 3, false, 0, 0⟩ }

/-- A part at a second boundary that has let through its pending rate and its pending map, with a window open at D0. -/
def pendingBoth : State := { strobing .up with
  sch := { (strobing .up).sch with pending := some 200, next := 7 }
  pendingMap := some otherMap
  prt := #v[{ link := .up, window := some 6 }, { link := .up }]
  moment := { boundary := true, rate := some 200, map := some otherMap } }

theorem test_PendingSettings : pendingBoth.powered = true ∧ pendingBoth.moment.rate = some 200 ∧ pendingBoth.sch.pending = some 200
    ∧ pendingBoth.moment.map = some otherMap ∧ pendingBoth.pendingMap = some otherMap
    ∧ (closeWindows pendingBoth).eventActive = false ∧ (closeWindows pendingBoth).calRunning = false
    ∧ (after .pendingRateApply pendingBoth).sch.rate = 200 ∧ (after .pendingMapApply pendingBoth).pendingMap = none
    ∧ (after .pendingMapApply pendingBoth).rings[(0 : Chan)].oldest = 7
    ∧ (after .pendingMapApply pendingBoth).rings[(1 : Chan)].oldest = 0 := by decide +kernel
/-- R45, R57, R41: the window of D0 has closed as missing with the gap of strobe 6, none is open, and L0 follows D1's
suppression. -/
theorem test_PendingSettings_closes :
    let s : State := { pendingBoth with sch := { pendingBoth.sch with windows := #v[.closed, .running] } }
    let t := after .pendingMapApply s
    s.canonical ∧ s.sourcePort 1 = some 0 ∧ s.prt[(0 : PortId)].window = some 6 ∧ s.map.changed otherMap 0 = true
      ∧ s.map.changed otherMap 1 = false ∧ t.prt[(0 : PortId)].window = none ∧ t.prt[(1 : PortId)].window = none
      ∧ t.prt[(0 : PortId)].last = some .missing ∧ t.prt[(1 : PortId)].last = none ∧ t.rings[(1 : Chan)].newest = some 6
      ∧ t.rings[(0 : Chan)].newest = none ∧ t.chn[(0 : Chan)].supp = true ∧ t.chn[(1 : Chan)].supp = false
      ∧ (after .pendingRateApply pendingBoth).prt[(0 : PortId)].window = none
      ∧ ∀ q : PortId, (strobing .up).prt[q].window = none := by
  unfold State.canonical
  decide +kernel
theorem test_PendingSettings_wait : (closeWindows (opened pendingBoth)).eventActive = true
    ∧ (after .pendingRateApply (opened pendingBoth)).prt[(0 : PortId)].window = some 6
    ∧ (after .pendingMapApply (opened pendingBoth)).pendingMap.isSome = true
    ∧ (after .pendingRateApply (atBoundary pendingBoth)).sch.pending = some 200
    ∧ (after .pendingMapApply (atBoundary pendingBoth)).pendingMap.isSome = true := by decide +kernel

/-- R36, R57: the tests of a second boundary itself, which need no token: applied, held back by an event, and with nothing
pending. -/
theorem test_PendingSettings_tests :
    let s := atBoundary pendingBoth
    (pendingRate s).sch.rate = 200 ∧ (pendingRate s).moment.rate = some 200 ∧ (pendingRate s).prt[(0 : PortId)].window = none
      ∧ (pendingMapTest s).map = otherMap ∧ (pendingMapTest s).moment.map = some otherMap
      ∧ (pendingMapTest s).rings[(0 : Chan)].oldest = 7 ∧ pendingRate (opened s) = opened s
      ∧ pendingMapTest (opened s) = opened s ∧ (strobing .up).sch.pending = none ∧ pendingRate (strobing .up) = strobing .up
      ∧ (strobing .up).pendingMap = none ∧ pendingMapTest (strobing .up) = strobing .up := by decide +kernel

/-- A running calibration of sensor 1 from second 0 with one pulse of 10 ms on its line. -/
def calibrating : State := { State.reset with sch := { State.reset.sch with
  cals := [{ someCal with sensor := 1, width := 10, count := 1, outcome := .running, runStart := some 0 }]
  windows := #v[.closed, .running]
  lines := #v[none, some ⟨0, 100000⟩] } }

theorem test_Calibration_ends : calibrating.powered = true ∧ calibrating.sch.lines[(1 : PortId)] = some ⟨0, 100000⟩
    ∧ (reachTime ⟨0, 100000⟩ calibrating).isSome = true ∧ calibrating.runningCal.isSome = true
    ∧ (after (.calPulseEnd 1) calibrating).sch.cals.map Cal.issued = [1]
    ∧ (after .calRunEnd calibrating).sch.cals.map Cal.outcome = [.done]
    ∧ (after .calRunEnd calibrating).sch.windows[(1 : PortId)] = .closing 300100000 := by decide +kernel
/-- A part at second 200 with both ports UP, a calibration that is due, and an outcome. -/
def calDue (o : CalOutcome) : State := { strobing .up with
  clk := { State.reset.clk with s := 200 }
  sch := { (strobing .up).sch with cals := [{ someCal with outcome := o }] } }

/-- R39: an entry a second early, at its start, DEFERRED, and barred or made to wait. -/
theorem test_Calibration_examined :
    let o (s : State) := (examineCals s).sch.cals.map Cal.outcome
    o { calDue .waiting with clk := { State.reset.clk with s := 199 } } = [.waiting] ∧ o (calDue .waiting) = [.running]
      ∧ o { calDue .deferred with clk := { State.reset.clk with s := 199 } } = [.running] ∧ o (calDue .done) = [.done]
      ∧ (examineCals (calDue .waiting)).sch.lines = #v[some ⟨201, 0⟩, none]
      ∧ (examineCals (calDue .waiting)).sch.windows = #v[.running, .closed]
      ∧ o (opened (calDue .waiting)) = [.deferred]
      ∧ (examineCals (opened (calDue .waiting))).evt.record = some { someRecord with flags := { calDeferred := true } }
      ∧ o { calDue .waiting with prt := #v[{ link := .starting }, { link := .up }] } = [.skipped]
      ∧ o { calDue .waiting with bat := { State.reset.bat with cls := .critical } } = [.skipped]
      ∧ o { calDue .waiting with sch := { (calDue .waiting).sch with settleEnd := some 1 } } = [.deferred]
      ∧ o { calDue .waiting with sch := { (calDue .waiting).sch with settleEnd := some 0 } } = [.running] := by decide +kernel
/-- R40: the pulses of a run of three from second 4294967290, 10 s apart: begun, withheld, and none between or after. -/
theorem test_Calibration_pulses :
    let s (n : Nat) : State := { calDue .waiting with
      clk := { State.reset.clk with s := n }
      sch := { (calDue .waiting).sch with cals := [{ someCal with outcome := .running, runStart := some 4294967290 }] } }
    (pulsesDue (s 4)).sch.lines = #v[some ⟨5, 0⟩, none] ∧ (pulsesDue (s 14)).sch.lines = #v[some ⟨15, 0⟩, none]
      ∧ pulsesDue (s 5) = s 5 ∧ pulsesDue (s 24) = s 24 ∧ pulsesDue (s 4294967290) = s 4294967290
      ∧ (pulsesDue (opened (s 4))).sch.cals.map Cal.withheld = [1]
      ∧ (pulsesDue (opened (s 4))).sch.lines = #v[none, none] := by decide +kernel
theorem test_Calibration_other :
    let s : State := { calibrating with sch := { calibrating.sch with
      lines := #v[some ⟨0, 5⟩, none], windows := #v[.closing 9, .running] } }
    (reachTime ⟨0, 5⟩ s).isSome = true ∧ (∀ c, s.runningCal = some c → c.sensor ≠ 0) ∧ (reach 9 s).isSome = true
      ∧ (after (.calPulseEnd 0) s).sch.cals = s.sch.cals
      ∧ (after (.suppressionWindowClose 0) s).sch.windows[(0 : PortId)] = .closed := by
  refine ⟨by decide +kernel, ?_, by decide +kernel, by decide +kernel, by decide +kernel⟩
  intro c h
  have e : c = { someCal with sensor := 1, width := 10, count := 1, outcome := .running, runStart := some 0 } := by
    injection h with h; exact h.symm
  rw [e]; decide

/-- A digitizer frame with a sequence, a status and three samples of three bytes. -/
def frame (seq status : Byte) (samples : List Byte) : List Byte :=
  [0xB3, 0x4C] ++ (seq :: status :: samples) ++ [crc8 (seq :: status :: samples)]

/-- A frame of the tests: alarm and the middle clip flag set; 1, −2 and the most negative sample. -/
def someFrame : List Byte := frame 9 0x82 [0, 0, 1, 0xFF, 0xFF, 0xFE, 0x80, 0, 0]

/-- A part with the window of strobe 5 open at D0 and its transfer begun at cycle 0. -/
def taking : State := { strobing .up with prt := #v[{ link := .up, window := some 5, transfer := some 0 }, {}] }

theorem test_Frames_drdy :
    let s : State := { taking with prt := #v[{ link := .up, window := some 5 }, {}] }
    (elapse 8 s).prt[(0 : PortId)].window = some 5 ∧ (elapse 8 s).prt[(0 : PortId)].transfer = none
      ∧ (after (.drdyEdge 8 0) s).prt[(0 : PortId)].transfer = some 8 := by decide +kernel
theorem test_Frames_good : someFrame.length = 14 ∧ 0 + 448 ≤ (elapse (max 1 (0 + 448 - taking.osc)) taking).osc
    ∧ (after (.digitizerFrame 1 0 someFrame) taking).prt[(0 : PortId)].last = some (.good 9)
    ∧ (after (.digitizerFrame 1 0 someFrame) taking).rings[(1 : Chan)].slot 5 = ⟨-2, false, true⟩
    ∧ (after (.digitizerFrame 1 0 someFrame) taking).rings[(2 : Chan)].slot 5 = ⟨-8388608, false, false⟩ := by decide +kernel
theorem test_Frames_canonical : taking.canonical := by unfold State.canonical; decide +kernel
theorem test_Frames_bad :
    (after (.digitizerFrame 1 0 (0xB2 :: someFrame.drop 1)) taking).prt[(0 : PortId)].last = some .syncError
    ∧ (after (.digitizerFrame 1 0 (someFrame.take 13 ++ [someFrame.getD 13 0 ^^^ 1])) taking).prt[(0 : PortId)].last = some .crcError
    ∧ (after (.digitizerFrame 1 0 (0xB2 :: someFrame.drop 1)) taking).rings[(0 : Chan)].slot 5 = ⟨0, true, false⟩ := by
  decide +kernel

/-- R62: the write of strobe 4,096 takes the place of strobe 0 and moves the oldest valid number, and no other slot. -/
theorem test_Frames_ring :
    let s := writeSlot 1 1 ⟨7, false, false⟩ (writeSlot 1 0 ⟨6, false, false⟩ taking)
    let t := writeSlot 1 4095 ⟨8, false, false⟩ s
    let u := writeSlot 1 4096 ⟨9, false, false⟩ t
    t.rings[(1 : Chan)].oldest = 0 ∧ t.rings[(1 : Chan)].slot 0 = ⟨6, false, false⟩ ∧ u.rings[(1 : Chan)].oldest = 1
      ∧ u.rings[(1 : Chan)].slot 4096 = ⟨9, false, false⟩ ∧ u.rings[(1 : Chan)].slot 1 = ⟨7, false, false⟩
      ∧ u.rings[(1 : Chan)].slot 4095 = ⟨8, false, false⟩ := by decide +kernel

/-- A window that closes without a frame, and one slot: the channel takes it, and a channel of the other port does not. -/
theorem test_Frames_slots :
    let s : State := { taking with chn := taking.chn.set 1 { state := .quiet } }
    let t := closeWindow 0 s
    let u := writeSlot 1 5 ⟨320, false, true⟩ s
    s.prt[(0 : PortId)].window = some 5 ∧ s.sourcePort 1 = some 0 ∧ s.sourcePort 3 = some 1
      ∧ t.prt[(0 : PortId)].last = some .missing ∧ t.rings[(1 : Chan)].newest = some 5 ∧ t.chn[(1 : Chan)].last = some 5
      ∧ t.chn[(3 : Chan)].last = none ∧ u.rings[(1 : Chan)].slot 5 = ⟨320, false, true⟩ ∧ u.chn[(1 : Chan)].state = .triggered
      ∧ u.chn[(1 : Chan)].last = some 5 ∧ u.chn[(2 : Chan)] = s.chn[(2 : Chan)] := by decide +kernel

theorem test_MappedValue :
    let f : Frame := ⟨0, false, #v[true, false, false], #v[-8388608, 5, 7]⟩
    (filledSlot ⟨some 0, true, 0, 0⟩ 0 false f).value = 8388607 ∧ (filledSlot ⟨some 5, true, 0, 0⟩ 5 true f).value = 8388607
      ∧ (filledSlot ⟨some 1, true, 0, 0⟩ 1 true f).value = -5 ∧ ChanMap.identity.entries[(4 : Chan)].source = some 4
      ∧ ChanMap.identity.effective 4 = some (1, 1) := by decide +kernel

/-- A port with a link, a bad run and a good run. -/
def linked (l : Link) (bad good : Nat) : State := { State.reset with prt := #v[{ link := l, badRun := bad, goodRun := good }, {}] }

/-- What a frame of the tests carries. -/
def carriedFrame : Frame := ⟨9, true, #v[false, false, false], #v[0, 0, 0]⟩

theorem test_Link_bad : (decideOutcome 0 3 .missing none (linked .starting 0 0)).prt[(0 : PortId)].link = .starting
    ∧ (decideOutcome 0 3 .missing none (linked .up 6 0)).prt[(0 : PortId)].link = .up
    ∧ (decideOutcome 0 3 .missing none (linked .up 7 0)).prt[(0 : PortId)].link = .down
    ∧ (decideOutcome 0 3 .missing none (linked .down 0 9)).prt[(0 : PortId)].goodRun = 0 := by decide +kernel
theorem test_Link_good :
    (decideOutcome 0 3 (.good 9) (some carriedFrame) (linked .starting 0 0)).prt[(0 : PortId)].link = .up
    ∧ (decideOutcome 0 3 (.good 9) (some carriedFrame) (linked .up 7 0)).prt[(0 : PortId)].badRun = 0
    ∧ (decideOutcome 0 3 (.good 9) (some carriedFrame) (linked .down 0 14)).prt[(0 : PortId)].link = .down
    ∧ (decideOutcome 0 3 (.good 9) (some carriedFrame) (linked .down 0 15)).prt[(0 : PortId)].link = .up := by decide +kernel

theorem test_LinkCommands :
    let s : State := { linked .starting 0 0 with osc := 49999999 }
    (reach 50000000 s).isSome = true ∧ (after (.startingTimeout 0) s).prt[(0 : PortId)].link = .down
      ∧ (linked .down 0 16).prt[(0 : PortId)].goodRun = 16 ∧ (linked .down 0 16).sourcePort 2 = some 0
      ∧ (linked .down 0 16).chn[(2 : Chan)].det.enable = true ∧ (after (.linkUp 0 true) (linked .down 0 16)).chn[(2 : Chan)].state = .warmup
      ∧ (after (.linkDown 0) (linked .up 8 0)).prt[(0 : PortId)].downs = 1 := by decide +kernel
theorem test_LinkCommands_starting :
    let s : State := { State.reset with prt := #v[{ link := .starting, last := some (.good 3) }, {}] }
    s.prt[(0 : PortId)].link = .starting ∧ s.prt[(0 : PortId)].last = some (.good 3)
      ∧ (after (.linkUp 0 false) s).prt[(0 : PortId)].link = .up := by decide +kernel

/-! ### Trigger and events -/

/-- A part with channel 3 in a state, in the moment of that channel's own update. -/
def channel (f : Channel → Channel) : State := { State.reset with
  chn := State.reset.chn.set 3 (f {})
  moment := { updated := #v[false, false, false, true, false, false] } }

theorem test_Warmup :
    let s := channel fun c => { c with state := .warmup, warmup := 256 }
    s.powered = true ∧ s.moment.updated[(3 : Chan)] = true ∧ s.chn[(3 : Chan)].state = .warmup
      ∧ 2 ^ s.chn[(3 : Chan)].det.ltaShift ≤ s.chn[(3 : Chan)].warmup
      ∧ (after (.warmupComplete 3) s).chn[(3 : Chan)].state = .quiet
      ∧ (after (.warmupComplete 3) (atStrobe s)).chn[(3 : Chan)].state = .warmup := by decide +kernel
theorem test_LtaRelease :
    let s := channel fun c => { c with state := .triggered, age := 6000 }
    s.moment.updated[(3 : Chan)] = true ∧ s.chn[(3 : Chan)].state = .triggered
      ∧ s.chn[(3 : Chan)].det.trigMax * s.sch.rate ≤ s.chn[(3 : Chan)].age
      ∧ s.chn[(3 : Chan)].released = false ∧ (after (.ltaRelease 3) s).chn[(3 : Chan)].released = true
      ∧ (after (.ltaRelease 3) (atStrobe s)).chn[(3 : Chan)].released = false := by decide +kernel

/-- A channel with its averages at 0, so that the effective LTA is the floor of 10 counts; at a slot of 320 counts STA is
ten times 1,024 and the ON test meets 64 exactly. -/
def quiet : Channel := { state := .quiet }

theorem test_TriggerTests_on : (quiet.strobe 100 320).chan.sta = 10240 ∧ (quiet.strobe 100 320).on = true
    ∧ (quiet.strobe 100 319).on = false := by decide +kernel
theorem test_TriggerTests_off : ({ quiet with state := .triggered, sta := 4400 }.strobe 100 0).off = false
    ∧ ({ quiet with state := .triggered, sta := 4388 }.strobe 100 0).off = true
    ∧ quiet.det.offRatio ≤ quiet.det.onRatio ∧ quiet.sta ≤ 2147483392 ∧ quiet.det.floor ≤ 65535 ∧ quiet.det.onRatio ≤ 640
    ∧ quiet.det.onRatio * max quiet.lta (quiet.det.floor * 256) ≤ 10240 * 16 := by decide +kernel
/-- R68 to R70, R75: the first strobe of WARMUP, a later one, its last, and the other states. -/
theorem test_Strobe_states :
    let w (n : Nat) : Channel := { state := .warmup, warmup := n, prev := 10, warmed := false }
    ((w 0).strobe 100 50).chan.sta = 0 ∧ ((w 0).strobe 100 50).chan.prev = 50 ∧ ((w 1).strobe 100 50).chan.sta = 1280
      ∧ ((w 1).strobe 100 50).chan.lta = 40 ∧ ((w 254).strobe 100 50).chan.state = .warmup
      ∧ ((w 255).strobe 100 50).chan.state = .quiet ∧ ((w 255).strobe 100 50).chan.warmed = true
      ∧ (({ state := .suppressed } : Channel).strobe 100 50).chan = { state := .suppressed, prev := 50 }
      ∧ (({} : Channel).strobe 100 50).chan = {} := by decide +kernel
/-- R70, R76, R77: a falling average, the ON of a QUIET channel, and the release of LTA at the age of `trig_max`. -/
theorem test_Strobe_updates :
    let g (n : Nat) : Channel := { state := .triggered, frozen := true, age := n, sta := 25600, lta := 2560, prev := 0 }
    ({ quiet with sta := 9, lta := 1 }.strobe 100 0).chan.sta = 7 ∧ ({ quiet with sta := 9, lta := 1 }.strobe 100 0).chan.lta = 0
      ∧ (quiet.strobe 100 320).chan.state = .triggered ∧ (quiet.strobe 100 320).chan.ratio = 64
      ∧ ((g 5998).strobe 100 0).chan.released = false ∧ ((g 5998).strobe 100 0).chan.lta = 2560
      ∧ ((g 5999).strobe 100 0).chan.released = true ∧ ((g 5999).strobe 100 0).chan.lta = 2550
      ∧ ((g 5999).strobe 100 0).chan.age = 6000 ∧ ({ g 5 with sta := 0 }.strobe 100 0).chan.age = 0 := by decide +kernel

/-- An event in a state, its last vote at strobe n. -/
def eventAt (x : EvState) (n : Nat) (l : List EvRecord) : State := atStrobe { State.reset with
  evt := { State.reset.evt with state := x, record := some someRecord, lastVoted := some ⟨n, someStamp⟩, list := l } }

theorem test_EventsClose_timer :
    let s := eventAt .closing 4000 (List.replicate 32 someRecord)
    s.powered = true ∧ s.evt.lastVoted = some ⟨4000, someStamp⟩ ∧ s.evt.record = some someRecord ∧ s.evt.state = .closing
      ∧ s.evt.post = 0 ∧ (after .postTimerExpiry s).evt.list.length = 32
      ∧ ((after .postTimerExpiry s).evt.list.getLast?.bind EvRecord.close) = some ⟨someStamp, 4000, 30⟩ := by decide +kernel
theorem test_EventsClose_limit :
    let s := eventAt .opened 31000 []
    s.moment.strobe = true ∧ s.evt.state = .opened ∧ s.eventMax * s.sch.rate ≤ Machine.dist someRecord.openStrobe 31000
      ∧ (after .eventTruncate s).evt.state = .rearm ∧ (after .eventTruncate (eventAt .opened 30999 [])).evt.state = .opened := by
  decide +kernel
/-- R109, R111: the two closes between votes, and an engine with no event. -/
theorem test_EventsClose_between :
    let s := eventAt .opened 4000 (List.replicate 32 someRecord)
    ((shedEvents s).evt.list.getLast?.map EvRecord.flags) = some { shed := true }
      ∧ ((restartEvents s).evt.list.getLast?.map EvRecord.flags) = some { aborted := true } ∧ (shedEvents s).evt.list.length = 32
      ∧ ((shedEvents s).evt.list.getLast?.bind EvRecord.close) = some ⟨⟨⟨0, 0⟩, .U⟩, 4000, 30⟩
      ∧ (shedEvents (eventAt .rearm 4000 [someRecord])).evt.list = [someRecord]
      ∧ (restartEvents (eventAt .idle 4000 [])).evt.state = .idle := by decide +kernel

theorem test_VoteOpens : State.reset.evt.state = .idle ∧ State.reset.evt.number = some 1 ∧ State.reset.voteThreshold ≤ 2
    ∧ (moveEvent ⟨600, someStamp⟩ [] 2 State.reset).evt.number = some 2
    ∧ (moveEvent ⟨600, someStamp⟩ [] 1 State.reset).evt.state = .idle
    ∧ (moveEvent ⟨600, someStamp⟩ [] 2 { State.reset with
        evt := { State.reset.evt with number := some 4294967295 } }).evt.number = none := by decide +kernel
/-- The trigger list of an open: two channels count from strobe 590, one from 550. -/
theorem test_VoteOpens_list :
    let s : State := { State.reset with
      evt := { State.reset.evt with counting := #v[some ⟨590, 300⟩, none, some ⟨550, 300⟩, none, some ⟨590, 300⟩, none] } }
    let t := moveEvent ⟨600, someStamp⟩ [] 3 s
    (t.evt.record.map fun r => r.list.map fun e => (e.chan, e.firstOn, e.offset)) = some [(2, 550, -50), (0, 590, -10), (4, 590, -10)]
      ∧ (t.evt.record.map EvRecord.preStart) = some 100 ∧ t.box.entries.map Alert.kind = [.eventOpen]
      ∧ t.bat.hold = some 0 ∧ t.htr.hold = some 0 := by decide +kernel
/-- R92, R93: OPEN to CLOSING and back, the post timer down to its end, `event_max`, and REARM. -/
theorem test_VoteMoves :
    let e (x : EvState) (post : Nat) : State := { eventAt x 1500 [] with evt := { (eventAt x 1500 []).evt with post := post } }
    let m (sum k : Nat) (s : State) := (moveEvent ⟨k, someStamp⟩ [] sum s).evt
    (m 1 1501 (e .opened 0)).state = .closing ∧ (m 1 1501 (e .opened 0)).post = 1000
      ∧ (m 2 1501 (e .opened 0)).state = .opened ∧ (m 2 1501 (e .closing 5)).state = .opened ∧ (m 2 1501 (e .closing 5)).post = 0
      ∧ (m 1 1501 (e .closing 2)).post = 1 ∧ (m 1 1501 (e .closing 1)).state = .idle ∧ (m 1 1501 (e .closing 1)).list.length = 1
      ∧ (m 1 1501 (e .closing 0)).state = .idle ∧ (m 5 30999 (e .opened 0)).state = .opened
      ∧ (m 5 31000 (e .opened 0)).state = .rearm ∧ ((m 5 31000 (e .opened 0)).list.map EvRecord.peakS) = [5]
      ∧ (m 2 1501 (e .rearm 0)).state = .rearm ∧ (m 1 1501 (e .rearm 0)).state = .idle := by decide +kernel

/-- A report for strobe 7 of a channel in a state. -/
def report (c : Chan) (x : TrigState) (on : Bool) (value : Int) : Report := ⟨c, 7, x, on, false, 30, value, false, true, false⟩

/-- The six reports of strobe 7: ON at channel 0, TRIGGERED, two QUIET, a gap, OFF. -/
def sixReports : List Report := [report 0 .triggered true (-9), report 1 .triggered false 1, report 2 .quiet false 2,
  report 3 .quiet false 3, { report 4 .quiet false 4 with gap := true }, report 5 .off false 5]

/-- Strobe 7 noted, with the first five of its reports. -/
def gathered : State := { State.reset with evt := { State.reset.evt with
  notes := [⟨7, someStamp⟩, ⟨8, someStamp⟩], reports := sixReports.take 5
  counting := #v[some ⟨1, 3⟩, some ⟨1, 3⟩, some ⟨5, 3⟩, some ⟨4, 3⟩, none, some ⟨6, 3⟩] } }

/-- R87 to R90: the sixth report brings the vote of strobe 7; a window that ends at it, and one that goes on. -/
theorem test_VoteGathers :
    let t := gatherReport (report 5 .off false 5) gathered
    (gathered.evt.reports.filter fun x => x.strobe == 7).length = 5 ∧ (∃ x ∈ gathered.evt.notes, x.strobe = 7)
      ∧ t.evt.lastVoted = some ⟨7, someStamp⟩ ∧ t.evt.notes = [⟨8, someStamp⟩] ∧ t.evt.reports = []
      ∧ t.evt.counting = #v[some ⟨7, 300⟩, some ⟨1, 3⟩, some ⟨5, 3⟩, none, none, none]
      ∧ (t.evt.record.map EvRecord.peakS) = some 3
      ∧ gatherReport { report 5 .off false 5 with strobe := 9 } gathered = gathered
      ∧ (gatherReport (report 4 .quiet false 5) { gathered with
          evt := { gathered.evt with reports := sixReports.take 4 } }).evt.lastVoted = none := by decide +kernel
/-- R87: the report that completes two strobes brings both votes, in order. -/
theorem test_VoteGathers_two :
    let s : State := { gathered with evt := { gathered.evt with
      reports := gathered.evt.reports ++ sixReports.map fun r => { r with strobe := 8 } } }
    (gatherReport (report 5 .off false 5) s).evt.lastVoted = some ⟨8, someStamp⟩
      ∧ (gatherReport (report 5 .off false 5) s).evt.notes = [] := by decide +kernel
/-- R89: a channel that is suppressed between strobes stops counting and its report is overridden. -/
theorem test_VoteOverrides :
    let s : State := { gathered with chn := gathered.chn.set 0 { state := .suppressed } }
    let u : State := { gathered with chn := gathered.chn.set 0 { state := .quiet } }
    (signalState 0 s).evt.counting[(0 : Chan)] = none ∧ (signalState 0 s).evt.counting[(1 : Chan)] = some ⟨1, 3⟩
      ∧ ((signalState 0 s).evt.reports.map Report.overridden) = [true, false, false, false, false]
      ∧ (gatherReport (report 5 .off false 5) (signalState 0 s)).evt.counting[(0 : Chan)] = none
      ∧ signalState 0 u = u := by decide +kernel
/-- R95, R96: one entry counts one more ON up to 255, one is appended, and the entries show the running peaks. -/
theorem test_VoteMoves_list :
    let r : EvRecord := { someRecord with list := [⟨0, 990, -10, 255, {}⟩, ⟨2, 995, -5, 1, {}⟩] }
    let l := [report 0 .triggered true (-9), report 1 .triggered true 5, report 2 .triggered false 1].map fun a => { a with strobe := 1501 }
    let s : State := { eventAt .opened 1500 [] with evt := { (eventAt .opened 1500 []).evt with
      record := some r, peaks := #v[⟨40, 3, false⟩, {}, {}, {}, {}, ⟨9, 9, true⟩] } }
    let t := moveEvent ⟨1501, someStamp⟩ l 2 s
    (∀ x ∈ l, x.strobe = 1501) ∧ l.Pairwise (fun a b => a.chan ≠ b.chan)
      ∧ (t.evt.record.map EvRecord.list) = some [⟨0, 990, -10, 255, ⟨40, 9, true⟩⟩, ⟨2, 995, -5, 1, ⟨30, 1, true⟩⟩,
          ⟨1, 1501, 501, 1, ⟨30, 5, true⟩⟩] ∧ t.evt.peaks[(5 : Chan)] = ⟨9, 9, true⟩ := by decide +kernel

/-! ### Alerts, the modem line and the conditions -/

/-- R113, R114: the alerts of an open and a close, off by their parameters, and a close that supersedes a waiting open. -/
theorem test_Alerts_events :
    let o := openAlert someRecord State.reset
    (o.box.entries.map fun a => (a.kind, a.rank, a.origin)) = [(.eventOpen, 0, 1)]
      ∧ openAlert someRecord { State.reset with params := [(60, 0)] } = { State.reset with params := [(60, 0)] }
      ∧ closeAlert someRecord { State.reset with params := [(61, 0)] } = { State.reset with params := [(61, 0)] }
      ∧ ((closeAlert someRecord o).box.entries.map fun a => (a.kind, a.rank)) = [(.eventClose, 0)]
      ∧ ((closeAlert someRecord State.reset).box.entries.map fun a => (a.kind, a.rank)) = [(.eventClose, 1)]
      ∧ ((closeAlert someRecord { o with box := { o.box with
          entries := o.box.entries.map fun a => { a with inFlight := true } } }).box.entries.map Alert.kind)
          = [.eventOpen, .eventClose] := by decide +kernel
/-- R115: a second change of a condition coalesces, up to 255, and one of another condition makes its own entry. -/
theorem test_Alerts_conditions :
    let s := conditionAlert 3 true someStamp State.reset
    let full255 : State := { s with box := { s.box with
      entries := s.box.entries.map fun a => { a with content := .condition 3 true 255 someStamp } } }
    ((conditionAlert 3 false someStamp s).box.entries.map Alert.content) = [.condition 3 false 2 someStamp]
      ∧ ((conditionAlert 3 false someStamp full255).box.entries.map Alert.content) = [.condition 3 false 255 someStamp]
      ∧ (conditionAlert 4 true someStamp s).box.entries.length = 2 := by decide +kernel
/-- R112, R116: the eleventh and twelfth place, a full outbox that gives up its last waiting entry or refuses, and one whose
entries are all in flight. -/
theorem test_Alerts_placed :
    let box (n : Nat) (a : Alert) : State := { State.reset with box := { State.reset.box with
      creation := 4294967295, entries := List.replicate n a } }
    let urgent : Alert := { someAlert with kind := .eventOpen, rank := 0 }
    (place urgent (box 11 someAlert)).box.entries.length = 12 ∧ ((place urgent (box 11 someAlert)).box.entries.head?.map Alert.rank) = some 0
      ∧ (place urgent (box 11 someAlert)).box.creation = 0 ∧ (place urgent (box 11 someAlert)).box.drops = 0
      ∧ (place urgent (box 12 someAlert)).box.entries.length = 12 ∧ (place urgent (box 12 someAlert)).box.drops = 1
      ∧ (place urgent (box 12 someAlert)).box.creation = 0
      ∧ (place someAlert (box 12 someAlert)).box.creation = 4294967295 ∧ (place someAlert (box 12 someAlert)).box.drops = 1
      ∧ (place urgent (box 12 { someAlert with inFlight := true })).box.drops = 1
      ∧ (place urgent (box 12 someAlert)).mon.conds[(16 : CondId)].pending = true := by decide +kernel

/-- A part at a second boundary with an alert held back until a time. -/
def heldBack (x : Time) : State := { atBoundary State.reset with
  clk := { State.reset.clk with s := 600 }
  box := { State.reset.box with entries := [{ someAlert with notBefore := some x }] } }

theorem test_NotBefores : (heldBack ⟨600, 0⟩).powered = true ∧ (heldBack ⟨600, 0⟩).moment.boundary = true
    ∧ ((after .notBeforePassed (heldBack ⟨600, 0⟩)).box.entries.map Alert.notBefore) = [none]
    ∧ ((after .notBeforePassed (heldBack ⟨600, 1⟩)).box.entries.map Alert.notBefore) = [some ⟨600, 1⟩] := by decide +kernel
theorem test_Intervals : (heldBack ⟨600, 0⟩).clk.s / (heldBack ⟨600, 0⟩).intervalLen ≠ (heldBack ⟨600, 0⟩).mon.number
    ∧ (after .intervalBoundary (heldBack ⟨600, 0⟩)).mon.number = 1
    ∧ (after .intervalBoundary { heldBack ⟨600, 0⟩ with clk := { State.reset.clk with s := 599 } }).mon.number = 0 := by decide +kernel

/-- R123, R191: the two as a second boundary runs them, at equal and at other interval numbers. -/
theorem test_Intervals_tests :
    let s := heldBack ⟨600, 0⟩
    let early : State := { s with clk := { State.reset.clk with s := 599 } }
    ((passNotBefores s).box.entries.map Alert.notBefore) = [none] ∧ passNotBefores early = early
      ∧ early.clk.s / early.intervalLen = early.mon.number ∧ intervalTest early = early ∧ (intervalTest s).mon.number = 1 := by
  decide +kernel

/-- R192: the figures start afresh and the four conditions clear; with a full outbox the clearing of EVENT_LOST loses an alert. -/
theorem test_Intervals_fresh :
    let marks (l : List CondId) (s : State) : State := { s with mon := { s.mon with
      figs := { s.mon.figs with minVb := some 3, readings := 9, dropped := 4 }
      conds := Vector.ofFn fun c => { s.mon.conds[c] with status := s.mon.conds[c].status || l.contains c } } }
    let s := marks [7, 8, 16, 17] (heldBack ⟨600, 0⟩)
    let t := after .intervalBoundary s
    let u := after .intervalBoundary { s with params := [(111, 131072)], box := { s.box with entries := List.replicate 12 someAlert } }
    s.box.entries.length ≤ 8 ∧ t.mon.figs = {} ∧ (t.mon.report.map IntervalReport.figures) = some s.mon.figs
      ∧ ([7, 8, 16, 17].map fun c : CondId => (t.mon.conds[c].status, t.mon.conds[c].pending, t.mon.conds[c].changes))
          = [(false, true, 1), (false, true, 1), (false, false, 1), (false, false, 1)]
      ∧ u.mon.figs = { dropped := 1 } ∧ u.mon.conds[(16 : CondId)].status = true ∧ u.mon.conds[(17 : CondId)].status = false := by
  decide +kernel

theorem test_StatusChanges : State.reset.mon.conds[(3 : CondId)].status = false ∧ (3 : CondId).val ≠ 16
    ∧ (statusChange 3 true State.reset).mon.conds[(3 : CondId)].pending = true
    ∧ (statusChange 7 true (statusChange 3 true State.reset)).mon.conds[(7 : CondId)].pending = false
    ∧ (statusChange 7 true (statusChange 3 true State.reset)).mon.conds[(7 : CondId)].changes = 1 := by decide +kernel
/-- The other rows of R181's table, a change handed to the outbox, and a change of OUTBOX_DROP. -/
theorem test_StatusChanges_rows :
    let p (b c : CondId) := (statusChange c true (statusChange b true State.reset)).mon.conds[c].pending
    let s : State := { State.reset with params := [(111, 8)] }
    p 4 8 = false ∧ p 3 8 = true ∧ p 14 11 = false ∧ p 4 11 = true ∧ statusChange 3 false State.reset = State.reset
      ∧ (statusChange 16 true State.reset).mon.conds[(16 : CondId)].pending = false ∧ inSet State.reset.alertSet 16 = false
      ∧ (statusChange 3 true s).box.entries.map Alert.kind = [.condition] ∧ (statusChange 4 true s).box.entries = [] := by
  decide +kernel
theorem test_Occurrences :
    (dropOccurrence State.reset).mon.conds[(16 : CondId)].changes = 1
    ∧ (dropOccurrence (dropOccurrence State.reset)).mon.conds[(16 : CondId)].changes = 1
    ∧ (lostOccurrence State.reset).mon.conds[(17 : CondId)].changes = 1
    ∧ (lostOccurrence (lostOccurrence State.reset)).mon.conds[(17 : CondId)].changes = 1
    ∧ (lostOccurrence State.reset).mon.conds[(17 : CondId)].pending = true := by decide +kernel
/-- R183: an error sum at the threshold of 100 and above it, and an outcome counted. -/
theorem test_ErrorSums :
    let s (n : Nat) : State := { linked .up 0 0 with
      mon := { State.reset.mon with figs := { State.reset.mon.figs with ports := #v[{ sync := n, crc := 1, gaps := 1 }, {}] } } }
    (s 98).prt[(0 : PortId)].link = .up ∧ (judgeErrors 0 (s 98)).mon.conds[(7 : CondId)].status = false
      ∧ (judgeErrors 0 (s 99)).mon.conds[(7 : CondId)].status = true
      ∧ (reportOutcome 0 .crcError (s 98)).mon.conds[(7 : CondId)].status = true
      ∧ (reportOutcome 0 (.good 3) (s 98)).mon.conds[(7 : CondId)].status = false
      ∧ (reportOutcome 0 .crcError (s 98)).mon.figs.ports[(0 : PortId)].crc = 2 := by decide +kernel

/-- A modem in a link state since cycle 0, with a limit, the tag 4 and an alert that is in flight or waits. -/
def modem (l : ModemLink) (limit : Nat) (flight : Bool) (f : Alert → Alert) : State := { State.reset with
  mdm := { State.reset.mdm with link := l, limit := limit, tag := 4 }
  box := { State.reset.box with entries := [f { someAlert with inFlight := flight }] } }

theorem test_Modem_starts : (modem .off 0 false id).mdm.link = .off ∧ (modem .off 0 false id).firstEligible.isSome = true
    ∧ (after .modemStart (modem .off 0 false id)).mdm.link = .starting
    ∧ (reach (0 + 9999999) (modem .starting 9999999 false id)).isSome = true
    ∧ (after .modemStartTimeout (modem .starting 9999999 false id)).mdm.link = .backoff
    ∧ (elapse 5 (modem .starting 9999999 false id)).mdm.link = .starting
    ∧ (after (.modemReady 5) (modem .starting 9999999 false id)).mdm.link = .ready
    ∧ (elapse 5 (modem .off 0 false id)).mdm.link = .off
    ∧ (after (.modemReady 5) (modem .off 0 false id)).mdm.unexpected = 1 := by decide +kernel
theorem test_Modem_again : (modemSilence (elapse 5 (modem .ready 7 false id))).mdm.link = .ready
    ∧ (after (.modemReady 5) (modem .ready 7 false id)).mdm.limit = 7 ∧ (after (.modemReady 5) (modem .ready 7 false id)).mdm.since = 5
    ∧ (after (.modemReady 5) (modem .starting 7 false id)).mdm.limit = State.reset.modemHold * 10000000 := by decide +kernel
theorem test_Modem_offers : (modem .ready 5 false id).firstEligible = some someAlert
    ∧ (after .offer (modem .ready 5 false id)).mdm.tag = 5 ∧ (after .offer (modem .ready 5 false id)).inFlight.isSome = true
    ∧ (reach (0 + 5) { modem .ready 5 false id with box := State.reset.box }).isSome = true
    ∧ ({ modem .ready 5 false id with box := State.reset.box } : State).firstEligible = none
    ∧ (after .modemHoldExpiry { modem .ready 5 false id with box := State.reset.box }).mdm.link = .off
    ∧ (after .backoffExpiry (modem .backoff 5 false id)).mdm.link = .off := by decide +kernel
/-- R130: READY while an offer or a sending is open is a failure, the third in a row one that leads to BACKOFF. -/
theorem test_Modem_ready_fails :
    let s (l : ModemLink) (n : Nat) : State := { modem l 9 true id with mdm := { (modem l 9 true id).mdm with fails := n } }
    (modemSilence (elapse 5 (s .offered 1))).mdm.link = .offered ∧ (after (.modemReady 5) (s .offered 1)).mdm.link = .ready
      ∧ (after (.modemReady 5) (s .offered 1)).mdm.fails = 2 ∧ (after (.modemReady 5) (s .sending 2)).mdm.link = .backoff
      ∧ (after (.modemReady 5) (s .sending 2)).mdm.fails = 0 ∧ (after (.modemReady 5) (s .sending 2)).flights = 0
      ∧ (after (.modemReady 5) (s .offered 1)).box.entries.map Alert.attempts = [1] := by decide +kernel
/-- R133: a divisor written while a frame comes in is taken at that frame's end, and while one goes out at the next one. -/
theorem test_Modem_divisors :
    let w (s : State) : State := { s with params := [(123, 9)] }
    let s := w (after (.modemBadFrame 3 [0xC5, 1]) (modem .ready 5 false id))
    let o := w (after .offer (modem .ready 5 false id))
    s.mdm.div = 33 ∧ (after (.modemBadFrame 3 [0x81]) s).mdm.div = 33
      ∧ (after (.modemBadFrame 3 [0x81, 7, 0, 0]) s).mdm.div = 9 ∧ (after .offer s).mdm.txDiv = 9 ∧ (after .offer s).mdm.div = 33
      ∧ (after .offer (w (modem .ready 5 false id))).mdm.div = 9 ∧ o.mdm.txDiv = 33
      ∧ (after (.take 3 5) o).mdm.div = 9 ∧ (after (.take 3 5) o).mdm.txDiv = 33 := by decide +kernel

theorem test_ModemReplies : (elapse 3 (modem .offered 20000000 true id)).mdm.link = .offered
    ∧ (elapse 3 (modem .offered 20000000 true id)).mdm.tag = 4
    ∧ (elapse 3 (modem .offered 20000000 true id)).inFlight.map Alert.kind = some .note
    ∧ (after (.take 3 4) (modem .offered 20000000 true id)).box.credits = 9
    ∧ (after (.modemBusy 3 4) (modem .offered 20000000 true id)).box.entries.map Alert.notBefore = [some ⟨10, 3⟩]
    ∧ (after (.take 3 5) (modem .offered 20000000 true id)).mdm.unexpected = 1 := by decide +kernel
theorem test_ModemReplies_sent : (elapse 3 (modem .sending 9 true id)).mdm.link = .sending
    ∧ (elapse 3 (modem .sending 9 true id)).mon.conds[(15 : CondId)].status = false
    ∧ (after (.sent 3 4) (modem .sending 9 true id)).box.entries = []
    ∧ (after (.sent 3 4) (modem .offered 9 true id)).mdm.unexpected = 1
    ∧ (after (.failed 3 4) (modem .offered 9 true id)).mdm.unexpected = 1 := by decide +kernel
/-- SENT with MODEM_FAULT asserted: it clears the condition and, in the alert set, reports it. -/
theorem test_ModemReplies_sent_fault :
    let f (p : List (Nat × Int)) : State := statusChange 15 true { modem .sending 9 true id with params := p }
    inSet (f [(111, 8)]).alertSet 15 = false ∧ (f [(111, 8)]).mon.conds[(15 : CondId)].status = true
      ∧ (after (.sent 3 4) (f [(111, 8)])).mon.conds[(15 : CondId)].status = false
      ∧ (after (.sent 3 4) (f [(111, 8)])).box.entries = [] ∧ (after (.sent 3 4) (f [(111, 32768)])).mdm.fault = false
      ∧ (after (.sent 3 4) (f [(111, 32768)])).box.entries.map Alert.kind = [.condition] := by decide +kernel
/-- An alert in flight of a kind and origin beside others. -/
def flying (k : AlertKind) (others : List Alert) : State := { modem .sending 9 true id with
  box := { State.reset.box with entries := { someAlert with kind := k, rank := 0, inFlight := true } :: others } }

/-- R117, R118: a return and a drop, with a close of the same event or a later change of the same condition held. -/
theorem test_Returns :
    let close (n : Nat) (nb : Option Time) : Alert := { someAlert with kind := .eventClose, rank := 1, origin := n, notBefore := nb }
    let ret (s : State) := (returnInFlight 2 (some ⟨9, 9⟩) s).box.entries.map fun a => (a.kind, a.rank, a.notBefore)
    ret (flying .eventOpen [close 1 none]) = [(.eventClose, 0, some ⟨9, 9⟩)]
      ∧ ret (flying .eventOpen [close 1 (some ⟨9, 10⟩)]) = [(.eventClose, 0, some ⟨9, 10⟩)]
      ∧ ret (flying .eventOpen [close 2 none]) = [(.eventOpen, 0, some ⟨9, 9⟩), (.eventClose, 1, none)]
      ∧ ret (flying .condition [{ someAlert with kind := .condition }]) = [(.condition, 3, none)]
      ∧ ret (flying .condition [someAlert]) = [(.condition, 0, some ⟨9, 9⟩), (.note, 3, none)]
      ∧ (alertDropped (flying .eventOpen [close 1 none])).box.entries.map Alert.rank = [0]
      ∧ (alertDropped (flying .eventOpen [close 2 none])).box.entries.map Alert.rank = [1]
      ∧ (alertDropped (flying .note [])).box.drops = 1 := by decide +kernel

/-- A part whose alert in flight is about to fail, with a run of failures and a number of attempts. -/
def failing (l : ModemLink) (fails attempts : Nat) : State :=
  let s := modem l 5 true fun a => { a with attempts := attempts }
  { s with mdm := { s.mdm with fails := fails } }

theorem test_ModemFailures : (reach (0 + 5) (failing .offered 1 1)).isSome = true ∧ (failing .sending 1 1).inFlight.isSome = true
    ∧ (after .offerTimeout (failing .offered 1 1)).box.entries.map Alert.attempts = [2]
    ∧ (after .sendTimeout (failing .sending 1 2)).box.drops = 1
    ∧ (after (.failed 3 4) (failing .sending 1 1)).mdm.link = .ready
    ∧ (after (.failed 3 4) (failing .sending 2 1)).mdm.link = .backoff
    ∧ (after (.failed 3 4) (failing .sending 2 1)).mdm.fault = true := by decide +kernel
/-- The third failure in a row, of an alert at its second and at its third attempt. -/
theorem test_ModemFailures_third : inSet State.reset.alertSet 15 = false ∧ (failing .sending 2 1).mon.conds[(15 : CondId)].status = false
    ∧ (statusChange 15 true (failing .sending 2 1)).mon.conds[(15 : CondId)].status = true
    ∧ (after (.failed 3 4) (failing .sending 2 1)).box.entries.map Alert.attempts = [2]
    ∧ (after (.failed 3 4) (failing .sending 2 2)).box.entries = []
    ∧ (after (.failed 3 4) (failing .sending 2 1)).mon.conds[(15 : CondId)].status = true := by decide +kernel

/-- A good READY frame: type 0x81 and a body of no bytes, with its check. -/
def readyFrame : List Byte := [0xC5, 0, 0x81] ++ crcBytes [0, 0x81]

theorem test_BadModem : (elapse 3 State.reset).mdm.rx = [] ∧ crcBytes [1, 0x81, 7] ≠ [0, 0]
    ∧ (after (.modemBadFrame 3 [0xC5, 1, 0x81, 7, 0, 0]) State.reset).mdm.bad = 1
    ∧ (after (.modemBadFrame 3 [0xC5, 241]) State.reset).mdm.bad = 1
    ∧ (after (.modemBadFrame 3 readyFrame) (modem .starting 9 false id)).mdm.link = .ready := by decide +kernel
theorem test_BadModem_partial :
    let s := after (.modemBadFrame 3 [0xC5, 240]) State.reset
    s.mdm.rx ≠ [] ∧ (reach s.modemGap s).isSome = true ∧ (elapse 3 s).mdm.rx ≠ []
      ∧ s.mdm.lastByte + 5120 * s.mdm.div ≤ (elapse 200000 s).osc ∧ (elapse 3 s).osc < s.mdm.lastByte + 5120 * s.mdm.div
      ∧ (after (.modemReady 200000) s).mdm.bad = 1 ∧ (after (.modemReady 3) s).mdm.bad = 0
      ∧ (after .modemFrameTimeout s).mdm.bad = 1 ∧ (after (.modemFramingError 3) s).mdm.bad = 1
      ∧ (after (.modemFramingError 3) State.reset).mdm.bad = 0 := by decide +kernel

/-! ### The station bus -/

/-- Data characters, one after another. -/
def send (l : List Byte) (s : State) : State := l.foldl (fun s b => after (.busDataCharacter 5808 b .clean) s) s

/-- A part that has been sent an address and data characters. -/
def sent (a : Byte) (l : List Byte) : State := send l (after (.busAddressCharacter 5808 a .clean) State.reset)

/-- TIME_GET to station 254: length 0, type 0x02 and the check. -/
def timeGetFrame : List Byte := [0, 2] ++ crcBytes [0, 2]

theorem test_Bus_address : (elapse 5 State.reset).bus.recv = .ignoring ∧ (elapse 5 State.reset).bus.frame = none
    ∧ (after (.busAddressCharacter 5807 254 .clean) State.reset).bus.frame = none
    ∧ (after (.busAddressCharacter 5808 254 .clean) State.reset).bus.recv = .receiving
    ∧ (after (.busAddressCharacter 5808 255 .clean) State.reset).bus.frame = some { bcast := true }
    ∧ (after (.busAddressCharacter 5808 253 .clean) State.reset).bus.recv = .ignoring := by decide +kernel
theorem test_Bus_characters : (elapse 5 (sent 254 [])).bus.frame = some { bcast := false }
    ∧ (elapse 5 (sent 254 [])).osc < (elapse 5 (sent 254 [])).bus.lastChar + 32 * (176 * (elapse 5 (sent 254 [])).bus.div)
    ∧ (after (.busDataCharacter 5 240 .clean) (sent 254 [])).bus.frame = some { bcast := false, len := some 240 }
    ∧ (after (.busDataCharacter 5 241 .clean) (sent 254 [])).bus.counts.oversize = 1
    ∧ (after (.busDataCharacter 5 2 .framing) (sent 254 [])).bus.counts.framing = 1
    ∧ (sent 254 [1, 0x10]).bus.frame = some { bcast := false, len := some 1, kind := some 0x10 }
    ∧ (sent 254 [1, 0x10, 9]).bus.frame = some { bcast := false, len := some 1, kind := some 0x10, body := [9] }
    ∧ (sent 254 [0, 2, 3]).bus.frame = some { bcast := false, len := some 0, kind := some 2, crc := [3] } := by decide +kernel
theorem test_Bus_complete : (sent 254 timeGetFrame).bus.recv = .handling
    ∧ (sent 254 timeGetFrame).bus.req.bind Request.snapshot = some (0x00 :: (sent 254 timeGetFrame).timeBody)
    ∧ (sent 254 (timeGetFrame.take 3 ++ [timeGetFrame.getD 3 0 ^^^ 1])).bus.counts.crc = 1
    ∧ (sent 255 timeGetFrame).bus.counts.goodBcast = 1
    ∧ (send timeGetFrame (after (.busAddressCharacter 5808 254 .clean) (sent 254 timeGetFrame))).bus.counts.busyOverrun = 1 := by
  decide +kernel
theorem test_Bus_busy :
    let s := sent 254 timeGetFrame
    let t := send (timeGetFrame.take 3) (after (.busAddressCharacter 5808 254 .clean) s)
    s.bus.recv = .handling ∧ s.bus.frame = none ∧ (t.bus.frame.map BusFrame.busy) = some true
      ∧ (send (timeGetFrame.drop 3) { t with bus := { t.bus with req := none, recv := .receiving } }).bus.counts.busyOverrun = 1 := by
  decide +kernel
theorem test_Bus_overrun :
    let s : State := { sent 254 [1] with bus := { (sent 254 [1]).bus with div := 3 } }
    (elapse 5 s).bus.div < 4 ∧ (after (.busDataCharacter 5 9 .overrun) s).bus.counts.overruns = 1
      ∧ (after (.busDataCharacter 5 9 .overrun) s).bus.frame = none ∧ 4 ≤ (elapse 5 (sent 254 [1])).bus.div
      ∧ ((after (.busDataCharacter 5 9 .overrun) (sent 254 [1])).bus.frame.bind BusFrame.kind) = some 9
      ∧ (after (.busAddressCharacter 5 254 .clean) s).bus.counts.broken = 1
      ∧ (after (.busAddressCharacter 5 253 .clean) s).bus.frame = none := by decide +kernel
/-- A broadcast PARAM_SET of parameter n with a value. -/
def setAll (n : Nat) (x : Int) : List Byte := [5, 0x11, byte n] ++ beInt 4 x ++ crcBytes ([5, 0x11, byte n] ++ beInt 4 x)
theorem test_Bus_line : (sent 255 (setAll 120 9)).bus.addr = 9 ∧ (sent 255 (setAll 121 300)).bus.div = 255
    ∧ (sent 254 (setAll 120 9)).bus.addr = 254 ∧ (sent 255 (setAll 1 9)).bus.addr = 254 := by decide +kernel
theorem test_Bus_gap : (sent 254 [0]).bus.frame.isSome = true
    ∧ (reach ((sent 254 [0]).bus.lastChar + 32 * (176 * (sent 254 [0]).bus.div)) (sent 254 [0])).isSome = true
    ∧ (after .busGapTimeout (sent 254 [0])).bus.counts.broken = 1 := by decide +kernel
/-- A character after the gap deadline finds the frame broken; an address character begins a new one. -/
theorem test_Bus_late :
    let s := sent 254 [0]
    s.bus.lastChar + 32 * (176 * s.bus.div) ≤ (elapse 190000 s).osc
      ∧ (after (.busDataCharacter 190000 2 .clean) s).bus.counts.broken = 1
      ∧ (after (.busDataCharacter 190000 2 .framing) s).bus.counts.framing = 0
      ∧ (after (.busDataCharacter 190000 2 .clean) s).bus.frame = none
      ∧ (after (.busAddressCharacter 190000 254 .clean) s).bus.frame = some { bcast := false }
      ∧ (after (.busAddressCharacter 190000 253 .clean) s).bus.recv = .ignoring := by decide +kernel
/-- A frame taken while a request is handled: its characters, its damage and its end leave the part HANDLING. -/
theorem test_Bus_handling :
    let s := after (.busAddressCharacter 5808 254 .clean) (sent 254 timeGetFrame)
    s.bus.recv = .handling ∧ (s.bus.frame.map BusFrame.busy) = some true ∧ ((send [1] s).bus.frame.bind BusFrame.len) = some 1
      ∧ (send [241] s).bus.recv = .handling ∧ (send [241] s).bus.counts.oversize = 1
      ∧ (after (.busDataCharacter 5 1 .framing) s).bus.recv = .handling
      ∧ (send [0, 2, 0, 0] s).bus.counts.crc = 1 ∧ (send timeGetFrame s).bus.recv = .handling
      ∧ (after (.busAddressCharacter 5 255 .clean) s).bus.frame = some { bcast := true, busy := true } := by decide +kernel

/-- Whether a part serves a request of a type. -/
theorem test_serving (kind : Byte) (body : List Byte) (h : lengthFits kind body = true) :
    (handling (request kind body) State.reset).serving kind (request kind body) := ⟨rfl, rfl, rfl, rfl, rfl, h⟩

theorem test_misfit (kind : Byte) (body : List Byte) (h : lengthFits kind body = false) :
    (handling (request kind body) State.reset).misfit kind (request kind body) := ⟨rfl, rfl, rfl, rfl, rfl, h⟩

theorem test_Requests_lengths : lengthFits 0x01 [1] = false ∧ lengthFits 0x03 [] = false ∧ lengthFits 0x33 [] = false
    ∧ lengthFits 0x20 [1] = false ∧ lengthFits 0x51 [1] = false ∧ lengthFits 0x71 [] = false ∧ lengthFits 0x7F [0] = false
    ∧ (0x05 : Byte) ∉ catalogue
    ∧ (after .unknownType (handling (request 0x05 []) State.reset)).bus.reply = some [0x02] := by decide +kernel
theorem test_Requests_reply :
    let s := after .timeGet (sent 254 timeGetFrame)
    let t := after (.replyStart 1) s
    s.bus.reply.isSome = true ∧ s.bus.frame = none ∧ 29040 + 2 * (176 * s.bus.div) ≤ t.osc ∧ t.bus.recv = .replying
      ∧ t.bus.tx.take 3 = [0x00, 15, 0x82] ∧ (reach (t.bus.txAt + t.bus.tx.length * (176 * t.bus.div)) t).isSome = true
      ∧ (after .replyEnd t).bus.counts.replies = 1
      ∧ (after (.busAddressCharacter 5807 254 .clean) (after .replyEnd t)).bus.frame = none
      ∧ (after (.busAddressCharacter 5808 254 .clean) (after .replyEnd t)).bus.frame.isSome = true
      ∧ (after (.replyStart 5808) (after (.busAddressCharacter 5808 254 .clean) s)).bus.counts.broken = 1 := by decide +kernel

theorem test_Reads : (sent 254 timeGetFrame).serving 0x02 ((sent 254 timeGetFrame).bus.req.getD (request 0 [])) := by
  unfold State.serving
  decide +kernel
theorem test_Reads_params : paramRow 1 = some ⟨1, .range 10 1000000, 1000⟩ ∧ paramRow 13 = none
    ∧ lengthFits 0x10 [1] = true ∧ lengthFits 0x23 [] = true ∧ lengthFits 0x31 [0, 0, 0, 1] = true
    ∧ (awake.evt.list ++ awake.evt.record.toList).find? (fun r => r.number == field [0, 0, 0, 1] 0 4) = some someRecord
    ∧ (∀ r ∈ State.reset.evt.list ++ State.reset.evt.record.toList, r.number ≠ field [0, 0, 0, 1] 0 4) := by decide +kernel
/-- R199: framing errors and overruns on an address character, with no frame in progress (log 17) and with one. -/
theorem test_Bus_address_faults :
    let s : State := { sent 254 [1] with bus := { (sent 254 [1]).bus with div := 3 } }
    (after (.busAddressCharacter 5808 254 .framing) State.reset).bus.frame = none
      ∧ (after (.busAddressCharacter 5808 254 .framing) State.reset).bus.counts = {}
      ∧ (after (.busDataCharacter 5808 254 .overrun) State.reset).bus.counts = {}
      ∧ (after (.busAddressCharacter 5 254 .framing) s).bus.counts.framing = 1
      ∧ (after (.busAddressCharacter 5 254 .framing) s).bus.frame = none
      ∧ (after (.busAddressCharacter 5 254 .overrun) s).bus.counts.overruns = 1 := by decide +kernel
/-- R106: a channel beyond L5 and a count of 0 at receipt. -/
theorem test_Bus_samples :
    let of (body : List Byte) := (8 :: 0x33 :: body) ++ crcBytes (8 :: 0x33 :: body)
    let got (body : List Byte) := (sent 254 (of body)).bus.req.bind Request.snapshot
    got [6, 0, 0, 0, 0, 0, 0, 1] = some [0x04] ∧ got [5, 0, 0, 0, 0, 0, 0, 0] = some [0x04]
      ∧ got [5, 0, 0, 0, 0, 0, 0, 61] = some (0x01 :: [5, 0, 0, 0, 0, 0, 0, 0] ++ List.replicate 13 0) := by decide +kernel
/-- R106: a ring that holds strobes 5 to 9: GONE, the slots returned with their bits, and none beyond the newest. -/
theorem test_Reads_samples :
    let r : Ring := { slots := [(5, ⟨1, false, true⟩), (6, ⟨-1, false, false⟩)], oldest := 5, newest := some 9 }
    let s : State := { State.reset with rings := State.reset.rings.set 0 r }
    let ends : List Byte := [0, 0, 0, 0, 0, 5, 1, 0, 0, 0, 0, 0, 9]
    s.samplesReply 0 4 1 = 0x07 :: ends
      ∧ s.samplesReply 0 5 3 = [0x00, 0, 0, 0, 0, 0, 0, 5, 3] ++ ends ++ [0, 0, 1, 0xFF, 0xFF, 0xFF, 0, 0, 0, 0x20, 0x80]
      ∧ s.samplesReply 0 9 61 = [0x01, 0, 0, 0, 0, 0, 0, 9, 1] ++ ends ++ [0, 0, 0, 0x80, 0]
      ∧ s.samplesReply 0 10 1 = [0x00, 0, 0, 0, 0, 0, 0, 10, 0] ++ ends := by decide +kernel
/-- R106 on the 48-bit wrap (log 38): a ring that holds the last two numbers and strobes 0 and 1. -/
theorem test_Reads_samples_wrap :
    let r : Ring := { slots := [(0, ⟨1, false, true⟩)], oldest := 281474976710654, newest := some 1 }
    let s : State := { State.reset with rings := State.reset.rings.set 0 r }
    let ends : List Byte := [0xFF, 0xFF, 0xFF, 0xFF, 0xFF, 0xFE, 1, 0, 0, 0, 0, 0, 1]
    s.samplesReply 0 2 1 = 0x07 :: ends
      ∧ s.samplesReply 0 0 9 = [0x00, 0, 0, 0, 0, 0, 0, 0, 2] ++ ends ++ [0, 0, 1, 0, 0, 0, 0x40, 0x80]
      ∧ (s.samplesReply 0 281474976710654 9).getD 8 0 = 4 := by decide +kernel
/-- R102, R120: the walks of nine records and of the twelve entries of a full outbox: eight at a time, then the rest. -/
theorem test_Reads_walks :
    let rs := (List.range 9).map fun n => { someRecord with number := n + 1 }
    let s : State := { State.reset with evt := { State.reset.evt with list := rs } }
    (s.indexBody 1).drop 13 = [8, 1] ++ (rs.take 8).flatMap EvRecord.header
      ∧ (s.indexBody 2).drop 13 = [8, 0] ++ (rs.drop 1).flatMap EvRecord.header ∧ (s.indexBody 10).drop 13 = [0, 0]
      ∧ ((full.outboxBody 3).drop 16).take 3 = [12, 8, 1] ∧ ((full.outboxBody 4).drop 16).take 3 = [12, 8, 0]
      ∧ (full.outboxBody 12).drop 16 = [12, 0, 0] ∧ (full.outboxBody 0).length = 19 + 8 * 28 := by decide +kernel

/-- A part that handles a PARAM_SET of a parameter with a value. -/
def writing (n : Nat) (x : Int) : State := handling (request 0x11 (byte n :: beInt 4 x)) State.reset

theorem test_Parameters : lengthFits 0x11 (byte 1 :: beInt 4 9) = true ∧ Sparse.wf paramDefault (writing 1 9).params = true
    ∧ (after .paramSet (writing 1 9)).param 1 = 10 ∧ (after .paramSet (writing 22 10)).param 22 = 16
    ∧ (after .paramSet (writing 30 45)).sch.pending = some 50 ∧ (after .paramSet (writing 13 0)).bus.reply = some [0x09]
    ∧ (after .paramSet (writing 93 (-401))).param 93 = -400 := by decide +kernel
theorem test_Parameters_sets : (after .paramSet (writing 111 (-1))).param 111 = 163839
    ∧ (after .paramSet (handling { request 0x11 (byte 30 :: beInt 4 50) with eventActive := true } State.reset)).bus.reply
        = some [0x06] := by decide +kernel
/-- R206 step 4: the owner's work at once, for inputs, conditions, supplies and intervals. -/
theorem test_Parameters_owners :
    let put (n : Nat) (x : Int) (s : State) : State := after .paramSet (handling (request 0x11 (byte n :: beInt 4 x)) s)
    let edge : State := { State.reset with mrk := { State.reset.mrk with markA := { State.reset.mrk.markA with count := 3 } } }
    let errors : State := { State.reset with mon := { State.reset.mon with figs := { State.reset.mon.figs with
      ports := #v[{ sync := 4, crc := 1, gaps := 1 }, {}] } } }
    let later := withClk (fun c => { c with s := 3600 }) State.reset
    (put 24 7 edge).mrk.markA.count = 0 ∧ (put 21 7 edge).mrk.markA.count = 3
      ∧ (put 8 1 (clockIn .holdover id)).mon.conds[(1 : CondId)].status = true
      ∧ (put 8 2 (clockIn .holdover id)).mon.conds[(1 : CondId)].status = false
      ∧ (put 43 5 errors).mon.conds[(7 : CondId)].status = true ∧ (put 43 6 errors).mon.conds[(7 : CondId)].status = false
      ∧ (put 40 0 mixed).prt[(0 : PortId)].link = .off ∧ (put 40 0 mixed).prt[(0 : PortId)].window = none
      ∧ (put 40 0 mixed).chn[(1 : Chan)].state = .off ∧ (put 40 0 mixed).rings[(1 : Chan)].newest = some 6
      ∧ (put 40 0 mixed).rings[(0 : Chan)].newest = none ∧ (put 41 1 mixed).prt[(1 : PortId)].link = .starting
      ∧ (put 42 1 (withBat (fun b => { b with cls := .critical }) (strobing .up))).prt[(1 : PortId)].link = .off
      ∧ (put 113 60 later).mon.number = 60 ∧ (put 113 later.intervalLen later).mon.number = later.mon.number
      ∧ (put 2 20 later).moment = {} ∧ (put 2 20 later).mon = later.mon := by decide +kernel
/-- The same for the outbox, the monitor, the charger and the heater. -/
theorem test_Parameters_owners_power :
    let put (n : Nat) (x : Int) (s : State) : State := after .paramSet (handling (request 0x11 (byte n :: beInt 4 x)) s)
    let hot (f : Heater → Heater) : State := heating fun h => f { h with latched := 500, heat := true, periodLen := 10 }
    let lit (i : CondId) : State := { State.reset with
      mon := { State.reset.mon with conds := State.reset.mon.conds.set i { State.reset.mon.conds[i] with status := true, pending := true } } }
    (put 62 2 { State.reset with box := { State.reset.box with credits := 5 } }).box.credits = 2
      ∧ (put 70 10000 State.reset).bat.q = 36000000 ∧ (put 55 0 awake).mon.wake = false
      ∧ (put 110 8 (lit 3)).mon.wake = true ∧ (put 110 16 (lit 3)).mon.wake = false ∧ (put 112 8 (lit 3)).mon.degraded = true
      ∧ (put 83 (-400) (reading 13000 0 .absorb id)).bat.charge = .absorb
      ∧ (put 84 199 (reading 13000 0 .absorb id)).bat.charge = .absorb
      ∧ (put 84 300 { reading 13000 0 .absorb id with pwr := { (reading 13000 0 .bulk id).pwr with tp := 301 } }).bat.charge = .hotHold
      ∧ (put 90 0 (hot id)).htr.state = .off ∧ (put 90 0 (hot id)).htr.heat = false
      ∧ (put 90 1 (heating fun h => { h with state := .off, hold := some 3 })).htr.state = .held
      ∧ (put 95 300 (hot id)).htr.latched = 300 ∧ (put 95 300 (hot id)).htr.heatEnd = some 30000000
      ∧ (put 95 600 (hot id)).htr.latched = 500
      ∧ (put 98 1 (withBat (fun b => { b with cls := .low }) (hot fun h => { h with today := 3600000 }))).htr.latched = 0 := by
  decide +kernel

/-- The body of a TIME_SET. -/
def timeBody (s t u : Nat) : List Byte := beBytes 4 s ++ beBytes 4 t ++ beBytes 4 u

theorem test_TimeSet : lengthFits 0x03 (timeBody 7 10000000 3) = true
    ∧ (after .timeSet (handling (request 0x03 (timeBody 7 10000000 3)) State.reset)).bus.reply = some [0x04]
    ∧ (after .timeSet (handling (request 0x03 (timeBody 7 9999999 3)) (clockIn .track id))).bus.reply = some [0x05]
    ∧ (after .timeSet (handling { request 0x03 (timeBody 7 9999999 3) with forbidden := true } State.reset)).bus.reply = some [0x06]
    ∧ (after .timeSet (handling (request 0x03 (timeBody 7 9999999 4294968)) State.reset)).bus.reply = some [0x01]
    ∧ (after .timeSet (handling (request 0x03 (timeBody 7 9999999 4294967)) State.reset)).clk.u = 4294967000 := by decide +kernel
/-- The ticks since receipt, and the carry into the next second. -/
theorem test_TimeSet_elapsed :
    let s := withClk (fun c => { c with ticks := 6 }) State.reset
    (after .timeSet (handling { request 0x03 (timeBody 7 9999995 3) with ticks := 2 } s)).clk.t = 9999999
    ∧ (after .timeSet (handling { request 0x03 (timeBody 4294967295 9999995 3) with ticks := 1 } s)).clk.t = 0
    ∧ (after .timeSet (handling { request 0x03 (timeBody 4294967295 9999995 3) with ticks := 1 } s)).clk.s = 0 := by
  decide +kernel
theorem test_MapSet : lengthFits 0x22 ChanMap.identity.bytes = true ∧ parseMap ChanMap.identity.bytes = some ChanMap.identity
    ∧ parseMap (6 :: ChanMap.identity.bytes.drop 1) = none ∧ parseMap (ChanMap.identity.bytes.take 24 ++ [4]) = none
    ∧ ((after .mapSet (handling (request 0x22 (ChanMap.identity.bytes.take 24 ++ [3])) State.reset)).pendingMap.map ChanMap.reversed)
        = some #v[true, true] := by decide +kernel

theorem test_DetectorSet : lengthFits 0x20 [0x3F, 0x03, 0, 9, 0, 9] = true
    ∧ (after .detectorSet (handling (request 0x20 [0x3F, 0x03, 0, 9, 0, 9]) State.reset)).chn[(5 : Chan)].det.ltaShift = 10
    ∧ (after .detectorSet (handling (request 0x20 [0, 0]) State.reset)).bus.reply = some [0x04]
    ∧ (after .detectorSet (handling (request 0x20 [64, 0]) State.reset)).bus.reply = some [0x04]
    ∧ (after .detectorSet (handling (request 0x20 [1, 0x80, 0, 2]) State.reset)).bus.reply = some [0x04]
    ∧ (carried [1, 0x80, 0, 1] 7).getD 0 ≤ 1 := by decide +kernel
theorem test_DetectorSet_named :
    (after .detectorSet (handling (request 0x20 [0x02, 0x08, 0, 70]) State.reset)).chn[(1 : Chan)].det.offRatio = 64
    ∧ (after .detectorSet (handling (request 0x20 [0x02, 0x08, 0, 70]) State.reset)).chn[(0 : Chan)].det.offRatio = 24 := by
  decide +kernel
/-- R82, R84: OK, CLAMPED and an empty mask, with the settings as stored; a channel enabled and one disabled. -/
theorem test_DetectorSet_replies :
    let set (body : List Byte) (s : State) : State := after .detectorSet (handling (request 0x20 body) s)
    let off : State := { strobing .up with chn := (strobing .up).chn.set 1 { quiet with state := .off, det := { enable := false } } }
    let on : State := { strobing .up with chn := (strobing .up).chn.set 1 { quiet with age := 4 }, evt := { State.reset.evt with
      counting := State.reset.evt.counting.set 1 (some ⟨9, 30⟩), reports := [report 1 .quiet false 2, report 2 .quiet false 2] } }
    (set [2, 0x01, 0, 4] State.reset).bus.reply = some [0, 1, 4, 8, 0, 64, 0, 24, 0, 10, 0, 60, 1, 1]
      ∧ (set [2, 0x01, 0, 9] State.reset).bus.reply = some [1, 1, 8, 10, 0, 64, 0, 24, 0, 10, 0, 60, 1, 1]
      ∧ ((set [3, 0] State.reset).bus.reply.map List.length) = some 26
      ∧ (set [2, 0x80, 0, 1] off).chn[(1 : Chan)].state = .warmup ∧ (set [2, 0x80, 0, 0] on).chn[(1 : Chan)].state = .off
      ∧ (set [2, 0x80, 0, 0] on).chn[(1 : Chan)].age = 0 ∧ (set [2, 0x80, 0, 0] on).evt.counting[(1 : Chan)] = none
      ∧ (set [2, 0x80, 0, 0] on).evt.reports.map Report.overridden = [true, false]
      ∧ (set [2, 0x80, 0, 1] on).chn[(1 : Chan)].age = 4 := by decide +kernel

theorem test_Lists_release : lengthFits 0x32 [0, 0, 0, 1] = true ∧ (∃ r ∈ awake.evt.list, r.number = field [0, 0, 0, 1] 0 4)
    ∧ (after .eventRelease (handling (request 0x32 [0, 0, 0, 1]) awake)).evt.wakeTerm = false
    ∧ (after .eventRelease (handling (request 0x32 [0, 0, 0, 1]) (opened State.reset))).bus.reply = some [0x05]
    ∧ (after .eventRelease (handling (request 0x32 [0, 0, 0, 2]) (opened State.reset))).bus.reply = some [0x09] := by decide +kernel
theorem test_Lists_take : lengthFits 0x40 [9] = true
    ∧ (after .marksTake (handling (request 0x40 [9]) full)).mrk.marks.length = 8
    ∧ ((after .marksTake (handling (request 0x40 [9]) full)).bus.reply.getD []).take 3 = [0x01, 8, 8]
    ∧ ((after .marksTake (handling (request 0x40 [8]) full)).bus.reply.getD []).take 3 = [0x00, 8, 8] := by decide +kernel
theorem test_Lists_note : lengthFits 0x71 [0x41] = true ∧ 12 ≤ full.box.entries.length ∧ State.reset.box.entries.length < 12
    ∧ (after .noteSend (handling (request 0x71 [0x41]) full)).bus.reply = some [0x08]
    ∧ (after .noteSend (handling (request 0x71 [0x41]) State.reset)).bus.reply = some [0x00, 1] := by decide +kernel
theorem test_Lists_pending :
    let s := statusChange 4 true (statusChange 3 true State.reset)
    lengthFits 0x51 [1, 17] = true ∧ lengthFits 0x51 [1, 18] = true
      ∧ (after .pendingClear (handling (request 0x51 [1, 18]) s)).bus.reply = some [0x04]
      ∧ (after .pendingClear (handling (request 0x51 [1, 3]) s)).mon.conds[(3 : CondId)].pending = false
      ∧ (after .pendingClear (handling (request 0x51 [1, 3]) s)).mon.conds[(4 : CondId)].pending = true := by decide +kernel

/-- The body of a CAL_ADD. -/
def calBody (sensor start width count spacing : Nat) : List Byte :=
  [byte sensor] ++ beBytes 4 start ++ beBytes 2 width ++ [byte count] ++ beBytes 2 spacing

theorem test_Calibration_add : lengthFits 0x41 (calBody 1 200 1000 3 1) = true
    ∧ (after .calAdd (handling (request 0x41 (calBody 2 200 1000 3 1)) State.reset)).bus.reply = some [0x04]
    ∧ (after .calAdd (handling (request 0x41 (calBody 1 200 1000 3 1)) full)).bus.reply = some [0x08]
    ∧ (after .calAdd (handling (request 0x41 (calBody 1 200 1000 3 1)) State.reset)).sch.cals.map Cal.spacing = [2]
    ∧ (after .calAdd (handling (request 0x41 (calBody 1 101 1000 3 2)) State.reset)).sch.cals.map Cal.start = [102] := by
  decide +kernel
/-- The earliest start where now + 2 passes 2^32 (log 31). -/
theorem test_Calibration_add_wrap :
    let start := fun now asked => (after .calAdd (handling
      { request 0x41 (calBody 1 asked 1000 3 2) with stamp := ⟨⟨now, 5⟩, .A⟩ } State.reset)).sch.cals.map Cal.start
    start 4294967293 4294967294 = [4294967295] ∧ start 4294967294 0 = [0] ∧ start 4294967294 4294967295 = [4294967295]
    ∧ start 4294967295 0 = [1] ∧ start 4294967295 1 = [1] := by decide +kernel
theorem test_Calibration_cancel : lengthFits 0x42 [1] = true ∧ lengthFits 0x43 [] = true
    ∧ calibrating.sch.cals.find? (fun c => c.id == field [1] 0 1) = calibrating.runningCal
    ∧ (after .calCancel (handling (request 0x42 [1]) calibrating)).sch.cals.map Cal.outcome = [.cancelled]
    ∧ (after .calCancel (handling (request 0x42 [1]) (after .calRunEnd calibrating))).bus.reply = some [0x05]
    ∧ (after .calCancel (handling (request 0x42 [2]) calibrating)).bus.reply = some [0x09]
    ∧ ((after .calList (handling (request 0x43 []) (after .calRunEnd calibrating))).bus.req.map Request.reported) = some [1] := by
  decide +kernel

/-- A part that saves its settings. -/
def saving : State := after .settingsSave (handling (request 0x12 []) { State.reset with params := [(1, 50)] })

theorem test_Settings_save : lengthFits 0x12 [] = true ∧ State.reset.store.saving = none ∧ saving.store.saving.isSome = true
    ∧ (after (.settingsSaveDone 9 true) saving).store.generation = 1
    ∧ (after (.settingsSaveDone 9 true) saving).bus.reply = some [0, 0, 0, 0, 1]
    ∧ (after (.settingsSaveDone 9 false) saving).store.saveFails = 1 := by decide +kernel
theorem test_Settings_restart :
    let s := after (.settingsSaveDone 9 true) saving
    let b : Request := { request 0x7F [] with bcast := true }
    let u : State := { s with bus := { s.bus with restartDue := true }, params := [(1, 60)] }
    lengthFits 0x7F [] = true ∧ (after .restart (handling (request 0x7F []) State.reset)).bus.reply = some [0x00]
      ∧ (after .restart (handling b State.reset)).bus.restarts = 1
      ∧ u.bus.restartDue = true ∧ (after (.restartExecute 3) u).param 1 = 50 := by decide +kernel
/-- R135, R196: what a RESTART makes of a full outbox, of credits above the reloaded cap and of marks and figures, where
DIG0_ERRORS stood and is in the reloaded alert set, and where it did not stand. -/
theorem test_Settings_restart_outbox :
    let busy (v : Bool) : State := { full with
      box := { full.box with credits := 500 }
      mon := { full.mon with
        conds := (full.mon.conds.set 7 { status := v, pending := true }).set 5 { pending := true }
        figs := { full.mon.figs with sent := 3, readings := 9 } } }
    let b : Request := { request 0x7F [] with bcast := true }
    let t (v : Bool) := after .restart (handling b (busy v))
    (busy true).box.entries.length = 12 ∧ (t false).box.entries = [] ∧ (t false).box.credits = (t false).creditCap
      ∧ (t false).box.drops = full.box.drops ∧ (t false).mon.figs = {}
      ∧ (∀ c : CondId, (t false).mon.conds[c].pending = false) ∧ (t true).mon.conds[(7 : CondId)].status = false
      ∧ (t true).mon.conds[(7 : CondId)].pending = true ∧ (t true).mon.conds[(7 : CondId)].changes = 1
      ∧ (t true).mon.conds[(5 : CondId)].pending = false
      ∧ ((t true).box.entries.map Alert.origin) = (if inSet State.reset.alertSet 7 = true then [7] else []) := by decide +kernel

/-- A part that has just received an OUTPUT_RESTART. -/
def restarting (sel : Byte) (s : State) : State := acceptRequest false 0x61 [sel] s

theorem test_Outputs_serving (sel : Byte) :
    ∃ q, (restarting sel State.reset).serving 0x61 q ∧ q.charger = none ∧ q.heater = none :=
  ⟨_, ⟨rfl, rfl, rfl, rfl, rfl, rfl⟩, rfl, rfl⟩
theorem test_Outputs_charger : (after .outputRestartCharger (restarting 0 State.reset)).bus.reply = some [0x04]
    ∧ (after .outputRestartHeater (restarting 4 State.reset)).bus.reply = some [0x04]
    ∧ (after .outputRestartCharger (restarting 1 State.reset)).bus.reply = some [0, 1, 0, 0, 0]
    ∧ (after .outputRestartCharger (restarting 1 (faulted 20))).bus.reply = some [0, 1, 1, 0, 0]
    ∧ (after .outputRestartCharger (restarting 1 (faulted 20))).bat.charge = .idle
    ∧ (after .outputRestartCharger (withBat (fun b => { b with charge := .fault }) (restarting 1 State.reset))).bat.charge
        = .fault := by decide +kernel
theorem test_Outputs_heater :
    let off (v : Bool) := heating fun h => { h with state := .shutdown, fault := v }
    (after .outputRestartHeater (restarting 2 (off true))).bus.reply = some [5, 0, 0, 1, 2]
      ∧ (after .outputRestartHeater (restarting 2 (off false))).bus.reply = some [0, 0, 0, 1, 1]
      ∧ (after .outputRestartHeater (restarting 2 (off false))).htr.state = .regulate
      ∧ (after .outputRestartCharger (restarting 3 State.reset)).bus.reply = none
      ∧ (after .outputRestartHeater (after .outputRestartCharger (restarting 3 State.reset))).bus.reply = some [0, 1, 0, 1, 0] := by
  decide +kernel
/-- Both outputs selected, in either order, with one that restarts and one whose cause is present. -/
theorem test_Outputs_both :
    let s : State := { faulted 20 with htr := { State.reset.htr with state := .shutdown, fault := true } }
    let c := after .outputRestartCharger (restarting 3 s)
    let h := after .outputRestartHeater (restarting 3 s)
    c.bus.reply = none ∧ (c.bus.req.map Request.charger) = some (some 1) ∧ h.bus.reply = none
      ∧ (h.bus.req.map Request.heater) = some (some 2) ∧ (after .outputRestartHeater c).bus.reply = some [5, 1, 1, 1, 2]
      ∧ (after .outputRestartCharger h).bus.reply = some [5, 1, 1, 1, 2] ∧ (after .outputRestartCharger h).bat.charge = .idle
      ∧ (after .outputRestartCharger h).bat.clear = 0 ∧ (after .outputRestartHeater c).htr = s.htr := by decide +kernel

/-! ### Rings (R106) -/

/-- An empty ring, and one that holds strobes 5 to 9. -/
theorem test_Rings :
    let r : Ring := { oldest := 5, newest := some 9 }
    let e : Ring := { oldest := 5 }
    (r.older 4, r.older 5, r.older 9, r.older 10) = (true, false, false, false)
      ∧ (r.held 5 9, r.held 9 9, r.held 10 9) = (5, 1, 0) ∧ e.older 4 = true ∧ e.older 281474976710655 = false
      ∧ e.held 7 3 = 0 := by decide +kernel

end Sys2Proof.Tests
end

