-- ==== Sys2Proof/Proofs/MarkEdges.lean ====
section
/-! PROOFS. EDGE_QUALIFIED (2.1, 2.2): what one mark input reads after a put, what the prescaler, the holdoff and the Mark
List make of an edge, and from these the settling of O32. -/
namespace Sys2Proof.Proofs

open Sys2Proof Sys2Proof.Machine Sys2Proof.Laws

/-! ### One mark input put -/

@[simp] theorem setInput_input_same (i : Input) (x : MarkInput) (s : State) : (setInput i x s).mrk.input i = x := by
  cases i <;> rfl

@[simp] theorem setInput_setInput_same (i : Input) (x y : MarkInput) (s : State) :
    setInput i y (setInput i x s) = setInput i y s := by
  cases i <;> rfl

@[simp] theorem prescale_setInput (i j : Input) (x : MarkInput) (s : State) :
    (setInput i x s).prescale j = s.prescale j := by
  cases i <;> cases j <;> rfl

/-- The sequence number that the next capture of a mark input takes (R30). -/
def markSeq (i : Input) (m : Capture) : Nat := if i = .markA then m.seqA else m.seqB

@[simp] theorem markSeq_setInput (i j : Input) (x : MarkInput) (s : State) :
    markSeq j (setInput i x s).mrk = markSeq j s.mrk := by
  cases i <;> rfl

@[simp] theorem marks_setInput (i : Input) (x : MarkInput) (s : State) : (setInput i x s).mrk.marks = s.mrk.marks := by
  cases i <;> rfl

/-! ### The Mark List (R31) -/

theorem enter_of_room {m : Capture} (h : m.marks.length < 16) (x : Mark) :
    m.enter x = { m with marks := m.marks ++ [x] } :=
  if_pos h

theorem enter_of_full {m : Capture} (h : m.marks.length = 16) (x : Mark) :
    m.enter x = { m with marks := m.marks.drop 1 ++ [x], overrun := inc16 m.overrun } :=
  if_neg (by omega)

/-- A record enters as the newest, whatever the list held. -/
theorem enter_newest (m : Capture) (x : Mark) : (m.enter x).marks.getLast? = some x := by
  unfold Capture.enter
  split
  · exact List.getLast?_concat
  · exact List.getLast?_concat

theorem enter_input (m : Capture) (x : Mark) (i : Input) : (m.enter x).input i = m.input i := by
  unfold Capture.enter
  split
  · cases i <;> rfl
  · cases i <;> rfl

/-! ### A mark capture (R30) -/

/-- The record a capture of a mark input makes. -/
def markRecord (i : Input) (x : EdgeTest) (m : Capture) : Mark := ⟨i, x.stamp, markSeq i m⟩

section HandedOn
variable {i : Input} (hi : i ≠ .pps) (x : EdgeTest) (s : State)
include hi

theorem handCapture_marks : (handCapture i x s).mrk.marks = (s.mrk.enter (markRecord i x s.mrk)).marks := by
  cases i with
  | pps => exact absurd rfl hi
  | markA => rfl
  | markB => rfl

theorem handCapture_overrun : (handCapture i x s).mrk.overrun = (s.mrk.enter (markRecord i x s.mrk)).overrun := by
  cases i with
  | pps => exact absurd rfl hi
  | markA => rfl
  | markB => rfl

theorem handCapture_markSeq : markSeq i (handCapture i x s).mrk = (markSeq i s.mrk + 1) % 65536 := by
  cases i with
  | pps => exact absurd rfl hi
  | markA => rfl
  | markB => rfl

theorem handCapture_input : (handCapture i x s).mrk.input i = s.mrk.input i := by
  cases i with
  | pps => exact absurd rfl hi
  | markA => exact enter_input s.mrk _ .markA
  | markB => exact enter_input s.mrk _ .markB

end HandedOn

/-! ### The prescaler (R29) -/

theorem prescaleEdge_counts {i : Input} {s : State} (h : (s.mrk.input i).count + 1 < s.prescale i) (x : EdgeTest) :
    prescaleEdge i x s = setInput i { s.mrk.input i with count := (s.mrk.input i).count + 1 } s :=
  if_neg (Nat.not_le.mpr h)

theorem prescaleEdge_captures {i : Input} {s : State} (h : s.prescale i ≤ (s.mrk.input i).count + 1) (x : EdgeTest) :
    prescaleEdge i x s = handCapture i x (setInput i { s.mrk.input i with count := 0 } s) :=
  if_pos h

/-! ### The holdoff (R28) -/

theorem heldOff_of_recent {m : Capture} {p c : Nat} (hp : m.lastPass = some p) (h : c < p + 5000000) :
    m.heldOff c = true := by
  unfold Capture.heldOff
  rw [hp]
  exact decide_eq_true h

theorem not_heldOff_of_rested {m : Capture} {c : Nat} (h : ∀ p, m.lastPass = some p → p + 5000000 ≤ c) :
    ¬ m.heldOff c = true := by
  unfold Capture.heldOff
  split
  · exact Bool.false_ne_true
  next p hp =>
    have := h p hp
    simpa using this

/-! ### An edge that qualifies (R27 to R30) -/

/-- The part after a PPS edge has left the test and passed the holdoff, before the prescaler. -/
def ppsPassed (x : EdgeTest) (s : State) : State :=
  { s with mrk := { s.mrk with pps := { s.mrk.pps with edge := none }, lastPass := some x.cycle } }

theorem qualify_pps_rejected {x : EdgeTest} {s : State} (h : s.mrk.heldOff x.cycle = true) :
    qualify .pps x s = { s with mrk := { s.mrk with
      pps := { s.mrk.pps with edge := none }, holdoffRej := inc16 s.mrk.holdoffRej } } :=
  if_pos h

theorem qualify_pps_passed {x : EdgeTest} {s : State} (h : ¬ s.mrk.heldOff x.cycle = true) :
    qualify .pps x s = prescaleEdge .pps x (ppsPassed x s) :=
  if_neg h

theorem qualify_mark {i : Input} (hi : i ≠ .pps) (x : EdgeTest) (s : State) :
    qualify i x s = prescaleEdge i x (setInput i { s.mrk.input i with edge := none } s) := by
  cases i with
  | pps => exact absurd rfl hi
  | markA => rfl
  | markB => rfl

section MarkEdge
variable {i : Input} (hi : i ≠ .pps) (x : EdgeTest) {s : State}
include hi

theorem qualify_mark_counts (h : (s.mrk.input i).count + 1 < s.prescale i) :
    qualify i x s = setInput i { s.mrk.input i with edge := none, count := (s.mrk.input i).count + 1 } s := by
  rw [qualify_mark hi, prescaleEdge_counts (by simpa using h)]
  simp

theorem qualify_mark_captures (h : s.prescale i ≤ (s.mrk.input i).count + 1) :
    qualify i x s = handCapture i x (setInput i { s.mrk.input i with edge := none, count := 0 } s) := by
  rw [qualify_mark hi, prescaleEdge_captures (by simpa using h)]
  simp

/-- In either outcome of the prescaler the test of the edge has ended. -/
theorem qualify_mark_edge : ((qualify i x s).mrk.input i).edge = none := by
  rcases Nat.lt_or_ge ((s.mrk.input i).count + 1) (s.prescale i) with h | h
  · simp [qualify_mark_counts hi x h]
  · simp [qualify_mark_captures hi x h, handCapture_input hi]

/-- What a mark edge that qualifies makes of its input and of the Mark List. -/
theorem qualify_mark_outcome :
    ((qualify i x s).mrk.input i).edge = none
    ∧ ((s.mrk.input i).count + 1 < s.prescale i →
        ((qualify i x s).mrk.input i).count = (s.mrk.input i).count + 1
        ∧ (qualify i x s).mrk.marks = s.mrk.marks ∧ markSeq i (qualify i x s).mrk = markSeq i s.mrk)
    ∧ (s.prescale i ≤ (s.mrk.input i).count + 1 →
        ((qualify i x s).mrk.input i).count = 0
        ∧ markSeq i (qualify i x s).mrk = (markSeq i s.mrk + 1) % 65536
        ∧ (qualify i x s).mrk.marks.getLast? = some (markRecord i x s.mrk)) := by
  refine ⟨qualify_mark_edge hi x, fun h => ?_, fun h => ?_⟩
  · simp [qualify_mark_counts hi x h]
  · rw [qualify_mark_captures hi x h]
    refine ⟨?_, ?_, ?_⟩
    · simp [handCapture_input hi]
    · simp [handCapture_markSeq hi]
    · simp [handCapture_marks hi, enter_newest, markRecord]

end MarkEdge

/-! ### EDGE_QUALIFIED -/

theorem atCycle_of_reach {d : Nat} {s u : State} (h : reach d s = some u) (f : State → State) : atCycle d f s = f u := by
  unfold atCycle
  rw [h]

/-- The edge under test qualifies at the cycle its width count completes. -/
theorem exec_edgeQualified {i : Input} {x : EdgeTest} {s u : State} (hp : s.powered = true)
    (he : (s.mrk.input i).edge = some x) (hr : reach (x.cycle + s.minWidth i) s = some u) :
    exec (.edgeQualified i) s = .next (qualify i x u) := by
  have h : exec (.edgeQualified i) s = execEdgeQualified i s := rfl
  rw [h, execEdgeQualified, act_on hp, he]
  exact congrArg _ (atCycle_of_reach hr _)

/-- R28, R29: a PPS edge that qualifies is rejected, counted or captured. -/
theorem qualify_pps_outcome (x : EdgeTest) (u : State) :
    (∀ p, u.mrk.lastPass = some p → x.cycle < p + 5000000 →
      qualify .pps x u = { u with mrk := { u.mrk with
        pps := { u.mrk.pps with edge := none }, holdoffRej := inc16 u.mrk.holdoffRej } })
    ∧ ((∀ p, u.mrk.lastPass = some p → p + 5000000 ≤ x.cycle) → u.mrk.pps.count + 1 < u.ppsPrescale →
      qualify .pps x u = { u with mrk := { u.mrk with
        pps := { u.mrk.pps with edge := none, count := u.mrk.pps.count + 1 }, lastPass := some x.cycle } })
    ∧ ((∀ p, u.mrk.lastPass = some p → p + 5000000 ≤ x.cycle) → u.ppsPrescale ≤ u.mrk.pps.count + 1 →
      qualify .pps x u = ppsCapture x.stamp.time x.ticks { u with mrk := { u.mrk with
        pps := { u.mrk.pps with edge := none, count := 0 }, lastPass := some x.cycle } }) := by
  refine ⟨fun p hp h => qualify_pps_rejected (heldOff_of_recent hp h), fun hp h => ?_, fun hp h => ?_⟩
  · rw [qualify_pps_passed (not_heldOff_of_rested hp)]
    exact prescaleEdge_counts (i := .pps) (s := ppsPassed x u) h x
  · rw [qualify_pps_passed (not_heldOff_of_rested hp)]
    exact prescaleEdge_captures (i := .pps) (s := ppsPassed x u) h x

/-- R31: a mark capture and the newest sixteen. -/
theorem handCapture_list {i : Input} (hi : i ≠ .pps) (x : EdgeTest) (s : State) :
    (s.mrk.marks.length < 16 → (handCapture i x s).mrk.marks = s.mrk.marks ++ [markRecord i x s.mrk]
      ∧ (handCapture i x s).mrk.overrun = s.mrk.overrun)
    ∧ (s.mrk.marks.length = 16 → (handCapture i x s).mrk.marks = s.mrk.marks.drop 1 ++ [markRecord i x s.mrk]
      ∧ (handCapture i x s).mrk.marks.length = 16
      ∧ (handCapture i x s).mrk.overrun = min (s.mrk.overrun + 1) 65535) := by
  rw [handCapture_marks hi, handCapture_overrun hi]
  refine ⟨fun h => ?_, fun h => ?_⟩
  · rw [enter_of_room h]
    exact ⟨rfl, rfl⟩
  · rw [enter_of_full h]
    exact ⟨rfl, by simp [h], rfl⟩

/-- Settles O32: EDGE_QUALIFIED is `qualify` at the cycle reached, whose outcome is the holdoff's and the prescaler's for
PPS and the prescaler's for a mark; a mark capture enters the Mark List. -/
theorem qualifiedEdgesAreCounted : Obligations.QualifiedEdgesAreCounted := by
  refine ⟨fun x s u hp => ⟨fun he hr => ?_, fun he hr => ?_, fun he hr => ?_⟩, fun x s i hi => handCapture_list hi x s⟩
  · rw [exec_edgeQualified (i := .pps) hp he hr]
    obtain ⟨rejected, counted, captured⟩ := qualify_pps_outcome x u
    exact ⟨fun p hl h => congrArg _ (rejected p hl h), fun hl h => congrArg _ (counted hl h),
      fun hl h => congrArg _ (captured hl h)⟩
  · exact ⟨_, exec_edgeQualified (i := .markA) hp he hr, qualify_mark_outcome (i := .markA) (by decide) x⟩
  · exact ⟨_, exec_edgeQualified (i := .markB) hp he hr, qualify_mark_outcome (i := .markB) (by decide) x⟩

end Sys2Proof.Proofs
end

