-- ==== Sys2Proof/Proofs/MappedValues.lean ====
section
/-! PROOFS. The Channel Map's reading of a good frame (3.3): the position a source reads, the value polarity makes of a sample,
the effective input, and from these the settling of O38. -/
namespace Sys2Proof.Proofs

open Sys2Proof Sys2Proof.Machine Sys2Proof.Laws

/-! ### The position read (R55) -/

theorem positionOf_val (reversed : Bool) (src : Fin 6) :
    (positionOf reversed src).val = if reversed = true then 2 - src.val % 3 else src.val % 3 := by
  cases reversed <;> rfl

/-- The effective input of a sourced channel is its port with the position read there. -/
theorem effective_of_source {m : ChanMap} {c : Chan} {src : Fin 6} (h : m.entries[c].source = some src) :
    m.effective c = some (portOf src, positionOf m.reversed[portOf src] src) := by
  rw [ChanMap.effective, h, Option.map_some]

/-! ### The value under polarity (R55) -/

@[simp] theorem mapValue_normal (x : Int) : mapValue false x = x := rfl

/-- The one negation that 24 bits cannot hold saturates. -/
@[simp] theorem mapValue_inverted_lowest : mapValue true (-8388608) = 8388607 := rfl

theorem mapValue_inverted {x : Int} (h : x ≠ -8388608) : mapValue true x = -x := if_neg h

/-! ### The slot a good frame gives -/

@[simp] theorem filledSlot_value (e : MapEntry) (src : Fin 6) (reversed : Bool) (f : Frame) :
    (filledSlot e src reversed f).value = mapValue e.inverted f.samples[positionOf reversed src] := rfl

@[simp] theorem filledSlot_clip (e : MapEntry) (src : Fin 6) (reversed : Bool) (f : Frame) :
    (filledSlot e src reversed f).clip = f.clips[positionOf reversed src] := rfl

/-- Settles O38: the position is `positionOf`'s for the slot and for the effective input alike; the value splits on the
polarity and on the one sample that has no negation. -/
theorem mappedValueFollowsTheMap : Obligations.MappedValueFollowsTheMap := by
  intro e src reversed f
  refine ⟨positionOf reversed src, positionOf_val reversed src, filledSlot_clip e src reversed f,
    fun normal => ?_, fun inverted lowest => ?_, fun inverted other => ?_, fun m c source order => ?_⟩
  · rw [filledSlot_value, normal, mapValue_normal]
  · rw [filledSlot_value, inverted, lowest, mapValue_inverted_lowest]
  · rw [filledSlot_value, inverted, mapValue_inverted other]
  · rw [effective_of_source source, order]

end Sys2Proof.Proofs
end

