-- ==== Sys2Proof/Proofs/StrobeTests.lean ====
section
/-! PROOFS. One strobe on one channel (4.2 to 4.5): the averages, the channel between its update and its state rule, what the
state rule leaves of it, the ON and OFF tests with the size of their products, and from these the settling of O42. -/
namespace Sys2Proof.Proofs

open Sys2Proof Sys2Proof.Machine Sys2Proof.Laws

/-! ### The averages (R69) -/

/-- R69 in the integers: an average a with shift n after slot value x. -/
def averaged (ch : Channel) (x : Int) (a n : Nat) : Int := a + ((ch.cf x : Int) * 256 - a) / ((2 ^ n : Nat) : Int)

/-- The floor of a fall is at most the whole average, since the divisor is at least 1. -/
theorem averaged_nonneg (ch : Channel) (x : Int) (a n : Nat) : 0 ≤ averaged ch x a n := by
  have positive : (0 : Int) < ((2 ^ n : Nat) : Int) := by positivity
  have fall : -(a : Int) ≤ ((ch.cf x : Int) * 256 - a) / ((2 ^ n : Nat) : Int) := by
    rw [Int.le_ediv_iff_mul_le positive]
    nlinarith
  unfold averaged
  omega

/-- The model's average cuts nothing off: a natural number holds every average that R69 gives. -/
theorem average_eq_averaged (ch : Channel) (x : Int) (a n : Nat) : (average a (ch.cf x) n : Int) = averaged ch x a n :=
  Int.toNat_of_nonneg (averaged_nonneg ch x a n)

/-! ### The channel before its state rule -/

/-- R75: a WARMUP channel with its averages and its count, before the count is compared. -/
def warmupUpdated (ch : Channel) (x : Int) : Channel :=
  { ch with
    prev := x
    sta := average ch.sta (ch.cf x) ch.det.staShift
    lta := average ch.lta (ch.cf x) ch.det.ltaShift
    warmup := min (ch.warmup + 1) 16384
    ratio := 0 }

theorem stepWarmup_of_done {ch : Channel} {x : Int} (h : 2 ^ ch.det.ltaShift ≤ (warmupUpdated ch x).warmup) :
    ch.stepWarmup x = (warmupUpdated ch x).endWarmup :=
  if_pos (decide_eq_true h)

theorem stepWarmup_of_not_done {ch : Channel} {x : Int} (h : ¬ 2 ^ ch.det.ltaShift ≤ (warmupUpdated ch x).warmup) :
    ch.stepWarmup x = warmupUpdated ch x :=
  if_neg fun done => h (of_decide_eq_true done)

/-- The trigger age of a TRIGGERED channel after one more strobe (R77). -/
def agedBy (ch : Channel) : Nat := min (ch.age + 1) 120000

/-- R77: LTA is released, from an earlier strobe or at this one. -/
def releasedNow (ch : Channel) (rate : Nat) : Bool := ch.released || decide (ch.det.trigMax * rate ≤ agedBy ch)

theorem releasedNow_iff (ch : Channel) (rate : Nat) :
    releasedNow ch rate = true ↔ ch.released = true ∨ ch.det.trigMax * rate ≤ agedBy ch := by
  simp [releasedNow]

/-- R77: a TRIGGERED channel with its age counted and the release of LTA judged. -/
def agedChannel (ch : Channel) (rate : Nat) : Channel :=
  { ch with age := agedBy ch, released := releasedNow ch rate }

/-- A release that is not due, or was made before, leaves the flag as it stands. -/
theorem release_eq_agedChannel (ch : Channel) (rate : Nat) :
    (if Channel.releaseDue rate { ch with age := agedBy ch } then { ch with age := agedBy ch, released := true }
      else { ch with age := agedBy ch }) = agedChannel ch rate := by
  unfold agedChannel releasedNow Channel.releaseDue
  cases earlier : ch.released
  · by_cases due : ch.det.trigMax * rate ≤ agedBy ch
    · simp [due]
    · simp [due]
  · simp

/-- A TRIGGERED channel after the averages, before its ratio. -/
def triggeredAverages (ch : Channel) (rate : Nat) (x : Int) : Channel :=
  { agedChannel ch rate with
    prev := x
    sta := average ch.sta ((agedChannel ch rate).cf x) ch.det.staShift
    lta := if releasedNow ch rate then average ch.lta ((agedChannel ch rate).cf x) ch.det.ltaShift else ch.lta }

theorem updateTriggered_eq (ch : Channel) (rate : Nat) (x : Int) : ch.updateTriggered rate x =
    { triggeredAverages ch rate x with ratio := (triggeredAverages ch rate x).ratioNow } := by
  have age := release_eq_agedChannel ch rate
  unfold agedBy at age
  unfold Channel.updateTriggered
  simp only [age]
  rfl

/-! ### The state rules (R75 to R77) -/

/-- Two channels with the same previous value, averages, warmup count, ratio and settings: all that the tests read. -/
structure SameMeasures (t u : Channel) : Prop where
  prev : t.prev = u.prev
  sta : t.sta = u.sta
  lta : t.lta = u.lta
  warmup : t.warmup = u.warmup
  ratio : t.ratio = u.ratio
  det : t.det = u.det

theorem sameMeasures_refl (u : Channel) : SameMeasures u u := ⟨rfl, rfl, rfl, rfl, rfl, rfl⟩

theorem sameMeasures_endWarmup (u : Channel) : SameMeasures u.endWarmup u := ⟨rfl, rfl, rfl, rfl, rfl, rfl⟩

theorem sameMeasures_turnOn (u : Channel) : SameMeasures u.turnOn u := ⟨rfl, rfl, rfl, rfl, rfl, rfl⟩

theorem sameMeasures_turnOff (u : Channel) : SameMeasures u.turnOff u := ⟨rfl, rfl, rfl, rfl, rfl, rfl⟩

theorem SameMeasures.onTest {t u : Channel} (m : SameMeasures t u) : t.onTest = u.onTest := by
  rw [Channel.onTest, Channel.effLta, m.sta, m.lta, m.det]
  rfl

theorem SameMeasures.offTest {t u : Channel} (m : SameMeasures t u) : t.offTest = u.offTest := by
  rw [Channel.offTest, Channel.effLta, m.sta, m.lta, m.det]
  rfl

theorem SameMeasures.ratioNow {t u : Channel} (m : SameMeasures t u) : t.ratioNow = u.ratioNow := by
  rw [Channel.ratioNow, Channel.effLta, m.sta, m.lta, m.det]
  rfl

section InOneState
variable {ch : Channel} (rate : Nat) (x : Int)

theorem strobe_of_off (h : ch.state = .off) : ch.strobe rate x = ⟨ch, false, false, 0⟩ := by
  rw [Channel.strobe, h]

theorem strobe_of_suppressed (h : ch.state = .suppressed) :
    ch.strobe rate x = ⟨{ ch with prev := x }, false, false, 0⟩ := by
  rw [Channel.strobe, h]

theorem strobe_of_warmup (h : ch.state = .warmup) : ch.strobe rate x = ⟨ch.stepWarmup x, false, false, 0⟩ := by
  rw [Channel.strobe, h]

theorem strobe_of_quiet (h : ch.state = .quiet) : ch.strobe rate x =
    if (ch.updateQuiet x).onTest then ⟨(ch.updateQuiet x).turnOn, true, false, (ch.updateQuiet x).ratio⟩
    else ⟨ch.updateQuiet x, false, false, (ch.updateQuiet x).ratio⟩ := by
  rw [Channel.strobe, h]

theorem strobe_of_triggered (h : ch.state = .triggered) : ch.strobe rate x =
    if (ch.updateTriggered rate x).offTest then
      ⟨(ch.updateTriggered rate x).turnOff, false, true, (ch.updateTriggered rate x).ratio⟩
    else ⟨ch.updateTriggered rate x, false, false, (ch.updateTriggered rate x).ratio⟩ := by
  rw [Channel.strobe, h]

theorem sameMeasures_strobe_of_warmup (h : ch.state = .warmup) :
    SameMeasures (ch.strobe rate x).chan (warmupUpdated ch x) := by
  rw [strobe_of_warmup rate x h]
  by_cases done : 2 ^ ch.det.ltaShift ≤ (warmupUpdated ch x).warmup
  · rw [stepWarmup_of_done done]
    exact sameMeasures_endWarmup _
  · rw [stepWarmup_of_not_done done]
    exact sameMeasures_refl _

theorem sameMeasures_strobe_of_quiet (h : ch.state = .quiet) :
    SameMeasures (ch.strobe rate x).chan (ch.updateQuiet x) := by
  rw [strobe_of_quiet rate x h]
  split
  · exact sameMeasures_turnOn _
  · exact sameMeasures_refl _

theorem sameMeasures_strobe_of_triggered (h : ch.state = .triggered) :
    SameMeasures (ch.strobe rate x).chan (ch.updateTriggered rate x) := by
  rw [strobe_of_triggered rate x h]
  split
  · exact sameMeasures_turnOff _
  · exact sameMeasures_refl _

/-! ### The two tests (R72) -/

/-- A QUIET channel applies the ON test alone, to the STA and LTA it ends the strobe with. -/
theorem strobe_tests_of_quiet (h : ch.state = .quiet) :
    (ch.strobe rate x).on = (ch.strobe rate x).chan.onTest ∧ (ch.strobe rate x).off = false := by
  rw [(sameMeasures_strobe_of_quiet rate x h).onTest, strobe_of_quiet rate x h]
  cases test : (ch.updateQuiet x).onTest
  · exact ⟨rfl, rfl⟩
  · exact ⟨rfl, rfl⟩

/-- A TRIGGERED channel applies the OFF test alone, to the STA and LTA it ends the strobe with. -/
theorem strobe_tests_of_triggered (h : ch.state = .triggered) :
    (ch.strobe rate x).on = false ∧ (ch.strobe rate x).off = (ch.strobe rate x).chan.offTest := by
  rw [(sameMeasures_strobe_of_triggered rate x h).offTest, strobe_of_triggered rate x h]
  cases test : (ch.updateTriggered rate x).offTest
  · exact ⟨rfl, rfl⟩
  · exact ⟨rfl, rfl⟩

/-- In every other state no test is applied. -/
theorem strobe_tests_of_neither (quiet : ch.state ≠ .quiet) (triggered : ch.state ≠ .triggered) :
    (ch.strobe rate x).on = false ∧ (ch.strobe rate x).off = false := by
  cases h : ch.state with
  | off => rw [strobe_of_off rate x h]; exact ⟨rfl, rfl⟩
  | suppressed => rw [strobe_of_suppressed rate x h]; exact ⟨rfl, rfl⟩
  | warmup => rw [strobe_of_warmup rate x h]; exact ⟨rfl, rfl⟩
  | quiet => exact absurd h quiet
  | triggered => exact absurd h triggered

theorem strobe_on_iff : (ch.strobe rate x).on = true ↔ ch.state = .quiet ∧ (ch.strobe rate x).chan.onTest = true := by
  by_cases quiet : ch.state = .quiet
  · simp [(strobe_tests_of_quiet rate x quiet).1, quiet]
  · by_cases triggered : ch.state = .triggered
    · simp [(strobe_tests_of_triggered rate x triggered).1, quiet]
    · simp [(strobe_tests_of_neither rate x quiet triggered).1, quiet]

theorem strobe_off_iff : (ch.strobe rate x).off = true ↔ ch.state = .triggered ∧ (ch.strobe rate x).chan.offTest = true := by
  by_cases triggered : ch.state = .triggered
  · simp [(strobe_tests_of_triggered rate x triggered).2, triggered]
  · by_cases quiet : ch.state = .quiet
    · simp [(strobe_tests_of_quiet rate x quiet).2, triggered]
    · simp [(strobe_tests_of_neither rate x quiet triggered).2, triggered]

theorem not_strobe_on_and_off : ¬ ((ch.strobe rate x).on = true ∧ (ch.strobe rate x).off = true) := by
  rintro ⟨on, off⟩
  have quiet := ((strobe_on_iff rate x).mp on).1
  have triggered := ((strobe_off_iff rate x).mp off).1
  exact absurd (quiet.symm.trans triggered) (by decide)

/-! ### What a strobe makes of a channel in each state (R75 to R77) -/

theorem strobe_warmup_ends (h : ch.state = .warmup)
    (done : 2 ^ ch.det.ltaShift ≤ (ch.strobe rate x).chan.warmup) :
    (ch.strobe rate x).chan.state = .quiet ∧ (ch.strobe rate x).chan.warmed = true := by
  rw [(sameMeasures_strobe_of_warmup rate x h).warmup] at done
  rw [strobe_of_warmup rate x h, stepWarmup_of_done done]
  exact ⟨rfl, rfl⟩

theorem strobe_warmup_goes_on (h : ch.state = .warmup)
    (short : (ch.strobe rate x).chan.warmup < 2 ^ ch.det.ltaShift) :
    (ch.strobe rate x).chan.state = .warmup ∧ (ch.strobe rate x).chan.warmed = ch.warmed := by
  rw [(sameMeasures_strobe_of_warmup rate x h).warmup] at short
  rw [strobe_of_warmup rate x h, stepWarmup_of_not_done (Nat.not_le.mpr short)]
  exact ⟨h, rfl⟩

/-- ON moves a QUIET channel, which freezes LTA, clears the age and counts one more trigger. -/
theorem strobe_quiet_of_on (h : ch.state = .quiet) (on : (ch.strobe rate x).on = true) :
    (ch.strobe rate x).chan = (ch.updateQuiet x).turnOn := by
  rw [strobe_of_quiet rate x h] at on ⊢
  split at on
  next pass => rw [if_pos pass]
  next => exact absurd on Bool.false_ne_true

theorem strobe_quiet_of_not_on (h : ch.state = .quiet) (on : (ch.strobe rate x).on = false) :
    (ch.strobe rate x).chan = ch.updateQuiet x := by
  rw [strobe_of_quiet rate x h] at on ⊢
  split at on
  next => exact absurd on.symm Bool.false_ne_true
  next fail => rw [if_neg fail]

theorem strobe_triggered_of_off (h : ch.state = .triggered) (off : (ch.strobe rate x).off = true) :
    (ch.strobe rate x).chan = (ch.updateTriggered rate x).turnOff := by
  rw [strobe_of_triggered rate x h] at off ⊢
  split at off
  next pass => rw [if_pos pass]
  next => exact absurd off Bool.false_ne_true

theorem strobe_triggered_of_not_off (h : ch.state = .triggered) (off : (ch.strobe rate x).off = false) :
    (ch.strobe rate x).chan = ch.updateTriggered rate x := by
  rw [strobe_of_triggered rate x h] at off ⊢
  split at off
  next => exact absurd off.symm Bool.false_ne_true
  next fail => rw [if_neg fail]

end InOneState

/-! ### The averages and the ratio a strobe leaves (R69, R70, R73) -/

section Measures
variable {ch : Channel} (rate : Nat) (x : Int)

/-- R70: in WARMUP and in QUIET both averages move. -/
theorem strobe_averages_of_unfrozen (h : ch.state = .warmup ∨ ch.state = .quiet) :
    ((ch.strobe rate x).chan.sta : Int) = averaged ch x ch.sta ch.det.staShift
      ∧ ((ch.strobe rate x).chan.lta : Int) = averaged ch x ch.lta ch.det.ltaShift := by
  rcases h with warmup | quiet
  · rw [(sameMeasures_strobe_of_warmup rate x warmup).sta, (sameMeasures_strobe_of_warmup rate x warmup).lta]
    exact ⟨average_eq_averaged ch x _ _, average_eq_averaged ch x _ _⟩
  · rw [(sameMeasures_strobe_of_quiet rate x quiet).sta, (sameMeasures_strobe_of_quiet rate x quiet).lta]
    exact ⟨average_eq_averaged ch x _ _, average_eq_averaged ch x _ _⟩

/-- R73: the ratio is taken after the averages and before the state rule, which keeps both. -/
theorem strobe_ratio_of_tested (h : ch.state = .quiet ∨ ch.state = .triggered) :
    (ch.strobe rate x).chan.ratio = (ch.strobe rate x).chan.ratioNow := by
  rcases h with quiet | triggered
  · have m := sameMeasures_strobe_of_quiet rate x quiet
    rw [m.ratioNow, m.ratio]
    rfl
  · have m := sameMeasures_strobe_of_triggered rate x triggered
    rw [m.ratioNow, m.ratio, updateTriggered_eq]
    rfl

/-- The settings are those the strobe found, in every state. -/
theorem strobe_det : (ch.strobe rate x).chan.det = ch.det := by
  cases h : ch.state with
  | off => rw [strobe_of_off rate x h]
  | suppressed => rw [strobe_of_suppressed rate x h]
  | warmup => exact (sameMeasures_strobe_of_warmup rate x h).det
  | quiet => exact (sameMeasures_strobe_of_quiet rate x h).det
  | triggered =>
    rw [(sameMeasures_strobe_of_triggered rate x h).det, updateTriggered_eq]
    rfl

/-- R71: the effective LTA of the strobe, by the settings it found. -/
theorem strobe_effLta :
    (ch.strobe rate x).chan.effLta = max (ch.strobe rate x).chan.lta (ch.det.floor * 256) := by
  rw [Channel.effLta, strobe_det]

theorem strobe_ratio_eq (h : ch.state = .quiet ∨ ch.state = .triggered) : (ch.strobe rate x).chan.ratio =
    min 4095 ((ch.strobe rate x).chan.sta * 16 / max (ch.strobe rate x).chan.lta (ch.det.floor * 256)) := by
  rw [strobe_ratio_of_tested rate x h, Channel.ratioNow, strobe_effLta]

theorem strobe_prev_of_triggered (h : ch.state = .triggered) : (ch.strobe rate x).chan.prev = x := by
  rw [(sameMeasures_strobe_of_triggered rate x h).prev, updateTriggered_eq]
  rfl

theorem strobe_sta_of_triggered (h : ch.state = .triggered) :
    ((ch.strobe rate x).chan.sta : Int) = averaged ch x ch.sta ch.det.staShift := by
  rw [(sameMeasures_strobe_of_triggered rate x h).sta, updateTriggered_eq]
  exact average_eq_averaged ch x _ _

/-- R70: LTA is held in TRIGGERED until it is released. -/
theorem strobe_lta_of_triggered (h : ch.state = .triggered) :
    ((ch.strobe rate x).chan.lta : Int) =
      if ch.released = true ∨ ch.det.trigMax * rate ≤ agedBy ch then averaged ch x ch.lta ch.det.ltaShift else ch.lta := by
  rw [(sameMeasures_strobe_of_triggered rate x h).lta, updateTriggered_eq]
  change ((if releasedNow ch rate = true then average ch.lta (ch.cf x) ch.det.ltaShift else ch.lta : Nat) : Int) = _
  by_cases released : releasedNow ch rate = true
  · rw [if_pos released, if_pos ((releasedNow_iff ch rate).mp released)]
    exact average_eq_averaged ch x _ _
  · rw [if_neg released, if_neg fun due => released ((releasedNow_iff ch rate).mpr due)]

/-- OFF returns a TRIGGERED channel to QUIET and clears what TRIGGERED held (R77). -/
theorem strobe_triggered_ends (h : ch.state = .triggered) (off : (ch.strobe rate x).off = true) :
    (ch.strobe rate x).chan.state = .quiet ∧ (ch.strobe rate x).chan.frozen = false
      ∧ (ch.strobe rate x).chan.released = false ∧ (ch.strobe rate x).chan.age = 0 := by
  rw [strobe_triggered_of_off rate x h off]
  exact ⟨rfl, rfl, rfl, rfl⟩

theorem strobe_triggered_goes_on (h : ch.state = .triggered) (off : (ch.strobe rate x).off = false) :
    (ch.strobe rate x).chan.state = .triggered ∧ (ch.strobe rate x).chan.age = agedBy ch
      ∧ ((ch.strobe rate x).chan.released = true ↔ ch.released = true ∨ ch.det.trigMax * rate ≤ agedBy ch) := by
  rw [strobe_triggered_of_not_off rate x h off, updateTriggered_eq]
  exact ⟨h, rfl, releasedNow_iff ch rate⟩

end Measures

/-! ### The products of the tests (R72) -/

theorem onTest_iff (ch : Channel) : ch.onTest = true ↔ ch.det.onRatio * ch.effLta ≤ ch.sta * 16 := decide_eq_true_iff

theorem offTest_iff (ch : Channel) : ch.offTest = true ↔ ch.sta * 16 < ch.det.offRatio * ch.effLta := decide_eq_true_iff

/-- With the ratios in order, the OFF product is at most the ON product. -/
theorem not_off_of_on {ch : Channel} (order : ch.det.offRatio ≤ ch.det.onRatio)
    (on : ch.det.onRatio * ch.effLta ≤ ch.sta * 16) : ¬ ch.sta * 16 < ch.det.offRatio * ch.effLta :=
  Nat.not_lt.mpr ((Nat.mul_le_mul_right _ order).trans on)

theorem effLta_lt {ch : Channel} (lta : ch.lta ≤ 2147483392) (floor : ch.det.floor ≤ 65535) : ch.effLta < 2 ^ 31 := by
  unfold Channel.effLta
  omega

theorem onProduct_lt {ch : Channel} (lta : ch.lta ≤ 2147483392) (floor : ch.det.floor ≤ 65535)
    (ratio : ch.det.onRatio ≤ 640) : ch.det.onRatio * ch.effLta < 640 * 2 ^ 31 :=
  calc ch.det.onRatio * ch.effLta
    _ ≤ 640 * ch.effLta := Nat.mul_le_mul_right _ ratio
    _ < 640 * 2 ^ 31 := Nat.mul_lt_mul_of_pos_left (effLta_lt lta floor) (by decide)

/-- Settles O42: each state's clauses are read off the channel before its state rule, whose measures the rule keeps; the
tests speak of that STA and LTA, and their products are bounded through the effective LTA. -/
theorem strobesUpdateAndTest : Obligations.StrobesUpdateAndTest := by
  refine ⟨fun ch rate x => ⟨fun h => ?off, fun h => ?suppressed, fun h => ?warmup, fun h => ?quiet, fun h => ?triggered⟩,
    fun ch rate x => ⟨?onTest, ?offTest, not_strobe_on_and_off rate x⟩,
    fun ch => ⟨not_off_of_on, fun sta => ?staProduct, fun lta floor ratio => ⟨onProduct_lt lta floor ratio, by decide⟩⟩⟩
  case off => exact strobe_off ch rate x h
  case suppressed => rw [strobe_of_suppressed rate x h]
  case warmup =>
    have m := sameMeasures_strobe_of_warmup rate x h
    obtain ⟨sta, lta⟩ := strobe_averages_of_unfrozen rate x (.inl h)
    exact ⟨m.prev, sta, lta, m.warmup, m.ratio, strobe_warmup_ends rate x h, strobe_warmup_goes_on rate x h⟩
  case quiet =>
    obtain ⟨sta, lta⟩ := strobe_averages_of_unfrozen rate x (.inr h)
    refine ⟨(sameMeasures_strobe_of_quiet rate x h).prev, sta, lta, strobe_ratio_eq rate x (.inl h),
      fun on => ?_, fun on => ?_⟩
    · rw [strobe_quiet_of_on rate x h on]
      exact ⟨rfl, rfl, rfl, rfl⟩
    · rw [strobe_quiet_of_not_on rate x h on]
      exact ⟨h, rfl⟩
  case triggered =>
    exact ⟨strobe_prev_of_triggered rate x h, strobe_sta_of_triggered rate x h, strobe_lta_of_triggered rate x h,
      strobe_ratio_eq rate x (.inr h), strobe_triggered_ends rate x h, strobe_triggered_goes_on rate x h⟩
  case onTest =>
    rw [strobe_on_iff, onTest_iff, strobe_effLta, strobe_det]
  case offTest =>
    rw [strobe_off_iff, offTest_iff, strobe_effLta, strobe_det]
  case staProduct => omega

end Sys2Proof.Proofs
end

