-- ==== Sys2Proof/Proofs/SocAndClass.lean ====
section
/-! PROOFS. The state of charge and the battery class (7.2, 7.3): what the power-on reading makes of them, what the class step of
a later reading makes of them, that nothing after that step moves Q, SOC or class, and from these the settling of O11. -/
namespace Sys2Proof.Proofs

open Sys2Proof Sys2Proof.Machine Sys2Proof.Laws

/-! ### The settings read -/

section Settings
variable {s t : State} (h : t.params = s.params)
include h

theorem param_of_params (n : Nat) : t.param n = s.param n := by
  unfold State.param
  rw [h]

theorem capacity_of_params : t.capacity = s.capacity := congrArg Int.toNat (param_of_params h 70)

theorem full_of_params : t.full = s.full := congrArg (· * 3600) (capacity_of_params h)

theorem vFloat_of_params : t.vFloat = s.vFloat := congrArg Int.toNat (param_of_params h 73)

theorem vEmpty_of_params : t.vEmpty = s.vEmpty := congrArg Int.toNat (param_of_params h 75)

theorem socLow_of_params : t.socLow = s.socLow := congrArg Int.toNat (param_of_params h 78)

theorem socCritical_of_params : t.socCritical = s.socCritical := congrArg Int.toNat (param_of_params h 79)

end Settings

/-! ### The power-on reading (R140, R141) -/

theorem startMonitor_vb (r : Reading) (s : State) : (startMonitor r (loadPart s)).pwr.vb = r.vb := rfl

theorem lined_bat (r : Reading) (s : State) : (lined r s).bat = (startBattery (startMonitor r (loadPart s))).bat := rfl

theorem lined_params (r : Reading) (s : State) : (lined r s).params = (startMonitor r (loadPart s)).params := rfl

theorem startBattery_bat (u : State) : (startBattery u).bat =
    { q := u.capacity * 36 * socAtStart u.pwr.vb u.vEmpty u.vFloat
      soc := socAtStart u.pwr.vb u.vEmpty u.vFloat
      cls := classAtStart (socAtStart u.pwr.vb u.vEmpty u.vFloat) u.socLow u.socCritical } := rfl

/-- The battery after POWER_ON, in the settings and the voltage that POWER_ON leaves in force. -/
theorem powerOn_bat (r : Reading) (s : State) : (powerOn r s).bat =
    { q := (powerOn r s).capacity * 36 * socAtStart r.vb (powerOn r s).vEmpty (powerOn r s).vFloat
      soc := socAtStart r.vb (powerOn r s).vEmpty (powerOn r s).vFloat
      cls := classAtStart (socAtStart r.vb (powerOn r s).vEmpty (powerOn r s).vFloat) (powerOn r s).socLow
        (powerOn r s).socCritical } := by
  have bat : (powerOn r s).bat = (lined r s).bat := powerOn_lined r s .bat (by decide)
  have params : (powerOn r s).params = (startMonitor r (loadPart s)).params :=
    (powerOn_lined r s .params (by decide)).trans (lined_params r s)
  rw [bat, lined_bat, startBattery_bat, startMonitor_vb, capacity_of_params params, vEmpty_of_params params, vFloat_of_params params,
    socLow_of_params params, socCritical_of_params params]

/-! ### The class step of a later reading (R138, R141) -/

/-- The runs of the power state leave Q, whether or not the power state changes. -/
theorem powerRuns_q (s : State) : (powerRuns s).q = s.bat.q := by
  unfold powerRuns
  cases s.bat.power with
  | run => exact (apply_ite Battery.q _ _ _).trans (ite_self _)
  | shed => exact (apply_ite Battery.q _ _ _).trans (ite_self _)

@[simp] theorem classStep_q (s : State) : (classStep s).bat.q = s.bat.q := powerRuns_q s

@[simp] theorem classStep_soc (s : State) : (classStep s).bat.soc = s.bat.q * 100 / s.full := rfl

@[simp] theorem classStep_cls (s : State) : (classStep s).bat.cls =
    nextClass s.bat.cls (s.bat.q * 100 / s.full) s.socLow s.socCritical := rfl

/-! ### Q, SOC and class after the class step -/

/-- Q, the state of charge and the class are kept; the charge hold may move. -/
structure KeepsCharge (s t : State) : Prop where
  q : t.bat.q = s.bat.q
  soc : t.bat.soc = s.bat.soc
  cls : t.bat.cls = s.bat.cls

theorem KeepsCharge.refl (s : State) : KeepsCharge s s := ⟨rfl, rfl, rfl⟩

theorem KeepsCharge.trans {s t u : State} (h : KeepsCharge s t) (k : KeepsCharge t u) : KeepsCharge s u :=
  ⟨k.q.trans h.q, k.soc.trans h.soc, k.cls.trans h.cls⟩

/-- An operation that leaves Battery Care. -/
theorem KeepsCharge.of {L : List Part} {s t : State} (h : Does L s t) (hb : Part.bat ∉ L) : KeepsCharge s t := by
  have e : t.bat = s.bat := h.frame .bat hb
  exact ⟨by rw [e], by rw [e], by rw [e]⟩

/-- Of Battery Care, a slot and the votes it completes move the charge hold only (R154). -/
theorem keepsCharge : UnderVotes KeepsCharge where
  refl := .refl
  trans := .trans
  evt _ _ := ⟨rfl, rfl, rfl⟩
  moment _ _ := ⟨rfl, rfl, rfl⟩
  rings _ _ := ⟨rfl, rfl, rfl⟩
  chn _ _ := ⟨rfl, rfl, rfl⟩
  settle s := .of (startSettle_does s) (by decide)
  holdStart s := .of (heaterHoldStart_does s) (by decide)
  holdEnd s := .of (heaterHoldEnd_does s) (by decide)
  chargeStart s := by
    unfold chargeHoldStart
    split
    · exact ⟨rfl, rfl, rfl⟩
    · exact .refl s
  chargeEnd _ := ⟨rfl, rfl, rfl⟩
  openAlert r s := .of (openAlert_does r s) (by decide)
  closeAlert r s := .of (closeAlert_does r s) (by decide)
  lost s := .of (lostOccurrence_does s) (by decide)
  wake s := .of (wakeEval_does s) (by decide)

theorem switchSupply_charge (p : PortId) (s : State) : KeepsCharge s (switchSupply p s) :=
  keepsCharge.ite _ (keepsCharge.ite _ (.of (startPort_does p s) (by decide)) (.refl s))
    (keepsCharge.ite _ (.refl s) (.of (stopLink_only p s) (by decide)))

theorem evalSupplies_charge (s : State) : KeepsCharge s (evalSupplies s) :=
  (((switchSupply_charge 0 s).trans (switchSupply_charge 1 _)).trans (keepsCharge.closeStopped 0 _ _)).trans
    (keepsCharge.closeStopped 1 _ _)

theorem handShed_charge (s : State) : KeepsCharge s (handShed s) := by
  unfold handShed shedEvents
  refine .trans ?_ (.of (heaterFollow_does _) (by decide))
  refine .trans ?_ (.of (modemShed_does _) (by decide))
  refine .trans ?_ (.of (cutCal_does _) (by decide))
  refine .trans ?_ (evalSupplies_charge _)
  refine .trans ?_ (keepsCharge.closeBetweenVotes _ _)
  exact .of (clockFollow_does s) (by decide)

theorem handRun_charge (s : State) : KeepsCharge s (handRun s) := by
  unfold handRun
  refine .trans ?_ (.of (heaterFollow_does _) (by decide))
  refine .trans ?_ (evalSupplies_charge _)
  exact .of (clockFollow_does s) (by decide)

theorem handClass_charge (s : State) : KeepsCharge s (handClass s) := by
  have followed : KeepsCharge s (evalSupplies (clockFollow s)) :=
    .trans (.of (clockFollow_does s) (by decide)) (evalSupplies_charge _)
  unfold handClass
  exact keepsCharge.ite _ (followed.trans (.of (cutCal_does _) (by decide))) followed

theorem handOver_charge (c : BatClass) (p : PowerState) (s : State) : KeepsCharge s (handOver c p s) := by
  have reported : KeepsCharge s (reportClass s) := .of (reportClass_does s) (by decide)
  unfold handOver
  refine keepsCharge.ite _ ?powerChanged ?powerKept
  case powerChanged =>
    exact keepsCharge.ite _ (reported.trans (handShed_charge _)) (reported.trans (handRun_charge _))
  case powerKept =>
    exact keepsCharge.ite _ (reported.trans (handClass_charge _)) reported

/-- A window closes as missing: the port's own work, then the gaps of its channels. -/
theorem closeWindow_charge (p : PortId) (s : State) : KeepsCharge s (closeWindow p s) := by
  unfold closeWindow
  split
  · exact .refl s
  · unfold decideOutcome writePortSlots
    refine .trans ?_ (keepsCharge.writePortGaps p _ _)
    refine .trans ?_ (.of (setLinkOnly_does p _ _) (by decide))
    exact .of (reportOutcome_does p _ s) (by decide)

theorem closeWindows_charge (s : State) : KeepsCharge s (closeWindows s) :=
  (closeWindow_charge 0 s).trans (closeWindow_charge 1 _)

theorem pendingRate_charge (s : State) : KeepsCharge s (pendingRate s) := by
  unfold pendingRate
  refine keepsCharge.ite _ ?_ (.refl s)
  exact ((closeWindows_charge s).trans (keepsCharge.moment _ _)).trans (.of (applyRate_does _) (by decide))

theorem pendingMapTest_charge (s : State) : KeepsCharge s (pendingMapTest s) := by
  unfold pendingMapTest
  refine keepsCharge.ite _ ?_ (.refl s)
  exact ((closeWindows_charge s).trans (keepsCharge.moment _ _)).trans (.of (applyMap_does _) (by decide))

/-! ### A second boundary around its class step -/

/-- A second boundary up to its class step: the clock, the interval, the not-befores, the reading and the charger (log 6). -/
def charged (r : Reading) (s : State) : State :=
  chargeReading (coulombStep (takeReading r (passNotBefores (intervalTest (clockBoundary s)))))

/-- Up to the class step neither the class nor a setting has moved. -/
theorem charged_does (r : Reading) (s : State) :
    Does [.clk, .time, .supplyView, .osc, .moment, .box, .credits, .mon, .interval, .pwr, .bat, .evt, .event] s (charged r s) := by
  unfold charged
  refine Does.trans ?_ (Does.mono (chargeReading_does _) (by decide))
  refine Does.trans ?_ (Does.mono (coulombStep_does _) (by decide))
  refine Does.trans ?_ (Does.mono (takeReading_does r _) (by decide))
  refine Does.trans ?_ (Does.mono (passNotBefores_does _) (by decide))
  refine Does.trans ?_ (Does.mono (intervalTest_does _) (by decide))
  exact Does.mono (clockBoundary_does s) (by decide)

theorem secondBoundary_eq (r : Reading) (s : State) : ∃ c p, secondBoundary r s =
    beginSecond (calBoundary (pendingMapTest (pendingRate (endDue (heaterReading (handOver c p (classStep (charged r s)))))))) :=
  ⟨_, _, rfl⟩

/-- After the class step nothing of a second boundary moves Q, SOC or class. -/
theorem secondBoundary_charge (r : Reading) (s : State) : KeepsCharge (classStep (charged r s)) (secondBoundary r s) := by
  obtain ⟨c, p, e⟩ := secondBoundary_eq r s
  rw [e]
  refine .trans ?_ (.of (beginSecond_does _) (by decide))
  refine .trans ?_ (.of (calBoundary_does _) (by decide))
  refine .trans ?_ (pendingMapTest_charge _)
  refine .trans ?_ (pendingRate_charge _)
  refine .trans ?_ (.of (endDue_does _) (by decide))
  refine .trans ?_ (.of (heaterReading_does _) (by decide))
  exact handOver_charge c p _

/-- R138: SOC after a second boundary is that of the Q it leaves. -/
theorem secondBoundary_soc (r : Reading) (s : State) :
    (secondBoundary r s).bat.soc = (secondBoundary r s).bat.q * 100 / s.full := by
  have kept := secondBoundary_charge r s
  have params : (charged r s).params = s.params := (charged_does r s).frame .params (by decide)
  rw [kept.soc, kept.q, classStep_soc, classStep_q, full_of_params params]

/-- R141: the class after a second boundary, from the class before it and the SOC it leaves. -/
theorem secondBoundary_cls (r : Reading) (s : State) :
    (secondBoundary r s).bat.cls = nextClass s.bat.cls (secondBoundary r s).bat.soc s.socLow s.socCritical := by
  have kept := secondBoundary_charge r s
  have params : (charged r s).params = s.params := (charged_does r s).frame .params (by decide)
  obtain ⟨-, cls, -⟩ := (charged_does r s).frame .power (by decide)
  rw [kept.cls, kept.soc, classStep_cls, classStep_soc, cls, socLow_of_params params, socCritical_of_params params]

theorem exec_powerOn (r : Reading) (s : State) : exec (.powerOn r) s = .next (powerOn r s) := rfl

theorem exec_secondBoundary (r : Reading) {s : State} (h : s.powered = true) :
    exec (.secondBoundary r) s = .next (secondBoundary r s) := by
  have arm : exec (.secondBoundary r) s = act (secondBoundary r) s := rfl
  rw [arm, act_on h]

/-- Settles O11: POWER_ON's battery is that of its start, in the settings the load leaves; a second boundary's SOC and class are
those of its class step, which the rest of the boundary keeps. -/
theorem socAndClassFollowTheirTables : Obligations.SocAndClassFollowTheirTables := by
  refine ⟨fun r s => ?powerOn, fun r s powered => ?later⟩
  case powerOn =>
    refine ⟨_, exec_powerOn r s, ?_⟩
    rw [powerOn_bat]
    exact ⟨rfl, rfl, rfl⟩
  case later =>
    exact ⟨_, exec_secondBoundary r powered, secondBoundary_soc r s, secondBoundary_cls r s⟩

end Sys2Proof.Proofs
end

