-- ==== Sys2Proof/Proofs/Steps.lean ====
section
/-! PROOFS. One step and one command: what `step` and `exec` can do at all, the induction packaged once for an invariant
that every `Does` keeps, and from these the settling of O1 to O9. -/
namespace Sys2Proof.Proofs

open Sys2Proof Sys2Proof.Machine Sys2Proof.Laws

/-! ### A step -/

theorem step_cons {c : Instr} {rest : List Instr} {s : State} (h : s.pending = c :: rest) :
    step s = exec c { s with pending := rest } := by
  unfold step
  rw [h]

theorem step_nil {s : State} (h : s.pending = []) : step s = .next s := by
  unfold step
  rw [h]

/-- A step idles or runs one command on the part with another queue. -/
theorem step_cases {s t : State} (h : step s = .next t) :
    t = s ∨ ∃ c rest, exec c { s with pending := rest } = .next t := by
  cases hq : s.pending with
  | nil =>
    rw [step_nil hq] at h
    injection h with h
    exact .inl h.symm
  | cons c rest =>
    rw [step_cons hq] at h
    exact .inr ⟨c, rest, h⟩

/-! ### A command -/

/-- What an `act` answers is the state itself or what its function makes of it. -/
theorem act_cases {f : State → State} {s t : State} (h : act f s = .next t) : t = s ∨ t = f s := by
  unfold act at h
  injection h with h
  split at h
  · exact .inr h.symm
  · exact .inl h.symm

/-- What a command's function keeps, the command keeps. -/
theorem act_keeps {P : State → Prop} {f : State → State} {s t : State} (h : act f s = .next t) (hs : P s) (hf : P (f s)) :
    P t := by
  rcases act_cases h with rfl | rfl
  · exact hs
  · exact hf

/-- POWER_ON starts the part afresh; every other command changes only its own parts and keeps the invariants. -/
theorem exec_cases {c : Instr} {s t : State} (e : exec c s = .next t) :
    (∃ r, c = .powerOn r ∧ t = powerOn r s) ∨ (∀ r, c ≠ .powerOn r) ∧ Does (touches c) s t := by
  by_cases h : ∃ r, c = .powerOn r
  · obtain ⟨r, rfl⟩ := h
    have e' : Host.Outcome.next (powerOn r s) = (Host.Outcome.next t : Host.Outcome State Fault Refusal) := e
    injection e' with e'
    exact .inl ⟨r, rfl, e'.symm⟩
  · have h' : ∀ r, c ≠ .powerOn r := fun r hr => h ⟨r, hr⟩
    exact .inr ⟨h', exec_does c h' e⟩

/-- An invariant that the queue does not bear on, that POWER_ON establishes and every `Does` keeps, is kept by a step. -/
theorem step_keeps {P : State → Prop} (queue : ∀ s l, P s → P { s with pending := l }) (on : ∀ r s, P (powerOn r s))
    (does : ∀ L s t, Does L s t → P s → P t) {s t : State} (hs : P s) (h : step s = .next t) : P t := by
  rcases step_cases h with rfl | ⟨c, rest, e⟩
  · exact hs
  · rcases exec_cases e with ⟨r, -, rfl⟩ | ⟨-, d⟩
    · exact on r _
    · exact does _ _ _ d (queue s rest hs)

/-! ### The invariants no command can break -/

/-- Settles O6: every `Does` keeps the capacities, and POWER_ON empties the lists. -/
theorem listsStayWithinCapacity : Obligations.ListsStayWithinCapacity := by
  intro s t hs h
  exact step_keeps (P := State.listsFit) (fun _ _ k => k) (fun r s => (powerOn_ok r s).lists) (fun _ _ _ d => d.lists) hs h

/-- Settles O7: every `Does` keeps the ranges of the rates, and POWER_ON zeroes them. -/
theorem ratesStayBounded : Obligations.RatesStayBounded := by
  intro s t hs h
  exact step_keeps (P := State.ratesBounded) (fun _ _ k => k) (fun r s => (powerOn_ok r s).rates) (fun _ _ _ d => d.rates)
    hs h

/-- Settles O8: every `Does` keeps each of the three on its own, and POWER_ON evaluates all of them. -/
theorem wakeAndDegradedFollow : Obligations.WakeAndDegradedFollow := by
  intro s t h
  refine ⟨fun k => ?_, fun k => ?_, fun k => ?_⟩
  · exact step_keeps (P := State.termFollows) (fun _ _ k => k) (fun r s => (powerOn_ok r s).term) (fun _ _ _ d => d.term) k h
  · exact step_keeps (P := State.degradedFollows) (fun _ _ k => k) (fun r s => (powerOn_ok r s).degraded)
      (fun _ _ _ d => d.degraded) k h
  · exact step_keeps (P := State.wakeFollows) (fun _ _ k => k) (fun r s => (powerOn_ok r s).wake) (fun _ _ _ d => d.wake) k h

theorem step_keeps_rings {s t : State} (hs : ∀ c : Chan, Sparse.wf (fun _ => Slot.blank) s.rings[c].slots = true)
    (h : step s = .next t) : ∀ c : Chan, Sparse.wf (fun _ => Slot.blank) t.rings[c].slots = true :=
  step_keeps (P := fun s => ∀ c : Chan, Sparse.wf (fun _ => Slot.blank) s.rings[c].slots = true) (fun _ _ k => k)
    (fun r s => (powerOn_ok r s).rings) (fun _ _ _ d => d.rings) hs h

theorem step_keeps_params {s t : State} (hs : Sparse.wf paramDefault s.params = true ∧ FitMap s.params)
    (h : step s = .next t) : Sparse.wf paramDefault t.params = true ∧ FitMap t.params := by
  rcases step_cases h with rfl | ⟨c, rest, e⟩
  · exact hs
  · exact exec_params c e hs

/-- Settles O9: the rings are kept by every `Does`, the parameters by every command. -/
theorem settingsStayFitted : Obligations.SettingsStayFitted := by
  intro s t ⟨rings, params⟩ fit h
  obtain ⟨params', fit'⟩ := step_keeps_params ⟨params, fit⟩ h
  exact ⟨⟨step_keeps_rings rings h, params'⟩, fit'⟩

/-! ### The frame of a command -/

/-- POWER_ON answers a next state, and so does every `act`. -/
theorem exec_next (c : Instr) (s : State) : ∃ t, exec c s = .next t := by
  by_cases h : ∃ r, c = .powerOn r
  · obtain ⟨r, rfl⟩ := h
    exact ⟨_, rfl⟩
  · obtain ⟨f, hf⟩ := exec_act c fun r hr => h ⟨r, hr⟩
    exact ⟨_, hf s⟩

theorem exec_frame {c : Instr} {s t : State} (e : exec c s = .next t) : OnlyIn (touches c) s t := by
  rcases exec_cases e with ⟨r, rfl, rfl⟩ | ⟨-, d⟩
  · exact powerOn_frame r s
  · exact d.frame

/-- No command is named with the queue among its parts. -/
theorem pending_not_mem_touches (c : Instr) : Part.pending ∉ touches c := by
  cases c
  case inputEdge dt i => cases i <;> simp [touches]
  case inputLevelReturn dt i => cases i <;> simp [touches]
  case edgeQualified i => cases i <;> simp [touches]
  all_goals simp [touches]

/-- Settles O5: every command answers a next state within its frame, and the queue stands in no frame. -/
theorem everyCommandKeepsItsFrame : Obligations.EveryCommandKeepsItsFrame := by
  intro c s
  obtain ⟨t, e⟩ := exec_next c s
  exact ⟨t, e, exec_frame e .pending (pending_not_mem_touches c), exec_frame e⟩

/-! ### The queue, the supply and reset -/

/-- Settles O1: `step` takes the front command. -/
theorem stepTakesTheFrontCommand : Obligations.StepTakesTheFrontCommand :=
  fun _ _ _ h => step_cons h

/-- Settles O2: `step` on an empty queue, and `act` without the supply. -/
theorem idleOrUnpoweredDoesNothing : Obligations.IdleOrUnpoweredDoesNothing := by
  refine ⟨fun s h => step_nil h, fun c s off h => ?_⟩
  obtain ⟨f, hf⟩ := exec_act c h
  rw [hf s, act_off off]

/-- Reset is what POWER_ON makes of a blank part. -/
theorem powerOn_reset : powerOn ⟨12600, 0, 0, 600, 600⟩ State.reset = State.reset := by decide +kernel

/-- Settles O3: POWER_ON evaluated on the blank part. -/
theorem resetIsPowerOnOfABlankPart : Obligations.ResetIsPowerOnOfABlankPart :=
  congrArg Host.Outcome.next powerOn_reset

/-- Settles O4: what holds after every POWER_ON holds at reset; the modem line is OFF and the credits stand at their cap. -/
theorem resetMeetsEveryInvariant : Obligations.ResetMeetsEveryInvariant := by
  have ok : Ok State.reset := by
    rw [← powerOn_reset]
    exact powerOn_ok _ _
  have credits : State.reset.creditsFit := by
    unfold State.creditsFit
    decide +kernel
  exact ⟨ok.lists, ok.rates, ok.term, ok.degraded, ok.wake, ⟨ok.rings, rfl⟩, fitMap_nil,
    flightFollows_idle rfl nofun nofun, credits⟩

end Sys2Proof.Proofs
end

