-- ==== Sys2Proof/Proofs/ModemInvariants.lean ====
section
/-! PROOFS. The two invariants that tie the outbox to the modem line: the alert in flight (R112) and the credits (R121,
R122); from these the settling of O12 and O28. -/
namespace Sys2Proof.Proofs

open Sys2Proof Sys2Proof.Machine Sys2Proof.Laws

/-! ### The alert in flight -/

theorem powerOn_idle (r : Reading) (s : State) : (powerOn r s).box.entries = [] ∧ (powerOn r s).mdm.link = .off := by
  have f := powerOn_lined r s
  have box : (powerOn r s).box = (lined r s).box := f .box (by decide)
  have mdm : (powerOn r s).mdm = (lined r s).mdm := f .mdm (by decide)
  rw [box, mdm]
  exact ⟨rfl, rfl⟩

theorem powerOn_follows (r : Reading) (s : State) : (powerOn r s).flightFollows := by
  obtain ⟨box, link⟩ := powerOn_idle r s
  refine flightFollows_idle ?_ (by rw [link]; decide) (by rw [link]; decide)
  unfold State.flights
  rw [box]
  rfl

theorem shedEntry_follows {s t : State} (h : s.flightFollows) (e : execShedEntry s = .next t) : t.flightFollows := by
  refine act_keeps e h ?_
  split
  · exact handShed_follows _
  · exact h

theorem shedExit_follows {s t : State} (h : s.flightFollows) (e : execShedExit s = .next t) : t.flightFollows := by
  refine act_keeps e h ?_
  split
  · refine (handRun_does _).follows ?_ (by decide) (by decide)
    exact flightFollows_kept h rfl rfl
  · exact h

theorem modemStart_follows {s t : State} (h : s.flightFollows) (e : execModemStart s = .next t) : t.flightFollows := by
  refine act_keeps e h ?_
  split
  next start =>
    have off : s.mdm.link = .off := by
      simp only [Bool.and_eq_true, beq_iff_eq] at start
      exact start.1
    have none : s.flights = 0 := not_offered h (by rw [off]; decide) (by rw [off]; decide)
    exact flightFollows_idle none nofun nofun
  next => exact h

/-- A timer of a link state in which nothing is IN_FLIGHT, at whose end the link goes to another such state. -/
theorem idleTimer_follows {s : State} (d : Nat) (f : State → State) (h : s.flightFollows)
    (idle : s.mdm.link ≠ .offered ∧ s.mdm.link ≠ .sending)
    (hf : ∀ t : State, t.flights = 0 → (f t).flights = 0 ∧ (f t).mdm.link ≠ .offered ∧ (f t).mdm.link ≠ .sending) :
    (atCycle d f s).flightFollows := by
  refine atCycle_follows d f (fun t link k => ?_) h
  obtain ⟨none, offered, sending⟩ := hf t (not_offered k (by rw [link]; exact idle.1) (by rw [link]; exact idle.2))
  exact flightFollows_idle none offered sending

theorem modemStartTimeout_follows {s t : State} (h : s.flightFollows) (e : execModemStartTimeout s = .next t) :
    t.flightFollows := by
  refine act_keeps e h ?_
  split
  next link =>
    exact idleTimer_follows _ _ h (by rw [link]; decide) fun t z =>
      ⟨(show (setModemFault true _).flights = 0 by rw [flights_fault]; exact z), nofun, nofun⟩
  next => exact h

theorem modemHoldExpiry_follows {s t : State} (h : s.flightFollows) (e : execModemHoldExpiry s = .next t) :
    t.flightFollows := by
  refine act_keeps e h ?_
  split
  next link =>
    refine atCycle_follows _ _ (fun u hu k => ?_) h
    split
    · exact k
    · have none : u.flights = 0 := not_offered k (by rw [hu, link]; decide) (by rw [hu, link]; decide)
      exact flightFollows_idle none nofun nofun
  next => exact h

theorem backoffExpiry_follows {s t : State} (h : s.flightFollows) (e : execBackoffExpiry s = .next t) :
    t.flightFollows := by
  refine act_keeps e h ?_
  split
  next link => exact idleTimer_follows _ _ h (by rw [link]; decide) fun t z => ⟨z, nofun, nofun⟩
  next => exact h

theorem offer_follows {s t : State} (h : s.flightFollows) (e : execOffer s = .next t) : t.flightFollows := by
  refine act_keeps e h ?_
  split
  next a link first =>
    exact sendOffer_follows a (not_offered h (by rw [link]; decide) (by rw [link]; decide)) (List.mem_of_find?_eq_some first)
  next => exact h

/-- OFFER_TIMEOUT and SEND_TIMEOUT: the failure of the alert in flight. -/
theorem failureTimer_follows {s t : State} (x : ModemLink) (h : s.flightFollows)
    (e : act (fun s => if s.mdm.link = x then atCycle s.mdm.deadline takeFailure s else s) s = .next t) : t.flightFollows := by
  refine act_keeps e h ?_
  split
  · exact atCycle_follows _ _ (fun u _ _ => takeFailure_follows u) h
  · exact h

theorem modemBadFrame_follows (dt : Nat) (bytes : List Byte) {s t : State} (h : s.flightFollows)
    (e : execModemBadFrame dt bytes s = .next t) : t.flightFollows :=
  act_keeps e h (modemBytes_follows bytes (modemSilence_follows (elapse_follows dt h)))

theorem modemFrameTimeout_follows {s t : State} (h : s.flightFollows) (e : execModemFrameTimeout s = .next t) :
    t.flightFollows := by
  refine act_keeps e h ?_
  split
  · exact h
  · exact atCycle_follows _ _ (fun _ _ k => abandonModemFrame_follows k) h

/-- RESTART empties the outbox and switches the modem off; nothing after that concerns either. -/
theorem restartWork_idle (s : State) : (restartWork s).flights = 0 ∧ (restartWork s).mdm.link = .off := by
  unfold restartWork
  dsimp only
  generalize evalSupplies _ = u
  have a := restartPower_does (outboxRestart u)
  have b := restartMonitor_does s.intervalLen (restartPower (outboxRestart u))
  generalize restartMonitor s.intervalLen (restartPower (outboxRestart u)) = v at *
  have flights : v.flights = (outboxRestart u).flights :=
    (show _ = _ from b.frame .flight (by decide)).trans (a.frame .flight (by decide))
  have mdm : v.mdm = (outboxRestart u).mdm :=
    (show _ = _ from b.frame .mdm (by decide)).trans (a.frame .mdm (by decide))
  exact ⟨flights, congrArg Modem.link mdm⟩

theorem restartWork_follows (s : State) : (restartWork s).flightFollows := by
  obtain ⟨none, off⟩ := restartWork_idle s
  exact flightFollows_idle none (by rw [off]; decide) (by rw [off]; decide)

/-- Answering a request keeps what its rule keeps and a reply does not bear on. -/
theorem serve_keeps {P : State → Prop} (kind : Byte) (f : Request → State → List Byte × State) {s : State}
    (reply : ∀ r t, P t → P (finish r t)) (hs : P s) (h : ∀ q, P (f q s).2) : P (serve kind f s) := by
  unfold serve
  split
  · split
    · split
      · exact reply _ _ (h _)
      · exact reply _ _ hs
    · exact hs
  · exact hs

theorem restart_follows {s t : State} (h : s.flightFollows) (e : execRestart s = .next t) : t.flightFollows := by
  refine act_keeps e h (serve_keeps _ _ (fun r t k => (finish_does r t).follows k (by decide) (by decide)) h fun q => ?_)
  dsimp only
  split
  · exact restartWork_follows s
  · exact h

theorem restartExecute_follows (dt : Nat) {s t : State} (h : s.flightFollows) (e : execRestartExecute dt s = .next t) :
    t.flightFollows := by
  refine act_keeps e h ?_
  dsimp only
  split
  · refine (takeLine_does _).follows ?_ (by decide) (by decide)
    exact flightFollows_kept (restartWork_follows (elapse dt s)) rfl rfl
  · exact h

/-- Every command keeps the agreement of the alert in flight with the link: those of the modem line, SHED and RESTART by
their own lemmas, every other because it changes neither. -/
theorem exec_follows {c : Instr} {s t : State} (h : s.flightFollows) (e : exec c s = .next t) : t.flightFollows := by
  rcases exec_cases e with ⟨r, rfl, rfl⟩ | ⟨on, d⟩
  · exact powerOn_follows r s
  · cases c
    case powerOn r => exact absurd rfl (on r)
    case secondBoundary r => exact act_keeps (f := secondBoundary r) e h (secondBoundary_follows r h)
    case shedEntry => exact shedEntry_follows h e
    case shedExit => exact shedExit_follows h e
    case modemStart => exact modemStart_follows h e
    case modemStartTimeout => exact modemStartTimeout_follows h e
    case modemReady dt => exact act_keeps (f := goodFrame dt takeReady) e h (goodFrame_follows dt _ (fun _ => takeReady_follows) h)
    case offer => exact offer_follows h e
    case modemHoldExpiry => exact modemHoldExpiry_follows h e
    case take dt tag =>
      exact act_keeps (f := goodFrame dt (takeTake tag)) e h (goodFrame_follows dt _ (fun _ => takeTake_follows tag) h)
    case modemBusy dt tag =>
      exact act_keeps (f := goodFrame dt (takeBusy tag)) e h (goodFrame_follows dt _ (fun _ => takeBusy_follows tag) h)
    case offerTimeout => exact failureTimer_follows .offered h e
    case sent dt tag =>
      exact act_keeps (f := goodFrame dt (takeSent tag)) e h (goodFrame_follows dt _ (fun _ => takeSent_follows tag) h)
    case failed dt tag =>
      exact act_keeps (f := goodFrame dt (takeFailed tag)) e h (goodFrame_follows dt _ (fun _ => takeFailed_follows tag) h)
    case sendTimeout => exact failureTimer_follows .sending h e
    case backoffExpiry => exact backoffExpiry_follows h e
    case modemBadFrame dt bytes => exact modemBadFrame_follows dt bytes h e
    case modemFrameTimeout => exact modemFrameTimeout_follows h e
    case modemFramingError dt =>
      exact act_keeps (f := fun s => abandonModemFrame (elapse dt s)) e h (abandonModemFrame_follows (elapse_follows dt h))
    case restart => exact restart_follows h e
    case restartExecute dt => exact restartExecute_follows dt h e
    case inputEdge dt i => cases i <;> exact d.follows h (by simp [touches]) (by simp [touches])
    case inputLevelReturn dt i => cases i <;> exact d.follows h (by simp [touches]) (by simp [touches])
    case edgeQualified i => cases i <;> exact d.follows h (by simp [touches]) (by simp [touches])
    all_goals exact d.follows h (by simp [touches]) (by simp [touches])

/-- Settles O12: a step idles or runs a command, which keeps the agreement. -/
theorem oneAlertIsInFlight : Obligations.OneAlertIsInFlight := by
  intro s t hs h
  rcases step_cases h with rfl | ⟨c, rest, e⟩
  · exact hs
  · exact exec_follows (s := { s with pending := rest }) (flightFollows_kept hs rfl rfl) e

/-! ### The credits -/

/-- From s to t the credits and the cap stand, and no offer has been made. -/
structure Stands (s t : State) : Prop where
  credits : t.box.credits = s.box.credits
  params : t.params = s.params
  offered : t.mdm.link = .offered → s.mdm.link = .offered

theorem Stands.refl (s : State) : Stands s s := ⟨rfl, rfl, id⟩

theorem Stands.trans {s t u : State} (h : Stands s t) (k : Stands t u) : Stands s u :=
  ⟨k.credits.trans h.credits, k.params.trans h.params, fun o => h.offered (k.offered o)⟩

theorem creditCap_congr {s t : State} (h : t.params = s.params) : t.creditCap = s.creditCap := by
  unfold State.creditCap State.param
  rw [h]

theorem Stands.fit {s t : State} (k : Stands s t) (h : s.creditsFit) : t.creditsFit := by
  obtain ⟨low, high, offer⟩ := h
  unfold State.creditsFit
  rw [k.credits, creditCap_congr k.params]
  exact ⟨low, high, fun o => offer (k.offered o)⟩

/-- An operation outside the credits and the parameters that makes no offer. -/
theorem stands_of_does {L : List Part} {s t : State} (d : Does L s t) (hc : Part.credits ∉ L) (hp : Part.params ∉ L)
    (ho : t.mdm.link = .offered → s.mdm.link = .offered) : Stands s t :=
  ⟨(d.frame .credits hc).1, d.frame .params hp, ho⟩

/-- An operation outside the credits, the parameters and the modem line. -/
theorem stands_of_frame {L : List Part} {s t : State} (d : Does L s t) (hc : Part.credits ∉ L) (hp : Part.params ∉ L)
    (hm : Part.mdm ∉ L) : Stands s t :=
  stands_of_does d hc hp fun o => by rwa [← show t.mdm = s.mdm from d.frame .mdm hm]

theorem elapse_stands (n : Nat) (s : State) : Stands s (elapse n s) :=
  stands_of_frame (elapse_does n s) (by decide) (by decide) (by decide)

theorem atCycle_stands {d : Nat} {f : State → State} {s : State} (hf : ∀ t, Stands t (f t)) : Stands s (atCycle d f s) := by
  unfold atCycle
  split
  · exact Stands.refl s
  next u h =>
    unfold reach at h
    split at h
    · injection h with h
      rw [← h]
      exact hf s
    · split at h
      · injection h with h
        rw [← h]
        exact (elapse_stands _ s).trans (hf _)
      · cases h

theorem takeFailure_stands (s : State) : Stands s (takeFailure s) := by
  refine stands_of_does (takeFailure_does s) (by decide) (by decide) fun o => ?_
  rcases (takeFailure_idle s).2 with k | k
  · rw [k] at o; cases o
  · rw [k] at o; cases o

theorem unexpectedFrame_stands (s : State) : Stands s (unexpectedFrame s) := ⟨rfl, rfl, id⟩

theorem takeReady_stands (s : State) : Stands s (takeReady s) := by
  unfold takeReady
  split
  · exact ⟨rfl, rfl, nofun⟩
  · exact ⟨rfl, rfl, nofun⟩
  · exact takeFailure_stands s
  · exact takeFailure_stands s
  · exact unexpectedFrame_stands s

theorem takeBusy_stands (tag : Byte) (s : State) : Stands s (takeBusy tag s) := by
  refine stands_of_does (takeBusy_does tag s) (by decide) (by decide) ?_
  unfold takeBusy
  split
  · exact nofun
  · exact id

theorem takeSent_stands (tag : Byte) (s : State) : Stands s (takeSent tag s) := by
  unfold takeSent
  split
  · have d := setModemFault_does false { alertSent s with mdm := { (alertSent s).mdm with fails := 0 } }
    exact ⟨(d.frame .credits (by decide)).1, d.frame .params (by decide), nofun⟩
  · exact unexpectedFrame_stands s

theorem takeFailed_stands (tag : Byte) (s : State) : Stands s (takeFailed tag s) := by
  unfold takeFailed
  split
  · exact takeFailure_stands s
  · exact unexpectedFrame_stands s

/-- TAKE spends the one credit that the offer left room for. -/
theorem takeTake_fit (tag : Byte) {s : State} (h : s.creditsFit) : (takeTake tag s).creditsFit := by
  unfold takeTake
  split
  next k =>
    obtain ⟨low, high, offer⟩ := h
    have room := offer k.1
    refine ⟨?_, ?_, nofun⟩
    · show -3 ≤ s.box.credits - 1
      omega
    · show s.box.credits - 1 ≤ s.creditCap
      omega
  next => exact (unexpectedFrame_stands s).fit h

theorem takeModemFrame_fit (l : List Byte) {s : State} (h : s.creditsFit) : (takeModemFrame l s).creditsFit := by
  have bad : (badFrame s).creditsFit := Stands.fit ⟨rfl, rfl, id⟩ h
  unfold takeModemFrame
  dsimp only
  split
  · exact bad
  · split
    · exact (takeReady_stands s).fit h
    · split
      · exact bad
      · split
        · exact takeTake_fit _ h
        · split
          · exact (takeBusy_stands _ s).fit h
          · split
            · exact (takeSent_stands _ s).fit h
            · split
              · exact (takeFailed_stands _ s).fit h
              · exact bad

theorem abandonModemFrame_stands (s : State) : Stands s (abandonModemFrame s) := by
  unfold abandonModemFrame
  split
  · exact Stands.refl s
  · exact ⟨rfl, rfl, id⟩

theorem modemSilence_stands (s : State) : Stands s (modemSilence s) := by
  unfold modemSilence
  split
  · exact abandonModemFrame_stands s
  · exact Stands.refl s

theorem modemByte_fit (b : Byte) {s : State} (h : s.creditsFit) : (modemByte b s).creditsFit := by
  unfold modemByte
  dsimp only
  split
  · exact h
  · split
    · exact (abandonModemFrame_stands _).fit h
    · split
      · exact takeModemFrame_fit _ h
      · exact h

theorem modemBytes_fit (l : List Byte) {s : State} (h : s.creditsFit) : (l.foldl (fun s b => modemByte b s) s).creditsFit := by
  induction l generalizing s with
  | nil => exact h
  | cons b l ih => exact ih (modemByte_fit b h)

theorem goodFrame_fit (dt : Nat) (f : State → State) {s : State} (hf : ∀ t : State, t.creditsFit → (f t).creditsFit)
    (h : s.creditsFit) : (goodFrame dt f s).creditsFit := by
  unfold goodFrame
  exact hf _ (((elapse_stands dt s).trans (modemSilence_stands _)).fit h)

/-- An offer is made only where a credit above −3 stands behind it (R122). -/
theorem firstEligible_credits {s : State} {a : Alert} (h : s.firstEligible = some a) : -3 < s.box.credits := by
  have e := List.find?_some h
  simp only [State.eligible, Bool.and_eq_true] at e
  obtain ⟨-, credits⟩ := e
  split at credits
  · exact of_decide_eq_true credits
  · have := of_decide_eq_true credits
    omega

theorem offer_fit {s t : State} (h : s.creditsFit) (e : execOffer s = .next t) : t.creditsFit := by
  refine act_keeps e h ?_
  split
  next a link first =>
    have room : -3 < s.box.credits := firstEligible_credits first
    exact ⟨h.1, h.2.1, fun _ => room⟩
  next => exact h

/-- SHED and RUN, and a change of class: the modem line can only go OFF. -/
theorem handShed_stands (s : State) : Stands s (handShed s) := by
  refine stands_of_does (handShed_does s) (by decide) (by decide) fun o => ?_
  unfold handShed at o
  rw [show (heaterFollow _).mdm = _ from (heaterFollow_does _).frame .mdm (by decide)] at o
  unfold modemShed at o
  dsimp only at o
  split at o
  · cases o
  · cases o

theorem handRun_stands (s : State) : Stands s (handRun s) :=
  stands_of_frame (handRun_does s) (by decide) (by decide) (by decide)

theorem handOver_stands (c : BatClass) (p : PowerState) (s : State) : Stands s (handOver c p s) := by
  have r : Stands s (reportClass s) := stands_of_frame (reportClass_does s) (by decide) (by decide) (by decide)
  unfold handOver
  dsimp only
  split
  · split
    · exact r.trans (handShed_stands _)
    · exact r.trans (handRun_stands _)
  · split
    · exact r.trans (stands_of_frame (handClass_does _) (by decide) (by decide) (by decide))
    · exact r

theorem powerReading_stands (r : Reading) (s : State) : Stands s (powerReading r s) := by
  unfold powerReading batteryReading
  refine Stands.trans ?_ (stands_of_frame (heaterReading_does _) (by decide) (by decide) (by decide))
  refine Stands.trans ?_ (handOver_stands _ _ _)
  refine Stands.trans ?_ (stands_of_frame (classStep_does _) (by decide) (by decide) (by decide))
  refine Stands.trans ?_ (stands_of_frame (chargeReading_does _) (by decide) (by decide) (by decide))
  refine Stands.trans ?_ (stands_of_frame (coulombStep_does _) (by decide) (by decide) (by decide))
  exact stands_of_frame (takeReading_does r s) (by decide) (by decide) (by decide)

theorem clampCredits_fit {s : State} (low : -3 ≤ s.box.credits) (offer : s.mdm.link = .offered → -3 < s.box.credits) :
    (clampCredits s).creditsFit := by
  refine ⟨?_, ?_, fun o => ?_⟩
  · show -3 ≤ min s.box.credits s.creditCap
    omega
  · show min s.box.credits s.creditCap ≤ s.creditCap
    omega
  · show -3 < min s.box.credits s.creditCap
    have := offer o
    omega

theorem refillCredits_fit {s : State} (h : s.creditsFit) : (refillCredits s).creditsFit := by
  obtain ⟨low, high, offer⟩ := h
  refine ⟨?_, ?_, fun o => ?_⟩
  · show -3 ≤ min (s.box.credits + s.refill) s.creditCap
    omega
  · show min (s.box.credits + s.refill) s.creditCap ≤ s.creditCap
    omega
  · show -3 < min (s.box.credits + s.refill) s.creditCap
    have := offer o
    omega

theorem statusChange_stands (c : CondId) (v : Bool) (s : State) : Stands s (statusChange c v s) :=
  stands_of_frame (statusChange_does c v s) (by decide) (by decide) (by decide)

/-- The reports of an interval boundary (R192). -/
theorem intervalReports_stands (s : State) :
    Stands s (statusChange 17 false (statusChange 16 false (judgeErrors 1 (judgeErrors 0 s)))) :=
  (((statusChange_stands _ _ s).trans (statusChange_stands _ _ _)).trans (statusChange_stands _ _ _)).trans
    (statusChange_stands _ _ _)

theorem intervalBoundary_fit {s : State} (h : s.creditsFit) : (intervalBoundary s).creditsFit := by
  have begun : ({ s with mon := { s.mon with figs := {}, number := s.intervalNumber, start := s.clk.s } } : State).creditsFit := h
  unfold intervalBoundary
  dsimp only
  generalize ({ s with mon := { s.mon with figs := {}, number := s.intervalNumber, start := s.clk.s } } : State) = u at *
  have refilled := refillCredits_fit ((intervalReports_stands u).fit begun)
  generalize refillCredits _ = v at *
  exact refilled

theorem intervalTest_fit {s : State} (h : s.creditsFit) : (intervalTest s).creditsFit := by
  unfold intervalTest
  split
  · exact intervalBoundary_fit h
  · exact h

theorem secondBoundary_fit (r : Reading) {s : State} (h : s.creditsFit) : (secondBoundary r s).creditsFit := by
  have clock : Stands s (clockBoundary s) := stands_of_frame (clockBoundary_does s) (by decide) (by decide) (by decide)
  have interval := intervalTest_fit (clock.fit h)
  unfold secondBoundary
  refine (stands_of_frame (beginSecond_does _) (by decide) (by decide) (by decide)).fit ?_
  refine (stands_of_frame (calBoundary_does _) (by decide) (by decide) (by decide)).fit ?_
  refine (stands_of_frame (pendingMapTest_does _) (by decide) (by decide) (by decide)).fit ?_
  refine (stands_of_frame (pendingRate_does _) (by decide) (by decide) (by decide)).fit ?_
  refine (stands_of_frame (endDue_does _) (by decide) (by decide) (by decide)).fit ?_
  refine (powerReading_stands r _).fit ?_
  exact (stands_of_frame (passNotBefores_does _) (by decide) (by decide) (by decide)).fit interval

/-- NOTE_SEND enters a note and spends no credit. -/
theorem serveNoteSend_stands (q : Request) (s : State) : Stands s (serveNoteSend q s).2 := by
  unfold serveNoteSend
  split
  · exact Stands.refl s
  · have d := place_does (newAlert .note 3 s.box.note q.stamp (.note q.body)) s rfl
    exact Stands.trans (stands_of_frame d (by decide) (by decide) (by decide)) ⟨rfl, rfl, id⟩

/-- What a stored parameter sets off leaves the credits and the link, but for the cap's own row. -/
theorem paramAction_stands {n : Nat} (hn : n ≠ 62) (old s : State) : Stands s (paramAction n old s) := by
  have mdm : (paramAction n old s).mdm = s.mdm := (paramAction_does n old s).frame .mdm (by decide)
  have params : (paramAction n old s).params = s.params := (paramAction_does n old s).frame .params (by decide)
  refine ⟨?_, params, fun o => by rwa [mdm] at o⟩
  unfold paramAction
  have keep {L : List Part} {u t : State} (d : Does L s t) (hc : Part.credits ∉ L)
      (k : u.box.credits = s.box.credits) (c : Prop) [Decidable c] : (if c then t else u).box.credits = s.box.credits := by
    split
    · exact (d.frame .credits hc).1
    · exact k
  rw [if_neg hn]
  refine keep (reportClock_does s) (by decide) ?_ _
  refine keep (clearInput_does _ s) (by decide) ?_ _
  refine keep (clearInput_does _ s) (by decide) ?_ _
  refine keep (clearInput_does _ s) (by decide) ?_ _
  refine keep (storeRate_does _ s) (by decide) ?_ _
  refine keep (evalSupply_does _ s) (by decide) ?_ _
  refine keep (evalSupply_does _ s) (by decide) ?_ _
  refine keep (judgeErrors_does _ s) (by decide) ?_ _
  refine keep (judgeErrors_does _ s) (by decide) ?_ _
  refine keep (eventWakeEval_does s) (by decide) ?_ _
  refine keep (clampCharge_does s) (by decide) ?_ _
  refine keep (chargeTempTest_does s) (by decide) ?_ _
  refine keep (heaterFollow_does s) (by decide) ?_ _
  refine keep (relimit_does s) (by decide) ?_ _
  refine keep (Does.after (L := [.box, .mon, .htr, .bat]) (judgeBudget_does s) (relimit_does _) (by decide) (by decide))
    (by decide) ?_ _
  refine keep (wakeEval_does s) (by decide) ?_ _
  refine keep (degradedEval_does s) (by decide) ?_ _
  exact keep (newInterval_does _ s) (by decide) rfl _

/-- A parameter stored: the cap's own row clamps the credits at once, every other leaves the cap. -/
theorem paramStored_fit (n : Nat) (x : Int) (old : State) {s : State} (h : s.creditsFit) :
    (paramAction n old (setParam n x s)).creditsFit := by
  by_cases hn : n = 62
  · subst hn
    obtain ⟨low, -, offer⟩ := h
    exact clampCredits_fit low offer
  · refine (paramAction_stands hn old _).fit ?_
    have cap : (setParam n x s).creditCap = s.creditCap := congrArg Int.toNat (setParam_param n 62 x s (Ne.symm hn))
    unfold State.creditsFit
    rw [cap]
    exact h

theorem writeParam_fit (n : Nat) (x : Int) (ev : Bool) {s : State} (h : s.creditsFit) :
    (writeParam n x ev s).2.creditsFit := by
  unfold writeParam
  split
  · exact h
  · split
    · exact h
    · exact paramStored_fit _ _ _ (s := { s with moment := {} }) h

/-- Up to the outbox's own work RESTART leaves the credits. -/
theorem restartUntilOutbox_credits (s : State) :
    (evalSupplies (restartTrigger (restartRings s.store.load.map (restartScheduler (restartPort 1 (restartPort 0
      (restartEvents (restartMarks (restartClock (restartLoad s.store.load s)))))))))).box.credits = s.box.credits := by
  have keep {L : List Part} {u t : State} (d : Does L u t) (h : Part.credits ∉ L) : t.box.credits = u.box.credits :=
    (d.frame .credits h).1
  rw [keep (evalSupplies_does _) (by decide), keep (restartTrigger_does _) (by decide),
    keep (restartRings_does _ _) (by decide), keep (restartScheduler_does _) (by decide),
    keep (restartPort_does 1 _) (by decide), keep (restartPort_does 0 _) (by decide),
    keep (restartEvents_does _) (by decide), keep (restartMarks_does _) (by decide), keep (restartClock_does _) (by decide)]
  rfl

/-- RESTART clamps the credits to the reloaded cap and switches the modem off. -/
theorem restartWork_fit {s : State} (h : s.creditsFit) : (restartWork s).creditsFit := by
  obtain ⟨low, -, -⟩ := h
  have k := restartUntilOutbox_credits s
  unfold restartWork
  dsimp only
  generalize evalSupplies _ = u at *
  have box : (outboxRestart u).creditsFit := clampCredits_fit (by rw [← k] at low; exact low) nofun
  have a : Stands (outboxRestart u) (restartPower (outboxRestart u)) :=
    stands_of_frame (restartPower_does _) (by decide) (by decide) (by decide)
  have b : Stands (outboxRestart u) (restartMonitor s.intervalLen (restartPower (outboxRestart u))) :=
    a.trans (stands_of_frame (restartMonitor_does _ _) (by decide) (by decide) (by decide))
  exact Stands.fit (s := restartMonitor s.intervalLen (restartPower (outboxRestart u))) ⟨rfl, rfl, id⟩ (b.fit box)

theorem finish_stands (r : List Byte) (s : State) : Stands s (finish r s) :=
  stands_of_frame (finish_does r s) (by decide) (by decide) (by decide)

theorem restart_fit {s t : State} (h : s.creditsFit) (e : execRestart s = .next t) : t.creditsFit := by
  refine act_keeps e h (serve_keeps _ _ (fun r t => (finish_stands r t).fit) h fun q => ?_)
  dsimp only
  split
  · exact restartWork_fit h
  · exact h

theorem restartExecute_fit (dt : Nat) {s t : State} (h : s.creditsFit) (e : execRestartExecute dt s = .next t) :
    t.creditsFit := by
  refine act_keeps e h ?_
  split
  · have k := restartWork_fit ((elapse_stands dt s).fit h)
    generalize restartWork (elapse dt s) = u at *
    exact (stands_of_frame (takeLine_does _) (by decide) (by decide) (by decide)).fit k
  · exact h

theorem shedEntry_fit {s t : State} (h : s.creditsFit) (e : execShedEntry s = .next t) : t.creditsFit := by
  refine act_keeps e h ?_
  split
  · exact (handShed_stands _).fit h
  · exact h

/-- After POWER_ON the credits stand at their cap and the modem is off. -/
theorem powerOn_fit (r : Reading) (s : State) : (powerOn r s).creditsFit := by
  have f := powerOn_lined r s
  have credits : (powerOn r s).box.credits = (lined r s).creditCap := congrArg Outbox.credits (f .box (by decide))
  have cap : (powerOn r s).creditCap = (lined r s).creditCap := creditCap_congr (f .params (by decide))
  refine ⟨?_, ?_, fun o => ?_⟩
  · omega
  · omega
  · rw [(powerOn_idle r s).2] at o
    cases o

/-- A timer whose end makes no offer and leaves the credits. -/
theorem timer_fit {c : Prop} [Decidable c] {d : Nat} {f : State → State} {s : State} (hf : ∀ t, Stands t (f t))
    (h : s.creditsFit) : (if c then atCycle d f s else s).creditsFit := by
  split
  · exact (atCycle_stands hf).fit h
  · exact h

theorem setModemFault_stands (v : Bool) (s : State) : Stands s (setModemFault v s) :=
  Stands.trans (t := { s with mdm := { s.mdm with fault := v } }) ⟨rfl, rfl, id⟩ (statusChange_stands 15 v _)

theorem startTimedOut_stands (s : State) : Stands s (startTimedOut s) := by
  have k := setModemFault_stands true { s with mdm := { s.mdm with startTimeouts := inc16 s.mdm.startTimeouts } }
  unfold startTimedOut
  generalize setModemFault _ _ = u at *
  exact ⟨k.credits, k.params, nofun⟩

theorem holdExpired_stands (s : State) : Stands s (if s.firstEligible.isSome then s else modemOff s) := by
  split
  · exact Stands.refl s
  · exact ⟨rfl, rfl, nofun⟩

theorem modemStart_fit {s t : State} (h : s.creditsFit) (e : execModemStart s = .next t) : t.creditsFit := by
  refine act_keeps e h ?_
  split
  · exact Stands.fit (s := s) ⟨rfl, rfl, nofun⟩ h
  · exact h

theorem modemFrameTimeout_fit {s t : State} (h : s.creditsFit) (e : execModemFrameTimeout s = .next t) : t.creditsFit := by
  refine act_keeps e h ?_
  split
  · exact h
  · exact (atCycle_stands abandonModemFrame_stands).fit h

theorem intervalBoundaryCommand_fit {s t : State} (h : s.creditsFit) (e : execIntervalBoundary s = .next t) :
    t.creditsFit := by
  refine act_keeps e h ?_
  split
  · exact intervalTest_fit h
  · exact h

/-- Every command keeps the credits within their bounds: the few that spend, refill or clamp them, change the cap or make
an offer by their own lemmas, every other because it changes none of the three. -/
theorem exec_creditsFit {c : Instr} {s t : State} (h : s.creditsFit) (e : exec c s = .next t) : t.creditsFit := by
  rcases exec_cases e with ⟨r, rfl, rfl⟩ | ⟨on, d⟩
  · exact powerOn_fit r s
  · cases c
    case powerOn r => exact absurd rfl (on r)
    case secondBoundary r => exact act_keeps (f := secondBoundary r) e h (secondBoundary_fit r h)
    case shedEntry => exact shedEntry_fit h e
    case shedExit =>
      refine act_keeps (f := fun s => if s.bat.power == .shed && decide (60 ≤ s.bat.reconnect) then
        handRun { s with bat := s.bat.resume } else s) e h ?_
      split
      · exact (handRun_stands _).fit h
      · exact h
    case modemStart => exact modemStart_fit h e
    case modemStartTimeout => exact act_keeps (f := _) e h (timer_fit startTimedOut_stands h)
    case modemReady dt =>
      exact act_keeps (f := goodFrame dt takeReady) e h (goodFrame_fit dt _ (fun t => (takeReady_stands t).fit) h)
    case offer => exact offer_fit h e
    case modemHoldExpiry => exact act_keeps (f := _) e h (timer_fit holdExpired_stands h)
    case take dt tag => exact act_keeps (f := goodFrame dt (takeTake tag)) e h (goodFrame_fit dt _ (fun _ => takeTake_fit tag) h)
    case modemBusy dt tag =>
      exact act_keeps (f := goodFrame dt (takeBusy tag)) e h (goodFrame_fit dt _ (fun t => (takeBusy_stands tag t).fit) h)
    case offerTimeout => exact act_keeps (f := _) e h (timer_fit takeFailure_stands h)
    case sent dt tag =>
      exact act_keeps (f := goodFrame dt (takeSent tag)) e h (goodFrame_fit dt _ (fun t => (takeSent_stands tag t).fit) h)
    case failed dt tag =>
      exact act_keeps (f := goodFrame dt (takeFailed tag)) e h (goodFrame_fit dt _ (fun t => (takeFailed_stands tag t).fit) h)
    case sendTimeout => exact act_keeps (f := _) e h (timer_fit takeFailure_stands h)
    case backoffExpiry => exact act_keeps (f := _) e h (timer_fit (fun _ => ⟨rfl, rfl, nofun⟩) h)
    case modemBadFrame dt bytes =>
      exact act_keeps (f := fun s => bytes.foldl (fun s b => modemByte b s) (modemSilence (elapse dt s))) e h
        (modemBytes_fit bytes (((elapse_stands dt s).trans (modemSilence_stands _)).fit h))
    case modemFrameTimeout => exact modemFrameTimeout_fit h e
    case modemFramingError dt =>
      exact act_keeps (f := fun s => abandonModemFrame (elapse dt s)) e h
        (((elapse_stands dt s).trans (abandonModemFrame_stands _)).fit h)
    case intervalBoundary => exact intervalBoundaryCommand_fit h e
    case paramSet =>
      exact act_keeps (f := _) e h
        (serve_keeps _ _ (fun r t => (finish_stands r t).fit) h fun q => writeParam_fit _ _ _ h)
    case noteSend =>
      exact act_keeps (f := _) e h
        (serve_keeps _ _ (fun r t => (finish_stands r t).fit) h fun q => (serveNoteSend_stands q s).fit h)
    case restart => exact restart_fit h e
    case restartExecute dt => exact restartExecute_fit dt h e
    case inputEdge dt i =>
      cases i <;> exact (stands_of_frame d (by simp [touches]) (by simp [touches]) (by simp [touches])).fit h
    case inputLevelReturn dt i =>
      cases i <;> exact (stands_of_frame d (by simp [touches]) (by simp [touches]) (by simp [touches])).fit h
    case edgeQualified i =>
      cases i <;> exact (stands_of_frame d (by simp [touches]) (by simp [touches]) (by simp [touches])).fit h
    all_goals exact (stands_of_frame d (by simp [touches]) (by simp [touches]) (by simp [touches])).fit h

/-- Settles O28: a step idles or runs a command, which keeps the bounds. -/
theorem creditsStayBounded : Obligations.CreditsStayBounded := by
  intro s t hs h
  rcases step_cases h with rfl | ⟨c, rest, e⟩
  · exact hs
  · exact exec_creditsFit (s := { s with pending := rest }) hs e

end Sys2Proof.Proofs
end

