-- ==== Sys2Proof/Proofs/Frames.lean ====
section
/-! PROOFS. The frame of a `Does` read field by field: what lies outside its parts is what it was. -/
namespace Sys2Proof.Proofs

open Sys2Proof Sys2Proof.Machine Sys2Proof.Laws

section
variable {L : List Part} {s t : State} (d : Does L s t)
include d

theorem clk_of (h : Part.clk ∉ L) : t.clk = s.clk := d.frame .clk h
theorem mrk_of (h : Part.mrk ∉ L) : t.mrk = s.mrk := d.frame .mrk h
theorem sch_of (h : Part.sch ∉ L) : t.sch = s.sch := d.frame .sch h
theorem prt_of (h : Part.prt ∉ L) : t.prt = s.prt := d.frame .prt h
theorem map_of (h : Machine.Part.map ∉ L) : t.map = s.map := d.frame .map h
theorem pendingMap_of (h : Part.pendingMap ∉ L) : t.pendingMap = s.pendingMap := d.frame .pendingMap h
theorem rings_of (h : Part.rings ∉ L) : t.rings = s.rings := d.frame .rings h
theorem chn_of (h : Part.chn ∉ L) : t.chn = s.chn := d.frame .chn h
theorem evt_of (h : Part.evt ∉ L) : t.evt = s.evt := d.frame .evt h
theorem box_of (h : Part.box ∉ L) : t.box = s.box := d.frame .box h
theorem mdm_of (h : Part.mdm ∉ L) : t.mdm = s.mdm := d.frame .mdm h
theorem pwr_of (h : Part.pwr ∉ L) : t.pwr = s.pwr := d.frame .pwr h
theorem bat_of (h : Part.bat ∉ L) : t.bat = s.bat := d.frame .bat h
theorem htr_of (h : Part.htr ∉ L) : t.htr = s.htr := d.frame .htr h
theorem mon_of (h : Part.mon ∉ L) : t.mon = s.mon := d.frame .mon h
theorem bus_of (h : Part.bus ∉ L) : t.bus = s.bus := d.frame .bus h
theorem params_of (h : Part.params ∉ L) : t.params = s.params := d.frame .params h
theorem store_of (h : Part.store ∉ L) : t.store = s.store := d.frame .store h
theorem powered_of (h : Part.powered ∉ L) : t.powered = s.powered := d.frame .powered h
theorem osc_of (h : Part.osc ∉ L) : t.osc = s.osc := d.frame .osc h
theorem moment_of (h : Part.moment ∉ L) : t.moment = s.moment := d.frame .moment h
theorem free_of (h : Part.free ∉ L) : t.free = s.free := d.frame .free h

end

end Sys2Proof.Proofs
end

