-- ==== Sys2Proof/Proofs/BatteryReadings.lean ====
section
/-! PROOFS. The reading and the battery (7.1, 7.2, 7.4): what a second boundary holds of its reading, the runs of the power
state, the charge count with its empty sync, and from these the settling of O13, O14 and O15. -/
namespace Sys2Proof.Proofs

open Sys2Proof Sys2Proof.Machine Sys2Proof.Laws

/-! ### A second boundary around its reading -/

/-- What a second boundary can change after its class step. -/
abbrev afterClassParts : List Part :=
  [.clk, .supplyView, .box, .flight, .mon, .evt, .event, .htr, .bat, .sch, .strobes, .moment, .chn, .rings, .prt, .mdm, .map,
    .pendingMap]

theorem afterClass_does (r : Reading) (s : State) :
    Does afterClassParts (classStep (charged r s)) (secondBoundary r s) := by
  obtain ⟨c, p, e⟩ := secondBoundary_eq r s
  rw [e]
  refine Does.trans ?_ (Does.mono (beginSecond_does _) (by decide))
  refine Does.trans ?_ (Does.mono (calBoundary_does _) (by decide))
  refine Does.trans ?_ (Does.mono (pendingMapTest_does _) (by decide))
  refine Does.trans ?_ (Does.mono (pendingRate_does _) (by decide))
  refine Does.trans ?_ (Does.mono (endDue_does _) (by decide))
  refine Does.trans ?_ (Does.mono (heaterReading_does _) (by decide))
  exact Does.mono (handOver_does c p _) (by decide)

theorem takeReading_pwr (r : Reading) (s : State) : (takeReading r s).pwr = s.pwr.take r :=
  (statusChange_does 14 _ _).frame .pwr (by decide)

theorem charged_pwr (r : Reading) (s : State) : (charged r s).pwr = s.pwr.take r := by
  have before : Does [.clk, .time, .supplyView, .osc, .moment, .box, .credits, .mon, .interval] s
      (passNotBefores (intervalTest (clockBoundary s))) := by
    refine Does.trans ?_ (Does.mono (passNotBefores_does _) (by decide))
    refine Does.trans ?_ (Does.mono (intervalTest_does _) (by decide))
    exact Does.mono (clockBoundary_does s) (by decide)
  have pwr : (passNotBefores (intervalTest (clockBoundary s))).pwr = s.pwr := before.frame .pwr (by decide)
  unfold charged
  rw [pwr_of (chargeReading_does _) (by decide), pwr_of (coulombStep_does _) (by decide), takeReading_pwr, pwr]

theorem charged_params (r : Reading) (s : State) : (charged r s).params = s.params :=
  (charged_does r s).frame .params (by decide)

/-! ### The reading held (R137) -/

theorem secondBoundary_pwr (r : Reading) (s : State) : (secondBoundary r s).pwr = s.pwr.take r := by
  have step : (classStep (charged r s)).pwr = (charged r s).pwr := pwr_of (classStep_does _) (by decide)
  rw [pwr_of (afterClass_does r s) (by decide), step, charged_pwr]

theorem tempValid_iff (mv : Nat) : tempValid mv = true ↔ 50 ≤ mv ∧ mv ≤ 1850 := by
  simp [tempValid]

/-- Settles O14: the monitor holds `Power.take` of the reading. -/
theorem readingIsHeld : Obligations.ReadingIsHeld := by
  intro r s powered
  refine ⟨_, exec_secondBoundary r powered, ?_⟩
  rw [secondBoundary_pwr]
  have held (mv : Nat) (x : Int) : (if tempValid mv = true then tempOf mv else x) =
      if 50 ≤ mv ∧ mv ≤ 1850 then (mv : Int) - 600 else x := by
    simp only [tempValid_iff, tempOf]
  exact ⟨rfl, rfl, rfl, decide_eq_true_iff, tempValid_iff _, tempValid_iff _, held _ _, held _ _⟩

/-! ### The runs of the power state (R143, R144) -/

theorem vCutoff_of_params {s t : State} (h : t.params = s.params) : t.vCutoff = s.vCutoff :=
  congrArg Int.toNat (param_of_params h 76)

theorem vReconnect_of_params {s t : State} (h : t.params = s.params) : t.vReconnect = s.vReconnect :=
  congrArg Int.toNat (param_of_params h 77)

/-- The cutoff run of a reading in RUN. -/
theorem powerRuns_run {s : State} (h : s.bat.power = .run) :
    let n := if s.pwr.vb < s.vCutoff then min (s.bat.cutoff + 1) 10 else 0
    if 10 ≤ n then (powerRuns s).power = .shed ∧ (powerRuns s).cutoff = 0 ∧ (powerRuns s).reconnect = 0
        ∧ (powerRuns s).sheds = inc16 s.bat.sheds
      else (powerRuns s).power = .run ∧ (powerRuns s).cutoff = n ∧ (powerRuns s).sheds = s.bat.sheds := by
  intro n
  have e : powerRuns s = if 10 ≤ n then Battery.shed { s.bat with cutoff := n } else { s.bat with cutoff := n } := by
    unfold powerRuns
    rw [h]
  rw [e]
  by_cases full : 10 ≤ n
  · rw [if_pos full, if_pos full]
    exact ⟨rfl, rfl, rfl, rfl⟩
  · rw [if_neg full, if_neg full]
    exact ⟨h, rfl, rfl⟩

/-- The reconnect run of a reading in SHED. -/
theorem powerRuns_shed {s : State} (h : s.bat.power = .shed) :
    let n := if max s.vReconnect (s.vCutoff + 100) ≤ s.pwr.vb then min (s.bat.reconnect + 1) 60 else 0
    if 60 ≤ n then (powerRuns s).power = .run ∧ (powerRuns s).cutoff = 0 ∧ (powerRuns s).reconnect = 0
        ∧ (powerRuns s).sheds = s.bat.sheds
      else (powerRuns s).power = .shed ∧ (powerRuns s).reconnect = n ∧ (powerRuns s).cutoff = s.bat.cutoff
        ∧ (powerRuns s).sheds = s.bat.sheds := by
  intro n
  have e : powerRuns s = if 60 ≤ n then Battery.resume { s.bat with reconnect := n } else { s.bat with reconnect := n } := by
    unfold powerRuns
    rw [h]
    rfl
  rw [e]
  by_cases full : 60 ≤ n
  · rw [if_pos full, if_pos full]
    exact ⟨rfl, rfl, rfl, rfl⟩
  · rw [if_neg full, if_neg full]
    exact ⟨h, rfl, rfl, rfl⟩

/-- Settles O13: the runs are those of the class step, which reads the boundary's voltage and the runs and settings the
boundary began with; nothing after it moves them. -/
theorem powerStateFollowsItsRuns : Obligations.PowerStateFollowsItsRuns := by
  intro r s powered
  refine ⟨_, exec_secondBoundary r powered, ?_⟩
  obtain ⟨power, -, -, cutoff, reconnect, sheds⟩ := (afterClass_does r s).frame .power (by decide)
  obtain ⟨power0, -, -, cutoff0, reconnect0, sheds0⟩ := (charged_does r s).frame .power (by decide)
  have vb : (charged r s).pwr.vb = r.vb := congrArg Power.vb (charged_pwr r s)
  have params := charged_params r s
  rw [power, cutoff, reconnect, sheds]
  generalize charged r s = u at *
  have runs (h : u.bat.power = .run) := powerRuns_run h
  have sheds' (h : u.bat.power = .shed) := powerRuns_shed h
  rw [vb, vCutoff_of_params params, cutoff0, sheds0, power0] at runs
  rw [vb, vCutoff_of_params params, vReconnect_of_params params, reconnect0, cutoff0, sheds0, power0] at sheds'
  exact ⟨runs, sheds'⟩

/-! ### The charge count (R138, R139) -/

/-- R139: the voltage is below empty while current flows out. -/
def Emptying (s : State) : Prop := s.pwr.vb < s.vEmpty ∧ s.pwr.ib < 0

/-- The empty run after a reading. -/
def emptyRun (s : State) : Nat := if s.pwr.vb < s.vEmpty ∧ s.pwr.ib < 0 then min (s.bat.empty + 1) 60 else 0

/-- The battery after the current of a reading, before an empty sync. -/
def counted (s : State) : Battery :=
  { s.bat with
    q := chargeCount s.bat.q s.full s.pwr.ib s.chargeEff
    empty := emptyRun s
    emptyCounted := (decide (s.pwr.vb < s.vEmpty) && decide (s.pwr.ib < 0)) && s.bat.emptyCounted }

theorem coulombStep_eq (s : State) : coulombStep s = emptySyncDue { s with bat := counted s } := by
  have run : (if (decide (s.pwr.vb < s.vEmpty) && decide (s.pwr.ib < 0)) = true then min (s.bat.empty + 1) 60 else 0)
      = emptyRun s := by
    simp only [Bool.and_eq_true, decide_eq_true_iff]
    rfl
  unfold coulombStep counted
  dsimp only
  rw [run]

/-- An empty run that has not reached 60 is no sync. -/
theorem emptySyncDue_short {s : State} (h : s.bat.empty < 60) : emptySyncDue s = s :=
  if_neg (by omega)

/-- An empty run at 60 lowers Q, and counts where its run has not been counted. -/
theorem emptySyncDue_full {s : State} (h : 60 ≤ s.bat.empty) : (emptySyncDue s).bat = { s.bat with
    q := min s.bat.q (s.capacity * 36 * 5)
    emptySyncs := if s.bat.emptyCounted = false then inc16 s.bat.emptySyncs else s.bat.emptySyncs
    emptyCounted := true } := by
  unfold emptySyncDue emptyLower
  rw [if_pos h]
  dsimp only
  cases e : s.bat.emptyCounted with
  | false => rfl
  | true =>
    simp

theorem counted_emptyCounted (s : State) : (counted s).emptyCounted = true ↔ Emptying s ∧ s.bat.emptyCounted = true := by
  simp [counted, Emptying]

theorem emptyRun_of_not {s : State} (h : ¬ Emptying s) : emptyRun s = 0 := if_neg h

theorem emptyRun_of {s : State} (h : Emptying s) : emptyRun s = min (s.bat.empty + 1) 60 := if_pos h

/-- A run stands at 60 only while the battery empties. -/
theorem emptying_of_run {s : State} (h : 60 ≤ emptyRun s) : Emptying s := by
  by_contra k
  rw [emptyRun_of_not k] at h
  omega

/-- The battery after the charge count, by the run's length. -/
theorem coulombStep_short {s : State} (h : emptyRun s < 60) : (coulombStep s).bat = counted s := by
  rw [coulombStep_eq, emptySyncDue_short (s := { s with bat := counted s }) h]

theorem coulombStep_full {s : State} (h : 60 ≤ emptyRun s) : (coulombStep s).bat = { counted s with
    q := min (counted s).q (s.capacity * 36 * 5)
    emptySyncs := if (counted s).emptyCounted = false then inc16 s.bat.emptySyncs else s.bat.emptySyncs
    emptyCounted := true } := by
  rw [coulombStep_eq, emptySyncDue_full (s := { s with bat := counted s }) h]
  rfl

theorem coulombStep_empty (s : State) : (coulombStep s).bat.empty = emptyRun s := by
  rcases Nat.lt_or_ge (emptyRun s) 60 with h | h
  · rw [coulombStep_short h]; rfl
  · rw [coulombStep_full h]; rfl

theorem coulombStep_q (s : State) : (coulombStep s).bat.q =
    if 60 ≤ emptyRun s then min (counted s).q (s.capacity * 36 * 5) else (counted s).q := by
  rcases Nat.lt_or_ge (emptyRun s) 60 with h | h
  · rw [coulombStep_short h, if_neg (by omega)]
  · rw [coulombStep_full h, if_pos h]

theorem coulombStep_emptySyncs (s : State) : (coulombStep s).bat.emptySyncs =
    if 60 ≤ emptyRun s ∧ s.bat.emptyCounted = false then inc16 s.bat.emptySyncs else s.bat.emptySyncs := by
  rcases Nat.lt_or_ge (emptyRun s) 60 with h | h
  · rw [coulombStep_short h, if_neg (by omega)]
    rfl
  · have same : (counted s).emptyCounted = s.bat.emptyCounted := by
      rw [Bool.eq_iff_iff, counted_emptyCounted]
      exact and_iff_right (emptying_of_run h)
    rw [coulombStep_full h]
    simp only [same, h, true_and]

theorem coulombStep_emptyCounted (s : State) :
    (coulombStep s).bat.emptyCounted = true ↔ 60 ≤ emptyRun s ∨ Emptying s ∧ s.bat.emptyCounted = true := by
  rcases Nat.lt_or_ge (emptyRun s) 60 with h | h
  · rw [coulombStep_short h, counted_emptyCounted]
    simp [Nat.not_le.mpr h]
  · rw [coulombStep_full h]
    simp [h]

/-- Where the mark follows the run before the reading, it follows the run after it. -/
theorem emptyCounted_iff_run {s : State} (inv : s.bat.emptyCounted = true ↔ s.bat.empty = 60) :
    (coulombStep s).bat.emptyCounted = true ↔ emptyRun s = 60 := by
  rw [coulombStep_emptyCounted, inv]
  by_cases low : Emptying s
  · rw [emptyRun_of low]
    simp only [low, true_and]
    omega
  · rw [emptyRun_of_not low]
    simp [low]

/-- Settles O15: the charge count field by field; SOC is the class step's. -/
theorem chargeCountFollowsTheCurrent : Obligations.ChargeCountFollowsTheCurrent := by
  refine ⟨fun s => ⟨coulombStep_empty s, coulombStep_q s, coulombStep_emptySyncs s, coulombStep_emptyCounted s, ?_, ?_⟩,
    fun s => ⟨classStep_soc s, classStep_q s⟩⟩
  · intro low
    rw [← Bool.not_eq_true, coulombStep_emptyCounted, emptyRun_of_not low]
    rintro (h | h)
    · omega
    · exact low h.1
  · intro inv
    refine ⟨?_, ?_⟩
    · rw [coulombStep_empty]
      exact emptyCounted_iff_run inv
    · rw [coulombStep_emptySyncs]
      have le : emptyRun s ≤ 60 := by
        unfold emptyRun
        split <;> omega
      have counts : 60 ≤ emptyRun s ∧ s.bat.emptyCounted = false ↔ emptyRun s = 60 ∧ s.bat.empty ≠ 60 := by
        rw [← Bool.not_eq_true, inv]
        omega
      exact if_congr counts rfl rfl

end Sys2Proof.Proofs
end

