-- ==== Sys2Proof/Proofs/Charger.lean ====
section
/-! PROOFS. The charger (7.5): the commands of its timers, what each step of a reading makes of the battery, the fault, hold and
restart rules around the evaluation, and from these the settling of O16, O17 and O18. -/
namespace Sys2Proof.Proofs

open Sys2Proof Sys2Proof.Machine Sys2Proof.Laws

/-! ### The commands of the charger's timers -/

/-- Settles O16: each command's guard holds, so its own operation runs. -/
theorem chargerTimersAct : Obligations.ChargerTimersAct := by
  intro s powered
  refine ⟨fun absorb term => ?_, fun boundary absorb time term => ?_, fun float low => ?_, fun run counted => ?_,
    fun h hold boundary quiet => ?_⟩
  · have e : exec .fullSync s = execFullSync s := rfl
    rw [e, execFullSync, act_on powered, if_pos (by simp [absorb, State.termDone, term])]
    rfl
  · have e : exec .absorbTimeLimit s = execAbsorbTimeLimit s := rfl
    rw [e, execAbsorbTimeLimit, act_on powered,
      if_pos (by simp [boundary, absorb, State.absorbDone, State.termDone, time, term])]
    rfl
  · have e : exec .floatLowRecharge s = execFloatLowRecharge s := rfl
    rw [e, execFloatLowRecharge, act_on powered, if_pos (by simp [float, low])]
    rfl
  · have e : exec .emptySync s = execEmptySync s := rfl
    rw [e, execEmptySync, act_on powered, if_neg (by simp [counted]), emptySyncDue, if_pos run]
    exact congrArg Host.Outcome.next (if_neg (by simp [emptyLower, counted]))
  · have e : exec .chargeHoldExpiry s = execChargeHoldExpiry s := rfl
    rw [e, execChargeHoldExpiry, act_on powered, hold]
    exact congrArg Host.Outcome.next (if_pos (by simp [boundary, quiet]))

/-! ### Levels that end at their own cycle -/

/-- Settles O18: each command acts at its own cycle, which is reached. -/
theorem timedLevelsFollowTheirCycles : Obligations.TimedLevelsFollowTheirCycles := by
  refine ⟨fun s u powered hr => ?_, fun d s u powered hr => ⟨fun due => ?_, fun due => ?_, fun due => ?_, fun due => ?_⟩⟩
  · have e : exec .chgPwmPeriod s = execChgPwmPeriod s := rfl
    rw [e, execChgPwmPeriod, act_on powered, atCycle_of_reach hr]
    rfl
  · have e : exec .samplePulseEnd s = execSamplePulseEnd s := rfl
    rw [e, execSamplePulseEnd, act_on powered, due]
    exact congrArg Host.Outcome.next (atCycle_of_reach hr _)
  · have e : exec .chgLimitHighEnd s = execChgLimitHighEnd s := rfl
    rw [e, execChgLimitHighEnd, act_on powered, due]
    exact congrArg Host.Outcome.next (atCycle_of_reach hr _)
  · have e : exec .heatHighTimeEnd s = execHeatHighTimeEnd s := rfl
    rw [e, execHeatHighTimeEnd, act_on powered, due]
    exact congrArg Host.Outcome.next (atCycle_of_reach hr _)
  · have e : exec .calSettleExpiry s = execCalSettleExpiry s := rfl
    rw [e, execCalSettleExpiry, act_on powered, due]
    exact congrArg Host.Outcome.next (atCycle_of_reach hr _)

/-! ### The step of the limit (R150, R154) -/

/-- The limit that a step toward voltage v asks for. -/
def limitAsked (v : Nat) (s : State) : Nat := steppedLimit s.bat.limit s.pwr.vb v s.iBulk

/-- The limit while a charge hold withholds the step. -/
def limitKept (s : State) : Nat := min s.bat.limit s.iBulk

/-- The limit that a reading in ABSORB or FLOAT leaves. -/
def limitStepped (v : Nat) (s : State) : Nat := if s.bat.hold.isSome = true then limitKept s else limitAsked v s

/-- A charge hold withholds a step and has not been signalled yet. -/
def FirstWithheld (v : Nat) (s : State) : Prop :=
  s.bat.hold.isSome = true ∧ limitAsked v s ≠ limitKept s ∧ s.bat.holdFlagged = false

theorem flagRecord_bat (f : EvFlags → EvFlags) (s : State) : (flagRecord f s).bat = s.bat :=
  bat_of (flagRecord_does f s) (by decide)

theorem flagRecord_record {f : EvFlags → EvFlags} {s : State} {r : EvRecord} (h : s.evt.record = some r) :
    (flagRecord f s).evt.record = some { r with flags := f r.flags } := by
  unfold flagRecord
  rw [h]

/-- Of the battery a step of the limit changes the limit and the mark of its signal. -/
theorem chargeStep_bat (v : Nat) (s : State) :
    ∃ flagged, (chargeStep v s).bat = { s.bat with limit := limitStepped v s, holdFlagged := flagged } := by
  unfold chargeStep limitStepped
  dsimp only
  split
  · split
    · exact ⟨true, flagRecord_bat _ _⟩
    · exact ⟨s.bat.holdFlagged, rfl⟩
  · exact ⟨s.bat.holdFlagged, rfl⟩

/-- The first step withheld under a hold is signalled to the record in progress. -/
theorem chargeStep_signals {v : Nat} {s : State} {r : EvRecord} (h : FirstWithheld v s) (hr : s.evt.record = some r) :
    (chargeStep v s).bat.holdFlagged = true
    ∧ (chargeStep v s).evt.record = some { r with flags := { r.flags with heatHeld := true } } := by
  obtain ⟨held, changes, unflagged⟩ := h
  unfold chargeStep
  dsimp only
  rw [if_pos held, if_pos ⟨changes, unflagged⟩]
  exact ⟨congrArg Battery.holdFlagged (flagRecord_bat _ _), flagRecord_record hr⟩

theorem chargeStep_pwr (v : Nat) (s : State) : (chargeStep v s).pwr = s.pwr := pwr_of (chargeStep_does v s) (by decide)

theorem chargeStep_params (v : Nat) (s : State) : (chargeStep v s).params = s.params :=
  params_of (chargeStep_does v s) (by decide)

/-! ### One reading in ABSORB and in FLOAT (R150, R151) -/

theorem iBulk_of_params {s t : State} (h : t.params = s.params) : t.iBulk = s.iBulk := congrArg Int.toNat (param_of_params h 80)

theorem iTerm_of_params {s t : State} (h : t.params = s.params) : t.iTerm = s.iTerm := congrArg Int.toNat (param_of_params h 81)

theorem absorbMax_of_params {s t : State} (h : t.params = s.params) : t.absorbMax = s.absorbMax :=
  congrArg Int.toNat (param_of_params h 82)

/-- The absorb time a reading leaves. -/
def absorbTime (s : State) : Nat := min (s.bat.absorb + 1) 36000

/-- The term run a reading leaves. -/
def termRun (s : State) : Nat := if s.pwr.ib < s.iTerm then min (s.bat.term + 1) 60 else 0

/-- The float-low run a reading leaves. -/
def floatLowRun (s : State) : Nat := if s.pwr.vb + 300 < s.vFloat then min (s.bat.floatLow + 1) 60 else 0

/-- A reading in ABSORB before its two ends are tested. -/
def absorbStepped (s : State) : State := chargeStep s.vAbsorb { s with bat := { s.bat with absorb := absorbTime s } }

theorem absorbStepped_bat (s : State) : ∃ flagged, (absorbStepped s).bat =
    { s.bat with absorb := absorbTime s, limit := limitStepped s.vAbsorb s, holdFlagged := flagged } :=
  chargeStep_bat s.vAbsorb { s with bat := { s.bat with absorb := absorbTime s } }

theorem absorbStepped_pwr (s : State) : (absorbStepped s).pwr = s.pwr := chargeStep_pwr _ _

theorem absorbStepped_params (s : State) : (absorbStepped s).params = s.params := chargeStep_params _ _

/-- The same with its term run. -/
def absorbTimed (s : State) : State :=
  { absorbStepped s with bat := { (absorbStepped s).bat with term := termRun s } }

theorem absorbReading_eq (s : State) : absorbReading s =
    if 60 ≤ termRun s then fullSync (absorbTimed s)
    else if s.absorbMax * 60 ≤ absorbTime s then enterFloat (absorbTimed s) else absorbTimed s := by
  obtain ⟨flagged, bat⟩ := absorbStepped_bat s
  have run : (if (absorbStepped s).pwr.ib < (absorbStepped s).iTerm then min ((absorbStepped s).bat.term + 1) 60 else 0)
      = termRun s := by
    rw [absorbStepped_pwr, iTerm_of_params (absorbStepped_params s), bat]
    rfl
  have max : (absorbTimed s).absorbMax = s.absorbMax := absorbMax_of_params (absorbStepped_params s)
  have time : (absorbTimed s).bat.absorb = absorbTime s := by
    show (absorbStepped s).bat.absorb = _
    rw [bat]
  have unfolded : absorbReading s = if (absorbTimed s).termDone then fullSync (absorbTimed s)
      else if (absorbTimed s).absorbDone then enterFloat (absorbTimed s) else absorbTimed s := by
    unfold absorbTimed
    rw [← run]
    rfl
  rw [unfolded]
  unfold State.termDone State.absorbDone
  rw [max, time]
  simp only [decide_eq_true_iff]
  rfl

theorem absorbTimed_bat (s : State) : ∃ flagged, (absorbTimed s).bat =
    { s.bat with absorb := absorbTime s, limit := limitStepped s.vAbsorb s, holdFlagged := flagged, term := termRun s } := by
  obtain ⟨flagged, bat⟩ := absorbStepped_bat s
  refine ⟨flagged, ?_⟩
  show { (absorbStepped s).bat with term := termRun s } = _
  rw [bat]

theorem absorbTimed_full (s : State) : (absorbTimed s).full = s.full := full_of_params (absorbStepped_params s)

/-- The battery after a reading in ABSORB, by which end it meets. -/
theorem absorbReading_bat (s : State) : ∃ flagged,
    (60 ≤ termRun s → (absorbReading s).bat = { s.bat with
      absorb := absorbTime s, limit := limitStepped s.vAbsorb s, holdFlagged := flagged, term := termRun s
      charge := .float, floatLow := 0, restarts := 0, q := s.full, fullSyncs := inc16 s.bat.fullSyncs })
    ∧ (termRun s < 60 → s.absorbMax * 60 ≤ absorbTime s → (absorbReading s).bat = { s.bat with
      absorb := absorbTime s, limit := limitStepped s.vAbsorb s, holdFlagged := flagged, term := termRun s
      charge := .float, floatLow := 0, restarts := 0 })
    ∧ (termRun s < 60 → absorbTime s < s.absorbMax * 60 → (absorbReading s).bat = { s.bat with
      absorb := absorbTime s, limit := limitStepped s.vAbsorb s, holdFlagged := flagged, term := termRun s }) := by
  obtain ⟨flagged, bat⟩ := absorbTimed_bat s
  rw [absorbReading_eq]
  refine ⟨flagged, fun done => ?_, fun short long => ?_, fun short within => ?_⟩
  · rw [if_pos done]
    show { (absorbTimed s).bat with
      charge := .float, floatLow := 0, restarts := 0, q := (absorbTimed s).full
      fullSyncs := inc16 (absorbTimed s).bat.fullSyncs } = _
    rw [bat, absorbTimed_full]
  · rw [if_neg (by omega), if_pos long]
    show { (absorbTimed s).bat with charge := .float, floatLow := 0, restarts := 0 } = _
    rw [bat]
  · rw [if_neg (by omega), if_neg (by omega), bat]

/-- What follows the step in ABSORB leaves the mark of the signal and the record. -/
theorem absorbReading_signal (s : State) : (absorbReading s).bat.holdFlagged = (absorbStepped s).bat.holdFlagged
    ∧ (absorbReading s).evt = (absorbStepped s).evt := by
  rw [absorbReading_eq]
  split
  · exact ⟨rfl, rfl⟩
  · split
    · exact ⟨rfl, rfl⟩
    · exact ⟨rfl, rfl⟩

/-- A reading in FLOAT before its end is tested. -/
def floatTimed (s : State) : State :=
  { chargeStep s.vFloat s with bat := { (chargeStep s.vFloat s).bat with floatLow := floatLowRun s } }

theorem floatReading_eq (s : State) : floatReading s =
    if 60 ≤ floatLowRun s then enterBulk (floatTimed s) else floatTimed s := by
  obtain ⟨flagged, bat⟩ := chargeStep_bat s.vFloat s
  have run : (if (chargeStep s.vFloat s).pwr.vb + 300 < (chargeStep s.vFloat s).vFloat then
      min ((chargeStep s.vFloat s).bat.floatLow + 1) 60 else 0) = floatLowRun s := by
    rw [chargeStep_pwr, vFloat_of_params (chargeStep_params _ s), bat]
    rfl
  unfold floatReading floatTimed
  dsimp only
  rw [run]

/-- The battery after a reading in FLOAT, by its float-low run. -/
theorem floatReading_bat (s : State) : ∃ flagged,
    (60 ≤ floatLowRun s → (floatReading s).bat = { s.bat with
      limit := s.iBulk, holdFlagged := flagged, floatLow := floatLowRun s, charge := .bulk })
    ∧ (floatLowRun s < 60 → (floatReading s).bat = { s.bat with
      limit := limitStepped s.vFloat s, holdFlagged := flagged, floatLow := floatLowRun s }) := by
  obtain ⟨flagged, bat⟩ := chargeStep_bat s.vFloat s
  have bulk : (floatTimed s).iBulk = s.iBulk := iBulk_of_params (chargeStep_params _ s)
  rw [floatReading_eq]
  refine ⟨flagged, fun low => ?_, fun short => ?_⟩
  · rw [if_pos low]
    show { (chargeStep s.vFloat s).bat with floatLow := floatLowRun s, charge := .bulk, limit := (floatTimed s).iBulk } = _
    rw [bat, bulk]
  · rw [if_neg (by omega)]
    show { (chargeStep s.vFloat s).bat with floatLow := floatLowRun s } = _
    rw [bat]

theorem floatReading_signal (s : State) : (floatReading s).bat.holdFlagged = (chargeStep s.vFloat s).bat.holdFlagged
    ∧ (floatReading s).evt = (chargeStep s.vFloat s).evt := by
  rw [floatReading_eq]
  split
  · exact ⟨rfl, rfl⟩
  · exact ⟨rfl, rfl⟩

/-! ### The evaluation (R148) -/

/-- R148: the sun is there and the pack is neither too cold nor too hot. -/
def Usable (s : State) : Prop := s.pwr.solar = true ∧ s.tChargeMin ≤ s.pwr.tp ∧ s.pwr.tp ≤ s.tChargeMax

/-- The charge state of a reading that cannot charge. -/
def offState (s : State) : Charge :=
  if s.pwr.solar = false then .idle else if s.pwr.tp < s.tChargeMin then .coldHold else .hotHold

theorem chargeEvaluate_off {s : State} (h : ¬ Usable s) : chargeEvaluate s = chargeOff (offState s) s := by
  unfold chargeEvaluate offState
  cases solar : s.pwr.solar with
  | false => rfl
  | true =>
    by_cases cold : s.pwr.tp < s.tChargeMin
    · simp [cold]
    · have hot : s.tChargeMax < s.pwr.tp := by
        by_contra k
        exact h ⟨solar, by omega, by omega⟩
      simp [cold, hot]

theorem chargeEvaluate_on {s : State} (h : Usable s) : chargeEvaluate s = match s.bat.charge with
    | .bulk => bulkReading s
    | .absorb => absorbReading s
    | .float => floatReading s
    | _ => enterBulk s := by
  obtain ⟨solar, cold, hot⟩ := h
  unfold chargeEvaluate
  rw [if_neg (by simp [solar]), if_neg (by omega)]
  exact if_neg (by omega)

/-- From a charge state that has not charged the evaluation enters BULK or a state that is off. -/
theorem chargeEvaluate_idle {s : State} (h : s.bat.charge = .idle) :
    (chargeEvaluate s).bat.restarts = s.bat.restarts
    ∧ (chargeEvaluate s).bat.charge = (if s.pwr.solar = false then .idle else if s.pwr.tp < s.tChargeMin then .coldHold
        else if s.tChargeMax < s.pwr.tp then .hotHold else .bulk)
    ∧ (chargeEvaluate s).bat.limit = (if (chargeEvaluate s).bat.charge = .bulk then s.iBulk else 0) := by
  by_cases u : Usable s
  · obtain ⟨solar, cold, hot⟩ := id u
    rw [chargeEvaluate_on u, h]
    refine ⟨rfl, ?_, rfl⟩
    rw [if_neg (by simp [solar]), if_neg (by omega), if_neg (by omega)]
    rfl
  · rw [chargeEvaluate_off u]
    have off : (chargeOff (offState s) s).bat = { s.bat with charge := offState s, limit := 0 } := by
      unfold chargeOff
      rw [if_neg (by rw [h]; decide)]
    rw [off]
    refine ⟨rfl, ?_, ?_⟩
    · show offState s = _
      unfold offState
      by_cases solar : s.pwr.solar = false
      · rw [if_pos solar, if_pos solar]
      · rw [if_neg solar, if_neg solar]
        by_cases cold : s.pwr.tp < s.tChargeMin
        · rw [if_pos cold, if_pos cold]
        · have hot : s.tChargeMax < s.pwr.tp := by
            by_contra k
            exact u ⟨by simpa using solar, by omega, by omega⟩
          rw [if_neg cold, if_neg cold, if_pos hot]
    · have never : offState s ≠ .bulk := by
        unfold offState
        split
        · decide
        · split <;> decide
      exact (if_neg never).symm

/-! ### Around the evaluation: the hold, the fault check and FAULT (R147, R152, R154) -/

/-- The charge hold a reading leaves. -/
def holdAfter (s : State) : Option Nat :=
  match s.bat.hold with
  | none => none
  | some h => if s.quietMax ≤ h + 1 then none else some (min (h + 1) 900)

/-- The over-current run a reading leaves. -/
def overRunAfter (s : State) : Nat := if ((s.iBulk * 3 / 2 : Nat) : Int) < s.pwr.ib then min (s.bat.overRun + 1) 5 else 0

/-- R147: a fault cause holds at the reading. -/
def FaultCause (s : State) : Prop := s.vOver < s.pwr.vb ∨ overRunAfter s = 5

/-- Step 3 of a reading. -/
def checked (s : State) : State := faultCheck (chargeHoldReading s)

theorem checked_eq (s : State) : checked s = { s with bat := { s.bat with
    hold := holdAfter s, overRun := overRunAfter s
    cause := decide (s.vOver < s.pwr.vb) || decide (overRunAfter s = 5) } } := by
  have hold : chargeHoldReading s = { s with bat := { s.bat with hold := holdAfter s } } := by
    unfold chargeHoldReading holdAfter
    cases h : s.bat.hold with
    | none =>
      dsimp only
      rw [← h]
    | some x => rfl
  rw [checked, hold]
  rfl

theorem checked_cause (s : State) : (checked s).bat.cause = true ↔ FaultCause s := by
  rw [checked_eq]
  simp [FaultCause]

theorem checked_params (s : State) : (checked s).params = s.params := by rw [checked_eq]

/-- Step 4 of a reading, before the conditions are reported. -/
def chargeJudged (s : State) : State :=
  if s.bat.charge = .fault then faultReading s else if s.bat.cause then chargeFault s else chargeEvaluate s

theorem chargeReading_eq (s : State) : chargeReading s = reportCharge (chargeJudged (checked s)) := rfl

theorem chargeReading_bat (s : State) : (chargeReading s).bat = (chargeJudged (checked s)).bat := by
  rw [chargeReading_eq]
  exact bat_of (reportCharge_does _) (by decide)

theorem chargeReading_evt (s : State) : (chargeReading s).evt = (chargeJudged (checked s)).evt := by
  rw [chargeReading_eq]
  exact evt_of (reportCharge_does _) (by decide)

/-- R153: the two conditions of the charger follow its state. -/
theorem reportCharge_conds (s : State) :
    ((reportCharge s).mon.conds[(11 : CondId)].status = true ↔ (reportCharge s).bat.charge = .coldHold)
    ∧ ((reportCharge s).mon.conds[(12 : CondId)].status = true ↔ (reportCharge s).bat.charge = .fault) := by
  have bat : (reportCharge s).bat = s.bat := bat_of (reportCharge_does s) (by decide)
  rw [bat]
  unfold reportCharge
  rw [statusChange_other 12 _ _ 11 (by decide) (by decide), statusChange_status 11 _ _ (by decide),
    statusChange_status 12 _ _ (by decide)]
  exact ⟨beq_iff_eq, beq_iff_eq⟩

/-- The over-current run and the charge hold are kept. -/
structure KeepsWatch (s t : State) : Prop where
  overRun : t.bat.overRun = s.bat.overRun
  hold : t.bat.hold = s.bat.hold

theorem KeepsWatch.refl (s : State) : KeepsWatch s s := ⟨rfl, rfl⟩

theorem KeepsWatch.trans {s t u : State} (h : KeepsWatch s t) (k : KeepsWatch t u) : KeepsWatch s u :=
  ⟨k.overRun.trans h.overRun, k.hold.trans h.hold⟩

theorem chargeOff_watch (c : Charge) (s : State) : KeepsWatch s (chargeOff c s) := by
  unfold chargeOff
  dsimp only
  split
  · exact ⟨rfl, rfl⟩
  · exact ⟨rfl, rfl⟩

theorem absorbReading_watch (s : State) : KeepsWatch s (absorbReading s) := by
  obtain ⟨flagged, bat⟩ := absorbTimed_bat s
  have k : KeepsWatch s (absorbTimed s) := ⟨by rw [bat], by rw [bat]⟩
  rw [absorbReading_eq]
  split
  · exact k.trans ⟨rfl, rfl⟩
  · split
    · exact k.trans ⟨rfl, rfl⟩
    · exact k

theorem floatReading_watch (s : State) : KeepsWatch s (floatReading s) := by
  obtain ⟨flagged, bat⟩ := chargeStep_bat s.vFloat s
  have k : KeepsWatch s (floatTimed s) := by
    constructor
    · show (chargeStep s.vFloat s).bat.overRun = _
      rw [bat]
    · show (chargeStep s.vFloat s).bat.hold = _
      rw [bat]
  rw [floatReading_eq]
  split
  · exact k.trans ⟨rfl, rfl⟩
  · exact k

theorem chargeEvaluate_watch (s : State) : KeepsWatch s (chargeEvaluate s) := by
  by_cases u : Usable s
  · rw [chargeEvaluate_on u]
    split
    · unfold bulkReading
      dsimp only
      split
      · exact ⟨rfl, rfl⟩
      · exact ⟨rfl, rfl⟩
    · exact absorbReading_watch s
    · exact floatReading_watch s
    · exact ⟨rfl, rfl⟩
  · rw [chargeEvaluate_off u]
    exact chargeOff_watch _ s

/-- The battery as an automatic restart puts it before the reading is evaluated again. -/
def asIdle (s : State) : State := { s with bat := { s.bat with charge := .idle, restarts := s.bat.restarts + 1 } }

/-- An automatic restart evaluates the reading as from IDLE. -/
def restarted (s : State) : State := statusChange 12 false (asIdle s)

theorem restarted_does (s : State) : Does [.box, .mon] (asIdle s) (restarted s) := statusChange_does 12 false _

theorem restarted_bat (s : State) : (restarted s).bat = { s.bat with charge := .idle, restarts := s.bat.restarts + 1 } :=
  bat_of (restarted_does s) (by decide)

theorem restarted_pwr (s : State) : (restarted s).pwr = s.pwr := (pwr_of (restarted_does s) (by decide)).trans rfl

theorem restarted_params (s : State) : (restarted s).params = s.params := (params_of (restarted_does s) (by decide)).trans rfl

theorem chargerAutoRestart_eq (s : State) : chargerAutoRestart s = chargeEvaluate (restarted s) := rfl

theorem tChargeMin_of_params {s t : State} (h : t.params = s.params) : t.tChargeMin = s.tChargeMin := param_of_params h 83

theorem tChargeMax_of_params {s t : State} (h : t.params = s.params) : t.tChargeMax = s.tChargeMax := param_of_params h 84

/-- R152: what an automatic restart makes of the battery. -/
theorem chargerAutoRestart_bat (s : State) : (chargerAutoRestart s).bat.restarts = s.bat.restarts + 1
    ∧ (chargerAutoRestart s).bat.charge = (if s.pwr.solar = false then .idle else if s.pwr.tp < s.tChargeMin then .coldHold
        else if s.tChargeMax < s.pwr.tp then .hotHold else .bulk)
    ∧ (chargerAutoRestart s).bat.limit = (if (chargerAutoRestart s).bat.charge = .bulk then s.iBulk else 0) := by
  have k := chargeEvaluate_idle (s := restarted s) (by rw [restarted_bat])
  rw [restarted_pwr, tChargeMin_of_params (restarted_params s), tChargeMax_of_params (restarted_params s),
    iBulk_of_params (restarted_params s), restarted_bat] at k
  exact k

theorem chargerAutoRestart_watch (s : State) : KeepsWatch s (chargerAutoRestart s) := by
  have bat := restarted_bat s
  have k : KeepsWatch s (restarted s) := ⟨by rw [bat], by rw [bat]⟩
  exact k.trans (chargeEvaluate_watch _)

/-- A reading in FAULT before its automatic restart is tested. -/
def clearTimed (s : State) : State :=
  { s with bat := { s.bat with clear := if s.bat.cause then 0 else min (s.bat.clear + 1) 600 } }

theorem faultReading_eq (s : State) : faultReading s =
    if (clearTimed s).autoRestartDue then chargerAutoRestart (clearTimed s) else clearTimed s := rfl

theorem autoRestartDue_iff (s : State) :
    s.autoRestartDue = true ↔ s.chargeRestart = false ∧ s.bat.restarts < 3 ∧ 600 ≤ s.bat.clear := by
  simp [State.autoRestartDue, and_assoc]

theorem faultReading_watch (s : State) : KeepsWatch s (faultReading s) := by
  have k : KeepsWatch s (clearTimed s) := ⟨rfl, rfl⟩
  rw [faultReading_eq]
  split
  · exact k.trans (chargerAutoRestart_watch _)
  · exact k

theorem chargeFault_watch (s : State) : KeepsWatch s (chargeFault s) :=
  (chargeOff_watch .fault s).trans ⟨rfl, rfl⟩

theorem chargeJudged_watch (s : State) : KeepsWatch s (chargeJudged s) := by
  unfold chargeJudged
  split
  · exact faultReading_watch s
  · split
    · exact chargeFault_watch s
    · exact chargeEvaluate_watch s

/-! ### One reading, by the charge state before it -/

theorem chargeRestart_of_params {s t : State} (h : t.params = s.params) : t.chargeRestart = s.chargeRestart :=
  congrArg (· == 1) (param_of_params h 85)

theorem quietMax_of_params {s t : State} (h : t.params = s.params) : t.quietMax = s.quietMax :=
  congrArg Int.toNat (param_of_params h 101)

section Reading
variable {s : State}

/-- A reading with a fault cause enters FAULT. -/
theorem chargeReading_faults (cause : FaultCause s) (h : s.bat.charge ≠ .fault) :
    (chargeReading s).bat.charge = .fault ∧ (chargeReading s).bat.limit = 0 ∧ (chargeReading s).bat.absorb = 0
    ∧ (chargeReading s).bat.term = 0 ∧ (chargeReading s).bat.floatLow = 0 ∧ (chargeReading s).bat.clear = 0
    ∧ (chargeReading s).bat.faults = inc16 s.bat.faults ∧ (chargeReading s).bat.restarts = s.bat.restarts := by
  have e : chargeJudged (checked s) = chargeFault (checked s) := by
    unfold chargeJudged
    rw [if_neg (by rw [checked_eq]; exact h), if_pos ((checked_cause s).mpr cause)]
  rw [chargeReading_bat, e, checked_eq]
  unfold chargeFault chargeOff
  dsimp only
  split
  · exact ⟨rfl, rfl, rfl, rfl, rfl, rfl, rfl, rfl⟩
  · exact ⟨rfl, rfl, rfl, rfl, rfl, rfl, rfl, rfl⟩

/-- A reading in FAULT is that of the clear run and its restart. -/
theorem chargeReading_inFault (h : s.bat.charge = .fault) :
    (chargeReading s).bat = (faultReading (checked s)).bat := by
  rw [chargeReading_bat]
  unfold chargeJudged
  rw [if_pos (by rw [checked_eq]; exact h)]

theorem clearTimed_cause (cause : FaultCause s) : (clearTimed (checked s)).bat.clear = 0 :=
  if_pos ((checked_cause s).mpr cause)

theorem clearTimed_noCause (none : ¬ FaultCause s) :
    (clearTimed (checked s)).bat.clear = min (s.bat.clear + 1) 600 := by
  have e : (clearTimed (checked s)).bat.clear = min ((checked s).bat.clear + 1) 600 :=
    if_neg (by rw [checked_cause]; exact none)
  rw [e, checked_eq]

/-- A fault cause in FAULT holds the clear run at 0. -/
theorem chargeReading_staysFaulty (cause : FaultCause s) (h : s.bat.charge = .fault) :
    (chargeReading s).bat.charge = .fault ∧ (chargeReading s).bat.clear = 0
    ∧ (chargeReading s).bat.faults = s.bat.faults := by
  have clear := clearTimed_cause cause
  rw [chargeReading_inFault h, faultReading_eq, if_neg (by rw [autoRestartDue_iff, clear]; omega)]
  refine ⟨?_, clear, ?_⟩
  · show (checked s).bat.charge = .fault
    rw [checked_eq]
    exact h
  · show (checked s).bat.faults = s.bat.faults
    rw [checked_eq]

/-- Without a cause FAULT stands while its restart is not due. -/
theorem chargeReading_waits (none : ¬ FaultCause s) (h : s.bat.charge = .fault)
    (due : s.chargeRestart = true ∨ 3 ≤ s.bat.restarts ∨ min (s.bat.clear + 1) 600 < 600) :
    (chargeReading s).bat.charge = .fault ∧ (chargeReading s).bat.clear = min (s.bat.clear + 1) 600
    ∧ (chargeReading s).bat.restarts = s.bat.restarts := by
  have clear := clearTimed_noCause none
  have restarts : (clearTimed (checked s)).bat.restarts = s.bat.restarts := by
    show (checked s).bat.restarts = _
    rw [checked_eq]
  have manual : (clearTimed (checked s)).chargeRestart = s.chargeRestart := chargeRestart_of_params (checked_params s)
  rw [chargeReading_inFault h, faultReading_eq, if_neg]
  · refine ⟨?_, clear, restarts⟩
    show (checked s).bat.charge = .fault
    rw [checked_eq]
    exact h
  · rw [autoRestartDue_iff, clear, restarts, manual]
    rintro ⟨auto, few, long⟩
    rcases due with k | k | k
    · rw [auto] at k; cases k
    · omega
    · omega

/-- R152: FAULT is left by itself. -/
theorem chargeReading_restarts (none : ¬ FaultCause s) (h : s.bat.charge = .fault) (auto : s.chargeRestart = false)
    (few : s.bat.restarts < 3) (long : 599 ≤ s.bat.clear) :
    (chargeReading s).bat.restarts = s.bat.restarts + 1
    ∧ (chargeReading s).bat.charge = (if s.pwr.solar = false then .idle else if s.pwr.tp < s.tChargeMin then .coldHold
        else if s.tChargeMax < s.pwr.tp then .hotHold else .bulk)
    ∧ (chargeReading s).bat.limit = (if (chargeReading s).bat.charge = .bulk then s.iBulk else 0) := by
  have params : (clearTimed (checked s)).params = s.params := checked_params s
  have restarts : (clearTimed (checked s)).bat.restarts = s.bat.restarts := by
    show (checked s).bat.restarts = _
    rw [checked_eq]
  have pwr : (clearTimed (checked s)).pwr = s.pwr := by
    show (checked s).pwr = _
    rw [checked_eq]
  have due : (clearTimed (checked s)).autoRestartDue = true := by
    rw [autoRestartDue_iff, clearTimed_noCause none, restarts, chargeRestart_of_params params]
    exact ⟨auto, few, by omega⟩
  have k := chargerAutoRestart_bat (clearTimed (checked s))
  rw [restarts, pwr, tChargeMin_of_params params, tChargeMax_of_params params, iBulk_of_params params] at k
  rw [chargeReading_inFault h, faultReading_eq, if_pos due]
  exact k

theorem usable_checked : Usable (checked s) ↔ Usable s := by
  unfold Usable
  rw [tChargeMin_of_params (checked_params s), tChargeMax_of_params (checked_params s), checked_eq]

section Charging
variable (none : ¬ FaultCause s)
include none

/-- Out of FAULT and without a cause the reading is evaluated. -/
theorem chargeReading_evaluates (h : s.bat.charge ≠ .fault) :
    chargeJudged (checked s) = chargeEvaluate (checked s) := by
  unfold chargeJudged
  rw [if_neg (by rw [checked_eq]; exact h), if_neg (by rw [checked_cause]; exact none)]

theorem chargeReading_off (h : s.bat.charge ≠ .fault) (off : ¬ Usable s) :
    (chargeReading s).bat.charge =
      (if s.pwr.solar = false then .idle else if s.pwr.tp < s.tChargeMin then .coldHold else .hotHold)
    ∧ (chargeReading s).bat.limit = 0
    ∧ (s.bat.charge = .absorb ∨ s.bat.charge = .float →
        (chargeReading s).bat.absorb = 0 ∧ (chargeReading s).bat.term = 0 ∧ (chargeReading s).bat.floatLow = 0) := by
  have state : offState (checked s) =
      (if s.pwr.solar = false then .idle else if s.pwr.tp < s.tChargeMin then .coldHold else .hotHold) := by
    unfold offState
    rw [tChargeMin_of_params (checked_params s), checked_eq]
  rw [chargeReading_bat, chargeReading_evaluates none h, chargeEvaluate_off (by rwa [usable_checked]), state,
    checked_eq]
  unfold chargeOff
  refine ⟨rfl, rfl, fun charging => ?_⟩
  dsimp only
  rw [if_pos charging]
  exact ⟨rfl, rfl, rfl⟩

variable (on : Usable s)
include on

/-- The evaluation of a usable reading, from the charge state before it. -/
theorem chargeReading_on (h : s.bat.charge ≠ .fault) : chargeJudged (checked s) = match s.bat.charge with
    | .bulk => bulkReading (checked s)
    | .absorb => absorbReading (checked s)
    | .float => floatReading (checked s)
    | _ => enterBulk (checked s) := by
  have charge : (checked s).bat.charge = s.bat.charge := by rw [checked_eq]
  rw [chargeReading_evaluates none h, chargeEvaluate_on (usable_checked.mpr on), charge]

theorem chargeReading_entersBulk (h : s.bat.charge = .idle ∨ s.bat.charge = .coldHold ∨ s.bat.charge = .hotHold) :
    (chargeReading s).bat.charge = .bulk ∧ (chargeReading s).bat.limit = s.iBulk := by
  have e : chargeJudged (checked s) = enterBulk (checked s) := by
    rcases h with h | h | h <;> rw [chargeReading_on none on (by rw [h]; decide), h]
  rw [chargeReading_bat, e]
  exact ⟨rfl, iBulk_of_params (checked_params s)⟩

theorem chargeReading_bulk (h : s.bat.charge = .bulk) : (chargeReading s).bat.limit = s.iBulk
    ∧ (s.pwr.vb < s.vAbsorb → (chargeReading s).bat.charge = .bulk)
    ∧ (s.vAbsorb ≤ s.pwr.vb → (chargeReading s).bat.charge = .absorb ∧ (chargeReading s).bat.absorb = 0
        ∧ (chargeReading s).bat.term = 0) := by
  have e : chargeJudged (checked s) = bulkReading (checked s) := by
    rw [chargeReading_on none on (by rw [h]; decide), h]
  have vAbsorb : (checked s).vAbsorb = s.vAbsorb := congrArg Int.toNat (param_of_params (checked_params s) 72)
  have pwr : (checked s).pwr = s.pwr := by rw [checked_eq]
  have charge : (checked s).bat.charge = .bulk := by rw [checked_eq]; exact h
  have bulk : (checked s).iBulk = s.iBulk := iBulk_of_params (checked_params s)
  rw [chargeReading_bat, e]
  unfold bulkReading
  rw [vAbsorb, pwr]
  by_cases full : s.vAbsorb ≤ s.pwr.vb
  · rw [if_pos full]
    exact ⟨bulk, fun k => absurd full (by omega), fun _ => ⟨rfl, rfl, rfl⟩⟩
  · rw [if_neg full]
    exact ⟨bulk, fun _ => charge, fun k => absurd k full⟩

/-- A reading in ABSORB sees the limit and the runs of the part before it, with its own hold. -/
theorem chargeReading_absorb (h : s.bat.charge = .absorb) :
    (chargeReading s).bat.limit = limitStepped s.vAbsorb (checked s)
    ∧ (60 ≤ termRun s → (chargeReading s).bat.charge = .float ∧ (chargeReading s).bat.floatLow = 0
        ∧ (chargeReading s).bat.restarts = 0 ∧ (chargeReading s).bat.q = s.full
        ∧ (chargeReading s).bat.fullSyncs = inc16 s.bat.fullSyncs)
    ∧ (termRun s < 60 → s.absorbMax * 60 ≤ absorbTime s → (chargeReading s).bat.charge = .float
        ∧ (chargeReading s).bat.floatLow = 0 ∧ (chargeReading s).bat.restarts = 0 ∧ (chargeReading s).bat.q = s.bat.q
        ∧ (chargeReading s).bat.fullSyncs = s.bat.fullSyncs)
    ∧ (termRun s < 60 → absorbTime s < s.absorbMax * 60 → (chargeReading s).bat.charge = .absorb
        ∧ (chargeReading s).bat.absorb = absorbTime s ∧ (chargeReading s).bat.term = termRun s
        ∧ (chargeReading s).bat.q = s.bat.q) := by
  have e : chargeJudged (checked s) = absorbReading (checked s) := by
    rw [chargeReading_on none on (by rw [h]; decide), h]
  have params := checked_params s
  have vAbsorb : (checked s).vAbsorb = s.vAbsorb := congrArg Int.toNat (param_of_params params 72)
  have term : termRun (checked s) = termRun s := by
    unfold termRun
    rw [iTerm_of_params params, checked_eq]
  have time : absorbTime (checked s) = absorbTime s := by
    unfold absorbTime
    rw [checked_eq]
  obtain ⟨flagged, done, long, within⟩ := absorbReading_bat (checked s)
  rw [term, time, vAbsorb, full_of_params params] at done
  rw [term, time, vAbsorb, absorbMax_of_params params] at long
  rw [term, time, vAbsorb, absorbMax_of_params params] at within
  have q : (checked s).bat.q = s.bat.q := by rw [checked_eq]
  have syncs : (checked s).bat.fullSyncs = s.bat.fullSyncs := by rw [checked_eq]
  have charge : (checked s).bat.charge = .absorb := by rw [checked_eq]; exact h
  rw [chargeReading_bat, e]
  refine ⟨?_, fun hd => ?_, fun hs ho => ?_, fun hs hw => ?_⟩
  · by_cases hd : 60 ≤ termRun s
    · rw [done hd]
    · by_cases ho : s.absorbMax * 60 ≤ absorbTime s
      · rw [long (by omega) ho]
      · rw [within (by omega) (by omega)]
  · rw [done hd, ← syncs]
    exact ⟨rfl, rfl, rfl, rfl, rfl⟩
  · rw [long hs ho, ← q, ← syncs]
    exact ⟨rfl, rfl, rfl, rfl, rfl⟩
  · rw [within hs hw, ← q]
    exact ⟨charge, rfl, rfl, rfl⟩

theorem chargeReading_float (h : s.bat.charge = .float) :
    (60 ≤ floatLowRun s → (chargeReading s).bat.charge = .bulk ∧ (chargeReading s).bat.limit = s.iBulk)
    ∧ (floatLowRun s < 60 → (chargeReading s).bat.charge = .float ∧ (chargeReading s).bat.floatLow = floatLowRun s
        ∧ (chargeReading s).bat.limit = limitStepped s.vFloat (checked s)) := by
  have e : chargeJudged (checked s) = floatReading (checked s) := by
    rw [chargeReading_on none on (by rw [h]; decide), h]
  have params := checked_params s
  have low : floatLowRun (checked s) = floatLowRun s := by
    unfold floatLowRun
    rw [vFloat_of_params params, checked_eq]
  have charge : (checked s).bat.charge = .float := by rw [checked_eq]; exact h
  obtain ⟨flagged, long, short⟩ := floatReading_bat (checked s)
  rw [low, iBulk_of_params params] at long
  rw [low, vFloat_of_params params] at short
  rw [chargeReading_bat, e]
  refine ⟨fun hl => ?_, fun hs => ?_⟩
  · rw [long hl]
    exact ⟨rfl, rfl⟩
  · rw [short hs]
    exact ⟨charge, rfl, rfl⟩

/-- R154: the first step a hold withholds sets the flag of the record in progress. -/
theorem chargeReading_signals {v : Nat} {r : EvRecord}
    (h : s.bat.charge = .absorb ∧ v = s.vAbsorb ∨ s.bat.charge = .float ∧ v = s.vFloat)
    (first : FirstWithheld v (checked s)) (hr : s.evt.record = some r) :
    (chargeReading s).bat.holdFlagged = true
    ∧ (chargeReading s).evt.record = some { r with flags := { r.flags with heatHeld := true } } := by
  have params := checked_params s
  have record : (checked s).evt.record = some r := by rw [checked_eq]; exact hr
  rw [chargeReading_bat, chargeReading_evt]
  rcases h with ⟨charge, rfl⟩ | ⟨charge, rfl⟩
  · have vAbsorb : (checked s).vAbsorb = s.vAbsorb := congrArg Int.toNat (param_of_params params 72)
    rw [chargeReading_on none on (by rw [charge]; decide), charge]
    obtain ⟨flagged, evt⟩ := absorbReading_signal (checked s)
    rw [flagged, evt]
    rw [← vAbsorb] at first
    exact chargeStep_signals (s := { checked s with bat := { (checked s).bat with absorb := absorbTime (checked s) } })
      first record
  · rw [chargeReading_on none on (by rw [charge]; decide), charge]
    obtain ⟨flagged, evt⟩ := floatReading_signal (checked s)
    rw [flagged, evt, vFloat_of_params params]
    exact chargeStep_signals first record

end Charging

end Reading

/-! ### The charger at a reading -/

/-- The steps asked, kept and taken of a reading are those of the part before it under the hold the reading leaves. -/
theorem limits_checked (v : Nat) (s : State) : limitAsked v (checked s) = steppedLimit s.bat.limit s.pwr.vb v s.iBulk
    ∧ limitKept (checked s) = min s.bat.limit s.iBulk
    ∧ limitStepped v (checked s) = if (holdAfter s).isSome = true then min s.bat.limit s.iBulk
        else steppedLimit s.bat.limit s.pwr.vb v s.iBulk := by
  unfold limitStepped limitAsked limitKept
  rw [iBulk_of_params (checked_params s), checked_eq]
  exact ⟨rfl, rfl, rfl⟩

theorem chargeReading_watch (s : State) :
    (chargeReading s).bat.overRun = overRunAfter s ∧ (chargeReading s).bat.hold = holdAfter s := by
  obtain ⟨run, hold⟩ := chargeJudged_watch (checked s)
  rw [chargeReading_bat, run, hold, checked_eq]
  exact ⟨rfl, rfl⟩

theorem autoRestart_cleared (s : State) : (reportCharge (chargerAutoRestart s)).mon.conds[(12 : CondId)].status = false := by
  have charge : (chargerAutoRestart s).bat.charge ≠ .fault := by
    rw [(chargerAutoRestart_bat s).2.1]
    split
    · decide
    · split
      · decide
      · split <;> decide
  have bat : (reportCharge (chargerAutoRestart s)).bat = (chargerAutoRestart s).bat := bat_of (reportCharge_does _) (by decide)
  rw [← Bool.not_eq_true, (reportCharge_conds _).2, bat]
  exact charge

/-- CHARGER_AUTO_RESTART by itself. -/
theorem exec_chargerAutoRestart {s : State} (powered : s.powered = true) (boundary : s.moment.boundary = true)
    (fault : s.bat.charge = .fault) (due : s.autoRestartDue = true) :
    exec .chargerAutoRestart s = .next (reportCharge (chargerAutoRestart s)) := by
  have e : exec .chargerAutoRestart s = execChargerAutoRestart s := rfl
  rw [e, execChargerAutoRestart, act_on powered, if_pos (by simp [boundary, fault, due])]

/-- Settles O17: a reading is step 3, the step of the charge state before it, and the report. -/
theorem chargerFollowsTheReading : Obligations.ChargerFollowsTheReading := by
  refine ⟨fun s => ?reading, fun s powered boundary fault auto few long => ?alone⟩
  case reading =>
    obtain ⟨run, hold⟩ := chargeReading_watch s
    have conds := reportCharge_conds (chargeJudged (checked s))
    have limits (v : Nat) := limits_checked v s
    refine ⟨run, ?_, hold, conds.1, conds.2, chargeReading_faults, chargeReading_staysFaulty, chargeReading_waits,
      chargeReading_restarts, fun none charge off => chargeReading_off none charge off,
      fun none on h => chargeReading_entersBulk none on h, fun none on h => chargeReading_bulk none on h,
      fun none on h => ?_, fun none on h => ?_, fun v r none on h held changes unflagged hr => ?_⟩
    · rw [chargeReading_cause]
      exact checked_cause s
    · have k := chargeReading_absorb none on h
      rw [(limits s.vAbsorb).2.2] at k
      exact k
    · have k := chargeReading_float none on h
      rw [(limits s.vFloat).2.2] at k
      exact k
    · obtain ⟨asked, kept, -⟩ := limits v
      refine chargeReading_signals none on h ⟨?_, ?_, ?_⟩ hr
      · rw [checked_eq]
        exact held
      · rw [asked, kept]
        exact changes
      · rw [checked_eq]
        exact unflagged
  case alone =>
    have due : s.autoRestartDue = true := (autoRestartDue_iff s).mpr ⟨auto, few, long⟩
    refine ⟨_, exec_chargerAutoRestart powered boundary fault due, ?_⟩
    have bat : (reportCharge (chargerAutoRestart s)).bat = (chargerAutoRestart s).bat := bat_of (reportCharge_does _) (by decide)
    obtain ⟨restarts, charge, limit⟩ := chargerAutoRestart_bat s
    rw [bat]
    exact ⟨restarts, charge, limit, autoRestart_cleared s⟩

end Sys2Proof.Proofs
end

