-- ==== Sys2Proof/Proofs/PowerOn.lean ====
section
/-! PROOFS. POWER_ON block by block: the load and the lines give each block but the ports, the heater and the conditions as
one record, the start of those three gives theirs; from these the settling of O10. -/
namespace Sys2Proof.Proofs

open Sys2Proof Sys2Proof.Machine Sys2Proof.Laws

/-! ### The blocks that the load and the lines give -/

section
variable (r : Reading) (s : State)

theorem powerOn_params_lined : (powerOn r s).params = (lined r s).params := powerOn_lined r s .params (by decide)

theorem powerOn_bat_lined : (powerOn r s).bat = (lined r s).bat := powerOn_lined r s .bat (by decide)

theorem powerOn_pwr_lined : (powerOn r s).pwr = (lined r s).pwr := powerOn_lined r s .pwr (by decide)

/-- A setting in force after POWER_ON is the one its lines were started with. -/
theorem powerOn_param (n : Nat) : (powerOn r s).param n = (lined r s).param n := param_of_params (powerOn_params_lined r s) n

/-- R25. -/
theorem powerOn_clk : (powerOn r s).clk =
    { supply := if (powerOn r s).bat.cls = .normal then .continuous else .session, div := (powerOn r s).gnssDivisor } := by
  have clk : (powerOn r s).clk = (lined r s).clk := powerOn_lined r s .clk (by decide)
  have div : (powerOn r s).gnssDivisor = (lined r s).gnssDivisor := congrArg Int.toNat (powerOn_param r s 122)
  rw [clk, powerOn_bat_lined, div]
  rfl

/-- R33. -/
theorem powerOn_mrk : (powerOn r s).mrk = {} := powerOn_lined r s .mrk (by decide)

/-- R37, R44. -/
theorem powerOn_sch : (powerOn r s).sch = { rate := (powerOn r s).sampleRate } := by
  have sch : (powerOn r s).sch = (lined r s).sch := powerOn_lined r s .sch (by decide)
  have rate : (powerOn r s).sampleRate = (lined r s).sampleRate := congrArg Int.toNat (powerOn_param r s 30)
  rw [sch, rate]
  rfl

theorem powerOn_map : (powerOn r s).map = s.store.load.map ∧ (powerOn r s).pendingMap = none :=
  ⟨powerOn_lined r s .map (by decide), powerOn_lined r s .pendingMap (by decide)⟩

/-- R64, R86. -/
theorem powerOn_rings : (powerOn r s).rings = #v[{}, {}, {}, {}, {}, {}] := powerOn_lined r s .rings (by decide)

theorem powerOn_chn : (powerOn r s).chn = Vector.ofFn fun c => { det := s.store.load.dets[c] } :=
  powerOn_lined r s .chn (by decide)

/-- R110. -/
theorem powerOn_evt : (powerOn r s).evt = {} := powerOn_lined r s .evt (by decide)

theorem powerOn_box : (powerOn r s).box = { credits := (powerOn r s).creditCap } := by
  have box : (powerOn r s).box = (lined r s).box := powerOn_lined r s .box (by decide)
  have cap : (powerOn r s).creditCap = (lined r s).creditCap := creditCap_congr (powerOn_params_lined r s)
  rw [box, cap]
  rfl

theorem powerOn_mdm : (powerOn r s).mdm = { div := (powerOn r s).modemDivisor, txDiv := (powerOn r s).modemDivisor } := by
  have mdm : (powerOn r s).mdm = (lined r s).mdm := powerOn_lined r s .mdm (by decide)
  have div : (powerOn r s).modemDivisor = (lined r s).modemDivisor := congrArg Int.toNat (powerOn_param r s 123)
  rw [mdm, div]
  rfl

/-- R136, R137, R158. -/
theorem powerOn_pwr : (powerOn r s).pwr = ({ tp := 0, tv := 0 } : Power).take r := powerOn_pwr_lined r s

/-- R213. -/
theorem powerOn_bus : (powerOn r s).bus = { addr := (powerOn r s).stationAddress, div := (powerOn r s).busDivisor } := by
  have bus : (powerOn r s).bus = (lined r s).bus := powerOn_lined r s .bus (by decide)
  have addr : (powerOn r s).stationAddress = (lined r s).stationAddress := congrArg Int.toNat (powerOn_param r s 120)
  have div : (powerOn r s).busDivisor = (lined r s).busDivisor := congrArg Int.toNat (powerOn_param r s 121)
  rw [bus, addr, div]
  rfl

theorem powerOn_store : (powerOn r s).store.slots = s.store.slots :=
  (congrArg Store.slots (show (powerOn r s).store = (lined r s).store from powerOn_lined r s .store (by decide))).trans rfl

theorem powerOn_powered : (powerOn r s).powered = true := powerOn_lined r s .powered (by decide)

theorem powerOn_osc : (powerOn r s).osc = 0 := powerOn_lined r s .osc (by decide)

/-- R158: the battery in RUN and IDLE, with no run, no hold and no count. -/
theorem powerOn_bat_fresh : ∃ q soc cls, (powerOn r s).bat = { q := q, soc := soc, cls := cls } :=
  ⟨_, _, _, powerOn_bat r s⟩

/-! ### The ports (R64) -/

theorem supplyDue_zero {u : State} (h : u.bat.power = .run) : u.supplyDue 0 = u.digEnable0 := by
  simp [State.supplyDue, h]

theorem supplyDue_one {u : State} (h : u.bat.power = .run) :
    u.supplyDue 1 = true ↔ u.digEnable1 = true ∧ (u.bat.cls ≠ .critical ∨ u.shedD1Critical = false) := by
  simp [State.supplyDue, h]

theorem powerOn_supplyDue (p : PortId) : (powerOn r s).supplyDue p = (lined r s).supplyDue p := by
  unfold State.supplyDue State.digEnable0 State.digEnable1 State.shedD1Critical
  rw [powerOn_bat_lined, powerOn_param, powerOn_param, powerOn_param]

theorem powerOn_ports :
    (powerOn r s).prt[(0 : PortId)] = { link := if (powerOn r s).digEnable0 = true then .starting else .off }
    ∧ (powerOn r s).prt[(1 : PortId)] = { link :=
        if (powerOn r s).digEnable1 = true ∧ ((powerOn r s).bat.cls ≠ .critical ∨ (powerOn r s).shedD1Critical = false)
        then .starting else .off } := by
  have run : (powerOn r s).bat.power = .run := by rw [powerOn_bat_lined]; rfl
  have zero := supplyDue_zero run
  have one := supplyDue_one run
  rw [powerOn_prt, ← powerOn_supplyDue, ← powerOn_supplyDue]
  refine ⟨?_, ?_⟩
  · show ({ link := if (powerOn r s).supplyDue 0 = true then .starting else .off } : Port) = _
    rw [zero]
  · show ({ link := if (powerOn r s).supplyDue 1 = true then .starting else .off } : Port) = _
    exact congrArg (fun x => ({ link := x } : Port)) (if_congr one rfl rfl)

/-! ### The heater (R178) -/

theorem heatCause_start (w : State) (h : w.htr.fault = false) :
    w.heatCause = true ↔ w.tHeaterCutoff < w.pwr.tp ∨ w.pwr.tpValid = false := by
  simp [State.heatCause, h]

/-- The duty limit of a part whose budget is judged. -/
def startLimit (spent : Bool) (u : State) : Nat :=
  match u.bat.cls with
  | .normal => u.dutyMaxNormal
  | .low => if spent = true ∧ u.pwr.solar = false then 0 else u.dutyMaxLow
  | .critical => if u.pwr.solar = true then u.dutyMaxNormal else 0

/-- The heater after POWER_ON in the settings, the reading and the class that POWER_ON leaves. -/
theorem powerOn_heater : (powerOn r s).htr = {
    state := if (powerOn r s).tHeaterCutoff < (powerOn r s).pwr.tp ∨ (powerOn r s).pwr.tpValid = false then .shutdown
      else if (powerOn r s).heatEnable = true then .regulate else .off
    spent := decide ((powerOn r s).dailyHeatBudgetLow * 3600000 ≤ 0)
    target := (powerOn r s).tKeepWarm
    error := (powerOn r s).tKeepWarm - (powerOn r s).pwr.tp
    limit := startLimit (decide ((powerOn r s).dailyHeatBudgetLow * 3600000 ≤ 0)) (powerOn r s)
    request := (clampI 0 (startLimit (decide ((powerOn r s).dailyHeatBudgetLow * 3600000 ≤ 0)) (powerOn r s) : Nat)
      (((powerOn r s).tKeepWarm - (powerOn r s).pwr.tp) * (powerOn r s).heatGain)).toNat
    solarPrev := (powerOn r s).pwr.solar } := by
  obtain ⟨spent, hs, lim, hl, htr⟩ := htr_start (lined r s)
  have params := powerOn_params_lined r s
  have idle : (lined r s).bat.charge = .idle := rfl
  have target : (lined r s).heatTarget = (lined r s).tKeepWarm := by
    simp [State.heatTarget, idle, Charge.enabled]
  have cause : (if (lined r s).heatCause then HeatState.shutdown
        else if (lined r s).heatEnable then .regulate else .off) =
      if (lined r s).tHeaterCutoff < (lined r s).pwr.tp ∨ (lined r s).pwr.tpValid = false then HeatState.shutdown
        else if (lined r s).heatEnable = true then .regulate else .off :=
    if_congr (heatCause_start (lined r s) rfl) rfl rfl
  have limit : startLimit spent (powerOn r s) = lim := by
    rw [hl]
    unfold startLimit State.dutyMaxNormal State.dutyMaxLow
    rw [powerOn_bat_lined, powerOn_pwr_lined, powerOn_param, powerOn_param] <;> rfl
  have budget : (powerOn r s).dailyHeatBudgetLow = (lined r s).dailyHeatBudgetLow := congrArg Int.toNat (powerOn_param r s 98)
  have keepWarm : (powerOn r s).tKeepWarm = (lined r s).tKeepWarm := powerOn_param r s 93
  have gain : (powerOn r s).heatGain = (lined r s).heatGain := congrArg Int.toNat (powerOn_param r s 92)
  have cutoff : (powerOn r s).tHeaterCutoff = (lined r s).tHeaterCutoff := powerOn_param r s 99
  have enable : (powerOn r s).heatEnable = (lined r s).heatEnable := congrArg (· == 1) (powerOn_param r s 90)
  rw [budget, ← hs, limit, keepWarm, gain, cutoff, enable, powerOn_pwr_lined, powerOn_htr, htr, target, cause]

theorem startLimit_spent (spent : Bool) (u : State) : startLimit spent u = match u.bat.cls with
    | .normal => u.dutyMaxNormal
    | .low => if spent = true ∧ u.pwr.solar = false then 0 else u.dutyMaxLow
    | .critical => if u.pwr.solar = true then u.dutyMaxNormal else 0 := rfl

theorem toNat_clampI_zero (hi x : Int) : ((clampI 0 hi x).toNat : Int) = max 0 (min hi x) :=
  Int.toNat_of_nonneg (Int.le_max_left _ _)

/-! ### The conditions (R195) -/

/-- The initial statuses as R195 lists them. -/
theorem initialStatus_iff (u : State) (c : CondId) : u.initialStatus c = true ↔
    c.val = 1 ∧ u.holdoverLimit * 1000 < u.clk.u ∨ c.val = 2 ∨ c.val = 9 ∧ u.bat.cls ≠ .normal
      ∨ c.val = 10 ∧ u.bat.cls = .critical ∨ c.val = 13 ∧ u.htr.state = .shutdown ∨ c.val = 14 ∧ u.pwr.tpValid = false := by
  unfold State.initialStatus
  split
  all_goals simp_all

theorem powerOn_condition (c : CondId) :
    (powerOn r s).mon.conds[c].pending = false ∧ (powerOn r s).mon.conds[c].changes = 0
    ∧ (powerOn r s).mon.conds[c].last = none
    ∧ ((powerOn r s).mon.conds[c].status = true ↔ c.val = 1 ∧ (powerOn r s).holdoverLimit * 1000 < 4294967295 ∨ c.val = 2
        ∨ c.val = 9 ∧ (powerOn r s).bat.cls ≠ .normal ∨ c.val = 10 ∧ (powerOn r s).bat.cls = .critical
        ∨ c.val = 13 ∧ (powerOn r s).htr.state = .shutdown ∨ c.val = 14 ∧ (powerOn r s).pwr.tpValid = false) := by
  have u : (powerOn r s).clk.u = 4294967295 := by rw [powerOn_clk]
  have status := initialStatus_iff (powerOn r s) c
  rw [u] at status
  rw [powerOn_cond]
  exact ⟨rfl, rfl, rfl, status⟩

/-! ### The channels -/

theorem powerOn_channel (c : Chan) : (powerOn r s).rings[c].newest = none ∧ (powerOn r s).rings[c].oldest = 0
    ∧ (powerOn r s).chn[c] = { det := s.store.load.dets[c] } := by
  have blank : ∀ c : Chan, (#v[({} : Ring), {}, {}, {}, {}, {}])[c] = {} := by decide
  rw [powerOn_rings, blank, powerOn_chn]
  exact ⟨rfl, rfl, by simp⟩

end

/-- Both calibration lines are low and both suppression windows closed. -/
theorem fresh_pulses : ∀ p : PortId, (#v[none, none] : Vector (Option Time) 2)[p] = none
    ∧ (#v[.closed, .closed] : Vector Window 2)[p] = .closed := by decide

/-- POWER_LOSS gives up a write in progress and the supply. -/
theorem exec_powerLoss {s : State} (powered : s.powered = true) :
    exec .powerLoss s = .next { s with powered := false, store := { s.store with saving := none } } := by
  have e : exec .powerLoss s = execPowerLoss s := rfl
  rw [e, execPowerLoss, act_on powered]

/-- Settles O10: block by block, the records that the start gives. -/
theorem powerOnStartsEveryBlock : Obligations.PowerOnStartsEveryBlock := by
  refine ⟨fun r s => ?_, fun s powered => exec_powerLoss powered⟩
  obtain ⟨map, pendingMap⟩ := powerOn_map r s
  obtain ⟨port0, port1⟩ := powerOn_ports r s
  obtain ⟨q, soc, cls, bat⟩ := powerOn_bat_fresh r s
  obtain ⟨wake, figs, report, number, start⟩ := powerOn_mon r s
  have spent : (powerOn r s).htr.spent = (powerOn r s).budgetSpent := by
    unfold State.budgetSpent
    rw [powerOn_heater]
  have limit : (powerOn r s).htr.limit = startLimit (powerOn r s).htr.spent (powerOn r s) := by rw [powerOn_heater]
  have request : ((powerOn r s).htr.request : Int) =
      max 0 (min ((powerOn r s).htr.limit : Int) ((powerOn r s).htr.error * (powerOn r s).heatGain)) := by
    rw [powerOn_heater]
    exact toNat_clampI_zero _ _
  have held (mv : Nat) : (if tempValid mv = true then tempOf mv else 0) =
      if 50 ≤ mv ∧ mv ≤ 1850 then (mv : Int) - 600 else 0 := by
    simp only [tempValid_iff, tempOf]
  refine ⟨_, exec_powerOn r s, powerOn_powered r s, powerOn_store r s, powerOn_params r s, map, pendingMap, ?_⟩
  have battery {α : Type} (f : Battery → α) : f (powerOn r s).bat = f { q := q, soc := soc, cls := cls } := congrArg f bat
  have heater {α : Type} (f : Heater → α) := congrArg f (powerOn_heater r s)
  have clock {α : Type} (f : Clock → α) := congrArg f (powerOn_clk r s)
  have scheduler {α : Type} (f : Scheduler → α) := congrArg f (powerOn_sch r s)
  have events {α : Type} (f : Events → α) := congrArg f (powerOn_evt r s)
  have outbox {α : Type} (f : Outbox → α) := congrArg f (powerOn_box r s)
  have modem {α : Type} (f : Modem → α) := congrArg f (powerOn_mdm r s)
  have power {α : Type} (f : Power → α) := congrArg f (powerOn_pwr r s)
  have bus {α : Type} (f : Bus → α) := congrArg f (powerOn_bus r s)
  have pulses : ∀ p : PortId, (powerOn r s).sch.lines[p] = none ∧ (powerOn r s).sch.windows[p] = .closed := by
    rw [powerOn_sch]
    exact fresh_pulses
  refine ⟨clock (·.s), clock (·.t), clock (·.disc), clock (·.u), clock (·.r), clock (·.c), clock (·.supply), clock (·.acc),
    clock (·.reason), clock (·.rLoss), clock (·.tLoss), clock (·.label), clock (·.lock), clock (·.unlock), clock (·.mismatch),
    clock (·.offset), clock (·.stepDeferred), clock (·.labelErrors), clock (·.unfixed), clock (·.steps), clock (·.session),
    clock (·.hold), powerOn_mrk r s, ?_⟩
  refine ⟨scheduler (·.next), scheduler (·.last), scheduler (·.rate), scheduler (·.pending), scheduler (·.cals),
    scheduler (·.calId), scheduler (·.lastBreak), scheduler (·.breaks), scheduler (·.settleEnd), pulses, port0, port1,
    powerOn_channel r s, ?_⟩
  refine ⟨events (·.state), events (·.number), events (·.list), events (·.record), events (·.notes), events (·.reports),
    events (·.lastVoted), events (·.post), events (·.released), events (·.lost), events (·.wakeTerm), ?_⟩
  refine ⟨outbox (·.entries), outbox (·.credits), outbox (·.creation), outbox (·.note), outbox (·.sent), outbox (·.drops),
    modem (·.link), modem (·.fails), modem (·.fault), ?_⟩
  refine ⟨power (·.vb), power (·.ib), power (·.vs), ?_, ?_, ?_, (power (·.tp)).trans (held r.tpMv),
    (power (·.tv)).trans (held r.tvMv), ?_⟩
  · rw [power (·.solar)]
    exact decide_eq_true_iff
  · rw [power (·.tpValid)]
    exact tempValid_iff _
  · rw [power (·.tvValid)]
    exact tempValid_iff _
  refine ⟨battery (·.power), battery (·.power.load), battery (·.charge), battery (·.charge.enabled), battery (·.restarts),
    battery (·.limit), battery (·.duty), battery (·.cutoff), battery (·.reconnect), battery (·.empty), battery (·.absorb),
    battery (·.term), battery (·.floatLow), battery (·.overRun), battery (·.clear), battery (·.hold), battery (·.fullSyncs),
    battery (·.emptySyncs), battery (·.faults), battery (·.sheds), ?_⟩
  refine ⟨heater (·.state), heater (·.latched), heater (·.heat), heater (·.period), heater (·.hold), heater (·.today),
    heater (·.day), heater (·.fault), heater (·.clear), heater (·.count), spent, heater (·.target), heater (·.error), limit,
    request, powerOn_condition r s, powerOn_deg r s, wake, figs, report, number, start, ?_⟩
  exact ⟨bus (·.recv), bus (·.frame), bus (·.req), bus (·.de), bus (·.counts), bus (·.restarts), bus (·.addr), bus (·.div),
    powerOn_osc r s, bus (·.listenFrom)⟩

end Sys2Proof.Proofs
end

