-- ==== Sys2Proof/Proofs/HeaterStages.lean ====
section
/-! PROOFS. The heater (chapter 8): its events, the six stages of a reading one by one, and from these the settling of O20 and
O21. -/
namespace Sys2Proof.Proofs

open Sys2Proof Sys2Proof.Machine Sys2Proof.Laws

/-! ### SHUTDOWN (R172, R173) -/

theorem reportHeater_htr (s : State) : (reportHeater s).htr = s.htr := htr_of (statusChange_does 13 _ s) (by decide)

theorem reportHeater_cond (s : State) : (reportHeater s).mon.conds[(13 : CondId)].status = (s.htr.state == .shutdown) :=
  statusChange_status 13 _ s (by decide)

theorem heaterShutdown_htr (s : State) : (heaterShutdown s).htr = { s.htr with
    state := .shutdown, heat := false, heatEnd := none, latched := 0, clear := 0, count := inc16 s.htr.count } :=
  reportHeater_htr _

theorem heaterShutdown_cond (s : State) : (heaterShutdown s).mon.conds[(13 : CondId)].status = true :=
  reportHeater_cond _

theorem heatOffDue_iff (s : State) : s.heatOffDue = true ↔ s.bat.power = .shed ∨ s.heatEnable = false := by
  simp [State.heatOffDue]

/-- R173: the state a heater takes on leaving SHUTDOWN. -/
theorem heatResume_eq (s : State) : s.heatResume = if s.bat.power = .shed ∨ s.heatEnable = false then .off
    else if s.htr.hold.isSome then .held else .regulate :=
  if_congr (heatOffDue_iff s) rfl rfl

theorem heatResume_ne (s : State) : s.heatResume ≠ .shutdown := by
  unfold State.heatResume
  split
  · decide
  · split <;> decide

theorem heaterRestart_htr (s : State) : (heaterRestart s).htr = { s.htr with state := s.heatResume, clear := 0 } :=
  reportHeater_htr _

theorem heaterRestart_cond (s : State) : (heaterRestart s).mon.conds[(13 : CondId)].status = false := by
  unfold heaterRestart
  rw [reportHeater_cond]
  exact beq_eq_false_iff_ne.mpr (heatResume_ne s)

/-! ### The HEAT_FAULT input (R172) -/

section FaultInput
variable {v : Bool} {dt : Nat} {f : State → State} {s : State}

/-- An input that has the level keeps it, and the cycles pass. -/
theorem faultChange_same (h : s.htr.fault = v) : faultChange v dt f s = elapse dt s := if_pos h

/-- The filter is not over within the present second. -/
theorem faultChange_early (h : s.htr.fault ≠ v) {u : State} (hu : u = elapse (max dt (s.htr.faultAt + 10000 - s.osc)) s)
    (early : u.osc < s.htr.faultAt + 10000) : faultChange v dt f s = u := by
  subst hu
  exact (if_neg h).trans (if_neg (Nat.not_le.mpr early))

theorem faultChange_due (h : s.htr.fault ≠ v) {u : State} (hu : u = elapse (max dt (s.htr.faultAt + 10000 - s.osc)) s)
    (due : s.htr.faultAt + 10000 ≤ u.osc) :
    faultChange v dt f s = f { u with htr := { u.htr with fault := v, faultAt := u.osc } } := by
  subst hu
  exact (if_neg h).trans (if_pos due)

end FaultInput

theorem exec_heatFaultAsserted (dt : Nat) {s : State} (powered : s.powered = true) :
    exec (.heatFaultAsserted dt) s = .next (faultChange true dt faultShutdown s) := by
  have e : exec (.heatFaultAsserted dt) s = execHeatFaultAsserted dt s := rfl
  rw [e, execHeatFaultAsserted, act_on powered]

theorem exec_heatFaultCleared (dt : Nat) {s : State} (powered : s.powered = true) :
    exec (.heatFaultCleared dt) s = .next (faultChange false dt id s) := by
  have e : exec (.heatFaultCleared dt) s = execHeatFaultCleared dt s := rfl
  rw [e, execHeatFaultCleared, act_on powered]

theorem exec_heaterHoldExpiry {s : State} {h : Nat} (powered : s.powered = true) (hold : s.htr.hold = some h)
    (boundary : s.moment.boundary = true) (quiet : s.quietMax ≤ h) :
    exec .heaterHoldExpiry s = .next (heaterHoldEnd s) := by
  have e : exec .heaterHoldExpiry s = execHeaterHoldExpiry s := rfl
  rw [e, execHeaterHoldExpiry, act_on powered, hold]
  exact congrArg Host.Outcome.next (if_pos (by simp [boundary, quiet]))

theorem exec_heaterAutoRestart {s : State} (powered : s.powered = true) (boundary : s.moment.boundary = true)
    (shutdown : s.htr.state = .shutdown) (clear : 60 ≤ s.htr.clear) (auto : s.heatRestart = false) :
    exec .heaterAutoRestart s = .next (heaterRestart s) := by
  have e : exec .heaterAutoRestart s = execHeaterAutoRestart s := rfl
  rw [e, execHeaterAutoRestart, act_on powered, if_pos (by simp [boundary, shutdown, clear, auto])]

theorem faultShutdown_in {s : State} (h : s.htr.state = .shutdown) :
    faultShutdown s = { s with htr := { s.htr with clear := 0 } } := if_pos h

theorem faultShutdown_enters {s : State} (h : s.htr.state ≠ .shutdown) : faultShutdown s = heaterShutdown s := if_neg h

/-- Settles O20: the filter's three outcomes, each for both levels, and the two commands at a boundary. -/
theorem heaterEventsAct : Obligations.HeaterEventsAct := by
  intro dt s u powered hu
  have htr : u.htr = s.htr := by
    rw [hu]
    exact htr_of (elapse_does _ s) (by decide)
  have asserted := exec_heatFaultAsserted dt powered
  have cleared := exec_heatFaultCleared dt powered
  refine ⟨fun h hold boundary quiet => exec_heaterHoldExpiry powered hold boundary quiet, fun low => ?_, fun high => ?_,
    fun early => ⟨fun high => ?_, fun low => ?_⟩,
    fun due => ⟨fun high => ?_, fun low shutdown => ?_, fun low running => ?_⟩,
    fun boundary shutdown clear auto => ⟨_, exec_heaterAutoRestart powered boundary shutdown clear auto, ?_⟩⟩
  · rw [cleared, faultChange_same low]
  · rw [asserted, faultChange_same high]
  · rw [cleared, faultChange_early (by simp [high]) hu early]
  · rw [asserted, faultChange_early (by simp [low]) hu early]
  · rw [cleared, faultChange_due (by simp [high]) hu due]
    rfl
  · rw [asserted, faultChange_due (by simp [low]) hu due, faultShutdown_in (by rw [← htr] at shutdown; exact shutdown)]
  · refine ⟨_, asserted, ?_⟩
    rw [faultChange_due (by simp [low]) hu due, faultShutdown_enters (by rw [← htr] at running; exact running)]
    exact heaterShutdown_htr _
  · rw [heaterRestart_htr, heatResume_eq]

/-! ### Stage 2: the day (R168, R169) -/

theorem heaterDay_eq (s : State) : heaterDay s = { s with htr := { s.htr with
    today := if s.clk.s / 86400 = s.htr.day then s.htr.today else 0
    day := s.clk.s / 86400
    spent := decide (s.dailyHeatBudgetLow * 3600000 ≤ if s.clk.s / 86400 = s.htr.day then s.htr.today else 0) } } := by
  unfold heaterDay
  by_cases same : s.clk.s / 86400 = s.htr.day
  · simp only [same, if_true]
    rfl
  · simp only [same, if_false]
    rfl

/-! ### Stage 3: the shutdown causes (R172, R173) -/

theorem heatCause_iff (s : State) :
    s.heatCause = true ↔ s.tHeaterCutoff < s.pwr.tp ∨ s.pwr.tpValid = false ∨ s.htr.fault = true := by
  simp [State.heatCause, or_assoc]

/-- A reading in SHUTDOWN before its restart is tested. -/
def heatClearTimed (s : State) : State :=
  { s with htr := { s.htr with clear := if s.heatCause then 0 else min (s.htr.clear + 1) 60 } }

theorem heaterCauses_in {s : State} (h : s.htr.state = .shutdown) : heaterCauses s =
    if (heatClearTimed s).htr.clear = 60 ∧ s.heatRestart = false then heaterRestart (heatClearTimed s) else heatClearTimed s :=
  if_pos h

section Causes
variable {s : State}

theorem heaterCauses_shuts (h : s.htr.state ≠ .shutdown) (cause : s.heatCause = true) :
    heaterCauses s = heaterShutdown s := by
  unfold heaterCauses
  rw [if_neg h, if_pos cause]

theorem heaterCauses_runs (h : s.htr.state ≠ .shutdown) (none : ¬ s.heatCause = true) : heaterCauses s = s := by
  unfold heaterCauses
  rw [if_neg h, if_neg none]

theorem heaterCauses_stays (h : s.htr.state = .shutdown) (cause : s.heatCause = true) :
    heaterCauses s = { s with htr := { s.htr with clear := 0 } } := by
  have timed : heatClearTimed s = { s with htr := { s.htr with clear := 0 } } := by
    unfold heatClearTimed
    rw [if_pos cause]
  rw [heaterCauses_in h, timed, if_neg]
  rintro ⟨full, -⟩
  cases full

theorem heatClearTimed_clear (none : ¬ s.heatCause = true) :
    heatClearTimed s = { s with htr := { s.htr with clear := min (s.htr.clear + 1) 60 } } := by
  unfold heatClearTimed
  rw [if_neg none]

theorem heaterCauses_waits (h : s.htr.state = .shutdown) (none : ¬ s.heatCause = true)
    (due : s.htr.clear + 1 < 60 ∨ s.heatRestart = true) :
    heaterCauses s = { s with htr := { s.htr with clear := min (s.htr.clear + 1) 60 } } := by
  rw [heaterCauses_in h, heatClearTimed_clear none, if_neg]
  rintro ⟨full, auto⟩
  have full : min (s.htr.clear + 1) 60 = 60 := full
  rcases due with k | k
  · omega
  · rw [auto] at k
    cases k

theorem heaterCauses_restarts (h : s.htr.state = .shutdown) (none : ¬ s.heatCause = true) (due : 60 ≤ s.htr.clear + 1)
    (auto : s.heatRestart = false) : heaterCauses s =
      heaterRestart { s with htr := { s.htr with clear := min (s.htr.clear + 1) 60 } } := by
  rw [heaterCauses_in h, heatClearTimed_clear none, if_pos]
  refine ⟨?_, auto⟩
  show min (s.htr.clear + 1) 60 = 60
  omega

end Causes

/-! ### Stage 4: the hold time (R170) -/

theorem heaterHold_none {s : State} (h : s.htr.hold = none) : heaterHold s = s := by
  unfold heaterHold
  rw [h]

theorem heaterHold_some {s : State} {h : Nat} (hold : s.htr.hold = some h) : heaterHold s =
    if s.quietMax ≤ h + 1 then { s with htr := { s.htr with
      hold := none, state := if s.htr.state = .held then .regulate else s.htr.state } }
    else { s with htr := { s.htr with hold := some (min (h + 1) 900) } } := by
  unfold heaterHold
  rw [hold]
  rfl

/-! ### Stage 5: the law (R162, R163, R166) -/

theorem heatTarget_eq (s : State) : s.heatTarget = if s.pwr.solar = true ∧ (s.bat.charge = .coldHold ∨ s.bat.charge = .bulk
    ∨ s.bat.charge = .absorb ∨ s.bat.charge = .float) then s.tChargeMin + s.tChargeMargin else s.tKeepWarm := by
  have charging : (s.pwr.solar && (s.bat.charge == .coldHold || s.bat.charge.enabled)) = true ↔ s.pwr.solar = true ∧
      (s.bat.charge = .coldHold ∨ s.bat.charge = .bulk ∨ s.bat.charge = .absorb ∨ s.bat.charge = .float) := by
    cases s.bat.charge <;> simp [Charge.enabled]
  exact if_congr charging rfl rfl

theorem dutyLimit_eq (s : State) : s.dutyLimit = match s.bat.cls with
    | .normal => s.dutyMaxNormal
    | .low => if s.htr.spent = true ∧ s.pwr.solar = false then 0 else s.dutyMaxLow
    | .critical => if s.pwr.solar = true then s.dutyMaxNormal else 0 := by
  unfold State.dutyLimit
  cases s.bat.cls with
  | normal => rfl
  | low => simp
  | critical => rfl

/-- The heater with the figures of stage 5, before the latch follows the limit. -/
def lawSet (s : State) : Heater := { s.htr with
  target := s.heatTarget
  error := s.heatTarget - s.pwr.tp
  limit := s.dutyLimit
  request := (clampI 0 s.dutyLimit ((s.heatTarget - s.pwr.tp) * s.heatGain)).toNat }

theorem heaterLaw_htr (s : State) : (heaterLaw s).htr = (lawSet s).relatch s.dutyLimit s.osc := rfl

theorem relimit_htr (s : State) : (relimit s).htr = s.htr.relatch s.dutyLimit s.osc := rfl

/-- A latched duty within the limit stays. -/
theorem relatch_within {h : Heater} {limit now : Nat} (k : h.latched ≤ limit) : h.relatch limit now = h :=
  if_neg (by omega)

/-- R166: a latched duty above the limit comes down to it; HEAT stays high up to its earlier end, or goes low. -/
theorem relatch_above {h : Heater} {limit now : Nat} (k : limit < h.latched) : h.relatch limit now =
    if h.heat = true ∧ now < h.periodAt + limit * h.periodLen * 10000 ∧ 0 < limit
    then { h with latched := limit, heatEnd := some (h.periodAt + limit * h.periodLen * 10000) }
    else { h with latched := limit, heat := false, heatEnd := none } := by
  unfold Heater.relatch
  rw [if_pos k]
  exact if_congr (by simp [and_assoc]) rfl rfl

/-- What the latch leaves of every field but its own. -/
theorem relatch_keeps (h : Heater) (limit now : Nat) : (h.relatch limit now).target = h.target
    ∧ (h.relatch limit now).error = h.error ∧ (h.relatch limit now).limit = h.limit
    ∧ (h.relatch limit now).request = h.request ∧ (h.relatch limit now).periodAt = h.periodAt
    ∧ (h.relatch limit now).periodLen = h.periodLen := by
  rcases Nat.lt_or_ge limit h.latched with k | k
  · rw [relatch_above k]
    split
    · exact ⟨rfl, rfl, rfl, rfl, rfl, rfl⟩
    · exact ⟨rfl, rfl, rfl, rfl, rfl, rfl⟩
  · rw [relatch_within k]
    exact ⟨rfl, rfl, rfl, rfl, rfl, rfl⟩

theorem relatch_latched (h : Heater) (limit now : Nat) : (h.relatch limit now).latched = min h.latched limit := by
  rcases Nat.lt_or_ge limit h.latched with k | k
  · rw [relatch_above k, Nat.min_eq_right (by omega)]
    split
    · rfl
    · rfl
  · rw [relatch_within k, Nat.min_eq_left k]

/-- The latch, HEAT and the end of its high time after a limit, in the terms of R166. -/
theorem relatch_outcome (h : Heater) (limit now : Nat) :
    (h.latched ≤ limit → (h.relatch limit now).latched = h.latched ∧ (h.relatch limit now).heat = h.heat
      ∧ (h.relatch limit now).heatEnd = h.heatEnd)
    ∧ (limit < h.latched → (h.relatch limit now).latched = limit
      ∧ (h.heat = true → now < h.periodAt + limit * h.periodLen * 10000 → 0 < limit →
          (h.relatch limit now).heat = true
          ∧ (h.relatch limit now).heatEnd = some (h.periodAt + limit * h.periodLen * 10000))
      ∧ (h.heat = false ∨ h.periodAt + limit * h.periodLen * 10000 ≤ now ∨ limit = 0 →
          (h.relatch limit now).heat = false ∧ (h.relatch limit now).heatEnd = none)) := by
  refine ⟨fun k => ?_, fun k => ⟨?_, fun heat early some => ?_, fun stops => ?_⟩⟩
  · rw [relatch_within k]
    exact ⟨rfl, rfl, rfl⟩
  · rw [relatch_latched]
    omega
  · rw [relatch_above k, if_pos ⟨heat, early, some⟩]
    exact ⟨heat, rfl⟩
  · rw [relatch_above k, if_neg]
    · exact ⟨rfl, rfl⟩
    · rintro ⟨heat, early, some⟩
      rcases stops with low | late | zero
      · rw [heat] at low
        cases low
      · omega
      · omega

/-! ### Stage 6: the period start (R164, R165, R171) -/

/-- R165: the duty latched at a period start, by heater state. -/
def latchedDuty (s : State) : Nat :=
  if s.htr.state = .regulate then s.htr.request else if s.htr.state = .held then s.htr.latched else 0

/-- R171: a latch is withheld by a hold. -/
abbrev Withheld (s : State) : Prop := s.htr.state = .held ∧ s.htr.request ≠ s.htr.latched

theorem flagRecord_htr (f : EvFlags → EvFlags) (s : State) : (flagRecord f s).htr = s.htr :=
  htr_of (flagRecord_does f s) (by decide)

theorem heaterWithheld_htr (s : State) : (heaterWithheld s).htr = { s.htr with holdFlagged := true } := by
  unfold heaterWithheld
  cases flagged : s.htr.holdFlagged with
  | true =>
    show s.htr = _
    rw [← flagged]
  | false => exact flagRecord_htr _ _

theorem heaterWithheld_record {s : State} {r : EvRecord} (h : s.evt.record = some r) : (heaterWithheld s).evt.record =
    some { r with flags := { r.flags with heatHeld := r.flags.heatHeld || !s.htr.holdFlagged } } := by
  unfold heaterWithheld
  cases flagged : s.htr.holdFlagged with
  | true => simpa using h
  | false =>
    have k := flagRecord_record (f := fun f => { f with heatHeld := true })
      (s := { s with htr := { s.htr with holdFlagged := true } }) h
    simpa using k

/-- What the latch of a period start makes of the heater and of the record in progress. -/
theorem heaterLatch_outcome (s : State) :
    (heaterLatch s).htr = { s.htr with
      latched := latchedDuty s, holdFlagged := decide (Withheld s) || s.htr.holdFlagged }
    ∧ ∀ r, s.evt.record = some r → (heaterLatch s).evt.record = some { r with flags := { r.flags with
        heatHeld := r.flags.heatHeld || (decide (Withheld s) && !s.htr.holdFlagged) } } := by
  unfold heaterLatch
  split
  next regulate =>
    have free : ¬ Withheld s := fun k => absurd (regulate.symm.trans k.1) (by decide)
    simp [free, latchedDuty, regulate]
  next held =>
    have duty : latchedDuty s = s.htr.latched := by simp [latchedDuty, held]
    rw [duty]
    split
    next same =>
      have free : ¬ Withheld s := fun k => k.2 same
      simp [free]
    next differs =>
      have withheld : Withheld s := ⟨held, differs⟩
      refine ⟨?_, fun r h => ?_⟩
      · simp [withheld, heaterWithheld_htr]
      · simp [withheld, heaterWithheld_record h]
  next regulate held =>
    have free : ¬ Withheld s := fun k => held k.1
    have duty : latchedDuty s = 0 := by
      unfold latchedDuty
      rw [if_neg regulate, if_neg held]
    simp [free, duty]

theorem heaterPeriod_start {s : State} (h : s.clk.s % s.heatPeriod = 0) :
    (heaterPeriod s).htr = Heater.drive { (heaterLatch s).htr with
        period := some s.clk.s, periodAt := s.osc, periodLen := s.heatPeriod } s.osc s.heatPeriod
    ∧ (heaterPeriod s).evt = (heaterLatch s).evt := by
  unfold heaterPeriod
  rw [if_pos h]
  exact ⟨rfl, rfl⟩

/-- Settles O21: stage by stage. -/
theorem heaterFollowsTheReading : Obligations.HeaterFollowsTheReading := by
  intro s
  refine ⟨⟨rfl, rfl, rfl⟩, heaterDay_eq s, ⟨?_, ?_, ?_, ?_, ?_⟩, ⟨heaterHold_none, fun h hold => ⟨?_, ?_⟩⟩,
    ⟨?_, ?_, ?_, ?_, ?_, ?_, ?_, ?_⟩, fun other => if_neg other, fun start => ?_⟩
  · intro running cause
    rw [heaterCauses_shuts running ((heatCause_iff s).mpr cause)]
    exact ⟨heaterShutdown_htr s, heaterShutdown_cond s⟩
  · intro running none
    exact heaterCauses_runs running (by rwa [heatCause_iff])
  · intro shutdown cause
    exact heaterCauses_stays shutdown ((heatCause_iff s).mpr cause)
  · intro shutdown none due
    exact heaterCauses_waits shutdown (by rwa [heatCause_iff]) due
  · intro shutdown none due auto
    rw [heaterCauses_restarts shutdown (by rwa [heatCause_iff]) due auto]
    refine ⟨?_, heaterRestart_cond _⟩
    rw [heaterRestart_htr, heatResume_eq]
    rfl
  · intro short
    rw [heaterHold_some hold, if_neg (by omega)]
  · intro long
    rw [heaterHold_some hold, if_pos long]
  · rw [heaterLaw_htr, (relatch_keeps _ _ _).1]
    exact heatTarget_eq s
  · obtain ⟨-, error, -⟩ := relatch_keeps (lawSet s) s.dutyLimit s.osc
    rw [heaterLaw_htr, error, ← heatTarget_eq]
    rfl
  · obtain ⟨-, -, limit, -⟩ := relatch_keeps (lawSet s) s.dutyLimit s.osc
    rw [heaterLaw_htr, limit]
    exact dutyLimit_eq s
  · obtain ⟨-, -, -, request, -⟩ := relatch_keeps (lawSet s) s.dutyLimit s.osc
    rw [heaterLaw_htr, request, ← heatTarget_eq]
    refine (toNat_clampI_zero _ _).trans ?_
    exact congrArg (fun limit : Nat => max 0 (min (limit : Int) ((s.heatTarget - s.pwr.tp) * s.heatGain))) (dutyLimit_eq s)
  · rw [heaterLaw_htr, relatch_latched]
    exact congrArg (min s.htr.latched) (dutyLimit_eq s)
  · obtain ⟨-, -, -, -, periodAt, -⟩ := relatch_keeps (lawSet s) s.dutyLimit s.osc
    rw [heaterLaw_htr, periodAt]
    rfl
  · obtain ⟨-, -, -, -, -, periodLen⟩ := relatch_keeps (lawSet s) s.dutyLimit s.osc
    rw [heaterLaw_htr, periodLen]
    rfl
  · intro t ht
    rcases ht with rfl | rfl
    · have k := relatch_outcome (lawSet s) s.dutyLimit s.osc
      rw [← heaterLaw_htr, dutyLimit_eq] at k
      exact k
    · have k := relatch_outcome s.htr s.dutyLimit s.osc
      rw [← relimit_htr, dutyLimit_eq] at k
      exact k
  · obtain ⟨htr, evt⟩ := heaterPeriod_start start
    obtain ⟨latch, record⟩ := heaterLatch_outcome s
    refine ⟨?_, fun r h => ?_⟩
    · rw [htr, latch]
      rfl
    · rw [evt]
      exact record r h

end Sys2Proof.Proofs
end

