-- ==== Sys2Proof/Proofs/StationTime.lean ====
section
/-! PROOFS. Station time (1.1, 1.2): the cycles counted within a second with its correction points, the phase error, and from
these the settling of O22 and O24. -/
namespace Sys2Proof.Proofs

open Sys2Proof Sys2Proof.Machine Sys2Proof.Laws

/-! ### Counting within a second (R1, R2) -/

theorem advance_nil (up : Bool) (t n : Nat) : Clock.advance up t [] n = (t + n, []) := rfl

theorem advance_zero {up : Bool} {t : Nat} {l : List Nat} (ahead : ∀ p ∈ l, t ≤ p) : Clock.advance up t l 0 = (t, l) := by
  cases l with
  | nil => rfl
  | cons p r => rw [Clock.advance, if_neg (by have := ahead p (List.mem_cons_self ..); omega), if_pos (Nat.zero_le _)]; rfl

/-- Counting that ends before the next correction point adds its cycles. -/
theorem advance_before {up : Bool} {t p n : Nat} {r : List Nat} (ahead : t ≤ p) (h : n ≤ p - t) :
    Clock.advance up t (p :: r) n = (t + n, p :: r) := by
  rw [Clock.advance, if_neg (by omega), if_pos h]

/-- Counting that passes a correction point goes on from behind it, two ticks or none on for its one cycle. -/
theorem advance_past {up : Bool} {t p n : Nat} {r : List Nat} (ahead : t ≤ p) (h : p - t < n) :
    Clock.advance up t (p :: r) n = Clock.advance up (if up then p + 2 else p) r (n - (p - t) - 1) := by
  rw [Clock.advance, if_neg (by omega), if_neg (by omega)]

/-- Points ahead of the tick and at least two ticks apart: some first k of them are passed, each for one tick more or less. -/
theorem advance_spaced (up : Bool) (l : List Nat) (t n : Nat) (spaced : l.Pairwise fun p q => p + 2 ≤ q)
    (ahead : ∀ p ∈ l, t ≤ p) : ∃ k, k ≤ l.length
      ∧ (Clock.advance up t l n).1 = (if up = true then t + n + k else t + n - k)
      ∧ (Clock.advance up t l n).2 = l.drop k ∧ (∀ p ∈ l.take k, p ≤ (Clock.advance up t l n).1)
      ∧ ∀ p ∈ l.drop k, (Clock.advance up t l n).1 ≤ p := by
  induction l generalizing t n with
  | nil => exact ⟨0, Nat.le_refl 0, (ite_self _).symm, rfl, nofun, nofun⟩
  | cons p r ih =>
    have next : t ≤ p := ahead p (List.mem_cons_self ..)
    rcases Nat.lt_or_ge (p - t) n with past | before
    · obtain ⟨apart, rest⟩ := List.pairwise_cons.mp spaced
      have further : ∀ q ∈ r, (if up then p + 2 else p) ≤ q := fun q hq => by
        have := apart q hq
        split <;> omega
      obtain ⟨k, hk, tick, left, passed, coming⟩ := ih (if up then p + 2 else p) (n - (p - t) - 1) rest further
      have beyond : p ≤ if up then p + 2 else p := by split <;> omega
      have reached := advance_ge up r (if up then p + 2 else p) (n - (p - t) - 1)
      rw [advance_past next past]
      refine ⟨k + 1, Nat.succ_le_succ hk, ?_, left, ?_, coming⟩
      · rw [tick]
        cases up with
        | true => simp only [if_true]; omega
        | false => simp only [Bool.false_eq_true, if_false]; omega
      · rintro q hq
        rcases List.mem_cons.mp hq with rfl | hq
        · exact Nat.le_trans beyond reached
        · exact passed q hq
    · rw [advance_before next before]
      refine ⟨0, Nat.zero_le _, (ite_self _).symm, rfl, nofun, fun q hq => ?_⟩
      rcases List.mem_cons.mp hq with rfl | hq
      · show t + n ≤ q
        omega
      · have := (List.pairwise_cons.mp spaced).1 q hq
        show t + n ≤ q
        omega

/-- No cycle: the part stays. -/
theorem elapse_zero (s : State) : elapse 0 s = s := by
  unfold elapse
  rw [Nat.zero_min]
  exact if_pos rfl

section Cycles
variable {n : Nat} {s : State} (h : n < s.clk.cyclesLeft)
include h

/-- Within the second all the cycles asked for pass. -/
theorem elapse_osc : (elapse n s).osc = s.osc + n := by
  have all : min n (s.clk.cyclesLeft - 1) = n := by omega
  unfold elapse
  dsimp only
  rw [all]
  split
  · omega
  · rfl

/-- Within the second the tick and the points ahead are those of `Clock.advance`. -/
theorem elapse_advance (ahead : ∀ p ∈ s.clk.corr, s.clk.t ≤ p) :
    ((elapse n s).clk.t, (elapse n s).clk.corr) = Clock.advance s.clk.corrUp s.clk.t s.clk.corr n := by
  rcases Nat.eq_zero_or_pos n with rfl | some
  · rw [elapse_zero, advance_zero ahead]
  · have all : min n (s.clk.cyclesLeft - 1) = n := by omega
    unfold elapse
    dsimp only
    rw [all, if_neg (by omega)]

theorem reach_within : ∃ u, reach (s.osc + n) s = some u ∧ u.osc = s.osc + n := by
  unfold reach
  by_cases zero : n = 0
  · exact ⟨s, if_pos (by omega), by omega⟩
  · refine ⟨elapse n s, ?_, elapse_osc h⟩
    rw [if_neg (by omega), Nat.add_sub_cancel_left, if_pos h]

end Cycles

/-- Settles O22: the tick is `Clock.advance`'s, for no point, for one and for a spaced list. -/
theorem cyclesCountTime : Obligations.CyclesCountTime := by
  intro n s within
  refine ⟨elapse_osc within, (elapse_does n s).frame, elapse_ticks n s, ?_, ?_, ?_, ?_, reach_within within⟩
  · intro none
    have advance := elapse_advance within (by rw [none]; exact nofun)
    rw [none, advance_nil] at advance
    exact congrArg Prod.fst advance
  · intro p one ahead before
    have advance := elapse_advance within (by rw [one]; exact List.forall_mem_singleton.mpr ahead)
    rw [one, advance_before ahead before] at advance
    exact congrArg Prod.fst advance
  · intro p one ahead past
    have advance := elapse_advance within (by rw [one]; exact List.forall_mem_singleton.mpr ahead)
    rw [one, advance_past ahead past, advance_nil] at advance
    have tick : (elapse n s).clk.t = (if s.clk.corrUp then p + 2 else p) + (n - (p - s.clk.t) - 1) :=
      congrArg Prod.fst advance
    rw [tick]
    split <;> omega
  · intro spaced ahead
    have advance := elapse_advance within ahead
    have tick : (elapse n s).clk.t = _ := congrArg Prod.fst advance
    have corr : (elapse n s).clk.corr = _ := congrArg Prod.snd advance
    rw [tick, corr]
    exact advance_spaced _ _ _ n spaced ahead

/-! ### The phase error (R7) -/

theorem phaseError_low {t : Nat} (h : t ≤ 4999999) : phaseError t = t := if_pos h

theorem phaseError_high {t : Nat} (h : 4999999 < t) : phaseError t = (t : Int) - 10000000 := if_neg (by omega)

/-- R206: the prescale of the PPS input is one of its three values. -/
theorem ppsPrescale_of_fit {s : State} (h : s.paramsFit) : s.ppsPrescale = 1 ∨ s.ppsPrescale = 4 ∨ s.ppsPrescale = 16 := by
  have row : (⟨22, .oneOf [1, 4, 16], 1⟩ : ParamRow) ∈ paramTable := by decide
  have fit : [4, 16].foldl (nearer (s.param 22)) 1 = s.param 22 := h _ row
  have mem := foldNearer_mem (s.param 22) [4, 16] 1
  rw [fit] at mem
  have e : s.ppsPrescale = (s.param 22).toNat := rfl
  simp only [List.mem_cons, List.not_mem_nil, or_false] at mem
  rcases mem with k | k | k
  · exact .inl (by rw [e, k]; rfl)
  · exact .inr (.inl (by rw [e, k]; rfl))
  · exact .inr (.inr (by rw [e, k]; rfl))

/-- Settles O24: the two halves of the second. -/
theorem phaseErrorAndEdgeSecond : Obligations.PhaseErrorAndEdgeSecond := by
  refine ⟨fun x bound => ?_, by decide, fun s => ppsPrescale_of_fit⟩
  rcases Nat.lt_or_ge 4999999 x.t with high | low
  · have e := phaseError_high high
    refine ⟨by omega, by omega, fun _ => by omega, fun _ => e, fun _ => by omega, fun neg => ?_⟩
    exact if_neg (by omega)
  · have e := phaseError_low low
    refine ⟨by omega, by omega, fun _ => e, fun _ => by omega, fun pos => if_pos pos, fun _ => by omega⟩

end Sys2Proof.Proofs
end

