-- ==== Sys2Proof/Proofs/Links.lean ====
section
/-! PROOFS. The link of a port after its outcomes and under its commands (3.2), what its channels take from it (4.3), and the
two commands of a channel's own update (R75, R77): the settling of O39, O40 and O41. -/
namespace Sys2Proof.Proofs

open Sys2Proof Sys2Proof.Machine Sys2Proof.Laws

/-! ### WARMUP_COMPLETE and LTA_RELEASE -/

/-- Settles O41: both commands put the one channel, under the condition of their own. -/
theorem warmupEndsAndLtaIsReleased : Obligations.WarmupEndsAndLtaIsReleased := by
  intro c s powered updated
  refine ⟨fun warmup done => ?_, fun triggered due held => ?_⟩
  · have e : exec (.warmupComplete c) s = execWarmupComplete c s := rfl
    rw [e, execWarmupComplete, act_on powered, if_pos (by rw [updated, warmup, Channel.warmupDone, decide_eq_true done]; rfl)]
    rfl
  · have e : exec (.ltaRelease c) s = execLtaRelease c s := rfl
    rw [e, execLtaRelease, act_on powered, if_pos (by rw [updated, triggered, Channel.releaseDue, decide_eq_true due, held]; rfl)]
    rfl

/-! ### A changed link -/

theorem linkChanged_prt (p : PortId) (s : State) : (linkChanged p s).prt = s.prt := prt_of (linkChanged_does p s) (by decide)

theorem setLink_prt (p : PortId) (x : Port) (s : State) : (linkChanged p (setPort p x s)).prt = s.prt.set p x :=
  linkChanged_prt p _

/-- A channel sourced from a port whose link has changed has been looked at for its eligibility (R54, R74). -/
theorem setLink_chan {p : PortId} (x : Port) {s : State} {c : Chan} (sourced : s.sourcePort c = some p) :
    (linkChanged p (setPort p x s)).chn[c] = refreshed s.chn[c] (s.chn[c].det.enable && x.link == .up) := by
  have reported := reportPort_does p (setPort p x s)
  have source : (reportPort p (setPort p x s)).sourcePort c = some p :=
    (sourcePort_of_does reported (by decide) c).trans sourced
  have chan : (reportPort p (setPort p x s)).chn = (setPort p x s).chn := chn_of reported (by decide)
  have port : (reportPort p (setPort p x s)).prt = (setPort p x s).prt := prt_of reported (by decide)
  have eligible : (reportPort p (setPort p x s)).chanEligible c = (s.chn[c].det.enable && x.link == .up) := by
    unfold State.chanEligible
    rw [source, chan]
    dsimp only
    rw [port, setPort_port, if_pos rfl]
    rfl
  rw [linkChanged, refreshPort_chan, if_pos source, eligible, chan]
  rfl

theorem refreshed_eligible (x : Channel) : (refreshed x true).state ≠ .off := by
  unfold refreshed
  rw [if_pos rfl]
  split
  · unfold Channel.restart
    dsimp only
    rw [if_pos rfl]
    split <;> decide
  · assumption

/-! ### Outcomes (R50 to R52) -/

theorem decideOutcome_port (p : PortId) (k : Nat) (o : PortOutcome) (f : Option Frame) (s : State) :
    (decideOutcome p k o f s).prt[p] =
      { s.prt[p].take f.isSome ((f.map Frame.alarm).getD false) with last := some o, window := none, transfer := none } := by
  have reported : (reportOutcome p o s).prt = s.prt := prt_of (reportOutcome_does p o s) (by decide)
  unfold decideOutcome
  rw [prt_of (writePortSlots_does p k f _) (by decide), setLink_prt, reported]
  simp

section Take
variable {x : Port} {alarm : Bool}

theorem take_starting_bad (h : x.link = .starting) : x.take false alarm = x := by
  unfold Port.take
  rw [h]

theorem take_starting_good (h : x.link = .starting) : x.take true alarm = x.goUp alarm := by
  unfold Port.take
  rw [h]

theorem take_up_good (h : x.link = .up) : x.take true alarm = { x with badRun := 0, alarm := alarm } := by
  unfold Port.take
  rw [h]

theorem take_up_bad (h : x.link = .up) (few : x.badRun < 7) : x.take false alarm = { x with badRun := x.badRun + 1 } := by
  have run : min (x.badRun + 1) 8 = x.badRun + 1 := by omega
  unfold Port.take
  rw [h]
  dsimp only
  rw [if_neg (by omega), run]

theorem take_up_eighth (h : x.link = .up) (seven : 7 ≤ x.badRun) :
    x.take false alarm = { x with badRun := 8 }.goDown := by
  have run : min (x.badRun + 1) 8 = 8 := by omega
  unfold Port.take
  rw [h]
  dsimp only
  rw [run, if_pos (Nat.le_refl 8)]

theorem take_down_bad (h : x.link = .down) : x.take false alarm = { x with goodRun := 0 } := by
  unfold Port.take
  rw [h]

theorem take_down_good (h : x.link = .down) (few : x.goodRun < 15) :
    x.take true alarm = { x with goodRun := x.goodRun + 1 } := by
  have run : min (x.goodRun + 1) 16 = x.goodRun + 1 := by omega
  unfold Port.take
  rw [h]
  dsimp only
  rw [if_neg (by omega), run]

theorem take_down_sixteenth (h : x.link = .down) (fifteen : 15 ≤ x.goodRun) :
    x.take true alarm = { x with goodRun := 16 }.goUp alarm := by
  have run : min (x.goodRun + 1) 16 = 16 := by omega
  unfold Port.take
  rw [h]
  dsimp only
  rw [run, if_pos (Nat.le_refl 16)]

end Take

/-- Settles O39: the port after an outcome is `Port.take`'s, whose cases stand above. -/
theorem linkFollowsOutcomes : Obligations.LinkFollowsOutcomes := by
  intro p k o f s x y
  have after : y = { x.take f.isSome ((f.map Frame.alarm).getD false) with
      last := some o, window := none, transfer := none } := decideOutcome_port p k o f s
  rw [after]
  refine ⟨?_, ?_, ?_, ?_, ?_, ?_, ?_, ?_⟩
  · rintro link rfl
    exact (congrArg Port.link (take_starting_bad link)).trans link
  · rintro g link rfl
    have e : x.take true g.alarm = _ := take_starting_good link
    exact ⟨congrArg Port.link e, congrArg Port.alarm e, congrArg Port.badRun e⟩
  · rintro g link rfl
    have e : x.take true g.alarm = _ := take_up_good link
    exact ⟨(congrArg Port.link e).trans link, congrArg Port.badRun e, congrArg Port.alarm e⟩
  · rintro link rfl few
    have e : x.take false false = _ := take_up_bad link few
    exact ⟨(congrArg Port.link e).trans link, congrArg Port.badRun e⟩
  · rintro link rfl seven
    have e : x.take false false = _ := take_up_eighth link seven
    exact ⟨congrArg Port.link e, congrArg Port.goodRun e, congrArg Port.downs e⟩
  · rintro link rfl
    have e : x.take false false = _ := take_down_bad link
    exact ⟨(congrArg Port.link e).trans link, congrArg Port.goodRun e⟩
  · rintro g link rfl few
    have e : x.take true g.alarm = _ := take_down_good link few
    exact ⟨(congrArg Port.link e).trans link, congrArg Port.goodRun e⟩
  · rintro g link rfl fifteen
    have e : x.take true g.alarm = _ := take_down_sixteenth link fifteen
    exact ⟨congrArg Port.link e, congrArg Port.alarm e, congrArg Port.badRun e⟩

/-! ### The commands of a link -/

theorem upDue_of {x : Port} (h : x.link = .down ∧ 16 ≤ x.goodRun ∨ x.link = .starting ∧ ∃ q, x.last = some (.good q)) :
    x.upDue = true := by
  unfold Port.upDue
  rcases h with ⟨down, run⟩ | ⟨starting, q, good⟩
  · rw [down]
    exact decide_eq_true run
  · rw [starting, good]

/-- Settles O40: each command sets its port and has the change of the link followed. -/
theorem linkCommandsMoveTheLink : Obligations.LinkCommandsMoveTheLink := by
  intro p s u powered
  refine ⟨fun starting reached => ?_, fun a due => ?_, fun up run => ?_⟩
  · refine ⟨startingExpired p u, ?_, setLink_prt p _ u⟩
    have e : exec (.startingTimeout p) s = execStartingTimeout p s := rfl
    rw [e, execStartingTimeout, act_on powered, if_pos starting, atCycle_of_reach reached]
  · refine ⟨linkChanged p (setPort p (s.prt[p].goUp a) s), ?_, setLink_prt p _ s, fun c sourced enabled => ?_⟩
    · have e : exec (.linkUp p a) s = execLinkUp p a s := rfl
      rw [e, execLinkUp, act_on powered, if_pos (upDue_of due)]
    · rw [setLink_chan _ sourced, enabled]
      exact refreshed_eligible _
  · refine ⟨linkChanged p (setPort p s.prt[p].goDown s), ?_, setLink_prt p _ s, fun c sourced => ?_⟩
    · have e : exec (.linkDown p) s = execLinkDown p s := rfl
      rw [e, execLinkDown, act_on powered, if_pos (by rw [up, decide_eq_true run]; rfl)]
    · rw [setLink_chan _ sourced]
      have down : (s.chn[c].det.enable && s.prt[p].goDown.link == .up) = false := Bool.and_false _
      rw [down]
      exact refreshed_ineligible _

end Sys2Proof.Proofs
end

