-- ==== Sys2Proof/Proofs/ConditionRows.lean ====
section
/-! PROOFS. The rows of the condition table (chapter 9): the row a status change writes, what the change hands to the outbox and
what a lost alert does to the row of OUTBOX_DROP; from these the settling of O46. -/
namespace Sys2Proof.Proofs

open Sys2Proof Sys2Proof.Machine Sys2Proof.Laws

theorem setCond_same (c : CondId) (x : Cond) (s : State) : (setCond c x s).mon.conds[c] = x := by
  rw [setCond_conds, if_pos rfl]

theorem setCond_setCond (c : CondId) (x y : Cond) (s : State) : setCond c y (setCond c x s) = setCond c y s := by
  unfold setCond
  simp

/-! ### A lost alert -/

theorem dropOccurrence_box (s : State) : (dropOccurrence s).box = s.box := box_of (dropOccurrence_does s) (by decide)

/-- The row of an occurrence condition after an occurrence (R182). -/
def occurredRow (c : CondId) (s : State) : Cond :=
  if s.mon.conds[c].status = true then { s.mon.conds[c] with pending := true }
  else { s.mon.conds[c].change true s.stamp with pending := true }

theorem occurredRow_spec (c : CondId) (s : State) : (occurredRow c s).pending = true ∧ (occurredRow c s).status = true
    ∧ (occurredRow c s).changes = (if s.mon.conds[c].status = true then s.mon.conds[c].changes
        else inc16 s.mon.conds[c].changes)
    ∧ (occurredRow c s).last = if s.mon.conds[c].status = true then s.mon.conds[c].last else some s.stamp := by
  unfold occurredRow
  by_cases held : s.mon.conds[c].status = true
  · rw [if_pos held, if_pos held, if_pos held]
    exact ⟨rfl, held, rfl, rfl⟩
  · rw [if_neg held, if_neg held, if_neg held]
    exact ⟨rfl, rfl, rfl, rfl⟩

theorem dropOccurrence_mon (s : State) : (dropOccurrence s).mon.conds = (setCond 16 (occurredRow 16 s) s).mon.conds
    ∧ (dropOccurrence s).mon.figs = s.mon.figs := by
  unfold dropOccurrence
  dsimp only
  split
  next held =>
    have row : occurredRow 16 s = { s.mon.conds[(16 : CondId)] with pending := true } := if_pos held
    rw [row]
    exact ⟨rfl, rfl⟩
  next clear =>
    have row : occurredRow 16 s = { s.mon.conds[(16 : CondId)].change true s.stamp with pending := true } := if_neg clear
    rw [row]
    split <;> exact ⟨rfl, rfl⟩

theorem dropOccurrence_row (s : State) : (dropOccurrence s).mon.conds[(16 : CondId)] = occurredRow 16 s := by
  rw [(dropOccurrence_mon s).1]
  exact setCond_same 16 _ s

theorem alertLost_box (s : State) : (alertLost s).box = { s.box with drops := inc16 s.box.drops } := dropOccurrence_box _

theorem alertLost_figs (s : State) :
    (alertLost s).mon.figs = { s.mon.figs with dropped := inc16 s.mon.figs.dropped } := (dropOccurrence_mon _).2

theorem alertLost_row (s : State) : (alertLost s).mon.conds[(16 : CondId)].pending = true
    ∧ (alertLost s).mon.conds[(16 : CondId)].status = true := by
  unfold alertLost
  rw [dropOccurrence_row]
  obtain ⟨pending, status, -⟩ := occurredRow_spec 16 _
  exact ⟨pending, status⟩

/-! ### A record placed -/

section Place
variable (a : Alert) {s : State}

theorem place_full (full : 12 ≤ s.box.entries.length) : place a s =
    match lastWaiting s.box.entries with
    | none => alertLost s
    | some w => if a.rank < w.rank then alertLost { s with box := s.box.enter a (s.box.entries.erase w) } else alertLost s :=
  if_neg (by omega)

/-- Placing looks at the outbox alone. -/
theorem place_box_congr {t : State} (h : t.box = s.box) : (place a t).box = (place a s).box := by
  unfold place
  rw [h]
  split
  · rfl
  · split
    · rw [alertLost_box, alertLost_box, h]
    · split
      · rw [alertLost_box, alertLost_box]
      · rw [alertLost_box, alertLost_box, h]

theorem place_figs : (place a s).mon.figs = { s.mon.figs with dropped := (place a s).mon.figs.dropped } := by
  rcases Nat.lt_or_ge s.box.entries.length 12 with room | full
  · rw [place_room a s room]
  · rw [place_full a full]
    split
    · rw [alertLost_figs]
    · split <;> rw [alertLost_figs]

end Place

section ConditionAlert
variable (c : CondId) (v : Bool) (x : Stamp) {s : State}

theorem conditionAlert_box_congr {t : State} (box : t.box = s.box) (stamp : t.stamp = s.stamp) :
    (conditionAlert c v x t).box = (conditionAlert c v x s).box := by
  unfold conditionAlert
  rw [box, stamp]
  split
  · rfl
  · exact place_box_congr _ box

theorem conditionAlert_figs :
    (conditionAlert c v x s).mon.figs = { s.mon.figs with dropped := (conditionAlert c v x s).mon.figs.dropped } := by
  unfold conditionAlert
  split
  · rfl
  · exact place_figs _

/-- With room in the outbox no alert is lost: the monitor stands, and at most one entry more. -/
theorem conditionAlert_room (room : s.box.entries.length < 12) :
    (conditionAlert c v x s).mon = s.mon ∧ (conditionAlert c v x s).box.entries.length ≤ s.box.entries.length + 1 := by
  unfold conditionAlert
  split
  · exact ⟨rfl, by simp⟩
  · rw [place_room _ s room]
    exact ⟨rfl, Nat.le_of_eq (length_enter _ _ _)⟩

end ConditionAlert

/-! ### A status change -/

/-- The pending mark of c is set by its change: c is no occurrence condition and nothing blocks it (R180, R181). -/
def marks (c : CondId) (s : State) : Bool := !(isOccurrence c || s.pendingBlocked c)

/-- The row of condition c after a change to v. -/
def changedRow (c : CondId) (v : Bool) (s : State) : Cond :=
  { s.mon.conds[c].change v s.stamp with pending := s.mon.conds[c].pending || marks c s }

/-- The change handed to the outbox, where its condition is in the alert set. -/
def handOn (c : CondId) (v : Bool) (x : Stamp) (s : State) : State :=
  if inSet s.alertSet c = true then conditionAlert c v x s else s

theorem handOn_in {c : CondId} {s : State} (h : inSet s.alertSet c = true) (v : Bool) (x : Stamp) (k : Cond) :
    handOn c v x (setCond c k s) = conditionAlert c v x (setCond c k s) := if_pos h

theorem handOn_out {c : CondId} {s : State} (h : inSet s.alertSet c = false) (v : Bool) (x : Stamp) (k : Cond) :
    handOn c v x (setCond c k s) = setCond c k s := if_neg fun held => Bool.false_ne_true (h.symm.trans held)

theorem pendingBlocked_setCond (c : CondId) (x : Cond) (s : State) : (setCond c x s).pendingBlocked c = s.pendingBlocked c := by
  have other : ∀ b, blockerOf c = some b → c ≠ b := by revert c; decide
  unfold State.pendingBlocked
  cases h : blockerOf c with
  | none => rfl
  | some b =>
    show (setCond c x s).mon.conds[b].status = s.mon.conds[b].status
    rw [setCond_conds, if_neg (other b h)]

/-- The conditions, the figures and the outbox after a change: those of the row written and the alert handed on. -/
theorem statusChange_changed {c : CondId} {v : Bool} {s : State} (h : s.mon.conds[c].status ≠ v) :
    let u := handOn c v s.stamp (setCond c (changedRow c v s) s)
    (statusChange c v s).mon.conds = u.mon.conds ∧ (statusChange c v s).mon.figs = u.mon.figs
      ∧ (statusChange c v s).box = u.box := by
  have row : (if isOccurrence c || (setCond c (s.mon.conds[c].change v s.stamp) s).pendingBlocked c
      then setCond c (s.mon.conds[c].change v s.stamp) s
      else setCond c { (setCond c (s.mon.conds[c].change v s.stamp) s).mon.conds[c] with pending := true }
        (setCond c (s.mon.conds[c].change v s.stamp) s)) = setCond c (changedRow c v s) s := by
    rw [pendingBlocked_setCond, setCond_same, setCond_setCond]
    unfold changedRow marks
    cases isOccurrence c || s.pendingBlocked c
    · simp
    · simp [Cond.change]
  unfold statusChange completeChange
  rw [if_neg h]
  dsimp only
  rw [row]
  unfold handOn
  generalize (if inSet (setCond c (changedRow c v s) s).alertSet c = true then _ else _ : State) = w
  split <;> exact ⟨rfl, rfl, rfl⟩

theorem statusChange_same {c : CondId} {v : Bool} {s : State} (h : s.mon.conds[c].status = v) : statusChange c v s = s :=
  if_pos h

section Changed
variable {c : CondId} {v : Bool} {s : State}

/-- A change writes its row, which only an alert of OUTBOX_DROP's own, lost, could write again. -/
theorem statusChange_row (h : s.mon.conds[c].status ≠ v) (k : c.val ≠ 16 ∨ inSet s.alertSet c = false) :
    (statusChange c v s).mon.conds[c] = changedRow c v s := by
  rw [(statusChange_changed h).1]
  rcases k with other | out
  · unfold handOn
    split
    · rw [conditionAlert_cond _ _ _ _ c other, setCond_same]
    · exact setCond_same _ _ _
  · rw [handOn_out out, setCond_same]

theorem statusChange_box (h : s.mon.conds[c].status ≠ v) :
    (statusChange c v s).box = if inSet s.alertSet c = true then (conditionAlert c v s.stamp s).box else s.box := by
  rw [(statusChange_changed h).2.2]
  cases k : inSet s.alertSet c
  · rw [handOn_out k]
    rfl
  · rw [handOn_in k, if_pos rfl]
    exact conditionAlert_box_congr _ _ _ rfl rfl

/-- Of the figures a report changes the dropped alerts alone. -/
theorem statusChange_figs (c : CondId) (v : Bool) (s : State) :
    (statusChange c v s).mon.figs = { s.mon.figs with dropped := (statusChange c v s).mon.figs.dropped } := by
  by_cases h : s.mon.conds[c].status = v
  · rw [statusChange_same h]
  · rw [(statusChange_changed h).2.1]
    unfold handOn
    split
    · exact conditionAlert_figs _ _ _
    · rfl

/-- A report for which no alert can be lost: the figures stand, and every row but its own. -/
theorem statusChange_quiet (c : CondId) (v : Bool) {s : State}
    (quiet : s.box.entries.length < 12 ∨ inSet s.alertSet c = false) :
    (statusChange c v s).mon.figs = s.mon.figs
    ∧ (statusChange c v s).box.entries.length ≤ s.box.entries.length + 1
    ∧ (∀ d, d ≠ c → (statusChange c v s).mon.conds[d] = s.mon.conds[d])
    ∧ (s.mon.conds[c].status ≠ v → (statusChange c v s).mon.conds[c] = changedRow c v s) := by
  by_cases h : s.mon.conds[c].status = v
  · rw [statusChange_same h]
    exact ⟨rfl, Nat.le_succ _, fun _ _ => rfl, fun k => absurd h k⟩
  · obtain ⟨conds, figs, box⟩ := statusChange_changed h
    rw [conds, figs, box]
    have handed : (handOn c v s.stamp (setCond c (changedRow c v s) s)).mon = (setCond c (changedRow c v s) s).mon
        ∧ (handOn c v s.stamp (setCond c (changedRow c v s) s)).box.entries.length ≤ s.box.entries.length + 1 := by
      rcases quiet with room | out
      · unfold handOn
        split
        · exact conditionAlert_room c v _ (s := setCond c (changedRow c v s) s) room
        · exact ⟨rfl, Nat.le_succ _⟩
      · rw [handOn_out out]
        exact ⟨rfl, Nat.le_succ _⟩
    obtain ⟨mon, length⟩ := handed
    rw [mon]
    refine ⟨rfl, length, fun d other => ?_, fun _ => setCond_same _ _ _⟩
    rw [setCond_conds, if_neg (Ne.symm other)]

end Changed

/-- The blocking conditions, as R181 lists them. -/
theorem pendingBlocked_iff (c : CondId) (s : State) : s.pendingBlocked c = true ↔
    c.val = 7 ∧ s.mon.conds[(3 : CondId)].status = true ∨ c.val = 8 ∧ s.mon.conds[(4 : CondId)].status = true
      ∨ c.val = 11 ∧ s.mon.conds[(14 : CondId)].status = true := by
  have seven : c = 7 ↔ c.val = 7 := Fin.ext_iff
  have eight : c = 8 ↔ c.val = 8 := Fin.ext_iff
  have eleven : c = 11 ↔ c.val = 11 := Fin.ext_iff
  unfold State.pendingBlocked blockerOf
  by_cases h7 : c = 7
  · subst h7; simp
  · by_cases h8 : c = 8
    · subst h8; simp
    · by_cases h11 : c = 11
      · subst h11; simp
      · rw [if_neg h7, if_neg h8, if_neg h11]
        rw [seven] at h7
        rw [eight] at h8
        rw [eleven] at h11
        simp [h7, h8, h11]

theorem isOccurrence_iff (c : CondId) : isOccurrence c = true ↔ c.val = 16 ∨ c.val = 17 := by
  have := c.isLt
  unfold isOccurrence
  rw [decide_eq_true_iff]
  omega

theorem marks_iff (c : CondId) (s : State) : marks c s = true ↔ ¬ (c.val = 16 ∨ c.val = 17
    ∨ (c.val = 7 ∧ s.mon.conds[(3 : CondId)].status = true ∨ c.val = 8 ∧ s.mon.conds[(4 : CondId)].status = true
      ∨ c.val = 11 ∧ s.mon.conds[(14 : CondId)].status = true)) := by
  rw [← pendingBlocked_iff, ← or_assoc, ← isOccurrence_iff, ← Bool.or_eq_true]
  unfold marks
  cases isOccurrence c || s.pendingBlocked c <;> simp

/-! ### EVENT_LOST -/

/-- The part with the pending mark of EVENT_LOST set, before its status change. -/
def lostMarked (s : State) : State := wakeEval (setCond 17 { s.mon.conds[(17 : CondId)] with pending := true } s)

theorem lostMarked_row (s : State) :
    (lostMarked s).mon.conds[(17 : CondId)] = { s.mon.conds[(17 : CondId)] with pending := true } := setCond_same 17 _ s

theorem lostOccurrence_held {s : State} (h : s.mon.conds[(17 : CondId)].status = true) : lostOccurrence s = lostMarked s :=
  statusChange_same (by
    show (lostMarked s).mon.conds[(17 : CondId)].status = true
    rw [lostMarked_row]
    exact h)

theorem lostOccurrence_row (s : State) : (lostOccurrence s).mon.conds[(17 : CondId)] = occurredRow 17 s := by
  unfold occurredRow
  by_cases held : s.mon.conds[(17 : CondId)].status = true
  · rw [lostOccurrence_held held, lostMarked_row, if_pos held]
  · have clear : (lostMarked s).mon.conds[(17 : CondId)].status ≠ true := by
      rw [lostMarked_row]
      exact held
    have row : (statusChange 17 true (lostMarked s)).mon.conds[(17 : CondId)] = changedRow 17 true (lostMarked s) :=
      statusChange_row clear (.inl (by decide))
    rw [if_neg held]
    refine row.trans ?_
    rw [changedRow, lostMarked_row]
    rfl

/-! ### The error conditions of a port -/

/-- R183: the error condition of port p. -/
def errorCond (p : PortId) : CondId := if p = 0 then 7 else 8

theorem errorCond_ne_drop (p : PortId) : (errorCond p).val ≠ 16 := by revert p; decide

theorem judgeErrors_eq (p : PortId) (s : State) :
    judgeErrors p s = statusChange (errorCond p) (decide (s.errThreshold p < s.mon.figs.ports[p].errorSum)) s := rfl

theorem judgeErrors_status (p : PortId) (s : State) :
    (judgeErrors p s).mon.conds[errorCond p].status = true ↔ s.errThreshold p < s.mon.figs.ports[p].errorSum := by
  rw [judgeErrors_eq, statusChange_status _ _ _ (errorCond_ne_drop p), decide_eq_true_iff]

theorem judgeErrors_ports (p : PortId) (s : State) : (judgeErrors p s).mon.figs.ports = s.mon.figs.ports := by
  rw [judgeErrors_eq, statusChange_figs]

/-- The figures of a port after an outcome, with the errors counted each for itself (R48). -/
theorem take_errors (f : PortFigures) (o : PortOutcome) (skip : Bool) :
    (f.take o skip).sync = (if o = .syncError then inc16 f.sync else f.sync)
    ∧ (f.take o skip).crc = (if o = .crcError then inc16 f.crc else f.crc)
    ∧ (f.take o skip).gaps = if o = .missing then inc16 f.gaps else f.gaps := by
  cases o with
  | good q => cases skip <;> simp [PortFigures.take]
  | syncError => simp [PortFigures.take]
  | crcError => simp [PortFigures.take]
  | missing => simp [PortFigures.take]

/-- The part with an outcome counted in its port's figures. -/
def countedOutcome (p : PortId) (o : PortOutcome) (s : State) : State :=
  { s with mon := { s.mon with figs := { s.mon.figs with
      ports := s.mon.figs.ports.set p (s.mon.figs.ports[p].take o (s.prt[p].skips o)) } } }

theorem countedOutcome_port (p : PortId) (o : PortOutcome) (s : State) :
    (countedOutcome p o s).mon.figs.ports[p] = s.mon.figs.ports[p].take o (s.prt[p].skips o) := by
  simp [countedOutcome]

theorem reportOutcome_linked {p : PortId} {s : State} (linked : s.prt[p].link = .up ∨ s.prt[p].link = .down) (o : PortOutcome) :
    reportOutcome p o s = judgeErrors p (countedOutcome p o s) := if_pos linked

/-- Settles O46, each kind of report by the row it writes. -/
theorem statusChangesAreTaken : Obligations.StatusChangesAreTaken := by
  refine ⟨fun c v s => ?change, fun s => ?occurrence, fun p s => ?errors⟩
  case change =>
    refine ⟨statusChange_same, fun changed kept => ?_, statusChange_box, fun d other notDrop =>
      statusChange_other c v s d notDrop other⟩
    rw [statusChange_row changed kept]
    refine ⟨rfl, rfl, rfl, ?_⟩
    rw [changedRow, Bool.or_eq_true, marks_iff]
  case occurrence =>
    rw [dropOccurrence_row, lostOccurrence_row]
    obtain ⟨dropPending, dropStatus, dropChanges, dropLast⟩ := occurredRow_spec 16 s
    obtain ⟨lostPending, lostStatus, lostChanges, lostLast⟩ := occurredRow_spec 17 s
    exact ⟨dropPending, dropStatus, dropChanges, dropLast, dropOccurrence_box s, lostPending, lostStatus, lostChanges, lostLast,
      fun held => by rw [lostOccurrence_held held]; rfl⟩
  case errors =>
    refine ⟨judgeErrors_status p s, fun o linked => ?_⟩
    have ports : (reportOutcome p o s).mon.figs.ports[p] = s.mon.figs.ports[p].take o (s.prt[p].skips o) := by
      rw [reportOutcome_linked linked, judgeErrors_ports, countedOutcome_port]
    obtain ⟨sync, crc, gaps⟩ := take_errors s.mon.figs.ports[p] o (s.prt[p].skips o)
    dsimp only
    rw [ports]
    refine ⟨?_, sync, crc, gaps⟩
    rw [reportOutcome_linked linked]
    refine (judgeErrors_status p (countedOutcome p o s)).trans ?_
    rw [countedOutcome_port]
    rfl

end Sys2Proof.Proofs
end

