-- ==== Sys2Proof/Proofs/Alerts.lean ====
section
/-! PROOFS. The Alert Outbox (chapter 6): its order, the placing of a record, the alerts of events and conditions, and the
return and the loss of the alert in flight; from these the settling of O33. -/
namespace Sys2Proof.Proofs

open Sys2Proof Sys2Proof.Machine Sys2Proof.Laws

/-! ### Outbox order (R112) -/

/-- Alert x stands at or before alert y, with the creation counter at n. -/
def Precedes (n : Nat) (x y : Alert) : Prop :=
  x.rank < y.rank ∨ x.rank = y.rank ∧ behind n y.position ≤ behind n x.position

theorem precedes_trans {n : Nat} {x y z : Alert} (h : Precedes n x y) (k : Precedes n y z) : Precedes n x z := by
  unfold Precedes at *
  omega

theorem before_iff (n : Nat) (x y : Alert) : Alert.before n x y = true ↔ ¬ Precedes n y x := by
  unfold Alert.before Precedes
  rw [Bool.or_eq_true, Bool.and_eq_true, decide_eq_true_iff, decide_eq_true_iff, decide_eq_true_iff]
  omega

theorem precedes_of_before {n : Nat} {x y : Alert} (h : Alert.before n x y = true) : Precedes n x y := by
  have := (before_iff n x y).mp h
  unfold Precedes at *
  omega

/-- An insertion among elements in order, each of which the test puts on its side of the new one. -/
theorem insertBy_pairwise {α : Type} {R : α → α → Prop} {f : α → α → Bool} {x : α} {l : List α}
    (trans : ∀ {a b c}, R a b → R b c → R a c) (below : ∀ y ∈ l, f y x = true → R y x)
    (above : ∀ y ∈ l, ¬ f y x = true → R x y) (h : l.Pairwise R) : (insertBy f x l).Pairwise R := by
  induction l with
  | nil => exact List.pairwise_singleton _ _
  | cons y r ih =>
    obtain ⟨first, rest⟩ := List.pairwise_cons.mp h
    unfold insertBy
    split
    next yx =>
      have inserted := ih (fun z mem => below z (List.mem_cons_of_mem y mem))
        (fun z mem => above z (List.mem_cons_of_mem y mem)) rest
      refine List.pairwise_cons.mpr ⟨fun z mem => ?_, inserted⟩
      rcases List.mem_cons.mp ((insertBy_perm f x r).mem_iff.mp mem) with rfl | older
      · exact below y (List.mem_cons_self ..) yx
      · exact first z older
    next yx =>
      have xy : R x y := above y (List.mem_cons_self ..) yx
      refine List.pairwise_cons.mpr ⟨fun z mem => ?_, h⟩
      rcases List.mem_cons.mp mem with rfl | later
      · exact xy
      · exact trans xy (first z later)

theorem sortAlerts_pairwise (n : Nat) (l : List Alert) : (sortAlerts n l).Pairwise (Precedes n) := by
  induction l with
  | nil => exact List.Pairwise.nil
  | cons x l ih =>
    exact insertBy_pairwise precedes_trans (fun _ _ => precedes_of_before)
      (fun y _ yx => Classical.not_not.mp fun k => yx ((before_iff n y x).mpr k)) ih

/-! ### The last WAITING entry (R116) -/

theorem lastWaiting_none {l : List Alert} (h : ∀ b ∈ l, b.inFlight = true) : lastWaiting l = none :=
  List.find?_eq_none.mpr fun b mem => by simp [h b (List.mem_reverse.mp mem)]

theorem lastWaiting_some {l m : List Alert} {w : Alert} (hw : w.inFlight = false) (hm : ∀ b ∈ m, b.inFlight = true) :
    lastWaiting (l ++ w :: m) = some w := by
  have after : m.reverse.find? (fun a => !a.inFlight) = none := lastWaiting_none hm
  unfold lastWaiting
  rw [List.reverse_append, List.reverse_cons, List.append_assoc, List.find?_append, after]
  simp [hw]

theorem erase_middle_perm (l m : List Alert) (w : Alert) : ((l ++ w :: m).erase w).Perm (l ++ m) := by
  have perm : ((l ++ w :: m).erase w).Perm ((w :: (l ++ m)).erase w) := List.Perm.erase w List.perm_middle
  rwa [List.erase_cons_head] at perm

/-! ### What a placed record leaves -/

theorem enter_perm (b : Outbox) (a : Alert) (kept : List Alert) :
    (b.enter a kept).entries.Perm ({ a with position := b.creation } :: kept) := sortAlerts_perm _ _

theorem enter_pairwise (b : Outbox) (a : Alert) (kept : List Alert) :
    (b.enter a kept).entries.Pairwise (Precedes (b.enter a kept).creation) := sortAlerts_pairwise _ _

/-- A new record put before the last WAITING entry, which is lost for it. -/
theorem place_gives_up {a w : Alert} {s : State} (full : 12 ≤ s.box.entries.length) (last : lastWaiting s.box.entries = some w)
    (lower : a.rank < w.rank) : place a s = alertLost { s with box := s.box.enter a (s.box.entries.erase w) } := by
  rw [place_full a full, last]
  exact if_pos lower

theorem place_refuses {a w : Alert} {s : State} (full : 12 ≤ s.box.entries.length) (last : lastWaiting s.box.entries = some w)
    (higher : w.rank ≤ a.rank) : place a s = alertLost s := by
  rw [place_full a full, last]
  exact if_neg (Nat.not_lt.mpr higher)

theorem place_refuses_all_in_flight {a : Alert} {s : State} (full : 12 ≤ s.box.entries.length)
    (flying : ∀ b ∈ s.box.entries, b.inFlight = true) : place a s = alertLost s := by
  rw [place_full a full, lastWaiting_none flying]

/-! ### Alerts of events (R113, R114) and of conditions (R115) -/

theorem waitsOpen_iff (n : Nat) (a : Alert) :
    a.waitsOpen n = true ↔ a.kind = .eventOpen ∧ a.origin = n ∧ a.inFlight = false := by
  simp [Alert.waitsOpen, and_assoc]

theorem waitsFor_iff (c : CondId) (a : Alert) :
    a.waitsFor c = true ↔ a.kind = .condition ∧ a.origin = c.val ∧ a.inFlight = false := by
  simp [Alert.waitsFor, and_assoc]

theorem closeContent_eq (r : EvRecord) : closeContent r =
    .eventClose r.openStamp (match r.close with | none => 0 | some x => x.duration) r.peakS r.flags r.list := by
  unfold closeContent
  cases r.close <;> rfl

section CloseAlert
variable {r : EvRecord} {s : State} (enabled : s.alertClose = true)
include enabled

theorem closeAlert_supersedes (h : ∃ a ∈ s.box.entries, a.kind = .eventOpen ∧ a.origin = r.number ∧ a.inFlight = false) :
    closeAlert r s = { s with box := { s.box with
        entries := s.box.entries.map fun a => if a.waitsOpen r.number = true then { a with kind := .eventClose, content := closeContent r } else a } } := by
  obtain ⟨a, mem, waits⟩ := h
  unfold closeAlert
  rw [if_pos enabled, if_pos (List.any_eq_true.mpr ⟨a, mem, (waitsOpen_iff _ a).mpr waits⟩)]

theorem closeAlert_places (h : ∀ a ∈ s.box.entries, ¬ (a.kind = .eventOpen ∧ a.origin = r.number ∧ a.inFlight = false)) :
    closeAlert r s = place (newAlert .eventClose 1 r.number s.stamp (closeContent r)) s := by
  have none : ¬ s.box.entries.any (Alert.waitsOpen r.number) = true := fun k => by
    obtain ⟨a, mem, waits⟩ := List.any_eq_true.mp k
    exact h a mem ((waitsOpen_iff _ a).mp waits)
  unfold closeAlert
  rw [if_pos enabled, if_neg none]

end CloseAlert

section ConditionAlert
variable {c : CondId} (v : Bool) (x : Stamp) {s : State}

theorem conditionAlert_merges (h : ∃ a ∈ s.box.entries, a.kind = .condition ∧ a.origin = c.val ∧ a.inFlight = false) :
    conditionAlert c v x s = { s with box := { s.box with
        entries := s.box.entries.map fun a => if a.waitsFor c = true then a.coalesce v x else a } } := by
  obtain ⟨a, mem, waits⟩ := h
  exact if_pos (List.any_eq_true.mpr ⟨a, mem, (waitsFor_iff c a).mpr waits⟩)

theorem conditionAlert_places (h : ∀ a ∈ s.box.entries, ¬ (a.kind = .condition ∧ a.origin = c.val ∧ a.inFlight = false)) :
    conditionAlert c v x s = place (newAlert .condition 2 c.val s.stamp (.condition c v 1 x)) s :=
  if_neg fun k => by
    obtain ⟨a, mem, waits⟩ := List.any_eq_true.mp k
    exact h a mem ((waitsFor_iff c a).mp waits)

end ConditionAlert

/-- Settles O33: the two event alerts, the condition alert, and the four ways of placing. -/
theorem alertsAreCreatedAndPlaced : Obligations.AlertsAreCreatedAndPlaced := by
  refine ⟨fun r s => ⟨fun off => ?_, fun enabled => if_pos enabled, fun off => ?_, fun enabled waits => ?_, fun enabled none => ?_⟩,
    fun c v x s => ⟨fun waits => ?_, conditionAlert_places v x⟩,
    fun a s => ⟨fun room => ?_, fun full flying => ?_, fun l w m full split waits flying => ⟨fun lower => ?_, fun higher => ?_⟩⟩⟩
  · exact if_neg (by rw [off]; exact Bool.false_ne_true)
  · exact if_neg (by rw [off]; exact Bool.false_ne_true)
  · rw [closeAlert_supersedes enabled waits, closeContent_eq]
    simp only [waitsOpen_iff] <;> rfl
  · rw [closeAlert_places enabled none, closeContent_eq]
    rfl
  · rw [conditionAlert_merges v x waits]
    simp only [waitsFor_iff] <;> rfl
  · rw [place_room a s room]
    exact ⟨enter_perm _ _ _, ⟨rfl, enter_pairwise _ _ _⟩, rfl, rfl⟩
  · rw [place_refuses_all_in_flight full flying, alertLost_box, alertLost_figs]
    exact ⟨rfl, ⟨rfl, rfl, alertLost_row s⟩, rfl⟩
  · have last : lastWaiting s.box.entries = some w := by rw [split, lastWaiting_some waits flying]
    have kept : (s.box.entries.erase w).Perm (l ++ m) := by rw [split]; exact erase_middle_perm l m w
    rw [place_gives_up full last lower, alertLost_box, alertLost_figs]
    exact ⟨(enter_perm _ _ _).trans (kept.cons _), ⟨rfl, enter_pairwise _ _ _⟩, rfl, rfl, alertLost_row _⟩
  · have last : lastWaiting s.box.entries = some w := by rw [split, lastWaiting_some waits flying]
    rw [place_refuses full last higher, alertLost_box, alertLost_figs]
    exact ⟨rfl, ⟨rfl, rfl, alertLost_row s⟩, rfl⟩

/-! ### The alert in flight, returned or dropped (R117, R118) -/

/-- The outbox without the alert in flight. -/
def waiting (s : State) : List Alert := s.box.entries.filter fun b => !b.inFlight

theorem raiseClose_perm (k : Nat) (nb : Option Time) (s : State) : (raiseClose k nb s).box.entries.Perm
    (s.box.entries.map fun a =>
      if a.kind == .eventClose && a.origin == k then { a with rank := 0, notBefore := laterOf a.notBefore nb } else a) :=
  sortAlerts_perm _ _

theorem mem_waiting {b : Alert} {s : State} : b ∈ waiting s ↔ b ∈ s.box.entries ∧ b.inFlight = false := by
  simp [waiting]

/-- An EVENT_CLOSE of the event of alert a. -/
theorem isClose_iff (a b : Alert) :
    (b.kind == .eventClose && b.origin == a.origin) = true ↔ b.kind = .eventClose ∧ b.origin = a.origin := by simp

section Return
variable {n : Nat} {nb : Option Time} {a : Alert} {s : State} (flying : s.inFlight = some a)
include flying

theorem returnInFlight_eq : returnInFlight n nb s =
    if (a.kind == .eventOpen && s.box.entries.any fun b => b.kind == .eventClose && b.origin == a.origin) = true then
      raiseClose a.origin nb (removeInFlight s)
    else if (a.kind == .condition
        && s.box.entries.any fun b => b.kind == .condition && b.origin == a.origin && !b.inFlight) = true then
      removeInFlight s
    else { s with box := { s.box with entries := s.box.entries.map fun b =>
      if b.inFlight then { b with inFlight := false, attempts := n, notBefore := nb } else b } } := by
  unfold returnInFlight
  rw [flying]

/-- An open that returns where its close waits: the close takes its place. -/
theorem returnInFlight_raises (kind : a.kind = .eventOpen) (close : ∃ b ∈ waiting s, b.kind = .eventClose ∧ b.origin = a.origin) :
    returnInFlight n nb s = raiseClose a.origin nb (removeInFlight s) := by
  obtain ⟨b, mem, same⟩ := close
  rw [returnInFlight_eq flying]
  refine if_pos (Bool.and_eq_true_iff.mpr ⟨beq_iff_eq.mpr kind, List.any_eq_true.mpr ⟨b, (mem_waiting.mp mem).1, ?_⟩⟩)
  exact (isClose_iff a b).mpr same

/-- A condition alert that returns where a later one of its condition waits: it is dropped for that one. -/
theorem returnInFlight_removes (kind : a.kind = .condition)
    (later : ∃ b ∈ waiting s, b.kind = .condition ∧ b.origin = a.origin) : returnInFlight n nb s = removeInFlight s := by
  obtain ⟨b, mem, same⟩ := later
  obtain ⟨mem, waits⟩ := mem_waiting.mp mem
  rw [returnInFlight_eq flying, if_neg (by rw [kind]; simp)]
  refine if_pos (Bool.and_eq_true_iff.mpr ⟨beq_iff_eq.mpr kind, List.any_eq_true.mpr ⟨b, mem, ?_⟩⟩)
  simp [same, waits]

/-- With nothing of its own waiting, the alert itself returns. -/
theorem returnInFlight_waits (alone : a.kind = .eventClose ∨ a.kind = .note
      ∨ a.kind = .eventOpen ∧ (∀ b ∈ s.box.entries, ¬ (b.kind = .eventClose ∧ b.origin = a.origin))
      ∨ a.kind = .condition ∧ (∀ b ∈ waiting s, ¬ (b.kind = .condition ∧ b.origin = a.origin))) :
    returnInFlight n nb s = { s with box := { s.box with entries := s.box.entries.map fun b =>
      if b.inFlight = true then { b with inFlight := false, attempts := n, notBefore := nb } else b } } := by
  rw [returnInFlight_eq flying]
  have noClose : ¬ (a.kind == .eventOpen && s.box.entries.any fun b => b.kind == .eventClose && b.origin == a.origin) = true := by
    intro k
    obtain ⟨isOpen, any⟩ := Bool.and_eq_true_iff.mp k
    obtain ⟨b, mem, same⟩ := List.any_eq_true.mp any
    rcases alone with kind | kind | ⟨-, none⟩ | ⟨kind, -⟩
    · rw [kind] at isOpen; cases isOpen
    · rw [kind] at isOpen; cases isOpen
    · exact none b mem ((isClose_iff a b).mp same)
    · rw [kind] at isOpen; cases isOpen
  have noLater : ¬ (a.kind == .condition
      && s.box.entries.any fun b => b.kind == .condition && b.origin == a.origin && !b.inFlight) = true := by
    intro k
    obtain ⟨isCondition, any⟩ := Bool.and_eq_true_iff.mp k
    obtain ⟨b, mem, same⟩ := List.any_eq_true.mp any
    obtain ⟨same, waits⟩ := Bool.and_eq_true_iff.mp same
    rcases alone with kind | kind | ⟨kind, -⟩ | ⟨-, none⟩
    · rw [kind] at isCondition; cases isCondition
    · rw [kind] at isCondition; cases isCondition
    · rw [kind] at isCondition; cases isCondition
    · exact none b (mem_waiting.mpr ⟨mem, by simpa using waits⟩) (by simpa using same)
  rw [if_neg noClose, if_neg noLater]

theorem alertDropped_other (kind : a.kind ≠ .eventOpen) : alertDropped s = alertLost (removeInFlight s) := by
  unfold alertDropped
  rw [flying]
  exact if_neg (by simpa using kind)

theorem alertDropped_open (kind : a.kind = .eventOpen) :
    alertDropped s = raiseClose a.origin none (alertLost (removeInFlight s)) := by
  unfold alertDropped
  rw [flying]
  exact if_pos (by simpa using kind)

end Return

theorem laterOf_none (x : Option Time) : laterOf x none = x := by
  cases x <;> rfl

theorem reached_iff (x y : Time) : x.reached y = true ↔ y.s < x.s ∨ y.s = x.s ∧ y.t ≤ x.t := by
  simp [Time.reached]

end Sys2Proof.Proofs
end

