-- ==== Sys2Proof/Proofs/ModemLine.lean ====
section
/-! PROOFS. The modem line (6.5, 11.3): the frame that comes in, a failure of the alert in flight, the link states and their
timers; from these the settling of O47, O48 and O49. -/
namespace Sys2Proof.Proofs

open Sys2Proof Sys2Proof.Machine Sys2Proof.Laws

/-! ### A good frame -/

/-- The part as a whole good frame finds it: a frame boundary, the last byte on this cycle (R124, R133). -/
def framed (s : State) : State := { s with mdm := { s.mdm with rx := [], div := s.modemDivisor, lastByte := s.osc } }

/-- Silence ends a frame in progress, of which the modem line alone takes note. -/
theorem modemSilence_eq (s : State) : ∃ rx div bad,
    modemSilence s = { s with mdm := { s.mdm with rx := rx, div := div, bad := bad } } := by
  unfold modemSilence abandonModemFrame
  split
  · split
    · exact ⟨_, _, _, rfl⟩
    · exact ⟨_, _, _, rfl⟩
  · exact ⟨_, _, _, rfl⟩

section Frames
variable {dt : Nat} {s u : State} (powered : s.powered = true) (hu : u = modemSilence (elapse dt s))
include powered hu

theorem exec_modemReady : exec (.modemReady dt) s = .next (takeReady (framed u)) := by
  subst hu
  exact act_on (f := goodFrame dt takeReady) powered

theorem exec_take (tag : Byte) : exec (.take dt tag) s = .next (takeTake tag (framed u)) := by
  subst hu
  exact act_on (f := goodFrame dt (takeTake tag)) powered

theorem exec_modemBusy (tag : Byte) : exec (.modemBusy dt tag) s = .next (takeBusy tag (framed u)) := by
  subst hu
  exact act_on (f := goodFrame dt (takeBusy tag)) powered

theorem exec_sent (tag : Byte) : exec (.sent dt tag) s = .next (takeSent tag (framed u)) := by
  subst hu
  exact act_on (f := goodFrame dt (takeSent tag)) powered

theorem exec_failed (tag : Byte) : exec (.failed dt tag) s = .next (takeFailed tag (framed u)) := by
  subst hu
  exact act_on (f := goodFrame dt (takeFailed tag)) powered

end Frames

/-! ### READY -/

section TakeReady
variable {s : State}

theorem takeReady_starting (h : s.mdm.link = .starting) : takeReady s = enterReady s := by
  unfold takeReady
  rw [h]

theorem takeReady_ready (h : s.mdm.link = .ready) : takeReady s = { s with mdm := { s.mdm with since := s.osc } } := by
  have e : takeReady s = enterLink .ready s.mdm.limit s := by
    unfold takeReady
    rw [h]
  rw [e, enterLink, ← h]

theorem takeReady_unexpected (h : s.mdm.link = .off ∨ s.mdm.link = .backoff) : takeReady s = unexpectedFrame s := by
  unfold takeReady
  rcases h with h | h <;> rw [h]

theorem takeReady_failure (h : s.mdm.link = .offered ∨ s.mdm.link = .sending) : takeReady s = takeFailure s := by
  unfold takeReady
  rcases h with h | h <;> rw [h]

end TakeReady

/-! ### The alert in flight -/

/-- A return changes the entries of the outbox and nothing else. -/
theorem returnInFlight_box (n : Nat) (nb : Option Time) (s : State) :
    returnInFlight n nb s = { s with box := (returnInFlight n nb s).box } := by
  unfold returnInFlight
  split
  · rfl
  · split
    · rfl
    · split <;> rfl

/-- A return looks at the outbox alone. -/
theorem returnInFlight_box_congr {n : Nat} {nb : Option Time} {s t : State} (h : t.box = s.box) :
    (returnInFlight n nb t).box = (returnInFlight n nb s).box := by
  unfold returnInFlight raiseClose removeInFlight State.inFlight
  rw [h]
  split
  · exact h
  · split
    · rfl
    · split <;> rfl

theorem raiseClose_box_congr {k : Nat} {nb : Option Time} {s t : State} (h : t.box = s.box) :
    (raiseClose k nb t).box = (raiseClose k nb s).box := by
  unfold raiseClose
  rw [h]

theorem removeInFlight_box (s : State) : (removeInFlight s).box = { s.box with entries := waiting s } := rfl

theorem alertLost_waiting_box (s : State) :
    (alertLost (removeInFlight s)).box = { s.box with entries := waiting s, drops := inc16 s.box.drops } := alertLost_box _

/-- A drop makes of the outbox what it makes of an equal one. -/
theorem alertDropped_box_congr {a : Alert} {s t : State} (flying : s.inFlight = some a) (h : t.box = s.box) :
    (alertDropped t).box = (alertDropped s).box := by
  have flying' : t.inFlight = some a := by
    unfold State.inFlight at *
    rw [h, flying]
  have lost : (alertLost (removeInFlight t)).box = (alertLost (removeInFlight s)).box := by
    rw [alertLost_waiting_box, alertLost_waiting_box, waiting, waiting, h]
  by_cases kind : a.kind = .eventOpen
  · rw [alertDropped_open flying kind, alertDropped_open flying' kind]
    exact raiseClose_box_congr lost
  · rw [alertDropped_other flying kind, alertDropped_other flying' kind, lost]

theorem alertDropped_mon {a : Alert} {s : State} (flying : s.inFlight = some a) :
    (alertDropped s).mon = (alertLost (removeInFlight s)).mon := by
  by_cases kind : a.kind = .eventOpen
  · rw [alertDropped_open flying kind]
    rfl
  · rw [alertDropped_other flying kind]

theorem alertDropped_cond {s : State} {d : CondId} (h : d.val ≠ 16) : (alertDropped s).mon.conds[d] = s.mon.conds[d] := by
  cases flying : s.inFlight with
  | none =>
    unfold alertDropped
    rw [flying]
  | some a =>
    rw [alertDropped_mon flying]
    exact alertLost_cond _ d h

/-! ### A failure (R128 to R132) -/

/-- The attempts of the alert in flight with the failed one counted. -/
def attempted (s : State) : Nat := ((s.inFlight.map Alert.attempts).getD 0) + 1

/-- The alert in flight after its failure: dropped at the third attempt, returned before. -/
def failedAlert (s : State) : State := if 3 ≤ attempted s then alertDropped s else returnInFlight (attempted s) none s

theorem failedAlert_does (s : State) : Does [.box, .flight, .mon] s (failedAlert s) := by
  unfold failedAlert
  split
  · exact alertDropped_does s
  · exact (returnInFlight_does _ _ s).mono (by decide)

theorem failedAlert_mdm (s : State) : (failedAlert s).mdm = s.mdm := mdm_of (failedAlert_does s) (by decide)

theorem failedAlert_fault (s : State) : (failedAlert s).mon.conds[(15 : CondId)] = s.mon.conds[(15 : CondId)] := by
  unfold failedAlert
  split
  · exact alertDropped_cond (by decide)
  · rw [returnInFlight_box]

/-- The part after the failed alert with the failure counted. -/
def countedFailure (s : State) : State :=
  { failedAlert s with mdm := { s.mdm with fails := s.mdm.fails + 1 } }

theorem takeFailure_eq (s : State) : takeFailure s =
    if 3 ≤ s.mdm.fails + 1 then enterBackoff (setModemFault true (countedFailure s)) else enterReady (countedFailure s) := by
  have fold : takeFailure s = if 3 ≤ (failedAlert s).mdm.fails + 1 then
      enterBackoff (setModemFault true { failedAlert s with mdm := { (failedAlert s).mdm with fails := (failedAlert s).mdm.fails + 1 } })
      else enterReady { failedAlert s with mdm := { (failedAlert s).mdm with fails := (failedAlert s).mdm.fails + 1 } } := rfl
  rw [fold, failedAlert_mdm]
  rfl

theorem setModemFault_mdm (v : Bool) (s : State) : (setModemFault v s).mdm = { s.mdm with fault := v } :=
  mdm_of (statusChange_does 15 v { s with mdm := { s.mdm with fault := v } }) (by decide)

theorem setModemFault_status (v : Bool) (s : State) : (setModemFault v s).mon.conds[(15 : CondId)].status = v :=
  statusChange_status 15 v _ (by decide)

/-- Where MODEM_FAULT stands as reported, or is not in the alert set, its report leaves outbox and figures. -/
theorem setModemFault_quiet {v : Bool} {s : State}
    (quiet : s.mon.conds[(15 : CondId)].status = v ∨ inSet s.alertSet 15 = false) :
    (setModemFault v s).box = s.box ∧ (setModemFault v s).mon.figs = s.mon.figs := by
  unfold setModemFault
  by_cases same : s.mon.conds[(15 : CondId)].status = v
  · rw [statusChange_same (by exact same)]
    exact ⟨rfl, rfl⟩
  · have out := quiet.resolve_left same
    have box := statusChange_box (c := 15) (v := v) (s := { s with mdm := { s.mdm with fault := v } }) same
    refine ⟨box.trans (if_neg fun held => ?_), ?_⟩
    · exact Bool.false_ne_true (out.symm.trans held)
    · exact (statusChange_quiet 15 v (s := { s with mdm := { s.mdm with fault := v } }) (.inr out)).1

theorem enterBackoff_mdm (s : State) : (enterBackoff s).mdm = { s.mdm with
    link := .backoff, since := s.osc, limit := s.modemRetryBackoff * 10000000, rx := [], div := s.modemDivisor, fails := 0 } :=
  rfl

theorem enterBackoff_rest (s : State) : (enterBackoff s).mon = s.mon ∧ (enterBackoff s).box = s.box := ⟨rfl, rfl⟩

theorem countedFailure_mdm (s : State) : (countedFailure s).mdm = { s.mdm with fails := s.mdm.fails + 1 } := rfl

/-- What a failure makes of the link, its count and MODEM_FAULT. -/
theorem takeFailure_link (s : State) :
    (takeFailure s).mdm.link = (if 3 ≤ s.mdm.fails + 1 then .backoff else .ready)
    ∧ (takeFailure s).mdm.fails = (if 3 ≤ s.mdm.fails + 1 then 0 else s.mdm.fails + 1)
    ∧ (takeFailure s).mdm.fault = (if 3 ≤ s.mdm.fails + 1 then true else s.mdm.fault)
    ∧ (3 ≤ s.mdm.fails + 1 → (takeFailure s).mon.conds[(15 : CondId)].status = true) := by
  rw [takeFailure_eq]
  by_cases third : 3 ≤ s.mdm.fails + 1
  · have mdm := setModemFault_mdm true (countedFailure s)
    have status := setModemFault_status true (countedFailure s)
    generalize setModemFault true (countedFailure s) = w at *
    simp only [if_pos third, enterBackoff_mdm, mdm]
    exact ⟨trivial, trivial, trivial, fun _ => status⟩
  · simp only [if_neg third]
    exact ⟨rfl, rfl, rfl, fun k => absurd k third⟩

/-- What a failure makes of the outbox and the figures, where MODEM_FAULT hands nothing on. -/
theorem takeFailure_alert {s : State}
    (quiet : ¬ 3 ≤ s.mdm.fails + 1 ∨ s.mon.conds[(15 : CondId)].status = true ∨ inSet s.alertSet 15 = false) :
    (takeFailure s).box = (failedAlert s).box ∧ (takeFailure s).mon.figs = (failedAlert s).mon.figs := by
  rw [takeFailure_eq]
  by_cases third : 3 ≤ s.mdm.fails + 1
  · rw [if_pos third]
    have alertSet : (countedFailure s).alertSet = s.alertSet :=
      congrArg Int.toNat (param_of_params (params_of (failedAlert_does s) (by decide)) 111)
    have still : (countedFailure s).mon.conds[(15 : CondId)].status = true ∨ inSet (countedFailure s).alertSet 15 = false := by
      rw [alertSet]
      exact (quiet.resolve_left (not_not_intro third)).imp_left fun held =>
        (congrArg Cond.status (failedAlert_fault s)).trans held
    have quiet := setModemFault_quiet still
    generalize setModemFault true (countedFailure s) = w at *
    exact quiet
  · rw [if_neg third]
    exact ⟨rfl, rfl⟩

theorem attempted_eq {a : Alert} {s : State} (flying : s.inFlight = some a) : attempted s = a.attempts + 1 := by
  unfold attempted
  rw [flying]
  rfl

theorem failedAlert_third {a : Alert} {s : State} (flying : s.inFlight = some a) (third : 3 ≤ a.attempts + 1) :
    failedAlert s = alertDropped s := if_pos (by rwa [attempted_eq flying])

theorem failedAlert_early {a : Alert} {s : State} (flying : s.inFlight = some a) (early : a.attempts + 1 < 3) :
    failedAlert s = returnInFlight (a.attempts + 1) none s := by
  unfold failedAlert
  rw [attempted_eq flying, if_neg (by omega)]

theorem alertDropped_figs {a : Alert} {s : State} (flying : s.inFlight = some a) :
    (alertDropped s).mon.figs.dropped = inc16 s.mon.figs.dropped := by
  rw [alertDropped_mon flying, alertLost_figs]
  rfl

/-- A failure found by the part w, where the modem line has taken its note of a frame: what it leaves, as u saw it. -/
theorem takeFailure_spec (u : State) (m : Modem) (fails : m.fails = u.mdm.fails) (fault : m.fault = u.mdm.fault) :
    let t := takeFailure { u with mdm := m }
    t.mdm.link = (if 3 ≤ u.mdm.fails + 1 then .backoff else .ready)
    ∧ t.mdm.fails = (if 3 ≤ u.mdm.fails + 1 then 0 else u.mdm.fails + 1)
    ∧ t.mdm.fault = (if 3 ≤ u.mdm.fails + 1 then true else u.mdm.fault)
    ∧ (3 ≤ u.mdm.fails + 1 → t.mon.conds[(15 : CondId)].status = true)
    ∧ ∀ a, u.inFlight = some a →
      ¬ 3 ≤ u.mdm.fails + 1 ∨ u.mon.conds[(15 : CondId)].status = true ∨ inSet u.alertSet 15 = false →
      (3 ≤ a.attempts + 1 → t.box = (alertDropped u).box ∧ t.mon.figs.dropped = inc16 u.mon.figs.dropped)
      ∧ (a.attempts + 1 < 3 → t.box = (returnInFlight (a.attempts + 1) none u).box
          ∧ t.mon.figs.dropped = u.mon.figs.dropped) := by
  have link := takeFailure_link { u with mdm := m }
  dsimp only at link ⊢
  rw [fails, fault] at link
  obtain ⟨link, count, marked, status⟩ := link
  refine ⟨link, count, marked, status, fun a flying quiet => ?_⟩
  obtain ⟨box, figs⟩ := takeFailure_alert (s := { u with mdm := m }) (by rw [← fails] at quiet; exact quiet)
  rw [box, figs]
  refine ⟨fun third => ?_, fun early => ?_⟩
  · rw [failedAlert_third (s := { u with mdm := m }) flying third]
    exact ⟨alertDropped_box_congr flying rfl, alertDropped_figs (s := { u with mdm := m }) flying⟩
  · rw [failedAlert_early (s := { u with mdm := m }) flying early]
    refine ⟨returnInFlight_box_congr rfl, ?_⟩
    rw [returnInFlight_box]

/-! ### The timers and the offer -/

section Timers
variable {s u : State} (powered : s.powered = true)
include powered

theorem exec_modemStartTimeout (starting : s.mdm.link = .starting) (reached : reach s.mdm.deadline s = some u) :
    exec .modemStartTimeout s = .next (startTimedOut u) := by
  have e : exec .modemStartTimeout s = execModemStartTimeout s := rfl
  rw [e, execModemStartTimeout, act_on powered, if_pos starting, atCycle_of_reach reached]

theorem exec_modemHoldExpiry (ready : s.mdm.link = .ready) (reached : reach s.mdm.deadline s = some u)
    (none : u.firstEligible = none) : exec .modemHoldExpiry s = .next (modemOff u) := by
  have e : exec .modemHoldExpiry s = execModemHoldExpiry s := rfl
  rw [e, execModemHoldExpiry, act_on powered, if_pos ready, atCycle_of_reach reached, none]
  rfl

theorem exec_offerTimeout (offered : s.mdm.link = .offered) (reached : reach s.mdm.deadline s = some u) :
    exec .offerTimeout s = .next (takeFailure u) := by
  have e : exec .offerTimeout s = execOfferTimeout s := rfl
  rw [e, execOfferTimeout, act_on powered, if_pos offered, atCycle_of_reach reached]

theorem exec_sendTimeout (sending : s.mdm.link = .sending) (reached : reach s.mdm.deadline s = some u) :
    exec .sendTimeout s = .next (takeFailure u) := by
  have e : exec .sendTimeout s = execSendTimeout s := rfl
  rw [e, execSendTimeout, act_on powered, if_pos sending, atCycle_of_reach reached]

theorem exec_backoffExpiry (backoff : s.mdm.link = .backoff) (reached : reach s.mdm.deadline s = some u) :
    exec .backoffExpiry s = .next (enterOff u) := by
  have e : exec .backoffExpiry s = execBackoffExpiry s := rfl
  rw [e, execBackoffExpiry, act_on powered, if_pos backoff, atCycle_of_reach reached]

theorem exec_offer {a : Alert} (ready : s.mdm.link = .ready) (first : s.firstEligible = some a) :
    exec .offer s = .next (sendOffer a s) := by
  have e : exec .offer s = execOffer s := rfl
  rw [e, execOffer, act_on powered, ready, first]

end Timers

theorem startTimedOut_mdm (u : State) : (startTimedOut u).mdm = { u.mdm with
    link := .backoff, since := u.osc, limit := u.modemRetryBackoff * 10000000, fails := 0, rx := [],
    div := u.modemDivisor, fault := true, startTimeouts := inc16 u.mdm.startTimeouts } := by
  have does := setModemFault_does true { u with mdm := { u.mdm with startTimeouts := inc16 u.mdm.startTimeouts } }
  have mdm := setModemFault_mdm true { u with mdm := { u.mdm with startTimeouts := inc16 u.mdm.startTimeouts } }
  have osc := osc_of does (by decide)
  have params := params_of does (by decide)
  unfold startTimedOut
  generalize setModemFault true _ = w at *
  have backoff : w.modemRetryBackoff = u.modemRetryBackoff := congrArg Int.toNat (param_of_params params 69)
  have div : w.modemDivisor = u.modemDivisor := congrArg Int.toNat (param_of_params params 123)
  rw [enterBackoff_mdm, mdm, osc, backoff, div]

/-- Settles O47, command by command. -/
theorem modemStartsAndOffers : Obligations.ModemStartsAndOffers := by
  intro dt s u powered
  refine ⟨fun off eligible => ?_, fun starting reached => ?_, ?_, ?_, ?_, ?_, fun a ready first => ?_,
    fun ready reached none => ?_, fun backoff reached => exec_backoffExpiry powered backoff reached⟩
  · have e : exec .modemStart s = execModemStart s := rfl
    rw [e, execModemStart, act_on powered, if_pos (by rw [off, eligible]; rfl)]
    rfl
  · exact ⟨startTimedOut u, exec_modemStartTimeout powered starting reached, startTimedOut_mdm u⟩
  · intro hu starting
    rw [exec_modemReady powered hu, takeReady_starting (s := framed u) starting]
    rfl
  · intro hu ready
    rw [exec_modemReady powered hu, takeReady_ready (s := framed u) ready]
    rfl
  · intro hu idle
    rw [exec_modemReady powered hu, takeReady_unexpected (s := framed u) idle]
    rfl
  · intro hu busy
    refine ⟨_, exec_modemReady powered hu, ?_⟩
    rw [takeReady_failure (s := framed u) busy]
    obtain ⟨link, fails, -, -⟩ := takeFailure_link (framed u)
    exact ⟨link, fails, (takeFailure_idle _).1, (takeFailure_stands _).credits⟩
  · rw [exec_offer powered ready first]
    rfl
  · rw [exec_modemHoldExpiry powered ready reached none]
    rfl

/-! ### TAKE, BUSY and SENT -/

section Tagged
variable {tag : Byte} {s : State}

theorem takeTake_tagged (h : s.mdm.link = .offered ∧ tag = s.mdm.tag) : takeTake tag s =
    enterLink .sending (s.sendTimeout * 10000000) { s with box := { s.box with credits := s.box.credits - 1 } } := if_pos h

theorem takeTake_other (h : s.mdm.link ≠ .offered ∨ tag ≠ s.mdm.tag) : takeTake tag s = unexpectedFrame s :=
  if_neg (by rwa [Classical.not_and_iff_not_or_not])

theorem takeBusy_tagged (h : s.mdm.link = .offered ∧ tag = s.mdm.tag) : takeBusy tag s =
    enterReady (returnInFlight ((s.inFlight.map Alert.attempts).getD 0) (some (s.now.addTicks 100000000)) s) := if_pos h

theorem takeBusy_other (h : s.mdm.link ≠ .offered ∨ tag ≠ s.mdm.tag) : takeBusy tag s = unexpectedFrame s :=
  if_neg (by rwa [Classical.not_and_iff_not_or_not])

theorem takeSent_tagged (h : s.mdm.link = .sending ∧ tag = s.mdm.tag) : takeSent tag s =
    enterReady (setModemFault false { alertSent s with mdm := { s.mdm with fails := 0 } }) := if_pos h

theorem takeSent_other (h : s.mdm.link ≠ .sending ∨ tag ≠ s.mdm.tag) : takeSent tag s = unexpectedFrame s :=
  if_neg (by rwa [Classical.not_and_iff_not_or_not])

theorem takeFailed_tagged (h : s.mdm.link = .sending ∧ tag = s.mdm.tag) : takeFailed tag s = takeFailure s := if_pos h

theorem takeFailed_other (h : s.mdm.link ≠ .sending ∨ tag ≠ s.mdm.tag) : takeFailed tag s = unexpectedFrame s :=
  if_neg (by rwa [Classical.not_and_iff_not_or_not])

end Tagged

/-- What SENT leaves: the entry gone and counted, MODEM_FAULT cleared, the link in READY. -/
theorem takeSent_spec {tag : Byte} {s : State} (h : s.mdm.link = .sending ∧ tag = s.mdm.tag) :
    (takeSent tag s).mdm = { s.mdm with
      fails := 0, fault := false, link := .ready, since := s.osc, limit := s.modemHold * 10000000 }
    ∧ (takeSent tag s).box.sent = inc16 s.box.sent ∧ (takeSent tag s).mon.figs.sent = inc16 s.mon.figs.sent
    ∧ (takeSent tag s).mon.conds[(15 : CondId)].status = false
    ∧ (s.mon.conds[(15 : CondId)].status = false ∨ inSet s.alertSet 15 = false → (takeSent tag s).box.entries = waiting s) := by
  rw [takeSent_tagged h]
  let w : State := { alertSent s with mdm := { s.mdm with fails := 0 } }
  have does : Does _ w (setModemFault false w) := setModemFault_does false w
  have mdm : (setModemFault false w).mdm = { w.mdm with fault := false } := setModemFault_mdm false w
  have osc : (setModemFault false w).osc = w.osc := osc_of does (by decide)
  have hold : (setModemFault false w).modemHold = s.modemHold :=
    congrArg Int.toNat (param_of_params (show _ = w.params from params_of does (by decide)) 66)
  have sent : (setModemFault false w).box.sent = inc16 s.box.sent := (does.frame .credits (by decide)).2.2
  have figs : (setModemFault false w).mon.figs.sent = inc16 s.mon.figs.sent :=
    congrArg Figures.sent (statusChange_figs 15 false { w with mdm := { w.mdm with fault := false } })
  have status : (setModemFault false w).mon.conds[(15 : CondId)].status = false := setModemFault_status false w
  refine ⟨?_, sent, figs, status, fun quiet => ?_⟩
  · show { (setModemFault false w).mdm with
      link := .ready, since := (setModemFault false w).osc, limit := (setModemFault false w).modemHold * 10000000 } = _
    rw [mdm, osc, hold]
    rfl
  · exact congrArg Outbox.entries (setModemFault_quiet (s := w) quiet).1

/-- Settles O48: the replies with and without their tag, and the three ways of returning. -/
theorem modemRepliesAreTaken : Obligations.ModemRepliesAreTaken := by
  refine ⟨?replies, fun n nb a s flying => ⟨fun kind close => ?raised, fun kind later => ?removed, fun alone => ?waits⟩⟩
  case replies =>
    intro dt tag s u v powered hu hv
    have hv : v = framed u := hv
    subst hv
    refine ⟨fun offered tagged => ?_, fun a offered tagged flying => ?_,
      fun sending tagged => ⟨_, exec_sent powered hu tag, takeSent_spec (s := framed u) ⟨sending, tagged⟩⟩,
      fun other => ⟨?_, ?_⟩, fun other => ⟨?_, ?_⟩⟩
    · rw [exec_take powered hu, takeTake_tagged (s := framed u) ⟨offered, tagged⟩]
      rfl
    · have attempts : (((framed u).inFlight.map Alert.attempts).getD 0) = a.attempts := by
        rw [show (framed u).inFlight = some a from flying]
        rfl
      rw [exec_modemBusy powered hu, takeBusy_tagged (s := framed u) ⟨offered, tagged⟩, returnInFlight_box, attempts,
        returnInFlight_box_congr (s := u) (t := framed u) rfl]
      rfl
    · rw [exec_take powered hu, takeTake_other (s := framed u) other]
      rfl
    · rw [exec_modemBusy powered hu, takeBusy_other (s := framed u) other]
      rfl
    · rw [exec_sent powered hu, takeSent_other (s := framed u) other]
      rfl
    · rw [exec_failed powered hu, takeFailed_other (s := framed u) other]
      rfl
  case raised =>
    rw [returnInFlight_raises flying kind close]
    refine ⟨(raiseClose_perm _ _ _).trans (List.Perm.of_eq (List.map_congr_left fun b _ => ?_)), rfl, rfl⟩
    simp only [isClose_iff]
    split
    · cases b.notBefore <;> cases nb <;> simp only [laterOf, reached_iff]
    · rfl
  case removed => exact returnInFlight_removes flying kind later
  case waits => exact returnInFlight_waits flying alone

/-- Settles O49: the four ways to a failure, and the drop. -/
theorem modemFailuresAreCounted : Obligations.ModemFailuresAreCounted := by
  refine ⟨fun dt tag s u powered => ⟨?failed, ?ready, fun offered reached => ?offerTimeout, fun sending reached => ?sendTimeout⟩,
    fun a s flying => ?dropped⟩
  case failed =>
    intro hu sending tagged
    obtain ⟨rx, div, bad, silent⟩ := modemSilence_eq u
    refine ⟨_, exec_failed powered (congrArg modemSilence hu) tag, ?_⟩
    rw [silent, takeFailed_tagged (by exact ⟨sending, tagged⟩)]
    exact takeFailure_spec u _ rfl rfl
  case ready =>
    intro hu busy
    obtain ⟨rx, div, bad, silent⟩ := modemSilence_eq u
    refine ⟨_, exec_modemReady powered (congrArg modemSilence hu), ?_⟩
    rw [silent, takeReady_failure (by exact busy)]
    exact takeFailure_spec u _ rfl rfl
  case offerTimeout => exact ⟨_, exec_offerTimeout powered offered reached, takeFailure_spec u u.mdm rfl rfl⟩
  case sendTimeout => exact ⟨_, exec_sendTimeout powered sending reached, takeFailure_spec u u.mdm rfl rfl⟩
  case dropped =>
    obtain ⟨pending, status⟩ := alertLost_row (removeInFlight s)
    have mon := alertDropped_mon flying
    dsimp only
    rw [mon]
    by_cases kind : a.kind = .eventOpen
    · rw [alertDropped_open flying kind]
      have perm := raiseClose_perm a.origin none (alertLost (removeInFlight s))
      have box := alertLost_waiting_box s
      refine ⟨congrArg Outbox.drops box, congrArg Figures.dropped (alertLost_figs _), pending, status,
        fun other => absurd kind other, fun _ => perm.trans ?_⟩
      rw [box]
      refine List.Perm.of_eq (List.map_congr_left fun b _ => ?_)
      simp only [isClose_iff, laterOf_none]
    · rw [alertDropped_other flying kind]
      have box := alertLost_waiting_box s
      exact ⟨congrArg Outbox.drops box, congrArg Figures.dropped (alertLost_figs _), pending, status,
        fun _ => congrArg Outbox.entries box, fun k => absurd k kind⟩

end Sys2Proof.Proofs
end

