-- ==== Sys2Proof/Proofs/ModemReceiver.lean ====
section
/-! PROOFS. The modem line's receiver (R124, R215): a frame that falls silent, is too long, breaks off or fails its check;
from these the settling of O50. -/
namespace Sys2Proof.Proofs

open Sys2Proof Sys2Proof.Machine Sys2Proof.Laws

/-! ### A frame given up -/

theorem abandonModemFrame_idle {s : State} (h : s.mdm.rx = []) : abandonModemFrame s = s := if_pos (by rw [h]; rfl)

theorem isEmpty_false {l : List Byte} (h : l ≠ []) : ¬ l.isEmpty = true := fun k => h (List.isEmpty_iff.mp k)

theorem abandonModemFrame_open {s : State} (h : s.mdm.rx ≠ []) : abandonModemFrame s =
    { s with mdm := { s.mdm with rx := [], div := s.modemDivisor, bad := inc16 s.mdm.bad } } := if_neg (isEmpty_false h)

theorem modemSilence_idle {s : State} (h : s.mdm.rx = []) : modemSilence s = s := by
  unfold modemSilence
  rw [abandonModemFrame_idle h, ite_self]

theorem modemGap_eq (s : State) : s.modemGap = s.mdm.lastByte + 5120 * s.mdm.div := rfl

/-! ### Bytes -/

/-- A receiver that holds l, its last byte on this cycle. -/
def holding (l : List Byte) (s : State) : State := { s with mdm := { s.mdm with rx := l, lastByte := s.osc } }

theorem modemByte_first {s : State} (h : s.mdm.rx = []) : modemByte 0xC5 s =
    { s with mdm := { s.mdm with lastByte := s.osc, div := s.modemDivisor, rx := [0xC5] } } := by
  unfold modemByte
  rw [h]
  rfl

/-- A byte inside a frame of length byte n that does not end it. -/
theorem modemByte_inside {l : List Byte} {b n : Byte} {s : State} (held : l ≠ []) (second : (l ++ [b]).getD 1 0 = n)
    (fits : n.toNat ≤ 240) (short : (l ++ [b]).length < n.toNat + 5) : modemByte b (holding l s) = holding (l ++ [b]) s := by
  obtain ⟨x, r, rfl⟩ := List.exists_cons_of_ne_nil held
  have long : ¬ (((x :: r) ++ [b]).length = 2 ∧ 240 < b.toNat) := by
    rintro ⟨two, large⟩
    have nil : r = [] := by
      rw [List.length_append, List.length_cons, List.length_singleton] at two
      exact List.eq_nil_of_length_eq_zero (by omega)
    subst nil
    rw [show b = n from second] at large
    omega
  have unended : ¬ (2 ≤ ((x :: r) ++ [b]).length ∧ ((x :: r) ++ [b]).length = (((x :: r) ++ [b]).getD 1 0).toNat + 5) := by
    rw [second]
    omega
  exact (if_neg long).trans (if_neg unended)

/-- The byte that ends a frame has it judged at a frame boundary. -/
theorem modemByte_last {l : List Byte} {b n : Byte} {s : State} (second : l.getD 1 0 = n) (ends : l.length = n.toNat + 4) :
    modemByte b (holding l s) = takeModemFrame (l ++ [b]) (hunt (holding (l ++ [b]) s)) := by
  have two : 2 ≤ l.length := by omega
  obtain ⟨x, y, r, rfl⟩ : ∃ x y r, l = x :: y :: r := by
    match l, two with
    | x :: y :: r, _ => exact ⟨x, y, r, rfl⟩
  have length : ((x :: y :: r) ++ [b]).length = n.toNat + 5 := by
    rw [List.length_append, ends]
    rfl
  have long : ¬ (((x :: y :: r) ++ [b]).length = 2 ∧ 240 < b.toNat) := by omega
  have ended : 2 ≤ ((x :: y :: r) ++ [b]).length ∧ ((x :: y :: r) ++ [b]).length
      = (((x :: y :: r) ++ [b]).getD 1 0).toNat + 5 := by
    refine ⟨by omega, length.trans ?_⟩
    rw [← second]
    rfl
  exact (if_neg long).trans (if_pos ended)

theorem getD_one_append {l : List Byte} (two : 2 ≤ l.length) (m : List Byte) : (l ++ m).getD 1 0 = l.getD 1 0 := by
  match l, two with
  | x :: y :: r, _ => rfl

/-- Bytes that leave a frame short of its end are held. -/
theorem modemBytes_inside {n : Byte} (fits : n.toNat ≤ 240) (bytes : List Byte) (l : List Byte) (s : State)
    (two : 2 ≤ l.length) (second : l.getD 1 0 = n) (short : l.length + bytes.length < n.toNat + 5) :
    bytes.foldl (fun s b => modemByte b s) (holding l s) = holding (l ++ bytes) s := by
  induction bytes generalizing l with
  | nil => rw [List.append_nil]; rfl
  | cons b bytes ih =>
    rw [List.length_cons] at short
    have length : (l ++ [b]).length = l.length + 1 := by rw [List.length_append]; rfl
    have one : modemByte b (holding l s) = holding (l ++ [b]) s :=
      modemByte_inside (List.ne_nil_of_length_pos (by omega)) ((getD_one_append two _).trans second) fits (by omega)
    rw [List.foldl_cons, one, ih (l ++ [b]) (by omega) ((getD_one_append two _).trans second) (by omega),
      List.append_assoc, List.singleton_append]

/-- A whole frame whose check differs is a bad frame. -/
theorem takeModemFrame_bad_check {n kind x y : Byte} {body : List Byte} (h : crcBytes (n :: kind :: body) ≠ [x, y]) (s : State) :
    takeModemFrame (0xC5 :: n :: kind :: body ++ [x, y]) s = badFrame s := by
  have front : 0xC5 :: n :: kind :: body ++ [x, y] = 0xC5 :: ((n :: kind :: body) ++ [x, y]) := rfl
  have length : (0xC5 :: ((n :: kind :: body) ++ [x, y])).length = (n :: kind :: body).length + 3 := by simp
  have checked : ((0xC5 :: ((n :: kind :: body) ++ [x, y])).drop 1).take
      ((0xC5 :: ((n :: kind :: body) ++ [x, y])).length - 3) = n :: kind :: body := by
    rw [length, Nat.add_sub_cancel, List.drop_one, List.tail_cons, List.take_left]
  have check : (0xC5 :: ((n :: kind :: body) ++ [x, y])).drop ((0xC5 :: ((n :: kind :: body) ++ [x, y])).length - 2)
      = [x, y] := by
    rw [length, Nat.add_sub_assoc (by decide), List.drop_succ_cons, List.drop_left]
  rw [front]
  unfold takeModemFrame
  dsimp only
  rw [checked, check, if_pos h]

/-- The bytes of a whole frame with a bad check, into a receiver that hunts. -/
theorem modemBytes_bad_check {n kind x y : Byte} {body : List Byte} {s : State} (hunting : s.mdm.rx = [])
    (fits : n.toNat ≤ 240) (length : body.length = n.toNat) (bad : crcBytes (n :: kind :: body) ≠ [x, y]) :
    (0xC5 :: n :: kind :: body ++ [x, y]).foldl (fun s b => modemByte b s) s =
      { s with mdm := { s.mdm with lastByte := s.osc, div := s.modemDivisor, bad := inc16 s.mdm.bad } } := by
  let w : State := { s with mdm := { s.mdm with div := s.modemDivisor } }
  have first : modemByte 0xC5 s = holding [0xC5] w := modemByte_first hunting
  have second : modemByte n (holding [0xC5] w) = holding [0xC5, n] w :=
    modemByte_inside (List.cons_ne_nil _ _) rfl fits (by show 2 < _; omega)
  have middle := modemBytes_inside fits (kind :: body ++ [x]) [0xC5, n] w (Nat.le_refl 2) rfl (by simp; omega)
  have last : modemByte y (holding ([0xC5, n] ++ (kind :: body ++ [x])) w) =
      takeModemFrame ([0xC5, n] ++ (kind :: body ++ [x]) ++ [y]) (hunt (holding ([0xC5, n] ++ (kind :: body ++ [x]) ++ [y]) w)) :=
    modemByte_last (n := n) rfl (by simp; omega)
  have whole : [0xC5, n] ++ (kind :: body ++ [x]) ++ [y] = 0xC5 :: n :: kind :: body ++ [x, y] := by simp
  have split : 0xC5 :: n :: kind :: body ++ [x, y] = 0xC5 :: n :: ((kind :: body ++ [x]) ++ [y]) := by simp
  rw [whole, takeModemFrame_bad_check bad] at last
  rw [split, List.foldl_cons, first, List.foldl_cons, second, List.foldl_append, middle, List.foldl_cons, List.foldl_nil, last]
  unfold badFrame hunt holding
  dsimp only [w]
  rw [← hunting]
  rfl

/-- A length byte above 240 ends the frame at once. -/
theorem modemBytes_too_long {n : Byte} {s : State} (hunting : s.mdm.rx = []) (large : 240 < n.toNat) :
    [0xC5, n].foldl (fun s b => modemByte b s) s =
      { s with mdm := { s.mdm with lastByte := s.osc, div := s.modemDivisor, bad := inc16 s.mdm.bad } } := by
  rw [List.foldl_cons, modemByte_first hunting, List.foldl_cons, List.foldl_nil]
  have long : ([0xC5] ++ [n]).length = 2 ∧ 240 < n.toNat := ⟨rfl, large⟩
  refine (if_pos long).trans ?_
  rw [abandonModemFrame_open (List.cons_ne_nil _ _), ← hunting]
  rfl

/-- Settles O50: silence, the check, the length and the framing error, each giving up the frame in progress. -/
theorem badModemFramesAreCounted : Obligations.BadModemFramesAreCounted := by
  refine ⟨fun s => ⟨fun held silent => ?_, fun quiet => ?_⟩, fun dt s u powered hu =>
    ⟨fun n kind x y body hunting fits length bad => ?_, fun n hunting large => ?_, fun v held reached => ?_, fun held => ?_,
      fun hunting => ?_⟩⟩
  · exact (if_pos silent).trans (abandonModemFrame_open held)
  · rcases quiet with hunting | early
    · exact modemSilence_idle hunting
    · exact if_neg (Nat.not_le.mpr early)
  · have e : exec (.modemBadFrame dt (0xC5 :: n :: kind :: body ++ [x, y])) s = _ := act_on (f := fun s =>
      (0xC5 :: n :: kind :: body ++ [x, y]).foldl (fun s b => modemByte b s) (modemSilence (elapse dt s))) powered
    rw [e, ← hu, modemSilence_idle hunting, modemBytes_bad_check hunting fits length bad]
  · have e : exec (.modemBadFrame dt [0xC5, n]) s = _ := act_on (f := fun s =>
      [0xC5, n].foldl (fun s b => modemByte b s) (modemSilence (elapse dt s))) powered
    rw [e, ← hu, modemSilence_idle hunting, modemBytes_too_long hunting large]
  · have e : exec .modemFrameTimeout s = execModemFrameTimeout s := rfl
    have rx : v.mdm.rx ≠ [] := by
      rw [show v.mdm = s.mdm from mdm_of (reach_does reached) (by decide)]
      exact held
    rw [e, execModemFrameTimeout, act_on powered, if_neg (isEmpty_false held), atCycle_of_reach reached,
      abandonModemFrame_open rx]
  · have e : exec (.modemFramingError dt) s = _ := act_on (f := fun s => abandonModemFrame (elapse dt s)) powered
    rw [e, ← hu, abandonModemFrame_open held]
  · have e : exec (.modemFramingError dt) s = _ := act_on (f := fun s => abandonModemFrame (elapse dt s)) powered
    rw [e, ← hu, abandonModemFrame_idle hunting]

end Sys2Proof.Proofs
end

