-- ==== Sys2Proof/Proofs/Intervals.lean ====
section
/-! PROOFS. The not-befores (R123) and the accounting interval (R191, R192, R121): what the four reports of a boundary leave of
the conditions and the figures; from these the settling of O45. -/
namespace Sys2Proof.Proofs

open Sys2Proof Sys2Proof.Machine Sys2Proof.Laws

/-! ### A condition cleared -/

/-- The row k after a report that its status is clear, its pending mark then set where `m`. -/
def Cleared (k t : Cond) (m : Prop) : Prop :=
  t.status = false ∧ t.changes = (if k.status = true then inc16 k.changes else k.changes)
    ∧ (t.pending = true ↔ k.pending = true ∨ k.status = true ∧ m)

theorem Cleared.congr {k t : Cond} {m n : Prop} (h : Cleared k t m) (e : m ↔ n) : Cleared k t n := by
  obtain ⟨status, changes, pending⟩ := h
  exact ⟨status, changes, pending.trans (or_congr_right (and_congr_right fun _ => e))⟩

/-- Where no mark can be set, the pending mark stands. -/
theorem Cleared.pending_same {k t : Cond} (h : Cleared k t False) : t.pending = k.pending := by
  obtain ⟨-, -, pending⟩ := h
  exact Bool.eq_iff_iff.mpr (pending.trans (by rw [and_false, or_false]))

theorem marks_seven (s : State) : marks 7 s = true ↔ s.mon.conds[(3 : CondId)].status = false := by
  rw [marks_iff]
  simp

theorem marks_eight (s : State) : marks 8 s = true ↔ s.mon.conds[(4 : CondId)].status = false := by
  rw [marks_iff]
  simp

theorem marks_occurrence {c : CondId} (s : State) (h : c.val = 16 ∨ c.val = 17) : marks c s = true ↔ False := by
  rw [marks_iff, iff_false, not_not]
  exact h.imp_right .inl

theorem changedRow_cleared {c : CondId} {s : State} (held : s.mon.conds[c].status = true) :
    Cleared s.mon.conds[c] (changedRow c false s) (marks c s = true) := by
  refine ⟨rfl, (if_pos held).symm, ?_⟩
  show (s.mon.conds[c].pending || marks c s) = true ↔ _
  rw [Bool.or_eq_true]
  exact or_congr_right (and_iff_right held).symm

theorem cleared_of_clear {k : Cond} (m : Prop) (clear : k.status ≠ true) : Cleared k k m :=
  ⟨Bool.eq_false_iff.mpr clear, (if_neg clear).symm, ⟨.inl, fun h => h.resolve_right fun x => clear x.1⟩⟩

/-- A report that a condition is clear: its row, which no lost alert writes again. -/
theorem statusChange_cleared {c : CondId} {s : State} (h : c.val ≠ 16 ∨ inSet s.alertSet c = false) :
    Cleared s.mon.conds[c] (statusChange c false s).mon.conds[c] (marks c s = true) := by
  by_cases held : s.mon.conds[c].status = true
  · rw [statusChange_row (by rw [held]; decide) h]
    exact changedRow_cleared held
  · rw [statusChange_same (Bool.eq_false_iff.mpr held)]
    exact cleared_of_clear _ held

/-- k alerts more can be handed to the outbox and none of them is lost: it has room, or no condition is in the alert set. -/
def HasRoom (k : Nat) (s : State) : Prop := s.box.entries.length + k ≤ 12 ∨ ∀ c : CondId, inSet s.alertSet c = false

/-- A report for which there is room: figures and other rows stand, and the room for the rest. -/
theorem statusChange_room {k : Nat} (c : CondId) {s : State} (room : HasRoom (k + 1) s) :
    (statusChange c false s).mon.figs = s.mon.figs
    ∧ (∀ d, d ≠ c → (statusChange c false s).mon.conds[d] = s.mon.conds[d])
    ∧ Cleared s.mon.conds[c] (statusChange c false s).mon.conds[c] (marks c s = true)
    ∧ HasRoom k (statusChange c false s) := by
  have quiet : s.box.entries.length < 12 ∨ inSet s.alertSet c = false := room.imp (fun few => by omega) fun out => out c
  obtain ⟨figs, length, rows, row⟩ := statusChange_quiet c false quiet
  have alertSet : (statusChange c false s).alertSet = s.alertSet :=
    congrArg Int.toNat (param_of_params (params_of (statusChange_does c false s) (by decide)) 111)
  refine ⟨figs, rows, ?_, room.imp (fun few => by omega) fun out d => by rw [alertSet]; exact out d⟩
  by_cases held : s.mon.conds[c].status = true
  · rw [row (by rw [held]; decide)]
    exact changedRow_cleared held
  · rw [statusChange_same (Bool.eq_false_iff.mpr held)]
    exact cleared_of_clear _ held

/-! ### The steps of a boundary -/

/-- Steps 1 to 3: the new interval begins with its figures at zero. -/
def newInterval (s : State) : State :=
  { s with mon := { s.mon with figs := {}, number := s.intervalNumber, start := s.clk.s } }

/-- The first of the error conditions judged on the new figures. -/
def firstJudged (s : State) : State := statusChange 7 false (newInterval s)

/-- Both error conditions judged on the new figures. -/
def bothJudged (s : State) : State := statusChange 8 false (firstJudged s)

/-- OUTBOX_DROP cleared after them. -/
def dropCleared (s : State) : State := statusChange 16 false (bothJudged s)

/-- Steps 4 and 5 done. -/
def lostCleared (s : State) : State := statusChange 17 false (dropCleared s)

theorem judgeErrors_zero {p : PortId} {s : State} (h : s.mon.figs.ports[p] = {}) :
    judgeErrors p s = statusChange (errorCond p) false s := by
  rw [judgeErrors_eq, h]
  exact congrArg (fun v => statusChange (errorCond p) v s) (decide_eq_false (Nat.not_lt_zero _))

theorem firstJudged_eq (s : State) : judgeErrors 0 (newInterval s) = firstJudged s := judgeErrors_zero rfl

theorem bothJudged_eq (s : State) : judgeErrors 1 (firstJudged s) = bothJudged s := by
  refine judgeErrors_zero ?_
  rw [firstJudged, statusChange_figs]
  rfl

theorem intervalBoundary_eq (s : State) : intervalBoundary s =
    { refillCredits (lostCleared s) with mon := { (lostCleared s).mon with
        report := some ⟨s.mon.figs, s.mon.number, s.mon.start, (refillCredits (lostCleared s)).box.credits⟩ } } := by
  have fold : intervalBoundary s = { refillCredits (statusChange 17 false (statusChange 16 false
      (judgeErrors 1 (judgeErrors 0 (newInterval s))))) with
        mon := { (refillCredits (statusChange 17 false (statusChange 16 false
          (judgeErrors 1 (judgeErrors 0 (newInterval s)))))).mon with
          report := some ⟨s.mon.figs, s.mon.number, s.mon.start, (refillCredits (statusChange 17 false (statusChange 16 false
            (judgeErrors 1 (judgeErrors 0 (newInterval s)))))).box.credits⟩ } } := rfl
  rw [fold, firstJudged_eq, bothJudged_eq]
  rfl

theorem lostCleared_does (s : State) : Does [.box, .mon] (newInterval s) (lostCleared s) :=
  (statusChange_does 7 false _).trans ((statusChange_does 8 false _).trans
    ((statusChange_does 16 false _).trans (statusChange_does 17 false _)))

/-! ### What they leave -/

theorem lostCleared_figs (s : State) : (lostCleared s).mon.figs = { dropped := (lostCleared s).mon.figs.dropped } := by
  have four : (lostCleared s).mon.figs = { (newInterval s).mon.figs with dropped := (lostCleared s).mon.figs.dropped } := by
    unfold lostCleared dropCleared bothJudged firstJudged
    rw [statusChange_figs 17, statusChange_figs 16, statusChange_figs 8, statusChange_figs 7]
  exact four

section Rows
variable (s : State)

theorem firstJudged_other {d : CondId} (drop : d.val ≠ 16) (other : d ≠ 7) : (firstJudged s).mon.conds[d] = s.mon.conds[d] :=
  statusChange_other 7 false _ d drop other

theorem bothJudged_other {d : CondId} (drop : d.val ≠ 16) (other : d ≠ 8) :
    (bothJudged s).mon.conds[d] = (firstJudged s).mon.conds[d] := statusChange_other 8 false _ d drop other

theorem lostCleared_other {d : CondId} (drop : d.val ≠ 16) (other : d ≠ 17) :
    (lostCleared s).mon.conds[d] = (bothJudged s).mon.conds[d] :=
  (statusChange_other 17 false _ d drop other).trans
    (statusChange_other 16 false _ d drop fun e => drop (by rw [e]; rfl))

theorem lostCleared_seven : Cleared s.mon.conds[(7 : CondId)] (lostCleared s).mon.conds[(7 : CondId)]
    (s.mon.conds[(3 : CondId)].status = false) := by
  have row : Cleared s.mon.conds[(7 : CondId)] (firstJudged s).mon.conds[(7 : CondId)] _ :=
    statusChange_cleared (s := newInterval s) (.inl (by decide))
  rw [lostCleared_other s (by decide) (by decide), bothJudged_other s (by decide) (by decide)]
  exact row.congr (marks_seven _)

theorem lostCleared_eight : Cleared s.mon.conds[(8 : CondId)] (lostCleared s).mon.conds[(8 : CondId)]
    (s.mon.conds[(4 : CondId)].status = false) := by
  have row : Cleared (firstJudged s).mon.conds[(8 : CondId)] (bothJudged s).mon.conds[(8 : CondId)] _ :=
    statusChange_cleared (.inl (by decide))
  have row := row.congr (marks_eight _)
  rw [firstJudged_other s (by decide) (by decide), firstJudged_other s (by decide) (by decide)] at row
  rwa [lostCleared_other s (by decide) (by decide)]

theorem lostCleared_seventeen : Cleared s.mon.conds[(17 : CondId)] (lostCleared s).mon.conds[(17 : CondId)] False := by
  have before : (dropCleared s).mon.conds[(17 : CondId)] = s.mon.conds[(17 : CondId)] :=
    (statusChange_other 16 false _ 17 (by decide) (by decide)).trans
      ((bothJudged_other s (by decide) (by decide)).trans (firstJudged_other s (by decide) (by decide)))
  have row : Cleared (dropCleared s).mon.conds[(17 : CondId)] (lostCleared s).mon.conds[(17 : CondId)] _ :=
    statusChange_cleared (.inl (by decide))
  rw [before] at row
  exact row.congr (marks_occurrence _ (.inr rfl))

/-- No alert can be lost: the figures stay at zero and OUTBOX_DROP clear. -/
theorem lostCleared_room (room : HasRoom 4 s) : (lostCleared s).mon.figs = {}
    ∧ Cleared s.mon.conds[(16 : CondId)] (lostCleared s).mon.conds[(16 : CondId)] False := by
  obtain ⟨figs7, rows7, -, room7⟩ := statusChange_room 7 (s := newInterval s) room
  obtain ⟨figs8, rows8, -, room8⟩ := statusChange_room 8 (s := firstJudged s) room7
  obtain ⟨figs16, -, row16, room16⟩ := statusChange_room 16 (s := bothJudged s) room8
  obtain ⟨figs17, rows17, -, -⟩ := statusChange_room 17 (s := dropCleared s) room16
  have before : (bothJudged s).mon.conds[(16 : CondId)] = s.mon.conds[(16 : CondId)] :=
    (rows8 16 (by decide)).trans (rows7 16 (by decide))
  have after : (lostCleared s).mon.conds[(16 : CondId)] = (dropCleared s).mon.conds[(16 : CondId)] := rows17 16 (by decide)
  refine ⟨figs17.trans (figs16.trans (figs8.trans figs7)), ?_⟩
  rw [after, ← before]
  exact row16.congr (marks_occurrence _ (.inl rfl))

/-- R121: the refill, which the reports before it leave as it was. -/
theorem refillCredits_lostCleared : (refillCredits (lostCleared s)).box.credits = min (s.box.credits + s.refill) s.creditCap := by
  have does := lostCleared_does s
  have params : (lostCleared s).params = s.params :=
    (params_of does (by decide) : (lostCleared s).params = (newInterval s).params)
  have credits : (lostCleared s).box.credits = s.box.credits := (does.frame .credits (by decide)).1
  have bat : (lostCleared s).bat = s.bat := (bat_of does (by decide) : (lostCleared s).bat = (newInterval s).bat)
  have refill : (lostCleared s).refill = s.refill := by
    unfold State.refill State.refillNormal State.refillLow State.refillCritical
    rw [bat, param_of_params params, param_of_params params, param_of_params params]
  show min ((lostCleared s).box.credits + (lostCleared s).refill) (lostCleared s).creditCap = _
  rw [credits, refill, creditCap_congr params]

/-- The interval recorded is the present one, begun now. -/
theorem lostCleared_interval : (lostCleared s).mon.number = s.intervalNumber ∧ (lostCleared s).mon.start = s.clk.s := by
  obtain ⟨-, number, start⟩ := (lostCleared_does s).frame .interval (by decide)
  exact ⟨number, start⟩

end Rows

/-! ### The test and the commands -/

theorem intervalTest_same {s : State} (h : s.intervalNumber = s.mon.number) : intervalTest s = s := if_neg (not_not_intro h)

theorem intervalTest_other {s : State} (h : s.intervalNumber ≠ s.mon.number) : intervalTest s = intervalBoundary s := if_pos h

theorem exec_intervalBoundary {s : State} (powered : s.powered = true) (boundary : s.moment.boundary = true) :
    exec .intervalBoundary s = .next (intervalTest s) := by
  have e : exec .intervalBoundary s = execIntervalBoundary s := rfl
  rw [e, execIntervalBoundary, act_on powered, if_pos boundary]

theorem exec_notBeforePassed {s : State} (powered : s.powered = true)
    (due : s.moment.boundary = true ∨ s.moment.timeChange = true) : exec .notBeforePassed s = .next (passNotBefores s) := by
  have e : exec .notBeforePassed s = execNotBeforePassed s := rfl
  rw [e, execNotBeforePassed, act_on powered, if_pos (Bool.or_eq_true_iff.mpr due)]

/-- The times compared as R123 says. -/
theorem passNotBefores_eq (s : State) : passNotBefores s =
    { s with box := { s.box with
        entries := s.box.entries.map fun a => match a.notBefore with
          | none => a
          | some x => if x.s < s.clk.s ∨ x.s = s.clk.s ∧ x.t ≤ s.clk.t then { a with notBefore := none } else a } } := by
  unfold passNotBefores
  simp only [reached_iff] <;> rfl

/-- Settles O45: the boundary step by step, and the test that leads to it. -/
theorem notBeforesAndIntervalsPass : Obligations.NotBeforesAndIntervalsPass := by
  intro s freed passed
  have free : passNotBefores s = freed := passNotBefores_eq s
  have pass : passed (intervalBoundary s) := by
    rw [intervalBoundary_eq]
    obtain ⟨number, start⟩ := lostCleared_interval s
    have figs := lostCleared_figs s
    have seven := lostCleared_seven s
    have eight := lostCleared_eight s
    have lost := lostCleared_seventeen s
    have credits := refillCredits_lostCleared s
    have room : HasRoom 4 s → _ := lostCleared_room s
    generalize lostCleared s = u at *
    refine ⟨rfl, number, start, figs, ?minVb, ?minTp, fun c hc => ?cleared, fun c hc => ?pending, lost.pending_same,
      fun quiet => ?quiet, credits⟩
    case minVb => exact congrArg Figures.minVb figs
    case minTp => exact congrArg Figures.minTp figs
    case cleared =>
      rcases hc with hc | hc | hc
      · obtain rfl : c = 7 := Fin.ext hc
        exact ⟨seven.1, seven.2.1⟩
      · obtain rfl : c = 8 := Fin.ext hc
        exact ⟨eight.1, eight.2.1⟩
      · obtain rfl : c = 17 := Fin.ext hc
        exact ⟨lost.1, lost.2.1⟩
    case pending =>
      rcases hc with hc | hc
      · obtain rfl : c = 7 := Fin.ext hc
        exact seven.2.2
      · obtain rfl : c = 8 := Fin.ext hc
        exact eight.2.2
    case quiet =>
      obtain ⟨zero, row⟩ := room (quiet.imp_left fun few => Nat.add_le_add_right few 4)
      exact ⟨zero, row.1, row.pending_same, row.2.1⟩
  refine ⟨free, intervalTest_same, fun other => ?_, fun powered due => ?_, fun powered boundary same => ?_,
    fun powered boundary other => ⟨_, exec_intervalBoundary powered boundary, ?_⟩⟩
  · rw [intervalTest_other other]
    exact pass
  · rw [exec_notBeforePassed powered due, free]
  · rw [exec_intervalBoundary powered boundary, intervalTest_same same]
  · rw [intervalTest_other other]
    exact pass

end Sys2Proof.Proofs
end

