-- ==== Sys2Proof/Proofs/EventCloses.lean ====
section
/-! PROOFS. How an event closes (R92 to R94, R99, R100, R109, R111): the record filed, the holds ended, the state entered; from
these the settling of O43. -/
namespace Sys2Proof.Proofs

open Sys2Proof Sys2Proof.Machine Sys2Proof.Laws

/-! ### Filing a record -/

/-- The Event List with room for one record more: the oldest of 32 is gone (R100). -/
def roomFor (l : List EvRecord) : List EvRecord := if l.length < 32 then l else l.drop 1

/-- What filing makes of the events. -/
def filedEvents (r : EvRecord) (s : State) : Events :=
  { s.evt with
    list := roomFor s.evt.list ++ [r]
    lost := if s.evt.list.length < 32 then s.evt.lost else inc16 s.evt.lost
    wakeTerm := s.eventWake }

theorem isEmpty_concat (l : List EvRecord) (r : EvRecord) : (l ++ [r]).isEmpty = false := by
  cases l <;> rfl

theorem eventWake_of_params {s t : State} (h : t.params = s.params) : t.eventWake = s.eventWake := by
  unfold State.eventWake
  rw [param_of_params h]

theorem fileRecord_evt (r : EvRecord) (s : State) : (fileRecord r s).evt = filedEvents r s := by
  unfold filedEvents roomFor
  by_cases room : s.evt.list.length < 32
  · have e : fileRecord r s = eventWakeEval { s with evt := { s.evt with list := s.evt.list ++ [r] } } := by
      unfold fileRecord
      rw [if_pos room]
    have wake : (fileRecord r s).evt = { s.evt with
        list := s.evt.list ++ [r], wakeTerm := s.eventWake && !(s.evt.list ++ [r]).isEmpty } := by
      rw [e]
      rfl
    rw [wake, isEmpty_concat, Bool.not_false, Bool.and_true, if_pos room, if_pos room]
  · let d : State := { s with evt := { s.evt with list := s.evt.list.drop 1, lost := inc16 s.evt.lost } }
    have does : Does _ d (lostOccurrence d) := lostOccurrence_does d
    have evt : (lostOccurrence d).evt = d.evt := evt_of does (by decide)
    have params : (lostOccurrence d).params = d.params := params_of does (by decide)
    have e : fileRecord r s = eventWakeEval { lostOccurrence d with
        evt := { (lostOccurrence d).evt with list := (lostOccurrence d).evt.list ++ [r] } } := by
      unfold fileRecord
      rw [if_neg room]
    have wake : (fileRecord r s).evt = { d.evt with
        list := d.evt.list ++ [r], wakeTerm := s.eventWake && !(d.evt.list ++ [r]).isEmpty } := by
      have evaluated (w : State) (l : List EvRecord) : (eventWakeEval { w with evt := { w.evt with list := l } }).evt =
          { w.evt with list := l, wakeTerm := w.eventWake && !l.isEmpty } := rfl
      rw [e, evaluated, evt, eventWake_of_params params]
      rfl
    rw [wake, isEmpty_concat, Bool.not_false, Bool.and_true, if_neg room, if_neg room]

/-! ### Signalling the close -/

theorem signalClose_evt (r : EvRecord) (s : State) : (signalClose r s).evt = s.evt := 
  (evt_of (closeAlert_does r s) (by decide) : (closeAlert r s).evt = s.evt)

theorem signalClose_holds (r : EvRecord) (s : State) : (signalClose r s).bat.hold = none ∧ (signalClose r s).htr.hold = none :=
  ⟨rfl, rfl⟩

/-! ### Closing a record -/

/-- The record r closed at a strobe, with its flags changed by f (R94). -/
def closedRecord (f : EvFlags → EvFlags) (strobe : Nat) (stamp : Stamp) (rate : Nat) (r : EvRecord) : EvRecord :=
  { r with state := .closed, close := some ⟨stamp, strobe, Machine.dist r.openStrobe strobe / rate⟩, flags := f r.flags }

/-- What closing leaves of the events, the record in progress being r. -/
def closedEvents (f : EvFlags → EvFlags) (strobe : Nat) (stamp : Stamp) (after : EvState) (r : EvRecord) (s : State) : Events :=
  { filedEvents (closedRecord f strobe stamp s.sch.rate r) s with state := after, record := none, post := 0 }

section Close
variable {f : EvFlags → EvFlags} {strobe : Nat} {stamp : Stamp} {after : EvState} {r : EvRecord} {s : State}
  (record : s.evt.record = some r)
include record

theorem closeRecord_eq : closeRecord f strobe stamp after s =
    signalClose (closedRecord f strobe stamp s.sch.rate r) (fileRecord (closedRecord f strobe stamp s.sch.rate r)
      { s with evt := { s.evt with state := after, record := none, post := 0 } }) := by
  unfold closeRecord
  rw [record]
  rfl

theorem closeRecord_evt : (closeRecord f strobe stamp after s).evt = closedEvents f strobe stamp after r s := by
  rw [closeRecord_eq record, signalClose_evt, fileRecord_evt]
  rfl

theorem closeRecord_holds : (closeRecord f strobe stamp after s).bat.hold = none
    ∧ (closeRecord f strobe stamp after s).htr.hold = none := by
  rw [closeRecord_eq record]
  exact signalClose_holds _ _

end Close

/-- With or without a record the engine enters the state given. -/
theorem closeRecord_state (f : EvFlags → EvFlags) (strobe : Nat) (stamp : Stamp) (after : EvState) (s : State) :
    (closeRecord f strobe stamp after s).evt.state = after := by
  cases record : s.evt.record with
  | none =>
    unfold closeRecord
    rw [record]
  | some r =>
    rw [closeRecord_evt record]
    rfl

/-! ### The commands -/

theorem eventActive_iff (s : State) : s.eventActive = true ↔ s.evt.state = .opened ∨ s.evt.state = .closing := by
  unfold State.eventActive
  cases s.evt.state <;> simp

theorem exec_postTimerExpiry {k : Note} {s : State} (powered : s.powered = true) (voted : s.evt.lastVoted = some k)
    (closing : s.evt.state = .closing) (expired : s.evt.post = 0) : exec .postTimerExpiry s = .next (expireEvent k s) := by
  have e : exec .postTimerExpiry s = execPostTimerExpiry s := rfl
  rw [e, execPostTimerExpiry, act_on powered, voted]
  exact congrArg _ (if_pos (by rw [closing, expired]; rfl))

theorem truncateDue_iff {r : EvRecord} {s : State} (record : s.evt.record = some r) (k : Nat) :
    s.truncateDue k = true ↔ s.eventMax * s.sch.rate ≤ Machine.dist r.openStrobe k := by
  unfold State.truncateDue
  rw [record]
  exact decide_eq_true_iff

theorem exec_eventTruncate {k : Note} {r : EvRecord} {s : State} (powered : s.powered = true)
    (voted : s.evt.lastVoted = some k) (record : s.evt.record = some r) (strobe : s.moment.strobe = true)
    (active : s.evt.state = .opened ∨ s.evt.state = .closing)
    (full : s.eventMax * s.sch.rate ≤ Machine.dist r.openStrobe k.strobe) :
    exec .eventTruncate s = .next (truncateEvent k s) := by
  have e : exec .eventTruncate s = execEventTruncate s := rfl
  rw [e, execEventTruncate, act_on powered, voted]
  exact congrArg _ (if_pos (by
    rw [strobe, (eventActive_iff s).mpr active, (truncateDue_iff record k.strobe).mpr full]
    rfl))

/-! ### Closes between votes (R109, R111) -/

section Between
variable {f : EvFlags → EvFlags} {s : State}

theorem closeBetweenVotes_active (active : s.evt.state = .opened ∨ s.evt.state = .closing) :
    closeBetweenVotes f s = closeRecord f s.lastStrobe s.stamp .idle s := if_pos ((eventActive_iff s).mpr active)

theorem closeBetweenVotes_inactive (idle : s.evt.state = .idle ∨ s.evt.state = .rearm) :
    closeBetweenVotes f s = { s with evt := { s.evt with state := .idle } } := by
  refine if_neg fun active => ?_
  rcases (eventActive_iff s).mp active with h | h <;> rcases idle with k | k <;> rw [h] at k <;> cases k

theorem closeBetweenVotes_state (f : EvFlags → EvFlags) (s : State) : (closeBetweenVotes f s).evt.state = .idle := by
  unfold closeBetweenVotes
  split
  · exact closeRecord_state _ _ _ _ _
  · rfl

theorem lastStrobe_eq {k : Note} (voted : s.evt.lastVoted = some k) : s.lastStrobe = k.strobe := by
  unfold State.lastStrobe
  rw [voted]

end Between

/-- What RESTART makes of the events after their close. -/
theorem restartEvents_evt (s : State) : (restartEvents s).evt =
    { (closeBetweenVotes (fun f => { f with aborted := true }) s).evt with
      counting := #v[none, none, none, none, none, none], notes := [], reports := [], post := 0,
      peaks := #v[{}, {}, {}, {}, {}, {}],
      wakeTerm := s.eventWake && !(closeBetweenVotes (fun f => { f with aborted := true }) s).evt.list.isEmpty } := by
  have does := closeBetweenVotes_does (fun f => { f with aborted := true }) s
  have params := params_of does (by decide)
  unfold restartEvents
  generalize closeBetweenVotes (fun f => { f with aborted := true }) s = w at *
  have evaluated : (eventWakeEval { w with evt := { w.evt with
      counting := #v[none, none, none, none, none, none], notes := [], reports := [], post := 0,
      peaks := #v[{}, {}, {}, {}, {}, {}] } }).evt = { w.evt with
        counting := #v[none, none, none, none, none, none], notes := [], reports := [], post := 0,
        peaks := #v[{}, {}, {}, {}, {}, {}], wakeTerm := w.eventWake && !w.evt.list.isEmpty } := rfl
  dsimp only
  rw [evaluated, eventWake_of_params params]

theorem restartEvents_holds (s : State) :
    (restartEvents s).bat = (closeBetweenVotes (fun f => { f with aborted := true }) s).bat
    ∧ (restartEvents s).htr = (closeBetweenVotes (fun f => { f with aborted := true }) s).htr := ⟨rfl, rfl⟩

theorem counting_none (c : Chan) : (#v[none, none, none, none, none, none] : Vector (Option Counting) 6)[c] = none := by
  revert c
  decide

/-- Settles O43: every close files its record by `closeRecord`. -/
theorem eventsClose : Obligations.EventsClose := by
  refine ⟨fun k r s powered voted record => ⟨fun closing expired => ?post, fun strobe active full => ?truncate⟩, fun s => ?_⟩
  case post =>
    refine ⟨_, exec_postTimerExpiry powered voted closing expired, ?_⟩
    have evt : (expireEvent k s).evt = _ := closeRecord_evt record
    rw [evt]
    exact ⟨rfl, rfl, rfl, closeRecord_holds record |>.1, closeRecord_holds record |>.2, rfl⟩
  case truncate =>
    refine ⟨_, exec_eventTruncate powered voted record strobe active full, ?_⟩
    have evt : (truncateEvent k s).evt = _ := closeRecord_evt record
    rw [evt]
    exact ⟨rfl, rfl, rfl, closeRecord_holds record |>.1, closeRecord_holds record |>.2, rfl⟩
  refine ⟨⟨closeBetweenVotes_state _ s, ?_, ?_, ?_, ?_, fun c => ?_⟩, fun active r k record voted => ?closed, fun idle => ?idle⟩
  all_goals rw [restartEvents_evt]
  · exact closeBetweenVotes_state _ s
  · exact counting_none c
  case closed =>
    have aborted := closeBetweenVotes_active (f := fun f => { f with aborted := true }) active
    have shed : shedEvents s = _ := closeBetweenVotes_active active
    obtain ⟨batHold, htrHold⟩ := restartEvents_holds s
    rw [batHold, htrHold, aborted, shed, closeRecord_evt record, closeRecord_evt record, lastStrobe_eq voted]
    obtain ⟨shedBat, shedHtr⟩ := closeRecord_holds (f := fun f => { f with shed := true }) (strobe := k.strobe)
      (stamp := s.stamp) (after := .idle) record
    obtain ⟨abortBat, abortHtr⟩ := closeRecord_holds (f := fun f => { f with aborted := true }) (strobe := k.strobe)
      (stamp := s.stamp) (after := .idle) record
    refine ⟨rfl, rfl, rfl, rfl, shedBat, abortBat, shedHtr, abortHtr, Iff.rfl, ?_⟩
    have filed : (closedEvents (fun f => { f with aborted := true }) k.strobe s.stamp .idle r s).list.isEmpty = false :=
      isEmpty_concat _ _
    rw [filed, Bool.not_false, Bool.and_true]
  case idle =>
    have shed : shedEvents s = _ := closeBetweenVotes_inactive idle
    rw [closeBetweenVotes_inactive idle, shed]
    exact ⟨rfl, rfl⟩

end Sys2Proof.Proofs
end

