-- ==== Sys2Proof/Proofs/Votes.lean ====
section
/-! PROOFS. The vote (R87 to R93, R95 to R97): the reports gathered, the marks counted, the event opened, updated and closed;
from these the settling of O44. -/
namespace Sys2Proof.Proofs

open Sys2Proof Sys2Proof.Machine Sys2Proof.Laws

/-! ### The trigger list at the open vote (R95) -/

/-- The on offset, in plain numbers. -/
def offsetBetween (o f : Nat) : Int :=
  let d := Machine.dist o f
  max (-32768) (min 32767 (if d < 140737488355328 then (d : Int) else (d : Int) - 281474976710656))

theorem onOffset_eq (o f : Nat) : onOffset o f = offsetBetween o f := rfl

theorem foldr_insertBy_perm {α : Type} (f : α → α → Bool) (l : List α) : (l.foldr (insertBy f) []).Perm l := by
  induction l with
  | nil => exact List.Perm.refl _
  | cons x l ih => exact (insertBy_perm f x _).trans (ih.cons x)

/-- The order of the trigger list: the earlier first ON, then the lower channel. -/
def FirstOn (k : Nat) (a b : TrigEntry) : Prop :=
  Machine.dist b.firstOn k < Machine.dist a.firstOn k
    ∨ Machine.dist b.firstOn k = Machine.dist a.firstOn k ∧ a.chan < b.chan

theorem firstOn_trans {k : Nat} {a b c : TrigEntry} (h : FirstOn k a b) (g : FirstOn k b c) : FirstOn k a c := by
  simp only [FirstOn, Fin.lt_def] at *
  omega

theorem trigBefore_iff (k : Nat) (a b : TrigEntry) : TrigEntry.before k a b = true ↔ FirstOn k a b := by
  unfold TrigEntry.before FirstOn
  rw [Bool.or_eq_true, Bool.and_eq_true, decide_eq_true_iff, decide_eq_true_iff, decide_eq_true_iff, eq_comm]

theorem firstOn_total {k : Nat} {a b : TrigEntry} (apart : a.chan ≠ b.chan) (h : ¬ FirstOn k a b) : FirstOn k b a := by
  have : a.chan.val ≠ b.chan.val := fun e => apart (Fin.ext e)
  simp only [FirstOn, Fin.lt_def] at *
  omega

theorem sortEntries_pairwise (k : Nat) (l : List TrigEntry) (apart : l.Pairwise fun a b => a.chan ≠ b.chan) :
    (l.foldr (insertBy (TrigEntry.before k)) []).Pairwise (FirstOn k) := by
  induction l with
  | nil => exact List.Pairwise.nil
  | cons x l ih =>
    obtain ⟨first, rest⟩ := List.pairwise_cons.mp apart
    refine insertBy_pairwise firstOn_trans (fun y _ yx => (trigBefore_iff k y x).mp yx) (fun y mem yx => ?_) (ih rest)
    have chan := first y ((foldr_insertBy_perm _ l).mem_iff.mp mem)
    exact firstOn_total (Ne.symm chan) fun h => yx ((trigBefore_iff k y x).mpr h)

section OpenList
variable (k : Nat) (m : Vector (Option Counting) 6) (p : Vector Peak 6)

/-- The entry of a counting channel at the open vote. -/
def openEntry (c : Chan) : Option TrigEntry := m[c].map fun x => ⟨c, x.on, onOffset k x.on, 1, p[c]⟩

theorem openEntry_some {c : Chan} {e : TrigEntry} (h : openEntry k m p c = some e) :
    ∃ x, m[c] = some x ∧ e = ⟨c, x.on, onOffset k x.on, 1, p[c]⟩ := by
  obtain ⟨x, hx, he⟩ := Option.map_eq_some_iff.mp h
  exact ⟨x, hx, he.symm⟩

theorem openList_perm : (openList k m p).Perm (allChans.filterMap (openEntry k m p)) := foldr_insertBy_perm _ _

theorem mem_openList (e : TrigEntry) :
    e ∈ openList k m p ↔ ∃ x, m[e.chan] = some x ∧ e = ⟨e.chan, x.on, onOffset k x.on, 1, p[e.chan]⟩ := by
  rw [(openList_perm k m p).mem_iff, List.mem_filterMap]
  constructor
  · rintro ⟨c, -, some⟩
    obtain ⟨x, hx, rfl⟩ := openEntry_some k m p some
    exact ⟨x, hx, rfl⟩
  · rintro ⟨x, hx, he⟩
    refine ⟨e.chan, mem_allChans _, ?_⟩
    unfold openEntry
    rw [hx, he]
    rfl

theorem exists_openList (c : Chan) : (∃ e ∈ openList k m p, e.chan = c) ↔ m[c] ≠ none := by
  constructor
  · rintro ⟨e, mem, rfl⟩
    obtain ⟨x, hx, -⟩ := (mem_openList k m p e).mp mem
    rw [hx]
    exact Option.some_ne_none x
  · intro counts
    obtain ⟨x, hx⟩ := Option.ne_none_iff_exists'.mp counts
    exact ⟨⟨c, x.on, onOffset k x.on, 1, p[c]⟩, (mem_openList k m p _).mpr ⟨x, hx, rfl⟩, rfl⟩

theorem openList_entry {e : TrigEntry} (mem : e ∈ openList k m p) {x : Counting} (hx : m[e.chan] = some x) :
    e.firstOn = x.on ∧ e.onCount = 1 ∧ e.offset = offsetBetween k x.on := by
  obtain ⟨y, hy, he⟩ := (mem_openList k m p e).mp mem
  obtain rfl : y = x := Option.some.inj (hy.symm.trans hx)
  rw [he]
  exact ⟨rfl, rfl, onOffset_eq _ _⟩

theorem openList_peak {e : TrigEntry} (mem : e ∈ openList k m p) : e.peak = p[e.chan] := by
  obtain ⟨x, -, he⟩ := (mem_openList k m p e).mp mem
  rw [he]

theorem openList_pairwise : (openList k m p).Pairwise (FirstOn k) := by
  refine sortEntries_pairwise k _ ?_
  refine List.Pairwise.filterMap _ (R := fun c d => c ≠ d) (fun c d apart e he f hf => ?_) allChans_nodup
  obtain ⟨x, -, rfl⟩ := openEntry_some k m p he
  obtain ⟨y, -, rfl⟩ := openEntry_some k m p hf
  exact apart

end OpenList

/-! ### Peaks (R96) -/

theorem peak_zero (c : Chan) : (#v[{}, {}, {}, {}, {}, {}] : Vector Peak 6)[c] = {} := by
  revert c
  decide

/-- The peaks of an event at its open vote. -/
def openPeaks (l : List Report) : Vector Peak 6 := takePeaks l #v[{}, {}, {}, {}, {}, {}]

theorem openPeaks_none {l : List Report} {c : Chan} (h : ∀ a ∈ l, a.chan ≠ c) : (openPeaks l)[c] = ⟨0, 0, false⟩ :=
  (takePeaks_none l _ c h).trans (peak_zero c)

theorem openPeaks_one {l : List Report} (h : l.Pairwise fun a b => a.chan ≠ b.chan) {a : Report} (mem : a ∈ l) :
    (openPeaks l)[a.chan] = ⟨a.ratio, if a.gap = true then 0 else a.value.natAbs, a.clip⟩ := by
  have one : (openPeaks l)[a.chan] = _ := takePeaks_one l _ h a mem
  rw [one, peak_zero]
  simp [Peak.take]

/-! ### An event opens -/

/-- The record of an event opened at the vote k. -/
def openedRecord (n : Nat) (k : Note) (l : List Report) (sum : Nat) (s : State) : EvRecord where
  number := n
  state := .opened
  openStamp := k.stamp
  openStrobe := k.strobe
  preStart := k.strobe - s.preEvent * s.sch.rate
  close := none
  peakS := sum
  list := openList k.strobe s.evt.counting (openPeaks l)
  flags := {
    timePoor := decide (k.stamp.grade = .C ∨ k.stamp.grade = .D ∨ k.stamp.grade = .U)
    degraded := s.mon.degraded }

/-- The events with the event opened. -/
def openedEvents (n : Nat) (k : Note) (l : List Report) (sum : Nat) (s : State) : Events :=
  { s.evt with
    state := .opened, number := nextEvent n, peaks := openPeaks l, record := some (openedRecord n k l sum s) }

theorem openAlert_box_congr {r : EvRecord} {s t : State} (box : t.box = s.box) (stamp : t.stamp = s.stamp)
    (params : t.params = s.params) : (openAlert r t).box = (openAlert r s).box := by
  have alert : t.alertOpen = s.alertOpen := by
    unfold State.alertOpen
    rw [param_of_params params]
  unfold openAlert
  rw [alert, stamp]
  split
  · exact place_box_congr _ box
  · exact box

section OpenEvent
variable (n : Nat) (k : Note) (l : List Report) (sum : Nat) (s : State)

theorem openEvent_eq : openEvent n k l sum s =
    chargeHoldStart (heaterHoldStart (openAlert (openedRecord n k l sum s) { s with evt := openedEvents n k l sum s })) := rfl

theorem openEvent_evt : (openEvent n k l sum s).evt = openedEvents n k l sum s := by
  rw [openEvent_eq, evt_of (chargeHoldStart_does _) (by decide), evt_of (heaterHoldStart_does _) (by decide),
    evt_of (openAlert_does _ _) (by decide)]

theorem openEvent_box : (openEvent n k l sum s).box = (openAlert (openedRecord n k l sum s) s).box := by
  rw [openEvent_eq, box_of (chargeHoldStart_does _) (by decide), box_of (heaterHoldStart_does _) (by decide)]
  exact openAlert_box_congr rfl rfl rfl

theorem holdStart_holds {u : State} (on : 0 < u.quietMax) :
    (chargeHoldStart (heaterHoldStart u)).bat.hold = some 0 ∧ (chargeHoldStart (heaterHoldStart u)).htr.hold = some 0 := by
  have heater : (heaterHoldStart u).htr.hold = some 0 := by
    unfold heaterHoldStart
    rw [if_pos on]
  have still : (heaterHoldStart u).quietMax = u.quietMax :=
    congrArg Int.toNat (param_of_params (params_of (heaterHoldStart_does u) (by decide)) _)
  generalize heaterHoldStart u = v at *
  unfold chargeHoldStart
  rw [if_pos (by omega)]
  exact ⟨rfl, heater⟩

theorem openEvent_holds (on : 0 < s.quietMax) :
    (openEvent n k l sum s).bat.hold = some 0 ∧ (openEvent n k l sum s).htr.hold = some 0 := by
  rw [openEvent_eq]
  have still : (openAlert (openedRecord n k l sum s) { s with evt := openedEvents n k l sum s }).quietMax = s.quietMax :=
    congrArg Int.toNat (param_of_params (params_of (openAlert_does _ _) (by decide)) _)
  exact holdStart_holds (by omega)

end OpenEvent

/-! ### The state of the engine moves -/

section Move
variable {k : Note} {l : List Report} {sum : Nat} {s : State}

theorem moveEvent_opens {n : Nat} (idle : s.evt.state = .idle) (number : s.evt.number = some n)
    (reached : s.voteThreshold ≤ sum) : moveEvent k l sum s = openEvent n k l sum s := by
  unfold moveEvent
  rw [idle]
  dsimp only
  rw [number]
  exact if_pos reached

theorem moveEvent_idle (idle : s.evt.state = .idle) (short : s.evt.number = none ∨ sum < s.voteThreshold) :
    moveEvent k l sum s = s := by
  unfold moveEvent
  rw [idle]
  dsimp only
  rcases number : s.evt.number with _ | n
  · rfl
  · exact if_neg (Nat.not_le.mpr (short.resolve_left (by rw [number]; exact Option.some_ne_none n)))

theorem moveEvent_rearm (rearm : s.evt.state = .rearm) : moveEvent k l sum s =
    if sum < s.voteThreshold then { s with evt := { s.evt with state := .idle } } else s := by
  unfold moveEvent
  rw [rearm]

theorem moveEvent_active (active : s.evt.state = .opened ∨ s.evt.state = .closing) : moveEvent k l sum s =
    if (updateRecord l sum s).truncateDue k.strobe then truncateEvent k (updateRecord l sum s)
    else compareVote k sum (updateRecord l sum s) := by
  unfold moveEvent
  rcases active with h | h <;> rw [h]

end Move

/-- An event opened, clause by clause. -/
theorem openEvent_spec (n sum : Nat) (k : Note) (l : List Report) (s : State) :
    let t := openEvent n k l sum s
    let r := openedRecord n k l sum s
    t.evt.state = .opened ∧ t.evt.number = (if n < 4294967295 then some (n + 1) else none) ∧ t.evt.record = some r
    ∧ ((∀ x ∈ l, x.strobe = k.strobe) → l.Pairwise (fun a b => a.chan ≠ b.chan) →
        ∀ c : Chan, let x := t.evt.peaks[c]
          (∀ e ∈ r.list, e.chan = c → e.peak = x)
          ∧ ((∀ a ∈ l, a.chan ≠ c) → x = ⟨0, 0, false⟩)
          ∧ ∀ a ∈ l, a.chan = c → x = ⟨a.ratio, if a.gap = true then 0 else a.value.natAbs, a.clip⟩) := by
  intro t r
  have evt : t.evt = openedEvents n k l sum s := openEvent_evt n k l sum s
  rw [evt]
  refine ⟨rfl, rfl, rfl, fun _ apart c => ⟨fun e mem own => ?_, openPeaks_none, fun a mem own => ?_⟩⟩
  · rw [← own]
    exact openList_peak _ _ _ mem
  · rw [← own]
    exact openPeaks_one apart mem

/-! ### The record in progress is updated (R95 to R97) -/

/-- The trigger list after the reports of a vote. -/
def listAfter (l : List Report) (r : EvRecord) (s : State) : List TrigEntry :=
  showPeaks (takePeaks l s.evt.peaks) (touchAll r.openStrobe r.list l)

/-- The record r after the reports of a vote. -/
def updatedRecord (l : List Report) (sum : Nat) (r : EvRecord) (s : State) : EvRecord :=
  { r with
    peakS := max r.peakS sum
    list := listAfter l r s
    flags := { r.flags with degraded := r.flags.degraded || s.mon.degraded } }

/-- The part with the record r updated. -/
def updatedState (l : List Report) (sum : Nat) (r : EvRecord) (s : State) : State :=
  { s with evt := { s.evt with peaks := takePeaks l s.evt.peaks, record := some (updatedRecord l sum r s) } }

theorem updateRecord_eq {l : List Report} {sum : Nat} {r : EvRecord} {s : State} (record : s.evt.record = some r) :
    updateRecord l sum s = updatedState l sum r s := by
  unfold updateRecord
  rw [record]
  rfl

/-- What the list `z` and the peaks `p` show of the reports l of the vote k, the record in progress being r. -/
def Listed (k : Note) (l : List Report) (r : EvRecord) (s : State) (p : Vector Peak 6) (z : List TrigEntry) : Prop :=
  (∀ x ∈ l, x.strobe = k.strobe) → l.Pairwise (fun a b => a.chan ≠ b.chan) →
  let on (c : Chan) : Prop := ∃ a ∈ l, a.chan = c ∧ a.on = true ∧ a.overridden = false
  (∀ c : Chan, let q := s.evt.peaks[c]
    (∀ e ∈ z, e.chan = c → e.peak = p[c])
    ∧ ((∀ a ∈ l, a.chan ≠ c) → p[c] = q)
    ∧ ∀ a ∈ l, a.chan = c → p[c] =
      ⟨max q.ratio a.ratio, if a.gap = true then q.absx else max q.absx a.value.natAbs, q.clipped || a.clip⟩)
  ∧ ∃ old new, z = old ++ new ∧ old.length = r.list.length
    ∧ (∀ (i : Nat) (e f : TrigEntry), r.list[i]? = some e → old[i]? = some f → f.chan = e.chan ∧ f.firstOn = e.firstOn
        ∧ f.offset = e.offset ∧ (on e.chan → f.onCount = min (e.onCount + 1) 255) ∧ (¬ on e.chan → f.onCount = e.onCount))
    ∧ (∀ c : Chan, (∃ f ∈ new, f.chan = c) ↔ on c ∧ ∀ e ∈ r.list, e.chan ≠ c)
    ∧ new.Pairwise (fun a b => a.chan < b.chan)
    ∧ ∀ f ∈ new, f.firstOn = k.strobe ∧ f.onCount = 1 ∧ f.offset = offsetBetween r.openStrobe k.strobe

theorem mem_showPeaks {p : Vector Peak 6} {z : List TrigEntry} {e : TrigEntry} (mem : e ∈ showPeaks p z) :
    e.peak = p[e.chan] := by
  obtain ⟨x, -, rfl⟩ := List.mem_map.mp mem
  rfl

/-- An entry of the list with its ON count after the reports. -/
def countedEntry (l : List Report) (e : TrigEntry) : TrigEntry :=
  if touchedBy l e.chan = true then { e with onCount := min (e.onCount + 1) 255 } else e

theorem countedEntry_same (l : List Report) (e : TrigEntry) : (countedEntry l e).chan = e.chan
    ∧ (countedEntry l e).firstOn = e.firstOn ∧ (countedEntry l e).offset = e.offset := by
  unfold countedEntry
  split <;> exact ⟨rfl, rfl, rfl⟩

/-- The channels that the reports add to the list. -/
def newChans (l : List Report) (base : List TrigEntry) : List Chan :=
  allChans.filter fun c => touchedBy l c && !(base.any fun e => e.chan == c)

theorem mem_newChans (l : List Report) (base : List TrigEntry) (c : Chan) :
    c ∈ newChans l base ↔ touchedBy l c = true ∧ ∀ e ∈ base, e.chan ≠ c := by
  unfold newChans
  simp [mem_allChans]

/-- A new entry of channel c, for its first ON at strobe k. -/
def newEntry (o k : Nat) (p : Vector Peak 6) (c : Chan) : TrigEntry := ⟨c, k, onOffset o k, 1, p[c]⟩

/-- The list after the reports of a vote: its entries counted, then the new ones, all with the running peaks. -/
theorem listAfter_eq {k : Note} {l : List Report} {r : EvRecord} {s : State} (same : ∀ x ∈ l, x.strobe = k.strobe) :
    listAfter l r s = showPeaks (takePeaks l s.evt.peaks) (r.list.map (countedEntry l))
      ++ (newChans l r.list).map (newEntry r.openStrobe k.strobe (takePeaks l s.evt.peaks)) := by
  unfold listAfter
  rw [touchAll_eq r.openStrobe k.strobe r.list l same, showPeaks, List.map_append]
  exact congrArg₂ (· ++ ·) rfl List.map_map

theorem listed_listAfter (k : Note) (l : List Report) (r : EvRecord) (s : State) :
    Listed k l r s (takePeaks l s.evt.peaks) (listAfter l r s) := by
  intro same apart on
  have touched (c : Chan) : touchedBy l c = true ↔ on c := touchedBy_iff l apart c
  refine ⟨fun c => ⟨fun e mem own => ?_, takePeaks_none l _ c, fun a mem own => ?_⟩,
    showPeaks (takePeaks l s.evt.peaks) (r.list.map (countedEntry l)),
    (newChans l r.list).map (newEntry r.openStrobe k.strobe (takePeaks l s.evt.peaks)), listAfter_eq same, ?_, ?_, fun c => ?_,
    ?_, fun f mem => ?_⟩
  · rw [← own]
    exact mem_showPeaks mem
  · rw [← own]
    exact takePeaks_one l _ apart a mem
  · rw [showPeaks, List.length_map, List.length_map]
  · intro i e f he hf
    have entry : f = { countedEntry l e with peak := (takePeaks l s.evt.peaks)[(countedEntry l e).chan] } := by
      rw [showPeaks, List.getElem?_map, List.getElem?_map, he] at hf
      exact (Option.some.inj hf).symm
    obtain ⟨chan, firstOn, offset⟩ := countedEntry_same l e
    subst entry
    refine ⟨chan, firstOn, offset, fun counts => ?_, fun silent => ?_⟩
    · exact congrArg TrigEntry.onCount (if_pos ((touched e.chan).mpr counts))
    · have still : countedEntry l e = e := if_neg fun h => silent ((touched e.chan).mp h)
      exact (congrArg TrigEntry.onCount still : (countedEntry l e).onCount = e.onCount)
  · rw [← touched, ← mem_newChans]
    constructor
    · rintro ⟨f, mem, rfl⟩
      obtain ⟨d, hd, rfl⟩ := List.mem_map.mp mem
      exact hd
    · exact fun mem => ⟨_, List.mem_map_of_mem mem, rfl⟩
  · refine List.pairwise_map.mpr (List.Pairwise.filter _ ?_)
    show allChans.Pairwise fun c d => c < d
    decide
  · obtain ⟨c, -, rfl⟩ := List.mem_map.mp mem
    exact ⟨rfl, rfl, onOffset_eq _ _⟩

/-! ### The comparison of a vote (R92, R93) -/

section Compare
variable {k : Note} {sum : Nat} {s : State}

theorem compareVote_opened (opened : s.evt.state = .opened) : compareVote k sum s =
    if sum < s.voteThreshold then setEvState .closing .closing (s.postEvent * s.sch.rate) s else s := by
  unfold compareVote
  rw [opened]

theorem compareVote_closing (closing : s.evt.state = .closing) : compareVote k sum s =
    if sum < s.voteThreshold then
      if s.evt.post - 1 = 0 then expireEvent k { s with evt := { s.evt with post := s.evt.post - 1 } }
      else { s with evt := { s.evt with post := s.evt.post - 1 } }
    else setEvState .opened .opened 0 s := by
  unfold compareVote
  rw [closing]

end Compare

theorem setEvState_evt {x : EvState} {y : RecState} {post : Nat} {r : EvRecord} {s : State} (record : s.evt.record = some r) :
    (setEvState x y post s).evt = { s.evt with state := x, post := post, record := some { r with state := y } } := by
  unfold setEvState
  rw [record]
  rfl

section Active
variable {k : Note} {l : List Report} {sum : Nat} {r : EvRecord} {s : State} (record : s.evt.record = some r)
  (active : s.evt.state = .opened ∨ s.evt.state = .closing)
include record active

/-- At its limit the updated record closes TRUNCATED. -/
theorem moveEvent_truncates (full : s.eventMax * s.sch.rate ≤ Machine.dist r.openStrobe k.strobe) :
    moveEvent k l sum s = truncateEvent k (updatedState l sum r s) := by
  rw [moveEvent_active active, updateRecord_eq record]
  exact if_pos ((truncateDue_iff (s := updatedState l sum r s) rfl k.strobe).mpr full)

/-- Before it the vote is compared. -/
theorem moveEvent_compares (short : Machine.dist r.openStrobe k.strobe < s.eventMax * s.sch.rate) :
    moveEvent k l sum s = compareVote k sum (updatedState l sum r s) := by
  rw [moveEvent_active active, updateRecord_eq record]
  exact if_neg fun due => absurd ((truncateDue_iff (s := updatedState l sum r s) rfl k.strobe).mp due) (Nat.not_le.mpr short)

theorem moveEvent_truncates_evt (full : s.eventMax * s.sch.rate ≤ Machine.dist r.openStrobe k.strobe) :
    (moveEvent k l sum s).evt = closedEvents (fun f => { f with truncated := true }) k.strobe k.stamp .rearm
      (updatedRecord l sum r s) (updatedState l sum r s) := by
  rw [moveEvent_truncates record active full]
  exact closeRecord_evt rfl

end Active

section Compared
variable {k : Note} {l : List Report} {sum : Nat} {r : EvRecord} {s : State} (record : s.evt.record = some r)
  (short : Machine.dist r.openStrobe k.strobe < s.eventMax * s.sch.rate)
include record short

theorem moveEvent_opened_falls (opened : s.evt.state = .opened) (below : sum < s.voteThreshold) :
    (moveEvent k l sum s).evt = { (updatedState l sum r s).evt with
      state := .closing, post := s.postEvent * s.sch.rate,
      record := some { updatedRecord l sum r s with state := .closing } } := by
  have falls : compareVote k sum (updatedState l sum r s) =
      setEvState .closing .closing (s.postEvent * s.sch.rate) (updatedState l sum r s) :=
    (compareVote_opened (s := updatedState l sum r s) opened).trans (if_pos below)
  rw [moveEvent_compares record (.inl opened) short, falls]
  exact setEvState_evt rfl

theorem moveEvent_opened_holds (opened : s.evt.state = .opened) (above : s.voteThreshold ≤ sum) :
    (moveEvent k l sum s).evt = (updatedState l sum r s).evt := by
  have holds : compareVote k sum (updatedState l sum r s) = updatedState l sum r s :=
    (compareVote_opened (s := updatedState l sum r s) opened).trans (if_neg (Nat.not_lt.mpr above))
  rw [moveEvent_compares record (.inl opened) short, holds]

theorem moveEvent_closing_rises (closing : s.evt.state = .closing) (above : s.voteThreshold ≤ sum) :
    (moveEvent k l sum s).evt = { (updatedState l sum r s).evt with
      state := .opened, post := 0, record := some { updatedRecord l sum r s with state := .opened } } := by
  have rises : compareVote k sum (updatedState l sum r s) = setEvState .opened .opened 0 (updatedState l sum r s) :=
    (compareVote_closing (s := updatedState l sum r s) closing).trans (if_neg (Nat.not_lt.mpr above))
  rw [moveEvent_compares record (.inr closing) short, rises]
  exact setEvState_evt rfl

/-- The updated part with the post timer counted down. -/
def countedDown (l : List Report) (sum : Nat) (r : EvRecord) (s : State) : State :=
  { updatedState l sum r s with evt := { (updatedState l sum r s).evt with post := s.evt.post - 1 } }

theorem moveEvent_closing_waits (closing : s.evt.state = .closing) (below : sum < s.voteThreshold) (running : 2 ≤ s.evt.post) :
    (moveEvent k l sum s).evt = (countedDown l sum r s).evt := by
  have waits : compareVote k sum (updatedState l sum r s) = countedDown l sum r s :=
    ((compareVote_closing (s := updatedState l sum r s) closing).trans (if_pos below)).trans
      (if_neg (show ¬ s.evt.post - 1 = 0 by omega))
  rw [moveEvent_compares record (.inr closing) short, waits]

theorem moveEvent_closing_expires (closing : s.evt.state = .closing) (below : sum < s.voteThreshold) (last : s.evt.post ≤ 1) :
    (moveEvent k l sum s).evt =
      closedEvents id k.strobe k.stamp .idle (updatedRecord l sum r s) (countedDown l sum r s) := by
  have expires : compareVote k sum (updatedState l sum r s) = expireEvent k (countedDown l sum r s) :=
    ((compareVote_closing (s := updatedState l sum r s) closing).trans (if_pos below)).trans
      (if_pos (show s.evt.post - 1 = 0 by omega))
  rw [moveEvent_compares record (.inr closing) short, expires]
  exact closeRecord_evt rfl

end Compared

/-- The record filed last is the one closed. -/
theorem closedEvents_last (f : EvFlags → EvFlags) (strobe : Nat) (stamp : Stamp) (after : EvState) (r : EvRecord) (s : State) :
    (closedEvents f strobe stamp after r s).list.getLast? = some (closedRecord f strobe stamp s.sch.rate r) :=
  List.getLast?_concat

/-! ### The reports gathered (R87) -/

/-- The reports held for strobe n. -/
def heldFor (n : Nat) (s : State) : List Report := s.evt.reports.filter fun x => x.strobe == n

theorem tryVote_nil {s : State} (notes : s.evt.notes = []) : tryVote s = s := by
  unfold tryVote
  rw [notes]

theorem tryVote_cons {k : Note} {rest : List Note} {s : State} (notes : s.evt.notes = k :: rest) :
    tryVote s = if 6 ≤ (heldFor k.strobe s).length then vote k s else s := by
  unfold tryVote
  rw [notes]
  rfl

/-- A vote leaves the notes and the reports of the other strobes. -/
theorem vote_leaves (k : Note) (s : State) : (vote k s).evt.notes = s.evt.notes.filter (fun n => n.strobe != k.strobe)
    ∧ (vote k s).evt.reports = s.evt.reports.filter (fun r => r.strobe != k.strobe) := by
  unfold vote
  dsimp only
  generalize hu : ({ s with evt := _, moment := _ } : State) = u
  obtain ⟨-, notes, reports, -⟩ := moveEvent_gathering k (s.evt.reports.filter fun r => r.strobe == k.strobe) u.voteSum u
  rw [notes, reports, ← hu]
  exact ⟨rfl, rfl⟩

theorem heldFor_vote {k : Note} {n : Nat} {s : State} (other : n ≠ k.strobe) : heldFor n (vote k s) = heldFor n s := by
  unfold heldFor
  rw [(vote_leaves k s).2, List.filter_filter]
  refine List.filter_congr fun x _ => ?_
  by_cases own : x.strobe = n
  · simp [own, other]
  · simp [own]

/-- The part with one report more. -/
def gathered (r : Report) (s : State) : State := { s with evt := { s.evt with reports := s.evt.reports ++ [r] } }

theorem gatherReport_unnoted {r : Report} {s : State} (h : ∀ k ∈ s.evt.notes, k.strobe ≠ r.strobe) : gatherReport r s = s :=
  if_neg fun any => by
    obtain ⟨k, mem, same⟩ := List.any_eq_true.mp any
    exact h k mem (by simpa using same)

theorem gatherReport_noted {r : Report} {s : State} (h : ∃ x ∈ s.evt.notes, x.strobe = r.strobe) :
    gatherReport r s = tryVote (tryVote (gathered r s)) := by
  obtain ⟨x, mem, same⟩ := h
  exact if_pos (List.any_eq_true.mpr ⟨x, mem, by simpa using same⟩)

section Gathered
variable {k : Note} {rest : List Note} {u : State} (notes : u.evt.notes = k :: rest)
include notes

theorem tryVote_waits (few : (heldFor k.strobe u).length < 6) : tryVote (tryVote u) = u := by
  have once : tryVote u = u := (tryVote_cons notes).trans (if_neg (Nat.not_le.mpr few))
  rw [once, once]

/-- The notes after the vote of the first. -/
theorem vote_notes : (vote k u).evt.notes = rest.filter fun x => x.strobe != k.strobe := by
  rw [(vote_leaves k u).1, notes]
  exact List.filter_cons_of_neg (by simp)

theorem tryVote_once (six : 6 ≤ (heldFor k.strobe u).length) (none : rest.filter (fun x => x.strobe != k.strobe) = []) :
    tryVote (tryVote u) = vote k u := by
  rw [tryVote_cons notes, if_pos six]
  exact tryVote_nil ((vote_notes notes).trans none)

/-- The reports of the next noted strobe decide whether a second vote follows. -/
theorem tryVote_twice {j : Note} {later : List Note} (six : 6 ≤ (heldFor k.strobe u).length)
    (next : rest.filter (fun x => x.strobe != k.strobe) = j :: later) :
    tryVote (tryVote u) = if 6 ≤ (heldFor j.strobe u).length then vote j (vote k u) else vote k u := by
  have other : j.strobe ≠ k.strobe := by
    have mem : j ∈ rest.filter fun x => x.strobe != k.strobe := by rw [next]; exact List.mem_cons_self ..
    simpa using (List.mem_filter.mp mem).2
  rw [tryVote_cons notes, if_pos six, tryVote_cons ((vote_notes notes).trans next), heldFor_vote other]

end Gathered

/-! ### The counting marks and the sum (R88 to R90) -/

/-- The part at the vote of a strobe, its marks counted. -/
def markedState (k : Note) (s : State) : State :=
  { s with
    evt := { s.evt with counting := (vote k s).evt.counting }
    moment := { s.moment with strobe := true } }

theorem voteSum_eq (s : State) : s.voteSum =
    let weight (c : Chan) := if s.evt.counting[c].isSome = true then s.chn[c].det.weight else 0
    weight 0 + weight 1 + weight 2 + weight 3 + weight 4 + weight 5 := by
  unfold State.voteSum allChans
  simp only [List.map_cons, List.map_nil, List.sum_cons, List.sum_nil]
  omega

theorem voteSum_le {s : State} (h : ∀ c : Chan, s.chn[c].det.weight ≤ 15) : s.voteSum ≤ 90 := by
  rw [voteSum_eq]
  have weight (c : Chan) : (if s.evt.counting[c].isSome = true then s.chn[c].det.weight else 0) ≤ 15 := by
    split
    · exact h c
    · exact Nat.zero_le _
  have := weight 0
  have := weight 1
  have := weight 2
  have := weight 3
  have := weight 4
  have := weight 5
  dsimp only
  omega

/-- The sum of the marks after the vote. -/
theorem markedState_voteSum (k : Note) (s : State) : (markedState k s).voteSum =
    let weight (c : Chan) := if (vote k s).evt.counting[c].isSome = true then s.chn[c].det.weight else 0
    weight 0 + weight 1 + weight 2 + weight 3 + weight 4 + weight 5 := voteSum_eq (markedState k s)

theorem vote_eq (k : Note) (s : State) :
    let v := moveEvent k (heldFor k.strobe s) (markedState k s).voteSum (markedState k s)
    vote k s = { v with evt := { v.evt with
      lastVoted := some k
      notes := s.evt.notes.filter fun x => x.strobe != k.strobe
      reports := s.evt.reports.filter fun x => x.strobe != k.strobe } } := by
  intro v
  obtain ⟨-, notes, reports, -⟩ := moveEvent_gathering k (heldFor k.strobe s) (markedState k s).voteSum (markedState k s)
  have marked : markedState k s = { s with
      evt := { s.evt with counting := countAll (s.coincWindow * s.sch.rate) (heldFor k.strobe s) s.evt.counting }
      moment := { s.moment with strobe := true } } := by
    unfold markedState
    rw [vote_counting]
    rfl
  have unfolded : vote k s = { v with evt := { v.evt with
      lastVoted := some k
      notes := v.evt.notes.filter fun x => x.strobe != k.strobe
      reports := v.evt.reports.filter fun x => x.strobe != k.strobe } } := by
    dsimp only [v]
    rw [marked]
    rfl
  rw [unfolded]
  have vNotes : v.evt.notes = s.evt.notes := notes
  have vReports : v.evt.reports = s.evt.reports := reports
  rw [vNotes, vReports]

theorem silent_iff (x : TrigState) : x.silent = true ↔ x = .off ∨ x = .warmup ∨ x = .suppressed := by
  cases x <;> simp [TrigState.silent]

section CountAfter
variable {m : Option Counting} {a : Report} {span : Nat}

theorem countAfter_never (h : a.overridden = true ∨ a.state = .off ∨ a.state = .warmup ∨ a.state = .suppressed) :
    countAfter m a span = none := by
  rw [← silent_iff, ← Bool.or_eq_true] at h
  unfold countAfter
  exact if_pos h

theorem countAfter_counts (own : a.overridden = false) (h : a.state = .quiet ∨ a.state = .triggered) :
    countAfter m a span = if a.on = true then some ⟨a.strobe, span⟩ else if a.state = .triggered then m else
      match m with
      | none => none
      | some c => if Machine.dist c.on a.strobe < c.span then some c else none := by
  have loud : ¬ (a.overridden || a.state.silent) = true := by
    rcases h with h | h <;> rw [own, h] <;> decide
  unfold countAfter
  rw [if_neg loud] <;> rfl

theorem countAfter_on (own : a.overridden = false) (h : a.state = .quiet ∨ a.state = .triggered) (on : a.on = true) :
    countAfter m a span = some ⟨a.strobe, span⟩ := (countAfter_counts own h).trans (if_pos on)

theorem countAfter_triggered (own : a.overridden = false) (silent : a.on = false) (triggered : a.state = .triggered) :
    countAfter m a span = m := by
  rw [countAfter_counts own (.inr triggered), silent, if_neg Bool.false_ne_true, if_pos triggered]

theorem countAfter_quiet (own : a.overridden = false) (silent : a.on = false) (quiet : a.state = .quiet) :
    countAfter m a span = match m with
      | none => none
      | some c => if Machine.dist c.on a.strobe < c.span then some c else none := by
  rw [countAfter_counts own (.inl quiet), silent, if_neg Bool.false_ne_true, if_neg (by rw [quiet]; decide)]

theorem countAfter_quiet_none (own : a.overridden = false) (silent : a.on = false) (quiet : a.state = .quiet) :
    countAfter none a span = none := countAfter_quiet own silent quiet

theorem countAfter_quiet_some {c : Counting} (own : a.overridden = false) (silent : a.on = false) (quiet : a.state = .quiet) :
    countAfter (some c) a span = if Machine.dist c.on a.strobe < c.span then some c else none :=
  countAfter_quiet own silent quiet

end CountAfter

/-- The mark of a channel that reports once. -/
theorem vote_counting_one {k : Note} {s : State} {c : Chan} {a : Report}
    (only : (heldFor k.strobe s).filter (fun x => x.chan == c) = [a]) :
    (vote k s).evt.counting[c] = countAfter s.evt.counting[c] a (s.coincWindow * s.sch.rate) := by
  rw [vote_counting]
  exact countAll_one _ _ _ c a only

theorem heldFor_strobe {n : Nat} {s : State} {a : Report} (mem : a ∈ heldFor n s) : a.strobe = n := by
  simpa using (List.mem_filter.mp mem).2

/-- Settles O44: the opening vote, the votes of IDLE and REARM, those of OPEN and CLOSING, the gathering, the marks, and the
signal between votes. -/
theorem voteMovesTheEvent : Obligations.VoteMovesTheEvent := by
  refine ⟨fun n sum k l s idle number reached => ?opens, fun sum k l s => ⟨moveEvent_idle, fun rearm above => ?stays,
    fun rearm below => ?falls⟩, fun sum k l r s record active => ?active, fun r s => ⟨gatherReport_unnoted,
    fun k rest notes noted => ?gathers⟩, fun k s => ?votes, fun c s => ?signal⟩
  case opens =>
    have opened : moveEvent k l sum s = openEvent n k l sum s := moveEvent_opens idle number reached
    obtain ⟨state, next, record, peaks⟩ := openEvent_spec n sum k l s
    dsimp only
    rw [opened]
    refine ⟨state, next, openedRecord n k l sum s, record, rfl, rfl, rfl, rfl, rfl, rfl, rfl, decide_eq_true_iff, rfl, rfl, rfl,
      rfl, exists_openList _ _ _, fun e mem x => openList_entry _ _ _ mem, openList_pairwise _ _ _, peaks,
      openEvent_box n k l sum s, openEvent_holds n k l sum s⟩
  case stays => rw [moveEvent_rearm rearm, if_neg (Nat.not_lt.mpr above)]
  case falls => rw [moveEvent_rearm rearm, if_pos below]
  case active =>
    have listed := listed_listAfter k l r s
    refine ⟨fun full => ?_, fun short => ⟨fun above => ?_, fun below opened => ?_, fun below closing running => ?_,
      fun below closing last => ?_⟩⟩
    · rw [moveEvent_truncates_evt record active full]
      refine ⟨rfl, rfl, _, closedEvents_last _ _ _ _ _ _, listed, rfl, rfl, rfl, rfl, ?_⟩
      rw [Bool.or_true]
      rfl
    · rcases active with opened | closing
      · rw [moveEvent_opened_holds record short opened above, opened]
        exact ⟨opened, rfl, _, rfl, listed, rfl, rfl, rfl, rfl, rfl, rfl, rfl, rfl⟩
      · rw [moveEvent_closing_rises record short closing above, closing]
        exact ⟨rfl, rfl, _, rfl, listed, rfl, rfl, rfl, rfl, rfl, rfl, rfl, rfl⟩
    · rw [moveEvent_opened_falls record short opened below]
      exact ⟨rfl, rfl, _, rfl, listed, rfl, rfl, rfl, rfl, rfl, rfl, rfl, rfl⟩
    · rw [moveEvent_closing_waits record short closing below running]
      exact ⟨closing, rfl, _, rfl, listed, rfl, rfl, rfl, rfl, rfl, rfl, rfl, rfl⟩
    · rw [moveEvent_closing_expires record short closing below last]
      refine ⟨rfl, rfl, _, closedEvents_last _ _ _ _ _ _, listed, rfl, rfl, rfl, rfl, ?_⟩
      rw [Bool.or_false]
      rfl
  case gathers =>
    have notes' : (gathered r s).evt.notes = k :: rest := notes
    rw [gatherReport_noted noted]
    refine ⟨fun few => tryVote_waits notes' few, fun six all => tryVote_once notes' six ?_, fun j later next six =>
      ⟨fun few => ?_, fun six' => ?_⟩⟩
    · exact List.filter_eq_nil_iff.mpr fun x mem => by simp [all x mem]
    · rw [tryVote_twice notes' six next]
      exact if_neg (Nat.not_le.mpr few)
    · rw [tryVote_twice notes' six next]
      exact if_pos six'
  case votes =>
    have sum := markedState_voteSum k s
    have voted := vote_eq k s
    dsimp only at voted sum
    rw [sum] at voted
    refine ⟨voted, fun light => ?_, fun c => ⟨fun none => ?_, fun a only => ⟨fun never => ?_, fun own state => ?_⟩⟩⟩
    · have bound := voteSum_le (s := markedState k s) light
      rw [sum] at bound
      exact bound
    · rw [vote_counting]
      exact countAll_none _ _ _ c none
    · rw [vote_counting_one only, countAfter_never never]
    · have mem : a ∈ heldFor k.strobe s := (List.mem_filter.mp (only ▸ List.mem_singleton_self a :
        a ∈ (heldFor k.strobe s).filter fun x => x.chan == c)).1
      rw [vote_counting_one only]
      refine ⟨fun on => ?_, fun silent triggered => countAfter_triggered own silent triggered,
        fun silent quiet none => ?_, fun m silent quiet counting => ?_⟩
      · rw [countAfter_on own state on, heldFor_strobe mem]
      · rw [none, countAfter_quiet_none own silent quiet]
      · rw [counting, countAfter_quiet_some own silent quiet, heldFor_strobe mem]
  case signal =>
    have silent := silent_iff s.chn[c].state
    refine ⟨fun loud => if_neg fun h => ?_, fun notQuiet notTriggered => if_pos ?_⟩
    · rcases silent.mp h with h | h | h <;> rcases loud with k | k <;> rw [h] at k <;> cases k
    · revert notQuiet notTriggered
      generalize s.chn[c].state = x
      cases x <;> simp [TrigState.silent]

end Sys2Proof.Proofs
end

