-- ==== Sys2Proof/Proofs/ClockCommands.lean ====
section
/-! PROOFS. The clock's phase step (R10), its commands (R11, R14, R15) and the label receiver (R4, R216): the settling of O26,
O27 and O30. -/
namespace Sys2Proof.Proofs

open Sys2Proof Sys2Proof.Machine Sys2Proof.Laws

/-! ### Stepping permitted and forbidden (R9) -/

theorem stepForbidden_false {s : State} (idle : s.eventActive = false) (calm : s.calRunning = false) :
    (s.eventActive || s.calRunning) = false := by
  rw [idle, calm]
  rfl

theorem stepForbidden_true {s : State} (h : s.eventActive = true ∨ s.calRunning = true) :
    (s.eventActive || s.calRunning) = true := Bool.or_eq_true_iff.mpr h

/-- The slew against a phase error that is not zero (R10). -/
theorem slew_eq {e : Int} (h : e ≠ 0) : -2000 * signOf e = if 0 < e then -2000 else 2000 := by
  unfold signOf
  split
  · rfl
  · rw [if_pos (by omega)]
    rfl

theorem phaseStep_taken (e : Int) {s : State} (idle : s.eventActive = false) (calm : s.calRunning = false) :
    (phaseStep e s).clk = { s.clk with
      s := (((s.clk.s : Int) + ((s.clk.t : Int) - e) / 10000000) % 4294967296).toNat
      t := (((s.clk.t : Int) - e) % 10000000).toNat
      steps := inc16 s.clk.steps, c := s.clk.r, lock := 0 } := by
  rw [phaseStep_clk, stepForbidden_false idle calm, if_neg Bool.false_ne_true, Int.sub_eq_add_neg]
  rfl

theorem phaseStep_deferred {e : Int} {s : State} (h : s.eventActive = true ∨ s.calRunning = true) (some : e ≠ 0) :
    (phaseStep e s).clk = { s.clk with c := if 0 < e then -2000 else 2000, stepDeferred := true, lock := 0 } := by
  rw [phaseStep_clk, stepForbidden_true h, if_pos rfl, slew_eq some]

theorem phaseStep_same (e : Int) (s : State) : (phaseStep e s).clk.lock = 0 ∧ (phaseStep e s).clk.disc = s.clk.disc
    ∧ (phaseStep e s).clk.r = s.clk.r ∧ (phaseStep e s).clk.mismatch = s.clk.mismatch
    ∧ (phaseStep e s).clk.watch = s.clk.watch ∧ (phaseStep e s).clk.label = s.clk.label
    ∧ (phaseStep e s).clk.hold = s.clk.hold := by
  rw [phaseStep_clk]
  split <;> exact ⟨rfl, rfl, rfl, rfl, rfl, rfl, rfl⟩

theorem acceptedCapture_acquire {x : Time} {since : Nat} {label : Option Nat} {s : State} (h : s.clk.disc = .acquire) :
    acceptedCapture x since label s =
      acquireCapture (phaseError x.t) (edgeSecond x) label { s with clk := { s.clk with watch := 0 } } := by
  unfold acceptedCapture
  rw [h]

/-- Settles O26: the capture of an UNSET clock with no label, and the phase step of an ACQUIRE clock. -/
theorem phaseStepIsTakenOrDeferred : Obligations.PhaseStepIsTakenOrDeferred := by
  refine ⟨fun x since s unset => ?_, fun x since s acquire far => ?_⟩
  · have e : acceptedCapture x since none s = settleFlag false s := by
      unfold acceptedCapture
      rw [unset]
    rw [e, settleFlag, Bool.false_or]
    simp only [decide_eq_true_iff]
  · intro e t
    let w : State := { s with clk := { s.clk with watch := 0 } }
    have clk : t.clk = { (phaseStep e w).clk with
        u := e.natAbs * 100 + 100
        stepDeferred := (phaseStep e w).clk.stepDeferred
          && ((w.eventActive || w.calRunning) || decide (w.clk.mismatch = 3)) } := by
      show (acceptedCapture x since none s).clk = _
      rw [acceptedCapture_acquire acquire]
      exact acquireWork_far e w far
    obtain ⟨lock, disc, rate, -, -, -, -⟩ := phaseStep_same e w
    rw [clk]
    refine ⟨lock, disc.trans acquire, rfl, rate, fun idle calm => ?_, fun forbidden => ?_⟩
    · rw [phaseStep_taken e (s := w) idle calm]
      exact ⟨rfl, rfl, rfl, rfl⟩
    · have some : e ≠ 0 := fun zero => Nat.not_lt_zero _ (zero ▸ far : s.stepThreshold < (0 : Int).natAbs)
      rw [phaseStep_deferred (s := w) forbidden some, stepForbidden_true (s := w) forbidden]
      exact ⟨rfl, rfl, rfl, rfl, rfl⟩

/-! ### The clock's commands -/

theorem exec_secondsCorrection {off : Int} {s : State} (powered : s.powered = true) (offset : s.clk.offset = some off)
    (capture : s.moment.capture = true) (three : s.clk.mismatch = 3) (running : s.clk.disc = .acquire ∨ s.clk.disc = .track) :
    exec .secondsCorrection s = .next (secondsCorrection off s) := by
  have e : exec .secondsCorrection s = execSecondsCorrection s := rfl
  rw [e, execSecondsCorrection, act_on powered, offset]
  refine congrArg _ (if_pos ?_)
  rw [capture, three]
  rcases running with h | h <;> rw [h] <;> rfl

theorem secondsCorrection_deferred (off : Int) {s : State} (h : s.eventActive = true ∨ s.calRunning = true) :
    secondsCorrection off s = deferStep { s with moment := { s.moment with capture := false } } :=
  if_pos (stepForbidden_true h)

/-- Settles O27: the two changes of state, and the correction where stepping is permitted and where it is forbidden. -/
theorem clockCommandsAct : Obligations.ClockCommandsAct := by
  refine ⟨fun s powered => ⟨fun acquire eight => ?_, fun track four => ?_⟩,
    fun off s powered offset capture three running => ⟨_, exec_secondsCorrection powered offset capture three running, ?_⟩⟩
  · have e : exec .trackEntry s = execTrackEntry s := rfl
    rw [e, execTrackEntry, act_on powered, if_pos (by rw [acquire, decide_eq_true eight]; rfl)]
    rfl
  · have e : exec .trackUnlock s = execTrackUnlock s := rfl
    rw [e, execTrackUnlock, act_on powered, if_pos (by rw [track, decide_eq_true four]; rfl)]
    rfl
  · have clk := secondsCorrection_clk off s
    by_cases forbidden : s.eventActive = true ∨ s.calRunning = true
    · have record := deferStep_record { s with moment := { s.moment with capture := false } }
      rw [stepForbidden_true forbidden, if_pos rfl] at clk
      rw [clk]
      refine ⟨rfl, rfl, fun idle calm => ?_, fun _ => ⟨rfl, three, offset, rfl, fun r held => ?_⟩⟩
      · rw [idle, calm] at forbidden
        exact absurd forbidden (by decide)
      · rw [secondsCorrection_deferred off forbidden, record]
        exact congrArg (Option.map _) held
    · have idle : s.eventActive = false := Bool.eq_false_iff.mpr fun k => forbidden (.inl k)
      have calm : s.calRunning = false := Bool.eq_false_iff.mpr fun k => forbidden (.inr k)
      rw [stepForbidden_false idle calm, if_neg Bool.false_ne_true] at clk
      rw [clk]
      exact ⟨rfl, rfl, fun _ _ => ⟨rfl, rfl, rfl, rfl⟩, fun k => absurd k forbidden⟩

/-! ### The label receiver -/

theorem abandonLabel_hunting {s : State} (hunting : s.clk.rx = []) : abandonLabel s = s := by
  have few : ¬ 2 ≤ s.clk.rx.length := by
    rw [hunting]
    decide
  unfold abandonLabel
  rw [if_neg few]
  dsimp only
  rw [← hunting]

theorem field_one (l : List Byte) (i : Nat) (b : Byte) (h : (l.drop i).take 1 = [b]) : field l i 1 = b.toNat := by
  unfold field
  rw [h]
  simp [ofBytes]

/-- Cycles that pass leave the receiver as it is. -/
theorem reach_rx {d : Nat} {s t : State} (h : reach d s = some t) : t.clk.rx = s.clk.rx := by
  unfold reach at h
  split at h
  · rw [← Option.some.inj h]
  · split at h
    · rw [← Option.some.inj h]
      unfold elapse
      dsimp only
      split <;> rfl
    · cases h

/-- A receiver that holds l of a label begun on this cycle. -/
def labelSoFar (l : List Byte) (s : State) : State :=
  { s with clk := { s.clk with lastByte := s.osc, div := s.gnssDivisor, rx := l } }

theorem gnssByte_first {s : State} (hunting : s.clk.rx = []) : gnssByte 0x9A s = labelSoFar [0x9A] s := by
  unfold gnssByte
  rw [hunting]
  rfl

theorem gnssByte_second (s : State) : gnssByte 0x1E (labelSoFar [0x9A] s) = labelSoFar [0x9A, 0x1E] s := by
  unfold gnssByte
  exact (if_pos (c := (0x1E : Byte) = 0x1E) rfl).trans rfl

theorem gnssByte_body {x y b : Byte} {r : List Byte} {s : State} (short : (x :: y :: r).length < 7) :
    gnssByte b (labelSoFar (x :: y :: r) s) = labelSoFar (x :: y :: (r ++ [b])) s := if_pos short

theorem gnssByte_last {x y b : Byte} {r : List Byte} {s : State} (full : ¬ (x :: y :: r).length < 7) :
    gnssByte b (labelSoFar (x :: y :: r) s) = takeLabel (x :: y :: r ++ [b]) (labelSoFar [] s) := if_neg full

/-- The eight bytes of a label into a receiver that hunts. -/
theorem gnssBytes_label {a b c d fix check : Byte} {s : State} (hunting : s.clk.rx = []) :
    [0x9A, 0x1E, a, b, c, d, fix, check].foldl (fun s b => gnssByte b s) s =
      takeLabel [0x9A, 0x1E, a, b, c, d, fix, check] (labelSoFar [] s) := by
  simp only [List.foldl_cons, List.foldl_nil]
  rw [gnssByte_first hunting, gnssByte_second, gnssByte_body (by simp), gnssByte_body (by simp), gnssByte_body (by simp),
    gnssByte_body (by simp), gnssByte_body (by simp)]
  exact gnssByte_last (by simp)

theorem takeLabel_eq (a b c d fix check : Byte) (s : State) : takeLabel [0x9A, 0x1E, a, b, c, d, fix, check] s =
    { s with clk := if check = crc8 [a, b, c, d, fix] ∧ fix.toNat ≤ 2 then
        { s.clk with label := some ⟨ofBytes [a, b, c, d], fix.toNat⟩ }
      else { s.clk with labelErrors := inc16 s.clk.labelErrors } } := by
  have state : field [0x9A, 0x1E, a, b, c, d, fix, check] 6 1 = fix.toNat := field_one _ _ _ rfl
  unfold takeLabel
  dsimp only
  rw [state]
  by_cases good : check = crc8 [a, b, c, d, fix] ∧ fix.toNat ≤ 2
  · rw [if_pos good]
    exact if_pos ⟨good.1.symm, good.2⟩
  · rw [if_neg good]
    exact if_neg fun k => good ⟨k.1.symm, k.2⟩

/-- Settles O30: the label taken or counted, and the receiver given up by silence and by a framing error. -/
theorem labelsAreLatchedOrCounted : Obligations.LabelsAreLatchedOrCounted := by
  intro dt a b c d fix check s u powered hu
  refine ⟨fun off bytes => ?_, fun on hunting => ?_, fun v held reached => ?_, ?_⟩
  · have e : exec (.gnssLabel dt bytes) s = execGnssLabel dt bytes s := rfl
    rw [e, execGnssLabel, act_on powered, ← hu]
    exact congrArg _ (if_neg (by rw [off]; exact Bool.false_ne_true))
  · have e : exec (.gnssLabel dt [0x9A, 0x1E, a, b, c, d, fix, check]) s =
        execGnssLabel dt [0x9A, 0x1E, a, b, c, d, fix, check] s := rfl
    rw [e, execGnssLabel, act_on powered, ← hu]
    dsimp only
    rw [if_pos on, abandonLabel_hunting hunting, ite_self, gnssBytes_label hunting, takeLabel_eq, labelSoFar]
    split <;> rw [← hunting]
  · have e : exec .gnssLabelTimeout s = execGnssLabelTimeout s := rfl
    have rx : v.clk.rx = s.clk.rx := reach_rx reached
    rw [e, execGnssLabelTimeout, act_on powered, if_neg (isEmpty_false held), atCycle_of_reach reached, abandonLabel, rx]
  · have e : exec (.gnssFramingError dt) s = execGnssFramingError dt s := rfl
    rw [e, execGnssFramingError, act_on powered, ← hu]
    rfl

end Sys2Proof.Proofs
end

