-- ==== Sys2Proof/Proofs/ClockBoundary.lean ====
section
/-! PROOFS. The clock's own work at a second boundary (R1, R2, R16 to R19, R22, R24): the second rolled, the PPS watch, the
timers of the GNSS supply; from these the settling of O29 and O23. -/
namespace Sys2Proof.Proofs

open Sys2Proof Sys2Proof.Machine Sys2Proof.Laws

/-! ### The second rolled (R1, R2, R17, R19) -/

/-- The rate applied at the boundary. -/
def boundaryRate (s : State) : Int :=
  if s.clk.disc = .holdover then
    max (-2000) (min 2000 (s.clk.rLoss + roundDiv (s.tempco * (s.pwr.tv - s.clk.tLoss)) 10)) else s.clk.c

/-- The corrections of the second that begins: the whole ones of the rate applied. -/
def wholeCorrections (s : State) : Int := Int.tdiv (s.clk.acc + boundaryRate s) 100

/-- The uncertainty after the boundary. -/
def boundaryUncertainty (s : State) : Nat :=
  if s.clk.disc = .holdover then min (s.clk.u + s.driftBound) 4294967295 else s.clk.u

/-- The clock with the second rolled and the uncertainty grown. -/
def grownClock (s : State) : Clock :=
  { s.clk with
    s := (s.clk.s + 1) % 4294967296
    t := 0
    ticks := s.clk.ticks + (10000000 - s.clk.t)
    acc := s.clk.acc + boundaryRate s - wholeCorrections s * 100
    corr := corrections (wholeCorrections s).natAbs
    corrUp := decide (0 < wholeCorrections s)
    c := boundaryRate s
    u := boundaryUncertainty s }

/-- The part with the second rolled and the uncertainty grown, before any report. -/
def grown (s : State) : State := growUncertainty (rollSecond (compensate s))

theorem grown_eq (s : State) : grown s = { s with
    osc := s.osc + s.clk.cyclesLeft, moment := {}, clk := grownClock s } := by
  by_cases h : s.clk.disc = .holdover
  · have rate : boundaryRate s = s.holdoverRate := if_pos h
    have compensated : compensate s = { s with clk := { s.clk with c := boundaryRate s } } := by
      rw [rate]
      exact if_pos h
    have grows : growUncertainty (rollSecond (compensate s)) = { rollSecond (compensate s) with
        clk := { (rollSecond (compensate s)).clk with u := boundaryUncertainty s } } := by
      unfold boundaryUncertainty
      rw [if_pos h, compensated]
      exact if_pos h
    unfold grown
    rw [grows, compensated]
    rfl
  · have rate : boundaryRate s = s.clk.c := if_neg h
    have uncertainty : boundaryUncertainty s = s.clk.u := if_neg h
    have compensated : compensate s = s := if_neg h
    have grows : growUncertainty (rollSecond (compensate s)) = rollSecond (compensate s) := by
      rw [compensated]
      exact if_neg h
    unfold grown grownClock wholeCorrections
    rw [grows, compensated, rate, uncertainty]
    rfl

/-! ### The PPS watch (R16) -/

/-- The clock runs: it is in ACQUIRE or TRACK. -/
abbrev Runs (s : State) : Prop := s.clk.disc = .acquire ∨ s.clk.disc = .track

/-- The GNSS supply is on. -/
abbrev Supplied (s : State) : Prop := s.clk.supply = .continuous ∨ s.clk.supply = .session

theorem supply_on_iff (x : Supply) : x.on = true ↔ x = .continuous ∨ x = .session := by
  cases x <;> simp [Supply.on]

theorem watching_iff (s : State) : ((s.clk.disc == .acquire || s.clk.disc == .track) && s.clk.supply.on) = true ↔
    Runs s ∧ Supplied s := by
  rw [Bool.and_eq_true, Bool.or_eq_true, beq_iff_eq, beq_iff_eq, supply_on_iff]

theorem watchExpired_iff (s : State) : s.watchExpired = true ↔ Runs s ∧ Supplied s ∧ s.ppsPrescale + 2 ≤ s.clk.watch := by
  unfold State.watchExpired
  rw [Bool.and_eq_true, watching_iff, decide_eq_true_iff, and_assoc]

/-- A clock that enters HOLDOVER for a reason, at a measured temperature (R18). -/
def heldClock (reason : HoldReason) (tv : Int) (c : Clock) : Clock :=
  { c with
    disc := .holdover, reason := some reason, rLoss := c.r, tLoss := tv, lock := 0, unlock := 0, mismatch := 0, offset := none,
    stepDeferred := false, hold := 0, c := max (-2000) (min 2000 c.r) }

theorem enterHoldover_eq (reason : HoldReason) (s : State) :
    enterHoldover reason s = { s with clk := heldClock reason s.pwr.tv s.clk } := rfl

/-- The watch counted one second up. -/
def watchedOn (s : State) : State := { s with clk := { s.clk with watch := s.clk.watch + 1 } }

section Watch
variable {s : State}

theorem tickWatch_expires (runs : Runs s) (supplied : Supplied s) (late : s.ppsPrescale + 2 ≤ s.clk.watch + 1) :
    tickWatch s = enterHoldover .ppsLoss (watchedOn s) := by
  unfold tickWatch
  rw [if_pos ((watching_iff s).mpr ⟨runs, supplied⟩)]
  exact if_pos ((watchExpired_iff (watchedOn s)).mpr ⟨runs, supplied, late⟩)

theorem tickWatch_counts (runs : Runs s) (supplied : Supplied s) (early : ¬ s.ppsPrescale + 2 ≤ s.clk.watch + 1) :
    tickWatch s = watchedOn s := by
  unfold tickWatch
  rw [if_pos ((watching_iff s).mpr ⟨runs, supplied⟩)]
  exact if_neg fun expired => early ((watchExpired_iff (watchedOn s)).mp expired).2.2

theorem tickWatch_rests (idle : ¬ (Runs s ∧ Supplied s)) : tickWatch s = s := by
  unfold tickWatch
  rw [if_neg fun watching => idle ((watching_iff s).mp watching)]
  exact if_neg fun expired => idle (((watchExpired_iff s).mp expired).imp_right And.left)

end Watch

/-! ### The supply schedule (R18, R23, R24) -/

/-- R24: the rest interval of the class. -/
theorem restInterval_eq (s : State) : s.restInterval =
    if s.bat.cls = .critical then s.gnssSessionCritical * 3600 else s.gnssSessionLow * 3600 := by
  unfold State.restInterval
  cases s.bat.cls <;> rfl

/-- A session that starts from the rest. -/
def sessionClock (c : Clock) : Clock := { c with supply := .session, rx := [], session := 0, hold := 0 }

theorem sessionStart_resting {s : State} (resting : s.clk.supply = .resting) :
    sessionStart s = { s with clk := sessionClock s.clk } := by
  unfold sessionStart supplyOn
  rw [resting]
  rfl

/-- A supply that goes off to rest: its labels dropped, its rest time at zero. -/
def restingClock (c : Clock) : Clock := { c with supply := .resting, label := none, rx := [], rest := 0 }

/-- The reason of a HOLDOVER clock whose supply goes off by schedule. -/
def offReason (r : Option HoldReason) : Option HoldReason := if r = some .ppsLoss then some .gnssOff else r

section Rest
variable {s : State}

theorem supplyRest_runs (runs : Runs s) :
    (supplyRest s).clk = restingClock (heldClock .gnssOff s.pwr.tv s.clk) := by
  unfold supplyRest holdoverCause
  have disc : (supplyOff .resting s).clk.disc = s.clk.disc := rfl
  rw [disc]
  rcases runs with h | h <;> rw [h] <;> rfl

theorem supplyRest_holdover (holdover : s.clk.disc = .holdover) :
    (supplyRest s).clk = { restingClock s.clk with reason := offReason s.clk.reason } := by
  unfold supplyRest holdoverCause offReason
  have disc : (supplyOff .resting s).clk.disc = s.clk.disc := rfl
  rw [disc, holdover]
  dsimp only
  by_cases h : s.clk.reason = some .ppsLoss
  · rw [if_pos (.inr ⟨rfl, h⟩), if_pos h]
    rfl
  · rw [if_neg fun k => h (k.resolve_left (by decide)).2, if_neg h]
    rfl

theorem supplyRest_unset (unset : s.clk.disc = .unset) : (supplyRest s).clk = restingClock s.clk := by
  unfold supplyRest holdoverCause
  have disc : (supplyOff .resting s).clk.disc = s.clk.disc := rfl
  rw [disc, unset]
  rfl

/-- Whatever the clock's state, the supply rests. -/
theorem supplyRest_supply (s : State) : (supplyRest s).clk.supply = .resting ∧ (supplyRest s).clk.rest = 0
    ∧ (supplyRest s).clk.label = none := by
  by_cases runs : Runs s
  · rw [supplyRest_runs runs]
    exact ⟨rfl, rfl, rfl⟩
  · cases h : s.clk.disc with
    | unset => rw [supplyRest_unset h]; exact ⟨rfl, rfl, rfl⟩
    | holdover => rw [supplyRest_holdover h]; exact ⟨rfl, rfl, rfl⟩
    | acquire => exact absurd (.inl h) runs
    | track => exact absurd (.inr h) runs

end Rest

/-- A rest time counted one second up. -/
def restedClock (c : Clock) : Clock := { c with rest := c.rest + 1 }

/-- The timers of a session counted one second up. -/
def sessionTicked (s : State) : State :=
  { s with clk := { s.clk with session := s.clk.session + 1, hold := if s.clk.disc = .track then s.clk.hold + 1 else 0 } }

section Supply
variable {s : State}

theorem tickSupply_rests (resting : s.clk.supply = .resting) (short : s.clk.rest + 1 < s.restInterval) :
    tickSupply s = { s with clk := restedClock s.clk } := by
  unfold tickSupply
  rw [resting]
  refine if_neg fun due => ?_
  unfold State.sessionDue at due
  rw [Bool.and_eq_true, decide_eq_true_iff] at due
  exact absurd (show s.restInterval ≤ s.clk.rest + 1 from due.2) (Nat.not_le.mpr short)

theorem tickSupply_starts (resting : s.clk.supply = .resting) (long : s.restInterval ≤ s.clk.rest + 1) :
    tickSupply s = { s with
      clk := sessionClock (restedClock s.clk), moment := { s.moment with restDue := true } } := by
  have due : ({ s with clk := restedClock s.clk } : State).sessionDue = true := by
    unfold State.sessionDue
    rw [Bool.and_eq_true, decide_eq_true_iff, beq_iff_eq]
    exact ⟨resting, long⟩
  unfold tickSupply
  rw [resting]
  refine (if_pos due).trans ?_
  exact sessionStart_resting (s := { s with clk := restedClock s.clk, moment := { s.moment with restDue := true } }) resting

/-- The session is to end, by the hold time or by its length. -/
theorem sessionOver_iff (s : State) : s.sessionOver = true ↔ s.clk.supply = .session
    ∧ (s.gnssHoldAfterLock ≤ s.clk.hold ∨ s.gnssSessionMax * 60 ≤ s.clk.session) := by
  unfold State.sessionOver
  rw [Bool.and_eq_true, Bool.or_eq_true, beq_iff_eq, decide_eq_true_iff, decide_eq_true_iff]

theorem tickSupply_session (session : s.clk.supply = .session) : tickSupply s =
    if (sessionTicked s).sessionOver then supplyRest (sessionTicked s) else sessionTicked s := by
  unfold tickSupply
  rw [session]
  rfl

theorem tickSupply_other (session : s.clk.supply ≠ .session) (resting : s.clk.supply ≠ .resting) : tickSupply s = s := by
  unfold tickSupply
  cases h : s.clk.supply with
  | session => exact absurd h session
  | resting => exact absurd h resting
  | continuous => rfl
  | shedOff => rfl

end Supply

/-! ### The boundary as a whole -/

/-- The part after the PPS watch. -/
def watched (s : State) : State := tickWatch (reportClock (grown s))

/-- The part after the supply's timers. -/
def supplied (s : State) : State := tickSupply (reportClock (watched s))

theorem clockBoundary_eq (s : State) : clockBoundary s = reportClock (supplied s) := rfl

/-- The PPS watch expires at this boundary. -/
abbrev Expires (s : State) : Prop := Runs s ∧ Supplied s ∧ s.ppsPrescale + 2 ≤ s.clk.watch + 1

/-- The clock after the PPS watch. -/
def watchedClock (s : State) : Clock :=
  if Expires s then heldClock .ppsLoss s.pwr.tv { grownClock s with watch := s.clk.watch + 1 }
  else if Runs s ∧ Supplied s then { grownClock s with watch := s.clk.watch + 1 } else grownClock s

section Watched
variable (s : State)

theorem grown_does : Does [.clk, .time, .osc, .moment] s (grown s) :=
  Does.trans (Does.mono (compensate_does s) (by decide))
    (Does.trans (rollSecond_does _) (Does.mono (growUncertainty_does _) (by decide)))

theorem judged_clk : (reportClock (grown s)).clk = grownClock s := by
  rw [reportClock_clk, grown_eq]

theorem judged_does : Does [.clk, .time, .osc, .moment, .box, .mon] s (reportClock (grown s)) :=
  Does.trans (Does.mono (grown_does s) (by decide)) (Does.mono (reportClock_does _) (by decide))

theorem judged_prescale : (reportClock (grown s)).ppsPrescale = s.ppsPrescale :=
  congrArg Int.toNat (param_of_params (params_of (judged_does s) (by decide)) 22)

theorem watched_clk : (watched s).clk = watchedClock s := by
  have clk := judged_clk s
  have pwr : (reportClock (grown s)).pwr = s.pwr := pwr_of (judged_does s) (by decide)
  have prescale := judged_prescale s
  unfold watched watchedClock
  generalize reportClock (grown s) = u at *
  have runs : Runs u ↔ Runs s := by rw [Runs, clk]; rfl
  have supplied : Supplied u ↔ Supplied s := by rw [Supplied, clk]; rfl
  have watch : u.clk.watch = s.clk.watch := by rw [clk]; rfl
  by_cases on : Runs s ∧ Supplied s
  · by_cases late : s.ppsPrescale + 2 ≤ s.clk.watch + 1
    · rw [if_pos ⟨on.1, on.2, late⟩, tickWatch_expires (runs.mpr on.1) (supplied.mpr on.2) (by rw [prescale, watch]; exact late),
        enterHoldover_eq, watchedOn, clk, pwr]
      rfl
    · rw [if_neg fun expires => late expires.2.2, if_pos on,
        tickWatch_counts (runs.mpr on.1) (supplied.mpr on.2) (by rw [prescale, watch]; exact late), watchedOn, clk]
      rfl
  · rw [if_neg fun expires => on ⟨expires.1, expires.2.1⟩, if_neg on,
      tickWatch_rests fun k => on ⟨runs.mp k.1, supplied.mp k.2⟩, clk]

theorem watched_does : Does [.clk, .time, .osc, .moment, .box, .mon] s (reportClock (watched s)) :=
  Does.trans (judged_does s) (Does.trans (Does.mono (tickWatch_does _) (by decide)) (Does.mono (reportClock_does _) (by decide)))

end Watched

/-- The hold time of a session as the boundary counts it. -/
def heldTime (s : State) : Nat := if s.clk.disc = .track ∧ ¬ Expires s then s.clk.hold + 1 else 0

/-- The session reaches its end at this boundary. -/
abbrev Over (s : State) : Prop := s.gnssHoldAfterLock ≤ heldTime s ∨ s.gnssSessionMax * 60 ≤ s.clk.session + 1

/-- The clock after the timers of a session that goes on. -/
def tickedClock (s : State) : Clock :=
  { watchedClock s with session := s.clk.session + 1, hold := heldTime s }

section Supplied
variable {s : State}

theorem watchedClock_supply (s : State) : (watchedClock s).supply = s.clk.supply ∧ (watchedClock s).session = s.clk.session
    ∧ (watchedClock s).rest = s.clk.rest := by
  unfold watchedClock
  split
  · exact ⟨rfl, rfl, rfl⟩
  · split <;> exact ⟨rfl, rfl, rfl⟩

/-- The part as the supply's timers find it. -/
theorem reported_same (s : State) : (reportClock (watched s)).clk = watchedClock s
    ∧ (reportClock (watched s)).params = s.params ∧ (reportClock (watched s)).bat = s.bat
    ∧ (reportClock (watched s)).pwr = s.pwr := by
  have does := watched_does s
  exact ⟨(reportClock_clk _).trans (watched_clk s), params_of does (by decide), bat_of does (by decide), pwr_of does (by decide)⟩

theorem reported_moment (s : State) : (reportClock (watched s)).moment = {} := by
  have first : (reportClock (grown s)).moment = (grown s).moment := moment_of (reportClock_does _) (by decide)
  have second : (watched s).moment = (reportClock (grown s)).moment := moment_of (tickWatch_does _) (by decide)
  rw [moment_of (reportClock_does _) (by decide), second, first, grown_eq]

theorem restInterval_of {s t : State} (params : t.params = s.params) (bat : t.bat = s.bat) : t.restInterval = s.restInterval := by
  rw [restInterval_eq, restInterval_eq, State.gnssSessionCritical, State.gnssSessionLow, bat, param_of_params params,
    param_of_params params]
  rfl

theorem boundary_clk (s : State) : (clockBoundary s).clk = (supplied s).clk := reportClock_clk _

theorem boundary_moment (s : State) : (clockBoundary s).moment = (supplied s).moment :=
  moment_of (reportClock_does (supplied s)) (by decide)

/-- Neither in a session nor at rest. -/
theorem boundary_other (session : s.clk.supply ≠ .session) (resting : s.clk.supply ≠ .resting) :
    (clockBoundary s).clk = watchedClock s ∧ (clockBoundary s).moment = {} := by
  obtain ⟨clk, -, -, -⟩ := reported_same s
  obtain ⟨supply, -, -⟩ := watchedClock_supply s
  rw [boundary_clk, boundary_moment, supplied, tickSupply_other (by rw [clk, supply]; exact session)
    (by rw [clk, supply]; exact resting), clk]
  exact ⟨rfl, reported_moment s⟩

theorem watchedClock_resting (resting : s.clk.supply = .resting) : watchedClock s = grownClock s := by
  have off : ¬ (Runs s ∧ Supplied s) := fun on => by
    rcases on.2 with h | h <;> rw [h] at resting <;> cases resting
  unfold watchedClock
  rw [if_neg fun expires => off ⟨expires.1, expires.2.1⟩, if_neg off]

theorem boundary_rests (resting : s.clk.supply = .resting) (short : ¬ s.restInterval ≤ s.clk.rest + 1) :
    (clockBoundary s).clk = restedClock (grownClock s) ∧ (clockBoundary s).moment = {} := by
  obtain ⟨clk, params, bat, -⟩ := reported_same s
  have moment := reported_moment s
  rw [watchedClock_resting resting] at clk
  rw [boundary_clk, boundary_moment, supplied]
  generalize reportClock (watched s) = u at *
  rw [tickSupply_rests (by rw [clk]; exact resting)
    (by rw [restInterval_of params bat, clk]; exact Nat.not_le.mp short), clk]
  exact ⟨rfl, moment⟩

theorem boundary_starts (resting : s.clk.supply = .resting) (long : s.restInterval ≤ s.clk.rest + 1) :
    (clockBoundary s).clk = sessionClock (restedClock (grownClock s)) ∧ (clockBoundary s).moment = { restDue := true } := by
  obtain ⟨clk, params, bat, -⟩ := reported_same s
  have moment := reported_moment s
  rw [watchedClock_resting resting] at clk
  rw [boundary_clk, boundary_moment, supplied]
  generalize reportClock (watched s) = u at *
  rw [tickSupply_starts (by rw [clk]; exact resting) (by rw [restInterval_of params bat, clk]; exact long), clk, moment]
  exact ⟨rfl, rfl⟩

end Supplied

/-- The hold time as the session's timers count it after the watch. -/
theorem watchedClock_hold (s : State) :
    (if (watchedClock s).disc = .track then (watchedClock s).hold + 1 else 0) = heldTime s := by
  unfold heldTime
  by_cases expires : Expires s
  · have held : (watchedClock s).disc = .holdover := by
      unfold watchedClock
      rw [if_pos expires]
      rfl
    rw [held, if_neg (by decide), if_neg fun k => k.2 expires]
  · have disc : (watchedClock s).disc = s.clk.disc ∧ (watchedClock s).hold = s.clk.hold := by
      unfold watchedClock
      rw [if_neg expires]
      split <;> exact ⟨rfl, rfl⟩
    rw [disc.1, disc.2]
    by_cases track : s.clk.disc = .track
    · rw [if_pos track, if_pos ⟨track, expires⟩]
    · rw [if_neg track, if_neg fun k => track k.1]

/-- The part with the timers of its session counted, before the session's end is looked at. -/
def ticked (s : State) : State := sessionTicked (reportClock (watched s))

/-- What the timers of a session leave. -/
theorem ticked_spec (s : State) : (ticked s).clk = tickedClock s ∧ (ticked s).params = s.params
    ∧ (ticked s).pwr = s.pwr ∧ (ticked s).moment = {} := by
  obtain ⟨clk, params, -, pwr⟩ := reported_same s
  obtain ⟨-, session, -⟩ := watchedClock_supply s
  have moment := reported_moment s
  have hold := watchedClock_hold s
  unfold ticked
  generalize reportClock (watched s) = u at *
  refine ⟨?_, params, pwr, moment⟩
  unfold sessionTicked tickedClock
  rw [clk, hold, session]

theorem ticked_over {s : State} (session : s.clk.supply = .session) : (ticked s).sessionOver = true ↔ Over s := by
  obtain ⟨clk, params, -, -⟩ := ticked_spec s
  obtain ⟨supply, -, -⟩ := watchedClock_supply s
  generalize ticked s = u at *
  rw [sessionOver_iff, State.gnssHoldAfterLock, State.gnssSessionMax, param_of_params params, param_of_params params, clk]
  exact and_iff_right (supply.trans session)

section Session
variable {s : State} (session : s.clk.supply = .session)
include session

theorem supplied_session : supplied s = if (ticked s).sessionOver then supplyRest (ticked s) else ticked s := by
  obtain ⟨clk, -, -, -⟩ := reported_same s
  obtain ⟨supply, -, -⟩ := watchedClock_supply s
  unfold supplied ticked
  generalize reportClock (watched s) = u at *
  exact tickSupply_session (by rw [clk, supply]; exact session)

theorem boundary_session_moment : (clockBoundary s).moment = {} := by
  obtain ⟨-, -, -, moment⟩ := ticked_spec s
  rw [boundary_moment, supplied_session session]
  generalize ticked s = u at *
  split
  · rw [moment_of (supplyRest_does _) (by decide), moment]
  · exact moment

theorem boundary_session (long : ¬ Over s) : (clockBoundary s).clk = tickedClock s := by
  rw [boundary_clk, supplied_session session, if_neg fun ends => long ((ticked_over session).mp ends)]
  exact (ticked_spec s).1

/-- A session that ends, by what the clock's state makes of it. -/
theorem boundary_ends (ends : Over s) : (clockBoundary s).clk = (supplyRest (ticked s)).clk := by
  rw [boundary_clk, supplied_session session, if_pos ((ticked_over session).mpr ends)]

theorem boundary_ends_runs (ends : Over s) (runs : Runs s) (early : ¬ Expires s) :
    (clockBoundary s).clk = restingClock (heldClock .gnssOff s.pwr.tv (tickedClock s)) := by
  obtain ⟨clk, -, pwr, -⟩ := ticked_spec s
  have still : (tickedClock s).disc = s.clk.disc := by
    unfold tickedClock watchedClock
    rw [if_neg early, if_pos ⟨runs, .inr session⟩]
    rfl
  rw [boundary_ends session ends, supplyRest_runs (by rw [Runs, clk, still]; exact runs), clk, pwr]

theorem boundary_ends_holdover (ends : Over s) (holdover : (tickedClock s).disc = .holdover) :
    (clockBoundary s).clk = { restingClock (tickedClock s) with reason := offReason (tickedClock s).reason } := by
  obtain ⟨clk, -, -, -⟩ := ticked_spec s
  rw [boundary_ends session ends, supplyRest_holdover (by rw [clk]; exact holdover), clk]

theorem boundary_ends_unset (ends : Over s) (unset : (tickedClock s).disc = .unset) :
    (clockBoundary s).clk = restingClock (tickedClock s) := by
  obtain ⟨clk, -, -, -⟩ := ticked_spec s
  rw [boundary_ends session ends, supplyRest_unset (by rw [clk]; exact unset), clk]

end Session

/-! ### The commands of the watch and of the sessions (R16, R24) -/

section Sessions
variable {s : State} (powered : s.powered = true)
include powered

theorem exec_ppsWatchExpiry (boundary : s.moment.boundary = true) (runs : Runs s) (supplied : Supplied s)
    (late : s.ppsPrescale + 2 ≤ s.clk.watch) :
    exec .ppsWatchExpiry s = .next (reportClock (enterHoldover .ppsLoss s)) := by
  have e : exec .ppsWatchExpiry s = execPpsWatchExpiry s := rfl
  rw [e, execPpsWatchExpiry, act_on powered, boundary, Bool.true_and,
    if_pos ((watchExpired_iff s).mpr ⟨runs, supplied, late⟩)]

theorem exec_gnssSessionStart_due (due : s.moment.restDue = true) (resting : s.clk.supply = .resting) :
    exec .gnssSessionStart s = .next { s with clk := sessionClock s.clk } := by
  have e : exec .gnssSessionStart s = execGnssSessionStart s := rfl
  rw [e, execGnssSessionStart, act_on powered, if_pos (by rw [due, resting]; rfl), sessionStart_resting resting]

theorem exec_gnssSessionStart_early (early : s.moment.restDue = false ∨ s.clk.supply ≠ .resting) :
    exec .gnssSessionStart s = .next s := by
  have e : exec .gnssSessionStart s = execGnssSessionStart s := rfl
  rw [e, execGnssSessionStart, act_on powered, if_neg]
  rw [Bool.and_eq_true, beq_iff_eq]
  rintro ⟨due, resting⟩
  rcases early with early | elsewhere
  · exact absurd due (by rw [early]; decide)
  · exact elsewhere resting

theorem exec_gnssSessionEnd (boundary : s.moment.boundary = true) (ends : s.sessionOver = true) :
    exec .gnssSessionEnd s = .next (reportClock (supplyRest s)) := by
  have e : exec .gnssSessionEnd s = execGnssSessionEnd s := rfl
  rw [e, execGnssSessionEnd, act_on powered, boundary, Bool.true_and, if_pos ends]

end Sessions

/-! ### A watch and a session that end at one boundary (R22) -/

/-- The status of PPS_LOST that the clock's state asks for. -/
def lostStatus (c : Clock) : Bool := c.disc == .holdover && c.reason == some .ppsLoss

/-- The clock's reports change the row of PPS_LOST by its own status alone. -/
theorem reportClock_lost (s : State) : (reportClock s).mon.conds[(0 : CondId)]
    = (statusChange 0 (lostStatus s.clk) s).mon.conds[(0 : CondId)] := by
  unfold reportClock
  rw [statusChange_other 2 _ _ 0 (by decide) (by decide), statusChange_other 1 _ _ 0 (by decide) (by decide)]
  rfl

theorem reportClock_lost_kept {s : State} (same : s.mon.conds[(0 : CondId)].status = lostStatus s.clk) :
    (reportClock s).mon.conds[(0 : CondId)] = s.mon.conds[(0 : CondId)] := by
  rw [reportClock_lost, statusChange_same same]

theorem reportClock_lost_moved {s : State} (moved : s.mon.conds[(0 : CondId)].status ≠ lostStatus s.clk) :
    (reportClock s).mon.conds[(0 : CondId)].status = lostStatus s.clk
    ∧ (reportClock s).mon.conds[(0 : CondId)].changes = inc16 s.mon.conds[(0 : CondId)].changes := by
  rw [reportClock_lost, statusChange_row moved (.inl (by decide))]
  exact ⟨rfl, rfl⟩

/-- Three reports, the second of a clock that has lost its PPS: PPS_LOST is asserted at the second and cleared at the third. -/
theorem lost_then_cleared {g w p : State} (clear : g.mon.conds[(0 : CondId)].status = false) (runs : lostStatus g.clk = false)
    (first : w.mon = (reportClock g).mon) (lost : lostStatus w.clk = true) (second : p.mon = (reportClock w).mon)
    (gone : lostStatus p.clk = false) :
    (reportClock p).mon.conds[(0 : CondId)].status = false
    ∧ (reportClock p).mon.conds[(0 : CondId)].changes = inc16 (inc16 g.mon.conds[(0 : CondId)].changes) := by
  have kept : w.mon.conds[(0 : CondId)] = g.mon.conds[(0 : CondId)] := by
    rw [first, reportClock_lost_kept (by rw [clear, runs])]
  obtain ⟨asserted, once⟩ := reportClock_lost_moved (s := w) (by rw [lost, kept, clear]; decide)
  rw [lost, ← second] at asserted
  rw [kept, ← second] at once
  obtain ⟨cleared, twice⟩ := reportClock_lost_moved (s := p) (by rw [gone, asserted]; decide)
  rw [gone] at cleared
  rw [once] at twice
  exact ⟨cleared, twice⟩

section Both
variable {s : State} (runs : Runs s) (session : s.clk.supply = .session) (late : s.ppsPrescale + 2 ≤ s.clk.watch + 1)
include runs session late

theorem watchedClock_expired :
    watchedClock s = heldClock .ppsLoss s.pwr.tv { grownClock s with watch := s.clk.watch + 1 } :=
  if_pos ⟨runs, .inr session, late⟩

/-- The watch expires at the boundary at which the session ends. -/
theorem boundary_both_clk (length : s.gnssSessionMax * 60 ≤ s.clk.session + 1) :
    (clockBoundary s).clk = { restingClock (tickedClock s) with reason := some .gnssOff } := by
  have watch := watchedClock_expired runs session late
  have reason : (tickedClock s).reason = some .ppsLoss := by
    rw [tickedClock, watch]
    rfl
  rw [boundary_ends_holdover session (.inr length) (by rw [tickedClock, watch]; rfl), reason]
  rfl

/-- PPS_LOST is asserted by the watch and cleared by the end of the session, each at its own change. -/
theorem boundary_both_lost (length : s.gnssSessionMax * 60 ≤ s.clk.session + 1)
    (clear : s.mon.conds[(0 : CondId)].status = false) :
    (clockBoundary s).mon.conds[(0 : CondId)].status = false
    ∧ (clockBoundary s).mon.conds[(0 : CondId)].changes = inc16 (inc16 s.mon.conds[(0 : CondId)].changes) := by
  have mon : (grown s).mon = s.mon := mon_of (grown_does s) (by decide)
  have disc : (grown s).clk.disc = s.clk.disc := by
    rw [grown_eq]
    rfl
  have running : lostStatus (grown s).clk = false := by
    unfold lostStatus
    rw [disc]
    rcases runs with h | h <;> rw [h] <;> rfl
  have lost : lostStatus (watched s).clk = true := by
    rw [watched_clk, watchedClock_expired runs session late]
    rfl
  have gone : lostStatus (supplied s).clk = false := by
    rw [← boundary_clk, boundary_both_clk runs session late length]
    exact Bool.and_false _
  have reports := lost_then_cleared (g := grown s) (w := watched s) (p := supplied s) (by rw [mon]; exact clear) running
    (mon_of (tickWatch_does _) (by decide)) lost (mon_of (tickSupply_does _) (by decide)) gone
  rw [mon] at reports
  rw [clockBoundary_eq]
  exact reports

end Both

/-- Settles O29: the expiry of the watch, the rest time and the sessions. -/
theorem holdoverAndSessions : Obligations.HoldoverAndSessions := by
  unfold Obligations.HoldoverAndSessions
  refine ⟨fun s powered boundary runs supplied late => ?_, fun s resting => ⟨fun short => ?_, fun long => ?_⟩,
    fun s powered => ⟨exec_gnssSessionStart_due powered, exec_gnssSessionStart_early powered,
      fun boundary session ends => ?_⟩,
    fun s runs session late length clear => ?_⟩
  · exact ⟨_, exec_ppsWatchExpiry powered boundary runs supplied late, reportClock_clk _⟩
  · exact tickSupply_rests resting (by rw [restInterval_eq]; exact short)
  · exact tickSupply_starts resting (by rw [restInterval_eq]; exact long)
  · obtain ⟨supply, rest, label⟩ := supplyRest_supply s
    refine ⟨_, exec_gnssSessionEnd powered boundary ((sessionOver_iff s).mpr ⟨session, ends⟩), ?_⟩
    rw [reportClock_clk]
    refine ⟨supply, rest, label, fun runs => ?_⟩
    rw [supplyRest_runs runs]
    exact ⟨rfl, rfl⟩
  · have held : (tickedClock s).disc = .holdover := by
      rw [tickedClock, watchedClock_expired runs session late]
      rfl
    obtain ⟨status, changes⟩ := boundary_both_lost runs session late length clear
    have clk := boundary_both_clk runs session late length
    dsimp only
    rw [clk]
    exact ⟨held, rfl, rfl, rfl, status, changes⟩

end Sys2Proof.Proofs
end

