-- ==== Sys2Proof/Proofs/SecondRolls.lean ====
section
/-! PROOFS. The second boundary as a whole (R1, R2, R16 to R19, R22, R24, R136, R138, R161), and from it the settling of O23. -/
namespace Sys2Proof.Proofs

open Sys2Proof Sys2Proof.Machine Sys2Proof.Laws

/-! ### The length of the second (R2, R3) -/

/-- A rate within its bounds and the rest of the last second make at most 20 whole corrections. -/
theorem wholeCorrections_le {s : State} (rates : s.ratesBounded) : (wholeCorrections s).natAbs ≤ 20 := by
  obtain ⟨low, high, -, -, below, above⟩ := rates
  have rate : -2000 ≤ boundaryRate s ∧ boundaryRate s ≤ 2000 := by
    unfold boundaryRate
    split <;> omega
  have sum : (s.clk.acc + boundaryRate s).natAbs ≤ 2099 := by omega
  unfold wholeCorrections
  rw [Int.natAbs_tdiv]
  exact Nat.div_le_div_right (c := 100) sum

/-- All the correction points of a second lie within it. -/
theorem corrections_within {n : Nat} (h : n ≤ 20) :
    (corrections n).filter (fun p => decide (0 ≤ p) && decide (p < Config.ticks)) = corrections n := by
  refine List.filter_eq_self.mpr fun p hp => ?_
  obtain ⟨i, hi, rfl⟩ := List.mem_map.mp hp
  have below : i < n := List.mem_range.mp hi
  rw [Bool.and_eq_true, decide_eq_true_iff, decide_eq_true_iff]
  refine ⟨Nat.zero_le _, ?_⟩
  show 250000 + 500000 * i < 10000000
  omega

/-- A second that has just begun is shorter or longer by its whole corrections. -/
theorem cyclesLeft_begun {c : Clock} {whole : Int} (start : c.t = 0) (points : c.corr = corrections whole.natAbs)
    (up : c.corrUp = decide (0 < whole)) (few : whole.natAbs ≤ 20) : (c.cyclesLeft : Int) = 10000000 - whole := by
  have ticks : Config.ticks = 10000000 := rfl
  have count : (corrections whole.natAbs).length = whole.natAbs := by
    unfold corrections
    rw [List.length_map, List.length_range]
  unfold Clock.cyclesLeft Clock.cyclesTo
  dsimp only
  rw [start, points, up, corrections_within few, count, ticks]
  by_cases h : 0 < whole
  · rw [if_pos (decide_eq_true h)]
    omega
  · rw [if_neg (by rw [decide_eq_false h]; decide)]
    omega

/-! ### What the boundary's other work leaves of the clock -/

theorem holdoverCause_u (reason : HoldReason) (s : State) : (holdoverCause reason s).clk.u = s.clk.u := by
  unfold holdoverCause
  split
  · rfl
  · split <;> rfl
  · rfl

theorem supplyRest_u (s : State) : (supplyRest s).clk.u = s.clk.u := holdoverCause_u .gnssOff (supplyOff .resting s)

theorem clockFollow_u (s : State) : (clockFollow s).clk.u = s.clk.u := by
  unfold clockFollow
  rw [reportClock_clk]
  split
  · split
    · rfl
    · exact holdoverCause_u .shed (supplyOff .shedOff s)
  · split
    · rfl
    · exact supplyRest_u s
    · rfl
    · rfl
    · rfl
    · rfl

theorem handOver_u (c : BatClass) (p : PowerState) (s : State) : (handOver c p s).clk.u = s.clk.u := by
  have reported : (reportClass s).clk = s.clk := clk_of (reportClass_does s) (by decide)
  have supplies (u : State) : (evalSupplies u).clk = u.clk := clk_of (evalSupplies_does u) (by decide)
  have shed (u : State) : (handShed u).clk = (clockFollow u).clk := by
    have events : (shedEvents (clockFollow u)).clk = (clockFollow u).clk := clk_of (closeBetweenVotes_does _ _) (by decide)
    unfold handShed
    rw [clk_of (heaterFollow_does _) (by decide), clk_of (modemShed_does _) (by decide), clk_of (cutCal_does _) (by decide),
      supplies, events]
  have run (u : State) : (handRun u).clk = (clockFollow u).clk := by
    unfold handRun
    rw [clk_of (heaterFollow_does _) (by decide), supplies]
  have cls (u : State) : (handClass u).clk = (clockFollow u).clk := by
    unfold handClass
    dsimp only
    split
    · rw [clk_of (cutCal_does _) (by decide), supplies]
    · rw [supplies]
  unfold handOver
  dsimp only
  split
  · split
    · rw [shed, clockFollow_u, reported]
    · rw [run, clockFollow_u, reported]
  · split
    · rw [cls, clockFollow_u, reported]
    · rw [reported]

theorem powerReading_u (r : Reading) (s : State) : (powerReading r s).clk.u = s.clk.u := by
  unfold powerReading batteryReading
  rw [clk_of (heaterReading_does _) (by decide), handOver_u, clk_of (classStep_does _) (by decide),
    clk_of (chargeReading_does _) (by decide), clk_of (coulombStep_does _) (by decide),
    clk_of (takeReading_does _ _) (by decide)]

/-- The work of the boundary after the clock's own. -/
def afterClock (r : Reading) (s : State) : State :=
  calBoundary (pendingMapTest (pendingRate (endDue (powerReading r (passNotBefores (intervalTest s))))))

theorem secondBoundary_after (r : Reading) (s : State) :
    secondBoundary r s = beginSecond (afterClock r (clockBoundary s)) := rfl

/-- What that work can change: neither station time nor the oscillator count. -/
abbrev afterParts : List Part :=
  [.clk, .supplyView, .box, .credits, .flight, .mon, .interval, .evt, .event, .htr, .bat, .power, .sch, .strobes,
    .moment, .chn, .rings, .prt, .mdm, .pwr, .map, .pendingMap]

theorem afterClock_does (r : Reading) (s : State) : Does afterParts s (afterClock r s) := by
  unfold afterClock
  refine Does.trans ?_ (Does.mono (calBoundary_does _) (by decide))
  refine Does.trans ?_ (Does.mono (pendingMapTest_does _) (by decide))
  refine Does.trans ?_ (Does.mono (pendingRate_does _) (by decide))
  refine Does.trans ?_ (Does.mono (endDue_does _) (by decide))
  refine Does.trans ?_ (Does.mono (powerReading_does _ _) (by decide))
  exact Does.trans (Does.mono (intervalTest_does _) (by decide)) (Does.mono (passNotBefores_does _) (by decide))

theorem afterClock_u (r : Reading) (s : State) : (afterClock r s).clk.u = s.clk.u := by
  unfold afterClock
  rw [clk_of (calBoundary_does _) (by decide), clk_of (pendingMapTest_does _) (by decide),
    clk_of (pendingRate_does _) (by decide), clk_of (endDue_does _) (by decide), powerReading_u,
    clk_of (passNotBefores_does _) (by decide), clk_of (intervalTest_does _) (by decide)]

/-- What of the boundary's clock work comes after the second rolled. -/
theorem clockBoundary_from_grown (s : State) : Does [.clk, .supplyView, .moment, .box, .mon] (grown s) (clockBoundary s) := by
  rw [clockBoundary_eq, supplied, watched]
  refine Does.trans ?_ (Does.mono (reportClock_does _) (by decide))
  refine Does.trans ?_ (Does.mono (tickSupply_does _) (by decide))
  refine Does.trans ?_ (Does.mono (reportClock_does _) (by decide))
  exact Does.trans (Does.mono (reportClock_does _) (by decide)) (Does.mono (tickWatch_does _) (by decide))

/-- After the boundary's clock work station time and the oscillator count stay as they are. -/
theorem secondBoundary_time (r : Reading) (s : State) : Part.time.same (grown s) (secondBoundary r s)
    ∧ (secondBoundary r s).osc = (grown s).osc := by
  have rest : Does ([.clk, .supplyView, .moment, .box, .mon] ++ afterParts) (grown s) (afterClock r (clockBoundary s)) :=
    Does.trans (Does.mono (clockBoundary_from_grown s) (by decide)) (Does.mono (afterClock_does r _) (by decide))
  have all : Does ([.clk, .supplyView, .moment, .box, .mon] ++ afterParts) (grown s) (secondBoundary r s) := by
    rw [secondBoundary_after]
    exact Does.trans rest (Does.mono (beginSecond_does _) (by decide))
  exact ⟨all.frame .time (by decide), osc_of all (by decide)⟩

/-! ### The clock after its own work -/

/-- The session ends at this boundary. -/
abbrev Ends (s : State) : Prop := s.clk.supply = .session ∧ Over s

/-- The rest time reaches its interval at this boundary. -/
abbrev Due (s : State) : Prop := s.clk.supply = .resting ∧ s.restInterval ≤ s.clk.rest + 1

/-- The clock enters HOLDOVER at this boundary. -/
abbrev Enters (s : State) : Prop := Expires s ∨ Ends s ∧ Runs s

/-- What an entry to HOLDOVER leaves of the clock (R18). -/
def Held (s : State) (x : Clock) : Prop :=
  x.disc = .holdover ∧ x.rLoss = s.clk.r ∧ x.tLoss = s.pwr.tv ∧ x.c = max (-2000) (min 2000 s.clk.r)
  ∧ x.lock = 0 ∧ x.unlock = 0 ∧ x.mismatch = 0 ∧ x.offset = none ∧ x.stepDeferred = false

/-- What a boundary without such an entry leaves. -/
def Stays (s : State) (x : Clock) : Prop :=
  x.disc = s.clk.disc ∧ x.rLoss = s.clk.rLoss ∧ x.tLoss = s.clk.tLoss ∧ x.lock = s.clk.lock ∧ x.unlock = s.clk.unlock
  ∧ x.mismatch = s.clk.mismatch ∧ x.offset = s.clk.offset ∧ x.stepDeferred = s.clk.stepDeferred ∧ x.c = boundaryRate s

/-- What the watch and an end of the session decide on. -/
def Judged (s : State) (x : Clock) : Prop :=
  x.u = boundaryUncertainty s
  ∧ x.watch = (if Runs s ∧ Supplied s then s.clk.watch + 1 else s.clk.watch)
  ∧ x.r = s.clk.r ∧ x.steps = s.clk.steps ∧ (Enters s → Held s x) ∧ (¬ Enters s → Stays s x)
  ∧ x.reason = (if Ends s ∧ (Runs s ∨ s.clk.disc = .holdover ∧ s.clk.reason = some .ppsLoss) then some .gnssOff
    else if Expires s then some .ppsLoss else s.clk.reason)

/-- What the timers of the supply decide on. -/
def Timed (s : State) (x : Clock) : Prop :=
  x.supply = (if Ends s then .resting else if Due s then .session else s.clk.supply)
  ∧ x.session = (if s.clk.supply = .session then s.clk.session + 1 else if Due s then 0 else s.clk.session)
  ∧ x.hold = (if Ends s ∨ Due s ∨ Expires s then 0 else if s.clk.supply = .session then heldTime s else s.clk.hold)
  ∧ x.rest = (if Ends s then 0 else if s.clk.supply = .resting then s.clk.rest + 1 else s.clk.rest)
  ∧ x.label = (if Ends s then none else s.clk.label) ∧ x.rx = (if Ends s ∨ Due s then [] else s.clk.rx)

section Stages
variable {s : State}

theorem watchedClock_expires (expires : Expires s) :
    watchedClock s = heldClock .ppsLoss s.pwr.tv { grownClock s with watch := s.clk.watch + 1 } := if_pos expires

/-- Fields that the watch leaves as the second rolled left them. -/
theorem watchedClock_keeps (s : State) : (watchedClock s).u = boundaryUncertainty s ∧ (watchedClock s).r = s.clk.r
    ∧ (watchedClock s).steps = s.clk.steps ∧ (watchedClock s).supply = s.clk.supply
    ∧ (watchedClock s).session = s.clk.session ∧ (watchedClock s).rest = s.clk.rest
    ∧ (watchedClock s).label = s.clk.label ∧ (watchedClock s).rx = s.clk.rx
    ∧ (watchedClock s).watch = if Runs s ∧ Supplied s then s.clk.watch + 1 else s.clk.watch := by
  unfold watchedClock
  split
  case isTrue expires =>
    rw [if_pos ⟨expires.1, expires.2.1⟩]
    exact ⟨rfl, rfl, rfl, rfl, rfl, rfl, rfl, rfl, rfl⟩
  case isFalse early =>
    split <;> exact ⟨rfl, rfl, rfl, rfl, rfl, rfl, rfl, rfl, rfl⟩

theorem watchedClock_held (expires : Expires s) : Held s (watchedClock s) ∧ (watchedClock s).reason = some .ppsLoss
    ∧ (watchedClock s).hold = 0 := by
  rw [watchedClock_expires expires]
  exact ⟨⟨rfl, rfl, rfl, rfl, rfl, rfl, rfl, rfl, rfl⟩, rfl, rfl⟩

theorem watchedClock_stays (early : ¬ Expires s) : Stays s (watchedClock s) ∧ (watchedClock s).reason = s.clk.reason
    ∧ (watchedClock s).hold = s.clk.hold := by
  unfold watchedClock
  rw [if_neg early]
  split <;> exact ⟨⟨rfl, rfl, rfl, rfl, rfl, rfl, rfl, rfl, rfl⟩, rfl, rfl⟩

/-- Where no session ends the watch alone decides. -/
theorem watchedClock_judged (goes : ¬ Ends s) : Judged s (watchedClock s) := by
  obtain ⟨u, r, steps, -, -, -, -, -, watch⟩ := watchedClock_keeps s
  refine ⟨u, watch, r, steps, fun enters => ?_, fun calm => (watchedClock_stays fun k => calm (.inl k)).1, ?_⟩
  · exact (watchedClock_held (enters.resolve_right fun k => goes k.1)).1
  · rw [if_neg fun k => goes k.1]
    by_cases expires : Expires s
    · rw [if_pos expires]
      exact (watchedClock_held expires).2.1
    · rw [if_neg expires]
      exact (watchedClock_stays expires).2.1

/-- An entry to HOLDOVER at the temperature of the reading. -/
theorem held_resting {x : Clock} (reason : HoldReason) (r : x.r = s.clk.r) :
    Held s (restingClock (heldClock reason s.pwr.tv x)) :=
  ⟨rfl, r, rfl, by rw [← r]; rfl, rfl, rfl, rfl, rfl, rfl⟩

/-- The timers of the session change nothing that the watch decides on. -/
theorem tickedClock_keeps (s : State) : (tickedClock s).u = boundaryUncertainty s ∧ (tickedClock s).r = s.clk.r
    ∧ (tickedClock s).steps = s.clk.steps
    ∧ (tickedClock s).watch = (if Runs s ∧ Supplied s then s.clk.watch + 1 else s.clk.watch)
    ∧ (tickedClock s).session = s.clk.session + 1 ∧ (tickedClock s).hold = heldTime s := by
  obtain ⟨u, r, steps, -, -, -, -, -, watch⟩ := watchedClock_keeps s
  exact ⟨u, r, steps, watch, rfl, rfl⟩

/-- What an end of the session leaves of a clock the timers found as x, with the reason q. -/
theorem judged_resting {x : Clock} {q : Option HoldReason} (u : x.u = boundaryUncertainty s)
    (watch : x.watch = if Runs s ∧ Supplied s then s.clk.watch + 1 else s.clk.watch) (r : x.r = s.clk.r)
    (steps : x.steps = s.clk.steps) (enters : Enters s → Held s x) (stays : ¬ Enters s → Stays s x)
    (reason : q = if Ends s ∧ (Runs s ∨ s.clk.disc = .holdover ∧ s.clk.reason = some .ppsLoss) then some .gnssOff
      else if Expires s then some .ppsLoss else s.clk.reason) : Judged s { restingClock x with reason := q } :=
  ⟨u, watch, r, steps, enters, stays, reason⟩

/-- The timers of the session leave what the watch decided on. -/
theorem tickedClock_watched (s : State) : (Expires s → Held s (tickedClock s) ∧ (tickedClock s).reason = some .ppsLoss)
    ∧ (¬ Expires s → Stays s (tickedClock s) ∧ (tickedClock s).reason = s.clk.reason
      ∧ (tickedClock s).disc = s.clk.disc) := by
  refine ⟨fun expires => ?_, fun early => ?_⟩
  · obtain ⟨held, reason, -⟩ := watchedClock_held expires
    exact ⟨held, reason⟩
  · obtain ⟨stays, reason, -⟩ := watchedClock_stays early
    exact ⟨stays, reason, stays.1⟩

/-- A session that ends sends a running clock to HOLDOVER with GNSS_OFF, whatever the watch did. -/
theorem boundary_ends_judged (session : s.clk.supply = .session) (ends : Over s) : Judged s (clockBoundary s).clk := by
  obtain ⟨u, r, steps, watch, -, -⟩ := tickedClock_keeps s
  obtain ⟨late, early⟩ := tickedClock_watched s
  have finished : Ends s := ⟨session, ends⟩
  by_cases expires : Expires s
  · obtain ⟨held, reason⟩ := late expires
    rw [boundary_ends_holdover session ends held.1]
    generalize tickedClock s = x at *
    refine judged_resting u watch r steps (fun _ => held) (fun calm => absurd (.inl expires) calm) ?_
    rw [if_pos ⟨finished, .inl expires.1⟩]
    exact if_pos reason
  · obtain ⟨stays, reason, disc⟩ := early expires
    by_cases runs : Runs s
    · rw [boundary_ends_runs session ends runs expires]
      generalize tickedClock s = x at *
      refine ⟨u, watch, r, steps, fun _ => held_resting _ r, fun calm => absurd (.inr ⟨finished, runs⟩) calm, ?_⟩
      rw [if_pos ⟨finished, .inl runs⟩]
      rfl
    · have calm : ¬ Enters s := fun k => k.elim expires fun k => runs k.2
      cases kind : s.clk.disc with
      | acquire => exact absurd (.inl kind) runs
      | track => exact absurd (.inr kind) runs
      | holdover =>
        rw [boundary_ends_holdover session ends (disc.trans kind), reason]
        generalize tickedClock s = x at *
        refine judged_resting u watch r steps (fun k => absurd k calm) (fun _ => stays) ?_
        unfold offReason
        rw [if_neg expires]
        by_cases lost : s.clk.reason = some .ppsLoss
        · rw [if_pos lost, if_pos ⟨finished, .inr ⟨kind, lost⟩⟩]
        · rw [if_neg lost, if_neg fun k => k.2.elim runs fun k => lost k.2]
      | unset =>
        rw [boundary_ends_unset session ends (disc.trans kind)]
        generalize tickedClock s = x at *
        refine ⟨u, watch, r, steps, fun k => absurd k calm, fun _ => stays, ?_⟩
        rw [if_neg expires, if_neg fun k => k.2.elim runs fun k => by cases kind.symm.trans k.1]
        exact reason

/-- A supply that rests with its session counted and no time held, whatever the reason of HOLDOVER. -/
theorem timed_resting {x c : Clock} (finished : Ends s) (clk : ∃ q, c = { restingClock x with reason := q })
    (counted : x.session = s.clk.session + 1) (idle : x.hold = 0) : Timed s c := by
  obtain ⟨q, clk⟩ := clk
  unfold Timed
  rw [clk, if_pos finished, if_pos finished.1, if_pos (.inl finished), if_pos finished, if_pos finished,
    if_pos (.inl finished)]
  exact ⟨rfl, counted, idle, rfl, rfl, rfl⟩

/-- The supply of a session that ends goes to rest, and no time is held. -/
theorem boundary_ends_timed (session : s.clk.supply = .session) (ends : Over s) : Timed s (clockBoundary s).clk := by
  obtain ⟨-, -, -, -, counted, hold⟩ := tickedClock_keeps s
  obtain ⟨late, early⟩ := tickedClock_watched s
  have finished : Ends s := ⟨session, ends⟩
  by_cases expires : Expires s
  · obtain ⟨held, -⟩ := late expires
    exact timed_resting finished ⟨_, boundary_ends_holdover session ends held.1⟩ counted
      (hold.trans (if_neg fun k => k.2 expires))
  · obtain ⟨-, -, disc⟩ := early expires
    by_cases runs : Runs s
    · rw [boundary_ends_runs session ends runs expires]
      generalize tickedClock s = x at *
      exact timed_resting (x := heldClock .gnssOff s.pwr.tv x) finished ⟨_, rfl⟩ counted rfl
    · have idle : (tickedClock s).hold = 0 := hold.trans (if_neg fun k => runs (.inr k.1))
      cases kind : s.clk.disc with
      | acquire => exact absurd (.inl kind) runs
      | track => exact absurd (.inr kind) runs
      | holdover =>
        exact timed_resting finished ⟨_, boundary_ends_holdover session ends (disc.trans kind)⟩ counted idle
      | unset =>
        rw [boundary_ends_unset session ends (disc.trans kind)]
        generalize tickedClock s = x at *
        exact timed_resting finished ⟨_, rfl⟩ counted idle

/-- A session that goes on. -/
theorem boundary_session_timed (session : s.clk.supply = .session) (long : ¬ Over s) : Timed s (clockBoundary s).clk := by
  obtain ⟨-, -, -, supply, -, rest, label, rx, -⟩ := watchedClock_keeps s
  obtain ⟨-, -, -, -, counted, hold⟩ := tickedClock_keeps s
  have goes : ¬ Ends s := fun k => long k.2
  have idle : ¬ Due s := fun k => by cases session.symm.trans k.1
  have awake : s.clk.supply ≠ .resting := by rw [session]; decide
  have silent : ¬ (Ends s ∨ Due s) := fun k => k.elim goes idle
  have held : heldTime s = if Ends s ∨ Due s ∨ Expires s then 0 else heldTime s := by
    by_cases expires : Expires s
    · rw [if_pos (.inr (.inr expires))]
      exact if_neg fun k => k.2 expires
    · have calm : ¬ (Ends s ∨ Due s ∨ Expires s) := fun k => k.elim goes fun k => k.elim idle expires
      rw [if_neg calm]
  unfold Timed
  rw [boundary_session session long, if_neg goes, if_neg idle, if_pos session, if_pos session, if_neg goes, if_neg awake,
    if_neg goes, if_neg silent]
  exact ⟨supply, counted, hold.trans held, rest, label, rx⟩

theorem not_supplied_of_resting (resting : s.clk.supply = .resting) : ¬ Expires s := fun k => by
  rcases k.2.1 with h | h <;> cases resting.symm.trans h

/-- A rest that goes on or ends with a session's start. -/
theorem boundary_resting_timed (resting : s.clk.supply = .resting) : Timed s (clockBoundary s).clk := by
  have goes : ¬ Ends s := fun k => by cases resting.symm.trans k.1
  have other : s.clk.supply ≠ .session := by rw [resting]; decide
  have calm := not_supplied_of_resting resting
  unfold Timed
  rw [if_neg goes, if_neg other, if_neg goes, if_pos resting, if_neg goes]
  by_cases long : s.restInterval ≤ s.clk.rest + 1
  · have due : Due s := ⟨resting, long⟩
    rw [(boundary_starts resting long).1, if_pos due, if_pos due, if_pos (.inr (.inl due)), if_pos (.inr due)]
    exact ⟨rfl, rfl, rfl, rfl, rfl, rfl⟩
  · have early : ¬ Due s := fun k => long k.2
    have quiet : ¬ (Ends s ∨ Due s ∨ Expires s) := fun k => k.elim goes fun k => k.elim early calm
    have silent : ¬ (Ends s ∨ Due s) := fun k => k.elim goes early
    rw [(boundary_rests resting long).1, if_neg early, if_neg early, if_neg quiet, if_neg other, if_neg silent]
    exact ⟨rfl, rfl, rfl, rfl, rfl, rfl⟩

/-- Neither in a session nor at rest: the timers stand. -/
theorem boundary_other_timed (session : s.clk.supply ≠ .session) (resting : s.clk.supply ≠ .resting) :
    Timed s (clockBoundary s).clk := by
  obtain ⟨-, -, -, supply, counted, rest, label, rx, -⟩ := watchedClock_keeps s
  have goes : ¬ Ends s := fun k => session k.1
  have early : ¬ Due s := fun k => resting k.1
  have silent : ¬ (Ends s ∨ Due s) := fun k => k.elim goes early
  have hold : (watchedClock s).hold = if Ends s ∨ Due s ∨ Expires s then 0 else s.clk.hold := by
    by_cases expires : Expires s
    · rw [if_pos (.inr (.inr expires))]
      exact (watchedClock_held expires).2.2
    · have calm : ¬ (Ends s ∨ Due s ∨ Expires s) := fun k => k.elim goes fun k => k.elim early expires
      rw [if_neg calm]
      exact (watchedClock_stays expires).2.2
  unfold Timed
  rw [(boundary_other session resting).1, if_neg goes, if_neg early, if_neg session, if_neg session, if_neg early, if_neg goes,
    if_neg resting, if_neg goes, if_neg silent]
  exact ⟨supply, counted, hold, rest, label, rx⟩

end Stages

theorem boundary_judged (s : State) : Judged s (clockBoundary s).clk := by
  by_cases session : s.clk.supply = .session
  · by_cases ends : Over s
    · exact boundary_ends_judged session ends
    · rw [boundary_session session ends]
      exact watchedClock_judged (s := s) fun k => ends k.2
  · have judged := watchedClock_judged (s := s) fun k => session k.1
    by_cases resting : s.clk.supply = .resting
    · rw [watchedClock_resting resting] at judged
      by_cases long : s.restInterval ≤ s.clk.rest + 1
      · rw [(boundary_starts resting long).1]
        exact judged
      · rw [(boundary_rests resting long).1]
        exact judged
    · rw [(boundary_other session resting).1]
      exact judged

theorem boundary_timed (s : State) : Timed s (clockBoundary s).clk := by
  by_cases session : s.clk.supply = .session
  · by_cases ends : Over s
    · exact boundary_ends_timed session ends
    · exact boundary_session_timed session ends
  · by_cases resting : s.clk.supply = .resting
    · exact boundary_resting_timed resting
    · exact boundary_other_timed session resting

theorem boundary_due (s : State) : (clockBoundary s).moment = { restDue := decide (Due s) } := by
  by_cases session : s.clk.supply = .session
  · rw [boundary_session_moment session, decide_eq_false fun k => by cases session.symm.trans k.1]
  · by_cases resting : s.clk.supply = .resting
    · by_cases long : s.restInterval ≤ s.clk.rest + 1
      · rw [(boundary_starts resting long).2, decide_eq_true ⟨resting, long⟩]
      · rw [(boundary_rests resting long).2, decide_eq_false fun k => long k.2]
    · rw [(boundary_other session resting).2, decide_eq_false fun k => resting k.1]

/-- The second rolled, seen in the state at the end of the boundary. -/
theorem rolled_of_grown {s t : State} (same : Part.time.same (grown s) t) (osc : t.osc = (grown s).osc)
    (u : t.clk.u = boundaryUncertainty s) :
    t.clk.s = (s.clk.s + 1) % 4294967296 ∧ t.clk.t = 0 ∧ t.osc = s.osc + s.clk.cyclesLeft
    ∧ t.clk.ticks = s.clk.ticks + (10000000 - s.clk.t)
    ∧ t.clk.acc = s.clk.acc + boundaryRate s - wholeCorrections s * 100
    ∧ t.clk.corr = corrections (wholeCorrections s).natAbs ∧ t.clk.corrUp = decide (0 < wholeCorrections s)
    ∧ (s.ratesBounded → (t.clk.cyclesLeft : Int) = 10000000 - wholeCorrections s)
    ∧ t.clk.u = boundaryUncertainty s := by
  rw [grown_eq] at same osc
  obtain ⟨secs, tick, acc, corr, up, ticks⟩ := same
  exact ⟨secs, tick, osc, ticks, acc, corr, up, fun rates => cyclesLeft_begun tick corr up (wholeCorrections_le rates), u⟩

theorem beginSecond_clk (s : State) : (beginSecond s).clk = s.clk := rfl

theorem beginSecond_sch (s : State) : (beginSecond s).sch.started = true ∧ (beginSecond s).sch.point = 0 := ⟨rfl, rfl⟩

theorem secondBoundary_rolls (r : Reading) (s : State) : ∃ t, secondBoundary r s = t
    ∧ Part.time.same (grown s) t ∧ t.osc = (grown s).osc ∧ t.clk.u = boundaryUncertainty s
    ∧ t.sch.started = true ∧ t.sch.point = 0 := by
  obtain ⟨same, osc⟩ := secondBoundary_time r s
  obtain ⟨u, -⟩ := boundary_judged s
  have uncertainty : (secondBoundary r s).clk.u = boundaryUncertainty s := by
    rw [secondBoundary_after, beginSecond_clk, afterClock_u, u]
  have begun : (secondBoundary r s).sch.started = true ∧ (secondBoundary r s).sch.point = 0 := by
    rw [secondBoundary_after]
    exact beginSecond_sch _
  generalize secondBoundary r s = t at *
  exact ⟨t, rfl, same, osc, uncertainty, begun⟩

/-- The uncertainty bound as the boundary reports it. -/
theorem boundary_conds (s : State) :
    ((clockBoundary s).mon.conds[(0 : CondId)].status = true
      ↔ (clockBoundary s).clk.disc = .holdover ∧ (clockBoundary s).clk.reason = some .ppsLoss)
    ∧ ((clockBoundary s).mon.conds[(1 : CondId)].status = true ↔ s.holdoverLimit * 1000 < (clockBoundary s).clk.u)
    ∧ ((clockBoundary s).mon.conds[(2 : CondId)].status = true ↔ (clockBoundary s).clk.disc = .unset) := by
  obtain ⟨lost, limit, unset, -⟩ := reportClock_conds (supplied s)
  have params : (supplied s).params = s.params :=
    params_of (Does.trans (Does.mono (watched_does s) (by decide)) (Does.mono (tickSupply_does _) (by decide)) :
      Does [.clk, .time, .osc, .moment, .box, .mon, .supplyView] s (supplied s)) (by decide)
  have same : (supplied s).holdoverLimit = s.holdoverLimit := congrArg Int.toNat (param_of_params params _)
  rw [same] at limit
  rw [boundary_clk, clockBoundary_eq]
  exact ⟨lost, limit, unset⟩

/-- Settles O23: the second rolled, the order of the work at the boundary, and the clock's own work in full. -/
theorem secondBoundaryRollsTime : Obligations.SecondBoundaryRollsTime := by
  unfold Obligations.SecondBoundaryRollsTime
  refine ⟨fun r s powered => ?_, fun r s powered => ?_, fun r s => rfl, fun s => rfl, fun s => rfl, fun s => ?_⟩
  · obtain ⟨t, e, same, osc, uncertainty, started, point⟩ := secondBoundary_rolls r s
    obtain ⟨secs, tick, osc, ticks, acc, corr, up, length, u⟩ := rolled_of_grown same osc uncertainty
    have runs := exec_secondBoundary r powered
    rw [e] at runs
    exact ⟨t, runs, secs, tick, osc, ticks, acc, corr, up, length, u, started, point⟩
  · exact exec_secondBoundary r powered
  · obtain ⟨u, watch, rate, steps, enters, stays, reason⟩ := boundary_judged s
    obtain ⟨supply, session, hold, rest, label, rx⟩ := boundary_timed s
    obtain ⟨lost, limit, unset⟩ := boundary_conds s
    have moment := boundary_due s
    have frame := (clockBoundary_does s).frame
    have interval := restInterval_eq s
    generalize clockBoundary s = t at *
    unfold Due at supply session hold rx moment
    rw [interval] at supply session hold rx moment
    exact ⟨u, watch, rate, steps, enters, stays, reason, supply, session, hold, rest, label, rx, moment, lost, limit, unset, frame⟩

end Sys2Proof.Proofs
end

