-- ==== Sys2Proof/Proofs/EdgeTests.lean ====
section
/-! PROOFS. INPUT_EDGE and INPUT_LEVEL_RETURN (2.1): an edge seen and a level that returns, and from these the settling of O31. -/
namespace Sys2Proof.Proofs

open Sys2Proof Sys2Proof.Machine Sys2Proof.Laws

/-! ### An edge in the selected direction (R27) -/

/-- The edge that is seen now. -/
def edgeNow (s : State) : EdgeTest := ⟨s.stamp, s.osc, s.clk.ticks⟩

section Edges
variable {i : Input} {s : State}

theorem seeEdge_disabled (disabled : s.prescale i = 0) :
    seeEdge i s = setInput i { s.mrk.input i with high := s.selectedLevel i } s := if_pos disabled

theorem seeEdge_at_once (enabled : s.prescale i ≠ 0) (none : s.minWidth i = 0) :
    seeEdge i s = qualify i (edgeNow s) (setInput i { s.mrk.input i with high := s.selectedLevel i } s) := by
  unfold seeEdge
  dsimp only
  rw [if_neg enabled, if_pos none]
  exact rfl

theorem seeEdge_starts (enabled : s.prescale i ≠ 0) (width : s.minWidth i ≠ 0) :
    seeEdge i s = setInput i { s.mrk.input i with high := s.selectedLevel i, edge := some (edgeNow s) } s := by
  unfold seeEdge
  dsimp only
  rw [if_neg enabled, if_neg width, setInput_input_same, setInput_setInput_same]
  exact rfl

/-! ### The level returns (R27) -/

theorem endLevel_idle (idle : (s.mrk.input i).edge = none) :
    endLevel i s = setInput i { s.mrk.input i with high := !s.selectedLevel i } s := by
  unfold endLevel
  dsimp only
  split
  · exact rfl
  next tested => rw [tested] at idle; cases idle

theorem endLevel_complete {x : EdgeTest} (tested : (s.mrk.input i).edge = some x) (complete : x.cycle + s.minWidth i ≤ s.osc) :
    endLevel i s = qualify i x (setInput i { s.mrk.input i with high := !s.selectedLevel i } s) := by
  unfold endLevel
  dsimp only
  split
  next idle => rw [idle] at tested; cases tested
  next _ y _ same =>
    obtain rfl : y = x := by rw [same] at tested; exact Option.some.inj tested
    exact if_pos complete

/-- The count of rejected widths after an early return. -/
def countWidth (i : Input) (s : State) : State :=
  match i with
  | .pps => { s with mrk := { s.mrk with widthRej := inc16 s.mrk.widthRej } }
  | _ => s

theorem endLevel_early {x : EdgeTest} (tested : (s.mrk.input i).edge = some x) (early : s.osc < x.cycle + s.minWidth i) :
    endLevel i s = countWidth i (setInput i { s.mrk.input i with high := !s.selectedLevel i, edge := none } s) := by
  unfold endLevel
  dsimp only
  split
  next idle => rw [idle] at tested; cases tested
  next _ y _ same =>
    obtain rfl : y = x := by rw [same] at tested; exact Option.some.inj tested
    rw [if_neg (Nat.not_le.mpr early), setInput_input_same, setInput_setInput_same]
    cases i <;> exact rfl

theorem countWidth_mrk (i : Input) (s : State) : (countWidth i s).mrk.input i = s.mrk.input i
    ∧ (countWidth i s).mrk.widthRej = (if i = .pps then inc16 s.mrk.widthRej else s.mrk.widthRej)
    ∧ (countWidth i s).mrk.marks = s.mrk.marks := by
  cases i <;> exact ⟨rfl, rfl, rfl⟩

theorem setInput_widthRej (i : Input) (x : MarkInput) (s : State) : (setInput i x s).mrk.widthRej = s.mrk.widthRej := by
  cases i <;> exact rfl

end Edges

/-! ### The two commands -/

section Commands
variable {i : Input} {s : State} (dt : Nat) (powered : s.powered = true)
include powered

theorem exec_inputEdge (away : ¬ ((elapse dt s).mrk.input i).high = (elapse dt s).selectedLevel i) :
    exec (.inputEdge dt i) s = .next (seeEdge i (elapse dt s)) := by
  have e : exec (.inputEdge dt i) s = execInputEdge dt i s := rfl
  rw [e, execInputEdge, act_on powered]
  exact congrArg _ (if_neg away)

theorem exec_inputLevelReturn (reached : ((elapse dt s).mrk.input i).high = (elapse dt s).selectedLevel i) :
    exec (.inputLevelReturn dt i) s = .next (endLevel i (elapse dt s)) := by
  have e : exec (.inputLevelReturn dt i) s = execInputLevelReturn dt i s := rfl
  rw [e, execInputLevelReturn, act_on powered]
  exact congrArg _ (if_pos reached)

end Commands

/-- Settles O31: what an edge and a level that returns do to the width test of their input. -/
theorem edgesAreTested : Obligations.EdgesAreTested := by
  unfold Obligations.EdgesAreTested
  rintro dt i s u powered rfl
  refine ⟨fun away => ?_, fun reached => ?_⟩
  · rw [exec_inputEdge dt powered away]
    generalize elapse dt s = u
    exact ⟨fun disabled => congrArg _ (seeEdge_disabled disabled), fun enabled width => congrArg _ (seeEdge_starts enabled width),
      fun enabled none => congrArg _ (seeEdge_at_once enabled none)⟩
  · rw [exec_inputLevelReturn dt powered reached]
    generalize elapse dt s = u
    refine ⟨fun idle => congrArg _ (endLevel_idle idle), fun x tested early => ⟨_, rfl, ?_⟩,
      fun x tested complete => congrArg _ (endLevel_complete tested complete)⟩
    obtain ⟨input, widthRej, marks⟩ := countWidth_mrk i
      (setInput i { u.mrk.input i with high := !u.selectedLevel i, edge := none } u)
    rw [endLevel_early tested early, input, widthRej, marks, setInput_input_same, setInput_widthRej, marks_setInput]
    exact ⟨rfl, rfl, rfl⟩

end Sys2Proof.Proofs
end

