-- ==== Sys2Proof/Proofs/ShedAndRestore.lean ====
section
/-! PROOFS. What a change of class or of the power state sets off in the other blocks (R23, R40, R49, R109, R134, R142 to R144,
R175), and from it the settling of O19. -/
namespace Sys2Proof.Proofs

open Sys2Proof Sys2Proof.Machine Sys2Proof.Laws

/-! ### The class reported (R142) -/

/-- A state that differs in the outbox and the conditions only. -/
theorem eq_of_reported {s t : State} (h : OnlyIn [.box, .mon] s t) : t = { s with box := t.box, mon := t.mon } := by
  have clk : t.clk = s.clk := h .clk (by decide)
  have mrk : t.mrk = s.mrk := h .mrk (by decide)
  have sch : t.sch = s.sch := h .sch (by decide)
  have prt : t.prt = s.prt := h .prt (by decide)
  have map : t.map = s.map := h .map (by decide)
  have pendingMap : t.pendingMap = s.pendingMap := h .pendingMap (by decide)
  have rings : t.rings = s.rings := h .rings (by decide)
  have chn : t.chn = s.chn := h .chn (by decide)
  have evt : t.evt = s.evt := h .evt (by decide)
  have mdm : t.mdm = s.mdm := h .mdm (by decide)
  have pwr : t.pwr = s.pwr := h .pwr (by decide)
  have bat : t.bat = s.bat := h .bat (by decide)
  have htr : t.htr = s.htr := h .htr (by decide)
  have bus : t.bus = s.bus := h .bus (by decide)
  have params : t.params = s.params := h .params (by decide)
  have store : t.store = s.store := h .store (by decide)
  have pending : t.pending = s.pending := h .pending (by decide)
  have powered : t.powered = s.powered := h .powered (by decide)
  have osc : t.osc = s.osc := h .osc (by decide)
  have moment : t.moment = s.moment := h .moment (by decide)
  have free : t.free = s.free := h .free (by decide)
  cases s
  cases t
  simp_all

theorem reportClass_eq (s : State) : ∃ b m, reportClass s = { s with box := b, mon := m } :=
  ⟨_, _, eq_of_reported (reportClass_does s).frame⟩

theorem reportClass_conds (s : State) :
    ((reportClass s).mon.conds[(9 : CondId)].status = true ↔ s.bat.cls ≠ .normal)
    ∧ ((reportClass s).mon.conds[(10 : CondId)].status = true ↔ s.bat.cls = .critical) := by
  unfold reportClass
  rw [statusChange_other 10 _ _ 9 (by decide) (by decide), statusChange_status 9 _ _ (by decide),
    statusChange_status 10 _ _ (by decide), bne_iff_ne, beq_iff_eq]
  exact ⟨.rfl, .rfl⟩

/-! ### The GNSS supply follows (R18, R23) -/

/-- What a supply that goes off for a reason leaves of the label and of the clock's state. -/
def GnssOff (reason : HoldReason) (s : State) (c : Clock) : Prop := c.label = none
  ∧ (s.clk.disc = .acquire ∨ s.clk.disc = .track →
      c.disc = .holdover ∧ c.reason = some reason ∧ c.rLoss = s.clk.r ∧ c.tLoss = s.pwr.tv)
  ∧ (s.clk.disc = .unset ∨ s.clk.disc = .holdover → c.disc = s.clk.disc ∧ c.reason =
      (if s.clk.disc = .holdover ∧ (reason = .shed ∨ s.clk.reason = some .ppsLoss) then some reason else s.clk.reason))

section Follow
variable {s : State}

theorem holdoverCause_runs (reason : HoldReason) (runs : Runs s) : holdoverCause reason s = enterHoldover reason s := by
  unfold holdoverCause
  rcases runs with h | h <;> rw [h]

theorem holdoverCause_unset (reason : HoldReason) (unset : s.clk.disc = .unset) : holdoverCause reason s = s := by
  unfold holdoverCause
  rw [unset]

/-- SHED and the schedule: which of them takes the place of the reason the clock has. -/
theorem holdoverCause_held {reason : HoldReason} (cause : reason = .shed ∨ reason = .gnssOff)
    (held : s.clk.disc = .holdover) : (holdoverCause reason s).clk = { s.clk with
      reason := if reason = .shed ∨ s.clk.reason = some .ppsLoss then some reason else s.clk.reason } := by
  have same : (reason = .shed ∨ reason = .gnssOff ∧ s.clk.reason = some .ppsLoss)
      ↔ (reason = .shed ∨ s.clk.reason = some .ppsLoss) := by
    rcases cause with rfl | rfl <;> simp
  unfold holdoverCause
  rw [held]
  dsimp only
  by_cases c : reason = .shed ∨ s.clk.reason = some .ppsLoss
  · rw [if_pos (same.mpr c), if_pos c, held]
  · rw [if_neg fun k => c (same.mp k), if_neg c]

/-- The clock once its supply is off, for SHED or by schedule. -/
theorem gnssOff_cause {reason : HoldReason} (cause : reason = .shed ∨ reason = .gnssOff) (x : Supply) :
    GnssOff reason s (holdoverCause reason (supplyOff x s)).clk := by
  have kind : (supplyOff x s).clk.disc = s.clk.disc := rfl
  by_cases runs : Runs s
  · rw [holdoverCause_runs reason (s := supplyOff x s) (by rw [Runs, kind]; exact runs)]
    refine ⟨rfl, fun _ => ⟨rfl, rfl, rfl, rfl⟩, fun rests => ?_⟩
    rcases runs with h | h <;> rcases rests with k | k <;> cases h.symm.trans k
  · cases h : s.clk.disc with
    | acquire => exact absurd (.inl h) runs
    | track => exact absurd (.inr h) runs
    | unset =>
      rw [holdoverCause_unset reason (s := supplyOff x s) h]
      refine ⟨rfl, fun k => absurd k runs, fun _ => ⟨rfl, ?_⟩⟩
      rw [if_neg fun k => by cases h.symm.trans k.1]
      rfl
    | holdover =>
      rw [holdoverCause_held cause (s := supplyOff x s) h]
      exact ⟨rfl, fun k => absurd k runs, fun _ => ⟨rfl, if_congr (and_iff_right h).symm rfl rfl⟩⟩

theorem holdoverCause_supply (reason : HoldReason) (x : Supply) :
    (holdoverCause reason (supplyOff x s)).clk.supply = x := by
  unfold holdoverCause
  split
  · rfl
  · split <;> rfl
  · rfl

/-- In SHED a supply that is not off yet goes off. -/
theorem clockFollow_shed (shed : s.bat.power = .shed) : (clockFollow s).clk =
    if s.clk.supply = .shedOff then s.clk else (holdoverCause .shed (supplyOff .shedOff s)).clk := by
  unfold clockFollow
  rw [reportClock_clk, shed]
  exact apply_ite State.clk _ _ _

/-- In RUN and NORMAL the supply is continuous. -/
theorem clockFollow_normal (run : s.bat.power = .run) (normal : s.bat.cls = .normal) : (clockFollow s).clk =
    if s.clk.supply = .continuous then s.clk else (supplyOn .continuous s).clk := by
  unfold clockFollow
  rw [reportClock_clk, run, normal]
  cases s.clk.supply <;> exact rfl

/-- In RUN below NORMAL the supply goes to its sessions. -/
theorem clockFollow_below (run : s.bat.power = .run) (below : s.bat.cls ≠ .normal) : (clockFollow s).clk =
    match s.clk.supply with
    | .continuous => (supplyRest s).clk
    | .shedOff => (sessionStart s).clk
    | _ => s.clk := by
  unfold clockFollow
  rw [reportClock_clk, run]
  cases cls : s.bat.cls with
  | normal => exact absurd cls below
  | low => cases s.clk.supply <;> exact rfl
  | critical => cases s.clk.supply <;> exact rfl

end Follow

/-! ### The supplies of the ports (R49) -/

/-- Port p is enabled, whatever the power state. -/
def Enabled (s : State) (p : PortId) : Prop := if p = 0 then s.digEnable0 = true else
  s.digEnable1 = true ∧ (s.bat.cls ≠ .critical ∨ s.shedD1Critical = false)

theorem supplyDue_iff (s : State) (p : PortId) : s.supplyDue p = true ↔ Enabled s p ∧ s.bat.power = .run := by
  unfold State.supplyDue Enabled
  match p with
  | 0 => simp
  | 1 =>
    simp
    tauto

theorem enabled_of {s t : State} (params : t.params = s.params) (cls : t.bat.cls = s.bat.cls) (p : PortId) :
    Enabled t p ↔ Enabled s p := by
  unfold Enabled State.digEnable0 State.digEnable1 State.shedD1Critical
  rw [param_of_params params, param_of_params params, param_of_params params, cls]

/-- A port that is to be off. -/
theorem evalSupplies_off {s : State} {p : PortId} (due : ¬ (Enabled s p ∧ s.bat.power = .run)) :
    (evalSupplies s).prt[p].link = .off
    ∧ (evalSupplies s).prt[p].window = if s.prt[p].link = .off then s.prt[p].window else none := by
  have no : s.supplyDue p = false := by
    rw [← Bool.not_eq_true, supplyDue_iff]
    exact due
  rw [evalSupplies_port, no]
  unfold Port.supplied
  by_cases off : s.prt[p].link = .off
  · rw [if_neg (by decide), if_pos off, if_pos off]
    exact ⟨off, rfl⟩
  · rw [if_neg (by decide), if_neg off, if_neg off]
    exact ⟨rfl, rfl⟩

/-- A port that is to be on starts where it was off. -/
theorem evalSupplies_on {s : State} {p : PortId} (due : Enabled s p ∧ s.bat.power = .run) :
    (evalSupplies s).prt[p].link = (if s.prt[p].link = .off then .starting else s.prt[p].link)
    ∧ (s.prt[p].link = .off → (evalSupplies s).prt[p].startAt = s.osc) := by
  rw [evalSupplies_port, (supplyDue_iff s p).mpr due]
  unfold Port.supplied
  by_cases off : s.prt[p].link = .off
  · rw [if_pos rfl, if_pos off, if_pos off]
    exact ⟨rfl, fun _ => rfl⟩
  · rw [if_pos rfl, if_neg off, if_neg off]
    exact ⟨rfl, fun k => absurd k off⟩

/-! With no strobe noted the slots that a stopped port writes bring no vote (R87, R109). -/

/-- The notes and what is seen of the events are kept. -/
def KeepsEvent (s t : State) : Prop := t.evt.notes = s.evt.notes ∧ t.evt.state = s.evt.state ∧ t.evt.record = s.evt.record
  ∧ t.evt.list = s.evt.list

theorem KeepsEvent.of_evt {s t : State} (h : t.evt = s.evt) : KeepsEvent s t := by
  unfold KeepsEvent
  rw [h]
  exact ⟨rfl, rfl, rfl, rfl⟩

theorem KeepsEvent.trans {s t u : State} (h : KeepsEvent s t) (k : KeepsEvent t u) : KeepsEvent s u :=
  ⟨k.1.trans h.1, k.2.1.trans h.2.1, k.2.2.1.trans h.2.2.1, k.2.2.2.trans h.2.2.2⟩

theorem KeepsEvent.fold {α : Type} (f : State → α → State) (h : ∀ s a, KeepsEvent s (f s a)) (l : List α) (s : State) :
    KeepsEvent s (l.foldl f s) := by
  induction l generalizing s with
  | nil => exact .of_evt rfl
  | cons a r ih => exact (h s a).trans (ih _)

theorem signalState_event (c : Chan) (s : State) : KeepsEvent s (signalState c s) := by
  unfold signalState
  split
  · exact ⟨rfl, rfl, rfl, rfl⟩
  · exact .of_evt rfl

theorem refreshChan_event (c : Chan) (s : State) : KeepsEvent s (refreshChan c s) := by
  have set (x : Channel) : KeepsEvent s (signalState c (setChan c x s)) :=
    .trans (.of_evt rfl) (signalState_event c (setChan c x s))
  unfold refreshChan restartChan
  split
  · split
    · exact set _
    · exact .of_evt rfl
  · split
    · exact .of_evt rfl
    · exact set _

theorem refreshPort_event (p : PortId) (s : State) : KeepsEvent s (refreshPort p s) := by
  unfold refreshPort
  refine KeepsEvent.fold _ (fun s c => ?_) _ s
  split
  · exact refreshChan_event c s
  · exact .of_evt rfl

theorem linkChanged_event (p : PortId) (s : State) : KeepsEvent s (linkChanged p s) :=
  .trans (.of_evt (evt_of (reportPort_does p s) (by decide))) (refreshPort_event p _)

theorem stopLink_event (p : PortId) (s : State) : KeepsEvent s (stopLink p s) :=
  .trans (.of_evt (evt_of (setPort_does p _ s) (by decide))) (linkChanged_event p _)

theorem switchSupply_event (p : PortId) (s : State) : KeepsEvent s (switchSupply p s) := by
  unfold switchSupply
  split
  · split
    · exact .of_evt rfl
    · exact .of_evt rfl
  · split
    · exact .of_evt rfl
    · exact stopLink_event p s

/-- A slot written while no strobe is noted. -/
theorem writeSlot_quiet (c : Chan) (k : Nat) (x : Slot) {s : State} (quiet : s.evt.notes = []) :
    (writeSlot c k x s).evt = s.evt := by
  unfold writeSlot triggerStrobe
  dsimp only
  rw [gatherReport_unnoted]
  · exact rfl
  · intro n noted
    have none : n ∈ s.evt.notes := noted
    rw [quiet] at none
    cases none

theorem writePortGaps_quiet (p : PortId) (k : Nat) {s : State} (quiet : s.evt.notes = []) :
    (writePortGaps p k s).evt = s.evt := by
  have fold (l : List Chan) (u : State) (h : u.evt.notes = []) :
      (l.foldl (fun s c => if s.sourcePort c = some p then writeGap c k s else s) u).evt = u.evt := by
    induction l generalizing u with
    | nil => rfl
    | cons c r ih =>
      have one : (if u.sourcePort c = some p then writeGap c k u else u).evt = u.evt := by
        split
        · exact writeSlot_quiet c k _ h
        · rfl
      rw [List.foldl_cons, ih _ (by rw [one]; exact h), one]
  exact fold _ s quiet

theorem closeStopped_quiet (p : PortId) (old : Port) {s : State} (quiet : s.evt.notes = []) :
    (closeStopped p old s).evt = s.evt := by
  unfold closeStopped
  split
  · split
    · rfl
    · exact writePortGaps_quiet p _ quiet
  · rfl

theorem evalSupplies_quiet {s : State} (quiet : s.evt.notes = []) : KeepsEvent s (evalSupplies s) := by
  have switched : KeepsEvent s (switchSupply 1 (switchSupply 0 s)) := (switchSupply_event 0 s).trans (switchSupply_event 1 _)
  have notes : (switchSupply 1 (switchSupply 0 s)).evt.notes = [] := switched.1.trans quiet
  have first := closeStopped_quiet 0 s.prt[0] notes
  have second := closeStopped_quiet 1 s.prt[1] (s := closeStopped 0 s.prt[0] (switchSupply 1 (switchSupply 0 s)))
    (by rw [first]; exact notes)
  exact switched.trans (.of_evt (second.trans first))

/-- Ports that are off and start, or stay off, write nothing. -/
theorem evalSupplies_from_off {s : State} (off : ∀ p : PortId, s.prt[p].link = .off) : Does [.prt] s (evalSupplies s) := by
  have stays (p : PortId) (u : State) (h : u.prt[p].link = .off) : Does [.prt] u (switchSupply p u) := by
    unfold switchSupply
    rw [if_pos h, if_pos h]
    exact Does.ite _ (startPort p) (Does.refl _ u) (startPort_does p u)
  have closed (p : PortId) (old : Port) (u : State) (h : old.link = .off) : closeStopped p old u = u :=
    if_neg fun k => k.1 h
  have unopened : evalSupplies s = switchSupply 1 (switchSupply 0 s) :=
    (closed 1 s.prt[(1 : PortId)] _ (off 1)).trans (closed 0 s.prt[(0 : PortId)] _ (off 0))
  rw [unopened]
  refine Does.trans (stays 0 s (off 0)) (stays 1 _ ?_)
  rw [switchSupply_port, if_neg (by decide)]
  exact off 1

/-! ### What SHED cuts (R143) -/

/-- A running calibration is skipped. -/
def Skipped (s t : State) : Prop := ∀ c, s.runningCal = some c → t.sch.lines[c.sensor] = none
  ∧ t.sch.windows[c.sensor] = (if s.calSettle = 0 then .closed else .closing (s.osc + s.calSettle * 10000000))
  ∧ ∀ y ∈ t.sch.cals, y.id = c.id → y.outcome = .skipped

/-- A state with the calibrations, the settings and the oscillator count of s. -/
theorem cutCal_skipped {s u : State} (runs : KeepsRuns s u) (params : u.params = s.params) (osc : u.osc = s.osc) :
    Skipped s (cutCal u) := by
  intro c running
  obtain ⟨e, sch⟩ := runs.sch
  have same : u.runningCal = some c := by
    unfold State.runningCal
    rw [sch]
    exact running
  have settle : u.calSettle = s.calSettle := by
    unfold State.calSettle
    rw [param_of_params params]
  have skips := cutCal_skips u c same
  rw [settle, osc] at skips
  exact skips

/-- The heater after it has followed into SHED. -/
theorem heaterFollow_shed {s : State} (shed : s.bat.power = .shed) :
    (heaterFollow s).htr.state = (if s.htr.state = .shutdown then .shutdown else .off)
    ∧ (s.htr.state = .regulate ∨ s.htr.state = .held → (heaterFollow s).htr.heat = false
      ∧ (heaterFollow s).htr.heatEnd = none ∧ (heaterFollow s).htr.latched = 0) := by
  have due : s.heatOffDue = true := by
    unfold State.heatOffDue
    rw [shed]
    rfl
  unfold heaterFollow
  rw [due]
  cases h : s.htr.state with
  | shutdown => exact ⟨h, fun k => by rcases k with k | k <;> cases k⟩
  | off => exact ⟨h, fun k => by rcases k with k | k <;> cases k⟩
  | regulate => exact ⟨rfl, fun _ => ⟨rfl, rfl, rfl⟩⟩
  | held => exact ⟨rfl, fun _ => ⟨rfl, rfl, rfl⟩⟩

theorem modemShed_cut (s : State) : (modemShed s).mdm.link = .off ∧ ∀ a ∈ (modemShed s).box.entries, a.inFlight = false := by
  have returned := flights_return ((s.inFlight.map Alert.attempts).getD 0) none s
  unfold modemShed
  dsimp only
  generalize returnInFlight ((s.inFlight.map Alert.attempts).getD 0) none s = u at *
  have none : ∀ a ∈ u.box.entries, a.inFlight = false := fun a mem =>
    Bool.eq_false_iff.mpr (List.countP_eq_zero.mp returned a mem)
  split <;> exact ⟨rfl, none⟩

/-- What the entry to SHED leaves (R23, R49, R109, R134, R143, R175). -/
def Cut (s t : State) : Prop :=
  t.clk.supply = .shedOff ∧ (s.clk.supply ≠ .shedOff → GnssOff .shed s t.clk)
  ∧ (∀ p : PortId, t.prt[p].link = .off ∧ t.prt[p].window = (if s.prt[p].link = .off then s.prt[p].window else none))
  ∧ t.mdm.link = .off ∧ (∀ a ∈ t.box.entries, a.inFlight = false)
  ∧ t.htr.state = (if s.htr.state = .shutdown then .shutdown else .off)
  ∧ (s.htr.state = .regulate ∨ s.htr.state = .held → t.htr.heat = false ∧ t.htr.heatEnd = none ∧ t.htr.latched = 0)
  ∧ Skipped s t
  ∧ (s.evt.notes = [] → t.evt.state = .idle
    ∧ (s.evt.state = .opened ∨ s.evt.state = .closing → t.evt.record = none ∧ ∀ r k, s.evt.record = some r →
        s.evt.lastVoted = some k → t.evt.list.getLast? = some { r with
          state := .closed, close := some ⟨s.stamp, k.strobe, Machine.dist r.openStrobe k.strobe / s.sch.rate⟩,
          flags := { r.flags with shed := true } }))

/-- The part of the entry to SHED before the calibration is cut. -/
def shedSupplies (s : State) : State := evalSupplies (shedEvents (clockFollow s))

/-- What can change before the calibration is cut. -/
abbrev suppliesParts : List Part :=
  [.clk, .supplyView, .box, .mon, .evt, .event, .htr, .bat, .sch, .moment, .chn, .rings, .prt]

theorem shedEvents_does (s : State) : Does suppliesParts (clockFollow s) (shedEvents (clockFollow s)) :=
  Does.mono (closeBetweenVotes_does _ _) (by decide)

theorem shedSupplies_does (s : State) : Does suppliesParts s (shedSupplies s) := by
  unfold shedSupplies
  refine Does.trans ?_ (Does.mono (evalSupplies_does _) (by decide))
  exact Does.trans (Does.mono (clockFollow_does s) (by decide)) (shedEvents_does s)

theorem shedSupplies_runs (s : State) : KeepsRuns s (shedSupplies s) :=
  ((KeepsRuns.of (clockFollow_does s) (by decide) (by decide)).trans (keepsRuns.closeBetweenVotes _ _)).trans
    (evalSupplies_runs _)

theorem shedSupplies_clk (s : State) : (shedSupplies s).clk = (clockFollow s).clk :=
  (clk_of (evalSupplies_does _) (by decide)).trans (clk_of (closeBetweenVotes_does _ _) (by decide))

theorem gradeOf_congr {a b : Disc} (same : a = .unset ↔ b = .unset) (u : Nat) : gradeOf a u = gradeOf b u := by
  cases a <;> cases b <;> simp_all [gradeOf]

/-- A clock that enters HOLDOVER keeps its grade. -/
theorem clockFollow_stamp {s : State} (shed : s.bat.power = .shed) : (clockFollow s).stamp = s.stamp := by
  obtain ⟨secs, tick, -⟩ := (clockFollow_does s).frame .time (by decide)
  have unset : (clockFollow s).clk.disc = .unset ↔ s.clk.disc = .unset := by
    rw [clockFollow_shed shed]
    split
    · exact .rfl
    · obtain ⟨-, runs, rests⟩ := gnssOff_cause (s := s) (reason := .shed) (.inl rfl) .shedOff
      cases h : s.clk.disc with
      | unset => rw [(rests (.inl h)).1, h]
      | holdover => rw [(rests (.inr h)).1, h]
      | acquire => rw [(runs (.inl h)).1]; decide
      | track => rw [(runs (.inr h)).1]; decide
  unfold State.stamp State.now State.grade
  rw [secs, tick, clockFollow_u, gradeOf_congr unset]

/-- A close leaves no record and the notes as they are. -/
theorem closeRecord_leaves (f : EvFlags → EvFlags) (strobe : Nat) (stamp : Stamp) (after : EvState) (s : State) :
    (closeRecord f strobe stamp after s).evt.record = none ∧ (closeRecord f strobe stamp after s).evt.notes = s.evt.notes := by
  cases record : s.evt.record with
  | none =>
    unfold closeRecord
    rw [record]
    exact ⟨record, rfl⟩
  | some r =>
    rw [closeRecord_evt record]
    exact ⟨rfl, rfl⟩

theorem closeBetweenVotes_notes (f : EvFlags → EvFlags) (s : State) : (closeBetweenVotes f s).evt.notes = s.evt.notes := by
  unfold closeBetweenVotes
  split
  · exact (closeRecord_leaves _ _ _ _ s).2
  · rfl

/-- Entry to SHED closes the record in progress; the ports that stop add nothing to it. -/
theorem shedSupplies_event {s : State} (shed : s.bat.power = .shed) (quiet : s.evt.notes = []) :
    (shedSupplies s).evt.state = .idle
    ∧ (s.evt.state = .opened ∨ s.evt.state = .closing → (shedSupplies s).evt.record = none ∧ ∀ r k, s.evt.record = some r →
        s.evt.lastVoted = some k → (shedSupplies s).evt.list.getLast? = some { r with
          state := .closed, close := some ⟨s.stamp, k.strobe, Machine.dist r.openStrobe k.strobe / s.sch.rate⟩,
          flags := { r.flags with shed := true } }) := by
  have follow : (clockFollow s).evt = s.evt := evt_of (clockFollow_does s) (by decide)
  have sch : (clockFollow s).sch = s.sch := sch_of (clockFollow_does s) (by decide)
  have stamp := clockFollow_stamp shed
  have idle : (shedEvents (clockFollow s)).evt.state = .idle := closeBetweenVotes_state _ _
  have closed (active : s.evt.state = .opened ∨ s.evt.state = .closing) :
      shedEvents (clockFollow s) = closeRecord (fun f => { f with shed := true }) (clockFollow s).lastStrobe s.stamp .idle
        (clockFollow s) := by
    rw [← stamp]
    exact closeBetweenVotes_active (by rw [follow]; exact active)
  have notes : (shedEvents (clockFollow s)).evt.notes = [] := by
    have kept : (shedEvents (clockFollow s)).evt.notes = (clockFollow s).evt.notes := closeBetweenVotes_notes _ _
    rw [kept, follow, quiet]
  obtain ⟨-, state, record, list⟩ := evalSupplies_quiet notes
  unfold shedSupplies
  rw [state, record, list]
  refine ⟨idle, fun active => ?_⟩
  rw [closed active]
  generalize clockFollow s = u at *
  refine ⟨(closeRecord_leaves _ _ _ _ u).1, fun r k held voted => ?_⟩
  have held : u.evt.record = some r := by rw [follow]; exact held
  rw [closeRecord_evt held, lastStrobe_eq (k := k) (by rw [follow]; exact voted), ← sch]
  exact List.getLast?_concat

/-- The entry to SHED as a whole. -/
theorem handShed_cut {s : State} (shed : s.bat.power = .shed) : Cut s (handShed s) := by
  have before := shedSupplies_does s
  have runs := shedSupplies_runs s
  have unpowered : (shedSupplies s).bat.power = .shed := (before.frame .power (by decide)).1.trans shed
  have event := shedSupplies_event (s := s) shed
  have clk := shedSupplies_clk s
  have ports (p : PortId) : (shedSupplies s).prt[p].link = .off ∧ (shedSupplies s).prt[p].window =
      if s.prt[p].link = .off then s.prt[p].window else none := by
    have closed : Does suppliesParts s (shedEvents (clockFollow s)) :=
      Does.trans (Does.mono (clockFollow_does s) (by decide)) (shedEvents_does s)
    have prt : (shedEvents (clockFollow s)).prt = s.prt :=
      (prt_of (closeBetweenVotes_does _ _) (by decide)).trans (prt_of (clockFollow_does s) (by decide))
    have power : (shedEvents (clockFollow s)).bat.power = .shed := (closed.frame .power (by decide)).1.trans shed
    have off := evalSupplies_off (s := shedEvents (clockFollow s)) (p := p) fun k => by cases power.symm.trans k.2
    rw [prt] at off
    exact off
  have skipped := cutCal_skipped runs (params_of before (by decide)) (osc_of before (by decide))
  have whole : handShed s = heaterFollow (modemShed (cutCal (shedSupplies s))) := rfl
  rw [whole]
  generalize shedSupplies s = v at *
  have cut : Does [.sch, .chn, .evt] v (cutCal v) := cutCal_does v
  have seen := cut.frame .event (by decide)
  have bat : (modemShed (cutCal v)).bat = v.bat := (bat_of (modemShed_does _) (by decide)).trans (bat_of cut (by decide))
  have htr : (modemShed (cutCal v)).htr = v.htr := (htr_of (modemShed_does _) (by decide)).trans (htr_of cut (by decide))
  obtain ⟨link, entries⟩ := modemShed_cut (cutCal v)
  obtain ⟨state, quenched⟩ := heaterFollow_shed (s := modemShed (cutCal v)) (by rw [bat]; exact unpowered)
  have last := heaterFollow_does (modemShed (cutCal v))
  have middle := modemShed_does (cutCal v)
  have clkLast := clk_of last (by decide)
  have clkMiddle := clk_of middle (by decide)
  have prtLast := prt_of last (by decide)
  have prtMiddle := prt_of middle (by decide)
  have mdmLast := mdm_of last (by decide)
  have boxLast := box_of last (by decide)
  have schLast := sch_of last (by decide)
  have schMiddle := sch_of middle (by decide)
  have evtLast := evt_of last (by decide)
  have evtMiddle := evt_of middle (by decide)
  rw [htr] at state quenched
  have clkCut := clk_of cut (by decide)
  have prtCut := prt_of cut (by decide)
  generalize heaterFollow (modemShed (cutCal v)) = t at *
  generalize modemShed (cutCal v) = m at *
  generalize cutCal v = c at *
  obtain ⟨eState, eRecord, eList, -⟩ := seen
  have clock : t.clk = if s.clk.supply = .shedOff then s.clk else (holdoverCause .shed (supplyOff .shedOff s)).clk := by
    rw [clkLast, clkMiddle, clkCut, clk, clockFollow_shed shed]
  refine ⟨?_, fun off => ?_, fun p => ?_, ?_, ?_, ?_, ?_, ?_, fun quiet => ?_⟩
  · rw [clock]
    by_cases off : s.clk.supply = .shedOff
    · rw [if_pos off, off]
    · rw [if_neg off, holdoverCause_supply]
  · rw [clock, if_neg off]
    exact gnssOff_cause (.inl rfl) _
  · rw [prtLast, prtMiddle, prtCut]
    exact ports p
  · rw [mdmLast, link]
  · rw [boxLast]
    exact entries
  · rw [state]
    exact if_congr runs.shutdown rfl rfl
  · intro heats
    refine quenched ?_
    cases h : v.htr.state with
    | shutdown => rw [runs.shutdown.mp h] at heats; rcases heats with k | k <;> cases k
    | off => rw [runs.off.mp h] at heats; rcases heats with k | k <;> cases k
    | regulate => exact .inl rfl
    | held => exact .inr rfl
  · unfold Skipped
    rw [schLast, schMiddle]
    exact skipped
  · rw [evtLast, evtMiddle, eState, eRecord, eList]
    exact event quiet

/-! ### What the return to RUN restores (R144) -/

def Restored (s t : State) : Prop :=
  (s.clk.supply = .shedOff → t.clk.supply = (if s.bat.cls = .normal then .continuous else .session)
    ∧ t.clk.disc = s.clk.disc ∧ t.clk.reason = s.clk.reason ∧ (s.bat.cls ≠ .normal → t.clk.session = 0 ∧ t.clk.hold = 0))
  ∧ (∀ p : PortId, s.prt[p].link = .off →
      (Enabled s p → t.prt[p].link = .starting ∧ t.prt[p].startAt = s.osc) ∧ (¬ Enabled s p → t.prt[p].link = .off))
  ∧ ((∀ p : PortId, s.prt[p].link = .off) → (s.htr.state = .shutdown → t.htr = s.htr)
      ∧ (s.htr.state = .off → t.htr = { s.htr with state := if s.heatEnable = false then .off
          else if s.htr.hold.isSome = true then .held else .regulate }))
  ∧ t.mdm = s.mdm

/-- What the ports of a state after the clock has followed find. -/
theorem follow_enabled (s : State) : (clockFollow s).prt = s.prt ∧ (clockFollow s).osc = s.osc
    ∧ (clockFollow s).bat = s.bat ∧ (clockFollow s).htr = s.htr ∧ (clockFollow s).params = s.params
    ∧ ∀ p, Enabled (clockFollow s) p ↔ Enabled s p := by
  have does := clockFollow_does s
  have bat := bat_of does (by decide)
  have params := params_of does (by decide)
  exact ⟨prt_of does (by decide), osc_of does (by decide), bat, htr_of does (by decide), params,
    enabled_of params (by rw [bat])⟩

/-- The heater in RUN. -/
theorem heaterFollow_run {s : State} (run : s.bat.power = .run) : (s.htr.state = .shutdown → (heaterFollow s).htr = s.htr)
    ∧ (s.htr.state = .off → (heaterFollow s).htr = { s.htr with state := if s.heatEnable = false then .off
        else if s.htr.hold.isSome = true then .held else .regulate }) := by
  have due : s.heatOffDue = !s.heatEnable := by
    unfold State.heatOffDue
    rw [run]
    rfl
  obtain ⟨stays, resumes, -⟩ := heaterFollow_cases s
  refine ⟨fun shutdown => by rw [stays (.inl shutdown)], fun off => ?_⟩
  cases enabled : s.heatEnable with
  | false =>
    rw [stays (.inr (.inl ⟨off, by rw [due, enabled]; rfl⟩)), if_pos rfl, ← off]
  | true =>
    rw [resumes off (by rw [due, enabled]; rfl), if_neg (c := true = false) (by decide)]

theorem handRun_restored {s : State} (run : s.bat.power = .run) : Restored s (handRun s) := by
  obtain ⟨prt, osc, bat, htr, params, enabled⟩ := follow_enabled s
  have mdm : (handRun s).mdm = s.mdm := mdm_of (handRun_does s) (by decide)
  have supplies : (handRun s).prt = (evalSupplies (clockFollow s)).prt := prt_of (heaterFollow_does _) (by decide)
  have clk : (handRun s).clk = (clockFollow s).clk :=
    (clk_of (heaterFollow_does _) (by decide)).trans (clk_of (evalSupplies_does _) (by decide))
  have whole : handRun s = heaterFollow (evalSupplies (clockFollow s)) := rfl
  have on (p : PortId) := evalSupplies_on (s := clockFollow s) (p := p)
  have off (p : PortId) := evalSupplies_off (s := clockFollow s) (p := p)
  refine ⟨fun shedOff => ?_, fun p rests => ?_, fun rests => ?_, mdm⟩
  · rw [clk]
    by_cases normal : s.bat.cls = .normal
    · rw [clockFollow_normal run normal, if_neg (by rw [shedOff]; decide), if_pos normal]
      exact ⟨rfl, rfl, rfl, fun k => absurd normal k⟩
    · rw [clockFollow_below run normal, shedOff, if_neg normal]
      exact ⟨rfl, rfl, rfl, fun _ => ⟨rfl, rfl⟩⟩
  · rw [supplies]
    generalize clockFollow s = u at *
    have stopped : u.prt[p].link = .off := by rw [prt]; exact rests
    refine ⟨fun k => ?_, fun k => (off p fun d => k ((enabled p).mp d.1)).1⟩
    obtain ⟨link, startAt⟩ := on p ⟨(enabled p).mpr k, by rw [bat]; exact run⟩
    rw [link, if_pos stopped, startAt stopped, osc]
    exact ⟨rfl, rfl⟩
  · have only : Does [.prt] (clockFollow s) (evalSupplies (clockFollow s)) :=
      evalSupplies_from_off fun p => by rw [prt]; exact rests p
    have power := bat_of only (by decide)
    have heater := htr_of only (by decide)
    have settings := params_of only (by decide)
    rw [whole]
    generalize evalSupplies (clockFollow s) = v at *
    have follows := heaterFollow_run (s := v) (by rw [power, bat]; exact run)
    have enable : v.heatEnable = s.heatEnable := by
      unfold State.heatEnable
      rw [param_of_params (settings.trans params)]
    rw [heater, htr, enable] at follows
    exact follows

/-! ### A change of class within one power state (R142) -/

section Class
variable (s : State)

/-- A change of class: the clock and the supplies follow, a running calibration goes in CRITICAL. -/
theorem handClass_eq : handClass s = if s.bat.cls = .critical then cutCal (evalSupplies (clockFollow s))
    else evalSupplies (clockFollow s) := by
  have power := (evalSupplies_does (clockFollow s)).frame .power (by decide)
  have bat : (clockFollow s).bat = s.bat := bat_of (clockFollow_does s) (by decide)
  have cls : (evalSupplies (clockFollow s)).bat.cls = s.bat.cls := by rw [power.2.1, bat]
  unfold handClass
  dsimp only
  rw [cls]

theorem handClass_clk : (handClass s).clk = (clockFollow s).clk := by
  rw [handClass_eq]
  split
  · exact (clk_of (cutCal_does _) (by decide)).trans (clk_of (evalSupplies_does _) (by decide))
  · exact clk_of (evalSupplies_does _) (by decide)

theorem handClass_prt : (handClass s).prt = (evalSupplies (clockFollow s)).prt := by
  rw [handClass_eq]
  split
  · exact prt_of (cutCal_does _) (by decide)
  · rfl

/-- The supply in the class that is handed over. -/
theorem handClass_supply : (handClass s).clk.supply = (if s.bat.power = .shed then .shedOff else
    match s.clk.supply, s.bat.cls with
    | _, .normal => .continuous
    | .continuous, _ => .resting
    | .shedOff, _ => .session
    | x, _ => x) := by
  rw [handClass_clk]
  cases power : s.bat.power with
  | shed =>
    rw [clockFollow_shed power, if_pos rfl]
    by_cases off : s.clk.supply = .shedOff
    · rw [if_pos off, off]
    · rw [if_neg off, holdoverCause_supply]
  | run =>
    rw [if_neg (by decide)]
    by_cases normal : s.bat.cls = .normal
    · rw [clockFollow_normal power normal, normal]
      by_cases on : s.clk.supply = .continuous
      · rw [if_pos on, on]
      · rw [if_neg on]
        exact rfl
    · have rest : (supplyRest s).clk.supply = .resting := (supplyRest_supply s).1
      rw [clockFollow_below power normal]
      cases cls : s.bat.cls with
      | normal => exact absurd cls normal
      | low =>
        cases supply : s.clk.supply with
        | continuous => exact rest
        | shedOff => exact rfl
        | session => exact supply
        | resting => exact supply
      | critical =>
        cases supply : s.clk.supply with
        | continuous => exact rest
        | shedOff => exact rfl
        | session => exact supply
        | resting => exact supply

theorem handClass_links (p : PortId) :
    (s.bat.power = .run → Enabled s p → (handClass s).prt[p].link = if s.prt[p].link = .off then .starting else s.prt[p].link)
    ∧ (s.bat.power = .shed ∨ ¬ Enabled s p → (handClass s).prt[p].link = .off) := by
  obtain ⟨prt, -, bat, -, -, enabled⟩ := follow_enabled s
  rw [handClass_prt]
  generalize clockFollow s = u at *
  refine ⟨fun run k => ?_, fun k => (evalSupplies_off fun due => ?_).1⟩
  · rw [(evalSupplies_on ⟨(enabled p).mpr k, by rw [bat]; exact run⟩).1, prt]
  · rcases k with shed | k
    · rw [bat, shed] at due
      cases due.2
    · exact k ((enabled p).mp due.1)

theorem follow_runs : KeepsRuns s (evalSupplies (clockFollow s)) :=
  (KeepsRuns.of (clockFollow_does s) (by decide) (by decide)).trans (evalSupplies_runs _)

theorem handClass_skipped (critical : s.bat.cls = .critical) : Skipped s (handClass s) := by
  rw [handClass_eq, if_pos critical]
  exact cutCal_skipped (follow_runs s) ((params_of (evalSupplies_does _) (by decide)).trans (params_of (clockFollow_does s) (by decide)))
    ((osc_of (evalSupplies_does _) (by decide)).trans (osc_of (clockFollow_does s) (by decide)))

theorem cutCal_none {s : State} (none : s.runningCal = none) : cutCal s = s := by
  unfold cutCal
  rw [none]

/-- Without CRITICAL, or without a running calibration, the calibrations go on. -/
theorem handClass_cals (goes : s.bat.cls ≠ .critical ∨ s.runningCal = none) : (handClass s).sch.cals = s.sch.cals
    ∧ (handClass s).sch.lines = s.sch.lines ∧ (handClass s).sch.windows = s.sch.windows := by
  obtain ⟨⟨e, sch⟩, -, -⟩ := follow_runs s
  have same : (handClass s).sch = (evalSupplies (clockFollow s)).sch := by
    rw [handClass_eq]
    by_cases critical : s.bat.cls = .critical
    · have idle : s.runningCal = none := goes.resolve_left fun k => k critical
      have still : (evalSupplies (clockFollow s)).runningCal = none := by
        unfold State.runningCal
        rw [sch]
        exact idle
      rw [if_pos critical, cutCal_none still]
    · rw [if_neg critical]
  rw [same, sch]
  exact ⟨rfl, rfl, rfl⟩

end Class

/-! ### The class and the power state handed over together (R142 to R144) -/

/-- What a change of class leaves. -/
def ClassChanged (power : PowerState) (s t : State) : Prop :=
  t.clk.supply = (if power = .shed then .shedOff else match s.clk.supply, s.bat.cls with
    | _, .normal => .continuous
    | .continuous, _ => .resting
    | .shedOff, _ => .session
    | x, _ => x)
  ∧ (power = .run → s.bat.cls ≠ .normal → s.clk.supply = .continuous → t.clk.rest = 0 ∧ GnssOff .gnssOff s t.clk)
  ∧ (power = .run → s.bat.cls ≠ .normal → s.clk.supply = .session ∨ s.clk.supply = .resting → t.clk = s.clk)
  ∧ (power = .run → s.bat.cls = .normal → t.clk.disc = s.clk.disc ∧ t.clk.reason = s.clk.reason)
  ∧ (power = .shed → s.clk.supply = .shedOff → t.clk = s.clk)
  ∧ (∀ p : PortId, (power = .run → Enabled s p → t.prt[p].link = if s.prt[p].link = .off then .starting else s.prt[p].link)
      ∧ (power = .shed ∨ ¬ Enabled s p → t.prt[p].link = .off))
  ∧ (s.bat.cls = .critical → Skipped s t)
  ∧ (s.bat.cls ≠ .critical ∨ s.runningCal = none →
      t.sch.cals = s.sch.cals ∧ t.sch.lines = s.sch.lines ∧ t.sch.windows = s.sch.windows)
  ∧ t.mdm = s.mdm

theorem handClass_changed (s : State) : ClassChanged s.bat.power s (handClass s) := by
  refine ⟨handClass_supply s, fun run below on => ?_, fun run below elsewhere => ?_, fun run normal => ?_, fun shed off => ?_,
    handClass_links s, handClass_skipped s, handClass_cals s, mdm_of (handClass_does s) (by decide)⟩
  all_goals rw [handClass_clk]
  · rw [clockFollow_below run below, on]
    exact ⟨(supplyRest_supply s).2.1, gnssOff_cause (.inr rfl) .resting⟩
  · rw [clockFollow_below run below]
    rcases elsewhere with h | h <;> rw [h]
  · rw [clockFollow_normal run normal]
    split <;> exact ⟨rfl, rfl⟩
  · rw [clockFollow_shed shed, if_pos off]

section Over
variable {cls : BatClass} {power : PowerState} {s : State}

/-- The report of the class leaves what the readers look at. -/
theorem handOver_eq (cls : BatClass) (power : PowerState) (s : State) : ∃ b m, let w : State := { s with box := b, mon := m }
    reportClass s = w ∧ handOver cls power s =
      if s.bat.power ≠ power then (if s.bat.power = .shed then handShed w else handRun w)
      else if s.bat.cls ≠ cls then handClass w else w := by
  obtain ⟨b, m, e⟩ := reportClass_eq s
  refine ⟨b, m, e, ?_⟩
  unfold handOver
  rw [e]

theorem handOver_cut (shed : s.bat.power = .shed) (run : power = .run) : Cut s (handOver cls power s) := by
  obtain ⟨b, m, -, e⟩ := handOver_eq cls power s
  rw [e, if_pos (by rw [shed, run]; decide), if_pos shed]
  exact handShed_cut (s := { s with box := b, mon := m }) shed

theorem handOver_restored (run : s.bat.power = .run) (shed : power = .shed) : Restored s (handOver cls power s) := by
  obtain ⟨b, m, -, e⟩ := handOver_eq cls power s
  rw [e, if_pos (by rw [run, shed]; decide), if_neg (by rw [run]; decide)]
  exact handRun_restored (s := { s with box := b, mon := m }) run

theorem handOver_same (same : s.bat.power = power) (still : s.bat.cls = cls) : handOver cls power s = reportClass s := by
  obtain ⟨b, m, report, e⟩ := handOver_eq cls power s
  rw [e, if_neg (not_not.mpr same), if_neg (not_not.mpr still), report]

theorem handOver_changed (same : s.bat.power = power) (moved : s.bat.cls ≠ cls) :
    ClassChanged power s (handOver cls power s) := by
  obtain ⟨b, m, -, e⟩ := handOver_eq cls power s
  rw [e, if_neg (not_not.mpr same), if_pos moved, ← same]
  exact handClass_changed { s with box := b, mon := m }

end Over

theorem exec_shedEntry {s : State} (powered : s.powered = true) (run : s.bat.power = .run) (cutoff : 10 ≤ s.bat.cutoff) :
    exec .shedEntry s = .next (handShed { s with bat := s.bat.shed }) := by
  have e : exec .shedEntry s = execShedEntry s := rfl
  rw [e, execShedEntry, act_on powered, if_pos (by rw [run, decide_eq_true cutoff]; rfl)]

theorem exec_shedExit {s : State} (powered : s.powered = true) (shed : s.bat.power = .shed) (run : 60 ≤ s.bat.reconnect) :
    exec .shedExit s = .next (handRun { s with bat := s.bat.resume }) := by
  have e : exec .shedExit s = execShedExit s := rfl
  rw [e, execShedExit, act_on powered, if_pos (by rw [shed, decide_eq_true run]; rfl)]

/-- Settles O19: what SHED cuts, what RUN restores, and what follows the class. -/
theorem shedCutsAndRestoresTheLoads : Obligations.ShedCutsAndRestoresTheLoads := by
  unfold Obligations.ShedCutsAndRestoresTheLoads
  intro skipped enabled gnssOff cut restored
  refine ⟨fun s powered run cutoff => ?_, fun s powered shed reconnect => ?_, fun cls power s => ?_, fun s => ?_⟩
  · obtain ⟨state, -, -, runOff, runOn, sheds⟩ := (handShed_does { s with bat := s.bat.shed }).frame .power (by decide)
    exact ⟨_, exec_shedEntry powered run cutoff, state, by rw [state]; rfl, runOff, runOn, sheds,
      handShed_cut (s := { s with bat := s.bat.shed }) rfl⟩
  · obtain ⟨state, -, -, runOff, runOn, -⟩ := (handRun_does { s with bat := s.bat.resume }).frame .power (by decide)
    exact ⟨_, exec_shedExit powered shed reconnect, state, by rw [state]; rfl, runOff, runOn,
      handRun_restored (s := { s with bat := s.bat.resume }) rfl⟩
  · obtain ⟨state, kept, -⟩ := (handOver_does cls power s).frame .power (by decide)
    exact ⟨state, kept, handOver_cut, handOver_restored, handOver_same, handOver_changed⟩
  · exact ⟨(reportClass_does s).frame, reportClass_conds s⟩

end Sys2Proof.Proofs
end

