-- ==== Sys2Proof/Proofs/Captures.lean ====
section
/-! PROOFS. A PPS capture (R5 to R15, R17, R19, R22): what is judged, the seconds check before the steering, the steering by
discipline state; from these the settling of O25. -/
namespace Sys2Proof.Proofs

open Sys2Proof Sys2Proof.Machine Sys2Proof.Laws

/-! ### What the steps of the seconds and of the phase leave alone -/

/-- A change of the record's flags for a deferral. -/
def deferred (y : EvRecord) : EvRecord := { y with flags := { y.flags with stepDeferred := true } }

/-- What the operations of a capture keep: the settings, whether stepping is forbidden, the conditions, the record but for the
flag of a deferral. -/
structure KeepsStepping (s t : State) : Prop where
  params : t.params = s.params
  event : t.eventActive = s.eventActive
  cal : t.calRunning = s.calRunning
  mon : t.mon = s.mon
  record : ∀ y, s.evt.record = some y → t.evt.record = some y ∨ t.evt.record = some (deferred y)

theorem KeepsStepping.trans {s t u : State} (h : KeepsStepping s t) (k : KeepsStepping t u) : KeepsStepping s u where
  params := k.params.trans h.params
  event := k.event.trans h.event
  cal := k.cal.trans h.cal
  mon := k.mon.trans h.mon
  record y held := by
    rcases h.record y held with one | one
    · exact k.record y one
    · rcases k.record _ one with two | two
      · exact .inr two
      · exact .inr two

/-- An operation that leaves the settings, the events, the calibrations and the conditions. -/
theorem KeepsStepping.of {s t : State} (params : t.params = s.params) (evt : t.evt = s.evt) (cals : t.sch.cals = s.sch.cals)
    (mon : t.mon = s.mon) : KeepsStepping s t where
  params := params
  event := by unfold State.eventActive; rw [evt]
  cal := by unfold State.calRunning; rw [cals]
  mon := mon
  record y held := .inl (by rw [evt]; exact held)

/-- A clock and a moment put. -/
theorem KeepsStepping.put {s t : State} (h : KeepsStepping s t) (x : Clock) (m : Moment) :
    KeepsStepping s { t with clk := x, moment := m } := h.trans (.of rfl rfl rfl rfl)

theorem KeepsStepping.refl (s : State) : KeepsStepping s s := .of rfl rfl rfl rfl

theorem deferStep_stepping (s : State) : KeepsStepping s (deferStep s) where
  params := params_of (deferStep_does s) (by decide)
  event := by
    unfold deferStep flagRecord State.eventActive
    cases s.evt.record <;> rfl
  cal := by
    unfold State.calRunning
    rw [sch_of (deferStep_does s) (by decide)]
  mon := mon_of (deferStep_does s) (by decide)
  record y held := .inr (by rw [deferStep_record, held]; rfl)

theorem changeTime_stepping (x : Time) (s : State) : KeepsStepping s (changeTime x s) := by
  have does := changeTime_does x s
  refine .of (params_of does (by decide)) (evt_of does (by decide)) ?_ (mon_of does (by decide))
  unfold changeTime passNotBefores
  dsimp only
  split <;> rfl

theorem secondsCorrection_stepping (off : Int) (s : State) : KeepsStepping s (secondsCorrection off s) := by
  have moment := (KeepsStepping.refl s).put s.clk { s.moment with capture := false }
  unfold secondsCorrection
  dsimp only
  split
  · exact moment.trans (deferStep_stepping _)
  · exact (moment.trans (changeTime_stepping _ _)).put _ _

theorem secondsCheck_stepping (secs edge : Nat) (s : State) : KeepsStepping s (secondsCheck secs edge s) := by
  have put (x : Clock) : KeepsStepping s { s with clk := x, moment := { s.moment with capture := true } } :=
    (KeepsStepping.refl s).put x _
  have corrects (x : Clock) (off : Int) : KeepsStepping s (if x.mismatch = 3 then
      secondsCorrection off { s with clk := x, moment := { s.moment with capture := true } }
      else { s with clk := x, moment := { s.moment with capture := true } }) := by
    split
    · exact (put x).trans (secondsCorrection_stepping _ _)
    · exact put x
  unfold secondsCheck
  dsimp only
  by_cases zero : signed32 ((secs : Int) - edge) = 0
  · rw [if_pos zero]
    exact put _
  · rw [if_neg zero]
    by_cases known : s.clk.offset = some (signed32 ((secs : Int) - edge))
    · rw [if_pos known]
      exact corrects _ _
    · rw [if_neg known]
      exact corrects _ _

theorem secondsCheckIf_stepping (label : Option Nat) (edge : Nat) (s : State) :
    KeepsStepping s (secondsCheckIf label edge s) := by
  cases label with
  | none => exact .refl s
  | some secs => exact secondsCheck_stepping secs edge s

theorem phaseStep_stepping (e : Int) (s : State) : KeepsStepping s (phaseStep e s) := by
  unfold phaseStep
  dsimp only
  split
  · exact (((KeepsStepping.refl s).put _ s.moment).trans (deferStep_stepping _)).put _ _
  · exact (changeTime_stepping _ s).put _ _

theorem settleFlag_stepping (b : Bool) (s : State) : KeepsStepping s (settleFlag b s) := by
  unfold settleFlag
  split
  · exact .refl s
  · exact (KeepsStepping.refl s).put _ _

/-- What follows the phase step or the loop law. -/
theorem settled_stepping {s t : State} (h : KeepsStepping s t) (e : Int) (b : Bool) :
    KeepsStepping s (settleFlag b (if 8 ≤ (setUncertainty e t).clk.lock then enterTrack (setUncertainty e t)
      else setUncertainty e t)) := by
  refine .trans ?_ (settleFlag_stepping _ _)
  split
  · exact h.put _ _
  · exact h.put _ _

theorem acquireWork_stepping (e : Int) (s : State) : KeepsStepping s (acquireWork e s) := by
  unfold acquireWork
  dsimp only
  refine settled_stepping ?_ e _
  split
  · exact phaseStep_stepping e s
  · exact (KeepsStepping.refl s).put _ _

theorem trackCapture_stepping (e : Int) (edge : Nat) (label : Option Nat) (s : State) :
    KeepsStepping s (trackCapture e edge label s) := by
  refine .trans (secondsCheckIf_stepping label edge s) ?_
  unfold trackCapture
  dsimp only
  generalize secondsCheckIf label edge s = v
  have entered : KeepsStepping v (enterAcquire v) := (KeepsStepping.refl v).put _ _
  split
  · exact ((entered.trans (phaseStep_stepping e _)).put _ _).trans (settleFlag_stepping _ (setUncertainty e _))
  · have near (c : Prop) [Decidable c] (u : State) (h : KeepsStepping v u) :
        KeepsStepping v (setUncertainty e (if c then unlockTrack u else u)) := by
      split <;> exact h.put _ _
    refine .trans ?_ (settleFlag_stepping _ _)
    exact near _ _ ((KeepsStepping.refl v).put _ _)

/-- A step that has to wait leaves its flag in the record in progress. -/
theorem phaseStep_defers {e : Int} {s : State} (forbidden : s.eventActive = true ∨ s.calRunning = true) {y : EvRecord}
    (held : s.evt.record = some y) : (phaseStep e s).evt.record = some (deferred y) := by
  unfold phaseStep
  dsimp only
  rw [if_pos (show s.stepForbidden = true from stepForbidden_true forbidden), deferStep_record]
  exact congrArg (Option.map _) held

/-! ### The seconds check on the clock (R11) -/

/-- The correction of the seconds that a capture takes, by its label second and its edge second. -/
def correction (label : Option Nat) (edge : Nat) (s : State) : Option Int :=
  match label with
  | none => none
  | some secs =>
    let off := signed32 ((secs : Int) - edge)
    if off ≠ 0 ∧ s.clk.offset = some off ∧ 2 ≤ s.clk.mismatch ∧ s.eventActive = false ∧ s.calRunning = false then some off
    else none

/-- The seconds after a correction. -/
def correctedSeconds (c : Option Int) (secs : Nat) : Nat :=
  match c with
  | none => secs
  | some off => (((secs : Int) + off) % 4294967296).toNat

/-- The step count after a correction. -/
def correctedSteps (c : Option Int) (n : Nat) : Nat := if c.isSome = true then inc16 n else n

/-- The clock after the seconds check: at most the seconds and the steps of a correction, the two mismatch registers and the flag
have moved. -/
def checkedClock (c : Option Int) (m : Nat) (o : Option Int) (d : Bool) (x : Clock) : Clock :=
  { x with s := correctedSeconds c x.s, steps := correctedSteps c x.steps, mismatch := m, offset := o, stepDeferred := d }

theorem correction_none_of_forbidden {s : State} (forbidden : s.eventActive = true ∨ s.calRunning = true) (label : Option Nat)
    (edge : Nat) : correction label edge s = none := by
  cases label with
  | none => rfl
  | some secs =>
    refine if_neg fun ⟨_, _, _, idle, calm⟩ => ?_
    rw [idle, calm] at forbidden
    exact absurd forbidden (by decide)

/-- R11: three captures in a row with one offset bring the correction. -/
theorem third_iff {m : Nat} : min (m + 1) 3 = 3 ↔ 2 ≤ m := by omega

theorem secondsCheck_corrects (secs edge : Nat) (s : State) : ∃ m o d,
    (secondsCheck secs edge s).clk = checkedClock (correction (some secs) edge s) m o d s.clk := by
  rw [secondsCheck_clk]
  unfold correction
  dsimp only
  generalize signed32 ((secs : Int) - edge) = off
  by_cases zero : off = 0
  · rw [if_pos zero, if_neg fun k => k.1 zero]
    exact ⟨_, _, s.clk.stepDeferred, rfl⟩
  · rw [if_neg zero]
    by_cases third : (if s.clk.offset = some off then min (s.clk.mismatch + 1) 3 else 1) = 3
    · have known : s.clk.offset = some off := by
        by_contra unknown
        rw [if_neg unknown] at third
        omega
      rw [if_pos known] at third ⊢
      rw [if_pos third]
      by_cases forbidden : s.eventActive = true ∨ s.calRunning = true
      · rw [stepForbidden_true forbidden, if_pos rfl, if_neg fun k => by
          rw [k.2.2.2.1, k.2.2.2.2] at forbidden
          exact absurd forbidden (by decide)]
        exact ⟨_, _, _, rfl⟩
      · obtain ⟨idle, calm⟩ := not_or.mp forbidden
        rw [stepForbidden_false (Bool.eq_false_iff.mpr idle) (Bool.eq_false_iff.mpr calm), if_neg Bool.false_ne_true,
          if_pos ⟨zero, known, third_iff.mp third, Bool.eq_false_iff.mpr idle, Bool.eq_false_iff.mpr calm⟩]
        exact ⟨_, _, s.clk.stepDeferred, rfl⟩
    · have early : ¬ (off ≠ 0 ∧ s.clk.offset = some off ∧ 2 ≤ s.clk.mismatch ∧ s.eventActive = false
          ∧ s.calRunning = false) := fun k => third (by rw [if_pos k.2.1]; exact third_iff.mpr k.2.2.1)
      rw [if_neg third, if_neg early]
      exact ⟨_, _, s.clk.stepDeferred, rfl⟩

theorem secondsCheckIf_corrects (label : Option Nat) (edge : Nat) (s : State) : ∃ m o d,
    (secondsCheckIf label edge s).clk = checkedClock (correction label edge s) m o d s.clk
    ∧ (label = none → m = s.clk.mismatch ∧ o = s.clk.offset) := by
  cases label with
  | none => exact ⟨_, _, _, rfl, fun _ => ⟨rfl, rfl⟩⟩
  | some secs =>
    obtain ⟨m, o, d, clk⟩ := secondsCheck_corrects secs edge s
    exact ⟨m, o, d, clk, nofun⟩

/-! ### The capture as a whole -/

/-- The capture's state with its label consumed (R6). -/
def unlabelled (s : State) : State :=
  { s with clk := { s.clk with label := none }, moment := { s.moment with capture := false } }

/-- The supply is on and the capture not rejected by the window (R5). -/
abbrev Inside (x : Time) (s : State) : Prop := s.clk.disc ≠ .track ∨ (phaseError x.t).natAbs ≤ s.ppsWindow

section Judged
variable {x : Time} {since : Nat} {s : State}

theorem ppsCapture_off (off : s.clk.supply.on = false) : ppsCapture x since s = s := if_neg (by rw [off]; decide)

theorem ppsCapture_outside (on : s.clk.supply.on = true) (track : s.clk.disc = .track)
    (far : s.ppsWindow < (phaseError x.t).natAbs) :
    ppsCapture x since s = { s with mrk := { s.mrk with windowRej := inc16 s.mrk.windowRej } } := by
  unfold ppsCapture
  rw [if_pos on, if_pos ⟨track, far⟩]

theorem ppsCapture_inside (on : s.clk.supply.on = true) (inside : Inside x s) : ppsCapture x since s =
    reportClock (labelledCapture x since { s with moment := { s.moment with capture := false } }) := by
  unfold ppsCapture
  rw [if_pos on, if_neg fun k => inside.elim (fun h => h k.1) fun h => Nat.not_lt.mpr h k.2]

theorem labelledCapture_accepted (good : ∀ l, s.clk.label = some l → l.fix = 2) :
    labelledCapture x since { s with moment := { s.moment with capture := false } }
      = acceptedCapture x since (s.clk.label.map Label.secs) (unlabelled s) := by
  unfold labelledCapture
  dsimp only
  cases label : s.clk.label with
  | none => rfl
  | some l => exact if_pos (good l label)

theorem labelledCapture_unfixed {l : Label} (label : s.clk.label = some l) (bad : l.fix ≠ 2) :
    (labelledCapture x since { s with moment := { s.moment with capture := false } }).clk
      = { s.clk with label := none, unfixed := inc16 s.clk.unfixed } := by
  unfold labelledCapture
  dsimp only
  rw [label]
  dsimp only
  rw [if_neg bad]

theorem acceptedCapture_track {label : Option Nat} (track : s.clk.disc = .track) : acceptedCapture x since label s =
    trackCapture (phaseError x.t) (edgeSecond x) label { s with clk := { s.clk with watch := 0 } } := by
  unfold acceptedCapture
  rw [track]

theorem acceptedCapture_holdover {label : Option Nat} (holdover : s.clk.disc = .holdover) : acceptedCapture x since label s =
    acquireCapture (phaseError x.t) (edgeSecond x) label (reportClock (leaveHoldover s)) := by
  unfold acceptedCapture
  rw [holdover]

theorem acceptedCapture_unset {secs : Nat} (unset : s.clk.disc = .unset) :
    acceptedCapture x since (some secs) s = settingCapture secs since s := by
  unfold acceptedCapture
  rw [unset]

end Judged

/-! ### The steering of a running clock (R10, R13 to R15, R17) -/

/-- The state that the seconds check of a capture finds: its label consumed, its watch restarted (R6, R16). -/
structure Ready (s w : State) : Prop where
  params : w.params = s.params
  event : w.eventActive = s.eventActive
  cal : w.calRunning = s.calRunning
  record : w.evt.record = s.evt.record
  secs : w.clk.s = s.clk.s
  tick : w.clk.t = s.clk.t
  steps : w.clk.steps = s.clk.steps
  rate : w.clk.r = s.clk.r
  mismatch : w.clk.mismatch = s.clk.mismatch
  offset : w.clk.offset = s.clk.offset
  label : w.clk.label = none
  watch : w.clk.watch = 0

/-- What an accepted capture without a phase step leaves of the clock, its phase error being e and its correction c. -/
def Steered (e : Int) (c : Option Int) (s : State) (x : Clock) : Prop :=
  x.r = max (-2000) (min 2000 (s.clk.r - roundDiv (e * 100) (s.ppsPrescale * s.gainI)))
  ∧ x.c = max (-2000) (min 2000 (x.r - roundDiv (e * 100) (s.ppsPrescale * s.gainP)))
  ∧ x.u = e.natAbs * 100 + 100 ∧ x.watch = 0 ∧ x.label = none ∧ x.t = s.clk.t
  ∧ x.s = correctedSeconds c s.clk.s ∧ x.steps = correctedSteps c s.clk.steps
  ∧ (x.mismatch ≠ 3 → x.stepDeferred = false)
  ∧ (s.clk.label = none → x.mismatch = s.clk.mismatch ∧ x.offset = s.clk.offset)

/-- What an accepted capture with a phase step leaves, taken or waiting. -/
def Stepped (e : Int) (c : Option Int) (s t : State) : Prop :=
  t.clk.disc = .acquire ∧ t.clk.lock = 0 ∧ t.clk.watch = 0 ∧ t.clk.u = e.natAbs * 100 + 100 ∧ t.clk.r = s.clk.r
  ∧ t.clk.label = none ∧ (s.clk.disc ≠ .acquire → t.clk.hold = 0)
  ∧ (s.eventActive = false → s.calRunning = false →
      t.clk.s = (((s.clk.s : Int) + c.getD 0 + ((s.clk.t : Int) - e) / 10000000) % 4294967296).toNat
      ∧ t.clk.t = (((s.clk.t : Int) - e) % 10000000).toNat ∧ t.clk.c = s.clk.r
      ∧ t.clk.steps = (if c.isSome = true then inc16 (inc16 s.clk.steps) else inc16 s.clk.steps))
  ∧ (s.eventActive = true ∨ s.calRunning = true →
      t.clk.s = s.clk.s ∧ t.clk.t = s.clk.t ∧ t.clk.stepDeferred = true ∧ t.clk.steps = s.clk.steps
      ∧ t.clk.c = (if 0 < e then -2000 else 2000)
      ∧ ∀ y, s.evt.record = some y → t.evt.record = some (deferred y))

theorem settleFlag_evt (b : Bool) (s : State) : (settleFlag b s).evt = s.evt := by
  unfold settleFlag
  split <;> rfl

theorem acquireWork_far_evt {e : Int} {v : State} (far : v.stepThreshold < e.natAbs) : (acquireWork e v).evt = (phaseStep e v).evt := by
  have needed : v.stepNeeded e = true := decide_eq_true far
  unfold acquireWork
  dsimp only
  rw [settleFlag_evt, needed, if_pos rfl]
  split <;> rfl

/-- Whatever its phase error a capture in ACQUIRE keeps the reason and the model of HOLDOVER as the exit left them. -/
theorem acquire_model (e : Int) (edge : Nat) (label : Option Nat) (w : State) :
    (acquireWork e (secondsCheckIf label edge w)).clk.reason = w.clk.reason
    ∧ (acquireWork e (secondsCheckIf label edge w)).clk.rLoss = w.clk.rLoss
    ∧ (acquireWork e (secondsCheckIf label edge w)).clk.tLoss = w.clk.tLoss := by
  obtain ⟨m, o, d, clk, -⟩ := secondsCheckIf_corrects label edge w
  have checked : (secondsCheckIf label edge w).clk.reason = w.clk.reason
      ∧ (secondsCheckIf label edge w).clk.rLoss = w.clk.rLoss ∧ (secondsCheckIf label edge w).clk.tLoss = w.clk.tLoss := by
    rw [clk]
    exact ⟨rfl, rfl, rfl⟩
  generalize secondsCheckIf label edge w = v at *
  rcases Nat.lt_or_ge v.stepThreshold e.natAbs with far | near
  · rw [acquireWork_far e v far, phaseStep_clk]
    split <;> exact checked
  · rw [acquireWork_near e v near]
    dsimp only
    generalize (if e.natAbs ≤ v.lockWindow then min (v.clk.lock + 1) 8 else 0) = n
    split <;> exact checked

section Steer
variable {e : Int} {edge : Nat} {label : Option Nat} {s w : State} (ready : Ready s w)
include ready

theorem Ready.correction : correction label edge w = correction label edge s := by
  unfold Proofs.correction
  rw [ready.offset, ready.mismatch, ready.event, ready.cal]

/-- The settings that the steering reads. -/
theorem Ready.settings {v : State} (params : v.params = w.params) : v.stepThreshold = s.stepThreshold
    ∧ v.lockWindow = s.lockWindow ∧ v.ppsPrescale = s.ppsPrescale ∧ v.gainI = s.gainI ∧ v.gainP = s.gainP := by
  have same := params.trans ready.params
  unfold State.stepThreshold State.lockWindow State.ppsPrescale State.gainI State.gainP
  simp only [param_of_params same, and_self]

/-- ACQUIRE without a phase step. -/
theorem acquire_near (near : e.natAbs ≤ s.stepThreshold) (some : s.clk.label = none → label = none) :
    let n := if e.natAbs ≤ s.lockWindow then min (w.clk.lock + 1) 8 else 0
    let x := (acquireWork e (secondsCheckIf label edge w)).clk
    Steered e (correction label edge s) s x ∧ x.disc = (if 8 ≤ n then .track else w.clk.disc) ∧ x.lock = (if 8 ≤ n then 0 else n)
    ∧ (8 ≤ n → x.unlock = 0) := by
  obtain ⟨m, o, d, clk, unlabelled⟩ := secondsCheckIf_corrects label edge w
  obtain ⟨threshold, window, prescale, gainI, gainP⟩ := ready.settings (secondsCheckIf_stepping label edge w).params
  rw [ready.correction] at clk
  generalize secondsCheckIf label edge w = v at *
  rw [acquireWork_near e v (by rw [threshold]; exact near), clk, window, prescale, gainI, gainP]
  dsimp only [checkedClock]
  generalize (if e.natAbs ≤ s.lockWindow then min (w.clk.lock + 1) 8 else 0) = n
  have settled : m ≠ 3 → (d && decide (m = 3)) = false := fun k => by rw [decide_eq_false k, Bool.and_false]
  have kept : s.clk.label = none → m = s.clk.mismatch ∧ o = s.clk.offset := fun k => by
    rw [← ready.mismatch, ← ready.offset]
    exact unlabelled (some k)
  rw [ready.rate, ready.secs, ready.steps]
  unfold Steered
  by_cases full : 8 ≤ n
  · rw [if_pos full, if_pos full, if_pos full]
    exact ⟨⟨rfl, rfl, rfl, ready.watch, ready.label, ready.tick, rfl, rfl, settled, kept⟩, rfl, rfl, fun _ => rfl⟩
  · rw [if_neg full, if_neg full, if_neg full]
    exact ⟨⟨rfl, rfl, rfl, ready.watch, ready.label, ready.tick, rfl, rfl, settled, kept⟩, rfl, rfl, fun k => absurd k full⟩

/-- TRACK without a phase step. -/
theorem track_near (near : e.natAbs ≤ s.stepThreshold) (some : s.clk.label = none → label = none) :
    let n := if s.lockWindow < e.natAbs then min (w.clk.unlock + 1) 4 else 0
    let x := (trackCapture e edge label w).clk
    Steered e (correction label edge s) s x ∧ x.disc = (if 4 ≤ n then .acquire else w.clk.disc) ∧ x.unlock = (if 4 ≤ n then 0 else n)
    ∧ (4 ≤ n → x.lock = 0) := by
  obtain ⟨m, o, d, clk, unlabelled⟩ := secondsCheckIf_corrects label edge w
  obtain ⟨threshold, window, prescale, gainI, gainP⟩ := ready.settings (v := w) rfl
  rw [ready.correction] at clk
  rw [trackCapture_near e edge label w (by rw [threshold]; exact near), clk, window, prescale, gainI, gainP]
  dsimp only [checkedClock]
  generalize (if s.lockWindow < e.natAbs then min (w.clk.unlock + 1) 4 else 0) = n
  have settled : m ≠ 3 → (d && decide (m = 3)) = false := fun k => by rw [decide_eq_false k, Bool.and_false]
  have kept : s.clk.label = none → m = s.clk.mismatch ∧ o = s.clk.offset := fun k => by
    rw [← ready.mismatch, ← ready.offset]
    exact unlabelled (some k)
  rw [ready.rate, ready.secs, ready.steps]
  unfold Steered
  by_cases full : 4 ≤ n
  · rw [if_pos full, if_pos full, if_pos full]
    exact ⟨⟨rfl, rfl, rfl, rfl, ready.label, ready.tick, rfl, rfl, settled, kept⟩, rfl, rfl, fun _ => rfl⟩
  · rw [if_neg full, if_neg full, if_neg full]
    exact ⟨⟨rfl, rfl, rfl, ready.watch, ready.label, ready.tick, rfl, rfl, settled, kept⟩, rfl, rfl, fun k => absurd k full⟩

/-- The phase step of a checked state u that has entered ACQUIRE, and what follows it. -/
theorem stepped_of {c : Option Int} {u t : State} (some : e ≠ 0) (checked : KeepsStepping w u) (corrected : c = correction label edge s)
    (disc : u.clk.disc = .acquire) (watch : u.clk.watch = 0) (hold : s.clk.disc ≠ .acquire → u.clk.hold = 0)
    (secs : u.clk.s = correctedSeconds c s.clk.s) (tick : u.clk.t = s.clk.t) (steps : u.clk.steps = correctedSteps c s.clk.steps)
    (rate : u.clk.r = s.clk.r) (consumed : u.clk.label = none) {b : Bool} (evt : t.evt = (phaseStep e u).evt)
    (clk : t.clk = { (phaseStep e u).clk with
      u := e.natAbs * 100 + 100
      stepDeferred := (phaseStep e u).clk.stepDeferred && ((u.eventActive || u.calRunning) || b) }) : Stepped e c s t := by
  obtain ⟨lock, disc', rate', -, watch', label', hold'⟩ := phaseStep_same e u
  have event : u.eventActive = s.eventActive := checked.event.trans ready.event
  have cal : u.calRunning = s.calRunning := checked.cal.trans ready.cal
  rw [Stepped, clk]
  refine ⟨disc'.trans disc, lock, watch'.trans watch, rfl, rate'.trans rate, label'.trans consumed,
    fun k => hold'.trans (hold k), fun idle calm => ?_, fun forbidden => ?_⟩
  · rw [phaseStep_taken e (event.trans idle) (cal.trans calm), secs, tick, steps]
    refine ⟨?_, rfl, rate, ?_⟩
    · cases c with
      | none => simp only [correctedSeconds, Option.getD_none, Int.add_zero]
      | some off =>
        simp only [correctedSeconds, Option.getD_some]
        omega
    · cases c <;> rfl
  · have halts : u.eventActive = true ∨ u.calRunning = true := by rw [event, cal]; exact forbidden
    have plain : c = none := corrected.trans (correction_none_of_forbidden forbidden _ _)
    rw [phaseStep_deferred halts some, stepForbidden_true halts, secs, tick, steps, plain]
    refine ⟨rfl, rfl, rfl, rfl, rfl, fun y held => ?_⟩
    rw [evt]
    have recorded : u.evt.record = Option.some y ∨ u.evt.record = Option.some (deferred y) :=
      checked.record y (ready.record.trans held)
    rcases recorded with once | once
    · exact phaseStep_defers halts once
    · exact (phaseStep_defers halts once).trans rfl

/-- ACQUIRE, also just entered from HOLDOVER, with a phase step. -/
theorem acquire_far (far : s.stepThreshold < e.natAbs) (disc : w.clk.disc = .acquire)
    (hold : s.clk.disc ≠ .acquire → w.clk.hold = 0) :
    Stepped e (correction label edge s) s (acquireWork e (secondsCheckIf label edge w)) := by
  obtain ⟨m, o, d, clk, -⟩ := secondsCheckIf_corrects label edge w
  have checked := secondsCheckIf_stepping label edge w
  obtain ⟨threshold, -⟩ := ready.settings checked.params
  rw [ready.correction] at clk
  generalize secondsCheckIf label edge w = v at *
  have far' : v.stepThreshold < e.natAbs := by rw [threshold]; exact far
  have some : e ≠ 0 := fun zero => by rw [zero] at far; exact Nat.not_lt_zero _ far
  have work := acquireWork_far e v far'
  refine stepped_of (u := v) (label := label) (edge := edge) ready some checked rfl ?_ ?_ ?_ ?_ ?_ ?_ ?_ ?_
    (acquireWork_far_evt far') work
  all_goals rw [clk]
  · exact disc
  · exact ready.watch
  · exact hold
  · rw [← ready.secs]
    rfl
  · exact ready.tick
  · rw [← ready.steps]
    rfl
  · exact ready.rate
  · exact ready.label

/-- Whatever its phase error a capture in ACQUIRE leaves a running clock. -/
theorem acquire_runs (disc : w.clk.disc = .acquire) (hold : s.clk.disc ≠ .acquire → w.clk.hold = 0) :
    (acquireWork e (secondsCheckIf label edge w)).clk.disc = .acquire
    ∨ (acquireWork e (secondsCheckIf label edge w)).clk.disc = .track := by
  rcases Nat.lt_or_ge s.stepThreshold e.natAbs with far | near
  · exact .inl (acquire_far ready far disc hold).1
  · obtain ⟨m, o, d, clk, -⟩ := secondsCheckIf_corrects label edge w
    obtain ⟨threshold, -⟩ := ready.settings (secondsCheckIf_stepping label edge w).params
    generalize secondsCheckIf label edge w = v at *
    rw [acquireWork_near e v (by rw [threshold]; exact near)]
    have same : v.clk.disc = .acquire := by
      rw [clk]
      exact disc
    dsimp only
    generalize (if e.natAbs ≤ v.lockWindow then min (v.clk.lock + 1) 8 else 0) = n
    split
    · exact .inr rfl
    · exact .inl same

/-- TRACK with a phase step. -/
theorem track_far (far : s.stepThreshold < e.natAbs) : Stepped e (correction label edge s) s (trackCapture e edge label w) := by
  obtain ⟨m, o, d, clk, -⟩ := secondsCheckIf_corrects label edge w
  have checked := secondsCheckIf_stepping label edge w
  obtain ⟨threshold, -⟩ := ready.settings (v := w) rfl
  obtain ⟨threshold', -⟩ := ready.settings checked.params
  have some : e ≠ 0 := fun zero => by rw [zero] at far; exact Nat.not_lt_zero _ far
  have work := trackCapture_far e edge label w (by rw [threshold]; exact far)
  have evt : (trackCapture e edge label w).evt = (phaseStep e (enterAcquire (secondsCheckIf label edge w))).evt := by
    have needed : (secondsCheckIf label edge w).stepNeeded e = true := decide_eq_true (by rw [threshold']; exact far)
    unfold trackCapture
    dsimp only
    rw [needed, if_pos rfl, settleFlag_evt]
    exact rfl
  rw [ready.correction] at clk
  generalize secondsCheckIf label edge w = v at *
  have entered : KeepsStepping v (enterAcquire v) := (KeepsStepping.refl v).put _ _
  refine stepped_of (u := enterAcquire v) (label := label) (edge := edge) ready some (checked.trans entered) rfl
    rfl rfl (fun _ => rfl) ?_ ?_ ?_ ?_ ?_ evt work
  all_goals
    unfold enterAcquire
    dsimp only
    rw [clk]
  · rw [← ready.secs]
    rfl
  · exact ready.tick
  · rw [← ready.steps]
    rfl
  · exact ready.rate
  · exact ready.label

end Steer

/-! ### By discipline state (R6) -/

section States
variable {s : State}

theorem ready_running (s : State) :
    Ready s { unlabelled s with clk := { (unlabelled s).clk with watch := 0 } } :=
  ⟨rfl, rfl, rfl, rfl, rfl, rfl, rfl, rfl, rfl, rfl, rfl, rfl⟩

/-- The state in which a HOLDOVER clock's capture is processed, its exit reported (R19, R22). -/
def leftHoldover (s : State) : State := reportClock (leaveHoldover (unlabelled s))

theorem leftHoldover_clk (s : State) : (leftHoldover s).clk = { s.clk with
    label := none, disc := .acquire, lock := 0, watch := 0, hold := 0, reason := none, rLoss := 0, tLoss := 0 } :=
  reportClock_clk _

theorem ready_holdover (s : State) : Ready s (leftHoldover s) := by
  have does := reportClock_does (leaveHoldover (unlabelled s))
  have evt : (leftHoldover s).evt = s.evt :=
    (evt_of does (by decide) : (leftHoldover s).evt = (leaveHoldover (unlabelled s)).evt)
  have sch : (leftHoldover s).sch = s.sch :=
    (sch_of does (by decide) : (leftHoldover s).sch = (leaveHoldover (unlabelled s)).sch)
  have params : (leftHoldover s).params = s.params :=
    (params_of does (by decide) : (leftHoldover s).params = (leaveHoldover (unlabelled s)).params)
  have clk := leftHoldover_clk s
  refine ⟨params, ?_, ?_, by rw [evt], ?_, ?_, ?_, ?_, ?_, ?_, ?_, ?_⟩
  · unfold State.eventActive
    rw [evt]
  · unfold State.calRunning
    rw [sch]
  all_goals rw [clk]

/-- The last change of PPS_LOST is the exit from HOLDOVER, where it was asserted. -/
theorem leftHoldover_lost (held : s.clk.disc = .holdover) (lost : s.mon.conds[(0 : CondId)].status = true) :
    (leftHoldover s).mon.conds[(0 : CondId)].status = false
    ∧ (leftHoldover s).mon.conds[(0 : CondId)].last = some s.stamp := by
  have moved : (leaveHoldover (unlabelled s)).mon.conds[(0 : CondId)].status ≠ false := by
    have same : (leaveHoldover (unlabelled s)).mon = s.mon := rfl
    rw [same, lost]
    decide
  have stamp : (leaveHoldover (unlabelled s)).stamp = s.stamp := by
    unfold State.stamp State.grade
    rw [held]
    exact rfl
  unfold leftHoldover
  rw [reportClock_lost]
  have status : lostStatus (leaveHoldover (unlabelled s)).clk = false := rfl
  rw [status, statusChange_row moved (.inl (by decide)), changedRow, stamp]
  exact ⟨rfl, rfl⟩

end States

/-! ### The capture of O25 -/

/-- The correction that the capture takes. -/
def captureCorrection (x : Time) (s : State) : Option Int := correction (s.clk.label.map Label.secs) (edgeSecond x) s

section Accepted
variable {x : Time} {since : Nat} {s : State} (on : s.clk.supply.on = true) (inside : Inside x s)
  (good : ∀ l, s.clk.label = some l → l.fix = 2)
include on inside

theorem capture_conds :
    ((ppsCapture x since s).mon.conds[(0 : CondId)].status = true
      ↔ (ppsCapture x since s).clk.disc = .holdover ∧ (ppsCapture x since s).clk.reason = some .ppsLoss)
    ∧ ((ppsCapture x since s).mon.conds[(1 : CondId)].status = true ↔ s.holdoverLimit * 1000 < (ppsCapture x since s).clk.u)
    ∧ ((ppsCapture x since s).mon.conds[(2 : CondId)].status = true ↔ (ppsCapture x since s).clk.disc = .unset) := by
  have does := labelledCapture_does x since { s with moment := { s.moment with capture := false } }
  have limit : (labelledCapture x since { s with moment := { s.moment with capture := false } }).holdoverLimit
      = s.holdoverLimit := congrArg Int.toNat (param_of_params (params_of does (by decide)) _)
  rw [ppsCapture_inside on inside]
  generalize labelledCapture x since { s with moment := { s.moment with capture := false } } = u at *
  obtain ⟨lost, uncertain, unset, -⟩ := reportClock_conds u
  rw [reportClock_clk, ← limit]
  exact ⟨lost, uncertain, unset⟩

include good

theorem capture_accepted :
    ppsCapture x since s = reportClock (acceptedCapture x since (s.clk.label.map Label.secs) (unlabelled s)) := by
  rw [ppsCapture_inside on inside, labelledCapture_accepted good]

theorem capture_acquire (acquire : s.clk.disc = .acquire) : ppsCapture x since s =
    reportClock (acquireWork (phaseError x.t) (secondsCheckIf (s.clk.label.map Label.secs) (edgeSecond x)
      { unlabelled s with clk := { (unlabelled s).clk with watch := 0 } })) := by
  rw [capture_accepted on inside good, acceptedCapture_acquire (s := unlabelled s) acquire]
  rfl

theorem capture_track (track : s.clk.disc = .track) : ppsCapture x since s =
    reportClock (trackCapture (phaseError x.t) (edgeSecond x) (s.clk.label.map Label.secs)
      { unlabelled s with clk := { (unlabelled s).clk with watch := 0 } }) := by
  rw [capture_accepted on inside good, acceptedCapture_track (s := unlabelled s) track]

theorem capture_holdover (holdover : s.clk.disc = .holdover) : ppsCapture x since s =
    reportClock (acquireWork (phaseError x.t) (secondsCheckIf (s.clk.label.map Label.secs) (edgeSecond x) (leftHoldover s))) := by
  rw [capture_accepted on inside good, acceptedCapture_holdover (s := unlabelled s) holdover]
  rfl

end Accepted

/-- The last change of PPS_LOST stays through the work of the capture. -/
theorem capture_lost {x : Time} {since : Nat} {s : State} (on : s.clk.supply.on = true)
    (good : ∀ l, s.clk.label = some l → l.fix = 2) (holdover : s.clk.disc = .holdover)
    (lost : s.mon.conds[(0 : CondId)].status = true) :
    (ppsCapture x since s).mon.conds[(0 : CondId)].last = some s.stamp := by
  obtain ⟨status, last⟩ := leftHoldover_lost holdover lost
  have disc : (leftHoldover s).clk.disc = .acquire := by rw [leftHoldover_clk]
  have check := secondsCheckIf_stepping (s.clk.label.map Label.secs) (edgeSecond x) (leftHoldover s)
  have work := acquireWork_stepping (phaseError x.t)
    (secondsCheckIf (s.clk.label.map Label.secs) (edgeSecond x) (leftHoldover s))
  have runs : lostStatus (acquireWork (phaseError x.t)
      (secondsCheckIf (s.clk.label.map Label.secs) (edgeSecond x) (leftHoldover s))).clk = false := by
    exact (acquire_runs (ready_holdover s) disc fun _ => by rw [leftHoldover_clk]).elim
      (fun h => by rw [lostStatus, h]; rfl) fun h => by rw [lostStatus, h]; rfl
  have mon := (check.trans work).mon
  rw [capture_holdover on (.inl (by rw [holdover]; decide)) good holdover]
  generalize acquireWork (phaseError x.t)
    (secondsCheckIf (s.clk.label.map Label.secs) (edgeSecond x) (leftHoldover s)) = u at *
  rw [reportClock_lost_kept (by rw [mon, status, runs]), mon, last]

/-- The label of fix 2 judged against the seconds of a running clock. -/
def SecondsJudged (e off : Int) (s t : State) : Prop :=
  t.clk.label = none
  ∧ (off = 0 → t.clk.mismatch = 0 ∧ t.clk.offset = none)
  ∧ (off ≠ 0 → s.clk.offset ≠ some off → t.clk.mismatch = 1 ∧ t.clk.offset = some off)
  ∧ (off ≠ 0 → s.clk.offset = some off → s.clk.mismatch < 2 →
      t.clk.mismatch = s.clk.mismatch + 1 ∧ t.clk.offset = some off)
  ∧ (off ≠ 0 → s.clk.offset = some off → 2 ≤ s.clk.mismatch →
    (s.eventActive = true ∨ s.calRunning = true →
      t.clk.mismatch = 3 ∧ t.clk.offset = some off ∧ t.clk.stepDeferred = true)
    ∧ (s.eventActive = false → s.calRunning = false → t.clk.mismatch = 0 ∧ t.clk.offset = none
      ∧ (e.natAbs ≤ s.stepThreshold → t.clk.s = (((s.clk.s : Int) + off) % 4294967296).toNat ∧ t.clk.t = s.clk.t
          ∧ t.clk.steps = inc16 s.clk.steps)))

theorem secondsJudged_of {e : Int} {secs edge : Nat} {s w t : State} (ready : Ready s w)
    (kept : Kept w e (secondsCheck secs edge w) t) : SecondsJudged e (signed32 ((secs : Int) - edge)) s t := by
  obtain ⟨mismatch, offset, label, flag, time⟩ := kept
  have clk := secondsCheck_clk secs edge w
  have threshold : w.stepThreshold = s.stepThreshold := (ready.settings (v := w) rfl).1
  rw [threshold] at time
  have labelled : (secondsCheck secs edge w).clk.label = none := by
    obtain ⟨m, o, d, checked⟩ := secondsCheck_corrects secs edge w
    rw [checked]
    exact ready.label
  generalize secondsCheck secs edge w = v at *
  generalize signed32 ((secs : Int) - edge) = off at *
  dsimp only at clk
  rw [ready.offset, ready.mismatch, ready.event, ready.cal, ready.secs, ready.steps] at clk
  refine ⟨label.trans labelled, fun zero => ?_, fun some unknown => ?_, fun some known few => ?_, fun some known two => ?_⟩
  · rw [if_pos zero] at clk
    rw [mismatch, offset, clk]
    exact ⟨rfl, rfl⟩
  · rw [if_neg some, if_neg unknown, if_neg (by decide)] at clk
    rw [mismatch, offset, clk]
    exact ⟨rfl, rfl⟩
  · have early : min (s.clk.mismatch + 1) 3 = s.clk.mismatch + 1 := by omega
    rw [if_neg some, if_pos known, early, if_neg (by omega)] at clk
    rw [mismatch, offset, clk]
    exact ⟨rfl, rfl⟩
  · rw [if_neg some, if_pos known, if_pos (third_iff.mpr two)] at clk
    refine ⟨fun forbidden => ?_, fun idle calm => ?_⟩
    · rw [stepForbidden_true forbidden, if_pos rfl] at clk
      rw [mismatch, offset]
      refine ⟨by rw [clk], by rw [clk], flag (by rw [clk]) (by rw [clk])⟩
    · rw [stepForbidden_false idle calm, if_neg Bool.false_ne_true] at clk
      rw [mismatch, offset]
      refine ⟨by rw [clk], by rw [clk], fun near => ?_⟩
      obtain ⟨secs, tick, steps⟩ := time near
      rw [secs, tick, steps, clk]
      exact ⟨rfl, ready.tick, rfl⟩

section Running
variable {x : Time} {since : Nat} {s : State} (on : s.clk.supply.on = true) (inside : Inside x s)
  (good : ∀ l, s.clk.label = some l → l.fix = 2)
include on inside good

theorem capture_track_near (track : s.clk.disc = .track) (near : (phaseError x.t).natAbs ≤ s.stepThreshold) :
    let n := if s.lockWindow < (phaseError x.t).natAbs then min (s.clk.unlock + 1) 4 else 0
    Steered (phaseError x.t) (captureCorrection x s) s (ppsCapture x since s).clk
    ∧ (ppsCapture x since s).clk.disc = (if 4 ≤ n then .acquire else .track)
    ∧ (ppsCapture x since s).clk.unlock = (if 4 ≤ n then 0 else n) ∧ (4 ≤ n → (ppsCapture x since s).clk.lock = 0) := by
  have judged := track_near (edge := edgeSecond x) (ready_running s) near (fun h => by rw [h]; rfl :
    s.clk.label = none → s.clk.label.map Label.secs = none)
  rw [capture_track on inside good track, reportClock_clk]
  have disc : (unlabelled s).clk.disc = .track := track
  rw [disc] at judged
  exact judged

theorem capture_acquire_near (acquire : s.clk.disc = .acquire) (near : (phaseError x.t).natAbs ≤ s.stepThreshold) :
    let n := if (phaseError x.t).natAbs ≤ s.lockWindow then min (s.clk.lock + 1) 8 else 0
    Steered (phaseError x.t) (captureCorrection x s) s (ppsCapture x since s).clk
    ∧ (ppsCapture x since s).clk.disc = (if 8 ≤ n then .track else .acquire)
    ∧ (ppsCapture x since s).clk.lock = (if 8 ≤ n then 0 else n) ∧ (8 ≤ n → (ppsCapture x since s).clk.unlock = 0) := by
  obtain ⟨steered, disc, lock, unlock⟩ := acquire_near (edge := edgeSecond x) (ready_running s) near (fun h => by rw [h]; rfl :
    s.clk.label = none → s.clk.label.map Label.secs = none)
  have same : (unlabelled s).clk.disc = .acquire := acquire
  rw [same] at disc
  rw [capture_acquire on inside good acquire, reportClock_clk]
  exact ⟨steered, disc, lock, unlock⟩

theorem capture_far (set : s.clk.disc ≠ .unset) (far : s.stepThreshold < (phaseError x.t).natAbs) :
    Stepped (phaseError x.t) (captureCorrection x s) s (ppsCapture x since s) := by
  have reported {u : State} (h : Stepped (phaseError x.t) (captureCorrection x s) s u) :
      Stepped (phaseError x.t) (captureCorrection x s) s (reportClock u) := by
    have clk : (reportClock u).clk = u.clk := reportClock_clk u
    have evt : (reportClock u).evt = u.evt := evt_of (reportClock_does u) (by decide)
    unfold Stepped
    rw [clk, evt]
    exact h
  cases disc : s.clk.disc with
  | unset => exact absurd disc set
  | acquire =>
    rw [capture_acquire on inside good disc]
    exact reported (acquire_far (ready_running s) far disc fun k => absurd disc k)
  | track =>
    rw [capture_track on inside good disc]
    exact reported (track_far (ready_running s) far)
  | holdover =>
    rw [capture_holdover on inside good disc]
    exact reported (acquire_far (ready_holdover s) far (by rw [leftHoldover_clk]) fun _ => by rw [leftHoldover_clk])

theorem capture_leaves_holdover (holdover : s.clk.disc = .holdover) :
    (ppsCapture x since s).clk.reason = none ∧ (ppsCapture x since s).clk.rLoss = 0 ∧ (ppsCapture x since s).clk.tLoss = 0
    ∧ ((phaseError x.t).natAbs ≤ s.stepThreshold →
      Steered (phaseError x.t) (captureCorrection x s) s (ppsCapture x since s).clk
      ∧ (ppsCapture x since s).clk.disc = .acquire
      ∧ (ppsCapture x since s).clk.lock = (if (phaseError x.t).natAbs ≤ s.lockWindow then 1 else 0)) := by
  have clk := leftHoldover_clk s
  have lock : (leftHoldover s).clk.lock = 0 := by rw [clk]
  have disc : (leftHoldover s).clk.disc = .acquire := by rw [clk]
  have model : (leftHoldover s).clk.reason = none ∧ (leftHoldover s).clk.rLoss = 0 ∧ (leftHoldover s).clk.tLoss = 0 := by
    rw [clk]
    exact ⟨rfl, rfl, rfl⟩
  obtain ⟨reason, rLoss, tLoss⟩ := acquire_model (phaseError x.t) (edgeSecond x) (s.clk.label.map Label.secs)
    (leftHoldover s)
  rw [capture_holdover on inside good holdover, reportClock_clk]
  refine ⟨reason.trans model.1, rLoss.trans model.2.1, tLoss.trans model.2.2, fun near => ?_⟩
  obtain ⟨steered, ends, locks, -⟩ := acquire_near (edge := edgeSecond x) (ready_holdover s) near
    (fun h => by rw [h]; rfl : s.clk.label = none → s.clk.label.map Label.secs = none)
  have count : (if (phaseError x.t).natAbs ≤ s.lockWindow then min ((leftHoldover s).clk.lock + 1) 8 else 0)
      = if (phaseError x.t).natAbs ≤ s.lockWindow then 1 else 0 := by
    rw [lock]
    rfl
  have few : ¬ 8 ≤ if (phaseError x.t).natAbs ≤ s.lockWindow then 1 else 0 := by split <;> decide
  rw [count, if_neg few] at ends locks
  exact ⟨steered, ends.trans disc, locks⟩

theorem capture_seconds {l : Label} (runs : Runs s) (label : s.clk.label = some l) :
    SecondsJudged (phaseError x.t) (signed32 ((l.secs : Int) - edgeSecond x)) s (ppsCapture x since s) := by
  have reported {u : State} {e off : Int} (h : SecondsJudged e off s u) : SecondsJudged e off s (reportClock u) := by
    unfold SecondsJudged
    rw [reportClock_clk]
    exact h
  have secs : s.clk.label.map Label.secs = some l.secs := by rw [label]; rfl
  rcases runs with acquire | track
  · rw [capture_acquire on inside good acquire, secs]
    exact reported (secondsJudged_of (ready_running s) (acquireCapture_keeps _ _ (some l.secs) _))
  · rw [capture_track on inside good track, secs]
    exact reported (secondsJudged_of (ready_running s) (trackCapture_keeps _ _ (some l.secs) _))

end Running

/-- Settles O25: the capture rejected, discarded, setting the clock, checked against its seconds and steering, in each state. -/
theorem capturesAreJudgedAndSteer : Obligations.CapturesAreJudgedAndSteer := by
  unfold Obligations.CapturesAreJudgedAndSteer
  intro x since s e t inside accepted corrected steered
  have correct : corrected = captureCorrection x s := by
    show (match s.clk.label with | none => none | some l => _) = _
    unfold captureCorrection correction
    cases s.clk.label <;> rfl
  have fix {l : Label} (label : s.clk.label = some l) (good : l.fix = 2) : ∀ k, s.clk.label = some k → k.fix = 2 := fun k h => by
    rw [label] at h
    exact Option.some.inj h ▸ good
  have none_of (h : s.clk.label = none) : s.clk.label.map Label.secs = none := by rw [h]; rfl
  refine ⟨ppsCapture_off, ppsCapture_outside, fun l on ins label bad => ?unfixed, fun l on unset label good => ?setting,
    fun l on ins runs label good => ?seconds, fun ⟨on, ins, good⟩ track near => ?track, fun ⟨on, ins, good⟩ acquire near => ?acquire,
    fun ⟨on, ins, good⟩ set far => ?far, fun ⟨on, ins, good⟩ holdover => ?holdover, capture_conds⟩
  case unfixed =>
    show (ppsCapture x since s).clk = _
    rw [ppsCapture_inside on ins, reportClock_clk, labelledCapture_unfixed label bad]
  case setting =>
    have ins : Inside x s := .inl (by rw [unset]; decide)
    have clk := settingCapture_clk l.secs since (unlabelled s)
    have whole : t = reportClock (settingCapture l.secs since (unlabelled s)) := by
      show ppsCapture x since s = _
      rw [capture_accepted on ins (fix label good), label]
      exact congrArg _ (acceptedCapture_unset (s := unlabelled s) unset)
    have same : t.clk = (settingCapture l.secs since (unlabelled s)).clk := by rw [whole, reportClock_clk]
    rw [same, clk]
    refine ⟨fun idle calm => ?_, fun forbidden => ⟨?_, fun y held => ?_⟩⟩
    · exact if_neg (by rw [stepForbidden_false (s := unlabelled s) idle calm]; decide)
    · exact if_pos (stepForbidden_true (s := unlabelled s) forbidden)
    · have deferring : settingCapture l.secs since (unlabelled s) = deferStep (unlabelled s) :=
        if_pos (stepForbidden_true (s := unlabelled s) forbidden)
      rw [whole, deferring, evt_of (reportClock_does _) (by decide), deferStep_record]
      exact congrArg (Option.map _) held
  case seconds => exact capture_seconds on ins (fix label good) runs label
  case track =>
    obtain ⟨steering, disc, unlock, lock⟩ := capture_track_near on ins good track near
    rw [← correct] at steering
    exact ⟨steering, disc, unlock, lock⟩
  case acquire =>
    obtain ⟨steering, disc, lock, unlock⟩ := capture_acquire_near on ins good acquire near
    rw [← correct] at steering
    exact ⟨steering, disc, lock, unlock⟩
  case far =>
    rw [correct]
    exact capture_far on ins good set far
  case holdover =>
    obtain ⟨reason, rLoss, tLoss, near⟩ := capture_leaves_holdover on ins good holdover
    rw [← correct] at near
    exact ⟨reason, rLoss, tLoss, near, capture_lost on good holdover⟩

end Sys2Proof.Proofs
end

