-- ==== Sys2Proof/Proofs/StrobeIssue.lean ====
section
/-! PROOFS. A strobe issued (R34, R35, R45, R59, R60, R66, R87): the windows that close, the state in which it is numbered and
noted, the gaps of the channels that no port decides; from these the settling of O34. -/
namespace Sys2Proof.Proofs

open Sys2Proof Sys2Proof.Machine Sys2Proof.Laws

/-- The state at the strobe point, before anything is done. -/
def strobePoint (s : State) : State := { elapse (s.clk.cyclesTo s.strobeTick) s with moment := {} }

/-- Port q of s once its window has closed in v and the strobe has been numbered. -/
def reopened (s v : State) (q : PortId) : Port :=
  if s.prt[q].link = .off then v.prt[q] else { v.prt[q] with window := some s.sch.next, transfer := none }

/-- The strobe of s numbered and noted at the point u, its windows closed in v and open again, before any gap is written. -/
def issuedFrom (s u v : State) : State :=
  { v with
    prt := #v[reopened s v 0, reopened s v 1]
    evt := { v.evt with notes := v.evt.notes ++ [⟨s.sch.next, u.stamp⟩] }
    sch := { v.sch with
      next := (s.sch.next + 1) % 281474976710656
      last := some s.sch.next
      point := s.strobeTick + 10000000 / s.sch.rate
      sampleEnd := some (u.osc + 100)
      breakDue := false
      lastBreak := if s.sch.breakDue = true then some s.sch.next else s.sch.lastBreak
      breaks := if s.sch.breakDue = true then inc16 s.sch.breaks else s.sch.breaks } }

theorem issuedFrom_eq {s u v : State} (strobes : Part.strobes.same s v) (osc : v.osc = u.osc) (stamp : v.stamp = u.stamp)
    (off : ∀ q : PortId, v.prt[q].link = .off ↔ s.prt[q].link = .off) :
    { v with
      prt := #v[openedPort v.sch.next v.prt[(0 : PortId)], openedPort v.sch.next v.prt[(1 : PortId)]]
      evt := { v.evt with notes := v.evt.notes ++ [⟨v.sch.next, v.stamp⟩] }
      sch := (numberStrobe s.strobeTick v).sch } = issuedFrom s u v := by
  obtain ⟨next, -, -, -, rate, -, -, breakDue, lastBreak, breaks⟩ := strobes
  have port (q : PortId) : openedPort s.sch.next v.prt[q] = reopened s v q := if_congr (off q) rfl rfl
  unfold numberStrobe issuedFrom
  rw [next, port, port, stamp, osc, rate, breakDue, lastBreak, breaks]
  rfl

/-- The state of the strobe issued. -/
def strobeIssued (s : State) : State := issuedFrom s (strobePoint s) (closeWindows (strobePoint s))

section Strobe
variable (s : State)

theorem strobePoint_does : Does [.clk, .time, .osc, .moment] s (strobePoint s) :=
  Does.trans (elapse_does _ s) (Does.mono (Does.moment _ _) (by decide))

theorem closedWindows_does : Does portParts (strobePoint s) (closeWindows (strobePoint s)) := closeWindows_does _

/-- What the strobe point keeps. -/
theorem strobePoint_keeps : (strobePoint s).sch = s.sch ∧ (strobePoint s).prt = s.prt ∧ (strobePoint s).map = s.map
    ∧ (strobePoint s).rings = s.rings ∧ (strobePoint s).params = s.params := by
  have does := strobePoint_does s
  exact ⟨sch_of does (by decide), prt_of does (by decide), map_of does (by decide), rings_of does (by decide),
    params_of does (by decide)⟩

/-- The numbering after the windows have closed is that before it. -/
theorem closed_strobes : Part.strobes.same s (closeWindows (strobePoint s)) := by
  have same := (closedWindows_does s).frame .strobes (by decide)
  obtain ⟨sch, -⟩ := strobePoint_keeps s
  unfold Part.same at same ⊢
  rw [sch] at same
  exact same

theorem closed_off (q : PortId) : (closeWindows (strobePoint s)).prt[q].link = .off ↔ s.prt[q].link = .off := by
  have off := closeWindows_off (strobePoint s) q
  obtain ⟨-, prt, -⟩ := strobePoint_keeps s
  rw [prt] at off
  exact off

theorem closed_stamp : (closeWindows (strobePoint s)).stamp = (strobePoint s).stamp := by
  have clk : (closeWindows (strobePoint s)).clk = (strobePoint s).clk := clk_of (closedWindows_does s) (by decide)
  unfold State.stamp State.now State.grade
  rw [clk]

theorem issueStrobe_issued : issueStrobe s.strobeTick (strobePoint s) = writeUnsourced s.sch.next (strobeIssued s) := by
  have strobes := closed_strobes s
  have eq := issueStrobe_eq s.strobeTick (strobePoint s)
  have issued := issuedFrom_eq strobes (osc_of (closedWindows_does s) (by decide)) (closed_stamp s) (closed_off s)
  dsimp only at eq
  rw [issued, strobes.1] at eq
  exact eq

theorem strobeIssued_port (q : PortId) : (strobeIssued s).prt[q] = reopened s (closeWindows (strobePoint s)) q := by
  match q with
  | 0 => rfl
  | 1 => rfl

theorem reopened_link (q : PortId) : (reopened s (closeWindows (strobePoint s)) q).link = .off ↔ s.prt[q].link = .off := by
  have off := closed_off s q
  unfold reopened
  split <;> exact off

theorem strobeIssued_map : (strobeIssued s).map = s.map := by
  have closed : (closeWindows (strobePoint s)).map = (strobePoint s).map := map_of (closedWindows_does s) (by decide)
  obtain ⟨-, -, map, -⟩ := strobePoint_keeps s
  exact closed.trans map

theorem strobeIssued_sourcePort (c : Chan) : (strobeIssued s).sourcePort c = s.sourcePort c := by
  unfold State.sourcePort
  rw [strobeIssued_map]

theorem strobeIssued_unsourced (c : Chan) : (strobeIssued s).unsourced c = s.unsourced c := by
  rw [Bool.eq_iff_iff, unsourced_iff, unsourced_iff, strobeIssued_sourcePort]
  refine forall_congr' fun q => imp_congr_right fun _ => ?_
  rw [strobeIssued_port]
  exact reopened_link s q

/-- The gaps over the channels, which of them take one being fixed at the strobe. -/
theorem unsourcedGaps_fixed (k : Nat) (p : Chan → Bool) (l : List Chan) (s : State) (h : ∀ c, s.unsourced c = p c) :
    unsourcedGaps k l s = l.foldl (fun x c => if p c = true then writeGap c k x else x) s := by
  induction l generalizing s with
  | nil => rfl
  | cons d l ih =>
    rw [List.foldl_cons, unsourcedGaps, List.foldl_cons, h d]
    refine ih _ fun c => ?_
    split
    · rw [unsourced_writeGap]
      exact h c
    · exact h c

theorem strobe_fold : writeUnsourced s.sch.next (strobeIssued s) = allChans.foldl (fun x c =>
    if s.unsourced c = true then writeSlot c s.sch.next ⟨x.rings[c].previous s.sch.next, true, false⟩ x else x)
      (strobeIssued s) :=
  unsourcedGaps_fixed s.sch.next s.unsourced allChans (strobeIssued s) (strobeIssued_unsourced s)

theorem fold_none {α β : Type} {p : β → Prop} [DecidablePred p] (f : α → β → α) (h : ∀ b, ¬ p b) (l : List β) (a : α) :
    l.foldl (fun x b => if p b then f x b else x) a = a := by
  induction l with
  | nil => rfl
  | cons b l ih => rw [List.foldl_cons, if_neg (h b), ih]

/-- A strobe of which every channel has a port leaves the issued state. -/
theorem strobe_sourced (all : ∀ c, s.unsourced c = false) : writeUnsourced s.sch.next (strobeIssued s) = strobeIssued s := by
  rw [strobe_fold]
  exact fold_none _ (fun c k => by rw [all c] at k; cases k) _ _

end Strobe

/-! ### What the strobe leaves -/

section Leaves
variable (s : State)

/-- What the gaps of a strobe leave as the strobe's issue made it. -/
theorem strobe_keeps : (writeUnsourced s.sch.next (strobeIssued s)).prt = (strobeIssued s).prt
    ∧ (writeUnsourced s.sch.next (strobeIssued s)).osc = (strobeIssued s).osc
    ∧ Part.strobes.same (strobeIssued s) (writeUnsourced s.sch.next (strobeIssued s)) := by
  have does := writeUnsourced_does s.sch.next (strobeIssued s)
  exact ⟨prt_of does (by decide), osc_of does (by decide), does.frame .strobes (by decide)⟩

theorem strobeIssued_osc : (strobeIssued s).osc = (elapse (s.clk.cyclesTo s.strobeTick) s).osc := by
  have closed : (closeWindows (strobePoint s)).osc = (strobePoint s).osc := osc_of (closedWindows_does s) (by decide)
  exact closed

theorem strobeIssued_open {q : PortId} (on : s.prt[q].link ≠ .off) :
    (strobeIssued s).prt[q].window = some s.sch.next ∧ (strobeIssued s).prt[q].transfer = none := by
  rw [strobeIssued_port, reopened, if_neg on]
  exact ⟨rfl, rfl⟩

theorem strobeIssued_last (q : PortId) :
    (strobeIssued s).prt[q].last = if s.prt[q].window = none then s.prt[q].last else some .missing := by
  have port := closeWindows_port (strobePoint s) q
  obtain ⟨-, prt, -⟩ := strobePoint_keeps s
  rw [prt] at port
  have same : (reopened s (closeWindows (strobePoint s)) q).last = (closeWindows (strobePoint s)).prt[q].last := by
    unfold reopened
    split <;> rfl
  rw [strobeIssued_port, same, port]
  split <;> rfl

section Canonical
variable {s : State} (canonical : s.canonical)
include canonical

theorem strobePoint_canonical : (strobePoint s).canonical := canonical_of_does (strobePoint_does s) (by decide) canonical

theorem closed_canonical : (closeWindows (strobePoint s)).canonical :=
  canonical_of_does (closedWindows_does s) (by decide) (strobePoint_canonical canonical)

/-- The gap of the window that a port's strobe closes. -/
theorem closed_gap {c : Chan} {q : PortId} {k : Nat} (source : s.sourcePort c = some q) (window : s.prt[q].window = some k) :
    (closeWindows (strobePoint s)).rings[c].newest = some k
    ∧ (closeWindows (strobePoint s)).rings[c].slot k = ⟨s.rings[c].previous k, true, false⟩ := by
  have ring := closeWindows_ring (strobePoint s) (strobePoint_canonical canonical) c
  obtain ⟨-, prt, map, rings, -⟩ := strobePoint_keeps s
  have port : (strobePoint s).sourcePort c = some q := by
    unfold State.sourcePort
    rw [map]
    exact source
  rw [port] at ring
  dsimp only at ring
  rw [prt, window, rings] at ring
  rw [ring]
  exact ⟨rfl, (write_slot _ _ _ (canonical.1 c)).1⟩

theorem strobe_sourced_chan {c : Chan} (sourced : s.unsourced c = false) :
    (writeUnsourced s.sch.next (strobeIssued s)).rings[c] = (closeWindows (strobePoint s)).rings[c]
    ∧ (writeUnsourced s.sch.next (strobeIssued s)).chn[c] = (closeWindows (strobePoint s)).chn[c] := by
  have issued : (strobeIssued s).canonical := closed_canonical canonical
  obtain ⟨ring, chan⟩ := writeUnsourced_chan s.sch.next (strobeIssued s) issued c
  have no : ¬ (strobeIssued s).unsourced c = true := by
    rw [strobeIssued_unsourced, sourced]
    decide
  rw [if_neg no] at ring chan
  exact ⟨ring, chan⟩

/-- The gap of a channel that no port decides: its ring and what the Trigger Engine makes of it. -/
theorem strobe_unsourced_chan {c : Chan} (unsourced : s.unsourced c = true) :
    (writeUnsourced s.sch.next (strobeIssued s)).rings[c] = (closeWindows (strobePoint s)).rings[c].write s.sch.next
      ⟨(closeWindows (strobePoint s)).rings[c].previous s.sch.next, true, false⟩
    ∧ (writeUnsourced s.sch.next (strobeIssued s)).chn[c] = { ((closeWindows (strobePoint s)).chn[c].strobe s.sch.rate
        ((closeWindows (strobePoint s)).rings[c].previous s.sch.next)).chan with last := some s.sch.next } := by
  have issued : (strobeIssued s).canonical := closed_canonical canonical
  obtain ⟨ring, chan⟩ := writeUnsourced_chan s.sch.next (strobeIssued s) issued c
  have yes : (strobeIssued s).unsourced c = true := by
    rw [strobeIssued_unsourced]
    exact unsourced
  have rate : (strobeIssued s).sch.rate = s.sch.rate := (closed_strobes s).2.2.2.2.1
  rw [if_pos yes] at ring chan
  rw [rate] at chan
  exact ⟨ring, chan⟩

/-- The reports of the strobe where no other strobe waits for its vote. -/
theorem strobe_reports (notes : (closeWindows (strobePoint s)).evt.notes = []) (reports : (closeWindows (strobePoint s)).evt.reports = []) :
    let t := writeUnsourced s.sch.next (strobeIssued s)
    let note : Note := ⟨s.sch.next, (strobePoint s).stamp⟩
    ((∃ c, s.unsourced c = false) → t.evt.notes = [note] ∧ t.evt.reports.map Report.chan = allChans.filter s.unsourced
      ∧ ∀ r ∈ t.evt.reports, r.strobe = s.sch.next ∧ r.gap = true)
    ∧ ((∀ c, s.unsourced c = true) → t.evt.notes = [] ∧ t.evt.reports = [] ∧ t.evt.lastVoted = some note) := by
  have issued : (strobeIssued s).canonical := closed_canonical canonical
  have noted : (strobeIssued s).evt.notes = [⟨s.sch.next, (strobePoint s).stamp⟩] := by
    have e : (strobeIssued s).evt.notes
        = (closeWindows (strobePoint s)).evt.notes ++ [⟨s.sch.next, (strobePoint s).stamp⟩] := rfl
    rw [e, notes, List.nil_append]
  have gathered := writeUnsourced_reports s.sch.next _ (strobeIssued s) issued noted reports
  have fixed : (strobeIssued s).unsourced = s.unsourced := funext (strobeIssued_unsourced s)
  rw [fixed] at gathered
  exact gathered

end Canonical

theorem exec_strobe {s : State} (powered : s.powered = true) (started : s.sch.started = true) (point : s.strobeTick < 10000000) :
    exec .strobe s = .next (writeUnsourced s.sch.next (strobeIssued s)) := by
  have e : exec .strobe s = execStrobe s := rfl
  have due : (s.sch.started && decide (s.strobeTick < Config.ticks)) = true := by
    rw [started, Bool.true_and]
    exact decide_eq_true point
  rw [e, execStrobe, act_on powered]
  dsimp only
  rw [if_pos due]
  exact congrArg _ (issueStrobe_issued s)

end Leaves

/-- The numbers and the timing that the strobe leaves. -/
theorem strobe_numbers (s : State) : ∃ t, t = writeUnsourced s.sch.next (strobeIssued s)
    ∧ t.sch.next = (s.sch.next + 1) % 281474976710656 ∧ t.sch.last = some s.sch.next
    ∧ t.osc = (elapse (s.clk.cyclesTo s.strobeTick) s).osc ∧ t.sch.sampleEnd = some (t.osc + 100)
    ∧ t.sch.point = s.strobeTick + 10000000 / s.sch.rate ∧ t.sch.breakDue = false
    ∧ t.sch.breaks = (if s.sch.breakDue = true then inc16 s.sch.breaks else s.sch.breaks)
    ∧ t.sch.lastBreak = (if s.sch.breakDue = true then some s.sch.next else s.sch.lastBreak)
    ∧ (∀ q : PortId, s.prt[q].link ≠ .off → t.prt[q].window = some s.sch.next ∧ t.prt[q].transfer = none)
    ∧ ∀ q : PortId, t.prt[q].last = if s.prt[q].window = none then s.prt[q].last else some .missing := by
  obtain ⟨prt, osc, next, last, -, position, -, -, sampleEnd, breakDue, lastBreak, breaks⟩ := strobe_keeps s
  have reached := strobeIssued_osc s
  have opened := @strobeIssued_open s
  have lasts := strobeIssued_last s
  have high : (strobeIssued s).sch.sampleEnd = some ((elapse (s.clk.cyclesTo s.strobeTick) s).osc + 100) := rfl
  have numbered : (strobeIssued s).sch.next = (s.sch.next + 1) % 281474976710656 ∧ (strobeIssued s).sch.last = some s.sch.next
      ∧ (strobeIssued s).sch.point = s.strobeTick + 10000000 / s.sch.rate ∧ (strobeIssued s).sch.breakDue = false
      ∧ (strobeIssued s).sch.breaks = (if s.sch.breakDue = true then inc16 s.sch.breaks else s.sch.breaks)
      ∧ (strobeIssued s).sch.lastBreak = (if s.sch.breakDue = true then some s.sch.next else s.sch.lastBreak) :=
    ⟨rfl, rfl, rfl, rfl, rfl, rfl⟩
  refine ⟨_, rfl, ?_⟩
  generalize writeUnsourced s.sch.next (strobeIssued s) = t at *
  generalize strobeIssued s = w at *
  rw [next, last, osc, sampleEnd, position, breakDue, breaks, lastBreak, prt, high, reached]
  exact ⟨numbered.1, numbered.2.1, rfl, rfl, numbered.2.2.1, numbered.2.2.2.1, numbered.2.2.2.2.1, numbered.2.2.2.2.2,
    fun q => opened, lasts⟩

/-- The rings, the channels and the reports that the strobe leaves. -/
theorem strobe_slots {s : State} (canonical : s.canonical) : ∃ t v, t = writeUnsourced s.sch.next (strobeIssued s)
    ∧ v = closeWindows (strobePoint s)
    ∧ (∀ c : Chan,
      (∀ (q : PortId) (k : Nat), s.sourcePort c = some q → s.prt[q].window = some k →
        v.rings[c].newest = some k ∧ v.rings[c].slot k = ⟨s.rings[c].previous k, true, false⟩)
      ∧ (s.unsourced c = false → t.rings[c] = v.rings[c] ∧ t.chn[c] = v.chn[c])
      ∧ (s.unsourced c = true →
        t.rings[c].newest = some s.sch.next ∧ t.rings[c].slot s.sch.next = ⟨v.rings[c].previous s.sch.next, true, false⟩
        ∧ (∀ m, m % 4096 ≠ s.sch.next % 4096 → t.rings[c].slot m = v.rings[c].slot m)
        ∧ t.rings[c].oldest = (if 4095 < Machine.dist v.rings[c].oldest s.sch.next
            then (s.sch.next + 281474976710656 - 4095) % 281474976710656 else v.rings[c].oldest)
        ∧ t.chn[c] = { (v.chn[c].strobe s.sch.rate (v.rings[c].previous s.sch.next)).chan with last := some s.sch.next }))
    ∧ (v.evt.notes = [] → v.evt.reports = [] →
      ((∃ c, s.unsourced c = false) → t.evt.notes = [⟨s.sch.next, (strobePoint s).stamp⟩]
        ∧ t.evt.reports.map Report.chan = allChans.filter s.unsourced
        ∧ ∀ r ∈ t.evt.reports, r.strobe = s.sch.next ∧ r.gap = true)
      ∧ ((∀ c, s.unsourced c = true) → t.evt.notes = [] ∧ t.evt.reports = []
        ∧ t.evt.lastVoted = some ⟨s.sch.next, (strobePoint s).stamp⟩)) := by
  have gap (c : Chan) (q : PortId) (k : Nat) := closed_gap canonical (c := c) (q := q) (k := k)
  have sourced (c : Chan) := strobe_sourced_chan canonical (c := c)
  have unsourced (c : Chan) := strobe_unsourced_chan canonical (c := c)
  have slots (c : Chan) := write_slot (closeWindows (strobePoint s)).rings[c] s.sch.next
    ⟨(closeWindows (strobePoint s)).rings[c].previous s.sch.next, true, false⟩ ((closed_canonical canonical).1 c)
  have reports := strobe_reports canonical
  refine ⟨_, _, rfl, rfl, ?_⟩
  dsimp only at reports
  generalize writeUnsourced s.sch.next (strobeIssued s) = t at *
  generalize closeWindows (strobePoint s) = v at *
  refine ⟨fun c => ⟨gap c, sourced c, fun own => ?_⟩, reports⟩
  obtain ⟨ring, chan⟩ := unsourced c own
  obtain ⟨written, others⟩ := slots c
  rw [ring, chan]
  exact ⟨rfl, written, others, rfl, rfl⟩

/-- Settles O34: the strobe's number and timing, the windows it closes and opens, the gaps it writes and their reports. -/
theorem strobeIsIssued : Obligations.StrobeIsIssued := by
  unfold Obligations.StrobeIsIssued
  intro s powered started p tick n u v note opened issued point
  obtain ⟨t, e, next, last, osc, sampleEnd, position, breakDue, breaks, lastBreak, opens, lasts⟩ := strobe_numbers s
  have runs := exec_strobe powered started point
  have fold := strobe_fold s
  have sourced := strobe_sourced s
  rw [← e] at runs fold sourced
  have same : issued = strobeIssued s := rfl
  refine ⟨t, runs, next, last, osc, sampleEnd, position, breakDue, breaks, lastBreak, opens, lasts, unsourced_iff s,
    ?_, ?_, fun canonical => ?_⟩
  · rw [same]
    exact fold
  · rw [same]
    exact sourced
  · obtain ⟨t', v', e', ev, slots, reports⟩ := strobe_slots canonical
    rw [← e] at e'
    have closed : v' = v := ev
    rw [e', closed] at slots reports
    exact ⟨slots, reports⟩

end Sys2Proof.Proofs
end

