-- ==== Sys2Proof/Proofs/PendingSettings.lean ====
section
/-! PROOFS. A pending rate and a pending map put in force (R36, R41, R45, R57, R63, R80), and from these the settling of O35. -/
namespace Sys2Proof.Proofs

open Sys2Proof Sys2Proof.Machine Sys2Proof.Laws

/-! ### The windows that close first (R45) -/

section Closed
variable (s : State)

theorem closeWindows_keeps : (closeWindows s).map = s.map ∧ (closeWindows s).pendingMap = s.pendingMap
    ∧ (closeWindows s).sch.next = s.sch.next ∧ (closeWindows s).sch.pending = s.sch.pending := by
  have does := closeWindows_does s
  obtain ⟨next, -, -, -, -, pending, -⟩ := does.frame .strobes (by decide)
  exact ⟨map_of does (by decide), pendingMap_of does (by decide), next, pending⟩

theorem closeWindows_decided (q : PortId) : (closeWindows s).prt[q].window = none
    ∧ (closeWindows s).prt[q].last = if s.prt[q].window = none then s.prt[q].last else some .missing := by
  rw [closeWindows_port]
  by_cases none : s.prt[q].window = none
  · rw [if_pos none, if_pos none]
    exact ⟨none, rfl⟩
  · rw [if_neg none, if_neg none]
    exact ⟨rfl, rfl⟩

theorem closeWindows_gap {s : State} (canonical : s.canonical) {c : Chan} {q : PortId} {k : Nat}
    (source : s.sourcePort c = some q) (window : s.prt[q].window = some k) : (closeWindows s).rings[c].newest = some k
    ∧ (closeWindows s).rings[c].slot k = ⟨s.rings[c].previous k, true, false⟩ := by
  have ring := closeWindows_ring s canonical c
  rw [source] at ring
  dsimp only at ring
  rw [window] at ring
  rw [ring]
  exact ⟨rfl, (write_slot _ _ _ (canonical.1 c)).1⟩

end Closed

/-! ### A pending rate (R36) -/

theorem rateAllowed_iff (s : State) : s.rateAllowed = true ↔
    s.sch.pending.isSome = true ∧ s.eventActive = false ∧ s.calRunning = false := by
  unfold State.rateAllowed
  rw [Bool.and_eq_true, Bool.and_eq_true, Bool.not_eq_true', Bool.not_eq_true', and_assoc]

/-- What the rate r put in force leaves, the windows closed in v. -/
def RateApplied (r : Nat) (s v t : State) : Prop :=
  t.sch = { v.sch with rate := r, pending := none }
  ∧ t.prt = v.prt ∧ t.mon = v.mon ∧ (∀ q : PortId, t.prt[q].window = none
    ∧ t.prt[q].last = if s.prt[q].window = none then s.prt[q].last else some .missing)
  ∧ ∀ c : Chan, t.rings[c] = { v.rings[c] with newest := none, oldest := s.sch.next }
    ∧ t.chn[c].sta = 0 ∧ t.chn[c].lta = 0 ∧ t.chn[c].warmup = 0 ∧ t.chn[c].warmed = false

/-- The new rate stored, before the rings are emptied and the channels restarted. -/
def rated (r : Nat) (s : State) : State := { s with sch := { s.sch with rate := r, pending := none } }

theorem applyRate_some {r : Nat} {s : State} (pending : s.sch.pending = some r) :
    applyRate s = restartAll (allChans.foldl (fun s c => clearRing c s) (rated r s)) := by
  unfold applyRate
  rw [pending]
  rfl

theorem applyRate_leaves {r : Nat} {s : State} (pending : s.sch.pending = some r) :
    (applyRate s).sch = { s.sch with rate := r, pending := none } ∧ (applyRate s).prt = s.prt ∧ (applyRate s).mon = s.mon
    ∧ (applyRate s).moment = s.moment
    ∧ ∀ c : Chan, (applyRate s).rings[c] = { s.rings[c] with newest := none, oldest := s.sch.next }
      ∧ (applyRate s).chn[c].sta = 0 ∧ (applyRate s).chn[c].lta = 0 ∧ (applyRate s).chn[c].warmup = 0
      ∧ (applyRate s).chn[c].warmed = false := by
  have cleared : Does [.rings] (rated r s) (allChans.foldl (fun s c => clearRing c s) (rated r s)) := clearRings_does _
  have restarted := restartAll_does (allChans.foldl (fun s c => clearRing c s) (rated r s))
  have ring (c : Chan) := clearRings_ring (rated r s) c
  have chan (c : Chan) := restartAll_chan (allChans.foldl (fun s c => clearRing c s) (rated r s)) c
  rw [applyRate_some pending]
  generalize restartAll (allChans.foldl (fun s c => clearRing c s) (rated r s)) = t at *
  generalize allChans.foldl (fun s c => clearRing c s) (rated r s) = w at *
  have sch : t.sch = (rated r s).sch := (sch_of restarted (by decide)).trans (sch_of cleared (by decide))
  have prt : t.prt = (rated r s).prt := (prt_of restarted (by decide)).trans (prt_of cleared (by decide))
  have mon : t.mon = (rated r s).mon := (mon_of restarted (by decide)).trans (mon_of cleared (by decide))
  have moment : t.moment = (rated r s).moment := (moment_of restarted (by decide)).trans (moment_of cleared (by decide))
  have rings : t.rings = w.rings := rings_of restarted (by decide)
  refine ⟨sch, prt, mon, moment, fun c => ?_⟩
  obtain ⟨b, e⟩ := chan c
  obtain ⟨sta, lta, warmup, warmed, -⟩ := restart_zero w.chn[c] b
  rw [rings, ring c, e]
  exact ⟨rfl, sta, lta, warmup, warmed⟩

theorem pendingRate_applies {r : Nat} {s : State} (pending : s.sch.pending = some r)
    (idle : (closeWindows s).eventActive = false) (calm : (closeWindows s).calRunning = false) :
    RateApplied r s (closeWindows s) (pendingRate s) ∧ (pendingRate s).moment.rate = some r := by
  obtain ⟨-, -, next, stored⟩ := closeWindows_keeps s
  have decided := closeWindows_decided s
  rw [pending] at stored
  have allowed : (closeWindows s).rateAllowed = true := (rateAllowed_iff _).mpr ⟨by rw [stored]; rfl, idle, calm⟩
  have whole : pendingRate s = applyRate { closeWindows s with
      moment := { (closeWindows s).moment with rate := (closeWindows s).sch.pending } } := if_pos allowed
  rw [whole]
  generalize closeWindows s = v at *
  obtain ⟨sch, prt, mon, moment, chans⟩ := applyRate_leaves (r := r)
    (s := { v with moment := { v.moment with rate := v.sch.pending } }) stored
  generalize applyRate { v with moment := { v.moment with rate := v.sch.pending } } = t at *
  refine ⟨⟨sch, prt, mon, ?_, ?_⟩, by rw [moment]; exact stored⟩
  · rw [prt]
    exact decided
  · rw [← next]
    exact chans

theorem pendingRate_waits {s : State} (forbidden : (closeWindows s).eventActive = true ∨ (closeWindows s).calRunning = true) :
    pendingRate s = s := by
  refine if_neg fun allowed => ?_
  obtain ⟨-, idle, calm⟩ := (rateAllowed_iff _).mp allowed
  rw [idle, calm] at forbidden
  exact absurd forbidden (by decide)

theorem pendingRate_none {s : State} (none : s.sch.pending = none) : pendingRate s = s := by
  refine if_neg fun allowed => ?_
  obtain ⟨-, -, -, stored⟩ := closeWindows_keeps s
  obtain ⟨some, -⟩ := (rateAllowed_iff _).mp allowed
  rw [stored, none] at some
  cases some

theorem exec_pendingRateApply {s : State} (powered : s.powered = true) :
    exec .pendingRateApply s = .next (if s.moment.rate = s.sch.pending then pendingRate s else s) := by
  have e : exec .pendingRateApply s = execPendingRateApply s := rfl
  rw [e, execPendingRateApply, act_on powered]

/-! ### A pending map (R41, R57) -/

theorem mapAllowed_iff (s : State) : s.mapAllowed = true ↔ s.pendingMap.isSome = true ∧ s.eventActive = false := by
  unfold State.mapAllowed
  rw [Bool.and_eq_true, Bool.not_eq_true']

/-- What the map m put in force leaves, the windows closed in v. -/
def MapApplied (m : ChanMap) (s v t : State) : Prop :=
  t.map = m ∧ t.pendingMap = none
  ∧ t.prt = v.prt ∧ t.mon = v.mon ∧ t.sch = v.sch ∧ (∀ q : PortId, t.prt[q].window = none
    ∧ t.prt[q].last = if s.prt[q].window = none then s.prt[q].last else some .missing)
  ∧ ∀ c : Chan,
    (s.map.changed m c = true → t.rings[c] = { v.rings[c] with newest := none, oldest := s.sch.next }
      ∧ t.chn[c].sta = 0 ∧ t.chn[c].lta = 0 ∧ t.chn[c].warmup = 0 ∧ t.chn[c].warmed = false)
    ∧ (s.map.changed m c = false → t.rings[c] = v.rings[c])
    ∧ t.chn[c].supp = (match m.entries[c].source with
      | none => false
      | some x => v.sch.windows[portOf x].isOpen)

/-- The new map stored and every channel's suppression moved to its new port, before any channel is restarted. -/
def mapped (m : ChanMap) (s : State) : State := resuppress { s with map := m, pendingMap := none }

theorem applyMap_some {m : ChanMap} {s : State} (pending : s.pendingMap = some m) :
    applyMap s = allChans.foldl (fun t c => applyChange s.map c t) (mapped m s) := by
  unfold applyMap
  rw [pending]
  rfl

theorem mapped_keeps (m : ChanMap) (s : State) : (mapped m s).map = m ∧ (mapped m s).pendingMap = none
    ∧ (mapped m s).sch = s.sch ∧ (mapped m s).rings = s.rings ∧ (mapped m s).prt = s.prt ∧ (mapped m s).mon = s.mon
    ∧ (mapped m s).moment = s.moment := by
  have frame := (resuppress_does { s with map := m, pendingMap := none }).frame
  exact ⟨frame .map (by decide), frame .pendingMap (by decide), frame .sch (by decide), frame .rings (by decide),
    frame .prt (by decide), frame .mon (by decide), frame .moment (by decide)⟩

/-- Suppression under the new map. -/
theorem mapped_supp (m : ChanMap) (s : State) (c : Chan) : (mapped m s).chn[c].supp = (match m.entries[c].source with
    | none => false
    | some x => s.sch.windows[portOf x].isOpen) := by
  unfold mapped
  rw [resuppress_supp]
  unfold State.suppressed State.sourcePort
  cases m.entries[c].source <;> exact rfl

theorem applyMap_leaves {m : ChanMap} {s : State} (pending : s.pendingMap = some m) :
    (applyMap s).map = m ∧ (applyMap s).pendingMap = none ∧ (applyMap s).prt = s.prt ∧ (applyMap s).mon = s.mon
    ∧ (applyMap s).sch = s.sch ∧ (applyMap s).moment = s.moment
    ∧ ∀ c : Chan,
      (s.map.changed m c = true → (applyMap s).rings[c] = { s.rings[c] with newest := none, oldest := s.sch.next }
        ∧ (applyMap s).chn[c].sta = 0 ∧ (applyMap s).chn[c].lta = 0 ∧ (applyMap s).chn[c].warmup = 0
        ∧ (applyMap s).chn[c].warmed = false)
      ∧ (s.map.changed m c = false → (applyMap s).rings[c] = s.rings[c])
      ∧ (applyMap s).chn[c].supp = (match m.entries[c].source with
        | none => false
        | some x => s.sch.windows[portOf x].isOpen) := by
  have changes : Does [.rings, .chn, .evt] (mapped m s) (allChans.foldl (fun t c => applyChange s.map c t) (mapped m s)) :=
    Does.fold (fun t c => applyChange s.map c t) (fun t c => applyChange_does s.map c t) _ _
  obtain ⟨map, pendingMap, sch, rings, prt, mon, moment⟩ := mapped_keeps m s
  have chan (c : Chan) := applyChanges_chan s.map (mapped m s) c
  have supp (c : Chan) := mapped_supp m s c
  rw [applyMap_some pending]
  generalize allChans.foldl (fun t c => applyChange s.map c t) (mapped m s) = t at *
  generalize mapped m s = w at *
  refine ⟨(map_of changes (by decide)).trans map, (pendingMap_of changes (by decide)).trans pendingMap,
    (prt_of changes (by decide)).trans prt, (mon_of changes (by decide)).trans mon, (sch_of changes (by decide)).trans sch,
    (moment_of changes (by decide)).trans moment, fun c => ?_⟩
  obtain ⟨b, ring, channel⟩ := chan c
  rw [map, rings, sch] at ring
  rw [map] at channel
  obtain ⟨sta, lta, warmup, warmed, kept⟩ := restart_zero w.chn[c] b
  refine ⟨fun changed => ?_, fun same => ?_, ?_⟩
  · rw [ring, channel, if_pos changed, if_pos changed]
    exact ⟨rfl, sta, lta, warmup, warmed⟩
  · rw [ring, if_neg (by rw [same]; decide)]
  · rw [channel]
    split
    · exact kept.trans (supp c)
    · exact supp c

theorem pendingMapTest_applies {m : ChanMap} {s : State} (pending : s.pendingMap = some m)
    (idle : (closeWindows s).eventActive = false) :
    MapApplied m s (closeWindows s) (pendingMapTest s) ∧ (pendingMapTest s).moment.map = some m := by
  obtain ⟨map, stored, next, -⟩ := closeWindows_keeps s
  have decided := closeWindows_decided s
  rw [pending] at stored
  have allowed : (closeWindows s).mapAllowed = true := (mapAllowed_iff _).mpr ⟨by rw [stored]; rfl, idle⟩
  have whole : pendingMapTest s = applyMap { closeWindows s with
      moment := { (closeWindows s).moment with map := (closeWindows s).pendingMap } } := if_pos allowed
  rw [whole]
  generalize closeWindows s = v at *
  obtain ⟨applied, empty, prt, mon, sch, moment, chans⟩ := applyMap_leaves (m := m)
    (s := { v with moment := { v.moment with map := v.pendingMap } }) stored
  generalize applyMap { v with moment := { v.moment with map := v.pendingMap } } = t at *
  refine ⟨⟨applied, empty, prt, mon, sch, ?_, ?_⟩, by rw [moment]; exact stored⟩
  · rw [prt]
    exact decided
  · rw [← next, ← map]
    exact chans

theorem pendingMapTest_waits {s : State} (active : (closeWindows s).eventActive = true) : pendingMapTest s = s := by
  refine if_neg fun allowed => ?_
  obtain ⟨-, idle⟩ := (mapAllowed_iff _).mp allowed
  cases active.symm.trans idle

theorem pendingMapTest_none {s : State} (none : s.pendingMap = none) : pendingMapTest s = s := by
  refine if_neg fun allowed => ?_
  obtain ⟨-, stored, -⟩ := closeWindows_keeps s
  obtain ⟨some, -⟩ := (mapAllowed_iff _).mp allowed
  rw [stored, none] at some
  cases some

theorem exec_pendingMapApply {s : State} (powered : s.powered = true) :
    exec .pendingMapApply s = .next (if s.moment.map = s.pendingMap then pendingMapTest s else s) := by
  have e : exec .pendingMapApply s = execPendingMapApply s := rfl
  rw [e, execPendingMapApply, act_on powered]

/-- Settles O35: the two tests and the two commands, for a rate and for a map. -/
theorem pendingSettingsAreApplied : Obligations.PendingSettingsAreApplied := by
  unfold Obligations.PendingSettingsAreApplied
  refine ⟨fun r s pending => ?_, fun m s pending => ?_, fun s => ⟨fun none => ?_, fun none => ?_⟩,
    fun s => ⟨closeWindows_none s, fun canonical c q k => closeWindows_gap canonical⟩⟩
  · refine ⟨pendingRate_applies pending, pendingRate_waits, fun powered through idle calm => ?_, fun powered barred => ?_⟩
    · exact ⟨_, (exec_pendingRateApply powered).trans (congrArg _ (if_pos (through.trans pending.symm))),
        (pendingRate_applies pending idle calm).1⟩
    · rw [exec_pendingRateApply powered]
      refine congrArg _ ?_
      rcases barred with early | forbidden
      · exact if_neg fun k => early (k.trans pending)
      · rw [pendingRate_waits forbidden, ite_self]
  · refine ⟨pendingMapTest_applies pending, pendingMapTest_waits, fun powered through idle => ?_, fun powered barred => ?_⟩
    · exact ⟨_, (exec_pendingMapApply powered).trans (congrArg _ (if_pos (through.trans pending.symm))),
        (pendingMapTest_applies pending idle).1⟩
    · rw [exec_pendingMapApply powered]
      refine congrArg _ ?_
      rcases barred with early | active
      · exact if_neg fun k => early (k.trans pending)
      · rw [pendingMapTest_waits active, ite_self]
  · refine ⟨pendingRate_none none, fun powered => ?_⟩
    rw [exec_pendingRateApply powered, pendingRate_none none, ite_self]
  · refine ⟨pendingMapTest_none none, fun powered => ?_⟩
    rw [exec_pendingMapApply powered, pendingMapTest_none none, ite_self]

end Sys2Proof.Proofs
end

