-- ==== Sys2Proof/Proofs/CalibrationRuns.lean ====
section
/-! PROOFS. Calibration runs (R39 to R42): the examination of an entry, its pulses, their ends and the end of the run, the window
that closes; from these the settling of O36. -/
namespace Sys2Proof.Proofs

open Sys2Proof Sys2Proof.Machine Sys2Proof.Laws

/-! ### The examination (R39) -/

/-- The schedule with the outcome of the entry of an id put. -/
def outcomePut (id : Nat) (o : CalOutcome) (l : List Cal) : List Cal :=
  l.map fun x => if x.id = id then { x with outcome := o } else x

/-- What bars an entry from running. -/
abbrev Barred (c : Cal) (s : State) : Prop := s.bat.cls = .critical ∨ s.bat.power = .shed ∨ s.prt[c.sensor].link ≠ .up

/-- What an entry that is not barred waits for. -/
abbrev Waits (s : State) : Prop := s.calRunning = true ∨ ∃ d, s.sch.settleEnd = some d ∧ s.osc < d

theorem examined_eq (c : Cal) (now : Nat) :
    c.examined now = decide (c.outcome = .waiting ∧ c.start ≤ now ∨ c.outcome = .deferred) := by
  rw [Bool.eq_iff_iff, decide_eq_true_iff]
  unfold Cal.examined
  rw [Bool.or_eq_true, Bool.and_eq_true, beq_iff_eq, beq_iff_eq, decide_eq_true_iff]

theorem examineCals_eq (s : State) : examineCals s = (s.sch.cals.filter fun c =>
    decide (c.outcome = .waiting ∧ c.start ≤ s.clk.s ∨ c.outcome = .deferred)).foldl (fun s c => examineCal c s) s := by
  unfold examineCals
  rw [List.filter_congr fun c _ => examined_eq c s.clk.s]

theorem settling_iff (s : State) : s.settling = true ↔ ∃ d, s.sch.settleEnd = some d ∧ s.osc < d := by
  unfold State.settling
  cases s.sch.settleEnd with
  | none => exact ⟨nofun, nofun⟩
  | some d =>
    refine ⟨fun h => ⟨d, rfl, of_decide_eq_true h⟩, ?_⟩
    rintro ⟨e, same, later⟩
    cases same
    exact decide_eq_true later

theorem waits_iff (s : State) : (s.calRunning || s.settling) = true ↔ Waits s := by
  rw [Bool.or_eq_true, settling_iff]

/-- The line of a pulse that begins now. -/
def pulseEnd (c : Cal) (s : State) : Time :=
  ⟨(s.clk.s + (s.clk.t + c.width * 10000) / 10000000) % 4294967296, (s.clk.t + c.width * 10000) % 10000000⟩

theorem pulseEnd_eq (c : Cal) (s : State) : s.now.addTicks (c.width * 10000 : Nat) = pulseEnd c s := by
  unfold Time.addTicks pulseEnd State.now
  congr 1

theorem pulseTime_open {c : Cal} {s : State} (active : s.eventActive = true) : pulseTime c s =
    { s with sch := { s.sch with
      cals := s.sch.cals.map fun x => if x.id = c.id then { x with withheld := min (x.withheld + 1) 16 } else x } } :=
  if_pos active

theorem pulseTime_begins {c : Cal} {s : State} (idle : s.eventActive = false) : pulseTime c s =
    { s with sch := { s.sch with lines := s.sch.lines.set c.sensor (some (pulseEnd c s)) } } := by
  rw [← pulseEnd_eq]
  exact if_neg (by rw [idle]; decide)

section Examine
variable (c : Cal) {s : State}

theorem examineCal_open (active : s.eventActive = true) :
    (examineCal c s).sch = { s.sch with cals := outcomePut c.id .deferred s.sch.cals }
    ∧ ∀ r, s.evt.record = some r →
      (examineCal c s).evt.record = some { r with flags := { r.flags with calDeferred := true } } := by
  have whole : examineCal c s = flagRecord (fun f => { f with calDeferred := true })
      (editCal c.id (fun c => { c with outcome := .deferred }) s) := if_pos active
  rw [whole]
  exact ⟨sch_of (flagRecord_does _ _) (by decide), fun r held => flagRecord_record held⟩

theorem examineCal_barred (idle : s.eventActive = false) (barred : Barred c s) :
    examineCal c s = { s with sch := { s.sch with cals := outcomePut c.id .skipped s.sch.cals } } := by
  unfold examineCal
  rw [if_neg (by rw [idle]; decide), if_pos barred]
  rfl

theorem examineCal_waits (idle : s.eventActive = false) (free : ¬ Barred c s) (waits : Waits s) :
    examineCal c s = { s with sch := { s.sch with cals := outcomePut c.id .deferred s.sch.cals } } := by
  unfold examineCal
  rw [if_neg (by rw [idle]; decide), if_neg free, if_pos ((waits_iff s).mpr waits)]
  rfl

theorem examineCal_runs (idle : s.eventActive = false) (free : ¬ Barred c s) (ready : ¬ Waits s) :
    (examineCal c s).sch = { s.sch with
      cals := s.sch.cals.map fun x => if x.id = c.id then { x with outcome := .running, runStart := some s.clk.s } else x
      windows := s.sch.windows.set c.sensor .running
      lines := s.sch.lines.set c.sensor (some (pulseEnd c s)) } := by
  have whole : examineCal c s = startRun c s := by
    unfold examineCal
    rw [if_neg (by rw [idle]; decide), if_neg free, if_neg fun k => ready ((waits_iff s).mp k)]
  rw [whole]
  unfold startRun editCal
  dsimp only
  generalize opened : ({ s with sch := _ } : State) = w
  have does := resuppress_does w
  have sch : (resuppress w).sch = w.sch := sch_of does (by decide)
  have clk : (resuppress w).clk = s.clk := (clk_of does (by decide)).trans (by rw [← opened])
  have still : (resuppress w).eventActive = false := by
    unfold State.eventActive
    rw [(does.frame .event (by decide)).1, ← opened]
    exact idle
  rw [pulseTime_begins still]
  unfold pulseEnd
  dsimp only
  rw [sch, clk, ← opened]

end Examine

/-! ### The pulses of a run (R40) -/

/-- Where the run of an entry has started, the present second is a pulse time of it: k spacings after the start, for a k below
the count. -/
theorem pulseDue_iff {c : Cal} {first now : Nat} (start : c.runStart = some first) (spacing : 0 < c.spacing)
    (close : c.spacing ≤ 600) (few : c.count ≤ 16) (present : now < 4294967296) : c.pulseDue now = true ↔
      ∃ k, 0 < k ∧ k < c.count ∧ now = (first + k * c.spacing) % 4294967296 := by
  have due : c.pulseDue now = true ↔ 0 < secsAhead now first ∧ secsAhead now first % c.spacing = 0
      ∧ secsAhead now first / c.spacing < c.count := by
    unfold Cal.pulseDue
    rw [start, Option.getD_some, Bool.and_eq_true, Bool.and_eq_true, decide_eq_true_iff, decide_eq_true_iff,
      decide_eq_true_iff, and_assoc]
  rw [due]
  have ahead : secsAhead now first = signed32 ((now : Int) - first) := rfl
  constructor
  · rintro ⟨later, whole, below⟩
    obtain ⟨k, hk⟩ := Int.dvd_of_emod_eq_zero whole
    have positive : 0 < (c.spacing : Int) := by omega
    rw [hk, Int.mul_ediv_cancel_left _ (by omega)] at below
    rw [hk] at later
    have hk0 : 0 < k := by
      by_contra h
      have := Int.mul_nonpos_of_nonneg_of_nonpos (Int.le_of_lt positive) (Int.not_lt.mp h)
      omega
    refine ⟨k.toNat, by omega, by omega, ?_⟩
    have cast : ((k.toNat * c.spacing : Nat) : Int) = c.spacing * k := by
      rw [Nat.cast_mul, Int.toNat_of_nonneg (Int.le_of_lt hk0), Int.mul_comm]
    unfold signed32 at ahead
    dsimp only at ahead
    rw [hk] at ahead
    generalize k.toNat * c.spacing = m at *
    split at ahead <;> omega
  · rintro ⟨k, some, below, second⟩
    have least : c.spacing ≤ k * c.spacing := Nat.le_mul_of_pos_left _ some
    have most : k * c.spacing ≤ 9600 := Nat.mul_le_mul (by omega : k ≤ 16) close
    have ahead_by : secsAhead now first = ((k * c.spacing : Nat) : Int) := by
      rw [ahead]
      unfold signed32
      dsimp only
      generalize k * c.spacing = m at *
      split <;> omega
    rw [ahead_by]
    refine ⟨by omega, ?_, ?_⟩
    · rw [Nat.cast_mul]
      exact Int.mul_emod_left _ _
    · rw [Nat.cast_mul, Int.mul_ediv_cancel _ (by omega)]
      omega

section Pulses
variable {c : Cal} {s : State} (running : s.runningCal = some c)
include running

theorem pulsesDue_due (due : c.pulseDue s.clk.s = true) : pulsesDue s = pulseTime c s := by
  unfold pulsesDue
  rw [running]
  exact if_pos due

theorem pulsesDue_between (between : ¬ c.pulseDue s.clk.s = true) : pulsesDue s = s := by
  unfold pulsesDue
  rw [running]
  exact if_neg between

end Pulses

/-! ### Pulses and runs that end (R40 to R42) -/

theorem endPulse_lines (p : PortId) (s : State) : (endPulse p s).sch.lines = s.sch.lines.set p none := by
  unfold endPulse
  split
  · rfl
  · split <;> rfl

theorem endPulse_counts {p : PortId} {c : Cal} {s : State} (running : s.runningCal = some c) (own : c.sensor = p) :
    (endPulse p s).sch.cals = s.sch.cals.map fun y => if y.id = c.id then { y with issued := min (y.issued + 1) 16 } else y := by
  unfold endPulse
  rw [running]
  dsimp only
  rw [if_pos own]
  rfl

theorem endPulse_other {p : PortId} {s : State} (other : ∀ c, s.runningCal = some c → c.sensor ≠ p) :
    (endPulse p s).sch.cals = s.sch.cals := by
  unfold endPulse
  split
  · rfl
  next c running =>
    rw [if_neg (other c running)]
    rfl

theorem endPulse_same (p : PortId) (s : State) : (endPulse p s).params = s.params ∧ (endPulse p s).osc = s.osc := by
  unfold endPulse
  split
  · exact ⟨rfl, rfl⟩
  · split <;> exact ⟨rfl, rfl⟩

theorem leaveRunning_leaves (c : Cal) (o : CalOutcome) (s : State) : (leaveRunning c o s).sch.lines[c.sensor] = none
    ∧ (leaveRunning c o s).sch.windows[c.sensor] =
      (if s.calSettle = 0 then .closed else .closing (s.osc + s.calSettle * 10000000))
    ∧ ∀ y ∈ (leaveRunning c o s).sch.cals, y.id = c.id → y.outcome = o := by
  rw [leaveRunning_sch]
  refine ⟨by simp, by simp, fun y mem own => ?_⟩
  obtain ⟨x, -, rfl⟩ := List.mem_map.mp mem
  by_cases same : x.id = c.id
  · rw [if_pos same]
  · rw [if_neg same] at own
    exact absurd own same

theorem endRun_leaves (c : Cal) (s : State) : (endRun c s).sch.lines[c.sensor] = none
    ∧ (endRun c s).sch.windows[c.sensor] =
      (if s.calSettle = 0 then .closed else .closing (s.osc + s.calSettle * 10000000))
    ∧ ∀ y ∈ (endRun c s).sch.cals, y.id = c.id → y.outcome = .done := by
  have pulse : ∃ w, endRun c s = leaveRunning c .done w ∧ w.params = s.params ∧ w.osc = s.osc := by
    unfold endRun
    dsimp only
    split
    · exact ⟨_, rfl, endPulse_same c.sensor s⟩
    · exact ⟨s, rfl, rfl, rfl⟩
  obtain ⟨w, e, params, osc⟩ := pulse
  have settle : w.calSettle = s.calSettle := by
    unfold State.calSettle
    rw [param_of_params params]
  have leaves := leaveRunning_leaves c .done w
  rw [settle, osc] at leaves
  rw [e]
  exact leaves

/-! ### The commands -/

theorem exec_calPulseEnd {p : PortId} {x : Time} {s u : State} (powered : s.powered = true) (high : s.sch.lines[p] = some x)
    (reached : reachTime x s = some u) : exec (.calPulseEnd p) s = .next (endPulse p u) := by
  have e : exec (.calPulseEnd p) s = execCalPulseEnd p s := rfl
  rw [e, execCalPulseEnd, act_on powered, high]
  dsimp only
  rw [reached]

theorem exec_calRunEnd {c : Cal} {s u : State} (powered : s.powered = true) (running : s.runningCal = some c)
    (reached : reachTime c.endTime s = some u) : exec .calRunEnd s = .next (endRun c u) := by
  have e : exec .calRunEnd s = execCalRunEnd s := rfl
  rw [e, execCalRunEnd, act_on powered, running]
  dsimp only
  rw [reached]

/-- The window of port p closed, before suppression follows. -/
def windowClosed (p : PortId) (s : State) : State :=
  { s with sch := { s.sch with windows := s.sch.windows.set p .closed } }

theorem exec_suppressionWindowClose {p : PortId} {d : Nat} {s u : State} (powered : s.powered = true)
    (closing : s.sch.windows[p] = .closing d) (reached : reach d s = some u) :
    exec (.suppressionWindowClose p) s = .next (resuppress (windowClosed p u)) := by
  have e : exec (.suppressionWindowClose p) s = execSuppressionWindowClose p s := rfl
  rw [e, execSuppressionWindowClose, act_on powered, closing]
  exact congrArg _ (atCycle_of_reach reached _)

/-- Suppression recomputed follows the map and the windows that stand. -/
theorem resuppress_follows (s : State) (c : Chan) : (resuppress s).chn[c].supp = (match (resuppress s).map.entries[c].source with
    | none => false
    | some x => (resuppress s).sch.windows[portOf x].isOpen) := by
  have does := resuppress_does s
  rw [resuppress_supp, map_of does (by decide), sch_of does (by decide)]
  unfold State.suppressed State.sourcePort
  cases s.map.entries[c].source <;> exact rfl

/-- Settles O36: the examination, the pulses, the ends of pulses and runs, and the window that closes. -/
theorem calibrationRuns : Obligations.CalibrationRuns := by
  unfold Obligations.CalibrationRuns
  refine ⟨examineCals_eq, fun c s => ⟨examineCal_open c, examineCal_barred c, examineCal_waits c, examineCal_runs c⟩,
    fun c first s running start spacing close few present => ⟨fun k some below second => ?_, fun none => ?_⟩,
    fun s => rfl, fun s u powered => ⟨fun p x high reached => ?_, fun c running reached => ?_⟩,
    fun p d s u powered closing reached => ?_⟩
  · have due := (pulseDue_iff start spacing close few present).mpr ⟨k, some, below, second⟩
    rw [pulsesDue_due running due]
    exact ⟨pulseTime_open, pulseTime_begins⟩
  · refine pulsesDue_between running fun due => ?_
    obtain ⟨k, some, below, second⟩ := (pulseDue_iff start spacing close few present).mp due
    exact none k some below second
  · exact ⟨_, exec_calPulseEnd powered high reached, endPulse_lines p u, fun c => endPulse_counts, endPulse_other⟩
  · refine ⟨_, exec_calRunEnd powered running reached, ?_⟩
    have settle : u.calSettle = s.calSettle := by
      unfold State.calSettle
      rw [param_of_params (params_of (reachTime_does reached) (by decide))]
    rw [← settle]
    exact endRun_leaves c u
  · have runs := exec_suppressionWindowClose powered closing reached
    have sch : (resuppress (windowClosed p u)).sch = { u.sch with windows := u.sch.windows.set p .closed } :=
      (resuppress_does (windowClosed p u)).frame .sch (by decide)
    have follows := resuppress_follows (windowClosed p u)
    generalize resuppress (windowClosed p u) = t at *
    exact ⟨t, runs, sch, follows⟩

end Sys2Proof.Proofs
end

