-- ==== Sys2Proof/Proofs/FramesTaken.lean ====
section
/-! PROOFS. A frame taken and judged, and the slots of its strobe (R45, R46, R59 to R62, R67): one slot written, the slots of the
channels of a port, the outcome; from these the settling of O37. -/
namespace Sys2Proof.Proofs

open Sys2Proof Sys2Proof.Machine Sys2Proof.Laws

/-! ### One slot -/

section OneSlot
variable (c d : Chan) (k : Nat) (x : Slot) (s : State)

theorem writeSlot_ring : (writeSlot c k x s).rings[c] = s.rings[c].write k x := by
  rw [writeSlot_rings]
  exact Vector.getElem_set_self _

theorem writeSlot_chan (canonical : s.canonical) :
    (writeSlot c k x s).chn[c] = { (s.chn[c].strobe s.sch.rate x.value).chan with last := some k } := by
  rw [writeSlot_chn c k x s canonical]
  exact Vector.getElem_set_self _

theorem writeSlot_others (canonical : s.canonical) (apart : d ≠ c) :
    (writeSlot c k x s).rings[d] = s.rings[d] ∧ (writeSlot c k x s).chn[d] = s.chn[d] := by
  have index : c.val ≠ d.val := fun e => apart (Fin.ext e.symm)
  rw [writeSlot_rings, writeSlot_chn c k x s canonical]
  exact ⟨Vector.getElem_set_ne _ _ index, Vector.getElem_set_ne _ _ index⟩

theorem writeSlot_canonical (canonical : s.canonical) : (writeSlot c k x s).canonical :=
  canonical_of_does (writeSlot_does c k x s) (by decide) canonical

theorem write_oldest (r : Ring) (k : Nat) (x : Slot) : (r.write k x).oldest =
    if 4095 < (k + 281474976710656 - r.oldest) % 281474976710656 then (k + 281474976710656 - 4095) % 281474976710656
    else r.oldest := rfl

/-- The report of a written slot is that of its channel's own update. -/
theorem writeSlot_report (canonical : s.canonical) :
    let y := s.chn[c].strobe s.sch.rate x.value
    ∃ u, writeSlot c k x s = gatherReport ⟨c, k, y.chan.state, y.on, y.off, y.ratio, x.value, x.gap, x.clip, false⟩ u
      ∧ u.evt = s.evt := by
  have read : ((s.rings.set c (s.rings[c].write k x))[c]).slot k = x := by
    have own : (s.rings.set c (s.rings[c].write k x))[c] = s.rings[c].write k x := Vector.getElem_set_self _
    rw [own]
    exact (write_slot _ k x (canonical.1 c)).1
  unfold writeSlot triggerStrobe
  dsimp only
  rw [read]
  exact ⟨_, rfl, rfl⟩

end OneSlot

/-! ### The slots of a port's channels -/

/-- The slot that the source src gives channel c, its ring being r, for strobe k under the map m. -/
def sourcedSlot (k : Nat) (f : Option Frame) (m : ChanMap) (c : Chan) (src : Fin 6) (p : PortId) (r : Ring) : Slot :=
  match f with
  | none => ⟨r.previous k, true, false⟩
  | some g => filledSlot m.entries[c] src m.reversed[p] g

/-- The slot that channel c takes for strobe k from port p; none where another port is its source, or none. -/
def portSlot (p : PortId) (k : Nat) (f : Option Frame) (m : ChanMap) (c : Chan) (r : Ring) : Option Slot :=
  match m.entries[c].source with
  | none => none
  | some src => if portOf src = p then some (sourcedSlot k f m c src p r) else none

/-- Channel c takes its slot of strobe k from port p, if it has one. -/
def takeSlot (p : PortId) (k : Nat) (f : Option Frame) (s : State) (c : Chan) : State :=
  match portSlot p k f s.map c s.rings[c] with
  | none => s
  | some x => writeSlot c k x s

section PortSlots
variable {p : PortId} {k : Nat} {f : Option Frame} {s : State} {c : Chan}

theorem portSlot_some {m : ChanMap} {r : Ring} {src : Fin 6} (source : m.entries[c].source = some src)
    (port : portOf src = p) : portSlot p k f m c r = some (sourcedSlot k f m c src p r) := by
  unfold portSlot
  rw [source]
  exact if_pos port

theorem portSlot_none (other : s.sourcePort c ≠ some p) : portSlot p k f s.map c s.rings[c] = none := by
  unfold portSlot
  unfold State.sourcePort at other
  rcases source : s.map.entries[c].source with _ | src
  · rfl
  · rw [source] at other
    exact if_neg fun port => other (congrArg some port)

variable (p k f s c)

theorem takeSlot_gap : takeSlot p k none s c = if s.sourcePort c = some p then writeGap c k s else s := by
  unfold takeSlot
  split
  · next no =>
    rw [if_neg]
    intro port
    obtain ⟨src, source, rfl⟩ := Option.map_eq_some_iff.mp port
    rw [portSlot_some source rfl] at no
    cases no
  · next x slot =>
    by_cases port : s.sourcePort c = some p
    · rw [if_pos port]
      obtain ⟨src, source, rfl⟩ := Option.map_eq_some_iff.mp port
      rw [portSlot_some source rfl] at slot
      cases slot
      rfl
    · rw [portSlot_none port] at slot
      cases slot

theorem takeSlot_frame (g : Frame) : takeSlot p k (some g) s c = match s.map.entries[c].source with
    | none => s
    | some src => if portOf src = p then writeSlot c k (filledSlot s.map.entries[c] src s.map.reversed[p] g) s else s := by
  unfold takeSlot portSlot
  rcases s.map.entries[c].source with _ | src
  · rfl
  · by_cases port : portOf src = p
    · simp only [if_pos port]
      exact rfl
    · simp only [if_neg port]

theorem writePortSlots_eq : writePortSlots p k f s = allChans.foldl (takeSlot p k f) s := by
  unfold writePortSlots
  rcases f with _ | g
  · have body : takeSlot p k none = fun s c => if s.sourcePort c = some p then writeGap c k s else s :=
      funext fun s => funext fun c => takeSlot_gap p k s c
    rw [body]
    exact rfl
  · exact congrArg (fun b => allChans.foldl b s) (funext fun s => funext fun c => (takeSlot_frame p k s c g).symm)

theorem takeSlot_does : Does slotParts s (takeSlot p k f s c) := by
  unfold takeSlot
  split
  · exact Does.refl _ s
  · exact writeSlot_does c k _ s

theorem takeSlot_others {d : Chan} (canonical : s.canonical) (apart : d ≠ c) :
    (takeSlot p k f s c).rings[d] = s.rings[d] ∧ (takeSlot p k f s c).chn[d] = s.chn[d] := by
  unfold takeSlot
  split
  · exact ⟨rfl, rfl⟩
  · exact writeSlot_others c d k _ s canonical apart

/-- The slots of a list of channels leave the other channels. -/
theorem takeSlots_others (l : List Chan) (canonical : s.canonical) (out : c ∉ l) :
    (l.foldl (takeSlot p k f) s).rings[c] = s.rings[c] ∧ (l.foldl (takeSlot p k f) s).chn[c] = s.chn[c] := by
  induction l generalizing s with
  | nil => exact ⟨rfl, rfl⟩
  | cons d l ih =>
    obtain ⟨apart, out⟩ := List.ne_and_not_mem_of_not_mem_cons out
    obtain ⟨ring, chan⟩ := ih _ (canonical_of_does (takeSlot_does p k f s d) (by decide) canonical) out
    obtain ⟨ring', chan'⟩ := takeSlot_others p k f s d canonical apart
    exact ⟨ring.trans ring', chan.trans chan'⟩

/-- What a slot, where there is one, makes of its ring. -/
def slotRing (k : Nat) (r : Ring) : Option Slot → Ring
  | none => r
  | some x => r.write k x

/-- What a slot, where there is one, makes of its channel at a rate. -/
def slotChan (k rate : Nat) (y : Channel) : Option Slot → Channel
  | none => y
  | some x => { (y.strobe rate x.value).chan with last := some k }

theorem takeSlot_own (canonical : s.canonical) :
    (takeSlot p k f s c).rings[c] = slotRing k s.rings[c] (portSlot p k f s.map c s.rings[c])
    ∧ (takeSlot p k f s c).chn[c] = slotChan k s.sch.rate s.chn[c] (portSlot p k f s.map c s.rings[c]) := by
  unfold takeSlot
  split
  · next no =>
    rw [no]
    exact ⟨rfl, rfl⟩
  · next x slot =>
    rw [slot]
    exact ⟨writeSlot_ring c k x s, writeSlot_chan c k x s canonical⟩

/-- Each channel of a list takes its own slot, as if it were alone. -/
theorem takeSlots_own (l : List Chan) (nodup : l.Nodup) (canonical : s.canonical) (mem : c ∈ l) :
    (l.foldl (takeSlot p k f) s).rings[c] = slotRing k s.rings[c] (portSlot p k f s.map c s.rings[c])
    ∧ (l.foldl (takeSlot p k f) s).chn[c] = slotChan k s.sch.rate s.chn[c] (portSlot p k f s.map c s.rings[c]) := by
  induction l generalizing s with
  | nil => cases mem
  | cons d l ih =>
    obtain ⟨out, nodup⟩ := List.nodup_cons.mp nodup
    have does := takeSlot_does p k f s d
    have canonical' := canonical_of_does does (by decide) canonical
    rw [List.foldl_cons]
    by_cases same : c = d
    · subst same
      obtain ⟨ring, chan⟩ := takeSlots_others p k f _ c l canonical' out
      rw [ring, chan]
      exact takeSlot_own p k f s c canonical
    · obtain ⟨ring, chan⟩ := takeSlot_others p k f s d canonical same
      have map : (takeSlot p k f s d).map = s.map := map_of does (by decide)
      have rate : (takeSlot p k f s d).sch.rate = s.sch.rate := (does.frame .strobes (by decide)).2.2.2.2.1
      have rest := ih _ nodup canonical' ((List.mem_cons.mp mem).resolve_left same)
      rw [ring, chan, map, rate] at rest
      exact rest

theorem writePortSlots_own (canonical : s.canonical) :
    (writePortSlots p k f s).rings[c] = slotRing k s.rings[c] (portSlot p k f s.map c s.rings[c])
    ∧ (writePortSlots p k f s).chn[c] = slotChan k s.sch.rate s.chn[c] (portSlot p k f s.map c s.rings[c]) := by
  rw [writePortSlots_eq]
  exact takeSlots_own p k f s c allChans allChans_nodup canonical (mem_allChans c)

end PortSlots

/-! ### The outcome -/

theorem refreshed_running {x : Channel} (on : x.state ≠ .off) : refreshed x (true && Link.up == .up) = x := by
  unfold refreshed
  exact (if_pos rfl).trans (if_neg on)

/-- A channel that is not sourced from the port whose link has changed stays (R54). -/
theorem setLink_other {p : PortId} (x : Port) {s : State} {c : Chan} (other : s.sourcePort c ≠ some p) :
    (linkChanged p (setPort p x s)).chn[c] = s.chn[c] := by
  have reported := reportPort_does p (setPort p x s)
  have source : (reportPort p (setPort p x s)).sourcePort c ≠ some p := by
    rw [sourcePort_of_does reported (by decide) c]
    exact other
  have chan : (reportPort p (setPort p x s)).chn = (setPort p x s).chn := chn_of reported (by decide)
  rw [linkChanged, refreshPort_chan, if_neg source, chan]
  rfl

/-- The state once an outcome has been counted and the link of its port has followed it, before any slot is written. -/
def outcomeLinked (p : PortId) (o : PortOutcome) (f : Option Frame) (s : State) : State :=
  linkChanged p (setPort p { (reportOutcome p o s).prt[p].take f.isSome ((f.map Frame.alarm).getD false) with
    last := some o, window := none, transfer := none } (reportOutcome p o s))

section Outcome
variable (p : PortId) (k : Nat) (o : PortOutcome) (f : Option Frame) (s : State)

theorem decideOutcome_eq : decideOutcome p k o f s = writePortSlots p k f (outcomeLinked p o f s) := rfl

theorem outcomeLinked_does : Does [.box, .mon, .chn, .evt, .prt] s (outcomeLinked p o f s) :=
  Does.trans (Does.mono (reportOutcome_does p o s) (by decide)) (Does.mono (setLinkOnly_does p _ _) (by decide))

/-- What the slots of the outcome are computed from is as before it. -/
theorem outcomeLinked_keeps : (outcomeLinked p o f s).rings = s.rings ∧ (outcomeLinked p o f s).map = s.map
    ∧ (outcomeLinked p o f s).sch = s.sch := by
  have does := outcomeLinked_does p o f s
  exact ⟨rings_of does (by decide), map_of does (by decide), sch_of does (by decide)⟩

theorem outcomeLinked_other {c : Chan} (other : s.sourcePort c ≠ some p) : (outcomeLinked p o f s).chn[c] = s.chn[c] := by
  have reported := reportOutcome_does p o s
  have source : (reportOutcome p o s).sourcePort c = s.sourcePort c := sourcePort_of_does reported (by decide) c
  have chan : (reportOutcome p o s).chn = s.chn := chn_of reported (by decide)
  unfold outcomeLinked
  generalize reportOutcome p o s = x at *
  rw [setLink_other _ (source ▸ other), chan]

/-- A link that stands UP leaves a channel that already runs as it was (R54, R74). -/
theorem outcomeLinked_running {c : Chan} (up : (outcomeLinked p o f s).prt[p].link = .up) (enable : s.chn[c].det.enable = true)
    (on : s.chn[c].state ≠ .off) : (outcomeLinked p o f s).chn[c] = s.chn[c] := by
  by_cases port : s.sourcePort c = some p
  · have reported := reportOutcome_does p o s
    have source : (reportOutcome p o s).sourcePort c = some p := (sourcePort_of_does reported (by decide) c).trans port
    have chan : (reportOutcome p o s).chn = s.chn := chn_of reported (by decide)
    unfold outcomeLinked at *
    generalize reportOutcome p o s = x at *
    rw [setLink_prt, Fin.getElem_fin, Vector.getElem_set_self] at up
    rw [setLink_chan _ source, up, chan, enable]
    exact refreshed_running on
  · exact outcomeLinked_other p o f s port

theorem decideOutcome_own (canonical : s.canonical) (c : Chan) :
    (decideOutcome p k o f s).rings[c] = slotRing k s.rings[c] (portSlot p k f s.map c s.rings[c])
    ∧ (decideOutcome p k o f s).chn[c] =
      slotChan k s.sch.rate (outcomeLinked p o f s).chn[c] (portSlot p k f s.map c s.rings[c]) := by
  have own := writePortSlots_own p k f (outcomeLinked p o f s) c
    (canonical_of_does (outcomeLinked_does p o f s) (by decide) canonical)
  obtain ⟨rings, map, sch⟩ := outcomeLinked_keeps p o f s
  rw [rings, map, sch] at own
  exact own

theorem decideOutcome_elsewhere (canonical : s.canonical) {c : Chan} (other : s.sourcePort c ≠ some p) :
    (decideOutcome p k o f s).rings[c] = s.rings[c]
    ∧ (decideOutcome p k o f s).chn[c] = (outcomeLinked p o f s).chn[c] := by
  have own := decideOutcome_own p k o f s canonical c
  rw [portSlot_none other] at own
  exact own

theorem decideOutcome_sourced (canonical : s.canonical) {c : Chan} {src : Fin 6} (source : s.map.entries[c].source = some src)
    (port : portOf src = p) :
    (decideOutcome p k o f s).rings[c] = s.rings[c].write k (sourcedSlot k f s.map c src p s.rings[c])
    ∧ (decideOutcome p k o f s).chn[c] = { ((outcomeLinked p o f s).chn[c].strobe s.sch.rate
        (sourcedSlot k f s.map c src p s.rings[c]).value).chan with last := some k } := by
  have own := decideOutcome_own p k o f s canonical c
  rw [portSlot_some source port] at own
  exact own

theorem closeWindow_open (window : s.prt[p].window = some k) : closeWindow p s = decideOutcome p k .missing none s := by
  unfold closeWindow
  rw [window]

end Outcome

/-! ### The frame -/

section Judge
variable {l : List Byte}

theorem judgeFrame_sync (h : l.getD 0 0 ≠ 0xB3 ∨ l.getD 1 0 ≠ 0x4C) : (judgeFrame l).1 = .syncError := by
  unfold judgeFrame
  rw [if_pos h]

theorem judgeFrame_crc (b3 : l.getD 0 0 = 0xB3) (c4 : l.getD 1 0 = 0x4C)
    (wrong : crc8 ((l.drop 2).take 11) ≠ l.getD 13 0) : (judgeFrame l).1 = .crcError := by
  have sync : ¬ (l.getD 0 0 ≠ 0xB3 ∨ l.getD 1 0 ≠ 0x4C) := fun h => h.elim (absurd b3) (absurd c4)
  unfold judgeFrame
  rw [if_neg sync, if_pos wrong]

theorem judgeFrame_good (b3 : l.getD 0 0 = 0xB3) (c4 : l.getD 1 0 = 0x4C)
    (right : crc8 ((l.drop 2).take 11) = l.getD 13 0) : (judgeFrame l).1 = .good (l.getD 2 0) := by
  have sync : ¬ (l.getD 0 0 ≠ 0xB3 ∨ l.getD 1 0 ≠ 0x4C) := fun h => h.elim (absurd b3) (absurd c4)
  unfold judgeFrame
  rw [if_neg sync, if_neg (fun wrong => wrong right)]

end Judge

theorem exec_drdyEdge (dt : Nat) (p : PortId) {s : State} (powered : s.powered = true) :
    let u := elapse dt s
    ∀ k, u.prt[p].window = some k → u.prt[p].transfer = none →
      exec (.drdyEdge dt p) s = .next { u with prt := u.prt.set p { u.prt[p] with transfer := some u.osc } } := by
  intro u k window idle
  have e : exec (.drdyEdge dt p) s = execDrdyEdge dt p s := rfl
  rw [e, execDrdyEdge, act_on powered]
  dsimp only
  rw [if_pos (by rw [window, idle]; rfl)]
  exact rfl

theorem exec_digitizerFrame {dt : Nat} {p : PortId} {bytes : List Byte} {k d : Nat} {s : State} (powered : s.powered = true)
    (window : s.prt[p].window = some k) (transfer : s.prt[p].transfer = some d) (full : bytes.length = 14)
    (late : d + 448 ≤ (elapse (max dt (d + 448 - s.osc)) s).osc) :
    exec (.digitizerFrame dt p bytes) s = .next (decideOutcome p k (judgeFrame bytes).1 (judgeFrame bytes).2
      (elapse (max dt (d + 448 - s.osc)) s)) := by
  have e : exec (.digitizerFrame dt p bytes) s = execDigitizerFrame dt p bytes s := rfl
  rw [e, execDigitizerFrame, act_on powered, window, transfer]
  dsimp only
  have taken : bytes.length = 14 ∧ d + frameCycles ≤ (elapse (max dt (d + frameCycles - s.osc)) s).osc := ⟨full, late⟩
  rw [if_pos taken]
  exact rfl

/-- Settles O37: the frame by its commands and `decideOutcome`'s port, the slots by what each channel takes of them. -/
theorem framesAreTakenAndJudged : Obligations.FramesAreTakenAndJudged := by
  refine ⟨fun dt p s powered => ⟨exec_drdyEdge dt p powered, ?_⟩, closeWindow_open, ?_, ?_⟩
  · intro bytes k d window transfer full canonical u late
    have canonical : u.canonical := canonical_of_does (elapse_does _ s) (by decide) canonical
    have after := decideOutcome_port p k (judgeFrame bytes).1 (judgeFrame bytes).2 u
    refine ⟨_, exec_digitizerFrame powered window transfer full late, rfl, ?_⟩
    rw [after]
    refine ⟨rfl, rfl, fun h => congrArg some (judgeFrame_sync h), fun b3 c4 h => congrArg some (judgeFrame_crc b3 c4 h),
      fun b3 c4 h => congrArg some (judgeFrame_good b3 c4 h), fun c x source port => ?_⟩
    have ring := (decideOutcome_sourced p k (judgeFrame bytes).1 (judgeFrame bytes).2 u canonical source port).1
    rw [ring]
    exact ⟨rfl, (write_slot _ k _ (canonical.1 c)).1⟩
  · intro p k o f s canonical x v t c
    have linked : outcomeLinked p o f s = v := rfl
    refine ⟨outcomeLinked_running p o f s, decideOutcome_elsewhere p k o f s canonical, fun src source port => ?_⟩
    intro slot
    have sourced := decideOutcome_sourced p k o f s canonical source port
    have gives : sourcedSlot k f s.map c src p s.rings[c] = slot := rfl
    have after : decideOutcome p k o f s = t := rfl
    rw [linked, gives, after] at sourced
    obtain ⟨ring, chan⟩ := sourced
    have ⟨own, others⟩ := write_slot s.rings[c] k slot (canonical.1 c)
    clear_value slot t v
    rw [ring]
    exact ⟨rfl, own, others, chan⟩
  · intro c k x s canonical t y ahead
    have ring := writeSlot_ring c k x s
    have ⟨own, others⟩ := write_slot s.rings[c] k x (canonical.1 c)
    obtain ⟨u, report, evt⟩ := writeSlot_report c k x s canonical
    refine ⟨congrArg Ring.newest ring, (congrArg (Ring.slot · k) ring).trans own, writeSlot_chan c k x s canonical,
      congrArg Ring.oldest ring, fun m apart => (congrArg (Ring.slot · m) ring).trans (others m apart),
      fun d apart => writeSlot_others c d k x s canonical apart, u, report, evt, ?_, ?_⟩
    · exact ((congrArg State.chn report).trans (gatherReport_chn _ u)).symm
    · exact ((congrArg State.rings report).trans (gatherReport_rings _ u)).symm

end Sys2Proof.Proofs
end

