-- ==== Sys2Proof/Proofs/BusFrames.lean ====
section
/-! PROOFS. The receiver of the station bus (R197 to R200): a disabled receiver, the gap, an address judged, a data character taken
into a frame, the frame complete and the request it becomes; from these the settling of O51. -/
namespace Sys2Proof.Proofs

open Sys2Proof Sys2Proof.Machine Sys2Proof.Laws

/-! ### One character -/

theorem deaf_iff (u : State) :
    u.deaf = true ↔ u.bus.recv = .replying ∨ u.osc < u.bus.listenFrom + 176 * u.bus.div := by
  unfold State.deaf
  rw [Bool.or_eq_true, beq_iff_eq, decide_eq_true_iff]
  exact Iff.rfl

theorem exec_addressCharacter (dt : Nat) (b : Byte) (f : CharFault) {s : State} (powered : s.powered = true) :
    exec (.busAddressCharacter dt b f) s = .next (busChar f (addressChar b) (elapse dt s)) :=
  act_on (f := fun s => busChar f (addressChar b) (elapse dt s)) powered

theorem exec_dataCharacter (dt : Nat) (b : Byte) (f : CharFault) {s : State} (powered : s.powered = true) :
    exec (.busDataCharacter dt b f) s = .next (busChar f (dataChar b) (elapse dt s)) :=
  act_on (f := fun s => busChar f (dataChar b) (elapse dt s)) powered

section Char
variable {u : State} (g : State → State)

theorem busChar_deaf (deaf : u.deaf = true) (f : CharFault) : busChar f g u = u := by
  unfold busChar
  rw [if_pos deaf]

variable (hears : ¬ u.deaf = true)
include hears

theorem busChar_clean : busChar .clean g u = g (checkGap u) := by
  unfold busChar
  rw [if_neg hears]

theorem busChar_framing : busChar .framing g u = framingChar (checkGap u) := by
  unfold busChar
  rw [if_neg hears]

theorem busChar_overrun : busChar .overrun g u =
    if (checkGap u).bus.div < 4 then overrunChar (checkGap u) else g (checkGap u) := by
  unfold busChar
  rw [if_neg hears]

end Char

theorem checkGap_idle {u : State} (idle : u.bus.frame = none) : checkGap u = u := by
  unfold checkGap
  rw [idle]
  exact if_neg Bool.false_ne_true

theorem checkGap_soon {u : State} (soon : u.osc < u.bus.lastChar + 32 * (176 * u.bus.div)) : checkGap u = u := by
  refine if_neg fun gap => ?_
  have reached : u.bus.lastChar + 32 * (176 * u.bus.div) ≤ u.osc := of_decide_eq_true (Bool.and_eq_true_iff.mp gap).2
  omega

theorem checkGap_reached {u : State} {f : BusFrame} (taking : u.bus.frame = some f)
    (gap : u.bus.lastChar + 32 * (176 * u.bus.div) ≤ u.osc) : checkGap u = breakFrame u := by
  have reached : decide (u.busGap ≤ u.osc) = true := decide_eq_true gap
  unfold checkGap
  rw [taking, reached]
  exact if_pos rfl

section Idle
variable {u : State} (idle : u.bus.frame = none)
include idle

theorem framingChar_idle : framingChar u = u := by
  unfold framingChar
  rw [idle]
  exact if_neg Bool.false_ne_true

theorem overrunChar_idle : overrunChar u = u := by
  unfold overrunChar
  rw [idle]
  exact if_neg Bool.false_ne_true

theorem dataChar_idle (b : Byte) : dataChar b u = u := by
  unfold dataChar
  rw [idle]

theorem addressChar_idle (b : Byte) : addressChar b u = judgeAddress b u := by
  unfold addressChar
  rw [idle]
  exact congrArg (judgeAddress b) (if_neg Bool.false_ne_true)

end Idle

/-- With no frame to take it into, a data character leaves nothing, whatever became of it. -/
theorem busChar_data_idle {u : State} (hears : ¬ u.deaf = true) (idle : (checkGap u).bus.frame = none) (b : Byte)
    (f : CharFault) : busChar f (dataChar b) u = checkGap u := by
  match f with
  | .clean => rw [busChar_clean _ hears, dataChar_idle idle]
  | .framing => rw [busChar_framing _ hears, framingChar_idle idle]
  | .overrun => rw [busChar_overrun _ hears, overrunChar_idle idle, dataChar_idle idle, ite_self]

/-! ### A frame begun, grown or gone -/

/-- The frame that an address character begins. -/
def frameBegun (b : Byte) (u : State) : BusFrame := { bcast := b == 0xFF, busy := u.bus.req.isSome || u.bus.restartDue }

/-- The state with g as the frame in progress, its last character on this cycle. -/
def framePut (g : BusFrame) (u : State) : State := { u with bus := { u.bus with frame := some g, lastChar := u.osc } }

/-- The state with the frame in progress gone and the counters n. -/
def frameGone (n : BusCounters) (u : State) : State :=
  { u with bus := { u.bus with frame := none, recv := if u.bus.recv = .receiving then .ignoring else .handling, counts := n } }

/-- The counters with one more broken frame. -/
def brokenOf (u : State) : BusCounters := { u.bus.counts with broken := inc16 u.bus.counts.broken }

section Taking
variable {u : State} (taking : u.bus.recv = .receiving ∨ u.bus.recv = .handling)
include taking

theorem dropFrame_gone (count : BusCounters → BusCounters) :
    dropFrame (countBus count u) = frameGone (count u.bus.counts) u := by
  have recv : (if u.bus.recv = .receiving then .ignoring else u.bus.recv)
      = if u.bus.recv = .receiving then Recv.ignoring else .handling := by
    rcases taking with r | r
    · rw [r, if_pos rfl, if_pos rfl]
    · rw [r]
  unfold dropFrame countBus frameGone
  dsimp only
  rw [recv]

theorem countBus_gone (count : BusCounters → BusCounters) :
    countBus count (dropFrame u) = frameGone (count u.bus.counts) u :=
  (show countBus count (dropFrame u) = dropFrame (countBus count u) from rfl).trans (dropFrame_gone taking count)

theorem breakFrame_gone : breakFrame u = frameGone (brokenOf u) u := dropFrame_gone taking _

/-- An address character that matches begins a frame in place of one that has broken. -/
theorem judgeAddress_broken {b : Byte} (match' : b.toNat = u.bus.addr ∨ b = 0xFF) :
    judgeAddress b (breakFrame u) = { u with bus := { u.bus with
      frame := some (frameBegun b u), lastChar := u.osc, counts := brokenOf u } } := by
  have recv : (if (if u.bus.recv = .receiving then Recv.ignoring else .handling) = .handling then Recv.handling
      else .receiving) = u.bus.recv := by
    rcases taking with r | r <;> rw [r] <;> rfl
  rw [breakFrame_gone taking]
  refine (if_pos match').trans ?_
  unfold frameGone
  dsimp only
  rw [recv]
  exact rfl

end Taking

theorem judgeAddress_other {b : Byte} {u : State} (apart : b.toNat ≠ u.bus.addr) (own : b ≠ 0xFF) : judgeAddress b u = u :=
  if_neg fun h => h.elim apart own

section Begun
variable {u : State} {f : BusFrame} (taken : u.bus.frame = some f)
include taken

theorem addressChar_broken (b : Byte) : addressChar b u = judgeAddress b (breakFrame u) := by
  unfold addressChar
  rw [taken]
  exact congrArg (judgeAddress b) (if_pos rfl)

theorem framingChar_open :
    framingChar u = dropFrame (countBus (fun c => { c with framing := inc16 c.framing }) u) := by
  unfold framingChar
  rw [taken]
  exact if_pos rfl

theorem overrunChar_open :
    overrunChar u = dropFrame (countBus (fun c => { c with overruns := inc16 c.overruns }) u) := by
  unfold overrunChar
  rw [taken]
  exact if_pos rfl

theorem dataChar_open (b : Byte) : dataChar b u = takeChar f b u := by
  unfold dataChar
  rw [taken]

end Begun

/-! ### A data character taken -/

section TakeChar
variable {f : BusFrame} {b : Byte} {u : State}

theorem takeChar_length (first : f.len = none) (fits : b.toNat ≤ 240) :
    takeChar f b u = framePut { f with len := some b.toNat } u := by
  unfold takeChar
  rw [first]
  exact if_neg (Nat.not_lt.mpr fits)

theorem takeChar_oversize (first : f.len = none) (large : 240 < b.toNat) :
    takeChar f b u = dropFrame (countBus (fun c => { c with oversize := inc16 c.oversize }) u) := by
  unfold takeChar
  rw [first]
  exact if_pos large

theorem takeChar_kind {n : Nat} (length : f.len = some n) (second : f.kind = none) :
    takeChar f b u = framePut { f with kind := some b } u := by
  unfold takeChar
  rw [length, second]
  exact rfl

variable {n : Nat} {k : Byte} (length : f.len = some n) (kind : f.kind = some k)
include length kind

theorem takeChar_body (short : f.body.length < n) : takeChar f b u = framePut { f with body := f.body ++ [b] } u := by
  unfold takeChar
  rw [length, kind]
  exact if_pos short

theorem takeChar_check (whole : n ≤ f.body.length) (none : f.crc = []) :
    takeChar f b u = framePut { f with crc := [b] } u := by
  unfold takeChar
  rw [length, kind]
  dsimp only
  rw [if_neg (Nat.not_lt.mpr whole), none]
  exact rfl

theorem takeChar_last {x : Byte} (whole : n ≤ f.body.length) (one : f.crc = [x]) :
    takeChar f b u = completeFrame { f with crc := [x, b] } k u := by
  unfold takeChar
  rw [length, kind]
  dsimp only
  rw [if_neg (Nat.not_lt.mpr whole), one]
  exact rfl

end TakeChar

/-! ### The frame complete -/

section Complete
variable {f : BusFrame} {k : Byte} {u : State} (taking : u.bus.recv = .receiving ∨ u.bus.recv = .handling)
include taking

theorem completeFrame_crc (wrong : crcBytes (byte (f.len.getD 0) :: k :: f.body) ≠ f.crc) :
    completeFrame f k u = frameGone { u.bus.counts with crc := inc16 u.bus.counts.crc } u :=
  (if_pos wrong).trans (countBus_gone taking _)

theorem completeFrame_busy (right : crcBytes (byte (f.len.getD 0) :: k :: f.body) = f.crc)
    (busy : f.busy = true ∨ u.bus.req.isSome = true ∨ u.bus.restartDue = true) :
    completeFrame f k u = frameGone { u.bus.counts with busyOverrun := inc16 u.bus.counts.busyOverrun } u := by
  have refused : (f.busy || (dropFrame u).busy) = true := by
    rw [Bool.or_eq_true, show (dropFrame u).busy = (u.bus.req.isSome || u.bus.restartDue) from rfl, Bool.or_eq_true]
    exact busy
  refine (if_neg (not_not_intro right)).trans ((if_pos refused).trans (countBus_gone taking _))

/-- The counters with one more good frame. -/
def goodOf (bcast : Bool) (u : State) : BusCounters :=
  if bcast = true then { u.bus.counts with goodBcast := inc16 u.bus.counts.goodBcast }
  else { u.bus.counts with goodOwn := inc16 u.bus.counts.goodOwn }

theorem completeFrame_good (right : crcBytes (byte (f.len.getD 0) :: k :: f.body) = f.crc)
    (first : f.busy = false) (idle : u.bus.req = none) (settled : u.bus.restartDue = false) :
    completeFrame f k u = acceptRequest f.bcast k f.body (frameGone (goodOf f.bcast u) u) := by
  have free : (f.busy || (dropFrame u).busy) = false := by
    rw [show (dropFrame u).busy = (u.bus.req.isSome || u.bus.restartDue) from rfl, first, idle, settled]
    rfl
  refine (if_neg (not_not_intro right)).trans ((if_neg (by rw [free]; decide)).trans ?_)
  rw [countBus_gone taking]
  exact rfl

end Complete

/-! ### The snapshot of a reading request (R201) -/

/-- The snapshot taken at the receipt of a request. -/
def receipt (k : Byte) (body : List Byte) (v : State) : Option (List Byte) :=
  if lengthFits k body then v.snapshot k body else none

theorem receipt_fits {k : Byte} {body : List Byte} (fits : lengthFits k body = true) (v : State) :
    receipt k body v = v.snapshot k body := if_pos fits

section Receipt
variable (v : State) {k : Byte} {body : List Byte}

theorem lengthFits_of_length {n : Nat} (length : body.length = n) : (body.length == n) = true := beq_iff_eq.mpr length

theorem chanOf_val (c : Chan) : chanOf c.val = some c := dif_pos c.isLt

theorem chanOf_none {n : Nat} (large : 6 ≤ n) : chanOf n = none := dif_neg (Nat.not_lt.mpr large)

theorem receipt_time (kind : k = 0x02) (empty : body = []) : receipt k body v = some (0x00 :: v.timeBody) := by
  subst kind empty
  rfl

theorem receipt_clock (kind : k = 0x04) (empty : body = []) : receipt k body v = some (0x00 :: v.clockBody) := by
  subst kind empty
  rfl

theorem receipt_conditions (kind : k = 0x50) (empty : body = []) : receipt k body v = some (0x00 :: v.conditionsBody) := by
  subst kind empty
  rfl

theorem receipt_interval (kind : k = 0x52) (empty : body = []) : receipt k body v = some (0x00 :: v.intervalBody) := by
  subst kind empty
  rfl

theorem receipt_power (kind : k = 0x60) (empty : body = []) : receipt k body v = some (0x00 :: v.powerBody) := by
  subst kind empty
  rfl

theorem receipt_status (kind : k = 0x01) (empty : body = []) : receipt k body v = some (0x00 :: v.statusBody) := by
  subst kind empty
  rfl

theorem receipt_index (kind : k = 0x30) (length : body.length = 4) :
    receipt k body v = some (0x00 :: v.indexBody (field body 0 4)) := by
  subst kind
  exact (receipt_fits (k := 0x30) (lengthFits_of_length length) v).trans rfl

theorem receipt_outbox (kind : k = 0x70) (length : body.length = 1) :
    receipt k body v = some (0x00 :: v.outboxBody (field body 0 1)) := by
  subst kind
  exact (receipt_fits (k := 0x70) (lengthFits_of_length length) v).trans rfl

section Detector
variable (kind : k = 0x21) (length : body.length = 1)
include kind length

theorem receipt_detector : receipt k body v =
    some (match chanOf (field body 0 1) with | none => [0x04] | some c => 0x00 :: v.detectorBody c) := by
  subst kind
  exact (receipt_fits (k := 0x21) (lengthFits_of_length length) v).trans rfl

theorem receipt_detector_some {c : Chan} (names : field body 0 1 = c.val) :
    receipt k body v = some (0x00 :: v.detectorBody c) := by
  rw [receipt_detector v kind length, names, chanOf_val]

theorem receipt_detector_none (large : 6 ≤ field body 0 1) : receipt k body v = some [0x04] := by
  rw [receipt_detector v kind length, chanOf_none large]

end Detector

section Samples
variable (kind : k = 0x33) (length : body.length = 8)
include kind length

theorem receipt_samples : receipt k body v =
    some (match chanOf (field body 0 1) with
      | none => [0x04]
      | some c => if field body 7 1 = 0 then [0x04] else v.samplesReply c (field body 1 6) (field body 7 1)) := by
  subst kind
  exact (receipt_fits (k := 0x33) (lengthFits_of_length length) v).trans rfl

theorem receipt_samples_some {c : Chan} (names : field body 0 1 = c.val) (counted : field body 7 1 ≠ 0) :
    receipt k body v = some (v.samplesReply c (field body 1 6) (field body 7 1)) := by
  rw [receipt_samples v kind length, names, chanOf_val]
  exact congrArg some (if_neg counted)

theorem receipt_samples_none (refused : 6 ≤ field body 0 1 ∨ field body 7 1 = 0) : receipt k body v = some [0x04] := by
  rw [receipt_samples v kind length]
  rcases named : chanOf (field body 0 1) with _ | c
  · rfl
  · refine congrArg some (if_pos (refused.resolve_left fun large => ?_))
    rw [chanOf_none large] at named
    cases named

end Samples

end Receipt

/-! ### The request accepted -/

section Line
variable (b : Bus) (bcast : Bool) (k : Byte) (body : List Byte)

theorem takeBroadcast_counts : (b.takeBroadcast bcast k body).counts = b.counts := by
  unfold Bus.takeBroadcast
  split
  · split
    · rfl
    · split <;> rfl
  · rfl

theorem takeBroadcast_frame : (b.takeBroadcast bcast k body).frame = b.frame := by
  unfold Bus.takeBroadcast
  split
  · split
    · rfl
    · split <;> rfl
  · rfl

/-- A broadcast PARAM_SET of the parameter n, of the right length. -/
abbrev BroadcastSet (n : Nat) : Prop := bcast = true ∧ k = 0x11 ∧ body.length = 5 ∧ field body 0 1 = n

theorem takeBroadcast_other (h : ¬ (bcast = true ∧ k = 0x11 ∧ body.length = 5)) : b.takeBroadcast bcast k body = b := by
  refine if_neg fun set => h ?_
  rw [Bool.and_eq_true, Bool.and_eq_true, beq_iff_eq] at set
  obtain ⟨⟨bcast, rfl⟩, fits⟩ := set
  exact ⟨bcast, rfl, beq_iff_eq.mp fits⟩

theorem takeBroadcast_set (h : bcast = true ∧ k = 0x11 ∧ body.length = 5) : b.takeBroadcast bcast k body =
    if field body 0 1 = 120 then { b with addr := (max 1 (min 254 (signedOf 32 (field body 1 4)))).toNat }
    else if field body 0 1 = 121 then { b with div := (max 1 (min 255 (signedOf 32 (field body 1 4)))).toNat } else b := by
  obtain ⟨rfl, rfl, length⟩ := h
  exact if_pos (lengthFits_of_length length)

theorem takeBroadcast_addr : (b.takeBroadcast bcast k body).addr =
    if BroadcastSet bcast k body 120 then (max 1 (min 254 (signedOf 32 (field body 1 4)))).toNat else b.addr := by
  by_cases set : bcast = true ∧ k = 0x11 ∧ body.length = 5
  · obtain ⟨all, kind, length⟩ := set
    rw [takeBroadcast_set b bcast k body ⟨all, kind, length⟩]
    by_cases addr : field body 0 1 = 120
    · rw [if_pos addr, if_pos (c := BroadcastSet bcast k body 120) ⟨all, kind, length, addr⟩]
    · rw [if_neg addr, if_neg (c := BroadcastSet bcast k body 120) fun h => addr h.2.2.2]
      split <;> rfl
  · rw [takeBroadcast_other b bcast k body set, if_neg fun ⟨all, kind, length, _⟩ => set ⟨all, kind, length⟩]

theorem takeBroadcast_div : (b.takeBroadcast bcast k body).div =
    if BroadcastSet bcast k body 121 then (max 1 (min 255 (signedOf 32 (field body 1 4)))).toNat else b.div := by
  by_cases set : bcast = true ∧ k = 0x11 ∧ body.length = 5
  · obtain ⟨all, kind, length⟩ := set
    rw [takeBroadcast_set b bcast k body ⟨all, kind, length⟩]
    by_cases div : field body 0 1 = 121
    · rw [if_neg (by omega), if_pos div, if_pos (c := BroadcastSet bcast k body 121) ⟨all, kind, length, div⟩]
    · rw [if_neg (c := BroadcastSet bcast k body 121) fun h => div h.2.2.2, if_neg div]
      split <;> rfl
  · rw [takeBroadcast_other b bcast k body set, if_neg fun ⟨all, kind, length, _⟩ => set ⟨all, kind, length⟩]

end Line

/-- The request that a good frame becomes in v. -/
def requestOf (bcast : Bool) (k : Byte) (body : List Byte) (v : State) : Request where
  bcast := bcast
  kind := k
  body := body
  cycle := v.osc
  ticks := v.clk.ticks
  stamp := v.stamp
  eventActive := v.eventActive
  forbidden := v.stepForbidden
  snapshot := receipt k body v
  chargerFound := v.chargerFinding
  heaterFound := v.heaterFinding

theorem acceptRequest_bus (bcast : Bool) (k : Byte) (body : List Byte) (v : State) :
    (acceptRequest bcast k body v).bus =
      { v.bus.takeBroadcast bcast k body with req := some (requestOf bcast k body v), recv := .handling } := rfl

/-! ### A frame that is being taken -/

/-- What is known where a character arrives in time for the frame f. -/
structure InFrame (f : BusFrame) (u : State) : Prop where
  hears : ¬ u.deaf = true
  taking : u.bus.recv = .receiving ∨ u.bus.recv = .handling
  taken : u.bus.frame = some f
  soon : u.osc < u.bus.lastChar + 32 * (176 * u.bus.div)

section InFrame
variable {f : BusFrame} {u : State} (h : InFrame f u) (b : Byte)
include h

theorem clean_address : busChar .clean (addressChar b) u = judgeAddress b (breakFrame u) := by
  rw [busChar_clean _ h.hears, checkGap_soon h.soon, addressChar_broken h.taken]

theorem clean_data : busChar .clean (dataChar b) u = takeChar f b u := by
  rw [busChar_clean _ h.hears, checkGap_soon h.soon, dataChar_open h.taken]

theorem framing_gone (g : State → State) : busChar .framing g u =
    frameGone { u.bus.counts with framing := inc16 u.bus.counts.framing } u := by
  rw [busChar_framing g h.hears, checkGap_soon h.soon, framingChar_open h.taken, dropFrame_gone h.taking]

theorem overrun_gone (g : State → State) (fast : u.bus.div < 4) : busChar .overrun g u =
    frameGone { u.bus.counts with overruns := inc16 u.bus.counts.overruns } u := by
  rw [busChar_overrun g h.hears, checkGap_soon h.soon, if_pos fast, overrunChar_open h.taken, dropFrame_gone h.taking]

theorem overrun_clean (g : State → State) (slow : 4 ≤ u.bus.div) : busChar .overrun g u = busChar .clean g u := by
  rw [busChar_overrun g h.hears, busChar_clean g h.hears, checkGap_soon h.soon, if_neg (Nat.not_lt.mpr slow)]

end InFrame

/-- An address character that does not match breaks the frame. -/
theorem judgeAddress_gone {u : State} {b : Byte} (taking : u.bus.recv = .receiving ∨ u.bus.recv = .handling)
    (apart : b.toNat ≠ u.bus.addr) (own : b ≠ 0xFF) : judgeAddress b (breakFrame u) = frameGone (brokenOf u) u := by
  rw [breakFrame_gone taking]
  exact judgeAddress_other apart own

/-- The counters after a good frame. -/
theorem goodOf_counts (bcast : Bool) (u : State) :
    (goodOf bcast u).goodOwn = (if bcast = true then u.bus.counts.goodOwn else inc16 u.bus.counts.goodOwn)
    ∧ (goodOf bcast u).goodBcast = (if bcast = true then inc16 u.bus.counts.goodBcast else u.bus.counts.goodBcast) := by
  unfold goodOf
  cases bcast <;> exact ⟨rfl, rfl⟩

theorem receipt_status_own {bcast : Bool} {k : Byte} {body : List Byte} {u : State} (kind : k = 0x01) (empty : body = [])
    (own : bcast = false) : receipt k body (frameGone (goodOf bcast u) u) = some (0x00 ::
      (frameGone { u.bus.counts with goodOwn := inc16 u.bus.counts.goodOwn } u).statusBody) := by
  subst own
  exact receipt_status _ kind empty

/-- Settles O51: each character by the state of the receiver and of the frame it meets. -/
theorem busFramesAreBuilt : Obligations.BusFramesAreBuilt := by
  intro dt b s u powered hu deaf begun
  have address (f : CharFault) : exec (.busAddressCharacter dt b f) s = .next (busChar f (addressChar b) u) :=
    hu ▸ exec_addressCharacter dt b f powered
  have data (f : CharFault) : exec (.busDataCharacter dt b f) s = .next (busChar f (dataChar b) u) :=
    hu ▸ exec_dataCharacter dt b f powered
  have hears (h : ¬ deaf) : ¬ u.deaf = true := fun d => h ((deaf_iff u).mp d)
  refine ⟨fun d f => ?_, fun d recv idle => ?_, fun f d taking taken soon => ?_, fun f x d taking taken gap => ?_,
    fun f v taken reached => ?_⟩
  · rw [address, data, busChar_deaf _ ((deaf_iff u).mpr d), busChar_deaf _ ((deaf_iff u).mpr d)]
    exact ⟨rfl, rfl⟩
  · have still : checkGap u = u := checkGap_idle idle
    refine ⟨fun own => ?_, fun apart other => ?_, ?_, fun f => ?_⟩
    · rw [address, busChar_clean _ (hears d), still, addressChar_idle idle]
      exact congrArg Host.Outcome.next (if_pos own)
    · rw [address, busChar_clean _ (hears d), still, addressChar_idle idle, judgeAddress_other apart other]
    · rw [address, busChar_framing _ (hears d), still, framingChar_idle idle]
    · rw [data, busChar_data_idle (hears d) (still.symm ▸ idle), still]
  · have h : InFrame f u := ⟨hears d, taking, taken, soon⟩
    intro put gone broken
    refine ⟨fun own => ?_, fun apart other => ?_, ?_, ?_, fun slow => ?_, fun first fits => ?_, fun first large => ?_,
      fun n length second => ?_, fun n k length kind short => ?_, fun n k length kind whole start => ?_,
      fun n k x length kind whole one => ⟨fun wrong => ?_, fun right busy => ?_, fun right first idle settled => ?_⟩⟩
    · rw [address, clean_address h, judgeAddress_broken taking own]
      exact rfl
    · rw [address, clean_address h, judgeAddress_gone taking apart other]
      exact rfl
    · rintro x (rfl | rfl)
      · rw [data, framing_gone h]
        exact rfl
      · rw [address, framing_gone h]
        exact rfl
    · rintro x fast (rfl | rfl)
      · rw [data, overrun_gone h _ fast]
        exact rfl
      · rw [address, overrun_gone h _ fast]
        exact rfl
    · rw [data, data, overrun_clean h _ slow]
    · rw [data, clean_data h, takeChar_length first fits]
      exact rfl
    · rw [data, clean_data h, takeChar_oversize first large, dropFrame_gone taking]
      exact rfl
    · rw [data, clean_data h, takeChar_kind length second]
      exact rfl
    · rw [data, clean_data h, takeChar_body length kind short]
      exact rfl
    · rw [data, clean_data h, takeChar_check length kind whole start]
      exact rfl
    · rw [data, clean_data h, takeChar_last length kind whole one, completeFrame_crc taking (by rw [length]; exact wrong)]
      exact rfl
    · rw [data, clean_data h, takeChar_last length kind whole one,
        completeFrame_busy (f := { f with crc := [x, b] }) taking (by rw [length]; exact right) busy]
      exact rfl
    · rw [data, clean_data h, takeChar_last length kind whole one,
        completeFrame_good (f := { f with crc := [x, b] }) taking (by rw [length]; exact right) first idle settled]
      refine ⟨_, requestOf f.bcast k f.body (frameGone (goodOf f.bcast u) u), rfl, rfl, rfl,
        takeBroadcast_frame _ f.bcast k f.body, rfl, rfl, rfl, rfl, rfl, rfl, rfl, rfl,
        ⟨takeBroadcast_addr _ f.bcast k f.body, takeBroadcast_div _ f.bcast k f.body⟩, ?_, ?_, ?_⟩
      · exact (congrArg BusCounters.goodOwn (takeBroadcast_counts _ f.bcast k f.body)).trans (goodOf_counts f.bcast u).1
      · exact (congrArg BusCounters.goodBcast (takeBroadcast_counts _ f.bcast k f.body)).trans (goodOf_counts f.bcast u).2
      · exact ⟨fun kind empty => receipt_time _ kind empty, fun kind empty => receipt_clock _ kind empty,
          fun kind empty => receipt_conditions _ kind empty, fun kind empty => receipt_interval _ kind empty,
          fun kind empty => receipt_power _ kind empty, fun kind empty own => receipt_status_own kind empty own,
          fun kind length => receipt_index _ kind length, fun kind length => receipt_outbox _ kind length,
          fun c kind length names => receipt_detector_some _ kind length names,
          fun kind length large => receipt_detector_none _ kind length large,
          fun c kind length names counted => receipt_samples_some _ kind length names counted,
          fun kind length refused => receipt_samples_none _ kind length refused⟩
  · have still : checkGap u = breakFrame u := checkGap_reached taken gap
    intro broken lost
    refine ⟨?_, fun own => ?_, fun apart other => ?_⟩
    · have idle : (checkGap u).bus.frame = none := by rw [still]; rfl
      rw [data, busChar_data_idle (hears d) idle, still, breakFrame_gone taking]
      exact rfl
    · rw [address, busChar_clean _ (hears d), still, addressChar_idle rfl, judgeAddress_broken taking own]
      exact rfl
    · rw [address, busChar_clean _ (hears d), still, addressChar_idle rfl, judgeAddress_gone taking apart other]
      exact rfl
  · have e : exec .busGapTimeout s = execBusGapTimeout s := rfl
    have open' : s.bus.frame.isSome = true := by rw [taken]; rfl
    rw [e, execBusGapTimeout, act_on powered, if_pos open', atCycle_of_reach (show reach s.busGap s = some v from reached)]
    exact rfl

end Sys2Proof.Proofs
end

