-- ==== Sys2Proof/Proofs/Replies.lean ====
section
/-! PROOFS. A request handled and its reply (R201 to R203, R43): the requests that no rule serves, the reply made ready, begun and
ended; from these the settling of O52. -/
namespace Sys2Proof.Proofs

open Sys2Proof Sys2Proof.Machine Sys2Proof.Laws

/-! ### A request refused for its length -/

/-- A request of type x.2 with a body of the wrong length is answered BAD_LENGTH by x.1. -/
def MisfitAnswered (q : Request) (s : State) (x : Instr × Byte) : Prop :=
  s.misfit x.2 q → s.store.saving = none → exec x.1 s = .next (finish [0x03] s)

section Misfit
variable {q : Request} {s : State}

theorem misfit_serve {x : Instr} {k : Byte} (f : Request → State → List Byte × State)
    (e : exec x s = act (serve k f) s) : MisfitAnswered q s (x, k) := by
  intro misfit _
  rw [e, act_on misfit.1, serve_misfit f misfit]

theorem misfit_output {x : Instr} {bit : Nat} {served : Request → Bool} {run : Request → State → State}
    {put : Request → Request} (e : exec x s = act (outputPart bit served run put) s) : MisfitAnswered q s (x, 0x61) := by
  rintro ⟨powered, req, recv, reply, kind, long⟩ -
  rw [e, act_on powered]
  unfold outputPart
  rw [req, recv, reply]
  dsimp only
  rw [if_neg (not_not_intro kind), if_pos long]

theorem misfit_save : MisfitAnswered q s (.settingsSave, 0x12) := by
  rintro ⟨powered, req, recv, reply, kind, long⟩ idle
  have e : exec .settingsSave s = execSettingsSave s := rfl
  rw [e, execSettingsSave, act_on powered, req, recv, reply, idle]
  dsimp only
  rw [if_neg (not_not_intro kind), if_neg (by rw [long]; decide)]

theorem misfits_answered : ∀ x ∈ ([(.status, 0x01), (.timeGet, 0x02), (.timeSet, 0x03), (.clockDetail, 0x04), (.paramGet, 0x10),
    (.paramSet, 0x11), (.settingsSave, 0x12), (.detectorSet, 0x20), (.detectorGet, 0x21), (.mapSet, 0x22), (.mapGet, 0x23),
    (.eventIndex, 0x30), (.eventGet, 0x31), (.eventRelease, 0x32), (.samplesFetch, 0x33), (.marksTake, 0x40),
    (.calAdd, 0x41), (.calCancel, 0x42), (.calList, 0x43), (.conditionsGet, 0x50), (.pendingClear, 0x51),
    (.intervalGet, 0x52), (.powerGet, 0x60), (.outputRestartCharger, 0x61), (.outputRestartHeater, 0x61),
    (.outboxGet, 0x70), (.noteSend, 0x71), (.restart, 0x7F)] : List (Instr × Byte)), MisfitAnswered q s x := by
  simp only [List.forall_mem_cons]
  exact ⟨misfit_serve _ rfl, misfit_serve _ rfl, misfit_serve _ rfl, misfit_serve _ rfl, misfit_serve _ rfl,
    misfit_serve _ rfl, misfit_save, misfit_serve _ rfl, misfit_serve _ rfl, misfit_serve _ rfl, misfit_serve _ rfl,
    misfit_serve _ rfl, misfit_serve _ rfl, misfit_serve _ rfl, misfit_serve _ rfl, misfit_serve _ rfl,
    misfit_serve _ rfl, misfit_serve _ rfl, misfit_serve _ rfl, misfit_serve _ rfl, misfit_serve _ rfl,
    misfit_serve _ rfl, misfit_serve _ rfl, misfit_output rfl, misfit_output rfl,
    misfit_serve _ rfl, misfit_serve _ rfl, misfit_serve _ rfl, List.forall_mem_nil _⟩

end Misfit

/-! ### The reply -/

section Reply
variable {q : Request} {s : State} (hand : s.bus.req = some q)
include hand

theorem finish_own (reply : List Byte) (own : q.bcast = false) : finish reply s = s.replied reply := by
  unfold finish
  rw [hand]
  exact if_neg (by rw [own]; decide)

theorem finish_broadcast (reply : List Byte) (all : q.bcast = true) : finish reply s = { s with bus := { s.bus with
    req := none, recv := if s.bus.frame.isSome then .receiving else .ignoring,
    addr := s.stationAddress, div := s.busDivisor } } := by
  unfold finish
  rw [hand]
  exact if_pos all

theorem unknownType_answered (powered : s.powered = true) (handling : s.bus.recv = .handling) (open' : s.bus.reply = none)
    (unknown : q.kind ∉ catalogue) : exec .unknownType s = .next (finish [0x02] s) := by
  have e : exec .unknownType s = execUnknownType s := rfl
  rw [e, execUnknownType, act_on powered, hand, handling, open']
  exact congrArg Host.Outcome.next (if_neg fun known => unknown (List.contains_iff_mem.mp known))

/-- The end of the reply to q, its carried finished entries gone; a RESTART is then due, any other takes the stored line. -/
theorem endReply_eq : endReply s =
    let due := q.kind == 0x7F && q.body.isEmpty
    { s with
      sch := { s.sch with cals := s.sch.cals.filter fun c => !q.reported.contains c.id }
      bus := { s.bus with
        counts := { s.bus.counts with replies := inc16 s.bus.counts.replies }, recv := .ignoring, req := none,
        tx := [], de := false, listenFrom := s.osc, restartDue := due, addr := if due then s.bus.addr else s.stationAddress,
        div := if due then s.bus.div else s.busDivisor } } := by
  unfold endReply
  rw [hand]
  dsimp only
  by_cases due : (q.kind == 0x7F && q.body.isEmpty) = true
  · rw [if_pos due, if_pos due, if_pos due]
    exact rfl
  · rw [if_neg due, if_neg due, if_neg due]
    exact rfl

end Reply

theorem startReply_eq (k : Byte) (r : List Byte) (u : State) : startReply k r u =
    let l := byte r.length :: (k + 0x80) :: r
    { u with bus := { u.bus with
      frame := none
      counts := if u.bus.frame.isSome then { u.bus.counts with broken := inc16 u.bus.counts.broken } else u.bus.counts
      recv := .replying, reply := none, tx := 0x00 :: l ++ crcBytes l, txAt := u.osc, de := true } } := by
  unfold startReply
  by_cases taking : u.bus.frame.isSome = true
  · simp only [if_pos taking]
    exact rfl
  · have idle : u.bus.frame = none := Option.not_isSome_iff_eq_none.mp taking
    simp only [if_neg taking]
    rw [← idle]
    exact rfl

theorem exec_replyStart {q : Request} {s : State} {dt : Nat} {r : List Byte} (powered : s.powered = true)
    (hand : s.bus.req = some q) (handling : s.bus.recv = .handling) (ready : s.bus.reply = some r)
    (late : q.cycle + 2 * (176 * s.bus.div) ≤ (elapse (max dt (q.cycle + 2 * (176 * s.bus.div) - s.osc)) s).osc) :
    exec (.replyStart dt) s =
      .next (startReply q.kind r (elapse (max dt (q.cycle + 2 * (176 * s.bus.div) - s.osc)) s)) := by
  have e : exec (.replyStart dt) s = execReplyStart dt s := rfl
  rw [e, execReplyStart, act_on powered, hand, handling, ready]
  exact congrArg Host.Outcome.next (if_pos late)

/-- Settles O52: the reply by who asked for it, the refusals by what is wrong, the line by the reply that goes out. -/
theorem requestsAreAnswered : Obligations.RequestsAreAnswered := by
  intro q s hand
  refine ⟨finish_own hand, finish_broadcast hand, unknownType_answered hand, misfits_answered, ?_, ?_⟩
  · intro dt r powered handling ready u late l
    have bus : u.bus = s.bus := bus_of (elapse_does _ s) (by decide)
    have begun : exec (.replyStart dt) s = .next (startReply q.kind r u) :=
      exec_replyStart powered hand handling ready late
    clear_value u
    rw [begun, startReply_eq, bus]
  · intro u powered replying reached due
    have e : exec .replyEnd s = execReplyEnd s := rfl
    have bus : u.bus = s.bus := bus_of (reach_does reached) (by decide)
    have still : reach (s.bus.txAt + s.bus.tx.length * s.charCycles) s = some u := reached
    rw [e, execReplyEnd, act_on powered, if_pos replying, atCycle_of_reach still, endReply_eq (bus ▸ hand)]

end Sys2Proof.Proofs
end

