-- ==== Sys2Proof/Proofs/BitFields.lean ====
section
/-! PROOFS. Flags as bits (11.2, R214): a set of ids as a number, a byte of flags, a bitmap; and the slots that a SAMPLES_FETCH
carries (R62, R106, R107). -/
namespace Sys2Proof.Proofs

open Sys2Proof Sys2Proof.Machine Sys2Proof.Laws

/-! ### A set as a number -/

theorem setBits_cons (b : Bool) (l : List Bool) : setBits (b :: l) = Nat.bit b (setBits l) := by
  cases b <;> rfl

theorem testBit_setBits (l : List Bool) (i : Nat) : (setBits l).testBit i = l.getD i false := by
  induction l generalizing i with
  | nil => exact Nat.zero_testBit i
  | cons b l ih =>
    rw [setBits_cons]
    match i with
    | 0 => exact Nat.testBit_bit_zero b _
    | i + 1 => rw [Nat.testBit_bit_succ, ih, List.getD_cons_succ]

theorem setBits_lt (l : List Bool) : setBits l < 2 ^ l.length := by
  refine Nat.lt_pow_two_of_testBit _ fun i long => ?_
  rw [testBit_setBits, List.getD_eq_default _ _ long]

theorem getLsbD_byte_setBits (l : List Bool) {i : Nat} (fits : i < 8) : (byte (setBits l)).getLsbD i = l.getD i false := by
  rw [BitVec.getLsbD_ofNat, decide_eq_true fits, Bool.true_and, testBit_setBits]

/-! ### A bitmap -/

theorem bitmapByte_eq (l : List Bool) : bitmapByte l = byte (setBits (l ++ List.replicate (8 - l.length) false).reverse) := by
  unfold bitmapByte setBits
  rw [List.foldr_reverse]

/-- The first flag of eight stands in the most significant bit. -/
theorem getLsbD_bitmapByte {l : List Bool} (eight : l.length ≤ 8) {i : Nat} (short : i < l.length) :
    (bitmapByte l).getLsbD (7 - i) = l[i] := by
  have length : (l ++ List.replicate (8 - l.length) false).length = 8 := by
    rw [List.length_append, List.length_replicate]
    omega
  have place : (l ++ List.replicate (8 - l.length) false).length - 1 - (7 - i) = i := by omega
  rw [bitmapByte_eq, getLsbD_byte_setBits _ (by omega), List.getD_eq_getElem _ _ (by rw [List.length_reverse]; omega),
    List.getElem_reverse]
  simp only [place]
  rw [List.getElem_append_left short]

theorem length_bitmap (n : Nat) (l : List Bool) : (bitmap n l).length = n := by
  induction n generalizing l with
  | zero => rfl
  | succ n ih => exact congrArg Nat.succ (ih (l.drop 8))

/-- Flag i of a bitmap stands in byte i / 8, from the most significant bit on. -/
theorem getLsbD_bitmap {n : Nat} {l : List Bool} (fits : l.length ≤ 8 * n) {i : Nat} (short : i < l.length) :
    ((bitmap n l).getD (i / 8) 0).getLsbD (7 - i % 8) = l[i] := by
  induction n generalizing l i with
  | zero => omega
  | succ n ih =>
    by_cases first : i < 8
    · have zero : i / 8 = 0 := Nat.div_eq_of_lt first
      have length : (l.take 8).length = min 8 l.length := List.length_take
      rw [zero, Nat.mod_eq_of_lt first]
      refine (getLsbD_bitmapByte (l := l.take 8) (by omega) (by omega)).trans ?_
      exact List.getElem_take
    · have length : (l.drop 8).length = l.length - 8 := List.length_drop
      have div : i / 8 = (i - 8) / 8 + 1 := by omega
      have mod : i % 8 = (i - 8) % 8 := by omega
      rw [div, mod]
      refine (ih (l := l.drop 8) (i := i - 8) (by omega) (by omega)).trans ?_
      rw [List.getElem_drop]
      have place : 8 + (i - 8) = i := by omega
      simp only [place]

/-! ### The slots fetched -/

/-- The strobe `first` lies in the valid range of the ring r (R62). -/
def Within (r : Ring) (first : Nat) : Prop := ∃ n, r.newest = some n ∧ Machine.dist r.oldest first ≤ Machine.dist r.oldest n

section Held
variable (r : Ring) (first : Nat)

theorem holds_iff : r.holds first = true ↔ Within r first := by
  unfold Ring.holds Within
  rcases r.newest with _ | n
  · exact ⟨fun h => (Bool.false_ne_true h).elim, fun ⟨n, h, _⟩ => nomatch h⟩
  · exact decide_eq_true_iff.trans ⟨fun h => ⟨n, rfl, h⟩, fun ⟨m, e, h⟩ => Option.some.inj e ▸ h⟩

theorem held_outside {count : Nat} (outside : ¬ Within r first) : r.held first count = 0 := by
  unfold Ring.held
  split
  · rfl
  · exact if_neg fun h => outside ((holds_iff r first).mp h)

theorem held_within {count n : Nat} (newest : r.newest = some n) (within : Within r first) :
    r.held first count = min count (Machine.dist first n + 1) := by
  unfold Ring.held
  rw [newest]
  exact if_pos ((holds_iff r first).mpr within)

/-- Where no wrap lies between, the slots held are those up to the newest. -/
theorem held_plain {count n : Nat} (newest : r.newest = some n) (word : n < 281474976710656) (old : r.oldest ≤ first)
    (small : first < 281474976710656) (new : r.oldest ≤ n) :
    r.held first count = if first ≤ n then min count (n - first + 1) else 0 := by
  have far (a b : Nat) (le : a ≤ b) (lt : b < 281474976710656) : Machine.dist a b = b - a := by
    unfold Machine.dist Config.wrap48
    omega
  have inside : Within r first ↔ first ≤ n := by
    unfold Within
    rw [newest, far r.oldest first old small]
    constructor
    · rintro ⟨m, same, le⟩
      obtain rfl := Option.some.inj same
      rw [far r.oldest n new word] at le
      omega
    · intro le
      refine ⟨n, rfl, ?_⟩
      rw [far r.oldest n new word]
      omega
  by_cases le : first ≤ n
  · rw [if_pos le, held_within r first newest (inside.mpr le), far first n le word]
  · rw [if_neg le, held_outside r first fun h => le (inside.mp h)]

end Held

/-- Both ends of a ring, as replies carry them. -/
def ringEnds (r : Ring) : List Byte := beBytes 6 r.oldest ++ optField 6 (r.newest.map (beBytes 6))

section Samples
variable (s : State) (c : Chan) (first count : Nat)

theorem samplesReply_gone (old : first < s.rings[c].oldest) (outside : ¬ Within s.rings[c] first) :
    s.samplesReply c first count = 0x07 :: ringEnds s.rings[c] := by
  have holds : s.rings[c].holds first = false := by
    rw [← Bool.not_eq_true, holds_iff]
    exact outside
  refine if_pos ?_
  unfold Ring.older
  rw [holds, decide_eq_true old]
  rfl

/-- The slots that a fetch from `first` carries. -/
def fetchedSlots (r : Ring) (first n : Nat) : List Slot :=
  (List.range n).map fun i => r.slot ((first + i) % 281474976710656)

theorem samplesReply_slots (h : s.rings[c].oldest ≤ first ∨ Within s.rings[c] first) :
    s.samplesReply c first count =
      let held := s.rings[c].held first (min count 60)
      let slots := fetchedSlots s.rings[c] first held
      (if 60 < count then 0x01 else 0x00) :: byte c.val :: beBytes 6 first ++ [byte held] ++ ringEnds s.rings[c]
        ++ slots.flatMap (fun x => beInt 3 x.value) ++ bitmap ((held + 7) / 8) (slots.map Slot.gap)
        ++ bitmap ((held + 7) / 8) (slots.map Slot.clip) := by
  have young : ¬ s.rings[c].older first = true := by
    unfold Ring.older
    rw [Bool.and_eq_true, decide_eq_true_iff, Bool.not_eq_true', ← Bool.not_eq_true, holds_iff]
    rintro ⟨old, outside⟩
    exact h.elim (Nat.not_le.mpr old) outside
  exact if_neg young

theorem getLsbD_fetched {r : Ring} {n i : Nat} (field : Slot → Bool) (short : i < n) :
    ((bitmap ((n + 7) / 8) ((fetchedSlots r first n).map field)).getD (i / 8) 0).getLsbD (7 - i % 8)
      = field (r.slot ((first + i) % 281474976710656)) := by
  have length : ((fetchedSlots r first n).map field).length = n := by
    unfold fetchedSlots
    rw [List.length_map, List.length_map, List.length_range]
  rw [getLsbD_bitmap (by omega) (length.symm ▸ short)]
  unfold fetchedSlots
  rw [List.getElem_map, List.getElem_map, List.getElem_range]

/-- SAMPLES_FETCH: GONE with the ends of the ring, or the slots held with their flags (R106, R107). -/
theorem samplesReply_answers :
    let r := s.rings[c]
    let slot (i : Nat) := r.slot ((first + i) % 281474976710656)
    (first < r.oldest → ¬ Within r first → s.samplesReply c first count = 0x07 :: ringEnds r)
    ∧ (r.oldest ≤ first ∨ Within r first → ∃ held gaps clips,
        s.samplesReply c first count = (if 60 < count then 0x01 else 0x00) :: byte c.val :: beBytes 6 first ++ [byte held]
          ++ ringEnds r ++ ((List.range held).flatMap fun i => beInt 3 (slot i).value) ++ gaps ++ clips
        ∧ (¬ Within r first → held = 0)
        ∧ (∀ n, r.newest = some n → Within r first → held = min (min count 60) (Machine.dist first n + 1))
        ∧ (∀ n, r.newest = some n → n < 281474976710656 → r.oldest ≤ first → first < 281474976710656 → r.oldest ≤ n →
            held = if first ≤ n then min (min count 60) (n - first + 1) else 0)
        ∧ gaps.length = (held + 7) / 8 ∧ clips.length = (held + 7) / 8
        ∧ ∀ i, i < held → (gaps.getD (i / 8) 0).getLsbD (7 - i % 8) = (slot i).gap
            ∧ (clips.getD (i / 8) 0).getLsbD (7 - i % 8) = (slot i).clip) := by
  intro r slot
  refine ⟨samplesReply_gone s c first count, fun h => ?_⟩
  have reply := samplesReply_slots s c first count h
  have values (n : Nat) : (fetchedSlots r first n).flatMap (fun x => beInt 3 x.value)
      = (List.range n).flatMap fun i => beInt 3 (slot i).value := List.flatMap_map _ _ _
  dsimp only at reply
  rw [values] at reply
  exact ⟨_, _, _, reply, held_outside r first, fun n newest => held_within r first newest,
    fun n newest => held_plain r first newest, length_bitmap _ _, length_bitmap _ _,
    fun i short => ⟨getLsbD_fetched first Slot.gap short, getLsbD_fetched first Slot.clip short⟩⟩

end Samples

end Sys2Proof.Proofs
end

