-- ==== Sys2Proof/Proofs/Reads.lean ====
section
/-! PROOFS. The bytes of the reading requests (11.2, R21, R58, R85, R102, R103, R120, R156, R177, R188, R194, R212): each body
field by field, and who answers with it; from these the settling of O53. -/
namespace Sys2Proof.Proofs

open Sys2Proof Sys2Proof.Machine Sys2Proof.Laws

/-! ### Bytes and vectors -/

theorem beBytes_one (n : Nat) : beBytes 1 n = [byte n] := by
  unfold beBytes beBytes
  rw [Nat.pow_zero, Nat.div_one]

theorem toList_two {α : Type} (v : Vector α 2) : v.toList = [v[(0 : Fin 2)], v[(1 : Fin 2)]] := by
  obtain ⟨⟨l⟩, length⟩ := v
  match l, length with
  | [a, b], _ => rfl

theorem toList_six {α : Type} (v : Vector α 6) : v.toList =
    [v[(0 : Fin 6)], v[(1 : Fin 6)], v[(2 : Fin 6)], v[(3 : Fin 6)], v[(4 : Fin 6)], v[(5 : Fin 6)]] := by
  obtain ⟨⟨l⟩, length⟩ := v
  match l, length with
  | [a, b, c, d, e, f], _ => rfl

theorem setBits_two (a b : Bool) :
    byte (setBits [a, b]) = (if a = true then 1 else 0) + if b = true then 2 else 0 := by
  cases a <;> cases b <;> rfl

theorem setBits_four (a b c d : Bool) : setBits [a, b, c, d] = (if a = true then 1 else 0) + (if b = true then 2 else 0)
    + (if c = true then 4 else 0) + if d = true then 8 else 0 := by
  cases a <;> cases b <;> cases c <;> cases d <;> rfl

/-! ### Bodies -/

section Pieces

theorem stamp_bytes (x : Stamp) : x.bytes = beBytes 4 x.time.s ++ beBytes 4 x.time.t ++ [x.grade.code] := rfl

theorem map_bytes (m : ChanMap) : m.bytes = m.entries[(0 : Chan)].bytes ++ m.entries[(1 : Chan)].bytes
    ++ m.entries[(2 : Chan)].bytes ++ m.entries[(3 : Chan)].bytes ++ m.entries[(4 : Chan)].bytes ++ m.entries[(5 : Chan)].bytes
    ++ [(if m.reversed[(0 : PortId)] = true then 1 else 0) + if m.reversed[(1 : PortId)] = true then 2 else 0] := by
  unfold ChanMap.bytes
  rw [toList_six, toList_two, setBits_two]
  simp only [List.flatMap_cons, List.flatMap_nil, List.append_nil, List.append_assoc]

theorem figures_bytes (f : Figures) : f.bytes = ([f.ports[(0 : PortId)], f.ports[(1 : PortId)]].flatMap fun p =>
      beBytes 2 p.sync ++ beBytes 2 p.crc ++ beBytes 2 p.skips ++ beBytes 2 p.gaps)
    ++ beBytes 4 f.chargeIn ++ beBytes 4 f.chargeOut ++ optField 2 (f.minVb.map (beBytes 2)) ++ optField 2 (f.minTp.map (beInt 2))
    ++ beBytes 2 f.onSeconds ++ beBytes 4 (f.energy / 1000) ++ beBytes 2 f.sent ++ beBytes 2 f.dropped := by
  unfold Figures.bytes
  rw [toList_two]
  simp only [List.flatMap_cons, List.flatMap_nil, List.append_nil, List.append_assoc]

theorem entry_bytes (e : TrigEntry) : e.bytes = [byte e.chan.val] ++ beInt 2 e.offset ++ beBytes 2 e.peak.ratio
    ++ beBytes 3 e.peak.absx ++ [flagByte e.peak.clipped, byte e.onCount] := rfl

theorem close_field (c : Option CloseInfo) : (match c with | none => [0xFF, 0xFF] | some c => beBytes 2 c.duration)
    = beBytes 2 (match c with | none => 65535 | some x => x.duration) := by
  rcases c with _ | c
  · decide
  · rfl

theorem record_header (r : EvRecord) : r.header = beBytes 4 r.number ++ [r.state.code]
    ++ (beBytes 4 r.openStamp.time.s ++ beBytes 4 r.openStamp.time.t ++ [r.openStamp.grade.code]) ++ beBytes 6 r.openStrobe
    ++ beBytes 2 (match r.close with | none => 65535 | some x => x.duration)
    ++ [byte r.peakS, byte r.list.length, r.flags.toByte] := by
  rw [← close_field]
  exact rfl

theorem flags_bits (f : EvFlags) : ([0, 1, 2, 3, 4, 5, 6, 7].map fun i => f.toByte.getLsbD i) = [f.truncated, f.aborted, f.shed,
    f.degraded, f.timePoor, f.stepDeferred, f.calDeferred, f.heatHeld] := by
  unfold EvFlags.toByte
  simp only [List.map_cons, List.map_nil]
  repeat rw [getLsbD_byte_setBits _ (by decide)]
  rfl

end Pieces

section Bodies
variable (s : State)

theorem time_fields : s.timeBody =
    beBytes 4 s.clk.s ++ beBytes 4 s.clk.t ++ [s.grade.code, s.clk.disc.code] ++ beBytes 4 s.clk.u := by
  unfold State.timeBody
  rw [stamp_bytes]
  simp only [List.append_assoc, List.cons_append, List.nil_append]
  rfl

theorem clock_session : s.clockBody = [s.clk.disc.code] ++ optField 1 (s.clk.reason.map fun x => [x.code]) ++ beInt 2 s.clk.r
    ++ beInt 2 s.clk.c ++ beInt 1 s.clk.acc ++ beBytes 4 s.clk.u
    ++ [s.grade.code, byte s.clk.lock, byte s.clk.unlock, byte s.clk.mismatch]
    ++ beInt 4 (s.clk.offset.getD 0) ++ [flagByte s.clk.stepDeferred]
    ++ optField 5 (s.clk.label.map fun x => beBytes 4 x.secs ++ [byte x.fix]) ++ beInt 2 s.clk.rLoss ++ beInt 2 s.clk.tLoss
    ++ [s.clk.supply.code] ++ optField 4 (if s.clk.supply = .resting then some (beBytes 4 s.clk.rest) else none)
    ++ optField 4 (if s.clk.supply = .session then some (beBytes 4 s.clk.session) else none)
    ++ optField 4 (if s.clk.supply = .session then some (beBytes 4 s.clk.hold) else none)
    ++ beBytes 2 s.clk.labelErrors ++ beBytes 2 s.clk.unfixed ++ beBytes 2 s.clk.steps := by
  unfold State.clockBody
  simp only [beq_iff_eq, List.append_assoc, List.cons_append, List.nil_append]

theorem recent_strobe : s.recentStrobe =
    beBytes 6 (match s.sch.last with | none => (Config.noStrobeYet s.free).toNat | some n => n) := by
  unfold State.recentStrobe
  rcases s.sch.last with _ | n <;> rfl

theorem counts_bytes (k : BusCounters) : k.bytes = beBytes 2 k.framing ++ beBytes 2 k.overruns
    ++ beBytes 2 k.oversize ++ beBytes 2 k.broken ++ beBytes 2 k.crc ++ beBytes 2 k.goodOwn ++ beBytes 2 k.goodBcast
    ++ beBytes 2 k.replies ++ beBytes 2 k.busyOverrun := by
  unfold BusCounters.bytes
  simp only [List.flatMap_cons, List.flatMap_nil, List.append_nil, List.append_assoc]

theorem pending_rate : (s.sch.pending.map (beBytes 1)) = s.sch.pending.map fun x => [byte x] :=
  congrArg (fun f => s.sch.pending.map f) (funext beBytes_one)

theorem status_fields : s.statusBody = [s.store.source.code, flagByte s.store.clamped]
    ++ beBytes 4 (match s.store.image with | none => 0 | some (_, x) => x.generation) ++ beBytes 2 s.store.saves
    ++ beBytes 2 s.store.saveFails ++ beBytes 2 s.bus.restarts ++ beBytes 2 s.bus.counts.framing ++ beBytes 2 s.bus.counts.overruns
    ++ beBytes 2 s.bus.counts.oversize ++ beBytes 2 s.bus.counts.broken ++ beBytes 2 s.bus.counts.crc
    ++ beBytes 2 s.bus.counts.goodOwn ++ beBytes 2 s.bus.counts.goodBcast
    ++ beBytes 2 s.bus.counts.replies ++ beBytes 2 s.bus.counts.busyOverrun
    ++ beBytes 4 s.clk.s ++ beBytes 4 s.clk.t ++ [s.clk.disc.code] ++ optField 1 (s.clk.reason.map fun x => [x.code])
    ++ [s.grade.code] ++ beBytes 4 s.clk.u ++ [flagByte s.clk.stepDeferred, s.clk.supply.code]
    ++ beBytes 6 (match s.sch.last with | none => (Config.noStrobeYet s.free).toNat | some n => n) ++ [byte s.sch.rate]
    ++ optField 1 (s.sch.pending.map fun x => [byte x]) ++ optField 6 (s.sch.lastBreak.map (beBytes 6)) ++ beBytes 2 s.sch.breaks
    ++ [byte s.sch.cals.length, flagByte s.calRunning, s.prt[(0 : PortId)].link.code, s.prt[(1 : PortId)].link.code,
      s.evt.state.code]
    ++ optField 4 (s.evt.record.map fun x => beBytes 4 x.number)
    ++ optField 6 (s.evt.lastVoted.map fun x => beBytes 6 x.strobe)
    ++ beBytes 4 (s.evt.number.getD 0) ++ [byte s.evt.list.length, byte s.bat.soc, s.bat.cls.code, s.bat.power.code,
      s.bat.charge.code, s.htr.state.code, byte s.box.entries.length]
    ++ beInt 1 s.box.credits ++ [s.mdm.link.code, flagByte s.mdm.fault] ++ beBytes 4 s.statusBits ++ beBytes 4 s.pendingBits
    ++ [flagByte s.mon.degraded, flagByte s.evt.wakeTerm, flagByte s.mon.wake] := by
  have voted : optStrobe (s.evt.lastVoted.map Note.strobe) = optField 6 (s.evt.lastVoted.map fun x => beBytes 6 x.strobe) := by
    unfold optStrobe
    rw [Option.map_map]
    rfl
  unfold State.statusBody
  rw [counts_bytes, recent_strobe, pending_rate, voted]
  simp only [List.append_assoc, List.cons_append, List.nil_append]
  rfl

/-- The ids of a set of flags of the conditions, as bits. -/
theorem testBit_conds (f : Cond → Bool) (c : CondId) :
    (setBits (s.mon.conds.toList.map f)).testBit c.val = f s.mon.conds[c] := by
  rw [testBit_setBits, List.getD_eq_getElem _ _ (by simp), List.getElem_map, Vector.getElem_toList]
  rfl

theorem conds_lt (f : Cond → Bool) : setBits (s.mon.conds.toList.map f) < 2 ^ 18 := by
  have lt := setBits_lt (s.mon.conds.toList.map f)
  rw [List.length_map, Vector.length_toList] at lt
  exact lt

theorem blocked_eq (c : CondId) : s.pendingBlocked c = (c.val == 7 && s.mon.conds[(3 : CondId)].status
    || c.val == 8 && s.mon.conds[(4 : CondId)].status || c.val == 11 && s.mon.conds[(14 : CondId)].status) := by
  unfold State.pendingBlocked blockerOf
  by_cases seven : c = 7
  · subst seven
    simp
  · by_cases eight : c = 8
    · subst eight
      simp
    · by_cases eleven : c = 11
      · subst eleven
        simp
      · have v7 : c.val ≠ 7 := fun e => seven (Fin.ext e)
        have v8 : c.val ≠ 8 := fun e => eight (Fin.ext e)
        have v11 : c.val ≠ 11 := fun e => eleven (Fin.ext e)
        simp [seven, eight, eleven, v7, v8, v11]

theorem cond_row (c : CondId) : s.condBytes c =
    [byte ((if s.mon.conds[c].status = true then 1 else 0) + (if s.mon.conds[c].pending = true then 2 else 0)
      + (if s.pendingBlocked c = true then 4 else 0) + if s.mon.conds[c].last.isSome = true then 8 else 0)]
    ++ beBytes 2 s.mon.conds[c].changes
    ++ match s.mon.conds[c].last with | none => List.replicate 9 0 | some y => y.bytes := by
  unfold State.condBytes
  dsimp only
  rw [setBits_four] <;> rfl

theorem conditions_rows : s.conditionsBody = (allConds.flatMap fun c =>
      [byte ((if s.mon.conds[c].status = true then 1 else 0) + (if s.mon.conds[c].pending = true then 2 else 0)
        + (if s.pendingBlocked c = true then 4 else 0) + if s.mon.conds[c].last.isSome = true then 8 else 0)]
      ++ beBytes 2 s.mon.conds[c].changes
      ++ match s.mon.conds[c].last with | none => List.replicate 9 0 | some y => y.bytes)
    ++ beBytes 4 s.wakeSet ++ beBytes 4 s.alertSet ++ beBytes 4 s.degradedSet
    ++ [flagByte s.mon.degraded, flagByte s.evt.wakeTerm, flagByte s.mon.wake] := by
  have rows := funext (cond_row s)
  unfold State.conditionsBody
  rw [rows]

theorem source_link (c : Chan) : s.sourceLink c = match s.map.entries[c].source with
    | none => Config.noSourceLink s.free
    | some y => s.prt[portOf y].link.code := by
  unfold State.sourceLink State.sourcePort
  rcases s.map.entries[c].source with _ | y <;> rfl

theorem detector_fields (c : Chan) : s.detectorBody c = [byte s.chn[c].det.staShift, byte s.chn[c].det.ltaShift]
    ++ beBytes 2 s.chn[c].det.onRatio ++ beBytes 2 s.chn[c].det.offRatio
    ++ beBytes 2 s.chn[c].det.floor ++ beBytes 2 s.chn[c].det.trigMax
    ++ [byte s.chn[c].det.weight, flagByte s.chn[c].det.enable, s.chn[c].state.code]
    ++ beBytes 4 s.chn[c].sta ++ beBytes 4 s.chn[c].lta ++ beBytes 4 (max s.chn[c].lta (s.chn[c].det.floor * 256))
    ++ beBytes 2 s.chn[c].ratio ++ beBytes 2 s.chn[c].warmup
    ++ [flagByte s.chn[c].warmed, flagByte s.chn[c].frozen, flagByte s.chn[c].released] ++ beBytes 3 s.chn[c].age
    ++ [flagByte s.chn[c].supp] ++ beInt 3 s.chn[c].prev ++ optField 6 (s.chn[c].last.map (beBytes 6))
    ++ beBytes 2 s.chn[c].count ++ s.map.entries[c].bytes ++ [s.sourceLink c] := by
  unfold State.detectorBody Detector.bytes Channel.effLta optStrobe
  simp only [List.append_assoc, List.cons_append, List.nil_append]

theorem map_fields : s.mapBody = s.map.bytes ++ optField 25 (s.pendingMap.map ChanMap.bytes)
    ++ ([s.prt[(0 : PortId)], s.prt[(1 : PortId)]].flatMap fun p =>
      [p.link.code, flagByte (decide (p.link ≠ .off)), flagByte p.alarm, byte p.badRun, byte p.goodRun] ++ beBytes 2 p.downs) := by
  have supply (x : Link) : (x != .off) = decide (x ≠ .off) := by cases x <;> rfl
  unfold State.mapBody
  rw [toList_two]
  simp only [supply]

/-- A walk of a list, eight at a time, with the more mark. -/
theorem walk {α : Type} (l : List α) : ∃ shown rest, l = shown ++ rest ∧ shown.length ≤ 8 ∧ (rest ≠ [] → shown.length = 8)
    ∧ shown = l.take 8 ∧ decide (8 < l.length) = !rest.isEmpty := by
  have length : (l.take 8).length = min 8 l.length := List.length_take
  refine ⟨l.take 8, l.drop 8, (List.take_append_drop 8 l).symm, by omega, fun more => ?_, rfl, ?_⟩
  · have : (l.drop 8).length ≠ 0 := fun zero => more (List.eq_nil_of_length_eq_zero zero)
    rw [List.length_drop] at this
    omega
  · rw [Bool.eq_iff_iff, decide_eq_true_iff, Bool.not_eq_true', ← Bool.not_eq_true, List.isEmpty_iff, List.drop_eq_nil_iff]
    exact Nat.not_le.symm

theorem index_walk (first : Nat) : ∃ shown rest, (s.records.filter fun r => decide (first ≤ r.number)) = shown ++ rest
    ∧ shown.length ≤ 8 ∧ (rest ≠ [] → shown.length = 8)
    ∧ s.indexBody first = [s.evt.state.code] ++ beBytes 4 (s.evt.number.getD 0) ++ [byte s.evt.list.length]
      ++ beBytes 4 s.evt.released ++ beBytes 2 s.evt.lost
      ++ [flagByte s.evt.wakeTerm, byte shown.length, flagByte (!rest.isEmpty)] ++ shown.flatMap EvRecord.header := by
  obtain ⟨shown, rest, split, short, full, first8, more⟩ := walk (s.records.filter fun r => decide (first ≤ r.number))
  refine ⟨shown, rest, split, short, full, ?_⟩
  unfold State.indexBody
  dsimp only
  rw [more, first8]

theorem alert_bytes (a : Alert) : a.outboxBytes = [a.kind.code, byte a.rank] ++ beBytes 4 a.origin
    ++ (beBytes 4 a.created.time.s ++ beBytes 4 a.created.time.t ++ [a.created.grade.code])
    ++ [flagByte a.inFlight, byte a.attempts] ++ optField 8 (a.notBefore.map fun x => beBytes 4 x.s ++ beBytes 4 x.t)
    ++ a.content.detail := rfl

theorem outbox_walk (first : Nat) : ∃ shown rest, s.box.entries.drop first = shown ++ rest
    ∧ shown.length ≤ 8 ∧ (rest ≠ [] → shown.length = 8)
    ∧ s.outboxBody first = beInt 1 s.box.credits ++ [byte s.creditCap, s.mdm.link.code,
        flagByte (decide (s.mdm.link ≠ .off ∧ s.mdm.link ≠ .backoff)), byte s.mdm.fails, flagByte s.mdm.fault]
      ++ beBytes 2 s.box.sent ++ beBytes 2 s.box.drops ++ beBytes 2 s.mdm.bad ++ beBytes 2 s.mdm.unexpected
      ++ beBytes 2 s.mdm.startTimeouts ++ [byte s.box.entries.length, byte shown.length, flagByte (!rest.isEmpty)]
      ++ shown.flatMap Alert.outboxBytes := by
  have power (x : ModemLink) : x.power = decide (x ≠ .off ∧ x ≠ .backoff) := by cases x <;> rfl
  obtain ⟨shown, rest, split, short, full, first8, more⟩ := walk (s.box.entries.drop first)
  refine ⟨shown, rest, split, short, full, ?_⟩
  unfold State.outboxBody
  dsimp only
  rw [more, first8, power]
  simp only [List.flatMap_cons, List.flatMap_nil, List.append_nil, List.append_assoc]

theorem power_fields : s.powerBody = beBytes 2 s.pwr.vb ++ beInt 2 s.pwr.ib ++ beBytes 2 s.pwr.vs ++ beInt 2 s.pwr.tp
    ++ [flagByte s.pwr.tpValid] ++ beInt 2 s.pwr.tv ++ [flagByte s.pwr.tvValid, flagByte s.pwr.solar] ++ beBytes 4 s.bat.q
    ++ beBytes 4 (s.capacity * 3600)
    ++ [byte s.bat.soc, s.bat.cls.code, s.bat.power.code, byte s.bat.cutoff, byte s.bat.reconnect, byte s.bat.empty,
      s.bat.charge.code, flagByte (decide (s.bat.charge = .bulk ∨ s.bat.charge = .absorb ∨ s.bat.charge = .float))]
    ++ beBytes 2 s.bat.limit ++ beBytes 2 s.bat.duty ++ beBytes 2 s.bat.absorb
    ++ [byte s.bat.term, byte s.bat.floatLow, byte s.bat.overRun]
    ++ beBytes 2 s.bat.clear ++ [byte s.bat.restarts, flagByte s.bat.hold.isSome] ++ beBytes 2 (s.bat.hold.getD 0)
    ++ beBytes 2 s.bat.fullSyncs ++ beBytes 2 s.bat.emptySyncs ++ beBytes 2 s.bat.faults ++ beBytes 2 s.bat.sheds
    ++ [s.htr.state.code, flagByte s.heatEnable] ++ beInt 4 s.htr.target ++ beInt 4 s.htr.error ++ beBytes 2 s.htr.limit
    ++ beBytes 2 s.htr.request ++ beBytes 2 s.htr.latched ++ optField 4 (s.htr.period.map (beBytes 4))
    ++ [flagByte s.htr.heat, flagByte s.htr.hold.isSome]
    ++ beBytes 2 (s.htr.hold.getD 0) ++ [flagByte s.htr.holdFlagged] ++ beBytes 5 s.htr.today ++ beBytes 2 s.htr.day
    ++ [flagByte s.htr.spent, flagByte s.htr.fault, flagByte (decide (s.tHeaterCutoff < s.pwr.tp)), flagByte (!s.pwr.tpValid),
      flagByte s.htr.fault, byte s.htr.clear]
    ++ beBytes 2 s.htr.count := by
  have enabled (x : Charge) : x.enabled = decide (x = .bulk ∨ x = .absorb ∨ x = .float) := by cases x <;> rfl
  unfold State.powerBody State.heaterBytes State.full
  dsimp only
  rw [enabled]
  simp only [List.append_assoc, List.cons_append, List.nil_append]

end Bodies

/-! ### Who answers -/

/-- A request of type x.2 that took a snapshot is answered with it by x.1. -/
def SnapshotAnswered (q : Request) (s : State) (x : Instr × Byte) : Prop :=
  s.serving x.2 q → ∀ b, q.snapshot = some b → exec x.1 s = .next (finish b s)

section Answers
variable {q : Request} {s : State}

theorem snapshot_answered {x : Instr} {k : Byte} (e : exec x s = act (serveSnapshot k) s) : SnapshotAnswered q s (x, k) := by
  intro serving b snapshot
  rw [e, act_on serving.1, serveSnapshot, serve_on _ serving]
  dsimp only
  rw [snapshot]
  rfl

theorem snapshots_answered : ∀ x ∈ ([(.status, 0x01), (.timeGet, 0x02), (.clockDetail, 0x04), (.detectorGet, 0x21),
    (.eventIndex, 0x30), (.samplesFetch, 0x33), (.conditionsGet, 0x50), (.intervalGet, 0x52), (.powerGet, 0x60),
    (.outboxGet, 0x70)] : List (Instr × Byte)), SnapshotAnswered q s x := by
  simp only [List.forall_mem_cons]
  exact ⟨snapshot_answered rfl, snapshot_answered rfl, snapshot_answered rfl, snapshot_answered rfl, snapshot_answered rfl,
    snapshot_answered rfl, snapshot_answered rfl, snapshot_answered rfl, snapshot_answered rfl, snapshot_answered rfl,
    List.forall_mem_nil _⟩

theorem exec_paramGet (serving : s.serving 0x10 q) : exec .paramGet s = .next (finish (s.paramReply (field q.body 0 1)) s) := by
  have e : exec .paramGet s = execParamGet s := rfl
  rw [e, execParamGet, act_on serving.1, serve_on _ serving]

theorem exec_mapGet (serving : s.serving 0x23 q) : exec .mapGet s = .next (finish (0x00 :: s.mapBody) s) := by
  have e : exec .mapGet s = execMapGet s := rfl
  rw [e, execMapGet, act_on serving.1, serve_on _ serving]

theorem exec_eventGet (serving : s.serving 0x31 q) : exec .eventGet s = .next (finish (s.eventReply (field q.body 0 4)) s) := by
  have e : exec .eventGet s = execEventGet s := rfl
  rw [e, execEventGet, act_on serving.1, serve_on _ serving]

theorem paramReply_known {n : Nat} {r : ParamRow} (known : paramRow n = some r) :
    s.paramReply n = [0x00, byte n] ++ beInt 4 (s.param n) ++ beInt 4 r.dflt := by
  unfold State.paramReply
  rw [known]

theorem paramReply_unknown {n : Nat} (unknown : paramRow n = none) : s.paramReply n = [0x09] := by
  unfold State.paramReply
  rw [unknown]

theorem eventReply_known {n : Nat} {r : EvRecord} (known : (s.records.find? fun r => r.number == n) = some r) :
    s.eventReply n = 0x00 :: r.bytes := by
  unfold State.eventReply
  rw [known]

theorem eventReply_unknown {n : Nat} (unknown : ∀ r ∈ s.records, r.number ≠ n) : s.eventReply n = [0x09] := by
  have absent : (s.records.find? fun r => r.number == n) = none :=
    List.find?_eq_none.mpr fun r mem same => unknown r mem (beq_iff_eq.mp same)
  unfold State.eventReply
  rw [absent]

end Answers

/-- Settles O53: who answers with what, then each body by its fields. -/
theorem readsAreAnswered : Obligations.ReadsAreAnswered := by
  intro q s
  refine ⟨snapshots_answered, fun serving => ⟨fun r known => ?_, fun unknown => ?_⟩, exec_mapGet,
    fun serving => ⟨fun r known => ?_, fun unknown => ?_⟩, ?_, ?_⟩
  · rw [exec_paramGet serving, paramReply_known known]
  · rw [exec_paramGet serving, paramReply_unknown unknown]
  · rw [exec_eventGet serving, eventReply_known known]
  · rw [exec_eventGet serving, eventReply_unknown unknown]
  · decide
  · intro flag opt stamp grade records k entry mapped figures blocked
    have flag_eq : flag = flagByte := rfl
    have opt_eq : opt = optField := funext fun n => funext fun x => by cases x <;> rfl
    have stamp_eq : stamp = Stamp.bytes := rfl
    have grade_eq : grade = s.grade := rfl
    have entry_eq : entry = MapEntry.bytes := rfl
    have mapped_eq : mapped = ChanMap.bytes := funext fun m => (map_bytes m).symm
    have figures_eq : figures = Figures.bytes := funext fun f => (figures_bytes f).symm
    have blocked_eq : blocked = s.pendingBlocked := funext fun c => (blocked_eq s c).symm
    clear_value flag opt stamp grade entry mapped figures blocked
    subst flag_eq opt_eq stamp_eq grade_eq entry_eq mapped_eq figures_eq blocked_eq
    refine ⟨⟨s.statusBits, s.pendingBits, fun c => ⟨testBit_conds s Cond.status c, testBit_conds s Cond.pending c⟩,
      conds_lt s Cond.status, conds_lt s Cond.pending, ?_⟩, ?_, clock_session s, ?_, map_fields s, fun r => ⟨?_, ?_, flags_bits r.flags⟩,
      index_walk s, outbox_walk s, conditions_rows s, ?_, power_fields s, samplesReply_answers s⟩
    · exact status_fields s
    · exact time_fields s
    · intro c x
      have fields := detector_fields s c
      rw [source_link] at fields
      exact fields
    · exact record_header r
    · exact rfl
    · exact rfl

end Sys2Proof.Proofs
end

