-- ==== Sys2Proof/Proofs/ParamWrites.lean ====
section
/-! PROOFS. A parameter written (R206): the value its range makes of the one sent, and what the owner of the parameter does at
once; from these the settling of O54. -/
namespace Sys2Proof.Proofs

open Sys2Proof Sys2Proof.Machine Sys2Proof.Laws

/-! ### The value stored -/

/-- y is at least as near to x as v, and where both are as near it is the larger. -/
def Nearest (x y v : Int) : Prop := (x - y).natAbs < (x - v).natAbs ∨ (x - y).natAbs = (x - v).natAbs ∧ v ≤ y

theorem nearest_refl (x y : Int) : Nearest x y y := .inr ⟨rfl, Int.le_refl y⟩

theorem nearest_trans {x a b c : Int} (h : Nearest x a b) (g : Nearest x b c) : Nearest x a c := by
  unfold Nearest at *
  omega

theorem nearer_nearest (x a b : Int) : Nearest x (nearer x a b) a ∧ Nearest x (nearer x a b) b := by
  unfold nearer Nearest
  split
  · omega
  · split
    · omega
    · rcases Int.le_total a b with le | le
      · rw [max_eq_right le]
        omega
      · rw [max_eq_left le]
        omega

theorem foldNearer_nearest (x : Int) (l : List Int) (a : Int) : ∀ v ∈ a :: l, Nearest x (l.foldl (nearer x) a) v := by
  induction l generalizing a with
  | nil =>
    intro v mem
    rw [List.mem_singleton] at mem
    exact mem ▸ nearest_refl x v
  | cons b l ih =>
    obtain ⟨first, second⟩ := nearer_nearest x a b
    have rest := ih (nearer x a b)
    intro v mem
    rw [List.foldl_cons]
    rcases List.mem_cons.mp mem with rfl | mem
    · exact nearest_trans (rest _ List.mem_cons_self) first
    · rcases List.mem_cons.mp mem with rfl | mem
      · exact nearest_trans (rest _ List.mem_cons_self) second
      · exact rest v (List.mem_cons_of_mem _ mem)

theorem fit_range {f : Fit} {lo hi : Int} (range : f = .range lo hi) (x : Int) : f.fit x = max lo (min hi x) := by
  rw [range]
  rfl

theorem fit_condSet {f : Fit} {m : Nat} (set : f = .condSet m) (x : Int) :
    f.fit x = (((x % 4294967296).toNat &&& m : Nat) : Int) := by
  rw [set]
  rfl

theorem fit_oneOf {n : Nat} {r : ParamRow} (row : paramRow n = some r) {l : List Int} (values : r.fit = .oneOf l) (x : Int) :
    r.fit.fit x ∈ l ∧ ∀ v ∈ l, Nearest x (r.fit.fit x) v := by
  have sound := List.all_eq_true.mp rows_sound r (paramRow_mem row).1
  unfold ParamRow.sound at sound
  rw [values] at sound ⊢
  match l, sound with
  | v :: l, _ => exact ⟨foldNearer_mem x l v, foldNearer_nearest x l v⟩

/-! ### The store -/

/-- The state with the parameters P, the moment of a boundary ended (log 4). -/
def written (P : List (Nat × Int)) (s : State) : State := { s with params := P, moment := {} }

/-- The parameters with x stored as parameter n. -/
def storedParams (n : Nat) (x : Int) (s : State) : List (Nat × Int) := Sparse.put (paramDefault n) n x s.params

/-- The value that is stored for x under the row r of parameter n acts at once (R206). -/
def storedState (n : Nat) (r : ParamRow) (x : Int) (s : State) : State :=
  paramAction n s (written (storedParams n (r.fit.fit x) s) s)

section Write
variable {n : Nat} {x : Int} {active : Bool} {s : State}

theorem writeParam_unknown (unknown : paramRow n = none) : writeParam n x active s = ([0x09], s) := by
  unfold writeParam
  rw [unknown]

theorem writeParam_refused (rate : n = 30) (event : active = true) : writeParam n x active s = ([0x06], s) := by
  obtain ⟨r, row⟩ : ∃ r, paramRow n = some r := by
    rw [rate]
    exact Option.isSome_iff_exists.mp (by decide)
  unfold writeParam
  rw [row]
  exact if_pos ⟨rate, event⟩

theorem writeParam_stores {r : ParamRow} (row : paramRow n = some r) (free : ¬ (n = 30 ∧ active = true)) :
    writeParam n x active s =
      ((if r.fit.fit x = x then 0x00 else 0x01) :: byte n :: beInt 4 (r.fit.fit x), storedState n r x s) := by
  unfold writeParam
  rw [row]
  exact if_neg free

theorem action_params (old u : State) : (paramAction n old u).params = u.params :=
  params_of (paramAction_does n old u) (by decide)

theorem storedState_params (r : ParamRow) : (storedState n r x s).params = storedParams n (r.fit.fit x) s := action_params s _

theorem storedState_param (r : ParamRow) (wf : Sparse.wf paramDefault s.params = true) :
    (storedState n r x s).param n = r.fit.fit x :=
  (param_of_params (t := storedState n r x s) (s := setParam n (r.fit.fit x) s) (storedState_params r) n).trans
    (setParam_reads n _ s wf)

theorem storedState_other (r : ParamRow) {m : Nat} (other : m ≠ n) : (storedState n r x s).param m = s.param m :=
  (param_of_params (t := storedState n r x s) (s := setParam n (r.fit.fit x) s) (storedState_params r) m).trans
    (setParam_param n m _ s other)

end Write

/-- A rate stored becomes the pending rate, where it is another than the present one (R36). -/
theorem storedState_rate {n : Nat} {x : Int} {s : State} (rate : n = 30) (r : ParamRow)
    (wf : Sparse.wf paramDefault s.params = true) : (storedState n r x s).sch.pending =
      if (r.fit.fit x).toNat = s.sch.rate then none else some (r.fit.fit x).toNat := by
  have value : (written (storedParams n (r.fit.fit x) s) s).sampleRate = (r.fit.fit x).toNat := by
    rw [rate]
    exact congrArg Int.toNat (setParam_reads 30 (r.fit.fit x) s wf)
  have pending : (storedState n r x s).sch.pending =
      if (written (storedParams n (r.fit.fit x) s) s).sampleRate = s.sch.rate then none
      else some (written (storedParams n (r.fit.fit x) s) s).sampleRate := by
    rw [rate]
    rfl
  rw [pending, value]

/-- PARAM_SET served. -/
theorem exec_paramSet {q : Request} {s : State} (serving : s.serving 0x11 q) :
    let w := writeParam (field q.body 0 1) (signedOf 32 (field q.body 1 4)) q.eventActive s
    exec .paramSet s = .next (finish w.1 w.2) := by
  have e : exec .paramSet s = execParamSet s := rfl
  rw [e, execParamSet, act_on serving.1, serve_on _ serving]

/-! ### The owners at once -/

/-- Between u and t the parts L, conditions and alerts apart from those, and only the rows l of the conditions beside that of
OUTBOX_DROP, can have changed. -/
def Reported (s u t : State) (L : List Part) (l : List CondId) : Prop :=
  OnlyIn (L ++ [.box, .mon]) u t ∧ ∀ d, d ∉ l → d.val ≠ 16 → t.mon.conds[d] = s.mon.conds[d]

section Owners
variable {P : List (Nat × Int)} {s t : State}

theorem action_clock (e : t = reportClock (written P s)) : Reported s (written P s) t [] [0, 1, 2]
    ∧ (t.mon.conds[(0 : CondId)].status = true ↔ s.clk.disc = .holdover ∧ s.clk.reason = some .ppsLoss)
    ∧ (t.mon.conds[(1 : CondId)].status = true ↔ t.holdoverLimit * 1000 < s.clk.u)
    ∧ (t.mon.conds[(2 : CondId)].status = true ↔ s.clk.disc = .unset) := by
  have does := reportClock_does (written P s)
  obtain ⟨loss, limit, unset, rest⟩ := reportClock_conds (written P s)
  rw [← e] at does loss limit unset rest
  have same : t.holdoverLimit = (written P s).holdoverLimit := congrArg Int.toNat (param_of_params (params_of does (by decide)) 8)
  rw [same]
  exact ⟨⟨does.frame, rest⟩, loss, limit, unset⟩

theorem action_errors (p : PortId) {n : Nat} (num : n = 43 + p.val) (e : t = judgeErrors p (written P s)) :
    Reported s (written P s) t [] [if p = 0 then 7 else 8]
    ∧ (t.mon.conds[if p = 0 then (7 : CondId) else 8].status = true ↔
      (t.param n).toNat < s.mon.figs.ports[p].sync + s.mon.figs.ports[p].crc + s.mon.figs.ports[p].gaps) := by
  have does := judgeErrors_does p (written P s)
  rw [← e] at does
  have value : (written P s).errThreshold p = (t.param n).toNat := by
    rw [param_of_params (params_of does (by decide)) n, num]
    match p with
    | 0 => rfl
    | 1 => rfl
  have own : (if p = 0 then (7 : CondId) else 8).val ≠ 16 := by split <;> decide
  refine ⟨⟨does.frame, fun d out notes => ?_⟩, ?_⟩
  · rw [e]
    exact statusChange_other _ _ _ d notes fun same => out (List.mem_singleton.mpr same)
  · have status : t.mon.conds[if p = 0 then (7 : CondId) else 8].status =
        decide ((written P s).errThreshold p < (written P s).mon.figs.ports[p].errorSum) := by
      rw [e]
      exact statusChange_status _ _ _ own
    rw [status, decide_eq_true_iff, value]
    exact Iff.rfl

/-! The supply of a port (R49, R50, R53, R54, R60, R74). -/

/-- What a supply that is to be on or off leaves. -/
def SupplyActed (s u t : State) (p : PortId) (on : Prop) : Prop :=
  let x := s.prt[p]
  (on → x.link ≠ .off → t = u) ∧ (¬ on → x.link = .off → t = u)
  ∧ (on → x.link = .off → t = { u with prt := s.prt.set p { x with
      link := .starting, window := none, transfer := none, startAt := s.osc, badRun := 0, goodRun := 0, last := none
      alarm := false } })
  ∧ (¬ on → x.link ≠ .off → OnlyIn Part.slots u t ∧ t.prt = s.prt.set p { x with
        link := .off, window := none, transfer := none, startAt := 0, badRun := 0, goodRun := 0, alarm := false }
    ∧ (∀ i : CondId, i.val = 3 + p.val ∨ i.val = 5 + p.val → ¬ t.mon.conds[i].status = true)
    ∧ (s.canonical → ∀ c : Chan,
      (s.sourcePort c ≠ some p → t.chn[c] = s.chn[c]) ∧ (s.sourcePort c = some p → t.chn[c].state = .off)
      ∧ (s.sourcePort c ≠ some p ∨ x.window = none → t.rings[c] = s.rings[c])
      ∧ ∀ k, s.sourcePort c = some p → x.window = some k →
        t.rings[c].newest = some k ∧ t.rings[c].slot k = ⟨s.rings[c].previous k, true, false⟩))

theorem evalSupply_off_channel (p : PortId) {u : State} (no : u.supplyDue p = false) (on : u.prt[p].link ≠ .off)
    (rings : ∀ c : Chan, Sparse.wf (fun _ => Slot.blank) u.rings[c].slots = true) (canonical : u.canonical) (c : Chan) :
    (u.sourcePort c ≠ some p → (evalSupply p u).chn[c] = u.chn[c])
    ∧ (u.sourcePort c = some p → (evalSupply p u).chn[c].state = .off)
    ∧ (u.sourcePort c ≠ some p ∨ u.prt[p].window = none → (evalSupply p u).rings[c] = u.rings[c])
    ∧ ∀ k, u.sourcePort c = some p → u.prt[p].window = some k → (evalSupply p u).rings[c].newest = some k
      ∧ (evalSupply p u).rings[c].slot k = ⟨u.rings[c].previous k, true, false⟩ := by
  obtain ⟨off, keeps, ring⟩ := evalSupply_stops_chan p u no on canonical c
  refine ⟨keeps, off, fun h => ?_, fun k source window => ?_⟩
  · rw [ring]
    by_cases source : u.sourcePort c = some p
    · rw [if_pos source, h.resolve_left fun other => other source]
    · rw [if_neg source]
  · rw [ring, if_pos source, window]
    exact ⟨rfl, (write_slot u.rings[c] k _ (rings c)).1⟩

theorem supply_acted (p : PortId) {on : Prop} (due : (written P s).supplyDue p = true ↔ on)
    (wf : Sparse.wf paramDefault P = true) (e : t = evalSupply p (written P s)) : SupplyActed s (written P s) t p on := by
  subst e
  have no (off : ¬ on) : (written P s).supplyDue p = false := by
    rw [← Bool.not_eq_true, due]
    exact off
  refine ⟨fun h k => ?_, fun h k => ?_, fun h k => ?_, fun h k => ⟨?_, ?_, fun i own => ?_, fun canonical c => ?_⟩⟩
  · exact evalSupply_keeps p _ ⟨fun _ => k, fun _ => due.mpr h⟩
  · exact evalSupply_keeps p _ ⟨fun d => absurd (due.mp d) h, fun d => absurd k d⟩
  · exact evalSupply_starts p _ (due.mpr h) k
  · exact (evalSupply_does p (written P s)).frame
  · exact (evalSupply_stops p _ (no h) k).1.trans (stopLink_prt p _)
  · rw [(evalSupply_stops p _ (no h) k).2 i own]
    exact Bool.false_ne_true
  · exact evalSupply_off_channel p (no h) k canonical.1 ⟨canonical.1, wf⟩ c

theorem due_zero : (written P s).supplyDue 0 = true ↔ (written P s).digEnable0 = true ∧ s.bat.power = .run :=
  (supplyDue_iff (written P s) 0).trans Iff.rfl

theorem due_one : (written P s).supplyDue 1 = true ↔
    (written P s).digEnable1 = true ∧ s.bat.power = .run ∧ (s.bat.cls ≠ .critical ∨ (written P s).shedD1Critical = false) := by
  refine (supplyDue_iff (written P s) 1).trans ⟨fun ⟨⟨on, shed⟩, run⟩ => ⟨on, run, shed⟩, fun ⟨on, run, shed⟩ => ⟨⟨on, shed⟩, run⟩⟩

/-! The charge temperatures (R146, R148). -/

/-- What the test leaves of a charger that goes off into the state c. -/
def ChargeHalted (s u t : State) (c : Charge) : Prop :=
  Reported s u t [.bat] [11, 12] ∧ (t.mon.conds[(11 : CondId)].status = true ↔ c = .coldHold)
  ∧ ¬ t.mon.conds[(12 : CondId)].status = true
  ∧ t.bat = { (if s.bat.charge = .bulk then s.bat else { s.bat with absorb := 0, term := 0, floatLow := 0 }) with
      charge := c, limit := 0 }

theorem charge_halted {c : Charge} (hold : c = .coldHold ∨ c = .hotHold) (enabled : s.bat.charge.enabled = true)
    (e : t = reportCharge (chargeOff c (written P s))) : ChargeHalted s (written P s) t c := by
  have off := chargeOff_does c (written P s)
  have bat := chargeOff_bat c (written P s) enabled
  have mon : (chargeOff c (written P s)).mon = (written P s).mon := mon_of off (by decide)
  have charge : (chargeOff c (written P s)).bat.charge = c := by rw [bat]
  have does := Does.trans (Does.mono off (by decide : [Part.bat] ⊆ [Part.bat, .box, .mon]))
    (Does.mono (reportCharge_does (chargeOff c (written P s))) (by decide))
  obtain ⟨cold, fault, keeps, rest⟩ := Laws.reportCharge_conds (chargeOff c (written P s))
  rw [← e] at does cold fault keeps rest
  rw [charge] at cold fault
  rw [mon] at rest
  refine ⟨⟨does.frame, rest⟩, ?_, ?_, keeps.trans bat⟩
  · rw [cold, beq_iff_eq]
  · rw [fault, beq_iff_eq]
    rcases hold with rfl | rfl <;> decide

theorem action_chargeTemps (e : t = chargeTempTest (written P s)) :
    let on := (s.bat.charge == .bulk || s.bat.charge == .absorb || s.bat.charge == .float) && s.pwr.solar
    (on = true → s.pwr.tp < t.tChargeMin → ChargeHalted s (written P s) t .coldHold)
    ∧ (on = true → t.tChargeMin ≤ s.pwr.tp → t.tChargeMax < s.pwr.tp → ChargeHalted s (written P s) t .hotHold)
    ∧ (on = false ∨ t.tChargeMin ≤ s.pwr.tp ∧ s.pwr.tp ≤ t.tChargeMax → t = written P s) := by
  intro on
  have enabled : on = (s.bat.charge.enabled && s.pwr.solar) := by
    cases h : s.bat.charge <;> simp only [on, h] <;> rfl
  have params : t.params = (written P s).params := by
    rw [e]
    exact params_of (chargeTempTest_does _) (by decide)
  have low : t.tChargeMin = (written P s).tChargeMin := param_of_params params 83
  have high : t.tChargeMax = (written P s).tChargeMax := param_of_params params 84
  obtain ⟨cold, hot, stays⟩ := chargeTempTest_cases (written P s)
  rw [enabled, Bool.and_eq_true, Bool.and_eq_false_iff, low, high]
  refine ⟨fun ⟨charging, solar⟩ below => ?_, fun ⟨charging, solar⟩ above below => ?_, fun h => ?_⟩
  · exact charge_halted (.inl rfl) charging (e.trans (cold charging solar below))
  · exact charge_halted (.inr rfl) charging (e.trans (hot charging solar above below))
  · exact e.trans (stays (or_assoc.mp h))

/-! The heater (R166, R168, R175). -/

theorem action_heater (e : t = heaterFollow (written P s)) :
    let on := s.bat.power = .run ∧ t.heatEnable = true
    (s.htr.state = .shutdown ∨ s.htr.state = .off ∧ ¬ on ∨ (s.htr.state = .regulate ∨ s.htr.state = .held) ∧ on →
      t = written P s)
    ∧ (s.htr.state = .off → on → t = { written P s with
        htr := { s.htr with state := if s.htr.hold.isSome = true then .held else .regulate } })
    ∧ (s.htr.state = .regulate ∨ s.htr.state = .held → ¬ on → t = { written P s with
        htr := { s.htr with state := .off, heat := false, heatEnd := none, latched := 0 } }) := by
  intro on
  have params : t.params = (written P s).params := by
    rw [e]
    exact params_of (heaterFollow_does _) (by decide)
  have enable : t.heatEnable = (written P s).heatEnable := congrArg (· == 1) (param_of_params params 90)
  have due : (written P s).heatOffDue = false ↔ on := by
    unfold State.heatOffDue
    rw [Bool.or_eq_false_iff, Bool.not_eq_false', ← enable]
    refine and_congr_left' ?_
    show (s.bat.power == .shed) = false ↔ _
    cases s.bat.power <;> decide
  have overdue (h : ¬ on) : (written P s).heatOffDue = true := by
    rw [← Bool.not_eq_false, due]
    exact h
  obtain ⟨stays, starts, stops⟩ := heaterFollow_cases (written P s)
  refine ⟨fun h => e.trans (stays ?_), fun off h => e.trans (starts off (due.mpr h)), fun h k => e.trans (stops h (overdue k))⟩
  rcases h with shut | ⟨off, h⟩ | ⟨runs, h⟩
  · exact .inl shut
  · exact .inr (.inl ⟨off, overdue h⟩)
  · exact .inr (.inr ⟨runs, due.mpr h⟩)

/-- The duty limit from the parameters of t, the budget spent or not. -/
def limitOf (s t : State) (spent : Bool) : Nat :=
  match s.bat.cls with
  | .normal => t.dutyMaxNormal
  | .low => if spent = true ∧ s.pwr.solar = false then 0 else t.dutyMaxLow
  | .critical => if s.pwr.solar = true then t.dutyMaxNormal else 0

/-- What the duty limit leaves of the heater, the budget spent or not. -/
def DutyLimited (s u t : State) (spent : Bool) : Prop :=
  let limit := limitOf s t spent
  let stop := s.htr.periodAt + limit * s.htr.periodLen * 10000
  let high : Prop := s.htr.heat = true ∧ s.osc < stop ∧ 0 < limit
  (s.htr.latched ≤ limit → t = { u with htr := { s.htr with spent := spent } })
  ∧ (limit < s.htr.latched → high →
      t = { u with htr := { s.htr with spent := spent, latched := limit, heatEnd := some stop } })
  ∧ (limit < s.htr.latched → ¬ high →
      t = { u with htr := { s.htr with spent := spent, latched := limit, heat := false, heatEnd := none } })

theorem action_duty (spent : Bool) (e : t = relimit { written P s with htr := { s.htr with spent := spent } }) :
    DutyLimited s (written P s) t spent := by
  have params : t.params = (written P s).params := by
    rw [e]
    exact (relimit_does _).frame .params (by decide)
  have normal : t.dutyMaxNormal = (written P s).dutyMaxNormal := congrArg Int.toNat (param_of_params params 95)
  have low : t.dutyMaxLow = (written P s).dutyMaxLow := congrArg Int.toNat (param_of_params params 96)
  have limit : limitOf s t spent = ({ written P s with htr := { s.htr with spent := spent } } : State).dutyLimit := by
    unfold limitOf State.dutyLimit
    rw [normal, low]
    show _ = match s.bat.cls with
      | .normal => (written P s).dutyMaxNormal
      | .low => if (spent && !s.pwr.solar) = true then 0 else (written P s).dutyMaxLow
      | .critical => if s.pwr.solar = true then (written P s).dutyMaxNormal else 0
    have spared : (spent && !s.pwr.solar) = true ↔ spent = true ∧ s.pwr.solar = false := by
      rw [Bool.and_eq_true, Bool.not_eq_true']
    rcases s.bat.cls with _ | _ | _
    · rfl
    · exact (if_congr spared rfl rfl).symm
    · rfl
  have cases := relimit_cases { written P s with htr := { s.htr with spent := spent } }
  unfold DutyLimited
  rw [limit, e]
  exact cases

/-! The remaining owners change one field each. -/

theorem action_wakeTerm (e : t = eventWakeEval (written P s)) : t = { written P s with
    evt := { s.evt with wakeTerm := t.eventWake && !s.evt.list.isEmpty }
    mon := { s.mon with wake := (allConds.any fun c => s.mon.conds[c].pending && t.wakeSet.testBit c.val)
      || (t.eventWake && !s.evt.list.isEmpty) } } := by
  subst e
  rfl

theorem action_interval {old : Nat} (e : t = Machine.newInterval old (written P s)) :
    t = if t.intervalLen = old then written P s
      else { written P s with mon := { s.mon with number := s.clk.s / t.intervalLen } } := by
  have same : t.intervalLen = (written P s).intervalLen := by
    rw [e]
    unfold Machine.newInterval
    split <;> rfl
  rw [same, e]
  rfl

end Owners

/-! ### Which owner a number has -/

section Number
variable {n : Nat} (old u : State)

theorem action_of_pps (h : n ∈ [20, 21, 22]) : paramAction n old u = clearInput .pps u := by
  simp only [List.mem_cons, List.not_mem_nil, or_false] at h
  rcases h with rfl | rfl | rfl <;> rfl

theorem action_of_markA (h : n ∈ [23, 24, 25]) : paramAction n old u = clearInput .markA u := by
  simp only [List.mem_cons, List.not_mem_nil, or_false] at h
  rcases h with rfl | rfl | rfl <;> rfl

theorem action_of_markB (h : n ∈ [26, 27, 28]) : paramAction n old u = clearInput .markB u := by
  simp only [List.mem_cons, List.not_mem_nil, or_false] at h
  rcases h with rfl | rfl | rfl <;> rfl

theorem action_of_supply (h : n ∈ [41, 42]) : paramAction n old u = evalSupply 1 u := by
  simp only [List.mem_cons, List.not_mem_nil, or_false] at h
  rcases h with rfl | rfl <;> rfl

theorem action_of_errors (p : PortId) (h : n = 43 + p.val) : paramAction n old u = judgeErrors p u := by
  subst h
  match p with
  | 0 => rfl
  | 1 => rfl

theorem action_of_chargeTemps (h : n ∈ [83, 84]) : paramAction n old u = chargeTempTest u := by
  simp only [List.mem_cons, List.not_mem_nil, or_false] at h
  rcases h with rfl | rfl <;> rfl

theorem action_of_duty (h : n ∈ [95, 96]) : paramAction n old u = relimit u := by
  simp only [List.mem_cons, List.not_mem_nil, or_false] at h
  rcases h with rfl | rfl <;> rfl

theorem action_of_other (h : n ∉ [8, 20, 21, 22, 23, 24, 25, 26, 27, 28, 30, 40, 41, 42, 43, 44, 55, 62, 70, 83, 84, 90, 95,
    96, 98, 110, 112, 113]) : paramAction n old u = u := by
  simp only [List.mem_cons, List.not_mem_nil, or_false, not_or] at h
  unfold paramAction
  simp only [h, or_self, if_false]

end Number

/-- Settles O54: the value by its range, what acts at once by the owner of the number. -/
theorem parametersAreWritten : Obligations.ParametersAreWritten := by
  unfold Obligations.ParametersAreWritten
  intro acted q s serving wf n x
  have exec : exec .paramSet s = _ := exec_paramSet serving
  refine ⟨fun unknown => ?_, fun rate event => ?_, fun r row free => ?_⟩
  · rw [exec, writeParam_unknown unknown]
  · rw [exec, writeParam_refused rate event]
  · refine ⟨storedState n r x s, r.fit.fit x, ?_, storedState_param r wf, fun m other => storedState_other r other,
      fun lo hi range => fit_range range x, fun l values => fit_oneOf row values x, fun m set => fit_condSet set x, ?_, ?_⟩
    · rw [exec, writeParam_stores row free]
    · exact fun rate => storedState_rate rate r wf
    · have params : (storedState n r x s).params = storedParams n (r.fit.fit x) s := storedState_params r
      have wf' : Sparse.wf paramDefault (storedParams n (r.fit.fit x) s) = true := put_wf _ _ _ _ wf
      have e : storedState n r x s = paramAction n s (written (storedParams n (r.fit.fit x) s) s) := rfl
      clear_value n x
      generalize storedState n r x s = t at *
      generalize storedParams n (r.fit.fit x) s = P at *
      unfold acted
      intro u status reported supply tested limited heated wake
      have stored : u = written P s := congrArg (fun p => written p s) params
      clear_value u
      subst stored
      have op {m : Nat} {w : State} (h : n = m) (g : paramAction m s (written P s) = w) : t = w := e.trans (h ▸ g)
      refine ⟨fun h => action_clock (op h rfl), fun h => e.trans (action_of_pps s _ h),
        fun h => e.trans (action_of_markA s _ h), fun h => e.trans (action_of_markB s _ h), fun h => ?_, fun h => ?_,
        fun h => ?_, fun p h => action_errors p h (e.trans (action_of_errors s _ p h)), fun h => action_wakeTerm (op h rfl),
        fun h => ?_, fun h => ?_, fun h => action_chargeTemps (e.trans (action_of_chargeTemps s _ h)),
        fun h => action_heater (op h rfl), fun h => action_duty s.htr.spent (e.trans (action_of_duty s _ h)), fun h => ?_,
        fun h => ?_, fun h => ?_, fun h => action_interval (op h rfl), fun h => e.trans (action_of_other s _ h)⟩
      · have eq : t = storeRate (written P s).sampleRate (written P s) := op h rfl
        subst eq
        exact rfl
      · have eq : t = evalSupply 0 (written P s) := op h rfl
        have enable : t.digEnable0 = (written P s).digEnable0 := congrArg (· == 1) (param_of_params params 40)
        have due : (written P s).supplyDue 0 = true ↔ t.digEnable0 = true ∧ s.bat.power = .run := enable ▸ due_zero
        exact supply_acted 0 due wf' eq
      · have eq : t = evalSupply 1 (written P s) := e.trans (action_of_supply s _ h)
        have enable : t.digEnable1 = (written P s).digEnable1 := congrArg (· == 1) (param_of_params params 41)
        have shed : t.shedD1Critical = (written P s).shedD1Critical := congrArg (· == 1) (param_of_params params 42)
        have due : (written P s).supplyDue 1 = true ↔ t.digEnable1 = true ∧ s.bat.power = .run
            ∧ (s.bat.cls ≠ .critical ∨ t.shedD1Critical = false) := enable ▸ shed ▸ due_one
        exact supply_acted 1 due wf' eq
      · have eq : t = clampCredits (written P s) := op h rfl
        subst eq
        exact rfl
      · have eq : t = clampCharge (written P s) := op h rfl
        subst eq
        exact rfl
      · have budget : t.dailyHeatBudgetLow = (written P s).dailyHeatBudgetLow :=
          congrArg Int.toNat (param_of_params params 98)
        rw [budget]
        exact action_duty _ (op h rfl)
      · have eq : t = wakeEval (written P s) := op h rfl
        subst eq
        exact rfl
      · have eq : t = degradedEval (written P s) := op h rfl
        subst eq
        exact rfl

end Sys2Proof.Proofs
end

