-- ==== Sys2Proof/Proofs/TimeAndMap.lean ====
section
/-! PROOFS. TIME_SET and MAP_SET (R20, R56): the checks in their order, the time a setting leaves and the map it leaves pending;
from these the settling of O55. -/
namespace Sys2Proof.Proofs

open Sys2Proof Sys2Proof.Machine Sys2Proof.Laws

/-! ### TIME_SET -/

theorem addTicks_nat (x : Time) (n : Nat) : (x.addTicks (n : Int)).s = (x.s + (x.t + n) / 10000000) % 4294967296
    ∧ (x.addTicks (n : Int)).t = (x.t + n) % 10000000 := by
  unfold Time.addTicks
  dsimp only
  omega

/-- The holdover of a time that the host has set (R20). -/
def hostSet (s : State) : State :=
  if s.clk.disc = .unset then enterHoldover .hostSet s else { s with clk := { s.clk with reason := some .hostSet } }

theorem hostSet_clk {s : State} (idle : s.clk.disc = .unset ∨ s.clk.disc = .holdover) :
    (hostSet s).clk.s = s.clk.s ∧ (hostSet s).clk.t = s.clk.t ∧ (hostSet s).clk.u = s.clk.u ∧ (hostSet s).clk.disc = .holdover
    ∧ (hostSet s).clk.reason = some .hostSet ∧ (hostSet s).clk.steps = s.clk.steps := by
  unfold hostSet
  split
  · exact ⟨rfl, rfl, rfl, rfl, rfl, rfl⟩
  · next set => exact ⟨rfl, rfl, rfl, idle.resolve_left set, rfl, rfl⟩

/-- The clock at the new time with its uncertainty, before its state and reason change. -/
def timeSet (x : Time) (micros since : Nat) (s : State) : State :=
  let stepped := countStep (changeTime (x.addTicks (s.clk.ticks - since : Nat)) s)
  reportClock { stepped with clk := { stepped.clk with u := min (micros * 1000) 4294967295 } }

theorem timeSet_clk (x : Time) (micros since : Nat) (s : State) : (timeSet x micros since s).clk = { s.clk with
    s := (x.addTicks (s.clk.ticks - since : Nat)).s, t := (x.addTicks (s.clk.ticks - since : Nat)).t
    steps := inc16 s.clk.steps, u := min (micros * 1000) 4294967295 } := by
  unfold timeSet countStep
  rw [reportClock_clk, changeTime_clk]

theorem setTime_eq (x : Time) (micros since : Nat) (s : State) :
    setTime x micros since s = reportClock (hostSet (timeSet x micros since s)) := rfl

theorem setTime_clk (x : Time) (micros since : Nat) {s : State} (idle : s.clk.disc = .unset ∨ s.clk.disc = .holdover) :
    let t := setTime x micros since s
    let late := s.clk.ticks - since
    t.clk.s = (x.s + (x.t + late) / 10000000) % 4294967296 ∧ t.clk.t = (x.t + late) % 10000000
    ∧ t.clk.u = min (micros * 1000) 4294967295 ∧ t.clk.disc = .holdover ∧ t.clk.reason = some .hostSet
    ∧ t.clk.steps = inc16 s.clk.steps := by
  intro t late
  have clk := timeSet_clk x micros since s
  have kept : (timeSet x micros since s).clk.disc = s.clk.disc := by rw [clk]
  obtain ⟨secs, ticks⟩ := addTicks_nat x late
  obtain ⟨hs, ht, hu, disc, reason, steps⟩ := hostSet_clk (kept.symm ▸ idle)
  have after : t.clk = (hostSet (timeSet x micros since s)).clk := by
    rw [show t = _ from setTime_eq x micros since s, reportClock_clk]
  rw [after, hs, ht, hu, disc, reason, steps, clk]
  exact ⟨secs, ticks, rfl, rfl, rfl, rfl⟩

theorem idle_not_runs {s : State} (idle : s.clk.disc = .unset ∨ s.clk.disc = .holdover) :
    ¬ (s.clk.disc = .acquire ∨ s.clk.disc = .track) := by
  rcases idle with h | h <;> rw [h] <;> decide

section TimeSet
variable {q : Request} {s : State}

theorem exec_timeSet (serving : s.serving 0x03 q) :
    exec .timeSet s = .next (finish (serveTimeSet q s).1 (serveTimeSet q s).2) := by
  have e : exec .timeSet s = execTimeSet s := rfl
  rw [e, execTimeSet, act_on serving.1, serve_on _ serving]

theorem serveTimeSet_value (bad : 9999999 < field q.body 4 4) : serveTimeSet q s = ([0x04], s) := if_pos bad

variable (good : field q.body 4 4 ≤ 9999999)
include good

theorem serveTimeSet_state (runs : s.clk.disc = .acquire ∨ s.clk.disc = .track) : serveTimeSet q s = ([0x05], s) :=
  (if_neg (Nat.not_lt.mpr good)).trans (if_pos runs)

variable (idle : s.clk.disc = .unset ∨ s.clk.disc = .holdover)
include idle

theorem serveTimeSet_forbidden (forbidden : q.forbidden = true) : serveTimeSet q s = ([0x06], s) :=
  (if_neg (Nat.not_lt.mpr good)).trans ((if_neg (idle_not_runs idle)).trans (if_pos forbidden))

theorem serveTimeSet_sets (free : q.forbidden = false) : serveTimeSet q s =
    ([if 4294967295 < field q.body 8 4 * 1000 then 0x01 else 0x00],
      setTime ⟨field q.body 0 4, field q.body 4 4⟩ (field q.body 8 4) q.ticks s) :=
  (if_neg (Nat.not_lt.mpr good)).trans ((if_neg (idle_not_runs idle)).trans (if_neg (by rw [free]; decide)))

end TimeSet

/-! ### MAP_SET -/

section MapSet
variable {q : Request} {s : State}

theorem exec_mapSet (serving : s.serving 0x22 q) :
    exec .mapSet s = .next (finish (serveMapSet q s).1 (serveMapSet q s).2) := by
  have e : exec .mapSet s = execMapSet s := rfl
  rw [e, execMapSet, act_on serving.1, serve_on _ serving]

theorem serveMapSet_code (bad : parseMap q.body = none) : serveMapSet q s = ([0x04], s) := by
  unfold serveMapSet
  rw [bad]

variable {m : ChanMap} (parsed : parseMap q.body = some m)
include parsed

theorem serveMapSet_event (active : q.eventActive = true) : serveMapSet q s = ([0x06], s) := by
  unfold serveMapSet
  rw [parsed]
  exact if_pos active

theorem serveMapSet_sets (free : q.eventActive = false) :
    serveMapSet q s = ([0x00], { s with pendingMap := if m = s.map then none else some m }) := by
  unfold serveMapSet
  rw [parsed]
  exact if_neg (by rw [free]; decide)

end MapSet

/-- Settles O55: each check of the two requests in turn, then what they set. -/
theorem timeAndMapAreSet : Obligations.TimeAndMapAreSet := by
  intro q s
  refine ⟨fun serving => ⟨fun bad => ?_, fun good runs => ?_, fun good idle forbidden => ?_, fun good idle free => ?_⟩,
    fun serving => ⟨fun bad => ?_, fun m parsed => ⟨fun active => ?_, fun free => ?_⟩⟩⟩
  · rw [exec_timeSet serving, serveTimeSet_value bad]
  · rw [exec_timeSet serving, serveTimeSet_state good runs]
  · rw [exec_timeSet serving, serveTimeSet_forbidden good idle forbidden]
  · rw [exec_timeSet serving, serveTimeSet_sets good idle free]
    have set := setTime_clk ⟨field q.body 0 4, field q.body 4 4⟩ (field q.body 8 4) q.ticks idle
    generalize setTime ⟨field q.body 0 4, field q.body 4 4⟩ (field q.body 8 4) q.ticks s = t at *
    exact ⟨t, rfl, set⟩
  · rw [exec_mapSet serving, serveMapSet_code bad]
  · rw [exec_mapSet serving, serveMapSet_event parsed active]
  · rw [exec_mapSet serving, serveMapSet_sets parsed free]

end Sys2Proof.Proofs
end

