-- ==== Sys2Proof/Proofs/DetectorSettings.lean ====
section
/-! PROOFS. DETECTOR_SET (R74, R80 to R84, R89): the checks, the settings each named channel takes, and what becomes of its state
and its reports; from these the settling of O56. -/
namespace Sys2Proof.Proofs

open Sys2Proof Sys2Proof.Machine Sys2Proof.Laws

/-! ### The channels named -/

theorem mem_namedChans (body : List Byte) (c : Chan) : c ∈ namedChans body ↔ (body.getD 0 0).toNat.testBit c.val = true := by
  unfold namedChans
  rw [List.mem_filter]
  exact and_iff_right (mem_allChans c)

theorem namedChans_nodup (body : List Byte) : (namedChans body).Nodup := allChans_nodup.filter _

theorem namedChans_none {body : List Byte} (zero : (body.getD 0 0).toNat = 0) : namedChans body = [] := by
  refine List.eq_nil_iff_forall_not_mem.mpr fun c mem => ?_
  have bit := (mem_namedChans body c).mp mem
  rw [zero, Nat.zero_testBit] at bit
  cases bit

theorem namedChans_some {body : List Byte} (some : (body.getD 0 0).toNat ≠ 0) (six : (body.getD 0 0).toNat < 64) :
    namedChans body ≠ [] := by
  obtain ⟨i, bit⟩ := Nat.exists_testBit_of_ne_zero some
  have low : i < 6 := by
    by_contra high
    have lt : (body.getD 0 0).toNat < 2 ^ i := Nat.lt_of_lt_of_le six (Nat.pow_le_pow_right (by decide : 2 > 0) (Nat.not_lt.mp high))
    rw [Nat.testBit_eq_false_of_lt lt] at bit
    cases bit
  exact List.ne_nil_of_mem ((mem_namedChans body ⟨i, low⟩).mpr bit)

/-! ### The checks -/

/-- The state after the named channels have taken their settings. -/
def detectorsSet (body : List Byte) (s : State) : State :=
  (namedChans body).foldl (fun s c => storeDetector body c s) { s with moment := {} }

/-- Every carried setting of the named channels was stored as it came. -/
def allFit (body : List Byte) (s : State) : Bool :=
  (namedChans body).all fun c => (s.chn[c].det.withCarried body).fit = s.chn[c].det.withCarried body

section Checks
variable {q : Request} {s : State}

theorem exec_detectorSet (serving : s.serving 0x20 q) :
    exec .detectorSet s = .next (finish (serveDetectorSet q s).1 (serveDetectorSet q s).2) := by
  have e : exec .detectorSet s = execDetectorSet s := rfl
  rw [e, execDetectorSet, act_on serving.1, serve_on _ serving]

theorem serveDetectorSet_named (bad : (q.body.getD 0 0).toNat = 0 ∨ 64 ≤ (q.body.getD 0 0).toNat) :
    serveDetectorSet q s = ([0x04], s) := by
  refine if_pos ?_
  rw [Bool.or_eq_true, decide_eq_true_iff]
  exact bad.imp_left fun zero => by rw [namedChans_none zero]; rfl

theorem serveDetectorSet_enable (bad : 1 < (carried q.body 7).getD 0) : serveDetectorSet q s = ([0x04], s) := by
  unfold serveDetectorSet
  dsimp only
  rw [if_pos bad, ite_self]

variable (some : (q.body.getD 0 0).toNat ≠ 0) (six : (q.body.getD 0 0).toNat < 64) (enable : (carried q.body 7).getD 0 ≤ 1)
include some six enable

theorem serveDetectorSet_checked : serveDetectorSet q s =
    if q.body.getD 1 0 = 0 then (0x00 :: detectorList (namedChans q.body) s, s)
    else ((if allFit q.body s then 0x00 else 0x01) :: detectorList (namedChans q.body) (detectorsSet q.body s),
      detectorsSet q.body s) := by
  have named : ¬ ((namedChans q.body).isEmpty || decide (64 ≤ (q.body.getD 0 0).toNat)) = true := by
    rw [Bool.or_eq_true, List.isEmpty_iff, decide_eq_true_iff]
    rintro (none | large)
    · exact namedChans_some some six none
    · omega
  exact (if_neg named).trans (if_neg (Nat.not_lt.mpr enable))

end Checks

/-! ### One channel -/

section OneChannel
variable (body : List Byte) (s : State) (c : Chan)

/-- The settings that channel c is given, fitted. -/
def fittedDetector : Detector := (s.chn[c].det.withCarried body).fit

theorem storedChan_det : (storedChan body s c).det = fittedDetector body s c := (refreshed_cases _ _).1

theorem storedChan_still (still : movedChan body s c = false) :
    storedChan body s c = { s.chn[c] with det := fittedDetector body s c } := (refreshed_cases _ _).2.1 still

theorem storedChan_restarts (moved : movedChan body s c = true)
    (eligible : State.eligibleWith s c (fittedDetector body s c) = true) : storedChan body s c = { s.chn[c] with
      det := fittedDetector body s c, sta := 0, lta := 0, warmup := 0, ratio := 0, warmed := false, frozen := false
      released := false, age := 0, last := none, state := if s.chn[c].supp = true then .suppressed else .warmup } :=
  ((refreshed_cases { s.chn[c] with det := fittedDetector body s c } _).2.2.1 moved eligible).trans rfl

theorem storedChan_stops (moved : movedChan body s c = true)
    (eligible : State.eligibleWith s c (fittedDetector body s c) = false) : storedChan body s c = { s.chn[c] with
      det := fittedDetector body s c, state := .off, ratio := 0, frozen := false, released := false, age := 0 } :=
  ((refreshed_cases { s.chn[c] with det := fittedDetector body s c } _).2.2.2 moved eligible).trans rfl

theorem fit_fields (d : Detector) : let e := d.fit
    e.staShift = max 1 (min 8 d.staShift) ∧ e.ltaShift = max (e.staShift + 2) (min 14 d.ltaShift)
    ∧ e.onRatio = max 20 (min 640 d.onRatio) ∧ e.offRatio = max 16 (min e.onRatio d.offRatio)
    ∧ e.floor = max 1 (min 65535 d.floor) ∧ e.trigMax = max 1 (min 600 d.trigMax)
    ∧ e.weight = max 0 (min 15 d.weight) ∧ e.enable = d.enable := ⟨rfl, rfl, rfl, rfl, rfl, rfl, rfl, rfl⟩

end OneChannel

/-! ### All the named channels -/

/-- The state of channel c has moved between s and t by the settings of a body. -/
def detectorMoved (body : List Byte) (s t : State) (c : Chan) : Bool :=
  (body.getD 0 0).toNat.testBit c.val && body.getD 1 0 != 0
    && (State.eligibleWith s c t.chn[c].det == (s.chn[c].state == .off))

theorem detectorMoved_quiet {body : List Byte} (quiet : body.getD 1 0 = 0) (s t : State) (c : Chan) :
    detectorMoved body s t c = false := by
  unfold detectorMoved
  rw [quiet, bne_self_eq_false, Bool.and_false, Bool.false_and]

section Stored
variable (body : List Byte) (s : State)

theorem detectorsSet_spec : let t := detectorsSet body s
    OnlyIn [.chn, .evt] { s with moment := {} } t
    ∧ (∀ d, t.chn[d] = if d ∈ namedChans body then storedChan body s d else s.chn[d])
    ∧ t.evt = { s.evt with
        counting := t.evt.counting
        reports := s.evt.reports.map fun r =>
          if r.chan ∈ namedChans body ∧ movedChan body s r.chan = true then { r with overridden := true } else r }
    ∧ ∀ d, t.evt.counting[d] = if d ∈ namedChans body ∧ movedChan body s d = true then none else s.evt.counting[d] :=
  storeDetectors_spec body (namedChans body) (namedChans_nodup body) { s with moment := {} }

theorem detectorsSet_named {c : Chan} (named : (body.getD 0 0).toNat.testBit c.val = true) :
    (detectorsSet body s).chn[c] = storedChan body s c := by
  obtain ⟨-, chan, -⟩ := detectorsSet_spec body s
  rw [chan, if_pos ((mem_namedChans body c).mpr named)]

theorem detectorsSet_other {c : Chan} (other : (body.getD 0 0).toNat.testBit c.val = false) :
    (detectorsSet body s).chn[c] = s.chn[c] := by
  obtain ⟨-, chan, -⟩ := detectorsSet_spec body s
  rw [chan, if_neg fun mem => by rw [(mem_namedChans body c).mp mem] at other; cases other]

theorem detectorsSet_det {c : Chan} (named : (body.getD 0 0).toNat.testBit c.val = true) :
    (detectorsSet body s).chn[c].det = fittedDetector body s c := by
  rw [detectorsSet_named body s named, storedChan_det]

variable {body} (masked : body.getD 1 0 ≠ 0)
include masked

theorem detectorMoved_iff (c : Chan) : detectorMoved body s (detectorsSet body s) c = true ↔
    c ∈ namedChans body ∧ movedChan body s c = true := by
  unfold detectorMoved
  rw [Bool.and_eq_true, Bool.and_eq_true, bne_iff_ne, mem_namedChans]
  constructor
  · rintro ⟨⟨named, -⟩, moved⟩
    rw [detectorsSet_det body s named] at moved
    exact ⟨named, moved⟩
  · rintro ⟨named, moved⟩
    rw [detectorsSet_det body s named]
    exact ⟨⟨named, masked⟩, moved⟩

theorem detectorsSet_evt : (detectorsSet body s).evt = { s.evt with
    counting := (detectorsSet body s).evt.counting
    reports := s.evt.reports.map fun r =>
      if detectorMoved body s (detectorsSet body s) r.chan = true then { r with overridden := true } else r } := by
  obtain ⟨-, -, evt, -⟩ := detectorsSet_spec body s
  have same : (fun r : Report => if detectorMoved body s (detectorsSet body s) r.chan = true then { r with overridden := true }
      else r) = fun r => if r.chan ∈ namedChans body ∧ movedChan body s r.chan = true then { r with overridden := true }
      else r := funext fun r => if_congr (detectorMoved_iff s masked r.chan) rfl rfl
  rw [same]
  exact evt

theorem detectorsSet_still (c : Chan) (still : detectorMoved body s (detectorsSet body s) c = false) :
    (detectorsSet body s).chn[c] = { s.chn[c] with det := (detectorsSet body s).chn[c].det }
    ∧ (detectorsSet body s).evt.counting[c] = s.evt.counting[c] := by
  obtain ⟨-, -, -, counting⟩ := detectorsSet_spec body s
  have not : ¬ (c ∈ namedChans body ∧ movedChan body s c = true) := by
    rw [← detectorMoved_iff s masked, still]
    decide
  refine ⟨?_, (counting c).trans (if_neg not)⟩
  by_cases named : (body.getD 0 0).toNat.testBit c.val = true
  · have own : movedChan body s c = false :=
      Bool.not_eq_true _ |>.mp fun moved => not ⟨(mem_namedChans body c).mpr named, moved⟩
    rw [detectorsSet_det body s named, detectorsSet_named body s named]
    exact storedChan_still body s c own
  · rw [detectorsSet_other body s (Bool.not_eq_true _ |>.mp named)]

theorem detectorsSet_moved (c : Chan) (moved : detectorMoved body s (detectorsSet body s) c = true) :
    (detectorsSet body s).evt.counting[c] = none
    ∧ (State.eligibleWith s c (detectorsSet body s).chn[c].det = true → (detectorsSet body s).chn[c] = { s.chn[c] with
        det := (detectorsSet body s).chn[c].det, sta := 0, lta := 0, warmup := 0, ratio := 0, warmed := false, frozen := false
        released := false, age := 0, last := none, state := if s.chn[c].supp = true then .suppressed else .warmup })
    ∧ (State.eligibleWith s c (detectorsSet body s).chn[c].det = false → (detectorsSet body s).chn[c] = { s.chn[c] with
        det := (detectorsSet body s).chn[c].det, state := .off, ratio := 0, frozen := false, released := false, age := 0 }) := by
  obtain ⟨-, -, -, counting⟩ := detectorsSet_spec body s
  obtain ⟨mem, own⟩ := (detectorMoved_iff s masked c).mp moved
  have named := (mem_namedChans body c).mp mem
  rw [detectorsSet_det body s named, detectorsSet_named body s named]
  exact ⟨(counting c).trans (if_pos ⟨mem, own⟩), storedChan_restarts body s c own, storedChan_stops body s c own⟩

omit masked in
theorem allFit_iff : allFit body s = true ↔ ∀ c : Chan, (body.getD 0 0).toNat.testBit c.val = true →
    (detectorsSet body s).chn[c].det = s.chn[c].det.withCarried body := by
  unfold allFit
  rw [List.all_eq_true]
  refine forall_congr' fun c => ?_
  rw [mem_namedChans, decide_eq_true_iff]
  refine imp_congr_right fun named => ?_
  rw [detectorsSet_det body s named]
  exact Iff.rfl

omit masked in
/-- The code says CLAMPED where a named channel has not taken a setting as it came. -/
theorem allFit_code : (if allFit body s = true then (0x00 : Byte) else 0x01) = 0x01 ↔
    ∃ c : Chan, (body.getD 0 0).toNat.testBit c.val = true
      ∧ (detectorsSet body s).chn[c].det ≠ s.chn[c].det.withCarried body := by
  by_cases fits : allFit body s = true
  · rw [if_pos fits]
    refine ⟨fun h => absurd h (by decide), fun ⟨c, named, apart⟩ => ?_⟩
    exact absurd ((allFit_iff s).mp fits c named) apart
  · rw [if_neg fits]
    refine ⟨fun _ => ?_, fun _ => rfl⟩
    rw [allFit_iff] at fits
    push Not at fits
    exact fits

end Stored

/-- Settles O56: the checks, the quiet request, then the stored settings channel by channel. -/
theorem detectorSettingsAreWritten : Obligations.DetectorSettingsAreWritten := by
  intro q s serving named mask list bytes eligible moved
  have served := exec_detectorSet serving
  have moved_eq (t : State) (c : Chan) : moved t c = detectorMoved q.body s t c := rfl
  have eligible_eq (t : State) (c : Chan) : eligible t c = State.eligibleWith s c t.chn[c].det := rfl
  have reply_eq (t : State) : detectorList (namedChans q.body) t =
      byte list.length :: list.flatMap (fun c => bytes t.chn[c].det) := rfl
  refine ⟨fun bad => ?_, fun bad => ?_, fun some six enable => ?_⟩
  · rw [served, serveDetectorSet_named bad]
  · rw [served, serveDetectorSet_enable bad]
  · have checked := serveDetectorSet_checked (s := s) some six enable
    simp only [moved_eq, eligible_eq]
    by_cases quiet : q.body.getD 1 0 = 0
    · rw [if_pos quiet] at checked
      refine ⟨s, 0x00 :: detectorList (namedChans q.body) s, ?_, ⟨0x00, ?_⟩, fun _ => rfl, fun masked => absurd quiet masked,
        fun c => ⟨fun _ => rfl, fun _ masked => absurd quiet masked, fun _ => ⟨rfl, rfl⟩, fun moved => ?_⟩⟩
      · rw [served, checked]
      · exact ⟨rfl, .inl rfl, fun h => absurd h (by decide), fun h => absurd quiet h.1⟩
      · rw [detectorMoved_quiet quiet] at moved
        cases moved
    · rw [if_neg quiet] at checked
      refine ⟨detectorsSet q.body s, _, ?_, ⟨if allFit q.body s then 0x00 else 0x01, rfl, ?_, ?_⟩,
        fun zero => absurd zero quiet, fun _ => ⟨(detectorsSet_spec q.body s).1, detectorsSet_evt s quiet⟩,
        fun c => ⟨fun h => ?_, fun own _ => ?_, detectorsSet_still s quiet c, detectorsSet_moved s quiet c⟩⟩
      · rw [served, checked]
        exact rfl
      · exact (ite_eq_or_eq (allFit q.body s = true) 0x00 0x01)
      · exact (allFit_code s).trans (and_iff_right quiet).symm
      · rw [detectorsSet_other q.body s (h.resolve_right quiet)]
      · have det := detectorsSet_det q.body s own
        have fields := fit_fields (s.chn[c].det.withCarried q.body)
        rw [det]
        exact fields

end Sys2Proof.Proofs
end

