-- ==== Sys2Proof/Proofs/Lists.lean ====
section
/-! PROOFS. EVENT_RELEASE, MARKS_TAKE, NOTE_SEND and PENDING_CLEAR (R32, R104, R119, R189); from these the settling of O57. -/
namespace Sys2Proof.Proofs

open Sys2Proof Sys2Proof.Machine Sys2Proof.Laws

section Served
variable {q : Request} {s : State}

/-! ### EVENT_RELEASE -/

theorem exec_eventRelease (serving : s.serving 0x32 q) :
    exec .eventRelease s = .next (finish (serveEventRelease q s).1 (serveEventRelease q s).2) := by
  have e : exec .eventRelease s = execEventRelease s := rfl
  rw [e, execEventRelease, act_on serving.1, serve_on _ serving]

/-- The event list with the record of number n released. -/
def released (n : Nat) (s : State) : State :=
  eventWakeEval { s with evt := { s.evt with
    list := s.evt.list.filter fun r => r.number != n, released := (s.evt.released + 1) % 4294967296 } }

theorem serveEventRelease_closed (closed : ∃ r ∈ s.evt.list, r.number = field q.body 0 4) :
    serveEventRelease q s = ([0x00], released (field q.body 0 4) s) := by
  obtain ⟨r, mem, number⟩ := closed
  have listed : (s.evt.list.any fun r => r.number == field q.body 0 4) = true :=
    List.any_eq_true.mpr ⟨r, mem, beq_iff_eq.mpr number⟩
  exact if_pos listed

variable (absent : ∀ r ∈ s.evt.list, r.number ≠ field q.body 0 4)
include absent

theorem serveEventRelease_open (active : ∃ r, s.evt.record = some r ∧ r.number = field q.body 0 4) :
    serveEventRelease q s = ([0x05], s) := by
  obtain ⟨r, record, number⟩ := active
  have listed : ¬ (s.evt.list.any fun r => r.number == field q.body 0 4) = true := fun any => by
    obtain ⟨x, mem, same⟩ := List.any_eq_true.mp any
    exact absent x mem (beq_iff_eq.mp same)
  refine (if_neg listed).trans (if_pos ?_)
  rw [record, ← number]
  rfl

theorem serveEventRelease_unknown (other : ∀ r, s.evt.record = some r → r.number ≠ field q.body 0 4) :
    serveEventRelease q s = ([0x09], s) := by
  have listed : ¬ (s.evt.list.any fun r => r.number == field q.body 0 4) = true := fun any => by
    obtain ⟨x, mem, same⟩ := List.any_eq_true.mp any
    exact absent x mem (beq_iff_eq.mp same)
  refine (if_neg listed).trans (if_neg fun active => ?_)
  obtain ⟨r, record, number⟩ := Option.map_eq_some_iff.mp active
  exact other r record number

end Served

/-! ### MARKS_TAKE -/

theorem exec_marksTake {q : Request} {s : State} (serving : s.serving 0x40 q) :
    exec .marksTake s = .next (finish (serveMarksTake q s).1 (serveMarksTake q s).2) := by
  have e : exec .marksTake s = execMarksTake s := rfl
  rw [e, execMarksTake, act_on serving.1, serve_on _ serving]

/-! ### NOTE_SEND -/

section NoteSend
variable {q : Request} {s : State}

theorem exec_noteSend (serving : s.serving 0x71 q) :
    exec .noteSend s = .next (finish (serveNoteSend q s).1 (serveNoteSend q s).2) := by
  have e : exec .noteSend s = execNoteSend s := rfl
  rw [e, execNoteSend, act_on serving.1, serve_on _ serving]

/-- The note of a request, as it enters the outbox. -/
def noteOf (q : Request) (s : State) : Alert := newAlert .note 3 s.box.note q.stamp (.note q.body)

/-- The number of the note after note n, with the notes that s holds. -/
def followingNote (n : Nat) (s : State) : Nat :=
  nextNote ((s.box.entries.filter fun a => a.kind == .note).map Alert.origin) 255 n

/-- The next note has another number than n. -/
def numbered (n : Nat) (s : State) : State := { s with box := { s.box with note := followingNote n s } }

theorem serveNoteSend_full (full : 12 ≤ s.box.entries.length) : serveNoteSend q s = ([0x08], s) := if_pos full

variable (room : s.box.entries.length < 12)
include room

/-- A note for which there is room enters the outbox, and the next note takes another number. -/
theorem serveNoteSend_enters : ∃ next, serveNoteSend q s =
    ([0x00, byte s.box.note], { s with box := { s.box.enter (noteOf q s) s.box.entries with note := next } }) := by
  have placed : place (noteOf q s) s = { s with box := s.box.enter (noteOf q s) s.box.entries } := place_room _ s room
  have sent : serveNoteSend q s = ([0x00, byte s.box.note], numbered s.box.note (place (noteOf q s) s)) :=
    if_neg (Nat.not_le.mpr room)
  rw [placed] at sent
  exact ⟨_, sent⟩

end NoteSend

theorem mem_enter (b : Outbox) (a : Alert) (kept : List Alert) :
    { a with position := b.creation } ∈ (b.enter a kept).entries :=
  (sortAlerts_perm _ _).mem_iff.mpr List.mem_cons_self

/-! ### PENDING_CLEAR -/

/-- The rows of a list of conditions with the pending marks of the ids cleared. -/
def clearedConds (ids : List Nat) (l : List CondId) (v : Vector Cond 18) : Vector Cond 18 :=
  l.foldl (fun v (c : CondId) => if ids.contains c.val then v.set c { v[c] with pending := false } else v) v

/-- A row with its pending mark cleared or not. -/
def clearedRow (clear : Bool) (x : Cond) : Cond := { x with pending := x.pending && !clear }

theorem clearedRow_twice (a b : Bool) (x : Cond) : clearedRow a (clearedRow b x) = clearedRow (b || a) x := by
  unfold clearedRow
  cases a <;> cases b <;> simp

theorem clearedRow_false (x : Cond) : clearedRow false x = x := by
  unfold clearedRow
  simp

theorem cleared_step (ids : List Nat) (c d : CondId) (v : Vector Cond 18) :
    (if ids.contains c.val then v.set c { v[c] with pending := false } else v)[d]
      = clearedRow (decide (c = d) && ids.contains d.val) v[d] := by
  by_cases same : c = d
  · subst same
    rw [decide_eq_true rfl, Bool.true_and]
    cases ids.contains c.val
    · exact (clearedRow_false _).symm
    · rw [if_pos rfl, Fin.getElem_fin, Vector.getElem_set_self]
      unfold clearedRow
      simp
  · have apart : c.val ≠ d.val := fun e => same (Fin.ext e)
    rw [decide_eq_false same, Bool.false_and, clearedRow_false]
    split
    · exact Vector.getElem_set_ne _ _ apart
    · rfl

theorem clearedConds_row (ids : List Nat) (l : List CondId) (v : Vector Cond 18) (d : CondId) :
    (clearedConds ids l v)[d] = clearedRow (decide (d ∈ l) && ids.contains d.val) v[d] := by
  induction l generalizing v with
  | nil => exact (clearedRow_false _).symm
  | cons c l ih =>
    have rest : (clearedConds ids (c :: l) v)[d] = _ := ih _
    rw [rest, cleared_step, clearedRow_twice, ← Bool.and_or_distrib_right]
    congr 2
    by_cases same : c = d
    · subst same
      simp
    · simp [same, Ne.symm same]

section PendingClear
variable {q : Request} {s : State}

theorem exec_pendingClear (serving : s.serving 0x51 q) :
    exec .pendingClear s = .next (finish (servePendingClear q s).1 (servePendingClear q s).2) := by
  have e : exec .pendingClear s = execPendingClear s := rfl
  rw [e, execPendingClear, act_on serving.1, serve_on _ serving]

theorem servePendingClear_refused (bad : ∃ b ∈ q.body.drop 1, 17 < b.toNat) : servePendingClear q s = ([0x04], s) := by
  obtain ⟨b, mem, large⟩ := bad
  exact if_pos (List.any_eq_true.mpr ⟨b.toNat, List.mem_map_of_mem mem, decide_eq_true large⟩)

theorem servePendingClear_clears (good : ∀ b ∈ q.body.drop 1, b.toNat ≤ 17) : ∃ reply, servePendingClear q s =
    (reply, clearPending ((q.body.drop 1).map BitVec.toNat) s) := by
  refine ⟨_, if_neg fun any => ?_⟩
  obtain ⟨n, mem, large⟩ := List.any_eq_true.mp any
  obtain ⟨b, carried, rfl⟩ := List.mem_map.mp mem
  exact Nat.not_lt.mpr (good b carried) (of_decide_eq_true large)

theorem clearPending_row (ids : List Nat) (c : CondId) :
    (clearPending ids s).mon.conds[c] = clearedRow (ids.contains c.val) s.mon.conds[c] := by
  have all : c ∈ allConds := by
    revert c
    decide
  have row : (clearPending ids s).mon.conds[c] = (clearedConds ids allConds s.mon.conds)[c] := rfl
  rw [row, clearedConds_row, decide_eq_true all, Bool.true_and]

end PendingClear

/-- Settles O57: the four requests, each by its refusals and by what it takes or leaves. -/
theorem listsAreServed : Obligations.ListsAreServed := by
  intro q s
  refine ⟨fun serving => ⟨fun closed => ?_, fun absent active => ?_, fun absent other => ?_⟩, fun serving => ?_,
    fun serving => ⟨fun full => ?_, fun room => ?_⟩, fun serving => ⟨fun bad => ?_, fun good => ?_⟩⟩
  · rw [exec_eventRelease serving, serveEventRelease_closed closed]
    exact ⟨_, rfl, rfl, rfl, rfl⟩
  · rw [exec_eventRelease serving, serveEventRelease_open absent active]
  · rw [exec_eventRelease serving, serveEventRelease_unknown absent other]
  · exact exec_marksTake serving
  · rw [exec_noteSend serving, serveNoteSend_full full]
  · obtain ⟨next, enters⟩ := serveNoteSend_enters (q := q) room
    rw [exec_noteSend serving, enters]
    exact ⟨_, rfl, length_enter _ _ _, rfl, _, mem_enter s.box (noteOf q s) s.box.entries, rfl, rfl, rfl, rfl, rfl, rfl, rfl, rfl⟩
  · rw [exec_pendingClear serving, servePendingClear_refused bad]
  · obtain ⟨reply, clears⟩ := servePendingClear_clears (s := s) good
    rw [exec_pendingClear serving, clears]
    refine ⟨_, reply, rfl, fun c => ?_⟩
    rw [clearPending_row]
    exact ⟨rfl, rfl, rfl⟩

end Sys2Proof.Proofs
end

