-- ==== Sys2Proof/Proofs/CalibrationRequests.lean ====
section
/-! PROOFS. CAL_ADD, CAL_CANCEL and CAL_LIST (R38, R42, R43); from these the settling of O58. -/
namespace Sys2Proof.Proofs

open Sys2Proof Sys2Proof.Machine Sys2Proof.Laws

section Requests
variable {q : Request} {s : State}

/-! ### CAL_ADD -/

theorem exec_calAdd (serving : s.serving 0x41 q) :
    exec .calAdd s = .next (finish (serveCalAdd q s).1 (serveCalAdd q s).2) := by
  have e : exec .calAdd s = execCalAdd s := rfl
  rw [e, execCalAdd, act_on serving.1, serve_on _ serving]

theorem serveCalAdd_sensor (bad : 2 ≤ field q.body 0 1) : serveCalAdd q s = ([0x04], s) := dif_neg (Nat.not_lt.mpr bad)

variable (sensor : field q.body 0 1 < 2)
include sensor

theorem serveCalAdd_full (full : 4 ≤ s.sch.cals.length) : serveCalAdd q s = ([0x08], s) :=
  (dif_pos sensor).trans (if_pos full)

/-- The entry that a CAL_ADD gives. -/
def addedCal (s : State) : Cal := calFrom q.body ⟨field q.body 0 1, sensor⟩ s.sch.calId q.stamp.time.s

theorem serveCalAdd_adds (room : s.sch.cals.length < 4) : ∃ t, serveCalAdd q s =
    ((if (addedCal sensor s).stored = q.body then 0x00 else 0x01) :: byte s.sch.calId :: (addedCal sensor s).stored, t)
    ∧ t.sch.cals = insertBy Cal.before (addedCal sensor s) s.sch.cals :=
  ⟨_, (dif_pos sensor).trans (if_neg (Nat.not_le.mpr room)), rfl⟩

end Requests

/-! ### CAL_CANCEL -/

section Cancel
variable {q : Request} {s : State}

theorem exec_calCancel (serving : s.serving 0x42 q) :
    exec .calCancel s = .next (finish (serveCalCancel q s).1 (serveCalCancel q s).2) := by
  have e : exec .calCancel s = execCalCancel s := rfl
  rw [e, execCalCancel, act_on serving.1, serve_on _ serving]

theorem serveCalCancel_unknown (unknown : ∀ c ∈ s.sch.cals, c.id ≠ field q.body 0 1) : serveCalCancel q s = ([0x09], s) := by
  have absent : (s.sch.cals.find? fun c => c.id == field q.body 0 1) = none :=
    List.find?_eq_none.mpr fun c mem same => unknown c mem (beq_iff_eq.mp same)
  unfold serveCalCancel
  rw [absent]

theorem editCal_cancels (id : Nat) (s : State) :
    ∀ y ∈ (editCal id (fun c => { c with outcome := .cancelled }) s).sch.cals, y.id = id → y.outcome = .cancelled := by
  intro y mem own
  obtain ⟨x, -, rfl⟩ := List.mem_map.mp mem
  by_cases same : x.id = id
  · rw [if_pos same]
  · rw [if_neg same] at own
    exact absurd own same

variable {c : Cal} (found : (s.sch.cals.find? fun c => c.id == field q.body 0 1) = some c)
include found

theorem serveCalCancel_finished (finished : c.outcome = .done ∨ c.outcome = .skipped ∨ c.outcome = .cancelled) :
    serveCalCancel q s = ([0x05], s) := by
  unfold serveCalCancel
  rw [found]
  dsimp only
  rcases finished with h | h | h <;> rw [h]

theorem serveCalCancel_waiting (waits : c.outcome = .waiting ∨ c.outcome = .deferred) :
    serveCalCancel q s = ([0x00], editCal c.id (fun c => { c with outcome := .cancelled }) s) := by
  unfold serveCalCancel
  rw [found]
  dsimp only
  rcases waits with h | h <;> rw [h]

theorem serveCalCancel_running (runs : c.outcome = .running) :
    serveCalCancel q s = ([0x00], leaveRunning c .cancelled s) := by
  unfold serveCalCancel
  rw [found]
  dsimp only
  rw [runs]

/-- An unfinished entry is cancelled; where it runs, its line goes low and its window closes. -/
theorem serveCalCancel_cancels (unfinished : c.outcome = .waiting ∨ c.outcome = .deferred ∨ c.outcome = .running) :
    ∃ t, serveCalCancel q s = ([0x00], t) ∧ (∀ y ∈ t.sch.cals, y.id = c.id → y.outcome = .cancelled)
    ∧ (c.outcome = .running → t.sch.lines[c.sensor] = none ∧ t.sch.windows[c.sensor] =
        (if s.calSettle = 0 then .closed else .closing (s.osc + s.calSettle * 10000000))) := by
  by_cases runs : c.outcome = .running
  · obtain ⟨line, window, cals⟩ := leaveRunning_leaves c .cancelled s
    exact ⟨_, serveCalCancel_running found runs, cals, fun _ => ⟨line, window⟩⟩
  · have waits : c.outcome = .waiting ∨ c.outcome = .deferred :=
      unfinished.imp_right fun h => h.resolve_right runs
    exact ⟨_, serveCalCancel_waiting found waits, editCal_cancels c.id s, fun h => absurd h runs⟩

end Cancel

/-! ### CAL_LIST -/

theorem finished_eq (x : CalOutcome) : x.finished = (x == .done || x == .skipped || x == .cancelled) := by
  cases x <;> rfl

theorem exec_calList {q : Request} {s : State} (serving : s.serving 0x43 q) :
    exec .calList s = .next (finish (serveCalList q s).1 (serveCalList q s).2) := by
  have e : exec .calList s = execCalList s := rfl
  rw [e, execCalList, act_on serving.1, serve_on _ serving]

/-- Settles O58: the entry added, the entry cancelled by its outcome, and the list with the finished entries noted. -/
theorem calibrationIsScheduled : Obligations.CalibrationIsScheduled := by
  intro q s
  refine ⟨fun serving => ⟨fun bad => ?_, fun sensor full => ?_, fun sensor room => ?_⟩,
    fun serving => ⟨fun unknown => ?_, fun c found => ⟨fun unfinished => ?_, fun finished => ?_⟩⟩, fun serving => ?_⟩
  · rw [exec_calAdd serving, serveCalAdd_sensor bad]
  · rw [exec_calAdd serving, serveCalAdd_full sensor full]
  · obtain ⟨t, adds, cals⟩ := serveCalAdd_adds sensor room
    rw [exec_calAdd serving, adds]
    refine ⟨t, addedCal sensor s, _, rfl, ?_, rfl, rfl, rfl, rfl, rfl, rfl, rfl, rfl, rfl, rfl, rfl⟩
    rw [cals]
    exact insertBy_perm _ _ _
  · rw [exec_calCancel serving, serveCalCancel_unknown unknown]
  · obtain ⟨t, cancels, after⟩ := serveCalCancel_cancels found unfinished
    rw [exec_calCancel serving, cancels]
    exact ⟨t, rfl, after⟩
  · rw [exec_calCancel serving, serveCalCancel_finished found finished]
  · have reported : (fun c : Cal => c.outcome.finished) = fun c =>
        c.outcome == .done || c.outcome == .skipped || c.outcome == .cancelled := funext fun c => finished_eq c.outcome
    rw [exec_calList serving, ← reported]
    exact rfl

end Sys2Proof.Proofs
end

