-- ==== Sys2Proof/Proofs/OutputRestarts.lean ====
section
/-! PROOFS. OUTPUT_RESTART (R155, R174): what the receipt finds, what each output does, and the reply once every selected output is
served; from these the settling of O60. -/
namespace Sys2Proof.Proofs

open Sys2Proof Sys2Proof.Machine Sys2Proof.Laws

/-! ### The outputs -/

section Charger
variable (found : Byte) (s : State)

/-- The battery after the charger's part. -/
def restartedBattery : Battery :=
  if found = 1 ∧ s.bat.charge = .fault then { s.bat with restarts := 0, charge := .idle, clear := 0 }
  else { s.bat with restarts := 0 }

theorem restartCharger_bat : (restartCharger found s).bat = restartedBattery found s := by
  unfold restartCharger restartedBattery
  dsimp only
  split
  · obtain ⟨-, -, bat, -⟩ := Laws.reportCharge_conds { s with bat := { s.bat with restarts := 0, charge := .idle, clear := 0 } }
    exact bat
  · rfl

theorem restartCharger_fields : (restartCharger found s).bat.restarts = 0
    ∧ (restartCharger found s).bat.charge = (if found = 1 ∧ s.bat.charge = .fault then .idle else s.bat.charge)
    ∧ (restartCharger found s).bat.clear = if found = 1 ∧ s.bat.charge = .fault then 0 else s.bat.clear := by
  rw [restartCharger_bat]
  unfold restartedBattery
  split <;> exact ⟨rfl, rfl, rfl⟩

theorem restartCharger_fault (h : found = 1 ∧ s.bat.charge = .fault) :
    (restartCharger found s).mon.conds[(12 : CondId)].status = false := by
  unfold restartCharger
  rw [if_pos h]
  obtain ⟨-, fault, -⟩ := Laws.reportCharge_conds { s with bat := { s.bat with restarts := 0, charge := .idle, clear := 0 } }
  exact fault

theorem restartCharger_keeps : (restartCharger found s).htr = s.htr ∧ (restartCharger found s).bus = s.bus := by
  refine ⟨htr_of (restartCharger_does found s) (by decide), ?_⟩
  unfold restartCharger
  split
  · exact (reportCharge_does { s with bat := { s.bat with restarts := 0, charge := .idle, clear := 0 } }).frame .bus (by decide)
  · rfl

end Charger

section Heater
variable (found : Byte) (s : State)

theorem restartHeater_htr : (restartHeater found s).htr = if found = 1 ∧ s.htr.state = .shutdown then { s.htr with
    state := if s.bat.power = .shed ∨ s.heatEnable = false then .off
      else if s.htr.hold.isSome then .held else .regulate
    clear := 0 } else s.htr := by
  unfold restartHeater
  split
  · rw [heaterRestart_htr, heatResume_eq]
  · rfl

theorem restartHeater_cond (h : found = 1 ∧ s.htr.state = .shutdown) :
    (restartHeater found s).mon.conds[(13 : CondId)].status = false := by
  unfold restartHeater
  rw [if_pos h]
  exact heaterRestart_cond s

theorem restartHeater_keeps : (restartHeater found s).bat = s.bat ∧ (restartHeater found s).bus = s.bus := by
  unfold restartHeater
  split
  · exact ⟨bat_of (heaterRestart_does s) (by decide), bus_of (heaterRestart_does s) (by decide)⟩
  · exact ⟨rfl, rfl⟩

end Heater

/-! ### The findings at receipt -/

theorem heaterFinding_eq (s : State) : s.heaterFinding = (if s.htr.state ≠ .shutdown then 0
    else if s.tHeaterCutoff < s.pwr.tp ∨ s.pwr.tpValid = false ∨ s.htr.fault = true then 2 else 1) := by
  have cause : s.heatCause = true ↔ s.tHeaterCutoff < s.pwr.tp ∨ s.pwr.tpValid = false ∨ s.htr.fault = true := by
    unfold State.heatCause
    rw [Bool.or_eq_true, Bool.or_eq_true, decide_eq_true_iff, Bool.not_eq_true', or_assoc]
  exact if_congr Iff.rfl rfl (if_congr cause rfl rfl)

/-! ### One output's part -/

/-- The state with q as the request in hand. -/
def withRequest (q : Request) (s : State) : State := { s with bus := { s.bus with req := some q } }

theorem settle_served {q : Request} {sel : Nat} (s : State)
    (served : (sel.testBit 0 → q.charger.isSome) ∧ (sel.testBit 1 → q.heater.isSome)) :
    settleOutputs q sel s = finish (outputReply q.charger q.heater) (withRequest q s) := if_pos served

theorem settle_waits {q : Request} {sel : Nat} (s : State)
    (waits : ¬ ((sel.testBit 0 → q.charger.isSome) ∧ (sel.testBit 1 → q.heater.isSome))) :
    settleOutputs q sel s = withRequest q s := if_neg waits

section Part
variable {q : Request} {s : State} {bit : Nat} (served : Request → Bool) (run : Request → State → State)
  (put : Request → Request) (serving : s.serving 0x61 q)
include serving

theorem outputPart_refused (bad : field q.body 0 1 = 0 ∨ 4 ≤ field q.body 0 1) :
    outputPart bit served run put s = finish [0x04] s := by
  obtain ⟨-, req, recv, reply, kind, fits⟩ := serving
  unfold outputPart
  rw [req, recv, reply]
  dsimp only
  rw [if_neg (not_not_intro kind), if_neg (by rw [fits]; decide), if_pos bad]

theorem outputPart_runs {sel : Nat} (is : field q.body 0 1 = sel) (good : 0 < sel ∧ sel < 4)
    (selected : (sel.testBit bit && !served q) = true) :
    outputPart bit served run put s = settleOutputs (put q) sel (run q s) := by
  obtain ⟨-, req, recv, reply, kind, fits⟩ := serving
  unfold outputPart
  rw [req, recv, reply]
  dsimp only
  rw [is, if_neg (not_not_intro kind), if_neg (by rw [fits]; decide), if_neg (by omega), if_pos selected]

end Part

section Requests
variable {q : Request} {s : State} (serving : s.serving 0x61 q)
include serving

theorem exec_restartCharger : exec .outputRestartCharger s = .next (outputPart 0 (fun q => q.charger.isSome)
    (fun q => restartCharger q.chargerFound) (fun q => { q with charger := some q.chargerFound }) s) :=
  act_on (f := outputPart 0 (fun q => q.charger.isSome) (fun q => restartCharger q.chargerFound)
    (fun q => { q with charger := some q.chargerFound })) serving.1

theorem exec_restartHeater : exec .outputRestartHeater s = .next (outputPart 1 (fun q => q.heater.isSome)
    (fun q => restartHeater q.heaterFound) (fun q => { q with heater := some q.heaterFound }) s) :=
  act_on (f := outputPart 1 (fun q => q.heater.isSome) (fun q => restartHeater q.heaterFound)
    (fun q => { q with heater := some q.heaterFound })) serving.1

theorem outputs_refused (bad : field q.body 0 1 = 0 ∨ 4 ≤ field q.body 0 1) :
    exec .outputRestartCharger s = .next (finish [0x04] s) ∧ exec .outputRestartHeater s = .next (finish [0x04] s) := by
  rw [exec_restartCharger serving, exec_restartHeater serving, outputPart_refused _ _ _ serving bad,
    outputPart_refused _ _ _ serving bad]
  exact ⟨rfl, rfl⟩

/-- The charger's part where the charger is selected and not served. -/
theorem restartCharger_part {sel : Nat} (is : field q.body 0 1 = sel) (own : sel = 1 ∨ sel = 3) (open' : q.charger = none) :
    exec .outputRestartCharger s = .next (settleOutputs { q with charger := some q.chargerFound } sel
      (restartCharger q.chargerFound s)) := by
  rw [exec_restartCharger serving, outputPart_runs _ _ _ serving is (by omega)
    (by rw [open']; rcases own with rfl | rfl <;> rfl)]

/-- The heater's part where the heater is selected and not served. -/
theorem restartHeater_part {sel : Nat} (is : field q.body 0 1 = sel) (own : sel = 2 ∨ sel = 3) (open' : q.heater = none) :
    exec .outputRestartHeater s = .next (settleOutputs { q with heater := some q.heaterFound } sel
      (restartHeater q.heaterFound s)) := by
  rw [exec_restartHeater serving, outputPart_runs _ _ _ serving is (by omega)
    (by rw [open']; rcases own with rfl | rfl <;> rfl)]

end Requests

/-! ### The reply -/

theorem outputReply_charger (x : Byte) :
    outputReply (some x) none = [if x = 2 then 0x05 else 0x00, 1, x, 0, 0] := by
  have code : (some x = some (2 : Byte) ∨ (none : Option Byte) = some 2) ↔ x = 2 := by simp
  exact congrArg (fun c => c :: [1, x, 0, 0]) (if_congr code rfl rfl)

theorem outputReply_heater (y : Byte) :
    outputReply none (some y) = [if y = 2 then 0x05 else 0x00, 0, 0, 1, y] := by
  have code : ((none : Option Byte) = some 2 ∨ some y = some (2 : Byte)) ↔ y = 2 := by simp
  exact congrArg (fun c => c :: [0, 0, 1, y]) (if_congr code rfl rfl)

theorem outputReply_both (x y : Byte) :
    outputReply (some x) (some y) = [if x = 2 ∨ y = 2 then 0x05 else 0x00, 1, x, 1, y] := by
  have code : (some x = some (2 : Byte) ∨ some y = some (2 : Byte)) ↔ x = 2 ∨ y = 2 := by simp
  exact congrArg (fun c => c :: [1, x, 1, y]) (if_congr code rfl rfl)

/-- Settles O60: the findings at receipt, then each output alone, first of two and last of two. -/
theorem outputsAreRestarted : Obligations.OutputsAreRestarted := by
  refine ⟨fun bcast kind body s => ⟨requestOf bcast kind body s, rfl, rfl, heaterFinding_eq s⟩,
    fun q s serving noCharger noHeater => ⟨outputs_refused serving, fun is => ?_, fun is => ?_, fun is => ?_, fun is => ?_⟩,
    fun x q s serving is charger noHeater => ?_, fun y q s serving is noCharger heater => ?_⟩
  · obtain ⟨restarts, charge, clear⟩ := restartCharger_fields q.chargerFound s
    have part := restartCharger_part serving is (.inl rfl) noCharger
    rw [settle_served _ ⟨fun _ => rfl, fun h => absurd h (by decide)⟩, noHeater, outputReply_charger] at part
    exact ⟨_, part, restarts, charge, clear, fun found fault => restartCharger_fault _ _ ⟨found, fault⟩,
      (restartCharger_keeps q.chargerFound s).1⟩
  · have part := restartHeater_part serving is (.inl rfl) noHeater
    rw [settle_served _ ⟨fun h => absurd h (by decide), fun _ => rfl⟩, noCharger, outputReply_heater] at part
    exact ⟨_, part, (restartHeater_keeps q.heaterFound s).1, fun found shut => restartHeater_cond _ _ ⟨found, shut⟩,
      restartHeater_htr q.heaterFound s⟩
  · have part := restartCharger_part serving is (.inr rfl) noCharger
    rw [settle_waits _ fun h => by have := h.2 (by decide); rw [noHeater] at this; cases this] at part
    obtain ⟨htr, bus⟩ := restartCharger_keeps q.chargerFound s
    refine ⟨_, part, ?_, rfl, (restartCharger_fields q.chargerFound s).1, htr⟩
    obtain ⟨-, -, -, reply, -⟩ := serving
    exact (congrArg Bus.reply bus).trans reply
  · have part := restartHeater_part serving is (.inr rfl) noHeater
    rw [settle_waits _ fun h => by have := h.1 (by decide); rw [noCharger] at this; cases this] at part
    obtain ⟨bat, bus⟩ := restartHeater_keeps q.heaterFound s
    refine ⟨_, part, ?_, rfl, bat, restartHeater_htr q.heaterFound s⟩
    obtain ⟨-, -, -, reply, -⟩ := serving
    exact (congrArg Bus.reply bus).trans reply
  · have part := restartHeater_part serving is (.inr rfl) noHeater
    rw [settle_served _ ⟨fun _ => by rw [charger]; rfl, fun _ => rfl⟩, charger, outputReply_both] at part
    refine ⟨_, part, ?_, (restartHeater_keeps q.heaterFound s).1, restartHeater_htr q.heaterFound s⟩
    rw [← charger]
    exact rfl
  · have part := restartCharger_part serving is (.inr rfl) noCharger
    rw [settle_served _ ⟨fun _ => rfl, fun _ => by rw [heater]; rfl⟩, heater, outputReply_both] at part
    obtain ⟨restarts, charge, clear⟩ := restartCharger_fields q.chargerFound s
    refine ⟨_, part, ?_, restarts, (restartCharger_keeps q.chargerFound s).1, charge, clear⟩
    rw [← heater]
    exact rfl

end Sys2Proof.Proofs
end

