-- ==== Sys2Proof/Proofs/RestartReports.lean ====
section
/-! PROOFS. What the blocks of a RESTART report before and after the outbox is emptied (R211, R135): how many alerts each can
place, and the rows of the condition table that they leave. -/
namespace Sys2Proof.Proofs

open Sys2Proof Sys2Proof.Machine Sys2Proof.Laws

/-! ### Few reports, for which there is room -/

/-- A condition that no block of RESTART reports before the error sums are judged. -/
def Unreported (d : CondId) : Prop :=
  d.val = 7 ∨ d.val = 8 ∨ d.val = 9 ∨ d.val = 10 ∨ d.val = 13 ∨ d.val = 14 ∨ d.val = 15

theorem Unreported.ne {c d : CondId} (h : Unreported d)
    (k : c.val ≤ 6 ∨ c.val = 11 ∨ c.val = 12 ∨ c.val = 17) : d ≠ c := fun e => by
  rw [e] at h
  unfold Unreported at h
  omega

/-- The rows of the unreported conditions stand, and where the outbox has room for n alerts more, no more than those have
come in and none is lost. -/
structure Reports (n : Nat) (s t : State) : Prop where
  rows : ∀ d, Unreported d → t.mon.conds[d] = s.mon.conds[d]
  room : s.box.entries.length + n ≤ 12 → t.box.entries.length ≤ s.box.entries.length + n ∧ t.box.drops = s.box.drops

theorem Reports.trans {m n : Nat} {s t u : State} (h : Reports m s t) (k : Reports n t u) : Reports (m + n) s u where
  rows d hd := (k.rows d hd).trans (h.rows d hd)
  room few := by
    obtain ⟨length, drops⟩ := h.room (by omega)
    obtain ⟨length', drops'⟩ := k.room (by omega)
    exact ⟨by omega, drops'.trans drops⟩

theorem Reports.mono {m n : Nat} {s t : State} (h : Reports m s t) (le : m ≤ n) : Reports n s t where
  rows := h.rows
  room few := by
    obtain ⟨length, drops⟩ := h.room (by omega)
    exact ⟨by omega, drops⟩

/-- An operation outside the conditions and the outbox. -/
theorem reports_none {L : List Part} {s t : State} (d : Does L s t) (hm : Part.mon ∉ L) (hb : Part.box ∉ L) : Reports 0 s t where
  rows c _ := by rw [mon_of d hm]
  room _ := by
    rw [box_of d hb]
    exact ⟨Nat.le_refl _, rfl⟩

/-- A change of the outbox that places at most one alert. -/
theorem reports_one {s t : State} (rows : ∀ d, Unreported d → t.mon.conds[d] = s.mon.conds[d])
    (room : s.box.entries.length < 12 → t.box.entries.length ≤ s.box.entries.length + 1 ∧ t.box.drops = s.box.drops) :
    Reports 1 s t := ⟨rows, room⟩

theorem Unreported.ne_sixteen {d : CondId} (h : Unreported d) : d.val ≠ 16 := by
  unfold Unreported at h
  omega

theorem place_reports (a : Alert) (s : State) : Reports 1 s (place a s) :=
  reports_one (fun d hd => place_cond a s d hd.ne_sixteen) fun room => by
    rw [place_room a s room]
    exact ⟨Nat.le_of_eq (length_enter _ _ _), rfl⟩

theorem conditionAlert_reports (c : CondId) (v : Bool) (x : Stamp) (s : State) : Reports 1 s (conditionAlert c v x s) := by
  unfold conditionAlert
  split
  · exact reports_one (fun _ _ => rfl) fun _ => ⟨by simp, rfl⟩
  · exact place_reports _ s

/-- With room in the outbox a report places at most one alert and loses none. -/
theorem statusChange_places (c : CondId) (v : Bool) {s : State} (room : s.box.entries.length < 12) :
    (statusChange c v s).box.entries.length ≤ s.box.entries.length + 1 ∧ (statusChange c v s).box.drops = s.box.drops := by
  by_cases same : s.mon.conds[c].status = v
  · rw [statusChange_same same]
    exact ⟨Nat.le_succ _, rfl⟩
  · rw [statusChange_box same]
    split
    · exact (conditionAlert_reports c v _ s).room room
    · exact ⟨Nat.le_succ _, rfl⟩

theorem statusChange_reports (c : CondId) (v : Bool) (s : State)
    (h : c.val ≤ 6 ∨ c.val = 11 ∨ c.val = 12 ∨ c.val = 17) : Reports 1 s (statusChange c v s) :=
  reports_one (fun d hd => statusChange_other c v s d hd.ne_sixteen (hd.ne h)) (statusChange_places c v)

/-! ### The clock and the events -/

theorem restartClock_reports (s : State) : Reports 3 s (restartClock s) := by
  have clock (u : State) : Reports 3 u (reportClock u) :=
    ((statusChange_reports 0 _ u (by decide)).trans (statusChange_reports 1 _ _ (by decide))).trans
      (statusChange_reports 2 _ _ (by decide))
  obtain ⟨rows, room⟩ := clock { s with clk := { s.clk with
    mismatch := 0, offset := none, label := none, rx := [], labelErrors := 0, unfixed := 0, steps := 0 } }
  exact ⟨rows, room⟩

theorem lostOccurrence_reports (s : State) : Reports 1 s (lostOccurrence s) := by
  have marked : Reports 0 s (lostMarked s) :=
    ⟨fun d hd => (setCond_conds 17 _ s d).trans (if_neg (hd.ne (by decide)).symm), fun _ => ⟨Nat.le_refl _, rfl⟩⟩
  exact marked.trans (statusChange_reports 17 true _ (by decide))

theorem fileRecord_reports (r : EvRecord) (s : State) : Reports 1 s (fileRecord r s) := by
  have filed (u : State) : Reports 0 u (eventWakeEval { u with evt := { u.evt with list := u.evt.list ++ [r] } }) :=
    ⟨fun _ _ => rfl, fun _ => ⟨Nat.le_refl _, rfl⟩⟩
  unfold fileRecord
  dsimp only
  split
  · exact (filed s).mono (Nat.zero_le _)
  · obtain ⟨rows, room⟩ := lostOccurrence_reports
      { s with evt := { s.evt with list := s.evt.list.drop 1, lost := inc16 s.evt.lost } }
    exact Reports.trans (s := s) (m := 1) ⟨rows, room⟩ (filed _)

theorem closeAlert_reports (r : EvRecord) (s : State) : Reports 1 s (closeAlert r s) := by
  unfold closeAlert
  split
  · split
    · exact reports_one (fun _ _ => rfl) fun _ => ⟨by simp, rfl⟩
    · exact place_reports _ s
  · exact reports_one (fun _ _ => rfl) fun _ => ⟨Nat.le_succ _, rfl⟩

theorem signalClose_reports (r : EvRecord) (s : State) : Reports 1 s (signalClose r s) := by
  obtain ⟨rows, room⟩ := closeAlert_reports r s
  exact ⟨rows, room⟩

theorem closeBetweenVotes_reports (f : EvFlags → EvFlags) (s : State) : Reports 2 s (closeBetweenVotes f s) := by
  have stays (x : Events) : Reports 2 s { s with evt := x } := ⟨fun _ _ => rfl, fun _ => ⟨Nat.le_add_right _ _, rfl⟩⟩
  unfold closeBetweenVotes
  split
  · cases record : s.evt.record with
    | none =>
      unfold closeRecord
      rw [record]
      exact stays _
    | some r =>
      rw [closeRecord_eq record]
      have unfiled (x : Events) : Reports 0 s { s with evt := x } := ⟨fun _ _ => rfl, fun _ => ⟨Nat.le_refl _, rfl⟩⟩
      exact ((unfiled _).trans (fileRecord_reports _ _)).trans (signalClose_reports _ _)
  · exact stays _

theorem restartEvents_reports (s : State) : Reports 2 s (restartEvents s) := by
  obtain ⟨rows, room⟩ := closeBetweenVotes_reports (fun f => { f with aborted := true }) s
  exact ⟨rows, room⟩

theorem restartEvents_quiet (s : State) : (restartEvents s).evt.notes = [] := by
  rw [restartEvents_evt]

/-! ### The ports, no strobe being noted -/

theorem reportPort_reports (p : PortId) (s : State) : Reports 2 s (reportPort p s) := by
  have low (a b : CondId) (ha : a.val ≤ 6) (hb : b.val ≤ 6) : (if p = 0 then a else b).val ≤ 6 := by split <;> assumption
  exact (statusChange_reports _ _ s (.inl (low 3 4 (by decide) (by decide)))).trans
    (statusChange_reports _ _ _ (.inl (low 5 6 (by decide) (by decide))))

theorem stopLink_reports (p : PortId) (s : State) : Reports 2 s (stopLink p s) := by
  unfold stopLink linkChanged
  have set := reports_none (setPort_does p { s.prt[p] with
    link := .off, window := none, transfer := none, startAt := 0, badRun := 0, goodRun := 0, alarm := false } s)
    (by decide) (by decide)
  have reported := set.trans (reportPort_reports p _)
  exact reported.trans (reports_none (refreshPort_does p _) (by decide) (by decide))

theorem writeSlot_silent (c : Chan) (k : Nat) (x : Slot) {s : State} (quiet : s.evt.notes = []) :
    Does [.rings, .chn, .moment] s (writeSlot c k x s) ∧ ∀ d : Chan, (writeSlot c k x s).chn[d].det = s.chn[d].det := by
  have unnoted (r : Report) (u : State) (h : u.evt.notes = []) : gatherReport r u = u :=
    gatherReport_unnoted fun n noted => by
      rw [h] at noted
      cases noted
  unfold writeSlot triggerStrobe
  dsimp only
  rw [unnoted]
  rotate_left
  · exact quiet
  refine ⟨?_, fun d => ?_⟩
  · have ring := putRing_does c (s.rings[c].write k x) s fun wf => write_wf _ _ _ wf
    exact ((ring.mono (by decide)).trans ((Does.moment _ _).mono (by decide))).trans ((setChan_does c _ _).mono (by decide))
  · rw [setChan_chan]
    split
    next same =>
      subst same
      exact strobe_det _ _
    next => exact rfl

theorem closeStopped_silent (p : PortId) (old : Port) {s : State} (quiet : s.evt.notes = []) :
    Does [.rings, .chn, .moment] s (closeStopped p old s) ∧ ∀ d : Chan, (closeStopped p old s).chn[d].det = s.chn[d].det := by
  have fold (k : Nat) (l : List Chan) (u : State) (h : u.evt.notes = []) :
      Does [.rings, .chn, .moment] u (l.foldl (fun (s : State) (c : Chan) => if s.sourcePort c = some p then writeGap c k s else s) u)
      ∧ ∀ d : Chan, (l.foldl (fun (s : State) (c : Chan) => if s.sourcePort c = some p then writeGap c k s else s) u).chn[d].det = u.chn[d].det := by
    induction l generalizing u with
    | nil => exact ⟨Does.refl _ u, fun _ => rfl⟩
    | cons c r ih =>
      have one : Does [.rings, .chn, .moment] u (if u.sourcePort c = some p then writeGap c k u else u)
          ∧ ∀ d : Chan, (if u.sourcePort c = some p then writeGap c k u else u).chn[d].det = u.chn[d].det := by
        split
        · exact writeSlot_silent c k _ h
        · exact ⟨Does.refl _ u, fun _ => rfl⟩
      obtain ⟨does, det⟩ := one
      obtain ⟨rest, dets⟩ := ih _ ((congrArg Events.notes (evt_of does (by decide))).trans h)
      exact ⟨does.trans rest, fun d => (dets d).trans (det d)⟩
  unfold closeStopped
  split
  · split
    · exact ⟨Does.refl _ s, fun _ => rfl⟩
    · exact fold _ _ s quiet
  · exact ⟨Does.refl _ s, fun _ => rfl⟩

theorem stopLink_det (p : PortId) (s : State) (c : Chan) : (stopLink p s).chn[c].det = s.chn[c].det := by
  have before (x : Port) : (reportPort p (setPort p x s)).chn = s.chn :=
    (chn_of (reportPort_does p _) (by decide)).trans (chn_of (setPort_does p x s) (by decide))
  unfold stopLink linkChanged
  rw [refreshPort_chan, before]
  split
  · exact (refreshed_cases _ _).1
  · rfl

/-- A port that RESTART switches off. -/
theorem restartPort_off (p : PortId) {s : State} (quiet : s.evt.notes = []) : Reports 2 s (restartPort p s)
    ∧ (restartPort p s).evt.notes = [] ∧ (∀ c : Chan, (restartPort p s).chn[c].det = s.chn[c].det)
    ∧ (restartPort p s).prt[p].link = .off ∧ ∀ q, p ≠ q → (restartPort p s).prt[q] = s.prt[q] := by
  by_cases off : s.prt[p].link = .off
  · have same : restartPort p s = s := if_pos off
    rw [same]
    exact ⟨⟨fun _ _ => rfl, fun _ => ⟨Nat.le_add_right _ _, rfl⟩⟩, quiet, fun _ => rfl, off, fun _ _ => rfl⟩
  · have stopped : restartPort p s = closeStopped p s.prt[p] (stopLink p s) := if_neg off
    rw [stopped]
    have quiet' : (stopLink p s).evt.notes = [] := (stopLink_event p s).1.trans quiet
    obtain ⟨does, det⟩ := closeStopped_silent p s.prt[p] quiet'
    have port (q : PortId) := stopLink_port p q s
    refine ⟨(stopLink_reports p s).trans (reports_none does (by decide) (by decide)), ?_, ?_, ?_, fun q other => ?_⟩
    · exact (congrArg Events.notes (evt_of does (by decide))).trans quiet'
    · exact fun c => (det c).trans (stopLink_det p s c)
    · rw [closeStopped_prt, port, if_pos rfl]
    · rw [closeStopped_prt, port, if_neg other]

/-! ### The charger -/

theorem restartPower_reports (s : State) : Reports 2 s (restartPower s) := by
  have charge (u : State) : Reports 2 u (reportCharge u) :=
    (statusChange_reports 11 _ u (by decide)).trans (statusChange_reports 12 _ _ (by decide))
  have off (c : Charge) (u : State) : Reports 2 u (reportCharge (chargeOff c u)) :=
    (reports_none (chargeOff_does c u) (by decide) (by decide)).trans (charge _)
  have tested (u : State) : Reports 2 u (chargeTempTest u) := by
    unfold chargeTempTest
    split
    · split
      · exact off _ u
      · split
        · exact off _ u
        · exact ⟨fun _ _ => rfl, fun _ => ⟨Nat.le_add_right _ _, rfl⟩⟩
    · exact ⟨fun _ _ => rfl, fun _ => ⟨Nat.le_add_right _ _, rfl⟩⟩
  have clamped := reports_none (clampCharge_does s) (by decide) (by decide)
  have judged (u : State) := reports_none (judgeBudget_does u) (by decide) (by decide)
  have limited (u : State) := reports_none (relimit_does u) (by decide) (by decide)
  have followed (u : State) := reports_none (heaterFollow_does u) (by decide) (by decide)
  exact (((clamped.trans (tested _)).trans (judged _)).trans (limited _)).trans (followed _)

/-! ### The alerts that come in after the outbox is emptied -/

/-- An entry of a condition that RESTART can report after it has emptied the outbox. -/
def LateAlert (set : Nat) (a : Alert) : Prop :=
  a.kind = .condition ∧ a.inFlight = false ∧ a.attempts = 0 ∧ ∃ c : CondId, a.origin = c.val
    ∧ (c.val = 7 ∨ c.val = 8 ∨ c.val = 11 ∨ c.val = 12) ∧ inSet set c = true

/-- The outbox holds nothing but late alerts, and at most n of them. -/
structure LateOnly (n : Nat) (s : State) : Prop where
  late : ∀ a ∈ s.box.entries, LateAlert s.alertSet a
  few : s.box.entries.length ≤ n

theorem LateOnly.of_does {n : Nat} {L : List Part} {s t : State} (h : LateOnly n s) (d : Does L s t) (hb : Part.box ∉ L)
    (hp : Part.params ∉ L) : LateOnly n t := by
  obtain ⟨late, few⟩ := h
  have set : t.alertSet = s.alertSet := congrArg Int.toNat (param_of_params (params_of d hp) 111)
  refine ⟨?_, ?_⟩
  · rw [box_of d hb, set]
    exact late
  · rw [box_of d hb]
    exact few

theorem conditionAlert_late (c : CondId) (v : Bool) (x : Stamp) {s : State} (room : s.box.entries.length < 12)
    (reported : c.val = 7 ∨ c.val = 8 ∨ c.val = 11 ∨ c.val = 12) {set : Nat} (held : inSet set c = true)
    (late : ∀ a ∈ s.box.entries, LateAlert set a) : ∀ a ∈ (conditionAlert c v x s).box.entries, LateAlert set a := by
  have merged (a : Alert) (h : LateAlert set a) : LateAlert set (a.coalesce v x) := by
    unfold Alert.coalesce
    split <;> exact h
  unfold conditionAlert
  split
  · intro a mem
    obtain ⟨b, old, rfl⟩ := List.mem_map.mp mem
    split
    · exact merged b (late b old)
    · exact late b old
  · rw [place_room _ s room]
    intro a mem
    rcases List.mem_cons.mp ((sortAlerts_perm _ _).mem_iff.mp mem) with rfl | old
    · exact ⟨rfl, rfl, rfl, c, rfl, reported, held⟩
    · exact late a old

theorem statusChange_late {n : Nat} (c : CondId) (v : Bool) {s : State} (room : n < 12)
    (reported : c.val = 7 ∨ c.val = 8 ∨ c.val = 11 ∨ c.val = 12) (h : LateOnly n s) : LateOnly (n + 1) (statusChange c v s) := by
  obtain ⟨late, few⟩ := h
  have full : s.box.entries.length < 12 := by omega
  have length := (statusChange_places c v full).1
  have set : (statusChange c v s).alertSet = s.alertSet :=
    congrArg Int.toNat (param_of_params (params_of (statusChange_does c v s) (by decide)) 111)
  refine ⟨?_, by omega⟩
  rw [set]
  by_cases same : s.mon.conds[c].status = v
  · rw [statusChange_same same]
    exact late
  · rw [statusChange_box same]
    split
    next held => exact conditionAlert_late c v _ full reported held late
    next => exact late

theorem restartPower_late {s : State} (empty : s.box.entries = []) : LateOnly 2 (restartPower s) := by
  unfold restartPower
  have none (a : Alert) : a ∉ s.box.entries := by simp [empty]
  have start : LateOnly 0 s := ⟨fun a mem => absurd mem (none a), by simp [empty]⟩
  have clamped : LateOnly 0 (clampCharge s) := start.of_does (clampCharge_does s) (by decide) (by decide)
  generalize clampCharge s = u at *
  have more {n : Nat} {v : State} (le : n ≤ 2) (h : LateOnly n v) : LateOnly 2 v := ⟨h.late, h.few.trans le⟩
  have off (c : Charge) : LateOnly 2 (reportCharge (chargeOff c u)) := by
    have put : LateOnly 0 (chargeOff c u) := clamped.of_does (chargeOff_does c u) (by decide) (by decide)
    unfold reportCharge
    exact statusChange_late 12 _ (by decide) (by decide) (statusChange_late 11 _ (by decide) (by decide) put)
  have tested : LateOnly 2 (chargeTempTest u) := by
    unfold chargeTempTest
    split
    · split
      · exact off _
      · split
        · exact off _
        · exact more (Nat.zero_le _) clamped
    · exact more (Nat.zero_le _) clamped
  have judged := tested.of_does (judgeBudget_does _) (by decide) (by decide)
  have limited := judged.of_does (relimit_does _) (by decide) (by decide)
  exact limited.of_does (heaterFollow_does _) (by decide) (by decide)

end Sys2Proof.Proofs
end

