-- ==== Sys2Proof/Proofs/RestartBlocks.lean ====
section
/-! PROOFS. What the later blocks of a RESTART leave (R211): the channels with their counts cleared, the scheduler without
calibrations, the modem off and the outbox empty, and the conditions with their marks cleared and the error sums judged. -/
namespace Sys2Proof.Proofs

open Sys2Proof Sys2Proof.Machine Sys2Proof.Laws

/-! ### The channels -/

/-- Every channel keeps its settings and its count of triggers. -/
def KeepsTuning (s t : State) : Prop := ∀ c : Chan, t.chn[c].det = s.chn[c].det ∧ t.chn[c].count = s.chn[c].count

theorem KeepsTuning.of_does {L : List Part} {s t : State} (d : Does L s t) (h : Part.chn ∉ L) : KeepsTuning s t := fun c => by
  rw [chn_of d h]
  exact ⟨rfl, rfl⟩

theorem KeepsTuning.trans {s t u : State} (h : KeepsTuning s t) (k : KeepsTuning t u) : KeepsTuning s u := fun c =>
  ⟨(k c).1.trans (h c).1, (k c).2.trans (h c).2⟩

theorem KeepsTuning.refl (s : State) : KeepsTuning s s := fun _ => ⟨rfl, rfl⟩

theorem KeepsTuning.fold (f : State → Chan → State) (h : ∀ s c, KeepsTuning s (f s c)) (l : List Chan) (s : State) :
    KeepsTuning s (l.foldl f s) := by
  induction l generalizing s with
  | nil => exact .refl s
  | cons c r ih => exact (h s c).trans (ih _)

theorem setChan_tuning {c : Chan} {x : Channel} {s : State} (det : x.det = s.chn[c].det) (count : x.count = s.chn[c].count) :
    KeepsTuning s (setChan c x s) := fun d => by
  rw [setChan_chan]
  split
  next same =>
    subst same
    exact ⟨det, count⟩
  next => exact ⟨rfl, rfl⟩

theorem setSignal_tuning {c : Chan} {x : Channel} {s : State} (det : x.det = s.chn[c].det)
    (count : x.count = s.chn[c].count) : KeepsTuning s (signalState c (setChan c x s)) :=
  (setChan_tuning det count).trans (.of_does (signalState_does c _) (by decide))

theorem restartChan_tuning (c : Chan) (s : State) : KeepsTuning s (restartChan c s) := setSignal_tuning rfl rfl

theorem suppress_tuning (x : Channel) : x.suppress.det = x.det ∧ x.suppress.count = x.count := by
  unfold Channel.suppress
  split <;> exact ⟨rfl, rfl⟩

theorem resuppressChan_tuning (c : Chan) (s : State) : KeepsTuning s (resuppressChan c s) := by
  have off : KeepsTuning s (suppressOff c s) := by
    have put : KeepsTuning s (setChan c { s.chn[c] with supp := false } s) := setChan_tuning rfl rfl
    have warm : KeepsTuning s (signalState c (setChan c { s.chn[c] with
        supp := false, sta := s.chn[c].lta, state := .quiet, frozen := false, released := false } s)) :=
      setSignal_tuning rfl rfl
    unfold suppressOff
    dsimp only
    split
    · split
      · exact warm
      · exact put.trans (restartChan_tuning c _)
    · exact put
  unfold resuppressChan
  split
  · split
    · exact .refl s
    · obtain ⟨det, count⟩ := suppress_tuning s.chn[c]
      exact setSignal_tuning det count
  · split
    · exact off
    · exact .refl s

theorem resuppress_tuning (s : State) : KeepsTuning s (resuppress s) :=
  KeepsTuning.fold (fun s c => resuppressChan c s) (fun s c => resuppressChan_tuning c s) allChans s

theorem restartAll_tuning (s : State) : KeepsTuning s (restartAll s) :=
  KeepsTuning.fold (fun s c => restartChan c s) (fun s c => restartChan_tuning c s) allChans s

/-- R86: the settings stand and the counts are cleared. -/
theorem restartTrigger_chan (s : State) (c : Chan) :
    (restartTrigger s).chn[c].det = s.chn[c].det ∧ (restartTrigger s).chn[c].count = 0 := by
  let cleared : State := { s with chn := s.chn.map fun ch => { ch with count := 0 } }
  have row : cleared.chn[c] = { s.chn[c] with count := 0 } := Vector.getElem_map _ _
  obtain ⟨det, count⟩ := ((restartAll_tuning cleared).trans (resuppress_tuning _)) c
  rw [row] at det count
  exact ⟨det, count⟩

/-! ### The scheduler and the rings -/

/-- R44: no calibration is left, and the strobe numbers go on. -/
theorem restartScheduler_left (s : State) : (restartScheduler s).sch.cals = [] ∧ (restartScheduler s).sch.next = s.sch.next
    ∧ ∀ c : Chan, (restartScheduler s).chn[c].det = s.chn[c].det := by
  have ended (c : Cal) : KeepsTuning s (leaveRunning c .cancelled s) := by
    unfold leaveRunning endWindow
    dsimp only
    refine KeepsTuning.trans ?_ (resuppress_tuning _)
    exact fun _ => ⟨rfl, rfl⟩
  unfold restartScheduler
  cases s.runningCal with
  | none => exact ⟨rfl, rfl, fun _ => rfl⟩
  | some c =>
    have next : (leaveRunning c .cancelled s).sch.next = s.sch.next := by rw [leaveRunning_sch]
    have det (d : Chan) : (leaveRunning c .cancelled s).chn[d].det = s.chn[d].det := (ended c d).1
    clear ended
    dsimp only
    generalize leaveRunning c .cancelled s = w at *
    exact ⟨rfl, next, det⟩

theorem restartRings_left (m : ChanMap) (s : State) : (restartRings m s).map = m ∧ (restartRings m s).pendingMap = none
    ∧ ∀ c : Chan, (restartRings m s).rings[c].newest = none :=
  ⟨rfl, rfl, fun c => congrArg Ring.newest (clearRings_ring s c)⟩

/-! ### The clock, the marks, the outbox -/

theorem restartClock_left (s : State) : (restartClock s).clk.steps = 0 ∧ (restartClock s).clk.label = none := by
  have reported (u : State) : (reportClock u).clk = u.clk := clk_of (reportClock_does u) (by decide)
  unfold restartClock
  rw [reported]
  exact ⟨rfl, rfl⟩

theorem restartMarks_left (s : State) : (restartMarks s).mrk.marks = [] ∧ (restartMarks s).mrk.seqA = 0
    ∧ (restartMarks s).mrk.seqB = 0 := ⟨rfl, rfl, rfl⟩

/-- R135. -/
theorem outboxRestart_eq (s : State) : outboxRestart s = { s with
    mdm := { s.mdm with link := .off, since := s.osc, limit := 0, rx := [], div := s.modemDivisor, fails := 0 }
    box := { s.box with entries := [], credits := min s.box.credits s.creditCap } } := rfl

/-! ### The conditions -/

/-- The conditions with their pending marks cleared, and the figures at zero. -/
def marksCleared (s : State) : State :=
  { s with mon := { s.mon with conds := s.mon.conds.map fun k => { k with pending := false }, figs := {} } }

theorem marksCleared_row (s : State) (c : CondId) : (marksCleared s).mon.conds[c] = { s.mon.conds[c] with pending := false } :=
  Vector.getElem_map _ _

/-- The error sums judged on figures at zero. -/
def errorsJudged (s : State) : State := statusChange 8 false (statusChange 7 false (marksCleared s))

theorem errorsJudged_does (s : State) : Does [.box, .mon] (marksCleared s) (errorsJudged s) :=
  (statusChange_does 7 false _).trans (statusChange_does 8 false _)

theorem restartMonitor_eq (old : Nat) (s : State) :
    restartMonitor old s = Machine.newInterval old (wakeEval (degradedEval (errorsJudged s))) := by
  have zero : judgeErrors 0 (marksCleared s) = statusChange 7 false (marksCleared s) := judgeErrors_zero rfl
  have figs : (statusChange 7 false (marksCleared s)).mon.figs.ports[(1 : PortId)] = {} := by
    rw [statusChange_figs]
    rfl
  have one : judgeErrors 1 (statusChange 7 false (marksCleared s)) = errorsJudged s := judgeErrors_zero figs
  rw [← one, ← zero]
  exact rfl

theorem newInterval_left (old : Nat) (s : State) : (Machine.newInterval old s).mon.conds = s.mon.conds
    ∧ (Machine.newInterval old s).mon.figs = s.mon.figs ∧ (Machine.newInterval old s).mon.report = s.mon.report
    ∧ (Machine.newInterval old s).mon.start = s.mon.start ∧ (Machine.newInterval old s).box = s.box
    ∧ (Machine.newInterval old s).mon.number = if s.intervalLen = old then s.mon.number else s.clk.s / s.intervalLen := by
  unfold Machine.newInterval
  split <;> exact ⟨rfl, rfl, rfl, rfl, rfl, rfl⟩

/-- The monitor's rows, figures and interval after its restart, those of the judged error sums apart from the number. -/
theorem restartMonitor_left (old : Nat) (s : State) : (restartMonitor old s).mon.conds = (errorsJudged s).mon.conds
    ∧ (restartMonitor old s).mon.figs = (errorsJudged s).mon.figs ∧ (restartMonitor old s).box = (errorsJudged s).box
    ∧ (restartMonitor old s).mon.report = s.mon.report ∧ (restartMonitor old s).mon.start = s.mon.start
    ∧ (restartMonitor old s).mon.number = if s.intervalLen = old then s.mon.number else s.clk.s / s.intervalLen := by
  have does := errorsJudged_does s
  obtain ⟨report, number, start⟩ : (errorsJudged s).mon.report = s.mon.report ∧ (errorsJudged s).mon.number = s.mon.number
      ∧ (errorsJudged s).mon.start = s.mon.start := does.frame .interval (by decide)
  have clk : (errorsJudged s).clk = s.clk := (clk_of does (by decide) : (errorsJudged s).clk = (marksCleared s).clk)
  have params : (errorsJudged s).params = s.params :=
    (params_of does (by decide) : (errorsJudged s).params = (marksCleared s).params)
  have length : (errorsJudged s).intervalLen = s.intervalLen := congrArg Int.toNat (param_of_params params 113)
  rw [restartMonitor_eq]
  clear does
  generalize errorsJudged s = w at *
  obtain ⟨conds, figs, report', start', box, number'⟩ := newInterval_left old (wakeEval (degradedEval w))
  have number' : (Machine.newInterval old (wakeEval (degradedEval w))).mon.number =
      if w.intervalLen = old then w.mon.number else w.clk.s / w.intervalLen := number'
  rw [length, number, clk] at number'
  exact ⟨conds, figs, box, report'.trans report, start'.trans start, number'⟩

/-- What a row shows after the judging: the marks are gone but where an error condition has just cleared (log 10). -/
structure RowsJudged (s t : State) : Prop where
  seven : Cleared { s.mon.conds[(7 : CondId)] with pending := false } t.mon.conds[(7 : CondId)]
    (t.mon.conds[(3 : CondId)].status = false)
  eight : Cleared { s.mon.conds[(8 : CondId)] with pending := false } t.mon.conds[(8 : CondId)]
    (t.mon.conds[(4 : CondId)].status = false)
  rest : ∀ d : CondId, d ≠ 7 → d ≠ 8 → t.mon.conds[d] = { s.mon.conds[d] with pending := false }

/-- With room for two alerts the error sums are judged and none is lost. -/
theorem errorsJudged_room {s : State} (late : LateOnly 2 s) : RowsJudged s (errorsJudged s)
    ∧ (errorsJudged s).mon.figs = {} ∧ LateOnly 4 (errorsJudged s) ∧ (errorsJudged s).box.drops = s.box.drops := by
  have few : (marksCleared s).box.entries.length ≤ 2 := late.few
  have late1 : LateOnly 2 (marksCleared s) := ⟨late.late, late.few⟩
  have late2 := statusChange_late 7 false (by decide) (by decide) late1
  have late3 := statusChange_late 8 false (by decide) (by decide) late2
  obtain ⟨figs7, rows7, row7, room7⟩ := statusChange_room (k := 1) 7 (s := marksCleared s) (.inl (by omega))
  obtain ⟨figs8, rows8, row8, -⟩ := statusChange_room (k := 0) 8 (s := statusChange 7 false (marksCleared s)) room7
  have drops7 := (statusChange_places 7 false (s := marksCleared s) (by omega)).2
  have drops8 := (statusChange_places 8 false (s := statusChange 7 false (marksCleared s)) (late2.few.trans_lt (by decide))).2
  have row7 := row7.congr (marks_seven _)
  have row8 := row8.congr (marks_eight _)
  rw [rows7 8 (by decide), rows7 4 (by decide)] at row8
  have other (d : CondId) (h7 : d ≠ 7) (h8 : d ≠ 8) : (errorsJudged s).mon.conds[d] = (marksCleared s).mon.conds[d] :=
    (rows8 d h8).trans (rows7 d h7)
  refine ⟨⟨?_, ?_, fun d h7 h8 => (other d h7 h8).trans (marksCleared_row s d)⟩, figs8.trans figs7, late3, drops8.trans drops7⟩
  · rw [other 3 (by decide) (by decide), ← marksCleared_row]
    have kept : (errorsJudged s).mon.conds[(7 : CondId)] = _ := rows8 7 (by decide)
    rw [kept]
    exact row7
  · rw [other 4 (by decide) (by decide), ← marksCleared_row]
    exact row8

end Sys2Proof.Proofs
end

