-- ==== Sys2Proof/Proofs/SettingsSaved.lean ====
section
/-! PROOFS. SETTINGS_SAVE and RESTART (R208, R209, R211): the part followed through the blocks of a RESTART, from the load to the
judged error sums; from these the settling of O59. -/
namespace Sys2Proof.Proofs

open Sys2Proof Sys2Proof.Machine Sys2Proof.Laws

/-! ### The part between the blocks of a RESTART -/

/-- The restart counted, and a new moment begun. -/
def restartCounted (t : State) : State :=
  { t with bus := { t.bus with restarts := inc16 t.bus.restarts }, moment := {} }

theorem restartCounted_does (t : State) : Does [.bus, .moment] t (restartCounted t) :=
  ((Does.bus t { t.bus with restarts := inc16 t.bus.restarts }).mono (by decide)).trans ((Does.moment _ {}).mono (by decide))

theorem restartCounted_restarts (t : State) : (restartCounted t).bus.restarts = inc16 t.bus.restarts := rfl

section Views
variable {L : List Part} {s t : State} (d : Does L s t)
include d

theorem credits_of (h : Part.credits ∉ L) : t.box.credits = s.box.credits ∧ t.box.note = s.box.note ∧ t.box.sent = s.box.sent :=
  d.frame .credits h

theorem interval_of (h : Part.interval ∉ L) :
    t.mon.report = s.mon.report ∧ t.mon.number = s.mon.number ∧ t.mon.start = s.mon.start := d.frame .interval h

theorem second_of (h : Part.time ∉ L) : t.clk.s = s.clk.s := (d.frame .time h).1

theorem next_of (h : Part.strobes ∉ L) : t.sch.next = s.sch.next := (d.frame .strobes h).1

end Views

/-- What the load leaves alone. -/
theorem restartLoad_keeps (ld : Loaded) (s : State) : (restartLoad ld s).mdm = s.mdm ∧ (restartLoad ld s).box = s.box
    ∧ (restartLoad ld s).mon = s.mon ∧ (restartLoad ld s).bus = s.bus ∧ (restartLoad ld s).clk = s.clk
    ∧ (restartLoad ld s).sch = s.sch ∧ (restartLoad ld s).store.slots = s.store.slots := ⟨rfl, rfl, rfl, rfl, rfl, rfl, rfl⟩

/-- R135: what the emptied outbox and the modem keep. -/
theorem outboxRestart_left (s : State) : (outboxRestart s).mdm.link = .off ∧ (outboxRestart s).mdm.fails = 0
    ∧ (outboxRestart s).mdm.tag = s.mdm.tag ∧ (outboxRestart s).mdm.fault = s.mdm.fault ∧ (outboxRestart s).mdm.bad = s.mdm.bad
    ∧ (outboxRestart s).mdm.unexpected = s.mdm.unexpected ∧ (outboxRestart s).mdm.startTimeouts = s.mdm.startTimeouts
    ∧ (outboxRestart s).box.entries = [] ∧ (outboxRestart s).box.drops = s.box.drops
    ∧ (outboxRestart s).box.credits = min s.box.credits s.creditCap ∧ (outboxRestart s).box.note = s.box.note
    ∧ (outboxRestart s).box.sent = s.box.sent := ⟨rfl, rfl, rfl, rfl, rfl, rfl, rfl, rfl, rfl, rfl, rfl, rfl⟩

section Stages
variable (s : State)

/-- The settings loaded, the clock, the marks and the events restarted. -/
def eventsRestarted : State := restartEvents (restartMarks (restartClock (restartLoad s.store.load s)))

/-- Both ports off. -/
def portsStopped : State := restartPort 1 (restartPort 0 (eventsRestarted s))

/-- The scheduler, the rings and the channels restarted. -/
def channelsRestarted : State := restartTrigger (restartRings s.store.load.map (restartScheduler (portsStopped s)))

/-- The supplies evaluated. -/
def portsRestarted : State := evalSupplies (channelsRestarted s)

/-- The outbox emptied and the charger and the heater following the reloaded settings. -/
def powerRestarted : State := restartPower (outboxRestart (portsRestarted s))

/-- The conditions restarted. -/
def conditionsRestarted : State := restartMonitor s.intervalLen (powerRestarted s)

theorem restartWork_eq : restartWork s = restartCounted (conditionsRestarted s) := rfl

/-! ### What each stage can change -/

theorem eventsRestarted_does : Does [.clk, .supplyView, .box, .mon, .mrk, .evt, .event, .htr, .bat, .sch, .moment]
    (restartLoad s.store.load s) (eventsRestarted s) := by
  have clock := restartClock_does (restartLoad s.store.load s)
  have marks := restartMarks_does (restartClock (restartLoad s.store.load s))
  exact (clock.after marks (by decide) (by decide)).after (restartEvents_does _) (fun _ h => h) (by decide)

theorem portsStopped_does : Does portParts (eventsRestarted s) (portsStopped s) :=
  (restartPort_does 0 _).trans (restartPort_does 1 _)

theorem portsStopped_off : Reports 4 (eventsRestarted s) (portsStopped s)
    ∧ (∀ c : Chan, (portsStopped s).chn[c].det = s.store.load.dets[c])
    ∧ (portsStopped s).prt[(0 : PortId)].link = .off ∧ (portsStopped s).prt[(1 : PortId)].link = .off := by
  have quiet : (eventsRestarted s).evt.notes = [] := restartEvents_quiet _
  have loaded (c : Chan) : (eventsRestarted s).chn[c].det = s.store.load.dets[c] := by
    rw [chn_of (eventsRestarted_does s) (by decide)]
    exact congrArg Channel.det (Vector.getElem_ofFn _)
  unfold portsStopped
  generalize eventsRestarted s = u at *
  obtain ⟨reports0, quiet0, det0, off0, -⟩ := restartPort_off 0 quiet
  generalize restartPort 0 u = v at *
  obtain ⟨reports1, -, det1, off1, keeps1⟩ := restartPort_off 1 quiet0
  refine ⟨reports0.trans reports1, fun c => (det1 c).trans ((det0 c).trans (loaded c)), ?_, off1⟩
  rw [keeps1 0 (by decide)]
  exact off0

theorem channelsRestarted_does : Does [.sch, .strobes, .chn, .evt, .rings, .map, .pendingMap]
    (portsStopped s) (channelsRestarted s) := by
  have scheduler := restartScheduler_does (portsStopped s)
  have rings := restartRings_does s.store.load.map (restartScheduler (portsStopped s))
  exact (scheduler.after rings (by decide) (by decide)).after (restartTrigger_does _) (fun _ h => h) (by decide)

theorem portsRestarted_does : Does [.prt] (channelsRestarted s) (portsRestarted s) := by
  obtain ⟨-, -, off0, off1⟩ := portsStopped_off s
  have prt : (channelsRestarted s).prt = (portsStopped s).prt := prt_of (channelsRestarted_does s) (by decide)
  refine evalSupplies_start _ ?_ ?_
  · rw [prt]
    exact off0
  · rw [prt]
    exact off1

/-- From the load to the emptying of the outbox. -/
theorem portsRestarted_all : Does [.clk, .supplyView, .box, .mon, .mrk, .evt, .event, .htr, .bat, .sch, .strobes, .moment, .chn,
    .rings, .prt, .map, .pendingMap] (restartLoad s.store.load s) (portsRestarted s) :=
  (((eventsRestarted_does s).after (portsStopped_does s) (by decide) (by decide)).after (channelsRestarted_does s)
    (fun _ h => h) (by decide)).after (portsRestarted_does s) (fun _ h => h) (by decide)

theorem powerRestarted_does : Does [.bat, .box, .mon, .htr] (outboxRestart (portsRestarted s)) (powerRestarted s) :=
  restartPower_does _

theorem conditionsRestarted_does : Does [.mon, .interval, .box] (powerRestarted s) (conditionsRestarted s) :=
  restartMonitor_does _ _

/-- From the emptying of the outbox to the end. -/
theorem restartWork_late : Does [.mdm, .box, .credits, .flight, .bat, .mon, .htr, .interval, .bus, .moment]
    (portsRestarted s) (restartWork s) :=
  (((outboxRestart_does (portsRestarted s)).after (powerRestarted_does s) (by decide) (by decide)).after
    (conditionsRestarted_does s) (fun _ h => h) (by decide)).after (restartCounted_does _) (fun _ h => h) (by decide)

/-! ### The settings, the clock and the strobes -/

theorem restartWork_settings : (restartWork s).map = s.store.load.map ∧ (restartWork s).pendingMap = none
    ∧ ∀ c : Chan, (restartWork s).chn[c].det = s.store.load.dets[c] ∧ (restartWork s).rings[c].newest = none
      ∧ (restartWork s).chn[c].count = 0 := by
  have late := restartWork_late s
  have supplied := portsRestarted_does s
  rw [map_of late (by decide), pendingMap_of late (by decide), chn_of late (by decide), rings_of late (by decide),
    map_of supplied (by decide), pendingMap_of supplied (by decide), chn_of supplied (by decide), rings_of supplied (by decide)]
  clear late supplied
  obtain ⟨-, det, -⟩ := portsStopped_off s
  unfold channelsRestarted
  generalize portsStopped s = u at *
  obtain ⟨-, -, kept⟩ := restartScheduler_left u
  generalize restartScheduler u = v at *
  have rings := restartRings_does s.store.load.map v
  obtain ⟨map, pendingMap, newest⟩ := restartRings_left s.store.load.map v
  have chn := chn_of rings (by decide)
  clear rings
  generalize restartRings s.store.load.map v = w at *
  have does := restartTrigger_does w
  rw [map_of does (by decide), pendingMap_of does (by decide), rings_of does (by decide)]
  refine ⟨map, pendingMap, fun c => ⟨?_, newest c, (restartTrigger_chan w c).2⟩⟩
  rw [(restartTrigger_chan w c).1, chn, kept c, det c]

theorem restartWork_clock : (restartWork s).clk.steps = 0 ∧ (restartWork s).clk.label = none
    ∧ (restartWork s).mrk.marks = [] ∧ (restartWork s).mrk.seqA = 0 ∧ (restartWork s).mrk.seqB = 0 := by
  have late := restartWork_late s
  have supplied := portsRestarted_does s
  have channels := channelsRestarted_does s
  have stopped := portsStopped_does s
  have events := restartEvents_does (restartMarks (restartClock (restartLoad s.store.load s)))
  have marks := restartMarks_does (restartClock (restartLoad s.store.load s))
  have clk : (eventsRestarted s).clk = (restartClock (restartLoad s.store.load s)).clk :=
    (clk_of events (by decide)).trans (clk_of marks (by decide))
  have mrk : (eventsRestarted s).mrk = (restartMarks (restartClock (restartLoad s.store.load s))).mrk :=
    mrk_of events (by decide)
  rw [clk_of late (by decide), mrk_of late (by decide), clk_of supplied (by decide), mrk_of supplied (by decide),
    clk_of channels (by decide), mrk_of channels (by decide), clk_of stopped (by decide), mrk_of stopped (by decide), clk, mrk]
  obtain ⟨steps, label⟩ := restartClock_left (restartLoad s.store.load s)
  exact ⟨steps, label, restartMarks_left _⟩

theorem restartWork_strobes : (restartWork s).sch.cals = [] ∧ (restartWork s).sch.next = s.sch.next := by
  have sch : (channelsRestarted s).sch = (restartScheduler (portsStopped s)).sch :=
    (sch_of (restartTrigger_does _) (by decide)).trans (sch_of (restartRings_does _ _) (by decide))
  obtain ⟨-, -, -, -, -, loaded, -⟩ := restartLoad_keeps s.store.load s
  have before := (next_of (portsStopped_does s) (by decide)).trans (next_of (eventsRestarted_does s) (by decide))
  rw [loaded] at before
  obtain ⟨cals, next, -⟩ := restartScheduler_left (portsStopped s)
  rw [sch_of (restartWork_late s) (by decide), sch_of (portsRestarted_does s) (by decide), sch]
  exact ⟨cals, next.trans before⟩

theorem restartWork_lines : (restartWork s).store.slots = s.store.slots ∧ (restartWork s).bus.restarts = inc16 s.bus.restarts := by
  have all := portsRestarted_all s
  obtain ⟨-, -, -, bus, -, -, slots⟩ := restartLoad_keeps s.store.load s
  rw [store_of (restartWork_late s) (by decide), store_of all (by decide), slots, restartWork_eq, restartCounted_restarts,
    bus_of (conditionsRestarted_does s) (by decide), bus_of (powerRestarted_does s) (by decide),
    bus_of (outboxRestart_does _) (by decide), bus_of all (by decide), bus]
  exact ⟨rfl, rfl⟩

theorem restartWork_modem : (restartWork s).mdm.link = .off ∧ (restartWork s).mdm.fails = 0
    ∧ (restartWork s).mdm.tag = s.mdm.tag ∧ (restartWork s).mdm.fault = s.mdm.fault ∧ (restartWork s).mdm.bad = s.mdm.bad
    ∧ (restartWork s).mdm.unexpected = s.mdm.unexpected ∧ (restartWork s).mdm.startTimeouts = s.mdm.startTimeouts := by
  have before := mdm_of (portsRestarted_all s) (by decide)
  obtain ⟨loaded, -⟩ := restartLoad_keeps s.store.load s
  obtain ⟨link, fails, tag, fault, bad, unexpected, startTimeouts, -⟩ := outboxRestart_left (portsRestarted s)
  rw [before, loaded] at tag fault bad unexpected startTimeouts
  rw [restartWork_eq, mdm_of (restartCounted_does _) (by decide), mdm_of (conditionsRestarted_does s) (by decide),
    mdm_of (powerRestarted_does s) (by decide)]
  exact ⟨link, fails, tag, fault, bad, unexpected, startTimeouts⟩

/-! ### The outbox -/

/-- Until the outbox is emptied nine alerts at most are placed. -/
theorem portsRestarted_reports : Reports 9 s (portsRestarted s) := by
  have loaded : Reports 0 s (restartLoad s.store.load s) := ⟨fun _ _ => rfl, fun _ => ⟨Nat.le_refl _, rfl⟩⟩
  have clock := loaded.trans (restartClock_reports (restartLoad s.store.load s))
  have marks := clock.trans (reports_none (restartMarks_does _) (by decide) (by decide))
  have events : Reports 5 s (eventsRestarted s) := marks.trans (restartEvents_reports _)
  have ports := events.trans (portsStopped_off s).1
  have channels := ports.trans (reports_none (channelsRestarted_does s) (by decide) (by decide))
  exact channels.trans (reports_none (portsRestarted_does s) (by decide) (by decide))

theorem emptied_entries : (outboxRestart (portsRestarted s)).box.entries = [] := by
  obtain ⟨-, -, -, -, -, -, -, empty, -⟩ := outboxRestart_left (portsRestarted s)
  exact empty

theorem powerRestarted_late : LateOnly 2 (powerRestarted s) := restartPower_late (emptied_entries s)

theorem restartWork_box : (restartWork s).box = (errorsJudged (powerRestarted s)).box := by
  obtain ⟨-, -, box, -⟩ := restartMonitor_left s.intervalLen (powerRestarted s)
  rw [restartWork_eq, box_of (restartCounted_does _) (by decide), conditionsRestarted, box]

theorem marksCleared_keeps (u : State) : (marksCleared u).params = u.params ∧ (marksCleared u).box = u.box := ⟨rfl, rfl⟩

theorem restartWork_params_judged : (restartWork s).params = (errorsJudged (powerRestarted s)).params := by
  rw [restartWork_eq, params_of (restartCounted_does _) (by decide), params_of (conditionsRestarted_does s) (by decide),
    params_of (errorsJudged_does _) (by decide), (marksCleared_keeps _).1]

theorem restartWork_entries : ∀ a ∈ (restartWork s).box.entries, LateAlert (restartWork s).alertSet a := by
  obtain ⟨-, -, late, -⟩ := errorsJudged_room (powerRestarted_late s)
  have set : (restartWork s).alertSet = (errorsJudged (powerRestarted s)).alertSet :=
    congrArg Int.toNat (param_of_params (restartWork_params_judged s) 111)
  rw [restartWork_box, set]
  exact late.late

theorem restartWork_credits : (restartWork s).box.credits = min s.box.credits (restartWork s).creditCap
    ∧ (restartWork s).box.note = s.box.note ∧ (restartWork s).box.sent = s.box.sent := by
  obtain ⟨credits, note, sent⟩ := credits_of (portsRestarted_all s) (by decide)
  obtain ⟨-, loaded, -⟩ := restartLoad_keeps s.store.load s
  obtain ⟨-, -, -, -, -, -, -, -, -, clamped, note', sent'⟩ := outboxRestart_left (portsRestarted s)
  obtain ⟨credits2, note2, sent2⟩ := credits_of (powerRestarted_does s) (by decide)
  obtain ⟨credits3, note3, sent3⟩ := credits_of (errorsJudged_does (powerRestarted s)) (by decide)
  have cap : (restartWork s).creditCap = (portsRestarted s).creditCap :=
    creditCap_congr (params_of (restartWork_late s) (by decide))
  rw [restartWork_box, credits3, note3, sent3, (marksCleared_keeps _).2, credits2, note2, sent2, clamped, note', sent', cap,
    credits, note, sent, loaded]
  exact ⟨rfl, rfl, rfl⟩

theorem restartWork_drops (few : s.box.entries.length ≤ 3) : (restartWork s).box.drops = s.box.drops := by
  obtain ⟨-, drops⟩ := (portsRestarted_reports s).room (by omega)
  obtain ⟨-, -, -, judged⟩ := errorsJudged_room (powerRestarted_late s)
  obtain ⟨-, -, -, -, -, -, -, -, kept, -⟩ := outboxRestart_left (portsRestarted s)
  have power := (restartPower_reports (outboxRestart (portsRestarted s))).room (by rw [emptied_entries]; decide)
  rw [restartWork_box, judged, powerRestarted, power.2, kept, drops]

/-! ### The monitor -/

theorem powerRestarted_interval : (powerRestarted s).mon.report = s.mon.report
    ∧ (powerRestarted s).mon.number = s.mon.number ∧ (powerRestarted s).mon.start = s.mon.start
    ∧ (powerRestarted s).clk.s = s.clk.s := by
  have all := portsRestarted_all s
  have emptied := outboxRestart_does (portsRestarted s)
  obtain ⟨-, -, mon, -, clk, -⟩ := restartLoad_keeps s.store.load s
  obtain ⟨report, number, start⟩ := interval_of (powerRestarted_does s) (by decide)
  obtain ⟨report', number', start'⟩ := interval_of all (by decide)
  rw [report, number, start, clk_of (powerRestarted_does s) (by decide), mon_of emptied (by decide), clk_of emptied (by decide),
    report', number', start', second_of all (by decide), mon, clk]
  exact ⟨rfl, rfl, rfl, rfl⟩

theorem restartWork_mon : (restartWork s).mon = (restartMonitor s.intervalLen (powerRestarted s)).mon := by
  rw [restartWork_eq, mon_of (restartCounted_does _) (by decide), conditionsRestarted]

theorem restartWork_monitor : (restartWork s).mon.figs = {} ∧ (restartWork s).mon.report = s.mon.report
    ∧ (restartWork s).mon.start = s.mon.start
    ∧ (restartWork s).mon.number = (if (restartWork s).intervalLen = s.intervalLen then s.mon.number
        else s.clk.s / (restartWork s).intervalLen) := by
  obtain ⟨report, number, start, second⟩ := powerRestarted_interval s
  obtain ⟨-, judged, -⟩ := errorsJudged_room (powerRestarted_late s)
  obtain ⟨-, figs, -, report', start', number'⟩ := restartMonitor_left s.intervalLen (powerRestarted s)
  have params : (restartWork s).params = (powerRestarted s).params := by
    rw [restartWork_eq, params_of (restartCounted_does _) (by decide), params_of (conditionsRestarted_does s) (by decide)]
  have length : (restartWork s).intervalLen = (powerRestarted s).intervalLen :=
    congrArg Int.toNat (param_of_params params 113)
  rw [restartWork_mon, figs, report', start', number', length, report, number, start, second, judged]
  exact ⟨rfl, rfl, rfl, rfl⟩

theorem restartWork_flags : (restartWork s).wakeFollows ∧ (restartWork s).degradedFollows := by
  have counted := restartCounted_does (conditionsRestarted s)
  exact ⟨counted.wake (restartMonitor_wake _ _), counted.degraded (restartMonitor_degraded _ _)⟩

/-- Until the error sums are judged the unreported rows stand. -/
theorem powerRestarted_rows {d : CondId} (h : Unreported d) : (powerRestarted s).mon.conds[d] = s.mon.conds[d] := by
  rw [powerRestarted, (restartPower_reports _).rows d h, mon_of (outboxRestart_does _) (by decide),
    (portsRestarted_reports s).rows d h]

theorem restartWork_conds : RowsJudged (powerRestarted s) (restartWork s) := by
  obtain ⟨conds, -⟩ := restartMonitor_left s.intervalLen (powerRestarted s)
  obtain ⟨⟨seven, eight, rest⟩, -⟩ := errorsJudged_room (powerRestarted_late s)
  have rows : (restartWork s).mon.conds = (errorsJudged (powerRestarted s)).mon.conds := by rw [restartWork_mon, conds]
  rw [← rows] at seven eight
  exact ⟨seven, eight, fun d h7 h8 => by rw [rows]; exact rest d h7 h8⟩

end Stages

/-- A row whose mark had been cleared: it shows a mark just where the status has cleared now. -/
theorem Cleared.judged {k t : Cond} {m : Prop} (h : Cleared { k with pending := false } t m) : t.status = false
    ∧ t.changes = (if k.status = true then inc16 k.changes else k.changes) ∧ (t.pending = true ↔ k.status = true ∧ m) := by
  obtain ⟨status, changes, pending⟩ := h
  exact ⟨status, changes, pending.trans (or_iff_right Bool.false_ne_true)⟩

theorem restartWork_rows (s : State) (c : CondId) :
    (c.val ≠ 7 → c.val ≠ 8 → (restartWork s).mon.conds[c].pending = false)
    ∧ (c.val = 7 ∨ c.val = 8 → (restartWork s).mon.conds[c].status = false
      ∧ (restartWork s).mon.conds[c].changes =
        (if s.mon.conds[c].status = true then inc16 s.mon.conds[c].changes else s.mon.conds[c].changes)
      ∧ ((restartWork s).mon.conds[c].pending = true ↔ s.mon.conds[c].status = true
        ∧ (restartWork s).mon.conds[if c.val = 7 then (3 : CondId) else 4].status = false))
    ∧ (c.val = 9 ∨ c.val = 10 ∨ c.val = 13 ∨ c.val = 14 ∨ c.val = 15 →
      (restartWork s).mon.conds[c] = { s.mon.conds[c] with pending := false }) := by
  obtain ⟨seven, eight, rest⟩ := restartWork_conds s
  have other (h7 : c.val ≠ 7) (h8 : c.val ≠ 8) := rest c (fun e => h7 (congrArg Fin.val e)) fun e => h8 (congrArg Fin.val e)
  refine ⟨fun h7 h8 => ?_, ?_, fun h => ?_⟩
  · rw [other h7 h8]
  · rintro (h | h)
    · obtain rfl : c = 7 := Fin.ext h
      rw [powerRestarted_rows s (.inl h)] at seven
      exact seven.judged
    · obtain rfl : c = 8 := Fin.ext h
      rw [powerRestarted_rows s (.inr (.inl h))] at eight
      exact eight.judged
  · rw [other (by omega) (by omega), powerRestarted_rows s (.inr (.inr (by omega)))]

/-! ### The commands -/

section Saves
variable {q : Request} {s : State}

theorem exec_settingsSave (serving : s.serving 0x12 q) (idle : s.store.saving = none) :
    exec .settingsSave s = .next (beginSave s) := by
  obtain ⟨powered, req, recv, reply, kind, fits⟩ := serving
  have e : exec .settingsSave s = execSettingsSave s := rfl
  rw [e, execSettingsSave, act_on powered, req, recv, reply, idle]
  dsimp only
  rw [if_neg (not_not_intro kind), if_pos fits]

theorem exec_settingsSaveDone (dt : Nat) (ok : Bool) {w : Saving} (powered : s.powered = true)
    (saving : s.store.saving = some w) : exec (.settingsSaveDone dt ok) s = .next (endSave w ok (elapse dt s)) := by
  have e : exec (.settingsSaveDone dt ok) s = execSettingsSaveDone dt ok s := rfl
  rw [e, execSettingsSaveDone, act_on powered, saving]

theorem exec_restart (serving : s.serving 0x7F q) :
    exec .restart s = .next (finish [0x00] (if q.bcast then restartWork s else s)) := by
  have e : exec .restart s = execRestart s := rfl
  rw [e, execRestart, act_on serving.1, serve_on _ serving]

theorem exec_restartExecute (dt : Nat) (powered : s.powered = true) (due : s.bus.restartDue = true) :
    exec (.restartExecute dt) s = .next (takeLine { restartWork (elapse dt s) with
      bus := { (restartWork (elapse dt s)).bus with restartDue := false } }) := by
  have e : exec (.restartExecute dt) s = execRestartExecute dt s := rfl
  rw [e, execRestartExecute, act_on powered, if_pos due]

end Saves

/-- Settles O59: the restarted state is that of `restartWork`, whose bus alone the commands then change. -/
theorem settingsAreSavedAndReloaded : Obligations.SettingsAreSavedAndReloaded := by
  unfold Obligations.SettingsAreSavedAndReloaded
  intro q s restarted
  have all (u : State) : restarted u (restartWork u) := by
    obtain ⟨map, pendingMap, chans⟩ := restartWork_settings u
    obtain ⟨steps, label, marks, seqA, seqB⟩ := restartWork_clock u
    obtain ⟨cals, next⟩ := restartWork_strobes u
    obtain ⟨slots, restarts⟩ := restartWork_lines u
    obtain ⟨link, fails, tag, fault, bad, unexpected, startTimeouts⟩ := restartWork_modem u
    obtain ⟨credits, note, sent⟩ := restartWork_credits u
    obtain ⟨figs, report, start, number⟩ := restartWork_monitor u
    obtain ⟨wake, degraded⟩ := restartWork_flags u
    exact ⟨restartWork_params u, map, pendingMap, chans, cals, next, link, fails, marks, seqA, seqB, steps, label, slots,
      restarts, restartWork_entries u, credits, note, sent, restartWork_drops u, tag, fault, bad, unexpected, startTimeouts,
      figs, report, start, number, restartWork_rows u, wake, degraded⟩
  have line (u t : State) (x : Bus) (same : x.restarts = t.bus.restarts) (h : restarted u t) :
      restarted u { t with bus := x } := by
    obtain ⟨params, map, pendingMap, chans, cals, next, link, fails, marks, seqA, seqB, steps, label, slots, restarts, rest⟩ := h
    exact ⟨params, map, pendingMap, chans, cals, next, link, fails, marks, seqA, seqB, steps, label, slots,
      same.trans restarts, rest⟩
  clear_value restarted
  refine ⟨exec_settingsSave, fun dt w u powered saving elapsed => ⟨?done, ?failed⟩, fun serving own => ?own,
    fun serving broadcast => ?broadcast, fun dt powered due => ?execute⟩
  case done =>
    subst elapsed
    exact exec_settingsSaveDone dt true powered saving
  case failed =>
    subst elapsed
    exact ⟨_, exec_settingsSaveDone dt false powered saving⟩
  case own =>
    rw [exec_restart serving, own, if_neg Bool.false_ne_true, finish_own serving.2.1 _ own]
  case broadcast =>
    refine ⟨restartWork s, ?_, all s⟩
    rw [exec_restart serving, if_pos broadcast]
  case execute =>
    have work := all (elapse dt s)
    refine ⟨_, exec_restartExecute dt powered due, ?_⟩
    generalize restartWork (elapse dt s) = t at *
    exact ⟨line _ t _ rfl work, rfl, rfl, rfl⟩

end Sys2Proof.Proofs
end
